-- ==== Sys2Proof/Word.lean ====
section
/-!
DEFINITION. The word types of the UH420: link bytes, sets carried as bits, and the index types of its collections.
-/

namespace Sys2Proof

/-- A byte of a link frame (R180). -/
abbrev Byte := BitVec 8

/-- A link port, 0 to 3 (R179): controller, marking, head 1, head 2. -/
abbrev Port := Fin 4

/-- A hide context, 0 or 1 (R119). -/
abbrev Ctx := Fin 2

/-- A cutting head by its channel: 0 is head 1, 1 is head 2 (R141, R179). -/
abbrev Head := Fin 2

/-- A slot of the Placement Table, 0 to 255 (R98). -/
abbrev SlotNo := Fin 256

/-- A tag of the Demand Queue, 0 to 63 (R57). -/
abbrev Tag := Fin 64

/-- A pattern number, 0 to 127 (R41). -/
abbrev PatNo := Fin 128

/-- A general line, L0 to L5 (R160). -/
abbrev LineNo := Fin 6

/-- A leather grade or flaw class, 0 to 7 (R2). -/
abbrev Grade := Fin 8

/-- An orientation index, 0 to 7 (R44). -/
abbrev Orient := Fin 8

/-- A set drawn from 0..7, member n in the digit of weight 2^n (R188). -/
abbrev Set8 := BitVec 8

/-- A set of notice flag numbers, flag n in the digit of weight 2^n (R188). -/
abbrev FlagSet := BitVec 16

end Sys2Proof
end

