-- ==== Sys2Proof/Syntax.lean ====
section
/-!
DEFINITION. The commands the UH420 takes: one constructor for each row of the table of operations and events.

A request command is the event in which a complete frame of its kind with a good CHECK byte arrives on a port; its
operands are the port and the payload bytes as received (R180, R187). So every payload a master can send is an
operand, wrong lengths, values out of range and foreign ports included.
-/

namespace Sys2Proof

/-- The request kinds of the catalogue (R187). -/
inductive Kind
  | partStatus | noticeRead | noticeClear | noticeSetup | mapRead | placementRead | hideReport | lineStatus
  | partReset | mapTest | setWeights | setConveyor | setGate | gateRelease | setLine
  | libraryBegin | libraryRows | libraryEnd | libraryDrop | libraryRead
  | ruleWrite | ruleRead | rangeWrite | classDefaults
  | demandPost | demandCancel | demandRead
  | hideDrain | hideAbort | hideRelease | placementWithdraw
  | hideOpen | gradeRuns | flawAdd | flawWithdraw | flawRead | markFrontier
  | headOnline | headOffline | claim | startCut | cutDone | cutFailed | returnClaim
  deriving DecidableEq, Repr

/-- The four patterns of the map test (R14). -/
inductive TestPattern
  | alternating | invertedAlternating | addressDerived | allOnes
  deriving DecidableEq, Repr

/-- The four stored fields of a cell as the cell memory holds them: a grade in 3 digits, the class set in 8, and the
occupant in 9, the fewest that hold none and 256 slots (DESIGN CHOICE, log 22). -/
structure StoredCell where
  base     : BitVec 3
  cap      : BitVec 3
  classes  : BitVec 8
  occupant : BitVec 9
  deriving DecidableEq, Repr

/-- What one cell gave back under one pattern of a map test (R14). -/
structure ReadBack where
  plane   : Ctx
  column  : Fin 768
  row     : Fin 512
  pattern : TestPattern
  cell    : StoredCell
  deriving DecidableEq, Repr

/-- The commands, in the order of the table. -/
inductive Instr
  | powerUp
  /-- Operand: what the cell memory gave back during the test that ends; a cell not listed under a pattern gave back
  what was written to it (R14). -/
  | mapTestCompletion (readBacks : List ReadBack)
  | partStatus (port : Port) (payload : List Byte)
  | partReset (port : Port) (payload : List Byte)
  | mapTest (port : Port) (payload : List Byte)
  | noticeRead (port : Port) (payload : List Byte)
  | noticeClear (port : Port) (payload : List Byte)
  | noticeSetup (port : Port) (payload : List Byte)
  | noticeHoldoffExpiry (port : Port)
  | mapRead (port : Port) (payload : List Byte)
  | gradeRuns (port : Port) (payload : List Byte)
  | flawAdd (port : Port) (payload : List Byte)
  | applyJobCompletion
  | flawWithdraw (port : Port) (payload : List Byte)
  | withdrawJobCompletion
  | flawRead (port : Port) (payload : List Byte)
  | ruleWrite (port : Port) (payload : List Byte)
  | rangeWrite (port : Port) (payload : List Byte)
  | classDefaults (port : Port) (payload : List Byte)
  | ruleReadEntry (port : Port) (payload : List Byte)
  | ruleReadTables (port : Port) (payload : List Byte)
  | libraryBegin (port : Port) (payload : List Byte)
  | libraryRows (port : Port) (payload : List Byte)
  | libraryEnd (port : Port) (payload : List Byte)
  | libraryDrop (port : Port) (payload : List Byte)
  | libraryReadRecord (port : Port) (payload : List Byte)
  | libraryReadMask (port : Port) (payload : List Byte)
  | demandPost (port : Port) (payload : List Byte)
  | demandCancel (port : Port) (payload : List Byte)
  | demandReadEntry (port : Port) (payload : List Byte)
  | demandReadList (port : Port) (payload : List Byte)
  | setWeights (port : Port) (payload : List Byte)
  | searchCompletion
  | placementRead (port : Port) (payload : List Byte)
  | hideReport (port : Port) (payload : List Byte)
  | placementWithdraw (port : Port) (payload : List Byte)
  | hideOpen (port : Port) (payload : List Byte)
  | markFrontier (port : Port) (payload : List Byte)
  | hideDrain (port : Port) (payload : List Byte)
  | hideAbort (port : Port) (payload : List Byte)
  | hideRelease (port : Port) (payload : List Byte)
  | setConveyor (port : Port) (payload : List Byte)
  /-- Operands: the levels of inputs A and B in the new sample (R169). -/
  | encoderTransition (a b : Bool)
  | setGate (port : Port) (payload : List Byte)
  | gateRelease (port : Port) (payload : List Byte)
  | gateHoldLimitExpiry
  | headOnline (port : Port) (payload : List Byte)
  | headOffline (port : Port) (payload : List Byte)
  | claim (port : Port) (payload : List Byte)
  | startCut (port : Port) (payload : List Byte)
  | cutDone (port : Port) (payload : List Byte)
  | cutFailed (port : Port) (payload : List Byte)
  | returnClaim (port : Port) (payload : List Byte)
  | claimTimerExpiry (head : Head)
  | setLine (port : Port) (payload : List Byte)
  | lineStatus (port : Port) (payload : List Byte)
  /-- Operands: the line and the level its pin now takes from outside (R161). -/
  | linePinChange (line : LineNo) (level : Bool)
  | debounceExpiry (line : LineNo)
  | outputHoldEnd (line : LineNo)
  /-- Operands: a frame with a good CHECK byte, by its KIND byte and payload. -/
  | unknownKind (port : Port) (kind : Byte) (payload : List Byte)
  /-- Operands: a complete frame by its KIND byte, payload and CHECK byte. -/
  | checkRefused (port : Port) (kind : Byte) (payload : List Byte) (check : Byte)
  /-- Operands: a complete frame by its KIND byte, payload and CHECK byte. -/
  | frameDiscardedOwed (port : Port) (kind : Byte) (payload : List Byte) (check : Byte)
  | frameGapTimeout (port : Port)
  /-- Operands: the port and the LENGTH byte that is too great. -/
  | lengthOverflowDiscard (port : Port) (length : Byte)
  | replySent (port : Port)
  | lineErrorDiscard (port : Port)
  | frameByteReceived (port : Port) (byte : Byte)
  deriving DecidableEq, Repr

end Sys2Proof
end

