-- ==== Sys2Proof/Decode.lean ====
section
/-!
DEFINITION. The command a table word spells. The table of operations and events gives no row any bits: a command is a
request frame, a byte, an event on a pin or the end of work in the part.
-/

namespace Sys2Proof

/-- The command an nbits-bit word spells: none, whatever the word. -/
def decodeTableWord (_nbits _w : Nat) : Option Instr := none

end Sys2Proof
end

