-- ==== Sys2Proof/Config.lean ====
section
/-!
DEFINITION. What the UH420 fixes for every unit (sizes of its collections) and the one free value of the model.
-/

namespace Sys2Proof.Config

/-- Columns of a cell plane (R1). -/
abbrev planeColumns : Nat := 768

/-- Rows of a cell plane (R1). -/
abbrev planeRows : Nat := 512

/-- Records of one flaw list (R17). -/
abbrev maxFlaws : Nat := 512

/-- Entries of the Demand Queue (R57). -/
abbrev maxEntries : Nat := 64

/-- Region cells of the mask store (R46). -/
abbrev storeCells : Nat := 262144

/-- The greatest payload LENGTH of a frame (R180). -/
abbrev maxPayload : Nat := 240

/-- Free value (log 3): how many further candidates a running scan has tested when the n-th map-changing event
is taken. R78 says only that each candidate is tested against the map as it stands at its own time, so nothing
constrains this number beyond the candidates that are left. -/
opaque scanProgress : Nat → Nat

end Sys2Proof.Config
end

