-- ==== Sys2Proof/Machine/State.lean ====
section
/-!
DEFINITION. The state of the UH420 as plain data, the reasons a step can stop, and the state right after power-up.
-/

namespace Sys2Proof.Machine

open Sys2Proof

/-! ### Part condition (R12) -/

inductive Condition
  | starting | testing | ready | failed
  deriving DecidableEq, Repr

/-! ### Hide Map (R1, R2) -/

/-- The stored fields of a cell (R2). -/
structure Cell where
  base     : Grade
  cap      : Grade
  classes  : Set8
  occupant : Option SlotNo
  deriving DecidableEq, Repr

/-- The reset value of a cell (R5). -/
def Cell.reset : Cell := { base := 0, cap := 7, classes := 0, occupant := none }

/-- A cell plane: its cells that are not at their reset value, by address, addresses strictly rising.
The address of cell (x, y) is 768 y + x. -/
abbrev Plane := List (Nat × Cell)

/-! ### Flaw List and Map Writer (R17, R18, R23) -/

inductive Source
  | scanner | operator
  deriving DecidableEq, Repr

/-- A shape with its geometry (R18). -/
inductive Shape
  | disc (cx cy : Int) (radius : Nat)
  | box (x1 y1 x2 y2 : Int)
  | stroke (points : List (Int × Int)) (halfWidth : Nat)
  deriving DecidableEq, Repr

inductive FlawState
  | pending | applied | ignored | withdrawing | withdrawn
  deriving DecidableEq, Repr

/-- The classification fields of a flaw record, written together at the start of its APPLY job (R18, R24). -/
structure Classified where
  cls    : Grade
  margin : Nat
  cap    : Option Grade
  extent : Nat
  area   : Nat
  deriving DecidableEq, Repr

/-- A flaw record (R18). Its flaw number is its position in the list. -/
structure Flaw where
  category   : Nat
  severity   : Nat
  source     : Source
  shape      : Shape
  state      : FlawState
  classified : Option Classified
  deriving DecidableEq, Repr

inductive JobKind
  | apply | withdraw
  deriving DecidableEq, Repr

/-- A Map Writer job (R23). -/
structure Job where
  kind : JobKind
  ctx  : Ctx
  flaw : Nat
  deriving DecidableEq, Repr

/-! ### Flaw Classifier (R30 to R34) -/

/-- A value and a mask for one key field of w digits (R32). -/
structure KeyTest (w : Nat) where
  value : BitVec w
  mask  : BitVec w
  deriving DecidableEq, Repr

inductive Pass
  | first | second
  deriving DecidableEq, Repr

/-- The action of a rule entry: five parts, each present or absent (R32). -/
structure Action where
  cls      : Option Grade
  margin   : Option Grade
  cap      : Option Grade
  next     : Option (Fin 128)
  ignore   : Bool
  deriving DecidableEq, Repr

/-- A rule entry (R32). -/
structure RuleEntry where
  valid    : Bool
  pass     : Pass
  link     : KeyTest 7
  category : KeyTest 4
  ladder   : KeyTest 7
  source   : KeyTest 1
  shape    : KeyTest 2
  anchor   : KeyTest 3
  ranges   : KeyTest 8
  action   : Action
  deriving DecidableEq, Repr

/-- The power-up value of a rule entry (R32); R32 gives its pass no value, and FIRST is the model's (DESIGN CHOICE,
log 27). -/
def RuleEntry.reset : RuleEntry :=
  { valid := false, pass := .first, link := ⟨0, 0⟩, category := ⟨0, 0⟩, ladder := ⟨0, 0⟩, source := ⟨0, 0⟩,
    shape := ⟨0, 0⟩, anchor := ⟨0, 0⟩, ranges := ⟨0, 0⟩,
    action := { cls := none, margin := none, cap := none, next := none, ignore := false } }

inductive Quantity
  | extent | area | severity | anchorGrade | disabled
  deriving DecidableEq, Repr

/-- A range checker (R31). -/
structure RangeChecker where
  quantity : Quantity
  low      : Nat
  high     : Nat
  deriving DecidableEq, Repr

/-- The class defaults (R34). -/
structure ClassDefaults where
  cls    : Grade
  margin : Grade
  cap    : Option Grade
  deriving DecidableEq, Repr

/-! ### Pattern Library (R41 to R47) -/

inductive Region
  | outside | face | hidden | edge
  deriving DecidableEq, Repr

/-- A region's requirement (R43). -/
structure Requirement where
  minGrade  : Nat
  tolerated : Set8
  deriving DecidableEq, Repr

inductive PatternState
  | empty | loading | ready
  deriving DecidableEq, Repr

/-- A pattern record with its stored mask rows (R41, R42). The rows received are the rows of the mask. -/
structure Pattern where
  state    : PatternState
  w        : Nat
  h        : Nat
  mask     : List (List Region)
  kind     : Nat
  face     : Requirement
  hidden   : Requirement
  edge     : Requirement
  orients  : Set8
  covered  : Nat
  reserved : Nat
  refs     : Nat
  deriving DecidableEq, Repr

/-- An EMPTY record (R41). -/
def Pattern.reset : Pattern :=
  { state := .empty, w := 0, h := 0, mask := [], kind := 0, face := ⟨0, 0⟩, hidden := ⟨0, 0⟩, edge := ⟨0, 0⟩,
    orients := 0, covered := 0, reserved := 0, refs := 0 }

/-! ### Demand Queue (R57) -/

inductive Hand
  | left | right | any
  deriving DecidableEq, Repr

inductive EntryState
  | opened | satisfied | cancelled
  deriving DecidableEq, Repr

/-- A demand entry (R57). -/
structure Entry where
  tag        : Tag
  pattern    : PatNo
  hand       : Hand
  requested  : Nat
  live       : Nat
  cut        : Nat
  spoiled    : Nat
  rush       : Bool
  state      : EntryState
  postNumber : BitVec 16
  holders    : Nat
  deriving DecidableEq, Repr

/-! ### Placement Search Unit (R71) -/

structure Weights where
  lead    : Nat
  premium : Nat
  contact : Nat
  deriving DecidableEq, Repr

/-- A demand entry and a context (R71). -/
structure Pair where
  tag : Tag
  ctx : Ctx
  deriving DecidableEq, Repr

/-- The samples of a search (R76): the pattern is sampled with its drawing and requirements. -/
structure Samples where
  weights  : Weights
  floor    : Nat
  frontier : Nat
  width    : Nat
  height   : Nat
  pattern  : PatNo
  drawing  : Pattern
  orients  : List Orient
  deriving DecidableEq, Repr

/-- A candidate of a search (R77). -/
structure Candidate where
  x      : Nat
  y      : Nat
  orient : Orient
  deriving DecidableEq, Repr

/-- The best candidate so far with its score (R82). -/
structure Best where
  cand  : Candidate
  score : Int
  deriving DecidableEq, Repr

/-- A search in flight: how many candidates of the scan order have been tested, and the best of them (R77, R82). -/
structure Search where
  pair    : Pair
  samples : Samples
  tested  : Nat
  best    : Option Best
  retry   : Nat
  deriving DecidableEq, Repr

/-- The unit's state with what it holds in it (R71, R88). -/
inductive SearchState
  | idle
  | searching (search : Search)
  | stalled (pair : Pair)
  deriving DecidableEq, Repr

/-! ### Placement Table (R98, R99) -/

inductive PlacementState
  | placed | claimed | cutting | cut | spoiled | missed | withdrawn
  deriving DecidableEq, Repr

inductive Cause
  | lateFlaw | gradeChange | leftReach | headFault | pieceFault | headOffline | cancelled | request | hideAborted
  deriving DecidableEq, Repr

/-- A placement record (R98); its slot is its place in the table. -/
structure Placement where
  state    : PlacementState
  ctx      : Ctx
  tag      : Tag
  pattern  : PatNo
  orient   : Orient
  xlo      : Nat
  ylo      : Nat
  wo       : Nat
  ho       : Nat
  covered  : Nat
  score    : Int
  commitNo : BitVec 16
  head     : Option Head
  tainted  : Bool
  cause    : Option Cause
  deriving DecidableEq, Repr

/-! ### Hide Contexts and conveyor (R119, R134) -/

inductive CtxState
  | empty | opened | draining | closed
  deriving DecidableEq, Repr

inductive DrainCause
  | request | exhausted
  deriving DecidableEq, Repr

inductive Rank
  | first | second
  deriving DecidableEq, Repr

/-- A hide context (R119). -/
structure HideContext where
  state      : CtxState
  aborted    : Bool
  drainCause : Option DrainCause
  article    : Fin 16
  width      : Nat
  height     : Nat
  rank       : Option Rank
  registered : Bool
  count      : Nat
  frontier   : Nat
  commits    : BitVec 16
  deriving DecidableEq, Repr

/-- The values of an EMPTY context (R120). -/
def HideContext.reset : HideContext :=
  { state := .empty, aborted := false, drainCause := none, article := 0, width := 0, height := 0, rank := none,
    registered := false, count := 0, frontier := 0, commits := 0 }

/-- The reach settings of one head (R134). -/
structure Reach where
  present : Bool
  start   : Nat
  length  : Nat
  deriving DecidableEq, Repr

/-- The conveyor settings (R134). -/
structure Conveyor where
  factor     : Nat
  reach      : Vector Reach 2
  separation : Nat
  guardCells : Nat
  claimLimit : Nat
  deriving DecidableEq, Repr

/-! ### Advance Gate (R136) -/

/-- A running hold timer: elapsed steps of 100 µs, and the limit it started with, in 100 ms (R139). -/
structure HoldTimer where
  elapsed : Nat
  limit   : Nat
  deriving DecidableEq, Repr

structure Gate where
  holding   : Bool
  armed     : Bool
  hold      : Nat
  release   : Nat
  holdLimit : Nat
  timer     : Option HoldTimer
  deriving DecidableEq, Repr

/-! ### Head Service (R141) -/

inductive HeadState
  | offline | ready | fault
  deriving DecidableEq, Repr

inductive Interlock
  | active | inactive
  deriving DecidableEq, Repr

/-- A held slot with its grant order and, while CUTTING, its start order (R141). -/
structure Held where
  slot       : SlotNo
  grantOrder : Nat
  startOrder : Option Nat
  deriving DecidableEq, Repr

/-- A head channel; the claim timer, when running, counts elapsed steps of 100 µs (R141, R157). -/
structure HeadChannel where
  state     : HeadState
  held      : List Held
  timer     : Option Nat
  interlock : Interlock
  deriving DecidableEq, Repr

/-! ### Line Unit (R160, R164) -/

inductive InputFunction
  | none | hideEdge | gateRelease | interlock (h : Head)
  deriving DecidableEq, Repr

inductive OutputSource
  | constant (value : Bool)
  | staged
  | gateHold
  | attention (p : Port)
  | workAvailable (h : Head)
  | hideOpen (k : Ctx)
  | fault
  | searchBusy
  | partReady
  deriving DecidableEq, Repr

/-- A debounce candidate with its stability timer in steps of 100 µs (R161). -/
structure LevelCandidate where
  level   : Bool
  elapsed : Nat
  deriving DecidableEq, Repr

/-- A running minimum pulse hold: its pending level, its timer in steps of 100 µs, and its width in ms (R165). -/
structure PulseHold where
  pending : Option Bool
  elapsed : Nat
  width   : Nat
  deriving DecidableEq, Repr

/-- A line's direction with the working fields of that direction (R160). -/
inductive LineWork
  | input (debounced : Bool) (candidate : Option LevelCandidate)
  | output (driven : Bool) (hold : Option PulseHold)
  deriving DecidableEq, Repr

/-- A line record (R160), with the level that the outside puts on its pin. -/
structure Line where
  invert        : Bool
  debounce      : Nat
  function      : InputFunction
  source        : OutputSource
  width         : Nat
  work          : LineWork
  applied       : Bool
  pendingStaged : Option Bool
  pin           : Bool
  deriving DecidableEq, Repr

/-- The power-up values of a line whose pin stands at a level (R160). -/
def Line.powerUp (pin : Bool) : Line :=
  { invert := false, debounce := 0, function := .none, source := .constant false, width := 0,
    work := .input pin none, applied := false, pendingStaged := none, pin := pin }

/-! ### Notice Units (R171) -/

inductive HoldoffTimer
  | idle
  | running (elapsed : Nat)
  | expired
  deriving DecidableEq, Repr

/-- The Notice Unit of one port (R171); the holdoff timer counts steps of 100 µs. -/
structure NoticeUnit where
  pending   : FlagSet
  enabled   : FlagSet
  count     : Nat
  holdoff   : Nat
  threshold : Nat
  timer     : HoldoffTimer
  attention : Bool
  deriving DecidableEq, Repr

def NoticeUnit.reset : NoticeUnit :=
  { pending := 0, enabled := 0, count := 0, holdoff := 0, threshold := 0, timer := .idle, attention := false }

/-! ### Link Ports (R180, R182, R183) -/

/-- The refusal codes of a reply (R183). -/
inductive Code
  | check | unknown | length | role | busy | state | range | full | notFound | inUse | noneReady | notHeld
  deriving DecidableEq, Repr

/-- A decided reply: KIND echoed, OUTCOME (none is ACCEPTED) and PAYLOAD (R183). -/
structure Reply where
  kind    : Byte
  refusal : Option Code
  payload : List Byte
  deriving DecidableEq, Repr

/-- What a port owes: a decided reply, or the reply to MAP TEST, which the test's completion decides (R16, R182). -/
inductive Owed
  | reply (r : Reply)
  | mapTest
  deriving DecidableEq, Repr

/-- A receiver (R180): hunting, or assembling with the bytes it has. -/
inductive Receiver
  | hunting
  | kind
  | length (kind : Byte)
  | payload (kind length : Byte) (got : List Byte)
  deriving DecidableEq, Repr

/-- A link port. The gap timer counts steps of 100 µs since the last byte of a frame being assembled. -/
structure LinkPort where
  receiver : Receiver
  gap      : Nat
  owed     : Option Owed
  deriving DecidableEq, Repr

def LinkPort.reset : LinkPort := { receiver := .hunting, gap := 0, owed := none }

/-! ### The state -/

structure State where
  /-- The commands that wait, first in, first out (the model's queue). -/
  pending       : List Instr
  condition     : Condition
  mismatches    : Nat
  planes        : Vector Plane 2
  flaws         : Vector (List Flaw) 2
  jobs          : List Job
  inFlight      : Option Job
  rules         : Vector RuleEntry 128
  ranges        : Vector RangeChecker 8
  classDefaults : ClassDefaults
  links         : Vector (Fin 128) 16
  patterns      : Vector Pattern 128
  freeCells     : Nat
  entries       : List Entry
  postCounter   : BitVec 16
  searchUnit    : SearchState
  windowShort   : Bool
  /-- Per context, the set of the tags marked no-fit for it (R90). -/
  marks         : Vector (BitVec 64) 2
  weights       : Weights
  slots         : Vector (Option Placement) 256
  withdrawn     : List SlotNo
  ctxs          : Vector HideContext 2
  conveyor      : Conveyor
  gate          : Gate
  heads         : Vector HeadChannel 2
  grantCount    : Nat
  startCount    : Nat
  lines         : Vector Line 6
  encA          : Bool
  encB          : Bool
  encErrors     : Nat
  notices       : Vector NoticeUnit 4
  ports         : Vector LinkPort 4
  /-- The model's own counter, which the free value of log 3 is applied to. -/
  freeIndex     : Nat
  deriving DecidableEq, Repr

/-- The power-up value of the conveyor settings (R134). -/
def Conveyor.reset : Conveyor :=
  { factor := 8192, reach := Vector.replicate 2 { present := false, start := 0, length := 1 }, separation := 16,
    guardCells := 8, claimLimit := 50 }

/-- The power-up value of the gate (R136). -/
def Gate.reset : Gate := { holding := false, armed := true, hold := 0, release := 1, holdLimit := 0, timer := none }

/-- The power-up value of a head channel (R142). -/
def HeadChannel.reset : HeadChannel := { state := .offline, held := [], timer := none, interlock := .active }

/-- The part right after power-up (R13 and the chapters' power-up values): the condition is STARTING and the power-up
map test runs. Lines at the outside's pin levels are 0, and the encoder levels 0 (DESIGN CHOICE, log 6); the cells
stand at their reset value while the test runs (DESIGN CHOICE, log 5). -/
def State.reset : State :=
  { pending := [], condition := .starting, mismatches := 0,
    planes := Vector.replicate 2 [], flaws := Vector.replicate 2 [], jobs := [], inFlight := none,
    rules := Vector.replicate 128 RuleEntry.reset,
    ranges := Vector.replicate 8 { quantity := .disabled, low := 0, high := 0 },
    classDefaults := { cls := 0, margin := 1, cap := none }, links := Vector.replicate 16 0,
    patterns := Vector.replicate 128 Pattern.reset, freeCells := Config.storeCells,
    entries := [], postCounter := 0,
    searchUnit := .idle, windowShort := false, marks := Vector.replicate 2 0,
    weights := { lead := 16, premium := 4, contact := 8 },
    slots := Vector.replicate 256 none, withdrawn := [],
    ctxs := Vector.replicate 2 HideContext.reset, conveyor := Conveyor.reset, gate := Gate.reset,
    heads := Vector.replicate 2 HeadChannel.reset, grantCount := 0, startCount := 0,
    lines := Vector.replicate 6 (Line.powerUp false), encA := false, encB := false, encErrors := 0,
    notices := Vector.replicate 4 NoticeUnit.reset, ports := Vector.replicate 4 LinkPort.reset, freeIndex := 0 }

/-! ### The reasons a step can stop -/

/-- Faults. The spec gives the part none: a bad request gets a refusal reply, a bad frame is discarded, a failed map
test is a condition. So there is no constructor. -/
inductive Fault
  deriving DecidableEq, Repr

/-- Refusals of the model. -/
inductive Refusal
  /-- Raised by exec's arm of a command that has no meaning yet; safe. No arm uses it. -/
  | notModelled (mnemonic : String)
  deriving DecidableEq, Repr

end Sys2Proof.Machine
end

