-- ==== Sys2Proof/Machine/Ops.lean ====
section
/-!
DEFINITION. The named operations over the state: reading and writing a plane's cells, the one place each collection is
written, the events' signals, and the changes of placements, entries and held lists that several commands share.
-/

namespace Sys2Proof.Machine

open Sys2Proof

/-! ### Index operands -/

/-- The index a number names, if it is in range. -/
def index? (n k : Nat) : Option (Fin n) := if h : k < n then some ⟨k, h⟩ else none

/-- The elements of a vector with their indexes, in ascending order. -/
def indexed {α : Type} {n : Nat} (v : Vector α n) : List (Fin n × α) := (List.finRange n).zip v.toList

/-! ### Cells of a plane (R1 to R6) -/

/-- The address of cell (x, y) in its plane. -/
def cellAddr (x y : Nat) : Nat := Config.planeColumns * y + x

/-- The cell at an address; an address not listed holds a cell at its reset value (R5). -/
def Plane.read : Plane → Nat → Cell
  | [], _ => Cell.reset
  | (b, c) :: rest, a => if a = b then c else Plane.read rest a

/-- Writes the cell at an address, keeping the canonical form. -/
def Plane.write : Plane → Nat → Cell → Plane
  | [], a, c => if c = Cell.reset then [] else [(a, c)]
  | (b, d) :: rest, a, c =>
    if a < b then (if c = Cell.reset then (b, d) :: rest else (a, c) :: (b, d) :: rest)
    else if a = b then (if c = Cell.reset then rest else (a, c) :: rest)
    else (b, d) :: Plane.write rest a c

/-- Rewrites each of the cells listed, in order, from the value it then has. -/
def Plane.update (p : Plane) (cells : List (Nat × Nat)) (f : Nat × Nat → Cell → Cell) : Plane :=
  cells.foldl (fun q xy => Plane.write q (cellAddr xy.1 xy.2) (f xy (Plane.read q (cellAddr xy.1 xy.2)))) p

/-- Sets to none every occupant that is the slot (R4). -/
def Plane.vacate (p : Plane) (n : SlotNo) : Plane :=
  p.filterMap fun (a, c) =>
    if c.occupant = some n then
      (if { c with occupant := none } = Cell.reset then none else some (a, { c with occupant := none }))
    else some (a, c)

/-- The canonical form of a plane: addresses strictly rising, no entry equal to the reset cell. -/
def Plane.wf (p : Plane) : Bool :=
  decide (p.Pairwise fun u v => u.1 < v.1) && p.all fun u => decide (u.2 ≠ Cell.reset)

/-- The lesser of two grades. -/
def lesser (a b : Grade) : Grade := if a ≤ b then a else b

/-- The lesser of base grade and flaw cap (R3). -/
def Cell.effective (c : Cell) : Grade := lesser c.base c.cap

/-- The set holding one class. -/
def classBit (c : Grade) : Set8 := BitVec.twoPow 8 c.val

/-- Whether every member of a set lies in another. -/
def Set8.within (a b : Set8) : Bool := a &&& ~~~b == 0

/-- The cells of a map of W columns and H rows, column by column (R1). -/
def mapCells (w h : Nat) : List (Nat × Nat) :=
  (List.range w).flatMap fun x => (List.range h).map fun y => (x, y)

/-! ### Writing one element of a collection of the state -/

def State.setPlane (s : State) (k : Ctx) (p : Plane) : State := { s with planes := s.planes.set k p }

def State.cell (s : State) (k : Ctx) (x y : Nat) : Cell := Plane.read s.planes[k] (cellAddr x y)

def State.setFlaws (s : State) (k : Ctx) (fs : List Flaw) : State := { s with flaws := s.flaws.set k fs }

def State.updCtx (s : State) (k : Ctx) (f : HideContext → HideContext) : State :=
  { s with ctxs := s.ctxs.set k (f s.ctxs[k]) }

def State.setSlot (s : State) (n : SlotNo) (p : Option Placement) : State := { s with slots := s.slots.set n p }

def State.updHead (s : State) (h : Head) (f : HeadChannel → HeadChannel) : State :=
  { s with heads := s.heads.set h (f s.heads[h]) }

def State.updLine (s : State) (l : LineNo) (f : Line → Line) : State :=
  { s with lines := s.lines.set l (f s.lines[l]) }

def State.updPattern (s : State) (n : PatNo) (f : Pattern → Pattern) : State :=
  { s with patterns := s.patterns.set n (f s.patterns[n]) }

def State.updNotice (s : State) (p : Port) (f : NoticeUnit → NoticeUnit) : State :=
  { s with notices := s.notices.set p (f s.notices[p]) }

def State.updPort (s : State) (p : Port) (f : LinkPort → LinkPort) : State :=
  { s with ports := s.ports.set p (f s.ports[p]) }

def State.updEntry (s : State) (t : Tag) (f : Entry → Entry) : State :=
  { s with entries := s.entries.map fun e => if e.tag = t then f e else e }

/-! ### Notices and the signals of an event -/

/-- The notice flags (R171); those of a head port name the head. -/
inductive Notice
  | committed | pieceCut | pieceSpoiled | pieceMissed | placementWithdrawn | demandSatisfied | rushSatisfied
  | hideClosed | searchStalled | gateHold | unexpectedEdge | headFault | partFault
  | flawApplied | flawIgnored | flawWithdrawn | windowShort | hideRegistered | hideClosedMarking
  | workAvailable (h : Head) | claimLost (h : Head) | pieceTainted (h : Head) | cutAborted (h : Head)
  deriving DecidableEq, Repr

/-- The port of head h (R179). -/
def headPort (h : Head) : Port := if h = 0 then 2 else 3

/-- The port a flag belongs to (R171). -/
def Notice.port : Notice → Port
  | .committed | .pieceCut | .pieceSpoiled | .pieceMissed | .placementWithdrawn | .demandSatisfied
  | .rushSatisfied | .hideClosed | .searchStalled | .gateHold | .unexpectedEdge | .headFault | .partFault => 0
  | .flawApplied | .flawIgnored | .flawWithdrawn | .windowShort | .hideRegistered | .hideClosedMarking => 1
  | .workAvailable h | .claimLost h | .pieceTainted h | .cutAborted h => headPort h

/-- A flag's number within its port (R171). -/
def Notice.number : Notice → Nat
  | .committed => 0 | .pieceCut => 1 | .pieceSpoiled => 2 | .pieceMissed => 3 | .placementWithdrawn => 4
  | .demandSatisfied => 5 | .rushSatisfied => 6 | .hideClosed => 7 | .searchStalled => 8 | .gateHold => 9
  | .unexpectedEdge => 10 | .headFault => 11 | .partFault => 12
  | .flawApplied => 0 | .flawIgnored => 1 | .flawWithdrawn => 2 | .windowShort => 3 | .hideRegistered => 4
  | .hideClosedMarking => 5
  | .workAvailable _ => 0 | .claimLost _ => 1 | .pieceTainted _ => 2 | .cutAborted _ => 3

/-- A flag as a set of one (R188). -/
def Notice.bit (n : Notice) : FlagSet := BitVec.twoPow 16 n.number

/-- What an event has brought about so far that its tail must act on: the flags it raises on each port, and whether
it started a search, started a Map Writer job, registered a context, completed a search, wrote the gate's settings,
or made a slot FREE or WITHDRAWN. -/
structure Signals where
  raised      : Vector FlagSet 4
  searchStart : Bool
  jobStart    : Bool
  registered  : Bool
  completion  : Bool
  gateSet     : Bool
  slotFreed   : Bool
  deriving DecidableEq, Repr

def Signals.none : Signals :=
  { raised := Vector.replicate 4 0, searchStart := false, jobStart := false, registered := false,
    completion := false, gateSet := false, slotFreed := false }

/-- An event under way: the state it has made so far, and its signals. -/
structure Event where
  state : State
  sig   : Signals
  deriving DecidableEq, Repr

/-- An event at its beginning. -/
def State.begin (s : State) : Event := { state := s, sig := Signals.none }

/-- Changes the state of an event. -/
def Event.on (e : Event) (f : State → State) : Event := { e with state := f e.state }

/-- Raises a notice flag in an event; a flag raised twice in one event is raised once (R172). -/
def Event.raise (e : Event) (n : Notice) : Event :=
  { e with sig := { e.sig with raised := e.sig.raised.set n.port (e.sig.raised[n.port] ||| n.bit) } }

/-- Raises a flag if a condition holds. -/
def Event.raiseIf (e : Event) (b : Bool) (n : Notice) : Event := if b then e.raise n else e

/-! ### Demand entries (R57 to R67) and pattern references (R47) -/

/-- The entry that holds a tag. -/
def State.entry? (s : State) (t : Tag) : Option Entry := s.entries.find? fun e => e.tag = t

/-- Requested less cut less live (R59). -/
def Entry.need (e : Entry) : Nat := e.requested - e.cut - e.live

/-- OPEN with need above 0 (R59). -/
def Entry.eligible (e : Entry) : Bool := e.state = .opened && decide (0 < e.need)

/-- A pattern loses one reference (R47). -/
def State.dropRef (s : State) (n : PatNo) : State := s.updPattern n fun p => { p with refs := p.refs - 1 }

/-- A pattern gains one reference (R47). -/
def State.addRef (s : State) (n : PatNo) : State := s.updPattern n fun p => { p with refs := p.refs + 1 }

/-- The mark of a tag in a context's no-fit set (R90). -/
def tagBit (t : Tag) : BitVec 64 := BitVec.twoPow 64 t.val

/-- Clears a tag's marks for both contexts (R92). -/
def State.unmarkTag (s : State) (t : Tag) : State :=
  { s with marks := s.marks.map fun m => m &&& ~~~(tagBit t) }

/-- Clears every mark for a context (R91). -/
def State.clearMarks (s : State) (k : Ctx) : State := { s with marks := s.marks.set k 0 }

/-- Marks a pair no-fit (R90). -/
def State.mark (s : State) (t : Tag) (k : Ctx) : State := { s with marks := s.marks.set k (s.marks[k] ||| tagBit t) }

/-- Whether an entry has come to be removed: SATISFIED or CANCELLED with no holders (R67). -/
def Entry.done (e : Entry) : Bool := e.state ≠ .opened && e.holders = 0

/-- Removes the entry that holds a tag if R67 asks it: the queue closes up, the tag is free, the pattern loses a
reference and the tag's marks are cleared (R67, R92). -/
def State.removeIfDone (s : State) (t : Tag) : State :=
  match s.entry? t with
  | none => s
  | some e =>
    if e.done then
      (({ s with entries := s.entries.filter fun x => x.tag ≠ t }).dropRef e.pattern).unmarkTag t
    else s

/-- A slot names the entry no longer (R62, R113): its holders fall and it is checked for removal. -/
def State.dropHolder (s : State) (t : Tag) : State :=
  (s.updEntry t fun e => { e with holders := e.holders - 1 }).removeIfDone t

/-! ### Held lists (R143) -/

/-- A slot leaves a head's held list; one left behind it moves up (R143). -/
def State.unhold (s : State) (h : Head) (n : SlotNo) : State :=
  s.updHead h fun c => { c with held := c.held.filter fun x => x.slot ≠ n }

/-- A slot leaves the held list of the head its record names, if any. -/
def State.unholdBy (s : State) (h : Option Head) (n : SlotNo) : State :=
  match h with
  | none => s
  | some h => s.unhold h n

/-! ### Changes of a placement (R99 to R105) -/

/-- The entry loses a live placement (R62). -/
def Entry.loseLive (e : Entry) : Entry := { e with live := e.live - 1 }

/-- A CUTTING piece of the entry is spoiled (R62). -/
def Entry.spoilCutting (e : Entry) : Entry := { e with live := e.live - 1, spoiled := min 255 (e.spoiled + 1) }

/-- A CUT piece of the entry is spoiled; a SATISFIED entry is OPEN again (R64). -/
def Entry.spoilCut (e : Entry) : Entry :=
  { e with cut := e.cut - 1, spoiled := min 255 (e.spoiled + 1),
           state := if e.state = .satisfied then .opened else e.state }

/-- A CUTTING piece of the entry is cut; an OPEN entry that has all its pieces is SATISFIED (R63). -/
def Entry.countCut (e : Entry) : Entry :=
  { e with live := e.live - 1, cut := e.cut + 1,
           state := if e.state = .opened && e.cut + 1 = e.requested then .satisfied else e.state }

/-- A PLACED or CLAIMED record becomes WITHDRAWN with a cause (R104). -/
def Event.withdraw (e : Event) (n : SlotNo) (cause : Cause) : Event :=
  match e.state.slots[n] with
  | none => e
  | some p =>
    let s := e.state.setSlot n (some { p with state := .withdrawn, cause := some cause })
    let s := s.setPlane p.ctx (Plane.vacate s.planes[p.ctx] n)
    let s := { s with withdrawn := s.withdrawn ++ [n] }
    let s := s.updEntry p.tag Entry.loseLive
    let s := s.clearMarks p.ctx
    let e : Event := { state := s, sig := { e.sig with slotFreed := true } }
    let e := e.raise .placementWithdrawn
    match p.state, p.head with
    | .claimed, some h => (e.on fun s => s.unhold h n).raise (.claimLost h)
    | _, _ => e

/-- A CUTTING or CUT record becomes SPOILED with a cause; it keeps its cells (R102). A CUTTING one leaves its head's
held list. -/
def Event.spoil (e : Event) (n : SlotNo) (cause : Cause) : Event :=
  match e.state.slots[n] with
  | none => e
  | some p =>
    let s := e.state.setSlot n (some { p with state := .spoiled, cause := some cause })
    let s := if p.state = .cut then s.updEntry p.tag Entry.spoilCut
      else (s.updEntry p.tag Entry.spoilCutting).unholdBy p.head n
    (({ e with state := s } : Event)).raise .pieceSpoiled

/-- A CLAIMED record returns to PLACED with head none and leaves its head's held list (R100, R143). -/
def State.returnClaim (s : State) (n : SlotNo) : State :=
  match s.slots[n] with
  | none => s
  | some p => (s.setSlot n (some { p with state := .placed, head := none })).unholdBy p.head n

/-- A slot becomes FREE: its record is discarded, with the effects on its entry and pattern (R113). -/
def Event.free (e : Event) (n : SlotNo) : Event :=
  match e.state.slots[n] with
  | none => e
  | some p =>
    let s := e.state.setSlot n none
    let s := { s with withdrawn := s.withdrawn.filter fun m => m ≠ n }
    let s := (s.dropHolder p.tag).dropRef p.pattern
    { state := s, sig := { e.sig with slotFreed := true } }

/-- The slots that hold a record, with their records, in ascending slot order. -/
def State.records (s : State) : List (SlotNo × Placement) :=
  (indexed s.slots).filterMap fun (n, p) => p.map fun r => (n, r)

/-- PLACED, CLAIMED or CUTTING (R98). -/
def PlacementState.live : PlacementState → Bool
  | .placed | .claimed | .cutting => true
  | .cut | .spoiled | .missed | .withdrawn => false

/-- The ready count: PLACED records whose context is registered (R105). -/
def State.readyCount (s : State) : Nat :=
  s.records.countP fun r => r.2.state = .placed && s.ctxs[r.2.ctx].registered

/-- The live count of a context (R105). -/
def State.liveCount (s : State) (k : Ctx) : Nat :=
  s.records.countP fun r => r.2.ctx = k && r.2.state.live

/-! ### Link ports (R180, R182) -/

/-- The receiver of a port returns to hunting (R180). -/
def State.hunt (s : State) (p : Port) : State := s.updPort p fun l => { l with receiver := .hunting, gap := 0 }

/-- The port owes a reply, decided or not (R182). -/
def State.owe (s : State) (p : Port) (o : Owed) : State := s.updPort p fun l => { l with owed := some o }

end Sys2Proof.Machine
end

