-- ==== Sys2Proof/Machine/Operands.lean ====
section
/-!
DEFINITION. The operand forms of the link: fields of request payloads and reply payloads (R188 to R190), the request
catalogue (R187), and the codes of the names that payloads carry.
-/

namespace Sys2Proof.Machine

open Sys2Proof

/-! ### Reading a request payload -/

/-- The one-byte field at an offset. -/
def u8 (pl : List Byte) (i : Nat) : Nat := (pl.getD i 0).toNat

/-- The two-byte field at an offset, low byte first. -/
def u16 (pl : List Byte) (i : Nat) : Nat := u8 pl i + 256 * u8 pl (i + 1)

/-- The signed two-byte field at an offset, two's complement. -/
def s16 (pl : List Byte) (i : Nat) : Int := (BitVec.ofNat 16 (u16 pl i)).toInt

/-- The set carried by the byte at an offset. -/
def set8 (pl : List Byte) (i : Nat) : Set8 := pl.getD i 0

/-- The set of flag numbers carried by two bytes at an offset. -/
def flagSet (pl : List Byte) (i : Nat) : FlagSet := BitVec.ofNat 16 (u16 pl i)

/-! ### Writing a reply payload -/

/-- A number in one byte. -/
def enc1 (n : Nat) : List Byte := [BitVec.ofNat 8 n]

/-- A number in two bytes, low byte first. -/
def enc2 (n : Nat) : List Byte := [BitVec.ofNat 8 n, BitVec.ofNat 8 (n / 256)]

/-- A number in three bytes, low byte first. -/
def enc3 (n : Nat) : List Byte := [BitVec.ofNat 8 n, BitVec.ofNat 8 (n / 256), BitVec.ofNat 8 (n / 65536)]

/-- A number in four bytes, low byte first. -/
def enc4 (n : Nat) : List Byte :=
  [BitVec.ofNat 8 n, BitVec.ofNat 8 (n / 256), BitVec.ofNat 8 (n / 65536), BitVec.ofNat 8 (n / 16777216)]

/-- A signed number in two bytes, two's complement. -/
def encS2 (z : Int) : List Byte := enc2 (BitVec.ofInt 16 z).toNat

/-- A signed number in four bytes, two's complement. -/
def encS4 (z : Int) : List Byte := enc4 (BitVec.ofInt 32 z).toNat

/-- A yes or no, or a set or clear, in one byte (R188). -/
def encFlag (b : Bool) : List Byte := enc1 (if b then 1 else 0)

/-- A value below 255 that may be none or absent, in one byte (R188). -/
def encOpt (o : Option Nat) : List Byte := enc1 (o.getD 255)

/-- A slot or none, in two bytes (R188). -/
def encSlot? (o : Option SlotNo) : List Byte := enc2 ((o.map fun n => n.val).getD 65535)

/-! ### Codes of names: the position of the name in its list (R188) -/

def Condition.code : Condition → Nat
  | .starting => 0 | .testing => 1 | .ready => 2 | .failed => 3

def SearchState.code : SearchState → Nat
  | .idle => 0 | .searching _ => 1 | .stalled _ => 2

def CtxState.code : CtxState → Nat
  | .empty => 0 | .opened => 1 | .draining => 2 | .closed => 3

/-- None is 255; the two names count from 0 (DEDUCED, log 9). -/
def drainCode (d : Option DrainCause) : Nat :=
  match d with
  | none => 255 | some .request => 0 | some .exhausted => 1

/-- None is 255; the two names count from 0 (DEDUCED, log 9). -/
def rankCode (r : Option Rank) : Nat :=
  match r with
  | none => 255 | some .first => 0 | some .second => 1

def HeadState.code : HeadState → Nat
  | .offline => 0 | .ready => 1 | .fault => 2

def Interlock.code : Interlock → Nat
  | .active => 0 | .inactive => 1

def HoldoffTimer.code : HoldoffTimer → Nat
  | .idle => 0 | .running _ => 1 | .expired => 2

def FlawState.code : FlawState → Nat
  | .pending => 0 | .applied => 1 | .ignored => 2 | .withdrawing => 3 | .withdrawn => 4

/-- The flaw source codes (R189). -/
def Source.code : Source → Nat
  | .scanner => 0 | .operator => 1

/-- The shape codes (R189). -/
def Shape.code : Shape → Nat
  | .disc .. => 0 | .box .. => 1 | .stroke .. => 2

def Pass.code : Pass → Nat
  | .first => 0 | .second => 1

def Quantity.code : Quantity → Nat
  | .extent => 0 | .area => 1 | .severity => 2 | .anchorGrade => 3 | .disabled => 4

def quantity? : Nat → Option Quantity
  | 0 => some .extent | 1 => some .area | 2 => some .severity | 3 => some .anchorGrade | 4 => some .disabled
  | _ => none

def PatternState.code : PatternState → Nat
  | .empty => 0 | .loading => 1 | .ready => 2

def Region.code : Region → Nat
  | .outside => 0 | .face => 1 | .hidden => 2 | .edge => 3

/-- The region of a code of two digits (R42, R50). -/
def regionOf (n : Nat) : Region :=
  match n % 4 with
  | 0 => .outside | 1 => .face | 2 => .hidden | _ => .edge

def Hand.code : Hand → Nat
  | .left => 0 | .right => 1 | .any => 2

def hand? : Nat → Option Hand
  | 0 => some .left | 1 => some .right | 2 => some .any | _ => none

def EntryState.code : EntryState → Nat
  | .opened => 0 | .satisfied => 1 | .cancelled => 2

/-- The placement state codes (R190). -/
def PlacementState.code : PlacementState → Nat
  | .placed => 1 | .claimed => 2 | .cutting => 3 | .cut => 4 | .spoiled => 5 | .missed => 6 | .withdrawn => 7

/-- The cause codes; 0 is absent (R190). -/
def causeCode (c : Option Cause) : Nat :=
  match c with
  | none => 0 | some .lateFlaw => 1 | some .gradeChange => 2 | some .leftReach => 3 | some .headFault => 4
  | some .pieceFault => 5 | some .headOffline => 6 | some .cancelled => 7 | some .request => 8
  | some .hideAborted => 9

/-- A record's head field: 0 none, 1, 2 (R190). -/
def headCode (h : Option Head) : Nat :=
  match h with
  | none => 0 | some h => h.val + 1

def InputFunction.code : InputFunction → Nat
  | .none => 0 | .hideEdge => 1 | .gateRelease => 2 | .interlock h => 3 + h.val

def inputFunction? : Nat → Option InputFunction
  | 0 => some .none | 1 => some .hideEdge | 2 => some .gateRelease | 3 => some (.interlock 0)
  | 4 => some (.interlock 1) | _ => none

def OutputSource.code : OutputSource → Nat
  | .constant _ => 0 | .staged => 1 | .gateHold => 2 | .attention _ => 3 | .workAvailable _ => 4
  | .hideOpen _ => 5 | .fault => 6 | .searchBusy => 7 | .partReady => 8

/-- A reply's OUTCOME code of a refusal (R183). -/
def Code.number : Code → Nat
  | .check => 1 | .unknown => 2 | .length => 3 | .role => 4 | .busy => 5 | .state => 6 | .range => 7 | .full => 8
  | .notFound => 9 | .inUse => 10 | .noneReady => 11 | .notHeld => 12

/-! ### Shapes of flaws (R189) -/

/-- The point at an offset. -/
def pointAt (pl : List Byte) (i : Nat) : Int × Int := (s16 pl i, s16 pl (i + 2))

/-- The shape of a FLAW ADD payload, if its code and values are in range (R20, R189). -/
def shape? (pl : List Byte) : Option Shape :=
  match u8 pl 4 with
  | 0 => if u8 pl 9 ≤ 63 then some (.disc (s16 pl 5) (s16 pl 7) (u8 pl 9)) else none
  | 1 => some (.box (s16 pl 5) (s16 pl 7) (s16 pl 9) (s16 pl 11))
  | 2 =>
    if 1 ≤ u8 pl 6 ∧ u8 pl 6 ≤ 16 ∧ u8 pl 5 ≤ 15 then
      some (.stroke ((List.range (u8 pl 6)).map fun k => pointAt pl (7 + 4 * k)) (u8 pl 5))
    else none
  | _ => none

/-- A point in a reply. -/
def encPoint (p : Int × Int) : List Byte := encS2 p.1 ++ encS2 p.2

/-- A shape in a reply: its code, then its geometry in the order of R189 (DEDUCED, log 11). -/
def Shape.bytes (sh : Shape) : List Byte :=
  enc1 sh.code ++
  match sh with
  | .disc cx cy r => encPoint (cx, cy) ++ enc1 r
  | .box x1 y1 x2 y2 => encPoint (x1, y1) ++ encPoint (x2, y2)
  | .stroke pts hw => enc1 hw ++ enc1 pts.length ++ pts.flatMap encPoint

/-! ### Mask rows (R50) -/

/-- The bytes of one mask row of w columns. -/
def rowBytes (w : Nat) : Nat := (w + 3) / 4

/-- The region codes of the first w columns of a packed row: four to a byte, lowest column in the lowest digits. -/
def unpackRow (w : Nat) (bytes : List Byte) : List Region :=
  (List.range w).map fun i => regionOf (u8 bytes (i / 4) / 4 ^ (i % 4))

/-- A mask row packed as LIBRARY ROWS packs it, with 0 in the padding digits. -/
def packRow (w : Nat) (row : List Region) : List Byte :=
  (List.range (rowBytes w)).map fun b =>
    BitVec.ofNat 8 ((List.range 4).foldl (fun n j => n + (row.getD (4 * b + j) .outside).code * 4 ^ j) 0)

/-- Cuts a list into n pieces of a length. -/
def pieces {α : Type} (len : Nat) : Nat → List α → List (List α)
  | 0, _ => []
  | n + 1, xs => xs.take len :: pieces len n (xs.drop len)

/-- The LENGTH check of a FLAW ADD payload (R189). -/
def flawLengthOk (pl : List Byte) : Bool :=
  decide (7 ≤ pl.length) &&
  match u8 pl 4 with
  | 0 => pl.length = 10
  | 1 => pl.length = 13
  | 2 => if 1 ≤ u8 pl 6 ∧ u8 pl 6 ≤ 16 then pl.length = 7 + 4 * u8 pl 6 else true
  | _ => true

end Sys2Proof.Machine

namespace Sys2Proof

/-! ### The request catalogue (R187) -/

/-- The KIND byte of a kind. -/
def Kind.byte : Kind → Byte
  | .partStatus => 0x01 | .noticeRead => 0x02 | .noticeClear => 0x03 | .noticeSetup => 0x04 | .mapRead => 0x05
  | .placementRead => 0x06 | .hideReport => 0x07 | .lineStatus => 0x17 | .partReset => 0x10 | .mapTest => 0x11
  | .setWeights => 0x12 | .setConveyor => 0x13 | .setGate => 0x14 | .gateRelease => 0x15 | .setLine => 0x16
  | .libraryBegin => 0x20 | .libraryRows => 0x21 | .libraryEnd => 0x22 | .libraryDrop => 0x23
  | .libraryRead => 0x24 | .ruleWrite => 0x28 | .ruleRead => 0x29 | .rangeWrite => 0x2A | .classDefaults => 0x2B
  | .demandPost => 0x30 | .demandCancel => 0x31 | .demandRead => 0x32 | .hideDrain => 0x38 | .hideAbort => 0x39
  | .hideRelease => 0x3A | .placementWithdraw => 0x3B | .hideOpen => 0x40 | .gradeRuns => 0x41 | .flawAdd => 0x42
  | .flawWithdraw => 0x43 | .flawRead => 0x44 | .markFrontier => 0x45 | .headOnline => 0x50 | .headOffline => 0x51
  | .claim => 0x52 | .startCut => 0x53 | .cutDone => 0x54 | .cutFailed => 0x55 | .returnClaim => 0x56

/-- Whether a kind is accepted on a port (R187). -/
def Kind.accepts (k : Kind) (p : Port) : Bool :=
  match k with
  | .partStatus | .noticeRead | .noticeClear | .noticeSetup | .placementRead | .lineStatus => true
  | .mapRead | .hideReport => p = 0 || p = 1
  | .partReset | .mapTest | .setWeights | .setConveyor | .setGate | .gateRelease | .setLine | .libraryBegin
  | .libraryRows | .libraryEnd | .libraryDrop | .libraryRead | .ruleWrite | .ruleRead | .rangeWrite
  | .classDefaults | .demandPost | .demandCancel | .demandRead | .hideDrain | .hideAbort | .hideRelease
  | .placementWithdraw => p = 0
  | .hideOpen | .gradeRuns | .flawAdd | .flawWithdraw | .flawRead | .markFrontier => p = 1
  | .headOnline | .headOffline | .claim | .startCut | .cutDone | .cutFailed | .returnClaim => p = 2 || p = 3

/-- The read kinds, which are taken in FAILED (R184). -/
def Kind.isRead : Kind → Bool
  | .noticeRead | .mapRead | .placementRead | .hideReport | .lineStatus | .libraryRead | .ruleRead | .demandRead
  | .flawRead => true
  | _ => false

/-- The LENGTH check of a kind (R187). -/
def Kind.lengthOk (k : Kind) (pl : List Byte) : Bool :=
  match k with
  | .partStatus | .noticeRead | .lineStatus | .partReset | .mapTest | .gateRelease | .headOnline | .headOffline
  | .claim => pl.length = 0
  | .placementRead | .hideReport | .libraryEnd | .libraryDrop | .ruleRead | .demandCancel | .demandRead
  | .hideDrain | .hideAbort | .hideRelease => pl.length = 1
  | .noticeClear => pl.length = 2
  | .setWeights | .setGate | .libraryRead | .flawWithdraw | .flawRead | .markFrontier => pl.length = 3
  | .noticeSetup | .demandPost | .placementWithdraw | .startCut | .cutDone | .returnClaim => pl.length = 4
  | .hideOpen | .cutFailed => pl.length = 5
  | .mapRead | .rangeWrite => pl.length = 6
  | .setLine => pl.length = 9
  | .libraryBegin => pl.length = 11
  | .setConveyor => pl.length = 14
  | .classDefaults => pl.length = 19
  | .ruleWrite => pl.length = 22
  | .libraryRows => decide (3 ≤ pl.length) && decide (pl.length ≤ 240)
  | .gradeRuns => decide (3 ≤ pl.length) && decide ((pl.length - 3) % 4 = 0) && decide ((pl.length - 3) / 4 ≤ 48)
  | .flawAdd => Machine.flawLengthOk pl

end Sys2Proof

namespace Sys2Proof.Machine

open Sys2Proof

/-- Every kind of the catalogue. -/
def allKinds : List Kind :=
  [.partStatus, .noticeRead, .noticeClear, .noticeSetup, .mapRead, .placementRead, .hideReport, .lineStatus,
   .partReset, .mapTest, .setWeights, .setConveyor, .setGate, .gateRelease, .setLine,
   .libraryBegin, .libraryRows, .libraryEnd, .libraryDrop, .libraryRead,
   .ruleWrite, .ruleRead, .rangeWrite, .classDefaults, .demandPost, .demandCancel, .demandRead,
   .hideDrain, .hideAbort, .hideRelease, .placementWithdraw,
   .hideOpen, .gradeRuns, .flawAdd, .flawWithdraw, .flawRead, .markFrontier,
   .headOnline, .headOffline, .claim, .startCut, .cutDone, .cutFailed, .returnClaim]

/-- The kind a KIND byte names, if any (R184). -/
def kindOf (b : Byte) : Option Kind := allKinds.find? fun k => k.byte = b

/-- The refusal of the common checks after CHECK and UNKNOWN, if any: ROLE, the part condition, LENGTH (R184). -/
def commonRefusal (k : Kind) (p : Port) (pl : List Byte) (c : Condition) : Option Code :=
  if !k.accepts p then some .role
  else if (c = .starting || c = .testing) && k ≠ .partStatus then some .busy
  else if c = .failed && !(k = .partStatus || k = .mapTest || k.isRead) then some .state
  else if !k.lengthOk pl then some .length
  else none

/-! ### Taking a request -/

/-- An owner's answer to a request it was handed: a refusal, the payload of an ACCEPTED reply, or a reply that is
decided later (MAP TEST, R16). -/
inductive Answer
  | refuse (c : Code)
  | accept (payload : List Byte)
  | later
  deriving DecidableEq, Repr

/-- What a port owes after an answer (R182, R183). -/
def Answer.owed (a : Answer) (k : Kind) : Owed :=
  match a with
  | .refuse c => .reply { kind := k.byte, refusal := some c, payload := [] }
  | .accept pl => .reply { kind := k.byte, refusal := none, payload := pl }
  | .later => .mapTest

/-- The owning block's part of a request: from the port, the payload and the state, the state it leaves and its
answer. -/
abbrev Owner := Port → List Byte → State → State × Answer

/-- The port owes what an owner answered. -/
def settleAnswer (k : Kind) (p : Port) (r : State × Answer) : State := r.1.owe p (r.2.owed k)

/-- A request whose frame is complete with a good CHECK byte (R180, R182, R184): the receiver hunts again; a port that
owes a reply discards the frame; otherwise the common checks refuse it or its owner takes it, and the port owes the
reply. -/
def request (k : Kind) (owner : Owner) (p : Port) (pl : List Byte) (s : State) :
    Host.Outcome State Fault Refusal :=
  if (s.ports[p]).owed.isSome then .next (s.hunt p)
  else
    match commonRefusal k p pl s.condition with
    | some c => .next ((s.hunt p).owe p ((Answer.refuse c).owed k))
    | none => .next (settleAnswer k p (owner p pl (s.hunt p)))

/-- An owner that only reads. -/
def reading (f : Port → List Byte → State → Answer) : Owner := fun p pl s => (s, f p pl s)

/-- The bytes of a reply frame as sent, with its CHECK (R183, R188). -/
def Reply.frame (r : Reply) : List Byte :=
  let body : List Byte :=
    [r.kind] ++ enc1 ((r.refusal.map Code.number).getD 0) ++ enc1 r.payload.length ++ r.payload
  [0x5A] ++ body ++ [0 - body.foldl (· + ·) 0]

/-- Whether the sum of KIND, LENGTH, payload and CHECK is 0 (R181). -/
def sumOk (kind : Byte) (pl : List Byte) (check : Byte) : Bool :=
  kind + BitVec.ofNat 8 pl.length + pl.foldl (· + ·) 0 + check == 0

end Sys2Proof.Machine
end

