-- ==== Sys2Proof/Machine/Geometry.lean ====
section
/-!
DEFINITION. The geometry of flaws (section 2.4 of the flaw chapter): footprints, margins, anchors, extent and area,
and the cell changes of the Map Writer's jobs.
-/

namespace Sys2Proof.Machine

open Sys2Proof

/-- The points of one segment of a stroke (R28). -/
def segmentPoints (a b : Int × Int) : List (Int × Int) :=
  let dx := b.1 - a.1
  let dy := b.2 - a.2
  let n : Nat := max dx.natAbs dy.natAbs
  if n = 0 then [a]
  else (List.range (n + 1)).map fun (k : Nat) =>
    (a.1 + (2 * (k : Int) * dx + n) / (2 * n), a.2 + (2 * (k : Int) * dy + n) / (2 * n))

/-- Every point of a stroke that is stamped: those of its segments, or its only point (R28). -/
def strokePoints (pts : List (Int × Int)) : List (Int × Int) :=
  match pts with
  | [] => []
  | [a] => [a]
  | a :: rest => (List.zip (a :: rest) rest).flatMap fun ab => segmentPoints ab.1 ab.2

/-- Whether a shape's footprint, on the unbounded grid, holds a cell (R27, R28). -/
def Shape.covers (sh : Shape) (i j : Int) : Bool :=
  match sh with
  | .disc cx cy r => decide ((i - cx) * (i - cx) + (j - cy) * (j - cy) ≤ (r : Int) * r)
  | .box x1 y1 x2 y2 =>
    decide (min x1 x2 ≤ i) && decide (i ≤ max x1 x2) && decide (min y1 y2 ≤ j) && decide (j ≤ max y1 y2)
  | .stroke pts hw =>
    (strokePoints pts).any fun p => decide ((i - p.1).natAbs ≤ hw) && decide ((j - p.2).natAbs ≤ hw)

/-- The offsets −m..m. -/
def offsets (m : Nat) : List Int := (List.range (2 * m + 1)).map fun (k : Nat) => (k : Int) - m

/-- Whether a cell lies in the footprint or at Chebyshev distance 1..m from it (R29). -/
def Shape.reaches (sh : Shape) (m : Nat) (i j : Int) : Bool :=
  (offsets m).any fun dx => (offsets m).any fun dy => sh.covers (i + dx) (j + dy)

/-- The footprint clipped to a map (R29). -/
def Shape.footprint (sh : Shape) (w h : Nat) : List (Nat × Nat) :=
  (mapCells w h).filter fun xy => sh.covers xy.1 xy.2

/-- The footprint and margin clipped to a map (R29). -/
def Shape.reach (sh : Shape) (m w h : Nat) : List (Nat × Nat) :=
  (mapCells w h).filter fun xy => sh.reaches m xy.1 xy.2

/-- One more than the greatest less the least of some numbers; 0 of none. -/
def span : List Nat → Nat
  | [] => 0
  | a :: rest => rest.foldl max a - rest.foldl min a + 1

/-- The longer side of the bounding box of a set of cells (R29). -/
def extentOf (cells : List (Nat × Nat)) : Nat := max (span (cells.map (·.1))) (span (cells.map (·.2)))

/-- The number of cells, saturating (R29). -/
def areaOf (cells : List (Nat × Nat)) : Nat := min 65535 cells.length

/-- A coordinate moved to the nearest of 0..n−1 (R24). -/
def clampTo (n : Nat) (z : Int) : Nat := min z.toNat (n - 1)

/-- The point a flaw is classified at, before it is moved onto the map (R24). -/
def Shape.anchorPoint (sh : Shape) : Int × Int :=
  match sh with
  | .disc cx cy _ => (cx, cy)
  | .box x1 y1 _ _ => (x1, y1)
  | .stroke pts _ => pts.headD (0, 0)

/-- The anchor cell of a shape on a map (R24). -/
def Shape.anchor (sh : Shape) (w h : Nat) : Nat × Nat := (clampTo w sh.anchorPoint.1, clampTo h sh.anchorPoint.2)

/-- The least and greatest column and row of a footprint on the unbounded grid: (x lo, x hi, y lo, y hi). -/
def Shape.bounds (sh : Shape) : Int × Int × Int × Int :=
  match sh with
  | .disc cx cy r => (cx - r, cx + r, cy - r, cy + r)
  | .box x1 y1 x2 y2 => (min x1 x2, max x1 x2, min y1 y2, max y1 y2)
  | .stroke pts hw =>
    let a := pts.headD (0, 0)
    (pts.foldl (fun z p => min z p.1) a.1 - hw, pts.foldl (fun z p => max z p.1) a.1 + hw,
     pts.foldl (fun z p => min z p.2) a.2 - hw, pts.foldl (fun z p => max z p.2) a.2 + hw)

/-- The rectangle a WITHDRAW job recomputes: the bounding box of footprint and margin, clipped to the map (R26;
DEDUCED that the box is taken before clipping, log 19). -/
def Shape.rectangle (sh : Shape) (m w h : Nat) : List (Nat × Nat) :=
  let b := sh.bounds
  (mapCells w h).filter fun xy =>
    decide (b.1 - m ≤ xy.1) && decide ((xy.1 : Int) ≤ b.2.1 + m) &&
    decide (b.2.2.1 - m ≤ xy.2) && decide ((xy.2 : Int) ≤ b.2.2.2 + m)

/-- The lesser of a flaw cap and a flaw's cap, none lowering nothing (R25). -/
def capWith (cap : Grade) (c : Option Grade) : Grade :=
  match c with
  | none => cap
  | some g => lesser cap g

/-- What an applied flaw does to a cell it reaches (R25). -/
def applyCell (sh : Shape) (c : Classified) (xy : Nat × Nat) (cell : Cell) : Cell :=
  { cell with classes := cell.classes ||| classBit c.cls,
              cap := if sh.covers xy.1 xy.2 then capWith cell.cap c.cap else cell.cap }

/-- The plane after an APPLY job of a flaw (R25). -/
def applyPlane (p : Plane) (sh : Shape) (c : Classified) (w h : Nat) : Plane :=
  Plane.update p (sh.reach c.margin w h) (applyCell sh c)

/-- The APPLIED flaws of a list, with their shapes and classification. -/
def appliedFlaws (fs : List Flaw) : List (Shape × Classified) :=
  fs.filterMap fun f => if f.state = .applied then f.classified.map fun c => (f.shape, c) else none

/-- The cap the APPLIED flaws give a cell (R26). -/
def recomputedCap (fs : List (Shape × Classified)) (xy : Nat × Nat) : Grade :=
  fs.foldl (fun g f => if f.1.covers xy.1 xy.2 then capWith g f.2.cap else g) 7

/-- The class set the APPLIED flaws give a cell (R26). -/
def recomputedClasses (fs : List (Shape × Classified)) (xy : Nat × Nat) : Set8 :=
  fs.foldl (fun b f => if f.1.reaches f.2.margin xy.1 xy.2 then b ||| classBit f.2.cls else b) 0

/-- The plane after a WITHDRAW job has recomputed a rectangle from the APPLIED flaws (R26). -/
def recomputePlane (p : Plane) (cells : List (Nat × Nat)) (fs : List (Shape × Classified)) : Plane :=
  Plane.update p cells fun xy cell =>
    { cell with cap := recomputedCap fs xy, classes := recomputedClasses fs xy }

/-! ### The signals of changed cells (R7, R8) -/

/-- A downgrade signal: the occupant slot and the cell (R7). -/
structure Downgrade where
  slot : SlotNo
  x    : Nat
  y    : Nat
  deriving DecidableEq, Repr

/-- The signal of one cell between two planes, if it is occupied and fell or gained a class (R7). -/
def downgradeOf (before after : Plane) (xy : Nat × Nat) : Option Downgrade :=
  let c := Plane.read before (cellAddr xy.1 xy.2)
  let d := Plane.read after (cellAddr xy.1 xy.2)
  match d.occupant with
  | none => none
  | some n =>
    if d.effective < c.effective || !Set8.within d.classes c.classes then some { slot := n, x := xy.1, y := xy.2 }
    else none

/-- The downgrade signals of an event over the cells it wrote (R7). -/
def downgrades (before after : Plane) (cells : List (Nat × Nat)) : List Downgrade :=
  cells.filterMap (downgradeOf before after)

/-- Whether some of the cells rose in effective grade (R8). -/
def someRaised (before after : Plane) (cells : List (Nat × Nat)) : Bool :=
  cells.any fun xy =>
    (Plane.read before (cellAddr xy.1 xy.2)).effective < (Plane.read after (cellAddr xy.1 xy.2)).effective

end Sys2Proof.Machine
end

