-- ==== Sys2Proof/Machine/Classifier.lean ====
section
/-!
DEFINITION. The Flaw Classifier's lookup (R30 to R34), which turns a flaw into a class, a margin, a cap and an ignore
decision.
-/

namespace Sys2Proof.Machine

open Sys2Proof

/-- The key of one pass of a lookup, its pass aside (R30). -/
structure Key where
  link     : BitVec 7
  category : BitVec 4
  ladder   : BitVec 7
  source   : BitVec 1
  shape    : BitVec 2
  anchor   : BitVec 3
  ranges   : BitVec 8
  deriving DecidableEq, Repr

/-- The severity ladder: flag Li, of weight 2^(i−1), set exactly when i ≤ severity (R30, R35). -/
def ladderOf (severity : Nat) : BitVec 7 := BitVec.ofNat 7 (2 ^ severity - 1)

/-- Digit-wise comparison of a key field under a mask (R32). -/
def KeyTest.passes {w : Nat} (t : KeyTest w) (k : BitVec w) : Bool := (k ^^^ t.value) &&& t.mask == 0

/-- Whether an entry matches a key of a pass (R32). -/
def RuleEntry.fits (r : RuleEntry) (pass : Pass) (k : Key) : Bool :=
  r.valid && r.pass = pass && r.link.passes k.link && r.category.passes k.category && r.ladder.passes k.ladder &&
    r.source.passes k.source && r.shape.passes k.shape && r.anchor.passes k.anchor && r.ranges.passes k.ranges

/-- The quantity a checker tests, if it is not DISABLED (R31). -/
def Quantity.of (q : Quantity) (extent area severity anchor : Nat) : Option Nat :=
  match q with
  | .extent => some extent | .area => some area | .severity => some severity | .anchorGrade => some anchor
  | .disabled => none

/-- A checker's flag (R31). -/
def RangeChecker.flag (c : RangeChecker) (extent area severity anchor : Nat) : Bool :=
  match c.quantity.of extent area severity anchor with
  | none => false
  | some n => decide (c.low ≤ n) && decide (n ≤ c.high)

/-- The range flags of a flaw (R30, R31). -/
def rangeFlags (cs : List RangeChecker) (extent area severity anchor : Nat) : BitVec 8 :=
  (cs.zipIdx).foldl (fun b c => if c.1.flag extent area severity anchor then b ||| BitVec.twoPow 8 c.2 else b) 0

/-- The hit of a pass: the lowest entry that matches (R33). -/
def firstHit (rules : List RuleEntry) (pass : Pass) (k : Key) : Option Action :=
  (rules.find? fun r => r.fits pass k).map fun r => r.action

/-- A resolved decision (R33). -/
structure Decision where
  cls    : Grade
  margin : Grade
  cap    : Option Grade
  ignore : Bool
  deriving DecidableEq, Repr

/-- One part: the second hit's, else the first hit's (R33). -/
def resolvePart {α : Type} (part : Action → Option α) (first second : Option Action) : Option α :=
  match second.bind part with
  | some v => some v
  | none => first.bind part

/-- The resolution of two hits against the class defaults (R33). -/
def resolve (d : ClassDefaults) (first second : Option Action) : Decision :=
  { cls := (resolvePart Action.cls first second).getD d.cls,
    margin := (resolvePart Action.margin first second).getD d.margin,
    cap := match resolvePart Action.cap first second with
      | some g => some g
      | none => d.cap,
    ignore := ((first.map Action.ignore).getD false) || ((second.map Action.ignore).getD false) }

/-- A lookup of at most two passes (R33). -/
def lookup (rules : List RuleEntry) (d : ClassDefaults) (k : Key) : Decision :=
  let first := firstHit rules .first k
  let second := (first.bind Action.next).bind fun l => firstHit rules .second { k with link := BitVec.ofNat 7 l.val }
  resolve d first second

/-- The classification of a flaw of a context at the start of its APPLY job, against the map, the article link and the
tables that stand then (R24). The second part is the ignore decision. -/
def State.classify (s : State) (k : Ctx) (f : Flaw) : Classified × Bool :=
  let c := s.ctxs[k]
  let a := f.shape.anchor c.width c.height
  let anchor := (s.cell k a.1 a.2).effective.val
  let cells := f.shape.footprint c.width c.height
  let extent := extentOf cells
  let area := areaOf cells
  let key : Key :=
    { link := BitVec.ofNat 7 (s.links[c.article]).val, category := BitVec.ofNat 4 f.category,
      ladder := ladderOf f.severity,
      source := (match f.source with | .scanner => 0 | .operator => 1),
      shape := (match f.shape with | .disc .. => 0 | .box .. => 1 | .stroke .. => 2),
      anchor := BitVec.ofNat 3 anchor, ranges := rangeFlags s.ranges.toList extent area f.severity anchor }
  let d := lookup s.rules.toList s.classDefaults key
  ({ cls := d.cls, margin := d.margin.val, cap := d.cap, extent := extent, area := area }, d.ignore)

/-- Replaces the flaw at a number of a context's list. -/
def State.setFlaw (s : State) (k : Ctx) (n : Nat) (f : Flaw) : State := s.setFlaws k (s.flaws[k].set n f)

/-- Starts a job, which becomes the job in flight; an APPLY job classifies its flaw first, and one that resolves to
ignore ends in the same event (R23, R24). -/
def Event.startJob (e : Event) (j : Job) : Event :=
  let going : Event := { e with sig := { e.sig with jobStart := true } }
  match j.kind with
  | .withdraw => going.on fun s => { s with inFlight := some j }
  | .apply =>
    match e.state.flaws[j.ctx][j.flaw]? with
    | none => going.on fun s => { s with inFlight := some j }
    | some f =>
      let r := e.state.classify j.ctx f
      if r.2 then
        (going.on fun s => s.setFlaw j.ctx j.flaw { f with state := .ignored, classified := some r.1 }).raise .flawIgnored
      else going.on fun s => { s.setFlaw j.ctx j.flaw { f with classified := some r.1 } with inFlight := some j }

/-- Starts the jobs of a queue while the Map Writer is IDLE: the first job that does not end at its start stays in
flight, and the jobs behind it stay queued (R23). -/
def Event.startFrom : List Job → Event → Event
  | [], e => e.on fun s => { s with jobs := [] }
  | j :: rest, e =>
    let e := e.startJob j
    if e.state.inFlight.isSome then e.on fun s => { s with jobs := rest } else Event.startFrom rest e

/-- The Map Writer goes on: when it is IDLE and its queue is not empty, it starts the next job at once (R23). -/
def Event.startJobs (e : Event) : Event :=
  if e.state.inFlight.isSome then e else Event.startFrom e.state.jobs e

end Sys2Proof.Machine
end

