-- ==== Sys2Proof/Machine/Travel.lean ====
section
/-!
DEFINITION. Conveyor arithmetic (R130 to R132, R148): cell travel, floor, reach, separation, and from them which
placements are eligible for a head (R147).
-/

namespace Sys2Proof.Machine

open Sys2Proof

/-- The cell travel C of a registered context; 0 while unregistered, as PART STATUS reports it (R130, R185). -/
def State.travel (s : State) (k : Ctx) : Nat :=
  if (s.ctxs[k]).registered then min 4095 ((s.ctxs[k]).count * s.conveyor.factor / 65536) else 0

/-- The least reach start among the present heads, D_min, if a head is present (R131). -/
def Conveyor.minStart (c : Conveyor) : Option Nat :=
  match (c.reach[0]).present, (c.reach[1]).present with
  | false, false => none
  | true, false => some (c.reach[0]).start
  | false, true => some (c.reach[1]).start
  | true, true => some (min (c.reach[0]).start (c.reach[1]).start)

/-- The floor F of a context (R131): max(0, C − D_min + 1 + G), and 0 while unregistered or with no head present. -/
def State.floor (s : State) (k : Ctx) : Nat :=
  if (s.ctxs[k]).registered then
    match s.conveyor.minStart with
    | none => 0
    | some d => s.travel k + 1 + s.conveyor.guardCells - d
  else 0

/-- Whether head h reaches column c of a context: C − D_h − L_h < c ≤ C − D_h (R132). -/
def State.reaches (s : State) (h : Head) (k : Ctx) (c : Nat) : Bool :=
  let r := s.conveyor.reach[h]
  r.present && (s.ctxs[k]).registered &&
    decide ((s.travel k : Int) - r.start - r.length < c) && decide ((c : Int) ≤ (s.travel k : Int) - r.start)

/-- The highest column of a placement (R98). -/
def Placement.xhi (p : Placement) : Nat := p.xlo + p.wo - 1

/-- Whether a placement is fully in reach of head h (R132). -/
def State.fullyReaches (s : State) (h : Head) (p : Placement) : Bool :=
  s.reaches h p.ctx p.xlo && s.reaches h p.ctx p.xhi

/-- The gap between two placements in conveyor positions (R148). -/
def State.gap (s : State) (p q : Placement) : Int :=
  let ploPos := (s.travel p.ctx : Int) - p.xhi
  let phiPos := (s.travel p.ctx : Int) - p.xlo
  let qloPos := (s.travel q.ctx : Int) - q.xhi
  let qhiPos := (s.travel q.ctx : Int) - q.xlo
  max (ploPos - qhiPos) (qloPos - phiPos) - 1

/-- Whether two placements are separated by at least S (R148). -/
def State.separated (s : State) (p q : Placement) : Bool := decide ((s.conveyor.separation : Int) ≤ s.gap p q)

/-- The other head. -/
def otherHead (h : Head) : Head := if h = 0 then 1 else 0

/-- The records of a head's held list, front first. -/
def State.heldRecords (s : State) (h : Head) : List (Held × Placement) :=
  ((s.heads[h]).held).filterMap fun x => (s.slots[x.slot]).map fun p => (x, p)

/-- OPEN or DRAINING. -/
def CtxState.cuttable (c : CtxState) : Bool := c = .opened || c = .draining

/-- Whether a placement is eligible for head h (R147). -/
def State.eligible (s : State) (h : Head) (p : Placement) : Bool :=
  p.state = .placed && (s.ctxs[p.ctx]).state.cuttable && (s.ctxs[p.ctx]).registered && s.fullyReaches h p &&
  ((s.heldRecords (otherHead h)).all fun x => s.separated p x.2) &&
  (s.heads[h]).state = .ready && decide ((s.heads[h]).held.length < 2)

/-- WORK AVAILABLE's condition: the head has at least one eligible placement (R151). -/
def State.workAvailable (s : State) (h : Head) : Bool := s.records.any fun r => s.eligible h r.2

/-- The greatest downstream position wins a grant; among equal positions the lowest slot (R149). -/
def betterGrant (s : State) (best : Option (SlotNo × Placement)) (r : SlotNo × Placement) :
    Option (SlotNo × Placement) :=
  match best with
  | none => some r
  | some b =>
    if (s.travel b.2.ctx : Int) - b.2.xlo < (s.travel r.2.ctx : Int) - r.2.xlo then some r else some b

/-- The placement the arbiter grants head h, if any is eligible (R149). -/
def State.grantChoice (s : State) (h : Head) : Option (SlotNo × Placement) :=
  (s.records.filter fun r => s.eligible h r.2).foldl (betterGrant s) none

/-- Whether a head holds a slot that is CUTTING. -/
def State.isCutting (s : State) (h : Head) : Bool :=
  (s.heldRecords h).any fun x => x.2.state = .cutting

/-- The timed slot of a head: the front of its held list when that slot is CLAIMED and no held slot is CUTTING
(R157). -/
def State.timedSlot (s : State) (h : Head) : Option SlotNo :=
  match (s.heads[h]).held with
  | [] => none
  | x :: _ =>
    match s.slots[x.slot] with
    | none => none
    | some p => if p.state = .claimed && !s.isCutting h then some x.slot else none

end Sys2Proof.Machine
end

