-- ==== Sys2Proof/Machine/Flags.lean ====
section
/-!
DEFINITION. Every flag computation: the Notice Unit's pending flags, event count, holdoff timer and attention (R171 to
R178), and the levels of the output lines (R164, R165).
-/

namespace Sys2Proof.Machine

open Sys2Proof

/-! ### The flags of a port (R171) -/

/-- The flags a port has. -/
def portFlags (p : Port) : FlagSet :=
  match p.val with
  | 0 => 0x1FFF
  | 1 => 0x003F
  | _ => 0x000F

/-- The urgent flags of a port. -/
def urgentFlags (p : Port) : FlagSet :=
  match p.val with
  | 0 => 0x1900
  | 1 => 0x0008
  | _ => 0x000E

/-- The head of a head port. -/
def portHead (p : Port) : Head := if p = 3 then 1 else 0

/-- Whether some head is FAULT (R141). -/
def State.someFault (s : State) : Bool := (s.heads[0]).state = .fault || (s.heads[1]).state = .fault

/-- The level flags of a port whose condition holds (R171). -/
def State.levelFlags (s : State) (p : Port) : FlagSet :=
  match p.val with
  | 0 => (if s.someFault then Notice.bit .headFault else 0) |||
         (if s.condition = .failed then Notice.bit .partFault else 0)
  | 1 => 0
  | _ => if s.workAvailable (portHead p) then Notice.bit (.workAvailable (portHead p)) else 0

/-- The number of flags in a set. -/
def flagCount (b : FlagSet) : Nat := (List.range 16).countP fun i => b.getLsbD i

/-! ### The Notice Unit (R172 to R174) -/

/-- The enabled pending flags. -/
def NoticeUnit.calling (u : NoticeUnit) : FlagSet := u.pending &&& u.enabled

/-- The holdoff timer starts RUNNING from 0; with H = 0 it expires in the event that starts it (R173). -/
def startHoldoff (holdoff : Nat) : HoldoffTimer := if holdoff = 0 then .expired else .running 0

/-- The condition of the rise test (R174). -/
def NoticeUnit.rises (u : NoticeUnit) (p : Port) : Bool :=
  u.calling ≠ 0 &&
    ((u.calling &&& urgentFlags p) ≠ 0 || u.holdoff = 0 || u.timer = .expired ||
      (decide (0 < u.threshold) && decide (u.threshold ≤ u.count)))

/-- The rise test (R174). -/
def NoticeUnit.riseTest (u : NoticeUnit) (p : Port) : NoticeUnit :=
  { u with attention := u.attention || u.rises p }

/-- With no enabled flag pending, attention falls, the count returns to 0 and the timer becomes IDLE (R173, R174). -/
def NoticeUnit.fall (u : NoticeUnit) : NoticeUnit :=
  if u.calling = 0 then { u with attention := false, count := 0, timer := .idle } else u

/-- The setting events of the flags an event raised on a port (R172). -/
def NoticeUnit.set (u : NoticeUnit) (p : Port) (raised : FlagSet) : NoticeUnit :=
  if raised &&& u.enabled = 0 then { u with pending := u.pending ||| raised }
  else
    NoticeUnit.riseTest
      { u with pending := u.pending ||| raised,
               count := min 15 (u.count + flagCount (raised &&& u.enabled &&& ~~~(urgentFlags p))),
               timer := if u.calling = 0 then startHoldoff u.holdoff else u.timer } p

/-- An acknowledgement of named flags; level flags whose condition holds stay pending (R176). -/
def NoticeUnit.clear (u : NoticeUnit) (named level : FlagSet) : NoticeUnit :=
  NoticeUnit.fall { u with pending := u.pending &&& ~~~(named &&& ~~~level) }

/-- A holdoff timer compared with a new H: elapsed steps of 100 µs against H × 10 ms (R173). -/
def compareHoldoff (t : HoldoffTimer) (holdoff : Nat) : HoldoffTimer :=
  match t with
  | .running e => if holdoff * 100 ≤ e then .expired else .running e
  | .idle => .idle
  | .expired => .expired

/-- A setup: the enable set, H and N take values, and attention is judged again (R177). -/
def NoticeUnit.setup (u : NoticeUnit) (p : Port) (enabled : FlagSet) (holdoff threshold : Nat) : NoticeUnit :=
  let u := { u with enabled := enabled, holdoff := holdoff, threshold := threshold }
  if u.calling = 0 then u.fall
  else
    NoticeUnit.riseTest
      { u with timer := if u.timer = .idle then startHoldoff holdoff else compareHoldoff u.timer holdoff } p

/-- The holdoff timer expires, which is a rise test (R173). -/
def NoticeUnit.expire (u : NoticeUnit) (p : Port) : NoticeUnit :=
  match u.timer with
  | .running _ => NoticeUnit.riseTest { u with timer := .expired } p
  | .idle => u
  | .expired => u

/-- A port's unit at PART RESET: pending flags cleared, count 0, timer IDLE, settings kept; then the level flags whose
condition holds are set by a setting event (R178). -/
def NoticeUnit.partReset (u : NoticeUnit) (p : Port) (level : FlagSet) : NoticeUnit :=
  NoticeUnit.fall (NoticeUnit.set { u with pending := 0, count := 0, timer := .idle } p level)

/-! ### Output lines (R164, R165) -/

/-- The value of an output source; a STAGED line's is its applied value (R164). -/
def State.sourceValue (s : State) (applied : Bool) (o : OutputSource) : Bool :=
  match o with
  | .constant v => v
  | .staged => applied
  | .gateHold => s.gate.holding
  | .attention p => (s.notices[p]).attention
  | .workAvailable h => s.workAvailable h
  | .hideOpen k => (s.ctxs[k]).state.cuttable
  | .fault => s.someFault || s.condition = .failed
  | .searchBusy => match s.searchUnit with
    | .searching _ => true
    | .idle => false
    | .stalled _ => false
  | .partReady => s.condition = .ready

/-- The requested level of a line: its source's value, inverted when invert is set (R164). -/
def State.requested (s : State) (l : Line) : Bool := xor (s.sourceValue l.applied l.source) l.invert

/-- A hold for a width, if the width is above 0 (R165). -/
def startHold (width : Nat) : Option PulseHold :=
  if width = 0 then none else some { pending := none, elapsed := 0, width := width }

/-- The pulse width rule: a requested level against what the line drives (R165). While a hold runs, a change of the
requested level, that is, a level other than the one last requested, is recorded as pending. -/
def driveWork (w : LineWork) (requested : Bool) (width : Nat) : LineWork :=
  match w with
  | .input d c => .input d c
  | .output d none => if requested = d then .output d none else .output requested (startHold width)
  | .output d (some h) =>
    if requested = h.pending.getD d then .output d (some h)
    else .output d (some { h with pending := some requested })

/-- A line after the requested levels of an event (R164, R165). -/
def State.drive (s : State) (l : Line) : Line := { l with work := driveWork l.work (s.requested l) l.width }

/-- The end of a minimum pulse hold (R165). -/
def endHold (w : LineWork) (width : Nat) : LineWork :=
  match w with
  | .output d (some h) =>
    match h.pending with
    | some v => if v = d then .output d none else .output v (startHold width)
    | none => .output d none
  | .output d none => .output d none
  | .input d c => .input d c

/-- The logical pin level of a line in direction IN (R160). -/
def Line.logical (l : Line) : Bool := xor l.pin l.invert

/-- The level sensed at the pin: what the line drives when OUT, what the outside puts there when IN (R170; DEDUCED,
log 20). -/
def Line.sensed (l : Line) : Bool :=
  match l.work with
  | .input _ _ => l.pin
  | .output d _ => d

/-- Whether a line holds head h's interlock view INACTIVE: IN, with the function, at debounced level 0 (R163). -/
def Line.opensInterlock (l : Line) (h : Head) : Bool :=
  match l.work with
  | .input d _ => l.function = .interlock h && !d
  | .output _ _ => false

/-- Head h's interlock view from the lines (R163). -/
def State.interlockView (s : State) (h : Head) : Interlock :=
  if s.lines.toList.any fun l => l.opensInterlock h then .inactive else .active

end Sys2Proof.Machine
end

