-- ==== Sys2Proof/Machine/Scan.lean ====
section
/-!
DEFINITION. The scan of a search: oriented masks (R44, R45), the cell test (R43, R78), the score (R79, R80), the scan
order (R77, R82), selection of a pair (R73) and the samples of a search (R76).
-/

namespace Sys2Proof.Machine

open Sys2Proof

/-! ### Masks and orientations -/

/-- The stored region code m(i, j) at column i and row j (R42). -/
def Pattern.code (p : Pattern) (i j : Nat) : Region := (p.mask.getD j []).getD i .outside

/-- The oriented width and height (R45). -/
def Pattern.orientedSize (p : Pattern) (o : Orient) : Nat × Nat := if o.val % 2 = 1 then (p.h, p.w) else (p.w, p.h)

/-- Oriented cell (i, j): the transforms of R45, orientations 4 to 7 with the mirrored mask. -/
def Pattern.oriented (p : Pattern) (o : Orient) (i j : Nat) : Region :=
  let m := fun (a b : Nat) => if o.val < 4 then p.code a b else p.code (p.w - 1 - a) b
  match o.val % 4 with
  | 0 => m i j
  | 1 => m j (p.h - 1 - i)
  | 2 => m (p.w - 1 - i) (p.h - 1 - j)
  | _ => m (p.w - 1 - j) i

/-- The covered cells of an oriented mask with their regions. -/
def Pattern.coveredCells (p : Pattern) (o : Orient) : List (Nat × Nat × Region) :=
  (mapCells (p.orientedSize o).1 (p.orientedSize o).2).filterMap fun ij =>
    if p.oriented o ij.1 ij.2 = .outside then none else some (ij.1, ij.2, p.oriented o ij.1 ij.2)

/-- A region's requirement; region code 0 has none, and its cells are never tested (R43). -/
def Pattern.requirement (p : Pattern) (r : Region) : Requirement :=
  match r with
  | .face => p.face
  | .hidden => p.hidden
  | .edge => p.edge
  | .outside => { minGrade := 0, tolerated := BitVec.allOnes 8 }

/-- Whether a hide cell meets a requirement, its occupant aside (R43, R106). -/
def Cell.meets (c : Cell) (r : Requirement) : Bool :=
  decide (r.minGrade ≤ c.effective.val) && Set8.within c.classes r.tolerated

/-- Whether orientation o stands in a set (R188). -/
def Set8.has (b : Set8) (n : Fin 8) : Bool := b.getLsbD n.val

/-- The orientations of a hand (R44). -/
def Hand.orients : Hand → Set8
  | .left => 0x0F
  | .right => 0xF0
  | .any => 0xFF

/-- The orientations of a set in ascending index. -/
def orientList (b : Set8) : List Orient := (List.finRange 8).filter fun o => Set8.has b o

/-! ### Testing and scoring a candidate -/

/-- The map a candidate is tested against. -/
structure HideMap where
  plane  : Plane
  width  : Nat
  height : Nat

/-- The cell test of a candidate: every covered cell meets its region's requirement and has no occupant (R78). -/
def cellTest (m : HideMap) (p : Pattern) (c : Candidate) : Bool :=
  (p.coveredCells c.orient).all fun ijr =>
    let cell := Plane.read m.plane (cellAddr (c.x + ijr.1) (c.y + ijr.2.1))
    cell.meets (p.requirement ijr.2.2) && cell.occupant.isNone

/-- Whether a neighbouring cell counts toward contact: off-map, void or occupied (R80). -/
def contactAt (m : HideMap) (x y : Int) : Bool :=
  if 0 ≤ x ∧ x < m.width ∧ 0 ≤ y ∧ y < m.height then
    let cell := Plane.read m.plane (cellAddr x.toNat y.toNat)
    cell.effective.val = 0 || cell.occupant.isSome
  else true

/-- The number of covered cells that border on contact (R80). -/
def contactOf (m : HideMap) (p : Pattern) (c : Candidate) : Nat :=
  (p.coveredCells c.orient).countP fun ijr =>
    let x : Int := c.x + ijr.1
    let y : Int := c.y + ijr.2.1
    contactAt m (x - 1) y || contactAt m (x + 1) y || contactAt m x (y - 1) || contactAt m x (y + 1)

/-- The sum of the grades above the regions' minimum (R79). -/
def premiumOf (m : HideMap) (p : Pattern) (c : Candidate) : Int :=
  (p.coveredCells c.orient).foldl (fun (n : Int) ijr =>
    n + ((Plane.read m.plane (cellAddr (c.x + ijr.1) (c.y + ijr.2.1))).effective.val : Int)
      - (p.requirement ijr.2.2).minGrade) 0

/-- The score of a candidate: Wl × lead + Wp × premium − Wc × contact (R79). -/
def scoreOf (m : HideMap) (sm : Samples) (c : Candidate) : Int :=
  (sm.weights.lead : Int) * ((c.x : Int) - sm.floor) + (sm.weights.premium : Int) * premiumOf m sm.drawing c
    - (sm.weights.contact : Int) * contactOf m sm.drawing c

/-- Whether an orientation fits at a position of the sampled window (R77). -/
def Samples.fits (sm : Samples) (c : Candidate) : Bool :=
  let sz := sm.drawing.orientedSize c.orient
  decide (sm.floor ≤ c.x) && decide (c.x + sz.1 ≤ sm.frontier) && decide (c.x + sz.1 ≤ sm.width) &&
    decide (c.y + sz.2 ≤ sm.height)

/-- The candidates of a search in scan order: ascending x, then y, then orientation (R77). -/
def Samples.candidates (sm : Samples) : List Candidate :=
  (mapCells sm.width sm.height).flatMap fun xy =>
    (sm.orients.map fun o => ({ x := xy.1, y := xy.2, orient := o } : Candidate)).filter sm.fits

/-- One candidate tested: it becomes the best if it passes and scores lower than the best so far (R82). -/
def tryCandidate (m : HideMap) (sm : Samples) (best : Option Best) (c : Candidate) : Option Best :=
  if cellTest m sm.drawing c then
    match best with
    | none => some { cand := c, score := scoreOf m sm c }
    | some b => if scoreOf m sm c < b.score then some { cand := c, score := scoreOf m sm c } else some b
  else best

/-- The best candidate after some candidates have been tested in order. -/
def tryAll (m : HideMap) (sm : Samples) (best : Option Best) (cs : List Candidate) : Option Best :=
  cs.foldl (tryCandidate m sm) best

/-- The hide map of a context as it stands. -/
def State.hideMap (s : State) (k : Ctx) : HideMap :=
  { plane := s.planes[k], width := (s.ctxs[k]).width, height := (s.ctxs[k]).height }

/-- The candidates a search has still to test. -/
def Search.left (q : Search) : List Candidate := q.samples.candidates.drop q.tested

/-- The best candidate once the scan has tested its last one, the candidates left being tested now (R83). -/
def State.finalBest (s : State) (q : Search) : Option Best :=
  tryAll (s.hideMap q.pair.ctx) q.samples q.best q.left

/-- The scan goes on by n candidates, tested against the map as it stands (R78). -/
def State.scanOn (s : State) (q : Search) (n : Nat) : Search :=
  { q with tested := q.tested + n, best := tryAll (s.hideMap q.pair.ctx) q.samples q.best (q.left.take n) }

/-- Before an event that changes the map is taken, a running scan has tested some further candidates, but not its
last, whose test is the completion (R78, R83). How many is open: a free value (log 3). -/
def State.advanceScan (s : State) : State :=
  match s.searchUnit with
  | .searching q =>
    { s with searchUnit := .searching (s.scanOn q (min (Config.scanProgress s.freeIndex) (q.left.length - 1))),
             freeIndex := s.freeIndex + 1 }
  | .idle => s
  | .stalled _ => s

/-! ### Selection (R73, R75) and samples (R76) -/

/-- Whether a tag is marked no-fit for a context (R90). -/
def State.marked (s : State) (t : Tag) (k : Ctx) : Bool := (s.marks[k]).getLsbD t.val

/-- The contexts, the one opened earlier first (R73, R119). -/
def State.ageOrder (s : State) : List Ctx := if (s.ctxs[(1 : Ctx)]).rank = some .first then [1, 0] else [0, 1]

/-- Whether a pair is selectable (R73). -/
def State.selectable (s : State) (e : Entry) (k : Ctx) : Bool :=
  e.eligible && (s.ctxs[k]).state = .opened && !s.marked e.tag k && decide (s.floor k < (s.ctxs[k]).frontier)

/-- The first selectable pair: entries in queue order, then contexts in age order (R73). -/
def State.firstPair (s : State) : Option Pair :=
  (s.entries.flatMap fun e => (s.ageOrder.filter fun k => s.selectable e k).map fun k => (⟨e.tag, k⟩ : Pair)).head?

/-- Whether work is left: some eligible entry has no mark for some OPEN context (R75). -/
def State.workLeft (s : State) : Bool :=
  s.entries.any fun e => e.eligible && [(0 : Ctx), 1].any fun k => (s.ctxs[k]).state = .opened && !s.marked e.tag k

/-- The samples taken at the start of a search for an entry on a context (R76). -/
def State.samplesFor (s : State) (e : Entry) (k : Ctx) : Samples :=
  { weights := s.weights, floor := s.floor k, frontier := (s.ctxs[k]).frontier, width := (s.ctxs[k]).width,
    height := (s.ctxs[k]).height, pattern := e.pattern, drawing := s.patterns[e.pattern],
    orients := orientList ((s.patterns[e.pattern]).orients &&& e.hand.orients) }

end Sys2Proof.Machine
end

