-- ==== Sys2Proof/Machine/Settle.lean ====
section
/-!
DEFINITION. The tail every event shares: what follows in the same event from the state it leaves and the signals it
raised. In this order (log 8): the Map Writer goes on, drained contexts close, the Search Unit re-runs a stall or
selects, claim timers start or stop, the Advance Gate tests, WORK AVAILABLE is evaluated, notices are set, and the
output lines take their requested levels.
-/

namespace Sys2Proof.Machine

open Sys2Proof

/-! ### Closing a drained context (R126) -/

/-- Whether a flaw still has Map Writer work due (R19). -/
def FlawState.due (f : FlawState) : Bool := f = .pending || f = .withdrawing

/-- Whether a context is DRAINING and has neither a live placement nor a flaw with work due (R126). -/
def State.closes (s : State) (k : Ctx) : Bool :=
  (s.ctxs[k]).state = .draining && s.liveCount k = 0 && (s.flaws[k]).all fun f => !f.state.due

/-- The close test of one context (R126). -/
def Event.closeTest (e : Event) (k : Ctx) : Event :=
  if e.state.closes k then
    ((e.on fun s => s.updCtx k fun c => { c with state := .closed }).raise .hideClosed).raise .hideClosedMarking
  else e

/-! ### The Search Unit (R74, R75, R88) -/

/-- Starts a search for an entry on a context with fresh samples (R74, R76, R85, R88); window short is clear while the
unit is SEARCHING (R75). -/
def Event.startSearch (e : Event) (x : Entry) (k : Ctx) (retry : Nat) : Event :=
  { state := { e.state with
      searchUnit := .searching
        { pair := ⟨x.tag, k⟩, samples := e.state.samplesFor x k, tested := 0, best := none, retry := retry },
      windowShort := false },
    sig := { e.sig with searchStart := true } }

/-- Starts a search for a pair, if its entry stands in the queue. -/
def Event.startPair (e : Event) (q : Pair) (retry : Nat) : Event :=
  match e.state.entry? q.tag with
  | none => e.on fun s => { s with searchUnit := .idle }
  | some x => e.startSearch x q.ctx retry

/-- Window short of an IDLE unit that found no pair: set, with its flag, while work is left, else clear (R75). -/
def Event.judgeWindow (e : Event) : Event :=
  (e.raiseIf (e.state.workLeft && !e.state.windowShort) .windowShort).on fun s => { s with windowShort := s.workLeft }

/-- Selection of an IDLE unit (R73 to R75). -/
def Event.select (e : Event) : Event :=
  match e.state.firstPair with
  | some q => e.startPair q 0
  | none => e.judgeWindow

/-- The Search Unit's part of an event's tail: an IDLE unit selects; a STALLED one re-runs its search if a slot became
FREE or WITHDRAWN (R74, R88). -/
def Event.runSearchUnit (e : Event) : Event :=
  match e.state.searchUnit with
  | .idle => e.select
  | .searching _ => e
  | .stalled q => if e.sig.slotFreed then e.startPair q 0 else e

/-- A search in flight or a stall is abandoned: the unit is IDLE, to select in the event's tail (R93). -/
def State.abandonSearch (s : State) : State := { s with searchUnit := .idle }

/-- Whether the unit is SEARCHING or STALLED on a context (R95). -/
def State.searchesOn (s : State) (k : Ctx) : Bool :=
  match s.searchUnit with
  | .idle => false
  | .searching q => q.pair.ctx = k
  | .stalled q => q.ctx = k

/-- Whether the unit is SEARCHING or STALLED on an entry (R94). -/
def State.searchesFor (s : State) (t : Tag) : Bool :=
  match s.searchUnit with
  | .idle => false
  | .searching q => q.pair.tag = t
  | .stalled q => q.tag = t

/-! ### Claim timers (R157) -/

/-- A head's claim timer after an event: stopped with no timed slot or a limit of 0, kept while the timed slot is the
one before the event, else running from 0 (R157). -/
def claimTimerAfter (before after : State) (h : Head) : Option Nat :=
  match after.timedSlot h with
  | none => none
  | some n =>
    if after.conveyor.claimLimit = 0 then none
    else if before.timedSlot h = some n then (after.heads[h]).timer else some 0

/-- The claim timers of both heads (R157). -/
def State.timeClaims (before s : State) : State :=
  let t0 := claimTimerAfter before s 0
  let t1 := claimTimerAfter before s 1
  (s.updHead 0 fun c => { c with timer := t0 }).updHead 1 fun c => { c with timer := t1 }

/-! ### The Advance Gate (R137 to R139) -/

/-- Whether the Search Unit is SEARCHING. -/
def SearchState.isSearching : SearchState → Bool
  | .searching _ => true
  | .idle => false
  | .stalled _ => false

/-- Whether the unit is IDLE. -/
def SearchState.isIdle : SearchState → Bool
  | .idle => true
  | .searching _ => false
  | .stalled _ => false

/-- Whether some registered context is OPEN (R137). -/
def State.nestingOpen (s : State) : Bool :=
  [(0 : Ctx), 1].any fun k => (s.ctxs[k]).registered && (s.ctxs[k]).state = .opened

/-- The condition under which an armed, FLOWING gate holds, beyond being armed (R137). -/
def State.holdCondition (s : State) : Bool :=
  decide (0 < s.gate.hold) && decide (s.readyCount < s.gate.hold) &&
    (s.searchUnit.isSearching || s.inFlight.isSome) && s.nestingOpen

/-- Whether an event releases a HOLDING gate, which stays armed: what the event brings about between the state before
it and the state it leaves (R138). -/
def releases (before after : State) (sig : Signals) : Bool :=
  (decide (before.readyCount < after.readyCount) && decide (after.gate.release ≤ after.readyCount)) ||
  (!after.searchUnit.isSearching && (before.searchUnit.isSearching || before.searchUnit.isIdle != after.searchUnit.isIdle)) ||
  (before.inFlight.isSome && after.inFlight.isNone && !after.searchUnit.isSearching) ||
  (before.nestingOpen && !after.nestingOpen) ||
  (sig.gateSet && (after.gate.hold = 0 || decide (after.gate.release ≤ after.readyCount)))

/-- Whether an event is a test of a FLOWING gate (R137). A search completion is one when it finds the gate disarmed and
re-arms it, and not on its own account when the gate is armed already (R139; DESIGN CHOICE, log 28). -/
def gateTested (before after : State) (sig : Signals) : Bool :=
  sig.searchStart || sig.jobStart || decide (after.readyCount < before.readyCount) || sig.registered ||
    (sig.completion && !after.gate.armed) || sig.gateSet

/-- The gate lets go and stays armed (R138). -/
def Gate.letGo (g : Gate) : Gate := { g with holding := false, timer := none }

/-- The gate takes a hold (R137). -/
def Gate.takeHold (g : Gate) : Gate :=
  { g with holding := true, timer := if g.holdLimit = 0 then none else some { elapsed := 0, limit := g.holdLimit } }

/-- The gate is FLOWING and disarmed (R139). -/
def Gate.disarm (g : Gate) : Gate := { g with holding := false, armed := false, timer := none }

/-- The gate's part of an event's tail: a HOLDING gate is released or holds on; a FLOWING one, re-armed first by a
search completion, is tested if the event is a test (R137 to R139). -/
def Event.runGate (before : State) (e : Event) : Event :=
  let armed := e.state.gate.armed || e.sig.completion
  if e.state.gate.holding then
    if releases before e.state e.sig then
      e.on fun s => { s with gate := { s.gate.letGo with armed := armed } }
    else e.on fun s => { s with gate := { s.gate with armed := armed } }
  else if gateTested before e.state e.sig && armed && e.state.holdCondition then
    (e.on fun s => { s with gate := { s.gate.takeHold with armed := armed } }).raise .gateHold
  else e.on fun s => { s with gate := { s.gate with armed := armed } }

/-! ### WORK AVAILABLE, notices and lines -/

/-- WORK AVAILABLE is raised for each head at the event in which its condition comes to hold (R151). -/
def Event.raiseWork (before : State) (e : Event) : Event :=
  (e.raiseIf (e.state.workAvailable 0 && !before.workAvailable 0) (.workAvailable 0)).raiseIf
    (e.state.workAvailable 1 && !before.workAvailable 1) (.workAvailable 1)

/-- The setting events of an event on every port (R172). -/
def State.postNotices (s : State) (raised : Vector FlagSet 4) : State :=
  { s with notices := Vector.ofFn fun p => (s.notices[p]).set p raised[p] }

/-- Every output line takes its requested level through the pulse width rule (R164, R165). -/
def State.driveLines (s : State) : State := { s with lines := s.lines.map fun l => s.drive l }

/-- The event after the Map Writer and the close tests. -/
def Event.closed (e : Event) : Event := (e.startJobs.closeTest 0).closeTest 1

/-- The event after the Search Unit and the claim timers too. -/
def Event.timed (before : State) (e : Event) : Event := e.closed.runSearchUnit.on (State.timeClaims before)

/-- The event after the gate and WORK AVAILABLE too. -/
def Event.worked (before : State) (e : Event) : Event := ((e.timed before).runGate before).raiseWork before

/-- The notices an event raised are set, and the lines follow. -/
def Event.sent (e : Event) : State := (e.state.postNotices e.sig.raised).driveLines

/-- The tail of an event that began in a state. -/
@[irreducible] def settle (before : State) (e : Event) : State := (e.worked before).sent

/-- The tail of an event that can only set notices and move lines. -/
def settleNotices (e : Event) : State := e.sent

end Sys2Proof.Machine
end

