-- ==== Sys2Proof/Machine/Demand.lean ====
section
/-!
DEFINITION. Posting, cancelling and reading demand (R58 to R69).
-/

namespace Sys2Proof.Machine

open Sys2Proof

/-! ### DEMAND POST -/

/-- The lowest tag no entry holds (R58). -/
def State.freeTag? (s : State) : Option Tag := (List.finRange 64).find? fun t => (s.entry? t).isNone

/-- Places a new entry: a rush entry after the rush entries that stand at the front, a normal one at the back
(R58). -/
def enqueue (es : List Entry) (e : Entry) : List Entry :=
  if e.rush then es.takeWhile (fun x => x.rush) ++ e :: es.dropWhile (fun x => x.rush) else es ++ [e]

/-- The position a new entry takes, from 0 at the front (R61). -/
def entryPlace (es : List Entry) (rush : Bool) : Nat :=
  if rush then (es.takeWhile fun x => x.rush).length else es.length

/-- A new entry (R57, R61). -/
def State.newEntry (s : State) (t : Tag) (n : PatNo) (hand : Hand) (requested : Nat) (rush : Bool) : Entry :=
  { tag := t, pattern := n, hand := hand, requested := requested, live := 0, cut := 0, spoiled := 0, rush := rush,
    state := .opened, postNumber := s.postCounter, holders := 0 }

/-- An entry joins the queue, the post counter advances and the pattern gains a reference (R61). -/
def State.enterDemand (s : State) (e : Entry) : State :=
  ({ s with entries := enqueue s.entries e, postCounter := s.postCounter + 1 } : State).addRef e.pattern

/-- The event of an accepted DEMAND POST (R61, R74). -/
def State.post (s : State) (e : Entry) : State := settle s (s.enterDemand e).begin

/-- DEMAND POST's owner (R60, R61). -/
def demandPostOwner : Owner := fun _ pl s =>
  match index? 128 (u8 pl 0), hand? (u8 pl 1) with
  | some n, some hand =>
    if u8 pl 2 = 0 ∨ 1 < u8 pl 3 then (s, .refuse .range)
    else if (s.patterns[n]).state ≠ .ready then (s, .refuse .notFound)
    else if (s.patterns[n]).orients &&& hand.orients = 0 then (s, .refuse .range)
    else if Config.maxEntries ≤ s.entries.length then (s, .refuse .full)
    else
      match s.freeTag? with
      | none => (s, .refuse .full)
      | some t =>
        let e := s.newEntry t n hand (u8 pl 2) (u8 pl 3 = 1)
        (s.post e, .accept (enc1 t.val ++ enc2 s.postCounter.toNat ++ enc1 (entryPlace s.entries e.rush) ++
          enc1 (s.entries.length + 1)))
  | _, _ => (s, .refuse .range)

/-- DEMAND_POST (R60). -/
def execDemandPost (p : Port) (pl : List Byte) (s : State) : Host.Outcome State Fault Refusal :=
  request .demandPost demandPostOwner p pl s

/-! ### DEMAND CANCEL -/

/-- The PLACED and CLAIMED slots that name an entry, in ascending order. -/
def State.uncutSlots (s : State) (t : Tag) : List SlotNo :=
  (s.records.filter fun r => r.2.tag = t && (r.2.state = .placed || r.2.state = .claimed)).map fun r => r.1

/-- Withdraws slots, in order, with a cause. -/
def Event.withdrawAll (e : Event) (ns : List SlotNo) (cause : Cause) : Event :=
  ns.foldl (fun e n => e.withdraw n cause) e

/-- Cancels an OPEN or SATISFIED entry: its placements not yet under a knife are withdrawn, a search or stall for it
is abandoned, and it is removed if no slot names it (R65 to R67, R94). -/
def State.cancelling (s : State) (t : Tag) : Event :=
  let s := s.advanceScan
  let e := ((s.updEntry t fun x => { x with state := .cancelled }).begin).withdrawAll (s.uncutSlots t) .cancelled
  let e := if s.searchesFor t then e.on State.abandonSearch else e
  e.on fun s => s.removeIfDone t

/-- The event of an accepted DEMAND CANCEL (R65). -/
def State.cancel (s : State) (t : Tag) : State := settle s.advanceScan (s.cancelling t)

/-- The reply to a DEMAND CANCEL from the state before and after it (R65). -/
def cancelBytes (t : Tag) (withdrawn : Nat) (after : State) : List Byte :=
  enc1 t.val ++ enc1 withdrawn ++ enc1 (((after.entry? t).map fun x => x.live).getD 0) ++
    encFlag (after.entry? t).isNone

/-- DEMAND CANCEL's owner (R65). -/
def demandCancelOwner : Owner := fun _ pl s =>
  match index? 64 (u8 pl 0) with
  | none => (s, .refuse .range)
  | some t =>
    match s.entry? t with
    | none => (s, .refuse .notFound)
    | some x =>
      if x.state = .cancelled then (s, .accept (cancelBytes t 0 s))
      else (s.cancel t, .accept (cancelBytes t (s.uncutSlots t).length (s.cancel t)))

/-- DEMAND_CANCEL (R65). -/
def execDemandCancel (p : Port) (pl : List Byte) (s : State) : Host.Outcome State Fault Refusal :=
  request .demandCancel demandCancelOwner p pl s

/-! ### DEMAND READ -/

/-- An entry's position in the queue, from 0 at the front. -/
def State.position (s : State) (t : Tag) : Nat := s.entries.findIdx fun x => x.tag = t

/-- The payload of DEMAND READ in entry form (R68). -/
def State.entryBytes (s : State) (x : Entry) : List Byte :=
  enc1 x.tag.val ++ enc2 x.postNumber.toNat ++ enc1 x.pattern.val ++ enc1 x.hand.code ++ enc1 x.requested ++
    encFlag x.rush ++ enc1 x.state.code ++ enc1 x.live ++ enc1 x.cut ++ enc1 x.spoiled ++ enc2 x.holders ++
    enc1 x.need ++ encFlag x.eligible ++ enc1 (s.position x.tag)

/-- The payload of DEMAND READ in list form (R69). -/
def State.queueBytes (s : State) : List Byte :=
  enc1 s.entries.length ++ enc1 (s.entries.countP fun x => x.rush) ++ enc2 s.postCounter.toNat ++
    s.entries.flatMap fun x => enc1 x.tag.val

/-- DEMAND READ's answer, in either form (R68, R69). -/
def demandReadAnswer (_ : Port) (pl : List Byte) (s : State) : Answer :=
  match index? 64 (u8 pl 0) with
  | some t =>
    match s.entry? t with
    | none => .refuse .notFound
    | some x => .accept (s.entryBytes x)
  | none => if u8 pl 0 = 64 then .accept s.queueBytes else .refuse .range

/-- DEMAND_READ_ENTRY (R68). -/
def execDemandReadEntry (p : Port) (pl : List Byte) (s : State) : Host.Outcome State Fault Refusal :=
  request .demandRead (reading demandReadAnswer) p pl s

/-- DEMAND_READ_LIST (R69). -/
def execDemandReadList (p : Port) (pl : List Byte) (s : State) : Host.Outcome State Fault Refusal :=
  request .demandRead (reading demandReadAnswer) p pl s

end Sys2Proof.Machine
end

