-- ==== Sys2Proof/Machine/Placement.lean ====
section
/-!
DEFINITION. The downgrade check (R106 to R108) and the requests of the Placement Table (R110, R116 to R118).
-/

namespace Sys2Proof.Machine

open Sys2Proof

/-! ### The downgrade check -/

/-- Whether a signalled cell of a record still passes its region's test, its own occupant aside (R106). -/
def signalPasses (plane : Plane) (drawing : Pattern) (p : Placement) (d : Downgrade) : Bool :=
  (Plane.read plane (cellAddr d.x d.y)).meets (drawing.requirement (drawing.oriented p.orient (d.x - p.xlo) (d.y - p.ylo)))

/-- The outcome of a failing check for a slot's state (R107, R108). -/
def Event.failCheck (e : Event) (origin : Cause) (n : SlotNo) (p : Placement) : Event :=
  match p.state with
  | .placed => e.withdraw n origin
  | .claimed => e.withdraw n origin
  | .cutting =>
    let e := e.on fun s => s.setSlot n (some { p with tainted := true })
    match p.head with
    | some h => e.raise (.pieceTainted h)
    | none => e
  | .cut => e.spoil n .lateFlaw
  | .spoiled => e
  | .missed => e
  | .withdrawn => e

/-- The check of one slot against the plane as the event left it (R106). -/
def Event.checkSlot (plane : Plane) (ds : List Downgrade) (origin : Cause) (e : Event) (n : SlotNo) : Event :=
  match e.state.slots[n] with
  | none => e
  | some p =>
    if ds.all fun d => d.slot ≠ n || signalPasses plane e.state.patterns[p.pattern] p d then e
    else e.failCheck origin n p

/-- The checks of one event: once for each distinct slot its signals name, in ascending order (R106). The origin is
the withdrawal cause it gives: LATE_FLAW for an APPLY completion, GRADE_CHANGE for GRADE RUNS (R107). -/
def Event.downgrade (e : Event) (plane : Plane) (ds : List Downgrade) (origin : Cause) : Event :=
  ((List.finRange 256).filter fun n => ds.any fun d => d.slot = n).foldl (Event.checkSlot plane ds origin) e

/-! ### PLACEMENT READ -/

/-- The placement record of 25 bytes; a FREE slot is 0 in every byte (R190). -/
def recordBytes (n : SlotNo) (r : Option Placement) : List Byte :=
  match r with
  | none => List.replicate 25 0
  | some p =>
    enc1 n.val ++ enc1 p.state.code ++ enc1 p.ctx.val ++ enc1 p.tag.val ++ enc1 p.pattern.val ++ enc1 p.orient.val ++
      enc2 p.xlo ++ enc2 p.ylo ++ enc1 p.wo ++ enc1 p.ho ++ enc2 p.xhi ++ enc2 p.covered ++ encS4 p.score ++
      enc2 p.commitNo.toNat ++ enc1 (headCode p.head) ++ encFlag p.tainted ++ enc1 (causeCode p.cause)

/-- The position of a slot in the withdrawn list, 0xFFFF for one that is not WITHDRAWN (R190). -/
def State.withdrawnPosition (s : State) (n : SlotNo) : Nat :=
  if s.withdrawn.contains n then s.withdrawn.idxOf n else 65535

/-- The payload of PLACEMENT READ (R116, R190; the list length stands for every slot, log 17). -/
def State.placementBytes (s : State) (n : SlotNo) : List Byte :=
  recordBytes n s.slots[n] ++ enc2 (s.withdrawnPosition n) ++ enc2 s.withdrawn.length

/-- PLACEMENT READ's answer: the one-byte slot number names any slot (R116). -/
def placementReadAnswer (_ : Port) (pl : List Byte) (s : State) : Answer :=
  match index? 256 (u8 pl 0) with
  | none => .refuse .range
  | some n => .accept (s.placementBytes n)

/-- PLACEMENT_READ (R116). -/
def execPlacementRead (p : Port) (pl : List Byte) (s : State) : Host.Outcome State Fault Refusal :=
  request .placementRead (reading placementReadAnswer) p pl s

/-! ### HIDE REPORT -/

/-- The cells of a context's map with an effective grade of 1 or more (R118). -/
def State.usable (s : State) (k : Ctx) : Nat :=
  (mapCells (s.ctxs[k]).width (s.ctxs[k]).height).countP fun xy => decide (1 ≤ (s.cell k xy.1 xy.2).effective.val)

/-- The records of a context in a state (R117). -/
def State.countIn (s : State) (k : Ctx) (st : PlacementState) : Nat :=
  s.records.countP fun r => r.2.ctx = k && r.2.state = st

/-- The covered cells of a context's CUT records (R118). -/
def State.cutCells (s : State) (k : Ctx) : Nat :=
  ((s.records.filter fun r => r.2.ctx = k && r.2.state = .cut).map fun r => r.2.covered).foldl (· + ·) 0

/-- Utilisation in parts per thousand (R118). -/
def utilisation (usable cutCells : Nat) : Nat :=
  if usable = 0 then 0 else (1000 * cutCells + usable / 2) / usable

/-- Cut area in units of 0.01 dm² (R118). -/
def cutArea (cutCells : Nat) : Nat := (cutCells * 16 + 50) / 100

/-- The payload of HIDE REPORT (R117). -/
def State.reportBytes (s : State) (k : Ctx) : List Byte :=
  let c := s.ctxs[k]
  enc1 k.val ++ enc1 c.state.code ++ encFlag c.aborted ++ enc2 c.width ++ enc2 c.height ++ enc2 c.commits.toNat ++
    enc2 (s.countIn k .placed) ++ enc2 (s.countIn k .claimed) ++ enc2 (s.countIn k .cutting) ++
    enc2 (s.countIn k .cut) ++ enc2 (s.countIn k .spoiled) ++ enc2 (s.countIn k .missed) ++
    enc2 (s.countIn k .withdrawn) ++ enc3 (s.usable k) ++ enc3 (s.cutCells k) ++
    enc2 (utilisation (s.usable k) (s.cutCells k)) ++ enc2 (cutArea (s.cutCells k))

/-- HIDE REPORT's answer (R117). -/
def hideReportAnswer (_ : Port) (pl : List Byte) (s : State) : Answer :=
  match index? 2 (u8 pl 0) with
  | none => .refuse .range
  | some k => if (s.ctxs[k]).state = .empty then .refuse .state else .accept (s.reportBytes k)

/-- HIDE_REPORT (R117). -/
def execHideReport (p : Port) (pl : List Byte) (s : State) : Host.Outcome State Fault Refusal :=
  request .hideReport (reading hideReportAnswer) p pl s

/-! ### PLACEMENT WITHDRAW -/

/-- Withdraws a slot with a cause as an event of its own. -/
def State.withdrawSlot (s : State) (n : SlotNo) (cause : Cause) : State :=
  let s := s.advanceScan
  settle s (s.begin.withdraw n cause)

/-- The head a withdrawn claim was held by, in the reply: 1 or 2, and none as 255 (R110, R188; DEDUCED that R190's 0 is
the placement record's alone, log 26). -/
def encHead? (h : Option Head) : List Byte := encOpt (h.map fun h => h.val + 1)

/-- PLACEMENT WITHDRAW's owner (R110). -/
def placementWithdrawOwner : Owner := fun _ pl s =>
  match index? 2 (u8 pl 1), index? 256 (u8 pl 0) with
  | some k, some n =>
    match s.slots[n] with
    | none => (s, .refuse .notFound)
    | some p =>
      if p.ctx ≠ k || p.commitNo ≠ BitVec.ofNat 16 (u16 pl 2) then (s, .refuse .notFound)
      else if p.state = .placed || p.state = .claimed then
        (s.withdrawSlot n .request, .accept (enc1 n.val ++ enc1 p.state.code ++ encHead? p.head))
      else (s, .refuse .state)
  | _, _ => (s, .refuse .range)

/-- PLACEMENT_WITHDRAW (R110). -/
def execPlacementWithdraw (p : Port) (pl : List Byte) (s : State) : Host.Outcome State Fault Refusal :=
  request .placementWithdraw placementWithdrawOwner p pl s

end Sys2Proof.Machine
end

