-- ==== Sys2Proof/Machine/Flaw.lean ====
section
/-!
DEFINITION. The flaw requests and the completions of the Map Writer's jobs (R20 to R26).
-/

namespace Sys2Proof.Machine

open Sys2Proof

/-! ### FLAW ADD -/

/-- The source of a source code (R189). -/
def source? : Nat → Option Source
  | 0 => some .scanner | 1 => some .operator | _ => none

/-- The new record a FLAW ADD payload declares, if its values are in range (R20). -/
def declared? (pl : List Byte) : Option Flaw :=
  match source? (u8 pl 3), shape? pl with
  | some src, some sh =>
    if u8 pl 1 ≤ 15 ∧ 1 ≤ u8 pl 2 ∧ u8 pl 2 ≤ 7 then
      some { category := u8 pl 1, severity := u8 pl 2, source := src, shape := sh, state := .pending,
             classified := none }
    else none
  | _, _ => none

/-- A flaw is appended to a context's list and its APPLY job joins the back of the queue (R20, R23). -/
def State.queueFlaw (s : State) (k : Ctx) (f : Flaw) : State :=
  { s.setFlaws k (s.flaws[k] ++ [f]) with jobs := s.jobs ++ [{ kind := .apply, ctx := k, flaw := (s.flaws[k]).length }] }

/-- The event of an accepted FLAW ADD (R20, R23). -/
def State.addFlaw (s : State) (k : Ctx) (f : Flaw) : State := settle s (s.queueFlaw k f).begin

/-- FLAW ADD's owner (R20). -/
def flawAddOwner : Owner := fun _ pl s =>
  match index? 2 (u8 pl 0) with
  | none => (s, .refuse .range)
  | some k =>
    if !(s.ctxs[k]).state.cuttable then (s, .refuse .state)
    else
      match declared? pl with
      | none => (s, .refuse .range)
      | some f =>
        if Config.maxFlaws ≤ (s.flaws[k]).length then (s, .refuse .full)
        else (s.addFlaw k f, .accept (enc1 k.val ++ enc2 (s.flaws[k]).length))

/-- FLAW_ADD (R20). -/
def execFlawAdd (p : Port) (pl : List Byte) (s : State) : Host.Outcome State Fault Refusal :=
  request .flawAdd flawAddOwner p pl s

/-! ### APPLY_JOB_COMPLETION -/

/-- The end of an APPLY job: the flaw is written into the map as one event, with the downgrade checks it causes
(R25). -/
def State.applyFlaw (s : State) (k : Ctx) (n : Nat) (f : Flaw) (c : Classified) : State :=
  let s := s.advanceScan
  let w := (s.ctxs[k]).width
  let h := (s.ctxs[k]).height
  let before := s.planes[k]
  let after := applyPlane before f.shape c w h
  let t : State := { (s.setPlane k after).setFlaw k n { f with state := .applied } with inFlight := none }
  settle s ((t.begin.raise .flawApplied).downgrade after (downgrades before after (f.shape.reach c.margin w h)) .lateFlaw)

/-- APPLY_JOB_COMPLETION (R25); with no APPLY job in flight the event cannot occur and changes nothing (log 2). -/
def execApplyJobCompletion (s : State) : Host.Outcome State Fault Refusal :=
  match s.inFlight with
  | some { kind := .apply, ctx := k, flaw := n } =>
    match (s.flaws[k])[n]? with
    | some f =>
      match f.classified with
      | some c => .next (s.applyFlaw k n f c)
      | none => .next s
    | none => .next s
  | some { kind := .withdraw, ctx := _, flaw := _ } => .next s
  | none => .next s

/-! ### FLAW WITHDRAW -/

/-- An immediate withdrawal: the flaw becomes WITHDRAWN and its job, queued or in flight, is gone (R21). -/
def State.dropFlaw (s : State) (k : Ctx) (n : Nat) (f : Flaw) : State :=
  let job : Job := { kind := .apply, ctx := k, flaw := n }
  { s.setFlaw k n { f with state := .withdrawn } with
    jobs := s.jobs.filter fun j => j ≠ job,
    inFlight := if s.inFlight = some job then none else s.inFlight }

/-- An APPLIED flaw becomes WITHDRAWING and its WITHDRAW job joins the back of the queue (R21, R23). -/
def State.queueWithdraw (s : State) (k : Ctx) (n : Nat) (f : Flaw) : State :=
  { s.setFlaw k n { f with state := .withdrawing } with
    jobs := s.jobs ++ [{ kind := .withdraw, ctx := k, flaw := n }] }

/-- The event of an accepted FLAW WITHDRAW, by the flaw's state (R21). -/
def State.withdrawFlaw (s : State) (k : Ctx) (n : Nat) (f : Flaw) : State :=
  match f.state with
  | .pending => settle s (s.dropFlaw k n f).begin
  | .ignored => settle s (s.dropFlaw k n f).begin
  | .applied => settle s (s.queueWithdraw k n f).begin
  | .withdrawing => s
  | .withdrawn => s

/-- The state a flaw has reached. -/
def State.flawStateBytes (s : State) (k : Ctx) (n : Nat) : List Byte :=
  enc1 (((s.flaws[k])[n]?.map fun f => f.state.code).getD 0)

/-- FLAW WITHDRAW's owner (R21). -/
def flawWithdrawOwner : Owner := fun _ pl s =>
  match index? 2 (u8 pl 0) with
  | none => (s, .refuse .range)
  | some k =>
    if !(s.ctxs[k]).state.cuttable then (s, .refuse .state)
    else if Config.maxFlaws ≤ u16 pl 1 then (s, .refuse .range)
    else
      match (s.flaws[k])[u16 pl 1]? with
      | none => (s, .refuse .notFound)
      | some f =>
        let t := s.withdrawFlaw k (u16 pl 1) f
        (t, .accept (t.flawStateBytes k (u16 pl 1)))

/-- FLAW_WITHDRAW (R21). -/
def execFlawWithdraw (p : Port) (pl : List Byte) (s : State) : Host.Outcome State Fault Refusal :=
  request .flawWithdraw flawWithdrawOwner p pl s

/-! ### WITHDRAW_JOB_COMPLETION -/

/-- The end of a WITHDRAW job: the flaw's rectangle is recomputed from the APPLIED flaws, the flaw becomes WITHDRAWN
and the context's no-fit marks are cleared (R26, R91). -/
def State.unapplyFlaw (s : State) (k : Ctx) (n : Nat) (f : Flaw) (c : Classified) : State :=
  let s := s.advanceScan
  let cells := f.shape.rectangle c.margin (s.ctxs[k]).width (s.ctxs[k]).height
  let after := recomputePlane s.planes[k] cells (appliedFlaws s.flaws[k])
  let t : State := { (s.setPlane k after).setFlaw k n { f with state := .withdrawn } with inFlight := none }
  settle s ((t.clearMarks k).begin.raise .flawWithdrawn)

/-- WITHDRAW_JOB_COMPLETION (R26); with no WITHDRAW job in flight the event cannot occur and changes nothing
(log 2). -/
def execWithdrawJobCompletion (s : State) : Host.Outcome State Fault Refusal :=
  match s.inFlight with
  | some { kind := .withdraw, ctx := k, flaw := n } =>
    match (s.flaws[k])[n]? with
    | some f =>
      match f.classified with
      | some c => .next (s.unapplyFlaw k n f c)
      | none => .next s
    | none => .next s
  | some { kind := .apply, ctx := _, flaw := _ } => .next s
  | none => .next s

/-! ### FLAW READ -/

/-- The classification fields: absent, 255 in one byte and all ones in more, until classified (R18, R188; log 11). -/
def classifiedBytes (c : Option Classified) : List Byte :=
  match c with
  | none => enc1 255 ++ enc1 255 ++ enc1 255 ++ enc2 65535 ++ enc3 16777215
  | some c => enc1 c.cls.val ++ enc1 c.margin ++ encOpt (c.cap.map fun g => g.val) ++ enc2 c.extent ++ enc3 c.area

/-- A flaw record in a reply, in the order of R18 (log 11). -/
def Flaw.bytes (n : Nat) (f : Flaw) : List Byte :=
  enc2 n ++ enc1 f.category ++ enc1 f.severity ++ enc1 f.source.code ++ f.shape.bytes ++ enc1 f.state.code ++
    classifiedBytes f.classified

/-- Whether a flaw's job is queued (0), in flight (1) or neither (2) (R22). -/
def State.jobCode (s : State) (k : Ctx) (n : Nat) : Nat :=
  if s.jobs.any fun j => j.ctx = k && j.flaw = n then 0
  else if s.inFlight.any fun j => j.ctx = k && j.flaw = n then 1
  else 2

/-- FLAW READ's answer (R22). -/
def flawReadAnswer (_ : Port) (pl : List Byte) (s : State) : Answer :=
  match index? 2 (u8 pl 0) with
  | none => .refuse .range
  | some k =>
    if (s.ctxs[k]).state = .empty then .refuse .state
    else if Config.maxFlaws ≤ u16 pl 1 then .refuse .range
    else
      match (s.flaws[k])[u16 pl 1]? with
      | none => .refuse .notFound
      | some f => .accept (f.bytes (u16 pl 1) ++ enc2 (s.flaws[k]).length ++ enc1 (s.jobCode k (u16 pl 1)))

/-- FLAW_READ (R22). -/
def execFlawRead (p : Port) (pl : List Byte) (s : State) : Host.Outcome State Fault Refusal :=
  request .flawRead (reading flawReadAnswer) p pl s

end Sys2Proof.Machine
end

