-- ==== Sys2Proof/Machine/Gate.lean ====
section
/-!
DEFINITION. The Advance Gate's requests and its hold limit (R139, R140).
-/

namespace Sys2Proof.Machine

open Sys2Proof

/-- FLOWING is 0 and HOLDING 1. -/
def Gate.code (g : Gate) : Nat := if g.holding then 1 else 0

/-- The gate's settings take values; a running hold keeps the limit it started with (R140). -/
def State.setGate (s : State) (hold release limit : Nat) : State :=
  let e := ({ s with gate := { s.gate with hold := hold, release := release, holdLimit := limit } } : State).begin
  settle s { e with sig := { e.sig with gateSet := true } }

/-- SET GATE's owner (R140). -/
def setGateOwner : Owner := fun _ pl s =>
  if 31 < u8 pl 0 ∨ u8 pl 1 ≤ u8 pl 0 ∨ 32 < u8 pl 1 then (s, .refuse .range)
  else
    let t := s.setGate (u8 pl 0) (u8 pl 1) (u8 pl 2)
    (t, .accept (enc1 (u8 pl 0) ++ enc1 (u8 pl 1) ++ enc1 (u8 pl 2) ++ enc1 t.gate.code ++ encFlag t.gate.armed))

/-- SET_GATE (R140). -/
def execSetGate (p : Port) (pl : List Byte) (s : State) : Host.Outcome State Fault Refusal :=
  request .setGate setGateOwner p pl s

/-- The gate is FLOWING and disarmed, and the lines follow (R139). -/
def State.releaseGate (s : State) : State := settleNotices (({ s with gate := s.gate.disarm } : State).begin)

/-- GATE RELEASE's owner (R140). -/
def gateReleaseOwner : Owner := fun _ _ s => (s.releaseGate, .accept (enc1 s.gate.code))

/-- GATE_RELEASE (R140). -/
def execGateRelease (p : Port) (pl : List Byte) (s : State) : Host.Outcome State Fault Refusal :=
  request .gateRelease gateReleaseOwner p pl s

/-- GATE_HOLD_LIMIT_EXPIRY (R139); with no hold timer running the event cannot occur and changes nothing (log 2). -/
def execGateHoldLimitExpiry (s : State) : Host.Outcome State Fault Refusal :=
  if s.gate.timer.isSome then .next s.releaseGate else .next s

end Sys2Proof.Machine
end

