-- ==== Sys2Proof/Machine/Service.lean ====
section
/-!
DEFINITION. What other blocks do to held placements: a claim taken back, a cut ended, and a head taken off line
(R100, R102, R143, R145, R146).
-/

namespace Sys2Proof.Machine

open Sys2Proof

/-- A CLAIMED slot goes back to PLACED against the head's wish: CLAIM LOST is flagged to it (R157, R158). -/
def Event.loseClaim (e : Event) (h : Head) (n : SlotNo) : Event := (e.on fun s => s.returnClaim n).raise (.claimLost h)

/-- A CUTTING slot is spoiled against the head's wish: CUT ABORTED is flagged to it (R112, R158). -/
def Event.abortCut (e : Event) (h : Head) (n : SlotNo) (cause : Cause) : Event :=
  (e.spoil n cause).raise (.cutAborted h)

/-- One held slot of a head that leaves work: a claim is given back, a cut is spoiled with cause HEAD_OFFLINE; the
head is told only if it did not ask (R145, R146). -/
def Event.giveUp (h : Head) (notify : Bool) (e : Event) (x : Held) : Event :=
  match e.state.slots[x.slot] with
  | none => e
  | some p =>
    if p.state = .cutting then
      if notify then e.abortCut h x.slot .headOffline else e.spoil x.slot .headOffline
    else if notify then e.loseClaim h x.slot else e.on fun s => s.returnClaim x.slot

/-- A head is taken off line: by its own request, or, with notices to it, by its interlock (R145, R146). -/
def Event.takeOffline (e : Event) (h : Head) (notify : Bool) : Event :=
  ((((e.state.heads[h]).held).foldl (Event.giveUp h notify) e).on fun s =>
    s.updHead h fun c => { c with state := .offline })

/-- Head h's interlock view is recomputed; one that becomes INACTIVE takes the head off line (R146, R163). -/
def Event.viewInterlock (e : Event) (h : Head) : Event :=
  let v := e.state.interlockView h
  let old := (e.state.heads[h]).interlock
  let e := e.on fun s => s.updHead h fun c => { c with interlock := v }
  if old = .active ∧ v = .inactive then e.takeOffline h true else e

/-- The interlock views of both heads (R163). -/
def Event.viewInterlocks (e : Event) : Event := (e.viewInterlock 0).viewInterlock 1

end Sys2Proof.Machine
end

