-- ==== Sys2Proof/Machine/Heads.lean ====
section
/-!
DEFINITION. The Head Service's requests and its claim timer (R144, R145, R149, R150, R152 to R157).
-/

namespace Sys2Proof.Machine

open Sys2Proof

/-! ### HEAD ONLINE and HEAD OFFLINE -/

/-- The event of an accepted HEAD ONLINE (R144). -/
def State.bringOnline (s : State) (h : Head) : State :=
  settle s (s.updHead h fun c => { c with state := .ready }).begin

/-- HEAD ONLINE's owner (R144). -/
def headOnlineOwner : Owner := fun p _ s =>
  let h := portHead p
  if (s.heads[h]).interlock = .inactive then (s, .refuse .state)
  else
    let t := s.bringOnline h
    (t, .accept (enc1 (s.heads[h]).state.code ++ encFlag (s.conveyor.reach[h]).present ++ encFlag (t.workAvailable h)))

/-- HEAD_ONLINE (R144). -/
def execHeadOnline (p : Port) (pl : List Byte) (s : State) : Host.Outcome State Fault Refusal :=
  request .headOnline headOnlineOwner p pl s

/-- The slots a head holds that are CLAIMED. -/
def State.claimedSlots (s : State) (h : Head) : List SlotNo :=
  ((s.heldRecords h).filter fun x => x.2.state = .claimed).map fun x => x.1.slot

/-- The slot a head holds that is CUTTING, if any. -/
def State.cuttingSlot (s : State) (h : Head) : Option SlotNo :=
  ((s.heldRecords h).find? fun x => x.2.state = .cutting).map fun x => x.1.slot

/-- A list of at most two slots in a reply: two places, with none in those it does not fill (R188). -/
def pairBytes (ns : List SlotNo) : List Byte := encSlot? ns[0]? ++ encSlot? ns[1]?

/-- The event of a HEAD OFFLINE (R145). -/
def State.leaveWork (s : State) (h : Head) : State := settle s (s.begin.takeOffline h false)

/-- HEAD OFFLINE's owner (R145; log 15). -/
def headOfflineOwner : Owner := fun p _ s =>
  let h := portHead p
  (s.leaveWork h,
    .accept (enc1 (s.heads[h]).state.code ++ pairBytes (s.claimedSlots h) ++ encSlot? (s.cuttingSlot h)))

/-- HEAD_OFFLINE (R145). -/
def execHeadOffline (p : Port) (pl : List Byte) (s : State) : Host.Outcome State Fault Refusal :=
  request .headOffline headOfflineOwner p pl s

/-! ### CLAIM -/

/-- A slot is granted to a head (R100, R149). -/
def State.grantSlot (s : State) (h : Head) (n : SlotNo) (p : Placement) : State :=
  let t := s.setSlot n (some { p with state := .claimed, head := some h })
  { t.updHead h fun c =>
      { c with held := c.held ++ [{ slot := n, grantOrder := s.grantCount, startOrder := none }] } with
    grantCount := s.grantCount + 1 }

/-- The event of a grant (R149). -/
def State.grant (s : State) (h : Head) (n : SlotNo) (p : Placement) : State := settle s (s.grantSlot h n p).begin

/-- The reach offset of a placement for a head: C − x_lo − D_h (R150). -/
def State.reachOffset (s : State) (h : Head) (p : Placement) : Nat :=
  s.travel p.ctx - p.xlo - (s.conveyor.reach[h]).start

/-- The claim record (R150, R190). -/
def State.claimBytes (s : State) (h : Head) (n : SlotNo) (p : Placement) : List Byte :=
  enc1 n.val ++ enc1 p.ctx.val ++ enc2 p.commitNo.toNat ++ enc1 p.tag.val ++ enc1 p.pattern.val ++
    enc1 (s.patterns[p.pattern]).kind ++ enc1 p.orient.val ++ enc2 p.xlo ++ enc2 p.ylo ++ enc1 p.wo ++ enc1 p.ho ++
    enc2 p.covered ++ enc2 (s.reachOffset h p) ++ enc4 (s.ctxs[p.ctx]).count ++
    enc1 ((s.heads[h]).held.length + 1)

/-- CLAIM's owner (R149). -/
def claimOwner : Owner := fun p _ s =>
  let h := portHead p
  if (s.heads[h]).state ≠ .ready then (s, .refuse .state)
  else if 2 ≤ (s.heads[h]).held.length then (s, .refuse .full)
  else
    match s.grantChoice h with
    | none => (s, .refuse .noneReady)
    | some (n, r) => (s.grant h n r, .accept (s.claimBytes h n r))

/-- CLAIM (R149). -/
def execClaim (p : Port) (pl : List Byte) (s : State) : Host.Outcome State Fault Refusal :=
  request .claim claimOwner p pl s

/-! ### Reports on held slots -/

/-- A slot held by a head with its record: it stands in the held list and its record has the context and commit number
given (R152). -/
def State.heldBy (s : State) (h : Head) (n : Nat) (k : Ctx) (commitNo : Nat) : Option (Held × Placement) :=
  (s.heldRecords h).find? fun x => x.1.slot.val = n && x.2.ctx = k && x.2.commitNo = BitVec.ofNat 16 commitNo

/-- A head's held list in a reply (R188; log 15). -/
def State.heldBytes (s : State) (h : Head) : List Byte := pairBytes ((s.heads[h]).held.map fun x => x.slot)

/-- A slot becomes CUTTING and moves to the front of its head's held list (R153). -/
def State.startSlot (s : State) (h : Head) (x : Held) (p : Placement) : State :=
  let t := s.setSlot x.slot (some { p with state := .cutting })
  { t.updHead h fun c =>
      { c with held := { x with startOrder := some s.startCount } :: c.held.filter fun y => y.slot ≠ x.slot } with
    startCount := s.startCount + 1 }

/-- The event of an accepted START CUT (R153). -/
def State.startCut (s : State) (h : Head) (x : Held) (p : Placement) : State := settle s (s.startSlot h x p).begin

/-- START CUT's owner (R153). -/
def startCutOwner : Owner := fun p pl s =>
  let h := portHead p
  match index? 2 (u8 pl 1) with
  | none => (s, .refuse .range)
  | some k =>
    match s.heldBy h (u8 pl 0) k (u16 pl 2) with
    | none => (s, .refuse .notHeld)
    | some (x, r) =>
      if s.isCutting h then (s, .refuse .state)
      else
        let t := s.startCut h x r
        (t, .accept (enc1 x.slot.val ++ t.heldBytes h))

/-- START_CUT (R153). -/
def execStartCut (p : Port) (pl : List Byte) (s : State) : Host.Outcome State Fault Refusal :=
  request .startCut startCutOwner p pl s

/-- A CUTTING record becomes CUT: it leaves the held list, its entry counts the cut, and an entry that has all its
pieces is satisfied (R63, R101). -/
def Event.cutThrough (e : Event) (h : Head) (n : SlotNo) (p : Placement) : Event :=
  let satisfied := (e.state.entry? p.tag).filter fun x => x.state = .opened && x.cut + 1 = x.requested
  let e := (e.on fun s =>
    ((s.setSlot n (some { p with state := .cut })).unhold h n).updEntry p.tag Entry.countCut).raise .pieceCut
  (e.raiseIf satisfied.isSome .demandSatisfied).raiseIf (satisfied.any fun x => x.rush) .rushSatisfied

/-- The event of an accepted CUT DONE: CUT, or SPOILED if tainted (R108, R154). -/
def State.cutDone (s : State) (h : Head) (n : SlotNo) (p : Placement) : State :=
  settle s (if p.tainted then s.begin.spoil n .lateFlaw else s.begin.cutThrough h n p)

/-- CUT DONE's owner (R154). -/
def cutDoneOwner : Owner := fun p pl s =>
  let h := portHead p
  match index? 2 (u8 pl 1) with
  | none => (s, .refuse .range)
  | some k =>
    match s.heldBy h (u8 pl 0) k (u16 pl 2) with
    | none => (s, .refuse .notHeld)
    | some (x, r) =>
      if r.state ≠ .cutting then (s, .refuse .notHeld)
      else
        let t := s.cutDone h x.slot r
        (t, .accept (enc1 x.slot.val ++ enc1 (if r.tainted then PlacementState.spoiled.code else PlacementState.cut.code) ++
          t.heldBytes h))

/-- CUT_DONE (R154). -/
def execCutDone (p : Port) (pl : List Byte) (s : State) : Host.Outcome State Fault Refusal :=
  request .cutDone cutDoneOwner p pl s

/-- A head becomes FAULT, its claims given back (R155). -/
def Event.faultHead (e : Event) (h : Head) : Event :=
  let e := (e.state.claimedSlots h).foldl (fun e n => e.on fun s => s.returnClaim n) e
  (e.on fun s => s.updHead h fun c => { c with state := .fault }).raise .headFault

/-- The event of an accepted CUT FAILED (R155). -/
def State.cutFailed (s : State) (h : Head) (n : SlotNo) (headCause : Bool) : State :=
  settle s (if headCause then (s.begin.spoil n .headFault).faultHead h else s.begin.spoil n .pieceFault)

/-- CUT FAILED's owner; cause 0 is PIECE and 1 HEAD (R155, R187). -/
def cutFailedOwner : Owner := fun p pl s =>
  let h := portHead p
  match index? 2 (u8 pl 1) with
  | none => (s, .refuse .range)
  | some k =>
    if 1 < u8 pl 4 then (s, .refuse .range)
    else
      match s.heldBy h (u8 pl 0) k (u16 pl 2) with
      | none => (s, .refuse .notHeld)
      | some (x, r) =>
        if r.state ≠ .cutting then (s, .refuse .notHeld)
        else
          let t := s.cutFailed h x.slot (u8 pl 4 = 1)
          (t, .accept (enc1 x.slot.val ++ enc1 (t.heads[h]).state.code ++
            encSlot? (if u8 pl 4 = 1 then (s.claimedSlots h).head? else none)))

/-- CUT_FAILED (R155). -/
def execCutFailed (p : Port) (pl : List Byte) (s : State) : Host.Outcome State Fault Refusal :=
  request .cutFailed cutFailedOwner p pl s

/-- The event of an accepted RETURN CLAIM (R156). -/
def State.giveBack (s : State) (n : SlotNo) : State := settle s (s.returnClaim n).begin

/-- RETURN CLAIM's owner (R156). -/
def returnClaimOwner : Owner := fun p pl s =>
  let h := portHead p
  match index? 2 (u8 pl 1) with
  | none => (s, .refuse .range)
  | some k =>
    match s.heldBy h (u8 pl 0) k (u16 pl 2) with
    | none => (s, .refuse .notHeld)
    | some (x, r) =>
      if r.state = .cutting then (s, .refuse .state)
      else
        let t := s.giveBack x.slot
        (t, .accept (enc1 x.slot.val ++ t.heldBytes h))

/-- RETURN_CLAIM (R156). -/
def execReturnClaim (p : Port) (pl : List Byte) (s : State) : Host.Outcome State Fault Refusal :=
  request .returnClaim returnClaimOwner p pl s

/-! ### CLAIM_TIMER_EXPIRY -/

/-- The event of an expiry: the timed slot goes back to PLACED and the head is told (R157). -/
def State.expireClaim (s : State) (h : Head) (n : SlotNo) : State := settle s (s.begin.loseClaim h n)

/-- CLAIM_TIMER_EXPIRY (R157); with no claim timer running the event cannot occur and changes nothing (log 2). -/
def execClaimTimerExpiry (h : Head) (s : State) : Host.Outcome State Fault Refusal :=
  match (s.heads[h]).timer, s.timedSlot h with
  | some _, some n => .next (s.expireClaim h n)
  | some _, none => .next s
  | none, _ => .next s

end Sys2Proof.Machine
end

