-- ==== Sys2Proof/Machine/Library.lean ====
section
/-!
DEFINITION. Loading, dropping and reading patterns (R48 to R54).
-/

namespace Sys2Proof.Machine

open Sys2Proof

/-! ### Ends of loads (R51) -/

inductive LoadOutcome
  | complete | truncated | emptied
  deriving DecidableEq, Repr

def LoadOutcome.code : LoadOutcome → Nat
  | .complete => 0 | .truncated => 1 | .emptied => 2

/-- The covered cells of a mask (R42). -/
def coveredCount (mask : List (List Region)) : Nat :=
  (mask.map fun row => row.countP fun c => c ≠ .outside).foldl (· + ·) 0

/-- What the end of a load makes of a record, and its outcome (R51). -/
def Pattern.endLoad (p : Pattern) : LoadOutcome × Pattern :=
  if coveredCount p.mask = 0 then (.emptied, Pattern.reset)
  else if p.mask.length = p.h then
    (.complete, { p with state := .ready, covered := coveredCount p.mask, reserved := p.w * p.h })
  else
    (.truncated, { p with state := .ready, h := p.mask.length, covered := coveredCount p.mask,
                          reserved := p.w * p.mask.length })

/-- The LOADING record, if any (R41). -/
def State.loading? (s : State) : Option PatNo := ((indexed s.patterns).find? fun x => x.2.state = .loading).map (·.1)

/-- The cells a load's end releases (R46). -/
def Pattern.released (p : Pattern) : Nat := p.reserved - p.endLoad.2.reserved

/-- Ends the load of a record; what it releases returns to the free capacity (R46, R51). -/
def State.endLoad (s : State) (n : PatNo) : State :=
  { s.updPattern n fun p => p.endLoad.2 with freeCells := s.freeCells + (s.patterns[n]).released }

/-! ### LIBRARY BEGIN -/

/-- A requirement at an offset, if its minimum grade is 1 to 7 (R48). -/
def requirement? (pl : List Byte) (i : Nat) : Option Requirement :=
  if 1 ≤ u8 pl i ∧ u8 pl i ≤ 7 then some { minGrade := u8 pl i, tolerated := set8 pl (i + 1) } else none

/-- The record a BEGIN declares, if every value is in range (R48, R49). -/
def declaredPattern? (pl : List Byte) : Option Pattern := do
  let face ← requirement? pl 4
  let hidden ← requirement? pl 6
  let edge ← requirement? pl 8
  if 1 ≤ u8 pl 1 ∧ u8 pl 1 ≤ 96 ∧ 1 ≤ u8 pl 2 ∧ u8 pl 2 ≤ 64 ∧ u8 pl 3 ≤ 15 ∧ set8 pl 10 ≠ 0 then
    some { state := .loading, w := u8 pl 1, h := u8 pl 2, mask := [], kind := u8 pl 3, face := face,
           hidden := hidden, edge := edge, orients := set8 pl 10, covered := 0, reserved := u8 pl 1 * u8 pl 2,
           refs := 0 }
  else none

/-- Ends the load in progress, whatever its number (R48). -/
def State.endAnyLoad (s : State) : State :=
  match s.loading? with
  | none => s
  | some m => s.endLoad m

/-- The report of the load a BEGIN ended: number, outcome and final height, or none in each (R49; log 16). -/
def State.endedReport (s : State) : List Byte :=
  match s.loading? with
  | none => encOpt none ++ encOpt none ++ encOpt none
  | some m => enc1 m.val ++ enc1 (s.patterns[m]).endLoad.1.code ++ enc1 (s.patterns[m]).endLoad.2.h

/-- A record begins its load: its old contents are released and the declared size is reserved (R46, R49). -/
def State.beginLoad (s : State) (n : PatNo) (p : Pattern) : State :=
  { s.updPattern n fun _ => p with freeCells := s.freeCells + (s.patterns[n]).reserved - p.reserved }

/-- LIBRARY BEGIN's owner (R48, R49). -/
def libraryBeginOwner : Owner := fun _ pl s =>
  match index? 128 (u8 pl 0), declaredPattern? pl with
  | some n, some p =>
    let t := s.endAnyLoad
    if 0 < (t.patterns[n]).refs then (t, .refuse .inUse)
    else if t.freeCells + (t.patterns[n]).reserved < p.reserved then (t, .refuse .full)
    else
      let u := t.beginLoad n p
      (u, .accept (enc1 n.val ++ enc2 p.reserved ++ enc3 u.freeCells ++ s.endedReport))
  | _, _ => (s, .refuse .range)

/-- LIBRARY_BEGIN (R48). -/
def execLibraryBegin (p : Port) (pl : List Byte) (s : State) : Host.Outcome State Fault Refusal :=
  request .libraryBegin libraryBeginOwner p pl s

/-! ### LIBRARY ROWS -/

/-- The mask rows of a ROWS payload for a width (R50). -/
def rowsOf (w : Nat) (pl : List Byte) : List (List Region) :=
  (pieces (rowBytes w) ((pl.length - 2) / rowBytes w) (pl.drop 2)).map (unpackRow w)

/-- LIBRARY ROWS' owner (R50). -/
def libraryRowsOwner : Owner := fun _ pl s =>
  match index? 128 (u8 pl 0) with
  | none => (s, .refuse .range)
  | some n =>
    let p := s.patterns[n]
    if p.state ≠ .loading then (s, .refuse .state)
    else if pl.length < 2 + rowBytes p.w ∨ (pl.length - 2) % rowBytes p.w ≠ 0 then (s, .refuse .length)
    else if u8 pl 1 ≠ p.mask.length ∨ p.h < p.mask.length + (rowsOf p.w pl).length then (s, .refuse .range)
    else
      (s.updPattern n fun p => { p with mask := p.mask ++ rowsOf p.w pl },
        .accept (enc1 n.val ++ enc1 (p.mask.length + (rowsOf p.w pl).length)))

/-- LIBRARY_ROWS (R50). -/
def execLibraryRows (p : Port) (pl : List Byte) (s : State) : Host.Outcome State Fault Refusal :=
  request .libraryRows libraryRowsOwner p pl s

/-! ### LIBRARY END -/

/-- LIBRARY END's owner (R51). -/
def libraryEndOwner : Owner := fun _ pl s =>
  match index? 128 (u8 pl 0) with
  | none => (s, .refuse .range)
  | some n =>
    let p := s.patterns[n]
    if p.state ≠ .loading then (s, .refuse .state)
    else
      let t := s.endLoad n
      (t, .accept (enc1 n.val ++ enc1 p.endLoad.1.code ++ enc1 p.endLoad.2.h ++ enc2 p.released ++ enc3 t.freeCells))

/-- LIBRARY_END (R51). -/
def execLibraryEnd (p : Port) (pl : List Byte) (s : State) : Host.Outcome State Fault Refusal :=
  request .libraryEnd libraryEndOwner p pl s

/-! ### LIBRARY DROP -/

/-- A record is emptied and its reserved size returns to the free capacity (R46, R52). -/
def State.dropPattern (s : State) (n : PatNo) : State :=
  { s.updPattern n fun _ => Pattern.reset with freeCells := s.freeCells + (s.patterns[n]).reserved }

/-- LIBRARY DROP's owner (R52). -/
def libraryDropOwner : Owner := fun _ pl s =>
  match index? 128 (u8 pl 0) with
  | none => (s, .refuse .range)
  | some n =>
    let p := s.patterns[n]
    match p.state with
    | .empty => (s, .refuse .notFound)
    | .loading => (s, .refuse .state)
    | .ready =>
      if 0 < p.refs then (s, .refuse .inUse)
      else (s.dropPattern n, .accept (enc1 n.val ++ enc2 p.reserved ++ enc3 (s.dropPattern n).freeCells))

/-- LIBRARY_DROP (R52). -/
def execLibraryDrop (p : Port) (pl : List Byte) (s : State) : Host.Outcome State Fault Refusal :=
  request .libraryDrop libraryDropOwner p pl s

/-! ### LIBRARY READ -/

/-- A requirement in a reply. -/
def Requirement.bytes (r : Requirement) : List Byte := enc1 r.minGrade ++ [r.tolerated]

/-- The payload of LIBRARY READ in record form (R53). -/
def State.patternBytes (s : State) (n : PatNo) : List Byte :=
  let p := s.patterns[n]
  enc1 p.state.code ++ enc1 p.w ++ enc1 p.h ++ enc1 p.mask.length ++ enc1 p.kind ++ p.face.bytes ++ p.hidden.bytes ++
    p.edge.bytes ++ [p.orients] ++ enc2 p.covered ++ enc2 p.reserved ++ enc2 p.refs ++ enc3 s.freeCells ++
    encOpt (s.loading?.map fun m => m.val)

/-- How many rows a mask read returns: those stored from the start row on, as many as fit a reply (R54). -/
def rowsReturned (p : Pattern) (start : Nat) : Nat := min (p.mask.length - start) (237 / rowBytes p.w)

/-- The payload of LIBRARY READ in mask form (R54). -/
def maskBytes (n : PatNo) (p : Pattern) (start : Nat) : List Byte :=
  enc1 n.val ++ enc1 start ++ enc1 (rowsReturned p start) ++
    ((p.mask.drop start).take (rowsReturned p start)).flatMap (packRow p.w)

/-- LIBRARY READ's answer, in either form (R53, R54). -/
def libraryReadAnswer (_ : Port) (pl : List Byte) (s : State) : Answer :=
  match index? 128 (u8 pl 0) with
  | none => .refuse .range
  | some n =>
    if u8 pl 1 = 0 then .accept (s.patternBytes n)
    else if u8 pl 1 = 1 then
      if (s.patterns[n]).state = .empty then .refuse .state
      else if (s.patterns[n]).mask.length ≤ u8 pl 2 then .refuse .range
      else .accept (maskBytes n s.patterns[n] (u8 pl 2))
    else .refuse .range

/-- LIBRARY_READ_RECORD (R53). -/
def execLibraryReadRecord (p : Port) (pl : List Byte) (s : State) : Host.Outcome State Fault Refusal :=
  request .libraryRead (reading libraryReadAnswer) p pl s

/-- LIBRARY_READ_MASK (R54). -/
def execLibraryReadMask (p : Port) (pl : List Byte) (s : State) : Host.Outcome State Fault Refusal :=
  request .libraryRead (reading libraryReadAnswer) p pl s

end Sys2Proof.Machine
end

