-- ==== Sys2Proof/Machine/Hide.lean ====
section
/-!
DEFINITION. The life of a hide context: opening, marking, draining, aborting and releasing (R39, R112, R113, R121 to
R128).
-/

namespace Sys2Proof.Machine

open Sys2Proof

/-- The other context. -/
def otherCtx (k : Ctx) : Ctx := if k = 0 then 1 else 0

/-! ### HIDE OPEN -/

/-- The lowest-numbered EMPTY context (R121). -/
def State.emptyCtx? (s : State) : Option Ctx :=
  [(0 : Ctx), 1].find? fun k => (s.ctxs[k]).state = .empty

/-- The open rank a context takes when it is opened (R119). -/
def State.openRank (s : State) (k : Ctx) : Rank :=
  if (s.ctxs[otherCtx k]).state = .empty then .first else .second

/-- A context as HIDE OPEN makes it (R121). -/
def State.openedCtx (s : State) (k : Ctx) (w h : Nat) (article : Fin 16) : HideContext :=
  { HideContext.reset with
    state := .opened, article := article, width := w, height := h, rank := some (s.openRank k) }

/-- The event of an accepted HIDE OPEN (R121). -/
def State.openHide (s : State) (k : Ctx) (w h : Nat) (article : Fin 16) : State :=
  settle s (s.updCtx k fun _ => s.openedCtx k w h article).begin

/-- HIDE OPEN's owner (R121). -/
def hideOpenOwner : Owner := fun _ pl s =>
  match index? 16 (u8 pl 4) with
  | none => (s, .refuse .range)
  | some a =>
    if u16 pl 0 = 0 ∨ 768 < u16 pl 0 ∨ u16 pl 2 = 0 ∨ 512 < u16 pl 2 then (s, .refuse .range)
    else
      match s.emptyCtx? with
      | none => (s, .refuse .full)
      | some k =>
        (s.openHide k (u16 pl 0) (u16 pl 2) a, .accept (enc1 k.val ++ enc1 (rankCode (some (s.openRank k)))))

/-- HIDE_OPEN (R121). -/
def execHideOpen (p : Port) (pl : List Byte) (s : State) : Host.Outcome State Fault Refusal :=
  request .hideOpen hideOpenOwner p pl s

/-! ### MARK FRONTIER -/

/-- The frontier a value gives (R122). -/
def HideContext.raised (c : HideContext) (v : Nat) : Nat := max c.frontier (min v c.width)

/-- The event of a MARK FRONTIER that raises M (R91, R122). -/
def State.raiseFrontier (s : State) (k : Ctx) (m : Nat) : State :=
  settle s ((s.updCtx k fun c => { c with frontier := m }).clearMarks k).begin

/-- MARK FRONTIER's owner (R122). -/
def markFrontierOwner : Owner := fun _ pl s =>
  match index? 2 (u8 pl 0) with
  | none => (s, .refuse .range)
  | some k =>
    let c := s.ctxs[k]
    if !c.state.cuttable then (s, .refuse .state)
    else
      let m := c.raised (u16 pl 1)
      let rose := decide (c.frontier < m)
      (if rose then s.raiseFrontier k m else s, .accept (enc1 k.val ++ enc2 m ++ encFlag rose))

/-- MARK_FRONTIER (R122). -/
def execMarkFrontier (p : Port) (pl : List Byte) (s : State) : Host.Outcome State Fault Refusal :=
  request .markFrontier markFrontierOwner p pl s

/-! ### HIDE DRAIN -/

/-- An OPEN context starts to drain with a cause; a search or stall on it is abandoned (R95, R124, R125). -/
def State.drainCtx (s : State) (k : Ctx) (cause : DrainCause) : State :=
  let t := s.updCtx k fun c => { c with state := .draining, drainCause := some cause }
  if s.searchesOn k then t.abandonSearch else t

/-- The event of a HIDE DRAIN of an OPEN context (R124). -/
def State.drain (s : State) (k : Ctx) : State := settle s (s.drainCtx k .request).begin

/-- HIDE DRAIN's reply (R124). -/
def drainBytes (k : Ctx) (c : HideContext) : List Byte :=
  enc1 k.val ++ enc1 c.state.code ++ enc1 (drainCode c.drainCause)

/-- HIDE DRAIN's owner (R124). -/
def hideDrainOwner : Owner := fun _ pl s =>
  match index? 2 (u8 pl 0) with
  | none => (s, .refuse .range)
  | some k =>
    match (s.ctxs[k]).state with
    | .opened => (s.drain k, .accept (drainBytes k (s.drain k).ctxs[k]))
    | .draining => (s, .accept (drainBytes k s.ctxs[k]))
    | .empty => (s, .refuse .state)
    | .closed => (s, .refuse .state)

/-- HIDE_DRAIN (R124). -/
def execHideDrain (p : Port) (pl : List Byte) (s : State) : Host.Outcome State Fault Refusal :=
  request .hideDrain hideDrainOwner p pl s

/-! ### HIDE ABORT -/

/-- A flaw with work due becomes WITHDRAWN (R39). -/
def Flaw.abandoned (f : Flaw) : Flaw := if f.state.due then { f with state := .withdrawn } else f

/-- The context's marking work is cleared out (R39). -/
def State.clearMarking (s : State) (k : Ctx) : State :=
  { s.setFlaws k ((s.flaws[k]).map Flaw.abandoned) with
    jobs := s.jobs.filter fun j => j.ctx ≠ k,
    inFlight := s.inFlight.filter fun j => j.ctx ≠ k }

/-- One slot of an aborted context (R112). -/
def Event.abortSlot (k : Ctx) (e : Event) (n : SlotNo) : Event :=
  match e.state.slots[n] with
  | none => e
  | some p =>
    if p.ctx ≠ k then e
    else
      match p.state, p.head with
      | .placed, _ => e.withdraw n .hideAborted
      | .claimed, _ => e.withdraw n .hideAborted
      | .cutting, some h => e.abortCut h n .hideAborted
      | .cutting, none => e.spoil n .hideAborted
      | .cut, _ => e
      | .spoiled, _ => e
      | .missed, _ => e
      | .withdrawn, _ => e

/-- The slots that hold records, in ascending order. -/
def State.usedSlots (s : State) : List SlotNo := s.records.map fun r => r.1

/-- The event of an abort before its tail (R127). -/
def State.aborting (s : State) (k : Ctx) : Event :=
  let s := s.advanceScan
  let t := s.clearMarking k
  let t := if s.searchesOn k then t.abandonSearch else t
  let e := t.usedSlots.foldl (Event.abortSlot k) t.begin
  ((e.on fun s => s.updCtx k fun c => { c with state := .closed, aborted := true }).raise .hideClosed).raise
    .hideClosedMarking

/-- The event of an accepted HIDE ABORT (R127). -/
def State.abort (s : State) (k : Ctx) : State := settle s.advanceScan (s.aborting k)

/-- The number of a context's records in the states given. -/
def State.countStates (s : State) (k : Ctx) (f : PlacementState → Bool) : Nat :=
  s.records.countP fun r => r.2.ctx = k && f r.2.state

/-- HIDE ABORT's owner (R127). -/
def hideAbortOwner : Owner := fun _ pl s =>
  match index? 2 (u8 pl 0) with
  | none => (s, .refuse .range)
  | some k =>
    if !(s.ctxs[k]).state.cuttable then (s, .refuse .state)
    else
      (s.abort k, .accept (enc1 k.val ++ enc2 (s.countStates k fun st => st = .placed || st = .claimed) ++
        enc1 (s.countStates k fun st => st = .cutting)))

/-- HIDE_ABORT (R127). -/
def execHideAbort (p : Port) (pl : List Byte) (s : State) : Host.Outcome State Fault Refusal :=
  request .hideAbort hideAbortOwner p pl s

/-! ### HIDE RELEASE -/

/-- The slots whose records name a context, in ascending order (R113). -/
def State.slotsOf (s : State) (k : Ctx) : List SlotNo := (s.records.filter fun r => r.2.ctx = k).map fun r => r.1

/-- Frees slots in order (R113). -/
def Event.freeAll (e : Event) (ns : List SlotNo) : Event := ns.foldl (fun e n => e.free n) e

/-- A context that was SECOND becomes FIRST (R119). -/
def HideContext.promote (c : HideContext) : HideContext :=
  if c.rank = some .second then { c with rank := some .first } else c

/-- The event of a release before its tail (R128). -/
def State.releasing (s : State) (k : Ctx) : Event :=
  let e := s.begin.freeAll (s.slotsOf k)
  e.on fun s =>
    ((((s.setPlane k []).setFlaws k []).clearMarks k).updCtx k fun _ => HideContext.reset).updCtx (otherCtx k)
      HideContext.promote

/-- The event of an accepted HIDE RELEASE (R128). -/
def State.release (s : State) (k : Ctx) : State := settle s (s.releasing k)

/-- HIDE RELEASE's owner (R128). -/
def hideReleaseOwner : Owner := fun _ pl s =>
  match index? 2 (u8 pl 0) with
  | none => (s, .refuse .range)
  | some k =>
    if (s.ctxs[k]).state ≠ .closed then (s, .refuse .state)
    else (s.release k, .accept (enc1 k.val ++ enc2 (s.slotsOf k).length))

/-- HIDE_RELEASE (R128). -/
def execHideRelease (p : Port) (pl : List Byte) (s : State) : Host.Outcome State Fault Refusal :=
  request .hideRelease hideReleaseOwner p pl s

end Sys2Proof.Machine
end

