-- ==== Sys2Proof/Machine/Conveyor.lean ====
section
/-!
DEFINITION. Registration, encoder transitions, changes of cell travel and the conveyor settings (R103, R123, R125,
R129 to R135, R158, R159, R166, R169).
-/

namespace Sys2Proof.Machine

open Sys2Proof

/-! ### A change of cell travel (R133) -/

/-- An OPEN context whose floor has come to W or more drains with cause EXHAUSTED (R125). -/
def Event.exhaust (e : Event) (k : Ctx) : Event :=
  if (e.state.ctxs[k]).state = .opened && decide ((e.state.ctxs[k]).width ≤ e.state.floor k) then
    e.on fun s => s.drainCtx k .exhausted
  else e

/-- Reach loss of one held slot (R158). -/
def Event.loseReach (k : Ctx) (h : Head) (e : Event) (x : Held) : Event :=
  match e.state.slots[x.slot] with
  | none => e
  | some p =>
    if p.ctx ≠ k then e
    else if p.state = .cutting then
      if e.state.reaches h k p.xlo then e else e.abortCut h x.slot .leftReach
    else if e.state.fullyReaches h p then e
    else e.loseClaim h x.slot

/-- Reach loss of every held slot of a context (R158). -/
def Event.reachLoss (e : Event) (k : Ctx) : Event :=
  let e := ((e.state.heads[(0 : Head)]).held).foldl (Event.loseReach k 0) e
  ((e.state.heads[(1 : Head)]).held).foldl (Event.loseReach k 1) e

/-- A held slot of a head with its record. -/
structure HeldPiece where
  head   : Head
  held   : Held
  record : Placement
  deriving DecidableEq, Repr

/-- The held pieces of a head. -/
def State.heldPieces (s : State) (h : Head) : List HeldPiece :=
  (s.heldRecords h).map fun x => { head := h, held := x.1, record := x.2 }

/-- Whether two held pieces are short of separation, one of them of the context (R159). -/
def State.short (s : State) (k : Ctx) (a b : HeldPiece) : Bool :=
  (a.record.ctx = k || b.record.ctx = k) && !s.separated a.record b.record

/-- The held pieces that stand in short pairs (R159). -/
def State.shortPieces (s : State) (k : Ctx) : List HeldPiece :=
  ((s.heldPieces 0).filter fun a => (s.heldPieces 1).any fun b => s.short k a b) ++
    ((s.heldPieces 1).filter fun b => (s.heldPieces 0).any fun a => s.short k a b)

/-- Which of two pieces is taken first: a CLAIMED one before a CUTTING one, then the later grant or start (R159). -/
def takenBefore (a b : HeldPiece) : Bool :=
  if a.record.state = .cutting then
    b.record.state = .cutting && decide (b.held.startOrder.getD 0 < a.held.startOrder.getD 0)
  else b.record.state = .cutting || decide (b.held.grantOrder < a.held.grantOrder)

/-- The piece that is taken out of the short pairs, if any (R159). -/
def pickShort : List HeldPiece → Option HeldPiece
  | [] => none
  | a :: rest => some (rest.foldl (fun best b => if takenBefore b best then b else best) a)

/-- A piece is taken out of the short pairs (R159). -/
def Event.takeShort (e : Event) (x : HeldPiece) : Event :=
  if x.record.state = .cutting then e.abortCut x.head x.held.slot .leftReach else e.loseClaim x.head x.held.slot

/-- Separation loss: while a pair is short, one piece is taken and the check repeats (R159). Two heads hold at most
four slots, so four rounds end it. -/
def Event.separationLoss (k : Ctx) : Nat → Event → Event
  | 0, e => e
  | n + 1, e =>
    match pickShort (e.state.shortPieces k) with
    | none => e
    | some x => Event.separationLoss k n (e.takeShort x)

/-- Whether a column has passed the reach of a head that is present: x ≤ C − D_h − L_h (R133). -/
def State.passed (s : State) (k : Ctx) (h : Head) (x : Nat) : Bool :=
  let r := s.conveyor.reach[h]
  decide ((x : Int) ≤ (s.travel k : Int) - r.start - r.length)

/-- Whether a column has passed the reach of every present head, and some head is present (R133). -/
def State.passedAll (s : State) (k : Ctx) (x : Nat) : Bool :=
  ([(0 : Head), 1].any fun h => (s.conveyor.reach[h]).present) &&
    [(0 : Head), 1].all fun h => !(s.conveyor.reach[h]).present || s.passed k h x

/-- A PLACED record is carried past every head: MISSED (R103). -/
def Event.miss (e : Event) (n : SlotNo) (p : Placement) : Event :=
  (e.on fun s =>
    (s.setSlot n (some { p with state := .missed, cause := some .leftReach, head := none })).updEntry p.tag
      Entry.loseLive).raise .pieceMissed

/-- The MISSED test of one slot (R133). -/
def Event.testMissed (k : Ctx) (e : Event) (n : SlotNo) : Event :=
  match e.state.slots[n] with
  | none => e
  | some p => if p.ctx = k && p.state = .placed && e.state.passedAll k p.xlo then e.miss n p else e

/-- The consequences of a change of a context's cell travel, before the event's tail (R133). -/
def Event.travelChange (e : Event) (k : Ctx) : Event :=
  let e := Event.separationLoss k 4 ((e.exhaust k).reachLoss k)
  (e.state.usedSlots).foldl (Event.testMissed k) e

/-! ### ENCODER_TRANSITION -/

inductive Transition
  | none | forward | reverse | invalid
  deriving DecidableEq, Repr

/-- The class of a change of the encoder pair (R129). -/
def classifyTransition (a b a' b' : Bool) : Transition :=
  if a ≠ a' ∧ b ≠ b' then .invalid
  else if a ≠ a' then (if a' ≠ b' then .forward else .reverse)
  else if b ≠ b' then (if a' = b' then .forward else .reverse)
  else .none

/-- An encoder count after a transition (R129). -/
def countAfter (t : Transition) (n : Nat) : Nat :=
  match t with
  | .forward => min 4294967295 (n + 1)
  | .reverse => n - 1
  | .invalid => n
  | .none => n

/-- A context's encoder count moves while it is registered (R129). -/
def HideContext.move (t : Transition) (c : HideContext) : HideContext :=
  if c.registered then { c with count := countAfter t c.count } else c

/-- The encoder pair and the counts after a transition (R129, R169). -/
def State.moveBelt (s : State) (t : Transition) (a b : Bool) : State :=
  { s with encA := a, encB := b, ctxs := s.ctxs.map (HideContext.move t),
           encErrors := if t = .invalid then min 255 (s.encErrors + 1) else s.encErrors }

/-- The event of a change of a context's cell travel, if it changed between two states; the event begins in a state
(R130). -/
def travelEvent (old new : State) (k : Ctx) (before s : State) : State :=
  if old.travel k ≠ new.travel k then settle before (s.begin.travelChange k) else s

/-- What an encoder transition brings about: the counts move, then the changes of cell travel are taken as events,
context 0's first (R130). -/
def State.turn (s : State) (t : Transition) (a b : Bool) : State :=
  let new := s.moveBelt t a b
  let mid := travelEvent s new 0 s new
  travelEvent s new 1 (if s.travel 0 ≠ new.travel 0 then mid else s) mid

/-- ENCODER_TRANSITION (R129, R169); a sample equal to the one before is no transition and changes nothing
(log 2). -/
def execEncoderTransition (a b : Bool) (s : State) : Host.Outcome State Fault Refusal :=
  match classifyTransition s.encA s.encB a b with
  | .none => .next s
  | .forward => .next (s.turn .forward a b)
  | .reverse => .next (s.turn .reverse a b)
  | .invalid => .next (s.turn .invalid a b)

/-! ### Registration (R123, R166) -/

/-- Whether a context can be registered by a hide edge (R123). -/
def State.qualifies (s : State) (k : Ctx) : Bool := (s.ctxs[k]).state.cuttable && !(s.ctxs[k]).registered

/-- The context a hide edge registers: the one that qualifies, or of two the one with open rank FIRST (R123). -/
def State.registrable (s : State) : Option Ctx := (s.ageOrder.filter fun k => s.qualifies k).head?

/-- A STAGED line takes its pending value as its applied value (R166). -/
def Line.applyStaged (l : Line) : Line :=
  match l.source, l.pendingStaged with
  | .staged, some v => { l with applied := v, pendingStaged := none }
  | _, _ => l

/-- A context is bound to the conveyor and the staged values are applied (R123). -/
def State.register (s : State) (k : Ctx) : State :=
  let s := s.updCtx k fun c => { c with registered := true, count := 0 }
  { s with lines := s.lines.map Line.applyStaged }

/-- A hide-edge event (R123). -/
def Event.hideEdge (e : Event) : Event :=
  match e.state.registrable with
  | none => e.raise .unexpectedEdge
  | some k =>
    let e := (e.on fun s => s.register k).raise .hideRegistered
    ({ e with sig := { e.sig with registered := true } } : Event).travelChange k

/-! ### SET CONVEYOR -/

/-- The reach settings at an offset (R135). -/
def reachAt (pl : List Byte) (present : Bool) (i : Nat) : Reach :=
  { present := present, start := u16 pl i, length := u16 pl (i + 2) }

/-- The settings a payload carries, if in range; the reach start and length of head 1, then of head 2 (R135;
log 13). -/
def conveyor? (pl : List Byte) : Option Conveyor :=
  if u16 pl 0 = 0 ∨ 3 < u8 pl 2 ∨ 4095 < u16 pl 3 ∨ 4095 < u16 pl 7 ∨ u16 pl 5 = 0 ∨ 1024 < u16 pl 5 ∨
      u16 pl 9 = 0 ∨ 1024 < u16 pl 9 then none
  else
    some { factor := u16 pl 0,
           reach := #v[reachAt pl (u8 pl 2 % 2 = 1) 3, reachAt pl (u8 pl 2 / 2 = 1) 7],
           separation := u8 pl 11, guardCells := u8 pl 12, claimLimit := u8 pl 13 }

/-- The settings in a reply, laid out as in the request (log 13). -/
def Conveyor.bytes (c : Conveyor) : List Byte :=
  enc2 c.factor ++ enc1 ((if (c.reach[0]).present then 1 else 0) + (if (c.reach[1]).present then 2 else 0)) ++
    enc2 (c.reach[0]).start ++ enc2 (c.reach[0]).length ++ enc2 (c.reach[1]).start ++ enc2 (c.reach[1]).length ++
    enc1 c.separation ++ enc1 c.guardCells ++ enc1 c.claimLimit

/-- SET CONVEYOR's owner (R135). -/
def setConveyorOwner : Owner := fun _ pl s =>
  match conveyor? pl with
  | none => (s, .refuse .range)
  | some c =>
    if (s.ctxs[(0 : Ctx)]).registered || (s.ctxs[(1 : Ctx)]).registered then (s, .refuse .state)
    else ({ s with conveyor := c }, .accept c.bytes)

/-- SET_CONVEYOR (R135). -/
def execSetConveyor (p : Port) (pl : List Byte) (s : State) : Host.Outcome State Fault Refusal :=
  request .setConveyor setConveyorOwner p pl s

end Sys2Proof.Machine
end

