-- ==== Sys2Proof/Machine/Lines.lean ====
section
/-!
DEFINITION. The Line Unit: pin changes, debounce, SET LINE, LINE STATUS and the minimum pulse hold (R160 to R170).
-/

namespace Sys2Proof.Machine

open Sys2Proof

/-! ### A change of a debounced level -/

/-- The debounced level of a line takes a level and any candidate is dropped (R161). -/
def Line.take (l : Line) (level : Bool) : Line := { l with work := .input level none }

/-- The change of a debounced level is delivered to the line's input function (R162). -/
def Event.deliver (e : Event) (f : InputFunction) (level : Bool) : Event :=
  match f with
  | .none => e
  | .hideEdge => if level then e.hideEdge else e
  | .gateRelease => if level then e.on fun s => { s with gate := s.gate.disarm } else e
  | .interlock _ => e.viewInterlocks

/-- The event of a change of a line's debounced level (R161, R162). -/
def State.changeLevel (s : State) (l : LineNo) (level : Bool) : State :=
  settle s ((s.updLine l fun x => x.take level).begin.deliver (s.lines[l]).function level)

/-! ### LINE_PIN_CHANGE and DEBOUNCE_EXPIRY -/

/-- An input line follows its logical pin level: a change at once with debounce 0, else a candidate made or dropped
(R161). -/
def State.followPin (s : State) (l : LineNo) : State :=
  let x := s.lines[l]
  match x.work with
  | .output _ _ => s
  | .input d none =>
    if x.logical = d then s
    else if x.debounce = 0 then s.changeLevel l x.logical
    else s.updLine l fun y => { y with work := .input d (some { level := x.logical, elapsed := 0 }) }
  | .input d (some c) =>
    if x.logical = d then s.updLine l fun y => { y with work := .input d none }
    else s.updLine l fun y => { y with work := .input d (some c) }

/-- LINE_PIN_CHANGE (R161); a pin that stands at the level already changes nothing (log 2). -/
def execLinePinChange (l : LineNo) (level : Bool) (s : State) : Host.Outcome State Fault Refusal :=
  if (s.lines[l]).pin = level then .next s
  else .next ((s.updLine l fun x => { x with pin := level }).followPin l)

/-- DEBOUNCE_EXPIRY (R161); with no candidate standing the event cannot occur and changes nothing (log 2). -/
def execDebounceExpiry (l : LineNo) (s : State) : Host.Outcome State Fault Refusal :=
  match (s.lines[l]).work with
  | .input _ (some c) => .next (s.changeLevel l c.level)
  | .input _ none => .next s
  | .output _ _ => .next s

/-! ### OUTPUT_HOLD_END -/

/-- OUTPUT_HOLD_END (R165); with no hold running the event cannot occur and changes nothing (log 2). -/
def execOutputHoldEnd (l : LineNo) (s : State) : Host.Outcome State Fault Refusal :=
  .next (s.updLine l fun x => { x with work := endHold x.work x.width })

/-! ### SET LINE -/

/-- An output source from its code and argument, and the level a STAGED value carries (R164, R167). -/
def outputSource? (code arg : Nat) : Option OutputSource :=
  match code with
  | 0 => if arg ≤ 1 then some (.constant (arg = 1)) else none
  | 1 => if arg ≤ 1 then some .staged else none
  | 2 => some .gateHold
  | 3 => (index? 4 arg).map .attention
  | 4 => if arg = 1 then some (.workAvailable 0) else if arg = 2 then some (.workAvailable 1) else none
  | 5 => (index? 2 arg).map .hideOpen
  | 6 => some .fault
  | 7 => some .searchBusy
  | 8 => some .partReady
  | _ => none

/-- The configuration a SET LINE gives (R167). -/
structure LineConfig where
  out      : Bool
  invert   : Bool
  debounce : Nat
  function : InputFunction
  source   : OutputSource
  staged   : Bool
  width    : Nat
  deriving DecidableEq, Repr

/-- The configuration of a SET LINE payload, if every value is in range (R167; log 14). -/
def lineConfig? (pl : List Byte) : Option LineConfig :=
  match inputFunction? (u8 pl 5), outputSource? (u8 pl 6) (u8 pl 7) with
  | some f, some o =>
    if 1 < u8 pl 1 ∨ 1 < u8 pl 2 ∨ (u8 pl 1 = 1 ∧ f ≠ .none) then none
    else
      some { out := u8 pl 1 = 1, invert := u8 pl 2 = 1, debounce := min 255 (u16 pl 3), function := f, source := o,
             staged := u8 pl 7 = 1, width := u8 pl 8 }
  | _, _ => none

/-- Whether a line drives its pin. -/
def LineWork.isOut : LineWork → Bool
  | .output _ _ => true
  | .input _ _ => false

/-- A line's working fields after a SET LINE, the levels it comes to drive aside (R168). -/
def Line.reworked (l : Line) (c : LineConfig) : LineWork :=
  let level := xor l.pin c.invert
  match l.work, c.out with
  | .input d x, false =>
    if l.invert ≠ c.invert ∨ l.debounce ≠ c.debounce ∨ l.function ≠ c.function then .input level none else .input d x
  | .output _ _, false => .input level none
  | .input _ _, true => .output level none
  | .output d x, true => .output d x

/-- A line after a SET LINE; a STAGED value is recorded as pending, and a line that becomes STAGED keeps the value its
old source had (R166, R168). -/
def Line.configure (l : Line) (c : LineConfig) (value : Bool) : Line :=
  { l with
    invert := c.invert, debounce := c.debounce, function := c.function, source := c.source, width := c.width,
    work := l.reworked c,
    applied := if c.source = .staged ∧ l.source ≠ .staged then value else l.applied,
    pendingStaged := if c.source = .staged then some c.staged else none }

/-- A line that was made OUT drives its requested level at once (R168). -/
def State.driveNow (s : State) (l : LineNo) : State :=
  s.updLine l fun x => { x with work := .output (s.requested x) (startHold x.width) }

/-- The event of an accepted SET LINE (R168). -/
def State.setLine (s : State) (l : LineNo) (c : LineConfig) : State :=
  let x := s.lines[l]
  let t := settle s (s.updLine l fun x => x.configure c (s.sourceValue x.applied x.source)).begin.viewInterlocks
  if c.out && !x.work.isOut then t.driveNow l else t

/-- The argument of an output source; 0 where it has none, the applied value for STAGED (log 14, log 25). -/
def Line.argument (l : Line) : Nat :=
  match l.source with
  | .constant v => if v then 1 else 0
  | .staged => if l.applied then 1 else 0
  | .attention p => p.val
  | .workAvailable h => h.val + 1
  | .hideOpen k => k.val
  | .gateHold => 0
  | .fault => 0
  | .searchBusy => 0
  | .partReady => 0

/-- A line's configuration fields in a reply, in the order of R160 (log 14). -/
def Line.configBytes (l : Line) : List Byte :=
  encFlag l.work.isOut ++ encFlag l.invert ++ enc1 l.debounce ++ enc1 l.function.code ++ enc1 l.source.code ++
    enc1 l.argument ++ enc1 l.width

/-- A line's debounced or driven level. -/
def LineWork.level : LineWork → Bool
  | .input d _ => d
  | .output d _ => d

/-- SET LINE's owner (R167). -/
def setLineOwner : Owner := fun _ pl s =>
  match index? 6 (u8 pl 0), lineConfig? pl with
  | some l, some c =>
    let t := s.setLine l c
    (t, .accept ((t.lines[l]).configBytes ++ encFlag (t.lines[l]).work.level))
  | _, _ => (s, .refuse .range)

/-- SET_LINE (R167). -/
def execSetLine (p : Port) (pl : List Byte) (s : State) : Host.Outcome State Fault Refusal :=
  request .setLine setLineOwner p pl s

/-! ### LINE STATUS -/

/-- A level, or absent, in one byte (R188). -/
def encLevel? (o : Option Bool) : List Byte := encOpt (o.map fun b => if b then 1 else 0)

/-- A line in LINE STATUS: configuration, pin, the levels of its direction, the staged values; absent in the fields
that its direction or source does not have (R170; log 14). -/
def State.lineBytes (s : State) (l : Line) : List Byte :=
  l.configBytes ++ encFlag l.sensed ++
  (match l.work with
    | .input d c => encFlag d ++ encFlag c.isSome ++ encLevel? none ++ encLevel? none ++ encLevel? none
    | .output d h => encLevel? none ++ encLevel? none ++ encFlag (s.requested l) ++ encFlag d ++ encFlag h.isSome) ++
  (if l.source = .staged then encFlag l.applied ++ encLevel? l.pendingStaged
   else encLevel? none ++ encLevel? none)

/-- The payload of LINE STATUS (R170). -/
def State.linesBytes (s : State) : List Byte :=
  (s.lines.toList.flatMap fun l => s.lineBytes l) ++ encFlag s.encA ++ encFlag s.encB ++ enc1 s.encErrors ++
    enc1 (s.heads[(0 : Head)]).interlock.code ++ enc1 (s.heads[(1 : Head)]).interlock.code

/-- LINE_STATUS (R170). -/
def execLineStatus (p : Port) (pl : List Byte) (s : State) : Host.Outcome State Fault Refusal :=
  request .lineStatus (reading fun _ _ s => .accept s.linesBytes) p pl s

end Sys2Proof.Machine
end

