-- ==== Sys2Proof/Machine/Map.lean ====
section
/-!
DEFINITION. The Hide Map's requests: MAP READ and GRADE RUNS (R9 to R11).
-/

namespace Sys2Proof.Machine

open Sys2Proof

/-! ### MAP READ -/

/-- A cell as MAP READ gives it: effective grade, class set, occupant (R11). -/
def Cell.bytes (c : Cell) : List Byte := enc1 c.effective.val ++ [c.classes] ++ encSlot? c.occupant

/-- The payload of MAP READ: count cells of a row from a start column (R11). -/
def State.rowReadBytes (s : State) (k : Ctx) (y x count : Nat) : List Byte :=
  enc1 k.val ++ enc2 y ++ enc2 x ++ enc1 count ++ (List.range count).flatMap fun i => (s.cell k (x + i) y).bytes

/-- MAP READ's answer (R11). -/
def mapReadAnswer (_ : Port) (pl : List Byte) (s : State) : Answer :=
  match index? 2 (u8 pl 0) with
  | none => .refuse .range
  | some k =>
    let c := s.ctxs[k]
    let y := u16 pl 1
    let x := u16 pl 3
    let n := u8 pl 5
    if c.state = .empty then .refuse .state
    else if c.height ≤ y ∨ c.width ≤ x ∨ n = 0 ∨ 48 < n then .refuse .range
    else .accept (s.rowReadBytes k y x (min n (c.width - x)))

/-- MAP_READ (R11). -/
def execMapRead (p : Port) (pl : List Byte) (s : State) : Host.Outcome State Fault Refusal :=
  request .mapRead (reading mapReadAnswer) p pl s

/-! ### GRADE RUNS -/

/-- A run of equal grade (R9). -/
structure GradeRun where
  start  : Nat
  length : Nat
  grade  : Nat
  deriving DecidableEq, Repr

/-- The run at a place of the payload: start column, then length in the low 12 digits and grade in the high 4 of a
two-byte field (R187). -/
def runAt (pl : List Byte) (i : Nat) : GradeRun :=
  { start := u16 pl (3 + 4 * i), length := u16 pl (5 + 4 * i) % 4096, grade := u16 pl (5 + 4 * i) / 4096 }

/-- The runs of a payload, in order (R9). -/
def runsOf (pl : List Byte) : List GradeRun := (List.range ((pl.length - 3) / 4)).map (runAt pl)

/-- A run with length 0, a length above 768 or a grade above 7 is out of range (R9). -/
def GradeRun.bad (r : GradeRun) : Bool := r.length = 0 || decide (768 < r.length) || decide (7 < r.grade)

/-- The cells of row y a run writes on a map of W columns, clipped (R10). -/
def GradeRun.cells (r : GradeRun) (w y : Nat) : List (Nat × Nat) :=
  (List.range (min r.length (w - r.start))).map fun i => (r.start + i, y)

/-- Writes one run's base grade (R10). -/
def writeRun (w y : Nat) (p : Plane) (r : GradeRun) : Plane :=
  Plane.update p (r.cells w y) fun _ c => { c with base := Fin.ofNat 8 r.grade }

/-- Writes the runs in list order (R10). -/
def writeRuns (p : Plane) (w y : Nat) (runs : List GradeRun) : Plane := runs.foldl (writeRun w y) p

/-- The number of cells written, counting a cell once for each run that wrote it (R10). -/
def cellsWritten (w y : Nat) (runs : List GradeRun) : Nat := (runs.map fun r => (r.cells w y).length).foldl (· + ·) 0

/-- The event of an accepted GRADE RUNS: the row is written, the downgrade checks and the raise signal follow from the
row's cells before and after the whole event (R6 to R8, R10). -/
def State.gradeRow (s : State) (k : Ctx) (y : Nat) (runs : List GradeRun) : State :=
  let s := s.advanceScan
  let w := (s.ctxs[k]).width
  let row := (List.range w).map fun x => (x, y)
  let before := s.planes[k]
  let after := writeRuns before w y runs
  let e := (s.setPlane k after).begin.downgrade after (downgrades before after row) .gradeChange
  settle s (if someRaised before after row then e.on fun s => s.clearMarks k else e)

/-- GRADE RUNS' owner (R9). -/
def gradeRunsOwner : Owner := fun _ pl s =>
  match index? 2 (u8 pl 0) with
  | none => (s, .refuse .range)
  | some k =>
    let c := s.ctxs[k]
    if c.state = .empty || c.state = .closed then (s, .refuse .state)
    else if c.height ≤ u16 pl 1 then (s, .refuse .range)
    else if (runsOf pl).any GradeRun.bad then (s, .refuse .range)
    else (s.gradeRow k (u16 pl 1) (runsOf pl), .accept (enc2 (cellsWritten c.width (u16 pl 1) (runsOf pl))))

/-- GRADE_RUNS (R9). -/
def execGradeRuns (p : Port) (pl : List Byte) (s : State) : Host.Outcome State Fault Refusal :=
  request .gradeRuns gradeRunsOwner p pl s

end Sys2Proof.Machine
end

