-- ==== Sys2Proof/Machine/Notice.lean ====
section
/-!
DEFINITION. The notice requests and the holdoff expiry (R173, R175 to R177).
-/

namespace Sys2Proof.Machine

open Sys2Proof

/-- A set of flag numbers in two bytes (R188). -/
def encFlags (b : FlagSet) : List Byte := enc2 b.toNat

/-- The payload of NOTICE READ (R175). -/
def NoticeUnit.bytes (u : NoticeUnit) : List Byte :=
  encFlags u.pending ++ encFlags u.enabled ++ enc1 u.count ++ enc1 u.holdoff ++ enc1 u.threshold ++
    enc1 u.timer.code ++ encFlag u.attention

/-- NOTICE_READ (R175). -/
def execNoticeRead (p : Port) (pl : List Byte) (s : State) : Host.Outcome State Fault Refusal :=
  request .noticeRead (reading fun p _ s => .accept (s.notices[p]).bytes) p pl s

/-- NOTICE CLEAR's owner (R176). -/
def noticeClearOwner : Owner := fun p pl s =>
  let named := flagSet pl 0
  if named &&& ~~~(portFlags p) ≠ 0 then (s, .refuse .range)
  else
    let u := (s.notices[p]).clear named (s.levelFlags p)
    ((s.updNotice p fun _ => u).driveLines, .accept (encFlags u.pending ++ encFlag u.attention))

/-- NOTICE_CLEAR (R176). -/
def execNoticeClear (p : Port) (pl : List Byte) (s : State) : Host.Outcome State Fault Refusal :=
  request .noticeClear noticeClearOwner p pl s

/-- NOTICE SETUP's owner (R177). -/
def noticeSetupOwner : Owner := fun p pl s =>
  let enabled := flagSet pl 0
  if enabled &&& ~~~(portFlags p) ≠ 0 || decide (15 < u8 pl 3) then (s, .refuse .range)
  else
    let u := (s.notices[p]).setup p enabled (u8 pl 2) (u8 pl 3)
    ((s.updNotice p fun _ => u).driveLines,
      .accept (encFlags u.enabled ++ enc1 u.holdoff ++ enc1 u.threshold ++ encFlags u.pending ++ encFlag u.attention))

/-- NOTICE_SETUP (R177). -/
def execNoticeSetup (p : Port) (pl : List Byte) (s : State) : Host.Outcome State Fault Refusal :=
  request .noticeSetup noticeSetupOwner p pl s

/-- NOTICE_HOLDOFF_EXPIRY (R173); with no timer RUNNING the event cannot occur and changes nothing (log 2). -/
def execNoticeHoldoffExpiry (p : Port) (s : State) : Host.Outcome State Fault Refusal :=
  match (s.notices[p]).timer with
  | .running _ => .next (s.updNotice p fun u => u.expire p).driveLines
  | .idle => .next s
  | .expired => .next s

end Sys2Proof.Machine
end

