-- ==== Sys2Proof/Machine/Part.lean ====
section
/-!
DEFINITION. The part condition, the map test, PART STATUS and PART RESET (R12 to R16, R185, R186).
-/

namespace Sys2Proof.Machine

open Sys2Proof

/-! ### POWER_UP -/

/-- The part right after power-up; what the outside puts on its pins and encoder inputs, and the commands that wait,
are not the part's to reset (log 7). -/
def State.powerUp (s : State) : State :=
  { State.reset with
    pending := s.pending, lines := s.lines.map fun l => Line.powerUp l.pin, encA := s.encA, encB := s.encB }

/-- POWER_UP (R13). -/
def execPowerUp (s : State) : Host.Outcome State Fault Refusal := .next s.powerUp

/-! ### MAP_TEST_COMPLETION -/

/-- A field of w digits with 1 in its digits of even weight, or in its digits of odd weight (R14; the phases are a
DESIGN CHOICE, log 22). -/
def alternatingField (w : Nat) (odd : Bool) : BitVec w := BitVec.ofNat w (if odd then 0xAA else 0x155)

/-- The alternating pattern of a cell: neighbouring cells of a row or a column start on opposite phases (R14). -/
def alternatingCell (x y : Nat) : StoredCell :=
  let odd := decide ((x + y) % 2 = 1)
  { base := alternatingField 3 odd, cap := alternatingField 3 odd, classes := alternatingField 8 odd,
    occupant := alternatingField 9 odd }

/-- The complement of every field. -/
def invertedCell (c : StoredCell) : StoredCell :=
  { base := ~~~c.base, cap := ~~~c.cap, classes := ~~~c.classes, occupant := ~~~c.occupant }

/-- The address-derived pattern of a cell: plane, column and row added up, which differ within seven steps along a row or
a column even in three digits (R14; the sum is a DESIGN CHOICE, log 22). -/
def addressCell (k : Ctx) (x y : Nat) : StoredCell :=
  let n := k.val + x + y
  { base := BitVec.ofNat 3 n, cap := BitVec.ofNat 3 n, classes := BitVec.ofNat 8 n, occupant := BitVec.ofNat 9 n }

/-- What a pattern writes to a cell (R14). -/
def writtenCell (t : TestPattern) (k : Ctx) (x y : Nat) : StoredCell :=
  match t with
  | .alternating => alternatingCell x y
  | .invertedAlternating => invertedCell (alternatingCell x y)
  | .addressDerived => addressCell k x y
  | .allOnes => { base := BitVec.allOnes 3, cap := BitVec.allOnes 3, classes := BitVec.allOnes 8,
                  occupant := BitVec.allOnes 9 }

/-- A cell of the two planes: plane, column, row. -/
abbrev CellName := Ctx × Fin 768 × Fin 512

/-- The cell a read-back is of. -/
def cellOf (r : ReadBack) : CellName := (r.plane, r.column, r.row)

/-- Whether some field of a read-back differs from what was written (R14). -/
def differs (r : ReadBack) : Bool := r.cell ≠ writtenCell r.pattern r.plane r.column r.row

/-- A mismatched cell: one with some read-back that differs (R14). -/
def mismatched (rs : List ReadBack) (c : CellName) : Bool := rs.any fun r => cellOf r = c && differs r

/-- The mismatch count: each mismatched cell once, saturating at 65535 (R14). -/
def mismatchCount (rs : List ReadBack) : Nat :=
  min 65535 (((rs.filter differs).map cellOf).eraseDups).length

/-- The reply to MAP TEST, if the controller port owes it (R16). -/
def State.answerMapTest (s : State) (n : Nat) : State :=
  if (s.ports[(0 : Port)]).owed = some .mapTest then
    s.owe 0 (.reply { kind := Kind.mapTest.byte, refusal := none, payload := enc2 n })
  else s

/-- The condition a map test ends in (R15). -/
def conditionAfterTest (n : Nat) : Condition := if n = 0 then .ready else .failed

/-- The end of a map test with a mismatch count: the planes are reset, the count stored, the condition set, PART FAULT
raised if the count is above 0, and the MAP TEST reply decided (R13, R15, R16). -/
def State.endMapTest (s : State) (n : Nat) : State :=
  (settleNotices (({ s with planes := Vector.replicate 2 [], mismatches := n,
                            condition := conditionAfterTest n } : State).begin.raiseIf (decide (0 < n)) .partFault)).answerMapTest n

/-- MAP_TEST_COMPLETION (R15); with no test running the event cannot occur and changes nothing (log 2). -/
def execMapTestCompletion (readBacks : List ReadBack) (s : State) : Host.Outcome State Fault Refusal :=
  if s.condition = .starting || s.condition = .testing then .next (s.endMapTest (mismatchCount readBacks)) else .next s

/-! ### MAP TEST -/

/-- MAP TEST's owner (R16). -/
def mapTestOwner : Owner := fun _ _ s =>
  if (s.ctxs[(0 : Ctx)]).state = .empty && (s.ctxs[(1 : Ctx)]).state = .empty then
    (settleNotices ({ s with condition := .testing } : State).begin, .later)
  else (s, .refuse .state)

/-- MAP_TEST (R16). -/
def execMapTest (p : Port) (pl : List Byte) (s : State) : Host.Outcome State Fault Refusal :=
  request .mapTest mapTestOwner p pl s

/-! ### PART STATUS -/

/-- Two places of a held list, front first, each a slot and its placement state, with none in places not filled
(R185, R188). -/
def State.heldWithStates (s : State) (h : Head) : List Byte :=
  [0, 1].flatMap fun (i : Nat) =>
    match ((s.heads[h]).held)[i]? with
    | none => encSlot? none ++ encOpt none
    | some x => encSlot? (some x.slot) ++ enc1 (((s.slots[x.slot]).map fun p => p.state.code).getD 0)

/-- The search group: state, then tag, context and retry count, absent while IDLE (R185; log 10). -/
def SearchState.bytes (u : SearchState) : List Byte :=
  enc1 u.code ++
  match u with
  | .idle => encOpt none ++ encOpt none ++ encOpt none
  | .searching q => enc1 q.pair.tag.val ++ enc1 q.pair.ctx.val ++ enc1 q.retry
  | .stalled q => enc1 q.tag.val ++ enc1 q.ctx.val ++ enc1 0

/-- A context's group (R185). -/
def State.ctxBytes (s : State) (k : Ctx) : List Byte :=
  let c := s.ctxs[k]
  enc1 c.state.code ++ encFlag c.aborted ++ enc1 (drainCode c.drainCause) ++ enc1 (rankCode c.rank) ++
    encFlag c.registered ++ enc2 c.frontier ++ enc2 (s.travel k) ++ enc2 (s.floor k)

/-- A head's group (R185). -/
def State.headBytes (s : State) (h : Head) : List Byte :=
  enc1 (s.heads[h]).state.code ++ s.heldWithStates h ++ enc1 (s.heads[h]).interlock.code ++ encFlag (s.workAvailable h)

/-- The groups of PART STATUS after the first: search, contexts, gate, heads, encoder error count (R185). -/
def State.workBytes (s : State) : List Byte :=
  s.searchUnit.bytes ++ s.ctxBytes 0 ++ s.ctxBytes 1 ++ encFlag s.gate.holding ++ encFlag s.gate.armed ++
    s.headBytes 0 ++ s.headBytes 1 ++ enc1 s.encErrors

/-- The payload of PART STATUS; in STARTING every group but the first shows power-up values (R185). -/
def State.statusBytes (s : State) : List Byte :=
  enc1 s.condition.code ++ enc2 s.mismatches ++
    (if s.condition = .starting then State.reset.workBytes else s.workBytes)

/-- PART_STATUS (R185). -/
def execPartStatus (p : Port) (pl : List Byte) (s : State) : Host.Outcome State Fault Refusal :=
  request .partStatus (reading fun _ _ s => .accept s.statusBytes) p pl s

/-! ### PART RESET -/

/-- A pattern record at PART RESET: a LOADING one becomes EMPTY, the others lose every reference (R56). -/
def Pattern.partReset (p : Pattern) : Pattern := if p.state = .loading then Pattern.reset else { p with refs := 0 }

/-- The store cells LOADING records hold. -/
def loadingCells (ps : List Pattern) : Nat :=
  ps.foldl (fun n p => n + if p.state = .loading then p.reserved else 0) 0

/-- The blocks' states after PART RESET, notices and lines aside (R5, R17, R40, R56, R70, R72, R115, R120, R134, R136,
R142, R160, R169, R186): working state at its reset values, the settings kept. -/
def State.resetBlocks (s : State) : State :=
  { State.reset with
    pending := s.pending, condition := s.condition, mismatches := s.mismatches,
    rules := s.rules, ranges := s.ranges, classDefaults := s.classDefaults, links := s.links,
    patterns := s.patterns.map Pattern.partReset, freeCells := s.freeCells + loadingCells s.patterns.toList,
    weights := s.weights, conveyor := s.conveyor, gate := s.gate.disarm,
    heads := s.heads.map fun c => { HeadChannel.reset with interlock := c.interlock },
    lines := s.lines.map fun l => { l with pendingStaged := none }, encA := s.encA, encB := s.encB,
    notices := s.notices, ports := s.ports, freeIndex := s.freeIndex }

/-- The part after PART RESET (R178, R186). -/
def State.partReset (s : State) : State :=
  let t := s.resetBlocks
  ({ t with notices := Vector.ofFn fun p => (s.notices[p]).partReset p (t.levelFlags p) } : State).driveLines

/-- PART RESET's owner (R186). -/
def partResetOwner : Owner := fun _ _ s => (s.partReset, .accept [])

/-- PART_RESET (R186). -/
def execPartReset (p : Port) (pl : List Byte) (s : State) : Host.Outcome State Fault Refusal :=
  request .partReset partResetOwner p pl s

end Sys2Proof.Machine
end

