-- ==== Sys2Proof/Machine/Rules.lean ====
section
/-!
DEFINITION. Writing and reading the Flaw Classifier (R35 to R38). None of these requests changes a map, a search or a
notice, so none has a tail.
-/

namespace Sys2Proof.Machine

open Sys2Proof

/-! ### RULE WRITE -/

/-- A value and a mask of w digits from two bytes, if no digit is set beyond the width (R35). -/
def keyTest? (w : Nat) (pl : List Byte) (i : Nat) : Option (KeyTest w) :=
  if u8 pl i < 2 ^ w ∧ u8 pl (i + 1) < 2 ^ w then
    some { value := BitVec.ofNat w (u8 pl i), mask := BitVec.ofNat w (u8 pl (i + 1)) }
  else none

/-- An action part below a bound, 255 for absent (R35). -/
def part? (n b : Nat) : Option (Option (Fin n)) := if b = 255 then some none else (index? n b).map some

/-- A flag byte: 0 or 1 (R35). -/
def flag? (b : Nat) : Option Bool :=
  match b with
  | 0 => some false | 1 => some true | _ => none

/-- A pass code (R35). -/
def pass? (b : Nat) : Option Pass :=
  match b with
  | 0 => some .first | 1 => some .second | _ => none

/-- The action of a RULE WRITE payload, its five parts in the order of R32. -/
def action? (pl : List Byte) : Option Action := do
  let cls ← part? 8 (u8 pl 17)
  let margin ← part? 8 (u8 pl 18)
  let cap ← part? 8 (u8 pl 19)
  let next ← part? 128 (u8 pl 20)
  let ignore ← flag? (u8 pl 21)
  pure { cls := cls, margin := margin, cap := cap, next := next, ignore := ignore }

/-- The entry of a RULE WRITE payload, if every value is in range; each field's value, then its mask (R35; log 12). -/
def ruleEntry? (pl : List Byte) : Option RuleEntry := do
  let valid ← flag? (u8 pl 1)
  let pass ← pass? (u8 pl 2)
  let link ← keyTest? 7 pl 3
  let category ← keyTest? 4 pl 5
  let ladder ← keyTest? 7 pl 7
  let source ← keyTest? 1 pl 9
  let shape ← keyTest? 2 pl 11
  let anchor ← keyTest? 3 pl 13
  let ranges ← keyTest? 8 pl 15
  let action ← action? pl
  pure { valid := valid, pass := pass, link := link, category := category, ladder := ladder, source := source,
         shape := shape, anchor := anchor, ranges := ranges, action := action }

/-- RULE WRITE's owner (R35). -/
def ruleWriteOwner : Owner := fun _ pl s =>
  match index? 128 (u8 pl 0), ruleEntry? pl with
  | some i, some r => ({ s with rules := s.rules.set i r }, .accept [])
  | _, _ => (s, .refuse .range)

/-- RULE_WRITE (R35). -/
def execRuleWrite (p : Port) (pl : List Byte) (s : State) : Host.Outcome State Fault Refusal :=
  request .ruleWrite ruleWriteOwner p pl s

/-! ### RANGE WRITE -/

/-- RANGE WRITE's owner (R36). -/
def rangeWriteOwner : Owner := fun _ pl s =>
  match index? 8 (u8 pl 0), quantity? (u8 pl 1) with
  | some i, some q =>
    ({ s with ranges := s.ranges.set i { quantity := q, low := u16 pl 2, high := u16 pl 4 } }, .accept [])
  | _, _ => (s, .refuse .range)

/-- RANGE_WRITE (R36). -/
def execRangeWrite (p : Port) (pl : List Byte) (s : State) : Host.Outcome State Fault Refusal :=
  request .rangeWrite rangeWriteOwner p pl s

/-! ### CLASS DEFAULTS -/

/-- The class defaults of a payload, if in range (R37). -/
def classDefaults? (pl : List Byte) : Option ClassDefaults := do
  let cls ← index? 8 (u8 pl 0)
  let margin ← index? 8 (u8 pl 1)
  let cap ← part? 8 (u8 pl 2)
  pure { cls := cls, margin := margin, cap := cap }

/-- Whether every article link of a payload is in range (R37). -/
def linksOk (pl : List Byte) : Bool := (List.range 16).all fun i => decide (u8 pl (3 + i) < 128)

/-- The article links of a payload, in article order (R37). -/
def linksOf (pl : List Byte) : Vector (Fin 128) 16 := Vector.ofFn fun i => Fin.ofNat 128 (u8 pl (3 + i.val))

/-- CLASS DEFAULTS' owner (R37). -/
def classDefaultsOwner : Owner := fun _ pl s =>
  match classDefaults? pl with
  | none => (s, .refuse .range)
  | some d =>
    if linksOk pl then ({ s with classDefaults := d, links := linksOf pl }, .accept []) else (s, .refuse .range)

/-- CLASS_DEFAULTS (R37). -/
def execClassDefaults (p : Port) (pl : List Byte) (s : State) : Host.Outcome State Fault Refusal :=
  request .classDefaults classDefaultsOwner p pl s

/-! ### RULE READ -/

/-- The key tests of an entry as (value, mask) numbers, in field order (R30). -/
def RuleEntry.tests (r : RuleEntry) : List (Nat × Nat) :=
  [(r.link.value.toNat, r.link.mask.toNat), (r.category.value.toNat, r.category.mask.toNat),
   (r.ladder.value.toNat, r.ladder.mask.toNat), (r.source.value.toNat, r.source.mask.toNat),
   (r.shape.value.toNat, r.shape.mask.toNat), (r.anchor.value.toNat, r.anchor.mask.toNat),
   (r.ranges.value.toNat, r.ranges.mask.toNat)]

/-- An action in a reply: an absent part is 255, ignore is 0 or 1 (R35). -/
def Action.bytes (a : Action) : List Byte :=
  encOpt (a.cls.map fun g => g.val) ++ encOpt (a.margin.map fun g => g.val) ++ encOpt (a.cap.map fun g => g.val) ++
    encOpt (a.next.map fun g => g.val) ++ encFlag a.ignore

/-- A rule entry in a reply: valid flag, pass, values, masks and action parts (R38; log 12). -/
def RuleEntry.bytes (r : RuleEntry) : List Byte :=
  encFlag r.valid ++ enc1 r.pass.code ++ (r.tests.flatMap fun t => enc1 t.1) ++ (r.tests.flatMap fun t => enc1 t.2) ++
    r.action.bytes

/-- The checkers, the class defaults and the article links in a reply (R38). -/
def State.tableBytes (s : State) : List Byte :=
  (s.ranges.toList.flatMap fun c => enc1 c.quantity.code ++ enc2 c.low ++ enc2 c.high) ++
    enc1 s.classDefaults.cls.val ++ enc1 s.classDefaults.margin.val ++
    encOpt (s.classDefaults.cap.map fun g => g.val) ++ s.links.toList.flatMap fun l => enc1 l.val

/-- RULE READ's answer, in either form (R38). -/
def ruleReadAnswer (_ : Port) (pl : List Byte) (s : State) : Answer :=
  match index? 128 (u8 pl 0) with
  | some i => .accept (s.rules[i]).bytes
  | none => if u8 pl 0 = 128 then .accept s.tableBytes else .refuse .range

/-- RULE_READ_ENTRY (R38). -/
def execRuleReadEntry (p : Port) (pl : List Byte) (s : State) : Host.Outcome State Fault Refusal :=
  request .ruleRead (reading ruleReadAnswer) p pl s

/-- RULE_READ_TABLES (R38). -/
def execRuleReadTables (p : Port) (pl : List Byte) (s : State) : Host.Outcome State Fault Refusal :=
  request .ruleRead (reading ruleReadAnswer) p pl s

end Sys2Proof.Machine
end

