-- ==== Sys2Proof/Machine/Search.lean ====
section
/-!
DEFINITION. The weights and the completion of a search (R83 to R88, R97, R114).
-/

namespace Sys2Proof.Machine

open Sys2Proof

/-! ### SET WEIGHTS -/

/-- SET WEIGHTS' owner (R97). -/
def setWeightsOwner : Owner := fun _ pl s =>
  ({ s with weights := { lead := u8 pl 0, premium := u8 pl 1, contact := u8 pl 2 } },
    .accept (enc1 (u8 pl 0) ++ enc1 (u8 pl 1) ++ enc1 (u8 pl 2) ++ enc1 s.searchUnit.code))

/-- SET_WEIGHTS (R97). -/
def execSetWeights (p : Port) (pl : List Byte) (s : State) : Host.Outcome State Fault Refusal :=
  request .setWeights setWeightsOwner p pl s

/-! ### SEARCH_COMPLETION -/

/-- Whether an entry is OPEN with need above 0 (R84). -/
def State.wants (s : State) (t : Tag) : Bool := (s.entry? t).any fun x => x.eligible

/-- Re-verification of the best candidate against the state as it stands (R84). -/
def State.reverifies (s : State) (q : Search) (c : Candidate) : Bool :=
  let k := q.pair.ctx
  (s.ctxs[k]).state = .opened && s.wants q.pair.tag && decide (s.floor k ≤ c.x) &&
    decide (c.x + (q.samples.drawing.orientedSize c.orient).1 ≤ (s.ctxs[k]).frontier) &&
    cellTest (s.hideMap k) q.samples.drawing c

/-- Slot allocation: the lowest FREE slot, else the WITHDRAWN slot withdrawn longest ago (R86). -/
def State.allocate (s : State) : Option SlotNo :=
  match (indexed s.slots).find? fun x => x.2.isNone with
  | some x => some x.1
  | none => s.withdrawn.head?

/-- The record a commit writes (R87). -/
def State.commitRecord (s : State) (q : Search) (b : Best) : Placement :=
  { state := .placed, ctx := q.pair.ctx, tag := q.pair.tag, pattern := q.samples.pattern, orient := b.cand.orient,
    xlo := b.cand.x, ylo := b.cand.y, wo := (q.samples.drawing.orientedSize b.cand.orient).1,
    ho := (q.samples.drawing.orientedSize b.cand.orient).2, covered := q.samples.drawing.covered, score := b.score,
    commitNo := (s.ctxs[q.pair.ctx]).commits, head := none, tainted := false, cause := none }

/-- The hide cells under the covered cells of a candidate (R45). -/
def hideCells (p : Pattern) (c : Candidate) : List (Nat × Nat) :=
  (p.coveredCells c.orient).map fun ijr => (c.x + ijr.1, c.y + ijr.2.1)

/-- The slot's number is written as occupant into every covered cell (R4, R87). -/
def occupy (plane : Plane) (p : Pattern) (c : Candidate) (n : SlotNo) : Plane :=
  Plane.update plane (hideCells p c) fun _ cell => { cell with occupant := some n }

/-- A commit into a slot, which frees a WITHDRAWN slot's old record first (R87, R114). -/
def Event.commit (e : Event) (n : SlotNo) (q : Search) (b : Best) : Event :=
  let e := e.free n
  let k := q.pair.ctx
  let s := e.state.setSlot n (some (e.state.commitRecord q b))
  let s := s.setPlane k (occupy s.planes[k] q.samples.drawing b.cand n)
  let s := s.updEntry q.pair.tag fun x => { x with live := x.live + 1, holders := x.holders + 1 }
  let s := (s.addRef q.samples.pattern).updCtx k fun c => { c with commits := c.commits + 1 }
  ({ e with state := { s with searchUnit := .idle } } : Event).raise .committed

/-- No slot is available: the unit is STALLED on its pair (R88). -/
def Event.stall (e : Event) (q : Pair) : Event := (e.on fun s => { s with searchUnit := .stalled q }).raise .searchStalled

/-- The pair is marked no-fit and the unit is free to select (R83, R85, R90). -/
def State.giveUpPair (s : State) (q : Pair) : State := (s.mark q.tag q.ctx).abandonSearch

/-- A failed re-verification: the search restarts, or after the third failure the pair is marked (R85). -/
def Event.failVerify (e : Event) (q : Search) : Event :=
  if q.retry + 1 < 3 then e.startPair q.pair (q.retry + 1) else e.on fun s => s.giveUpPair q.pair

/-- The outcome of a completion with the best candidate of the scan (R83). -/
def Event.finish (e : Event) (q : Search) (best : Option Best) : Event :=
  match best with
  | none => e.on fun s => s.giveUpPair q.pair
  | some b =>
    if e.state.reverifies q b.cand then
      match e.state.allocate with
      | some n => e.commit n q b
      | none => e.stall q.pair
    else e.failVerify q

/-- The event of a search completion, which re-arms the gate (R83, R139). -/
def State.completeSearch (s : State) (q : Search) : State :=
  let e := s.begin.finish q (s.finalBest q)
  settle s { e with sig := { e.sig with completion := true } }

/-- SEARCH_COMPLETION (R83); with no search in flight the event cannot occur and changes nothing (log 2). -/
def execSearchCompletion (s : State) : Host.Outcome State Fault Refusal :=
  match s.searchUnit with
  | .searching q => .next (s.completeSearch q)
  | .idle => .next s
  | .stalled _ => .next s

end Sys2Proof.Machine
end

