-- ==== Sys2Proof/Machine/Link.lean ====
section
/-!
DEFINITION. The Link Ports' own events: frames refused or discarded, the receiver byte by byte, and replies that have
been sent (R180 to R184).
-/

namespace Sys2Proof.Machine

open Sys2Proof

/-! ### Complete frames -/

/-- A complete frame of a known kind with a good CHECK byte. -/
def takeFrame (k : Kind) (p : Port) (pl : List Byte) (s : State) : Host.Outcome State Fault Refusal :=
  match k with
  | .partStatus => execPartStatus p pl s
  | .noticeRead => execNoticeRead p pl s
  | .noticeClear => execNoticeClear p pl s
  | .noticeSetup => execNoticeSetup p pl s
  | .mapRead => execMapRead p pl s
  | .placementRead => execPlacementRead p pl s
  | .hideReport => execHideReport p pl s
  | .lineStatus => execLineStatus p pl s
  | .partReset => execPartReset p pl s
  | .mapTest => execMapTest p pl s
  | .setWeights => execSetWeights p pl s
  | .setConveyor => execSetConveyor p pl s
  | .setGate => execSetGate p pl s
  | .gateRelease => execGateRelease p pl s
  | .setLine => execSetLine p pl s
  | .libraryBegin => execLibraryBegin p pl s
  | .libraryRows => execLibraryRows p pl s
  | .libraryEnd => execLibraryEnd p pl s
  | .libraryDrop => execLibraryDrop p pl s
  | .libraryRead => execLibraryReadRecord p pl s
  | .ruleWrite => execRuleWrite p pl s
  | .ruleRead => execRuleReadEntry p pl s
  | .rangeWrite => execRangeWrite p pl s
  | .classDefaults => execClassDefaults p pl s
  | .demandPost => execDemandPost p pl s
  | .demandCancel => execDemandCancel p pl s
  | .demandRead => execDemandReadEntry p pl s
  | .hideDrain => execHideDrain p pl s
  | .hideAbort => execHideAbort p pl s
  | .hideRelease => execHideRelease p pl s
  | .placementWithdraw => execPlacementWithdraw p pl s
  | .hideOpen => execHideOpen p pl s
  | .gradeRuns => execGradeRuns p pl s
  | .flawAdd => execFlawAdd p pl s
  | .flawWithdraw => execFlawWithdraw p pl s
  | .flawRead => execFlawRead p pl s
  | .markFrontier => execMarkFrontier p pl s
  | .headOnline => execHeadOnline p pl s
  | .headOffline => execHeadOffline p pl s
  | .claim => execClaim p pl s
  | .startCut => execStartCut p pl s
  | .cutDone => execCutDone p pl s
  | .cutFailed => execCutFailed p pl s
  | .returnClaim => execReturnClaim p pl s

/-- A refusal decided by a port itself, its KIND echoed as received (R181, R183). -/
def State.refuseFrame (s : State) (p : Port) (kind : Byte) (c : Code) : State :=
  (s.hunt p).owe p (.reply { kind := kind, refusal := some c, payload := [] })

/-- A complete frame with a good CHECK byte, by its KIND byte (R182, R184). -/
def goodFrame (p : Port) (kind : Byte) (pl : List Byte) (s : State) : Host.Outcome State Fault Refusal :=
  if (s.ports[p]).owed.isSome then .next (s.hunt p)
  else
    match kindOf kind with
    | none => .next (s.refuseFrame p kind .unknown)
    | some k => takeFrame k p pl s

/-- A complete frame handed to a port: discarded while a reply is owed, else refused CHECK if its sum is not 0, else
judged by its kind (R181, R182, R184). -/
def completeFrame (p : Port) (kind : Byte) (pl : List Byte) (check : Byte) (s : State) :
    Host.Outcome State Fault Refusal :=
  if (s.ports[p]).owed.isSome then .next (s.hunt p)
  else if sumOk kind pl check then goodFrame p kind pl s
  else .next (s.refuseFrame p kind .check)

/-- UNKNOWN_KIND: a frame with a good CHECK byte, judged by its KIND byte (R184). -/
def execUnknownKind (p : Port) (kind : Byte) (pl : List Byte) (s : State) : Host.Outcome State Fault Refusal :=
  goodFrame p kind pl s

/-- CHECK_REFUSED: a complete frame, judged by its sum (R181). -/
def execCheckRefused (p : Port) (kind : Byte) (pl : List Byte) (check : Byte) (s : State) :
    Host.Outcome State Fault Refusal :=
  completeFrame p kind pl check s

/-- FRAME_DISCARDED_OWED: a complete frame at a port that owes a reply (R182). -/
def execFrameDiscardedOwed (p : Port) (kind : Byte) (pl : List Byte) (check : Byte) (s : State) :
    Host.Outcome State Fault Refusal :=
  completeFrame p kind pl check s

/-! ### Partial frames -/

/-- FRAME_GAP_TIMEOUT: the partial frame is discarded and the receiver hunts (R180). -/
def execFrameGapTimeout (p : Port) (s : State) : Host.Outcome State Fault Refusal := .next (s.hunt p)

/-- LINE_ERROR_DISCARD: a byte with a missing stop bit is discarded, and a frame it fell within too (R180). -/
def execLineErrorDiscard (p : Port) (s : State) : Host.Outcome State Fault Refusal := .next (s.hunt p)

/-- LENGTH_OVERFLOW_DISCARD: a LENGTH above 240 ends the frame at once; a LENGTH that is not is not this event and
changes nothing (R180; log 2). -/
def execLengthOverflowDiscard (p : Port) (length : Byte) (s : State) : Host.Outcome State Fault Refusal :=
  if Config.maxPayload < length.toNat then .next (s.hunt p) else .next s

/-! ### Replies -/

/-- What a port owes once the last byte of its reply has been sent: a reply not yet decided cannot have been sent
(R182). -/
def LinkPort.sent (l : LinkPort) : LinkPort :=
  match l.owed with
  | some (.reply _) => { l with owed := none }
  | some .mapTest => l
  | none => l

/-- REPLY_SENT (R182); with no decided reply owed the event cannot occur and changes nothing (log 2). -/
def execReplySent (p : Port) (s : State) : Host.Outcome State Fault Refusal := .next (s.updPort p LinkPort.sent)

/-! ### FRAME_BYTE_RECEIVED -/

/-- The receiver of a port takes a value, and its gap timer starts again (R180). -/
def State.receive (s : State) (p : Port) (r : Receiver) : State := s.updPort p fun l => { l with receiver := r, gap := 0 }

/-- FRAME_BYTE_RECEIVED: the receiver hunts for SYNC, or takes KIND, LENGTH, the payload and CHECK (R180). -/
def execFrameByteReceived (p : Port) (b : Byte) (s : State) : Host.Outcome State Fault Refusal :=
  match (s.ports[p]).receiver with
  | .hunting => if b = 0xA5 then .next (s.receive p .kind) else .next s
  | .kind => .next (s.receive p (.length b))
  | .length k => if Config.maxPayload < b.toNat then .next (s.hunt p) else .next (s.receive p (.payload k b []))
  | .payload k n got =>
    if got.length < n.toNat then .next (s.receive p (.payload k n (got ++ [b]))) else completeFrame p k got b s

end Sys2Proof.Machine
end

