-- ==== Sys2Proof/Machine/Dispatch.lean ====
section
/-!
DEFINITION. The dispatch: one meaning for each command.
-/

namespace Sys2Proof.Machine

open Sys2Proof

def exec (i : Instr) (s : State) : Host.Outcome State Fault Refusal :=
  match i with
  | .powerUp => Sys2Proof.Machine.execPowerUp s
  | .mapTestCompletion rs => Sys2Proof.Machine.execMapTestCompletion rs s
  | .partStatus p pl => Sys2Proof.Machine.execPartStatus p pl s
  | .partReset p pl => Sys2Proof.Machine.execPartReset p pl s
  | .mapTest p pl => Sys2Proof.Machine.execMapTest p pl s
  | .noticeRead p pl => Sys2Proof.Machine.execNoticeRead p pl s
  | .noticeClear p pl => Sys2Proof.Machine.execNoticeClear p pl s
  | .noticeSetup p pl => Sys2Proof.Machine.execNoticeSetup p pl s
  | .noticeHoldoffExpiry p => Sys2Proof.Machine.execNoticeHoldoffExpiry p s
  | .mapRead p pl => Sys2Proof.Machine.execMapRead p pl s
  | .gradeRuns p pl => Sys2Proof.Machine.execGradeRuns p pl s
  | .flawAdd p pl => Sys2Proof.Machine.execFlawAdd p pl s
  | .applyJobCompletion => Sys2Proof.Machine.execApplyJobCompletion s
  | .flawWithdraw p pl => Sys2Proof.Machine.execFlawWithdraw p pl s
  | .withdrawJobCompletion => Sys2Proof.Machine.execWithdrawJobCompletion s
  | .flawRead p pl => Sys2Proof.Machine.execFlawRead p pl s
  | .ruleWrite p pl => Sys2Proof.Machine.execRuleWrite p pl s
  | .rangeWrite p pl => Sys2Proof.Machine.execRangeWrite p pl s
  | .classDefaults p pl => Sys2Proof.Machine.execClassDefaults p pl s
  | .ruleReadEntry p pl => Sys2Proof.Machine.execRuleReadEntry p pl s
  | .ruleReadTables p pl => Sys2Proof.Machine.execRuleReadTables p pl s
  | .libraryBegin p pl => Sys2Proof.Machine.execLibraryBegin p pl s
  | .libraryRows p pl => Sys2Proof.Machine.execLibraryRows p pl s
  | .libraryEnd p pl => Sys2Proof.Machine.execLibraryEnd p pl s
  | .libraryDrop p pl => Sys2Proof.Machine.execLibraryDrop p pl s
  | .libraryReadRecord p pl => Sys2Proof.Machine.execLibraryReadRecord p pl s
  | .libraryReadMask p pl => Sys2Proof.Machine.execLibraryReadMask p pl s
  | .demandPost p pl => Sys2Proof.Machine.execDemandPost p pl s
  | .demandCancel p pl => Sys2Proof.Machine.execDemandCancel p pl s
  | .demandReadEntry p pl => Sys2Proof.Machine.execDemandReadEntry p pl s
  | .demandReadList p pl => Sys2Proof.Machine.execDemandReadList p pl s
  | .setWeights p pl => Sys2Proof.Machine.execSetWeights p pl s
  | .searchCompletion => Sys2Proof.Machine.execSearchCompletion s
  | .placementRead p pl => Sys2Proof.Machine.execPlacementRead p pl s
  | .hideReport p pl => Sys2Proof.Machine.execHideReport p pl s
  | .placementWithdraw p pl => Sys2Proof.Machine.execPlacementWithdraw p pl s
  | .hideOpen p pl => Sys2Proof.Machine.execHideOpen p pl s
  | .markFrontier p pl => Sys2Proof.Machine.execMarkFrontier p pl s
  | .hideDrain p pl => Sys2Proof.Machine.execHideDrain p pl s
  | .hideAbort p pl => Sys2Proof.Machine.execHideAbort p pl s
  | .hideRelease p pl => Sys2Proof.Machine.execHideRelease p pl s
  | .setConveyor p pl => Sys2Proof.Machine.execSetConveyor p pl s
  | .encoderTransition a b => Sys2Proof.Machine.execEncoderTransition a b s
  | .setGate p pl => Sys2Proof.Machine.execSetGate p pl s
  | .gateRelease p pl => Sys2Proof.Machine.execGateRelease p pl s
  | .gateHoldLimitExpiry => Sys2Proof.Machine.execGateHoldLimitExpiry s
  | .headOnline p pl => Sys2Proof.Machine.execHeadOnline p pl s
  | .headOffline p pl => Sys2Proof.Machine.execHeadOffline p pl s
  | .claim p pl => Sys2Proof.Machine.execClaim p pl s
  | .startCut p pl => Sys2Proof.Machine.execStartCut p pl s
  | .cutDone p pl => Sys2Proof.Machine.execCutDone p pl s
  | .cutFailed p pl => Sys2Proof.Machine.execCutFailed p pl s
  | .returnClaim p pl => Sys2Proof.Machine.execReturnClaim p pl s
  | .claimTimerExpiry h => Sys2Proof.Machine.execClaimTimerExpiry h s
  | .setLine p pl => Sys2Proof.Machine.execSetLine p pl s
  | .lineStatus p pl => Sys2Proof.Machine.execLineStatus p pl s
  | .linePinChange l v => Sys2Proof.Machine.execLinePinChange l v s
  | .debounceExpiry l => Sys2Proof.Machine.execDebounceExpiry l s
  | .outputHoldEnd l => Sys2Proof.Machine.execOutputHoldEnd l s
  | .unknownKind p k pl => Sys2Proof.Machine.execUnknownKind p k pl s
  | .checkRefused p k pl c => Sys2Proof.Machine.execCheckRefused p k pl c s
  | .frameDiscardedOwed p k pl c => Sys2Proof.Machine.execFrameDiscardedOwed p k pl c s
  | .frameGapTimeout p => Sys2Proof.Machine.execFrameGapTimeout p s
  | .lengthOverflowDiscard p n => Sys2Proof.Machine.execLengthOverflowDiscard p n s
  | .replySent p => Sys2Proof.Machine.execReplySent p s
  | .lineErrorDiscard p => Sys2Proof.Machine.execLineErrorDiscard p s
  | .frameByteReceived p b => Sys2Proof.Machine.execFrameByteReceived p b s

end Sys2Proof.Machine
end

