-- ==== Sys2Proof/Machine/Timers.lean ====
section
/-!
DEFINITION. The part's timers, in steps of 100 µs: which has reached its limit, and how they advance (R136, R157, R161,
R165, R173, R180; log 4).
-/

namespace Sys2Proof.Machine

open Sys2Proof

/-! ### Timers that have reached their limits -/

/-- A running holdoff timer has reached H × 10 ms (R173). -/
def NoticeUnit.ripe (u : NoticeUnit) : Bool :=
  match u.timer with
  | .running e => decide (u.holdoff * 100 ≤ e)
  | .idle => false
  | .expired => false

/-- The hold timer of the gate has reached the limit the hold began with (R139). -/
def Gate.ripe (g : Gate) : Bool := g.timer.any fun t => decide (t.limit * 1000 ≤ t.elapsed)

/-- A claim timer has reached the claim limit (R157). -/
def HeadChannel.ripe (c : HeadChannel) (limit : Nat) : Bool := c.timer.any fun e => decide (limit * 1000 ≤ e)

/-- A candidate's stability timer has reached the debounce time (R161). -/
def Line.candidateRipe (l : Line) : Bool :=
  match l.work with
  | .input _ c => c.any fun c => decide (l.debounce ≤ c.elapsed)
  | .output _ _ => false

/-- A minimum pulse hold has reached the width it began with (R165). -/
def Line.holdRipe (l : Line) : Bool :=
  match l.work with
  | .input _ _ => false
  | .output _ h => h.any fun h => decide (h.width * 10 ≤ h.elapsed)

/-- Whether a receiver assembles a frame. -/
def Receiver.assembling : Receiver → Bool
  | .hunting => false
  | .kind => true
  | .length _ => true
  | .payload _ _ _ => true

/-- More than 20 ms have passed since the last byte of a frame being assembled (R180). -/
def LinkPort.gapRipe (l : LinkPort) : Bool := l.receiver.assembling && decide (200 < l.gap)

/-- The expiries of the timers that have reached their limits, in a fixed order (log 4). -/
def State.expiries (s : State) : List Instr :=
  ((indexed s.notices).filterMap fun u => if u.2.ripe then some (.noticeHoldoffExpiry u.1) else none) ++
    (if s.gate.ripe then [.gateHoldLimitExpiry] else []) ++
    ((indexed s.heads).filterMap fun c => if c.2.ripe s.conveyor.claimLimit then some (.claimTimerExpiry c.1) else none) ++
    ((indexed s.lines).filterMap fun l => if l.2.candidateRipe then some (.debounceExpiry l.1) else none) ++
    ((indexed s.lines).filterMap fun l => if l.2.holdRipe then some (.outputHoldEnd l.1) else none) ++
    ((indexed s.ports).filterMap fun l => if l.2.gapRipe then some (.frameGapTimeout l.1) else none)

/-- The expiry that is due, if any. -/
def State.due (s : State) : Option Instr := s.expiries.head?

/-! ### The passing of 100 µs -/

/-- A holdoff timer after 100 µs. -/
def HoldoffTimer.advance (t : HoldoffTimer) : HoldoffTimer :=
  match t with
  | .idle => .idle
  | .running e => .running (e + 1)
  | .expired => .expired

/-- A line's timers after 100 µs. -/
def LineWork.advance (w : LineWork) : LineWork :=
  match w with
  | .input d c => .input d (c.map fun c => { c with elapsed := c.elapsed + 1 })
  | .output d h => .output d (h.map fun h => { h with elapsed := h.elapsed + 1 })

/-- A port's gap timer after 100 µs; it runs while a frame is being assembled. -/
def LinkPort.advance (l : LinkPort) : LinkPort := if l.receiver.assembling then { l with gap := l.gap + 1 } else l

/-- 100 µs pass: every running timer advances by one step. -/
def State.advance (s : State) : State :=
  { s with
    notices := s.notices.map fun u => { u with timer := u.timer.advance },
    gate := { s.gate with timer := s.gate.timer.map fun t => { t with elapsed := t.elapsed + 1 } },
    heads := s.heads.map fun c => { c with timer := c.timer.map fun e => e + 1 },
    lines := s.lines.map fun l => { l with work := l.work.advance },
    ports := s.ports.map LinkPort.advance }

end Sys2Proof.Machine
end

