-- ==== Sys2Proof/Machine/Step.lean ====
section
/-!
DEFINITION. One step of the block: the command at the front of the queue, or, on an empty queue, the passing of time
(log 4). Also how the host puts a command in front.
-/

namespace Sys2Proof.Machine

open Sys2Proof

/-- A step on an empty queue: a timer that has reached its limit puts its expiry into the queue, and while none has,
100 µs pass (log 4). -/
def State.idle (s : State) : State :=
  match s.due with
  | some c => { s with pending := [c] }
  | none => s.advance

/-- One step. -/
def step (s : State) : Host.Outcome State Fault Refusal :=
  match s.pending with
  | [] => .next s.idle
  | c :: rest => exec c { s with pending := rest }

/-- The state with the command a word spells in front of its queue; the table gives no row any bits, so no word spells
a command. -/
def State.withFetchWord (s : State) (nbits w : Nat) : State :=
  match decodeTableWord nbits w with
  | some c => { s with pending := c :: s.pending }
  | none => s

end Sys2Proof.Machine
end

