-- ==== Sys2Proof/Safety.lean ====
section
/-!
DEFINITION. The twelve laws of the device that the spec states (in R3, R4, R58, R59, R81, R107, R122, R126, R143, R159,
R46, R174), and the forms the model's own data keep.
-/

namespace Sys2Proof.Machine

open Sys2Proof

/-! ### The laws of the device -/

/-- A record's piece occupies its cells: every state but WITHDRAWN (R98). -/
def PlacementState.occupies (st : PlacementState) : Bool :=
  match st with
  | .withdrawn => false
  | .placed | .claimed | .cutting | .cut | .spoiled | .missed => true

/-- The candidate a record was committed for. -/
def Placement.candidate (p : Placement) : Candidate := { x := p.xlo, y := p.ylo, orient := p.orient }

/-- The hide cells a record's piece covers. -/
def State.cellsOf (s : State) (p : Placement) : List (Nat × Nat) := hideCells s.patterns[p.pattern] p.candidate

/-- First law (R4): a map cell's occupant is a slot exactly when the slot's record occupies it. -/
def State.lawOccupants (s : State) : Prop :=
  ∀ (k : Ctx) (n : SlotNo) (x y : Nat), x < (s.ctxs[k]).width → y < (s.ctxs[k]).height →
    ((s.cell k x y).occupant = some n ↔
      ∃ p, s.slots[n] = some p ∧ p.ctx = k ∧ p.state.occupies = true ∧ (x, y) ∈ s.cellsOf p)

/-- Second law (R59): live plus cut is at most requested. -/
def State.lawCounts (s : State) : Prop := ∀ e ∈ s.entries, e.live + e.cut ≤ e.requested

/-- Third law (R107): a PLACED or CLAIMED piece passes the cell test against the current map, its own occupants
aside. -/
def State.lawFit (s : State) : Prop :=
  ∀ (n : SlotNo) (p : Placement), s.slots[n] = some p → (p.state = .placed ∨ p.state = .claimed) →
    ∀ ijr ∈ (s.patterns[p.pattern]).coveredCells p.orient,
      (s.cell p.ctx (p.xlo + ijr.1) (p.ylo + ijr.2.1)).meets ((s.patterns[p.pattern]).requirement ijr.2.2) = true ∧
      (s.cell p.ctx (p.xlo + ijr.1) (p.ylo + ijr.2.1)).occupant = some n

/-- Fourth law (R143): a head holds at most two placements, at most one CUTTING, each CLAIMED or CUTTING in a
registered context that is OPEN or DRAINING. -/
def State.lawHeld (s : State) : Prop :=
  ∀ h : Head, (s.heads[h]).held.length ≤ 2 ∧ (s.heldRecords h).countP (fun x => x.2.state = .cutting) ≤ 1 ∧
    ∀ x ∈ (s.heads[h]).held, ∃ p, s.slots[x.slot] = some p ∧ p.head = some h ∧
      (p.state = .claimed ∨ p.state = .cutting) ∧ (s.ctxs[p.ctx]).registered = true ∧
      (s.ctxs[p.ctx]).state.cuttable = true

/-- Fifth law (R159): placements held by different heads are separated. -/
def State.lawSeparation (s : State) : Prop :=
  ∀ a ∈ s.heldRecords 0, ∀ b ∈ s.heldRecords 1, s.separated a.2 b.2 = true

/-- Sixth law (R3): in a context that was not aborted, a map cell that no WITHDRAWING flaw reaches has the cap and class
set of the APPLIED flaws. -/
def State.lawFlaws (s : State) : Prop :=
  ∀ (k : Ctx) (x y : Nat), x < (s.ctxs[k]).width → y < (s.ctxs[k]).height → (s.ctxs[k]).aborted = false →
    (∀ f ∈ s.flaws[k], ∀ c, f.state = .withdrawing → f.classified = some c → f.shape.reaches c.margin x y = false) →
    (s.cell k x y).cap = recomputedCap (appliedFlaws s.flaws[k]) (x, y) ∧
    (s.cell k x y).classes = recomputedClasses (appliedFlaws s.flaws[k]) (x, y)

/-- Seventh law (R122), of a state: the marking frontier never exceeds W. -/
def State.lawFrontier (s : State) : Prop := ∀ k : Ctx, (s.ctxs[k]).frontier ≤ (s.ctxs[k]).width

/-- Seventh law (R122), of a step: the marking frontier of a context that is not EMPTY before it nor after it never
decreases. -/
def State.frontierRises (s t : State) : Prop :=
  ∀ k : Ctx, (s.ctxs[k]).state ≠ .empty → (t.ctxs[k]).state ≠ .empty → (s.ctxs[k]).frontier ≤ (t.ctxs[k]).frontier

/-- The range of a score (R81). -/
def scoreInRange (z : Int) : Prop := -1566720 ≤ z ∧ z ≤ 9595905

/-- Eighth law (R81): every committed placement's score lies in its range. -/
def State.lawScore (s : State) : Prop := ∀ (n : SlotNo) (p : Placement), s.slots[n] = some p → scoreInRange p.score

/-- The store cells all records hold. -/
def reservedCells (ps : List Pattern) : Nat := (ps.map fun p => p.reserved).sum

/-- Ninth law (R46): free capacity plus the reserved sizes is the whole store. -/
def State.lawStore (s : State) : Prop := s.freeCells + reservedCells s.patterns.toList = Config.storeCells

/-- Tenth law (R58): at most 64 entries, every rush entry before every normal one. -/
def State.lawQueue (s : State) : Prop :=
  s.entries.length ≤ Config.maxEntries ∧ s.entries.Pairwise fun a b => b.rush = true → a.rush = true

/-- Eleventh law (R174): attention is asserted only while an enabled flag is pending. -/
def State.lawAttention (s : State) : Prop :=
  ∀ p : Port, (s.notices[p]).attention = true → (s.notices[p]).calling ≠ 0

/-- Twelfth law (R126): a CLOSED context has no live placement and no flaw with work due. -/
def State.lawClosed (s : State) : Prop :=
  ∀ k : Ctx, (s.ctxs[k]).state = .closed → s.liveCount k = 0 ∧ ∀ f ∈ s.flaws[k], f.state.due = false

/-! ### The model's own forms -/

/-- Both planes keep their canonical form: addresses strictly rising, no reset cell listed. -/
abbrev State.planesWf (s : State) : Prop := ∀ k : Ctx, (s.planes[k]).wf = true

/-- Every hide map lies in its plane, and its frontier in the map (R1, R122). -/
abbrev State.hidesWf (s : State) : Prop :=
  ∀ k : Ctx, (s.ctxs[k]).frontier ≤ (s.ctxs[k]).width ∧ (s.ctxs[k]).width ≤ 768 ∧ (s.ctxs[k]).height ≤ 512

/-- Outside READY no hide is open (R13, R16). -/
abbrev State.idleUnlessReady (s : State) : Prop := s.condition ≠ .ready → ∀ k : Ctx, (s.ctxs[k]).state = .empty

/-- A pattern record's reserved size follows its state: none while EMPTY, w × h while LOADING with at most h rows
received (R41). -/
def Pattern.sized (p : Pattern) : Prop :=
  (p.state = .empty → p.reserved = 0) ∧
  (p.state = .loading → p.reserved = p.w * p.h ∧ p.mask.length ≤ p.h)

/-- Every pattern record is sized, and the store is accounted for (R41, R46). -/
def State.storeWf (s : State) : Prop := (∀ n : PatNo, (s.patterns[n]).sized) ∧ s.lawStore

/-- The fourth law, with what keeps it: no head holds a slot twice, and the withdrawn list names WITHDRAWN slots alone
(R104, R143). -/
def State.heldWf (s : State) : Prop :=
  s.lawHeld ∧ (∀ h : Head, ((s.heads[h]).held.map fun x => x.slot).Nodup) ∧
  ∀ n ∈ s.withdrawn, ∃ p, s.slots[n] = some p ∧ p.state = .withdrawn

/-- The second law, with the counts it speaks of: each tag is held once, every record's tag is held, and an entry's live
count and holders are the live records and the records that name it (R57, R62). -/
def State.countsWf (s : State) : Prop :=
  s.lawCounts ∧ (s.entries.map fun e => e.tag).Nodup ∧
  (∀ (n : SlotNo) (r : Placement), s.slots[n] = some r → ∃ e ∈ s.entries, e.tag = r.tag) ∧
  ∀ e ∈ s.entries, e.live = (s.records.countP fun r => r.2.tag = e.tag && r.2.state.live) ∧
    e.holders = s.records.countP fun r => r.2.tag = e.tag

/-- The sixth law, with what keeps it: an EMPTY context has no listed cell and no flaw, a CLOSED one no flaw with work
due, a job names a PENDING or WITHDRAWING flaw by its kind and stands once, and a flaw with cells is classified (R5,
R17 to R24). -/
def State.flawsWf (s : State) : Prop :=
  s.lawFlaws ∧
  (∀ k : Ctx, (s.ctxs[k]).state = .empty → s.planes[k] = [] ∧ s.flaws[k] = []) ∧
  (∀ k : Ctx, (s.ctxs[k]).state = .closed → ∀ f ∈ s.flaws[k], f.state.due = false) ∧
  (∀ j ∈ s.jobs ++ s.inFlight.toList, ∃ f, (s.flaws[j.ctx])[j.flaw]? = some f ∧
    f.state = (match j.kind with | .apply => .pending | .withdraw => .withdrawing)) ∧
  (s.jobs ++ s.inFlight.toList).Nodup ∧
  ∀ (k : Ctx), ∀ f ∈ s.flaws[k], (f.state = .applied ∨ f.state = .withdrawing) → f.classified.isSome = true

/-- A drawing within its bounds: at most 96 by 64, no more rows than its height, and, unless it has no column, a minimum
grade of at least 1 in every region (R41, R43). -/
def Pattern.bounded (p : Pattern) : Prop :=
  p.w ≤ 96 ∧ p.h ≤ 64 ∧ p.mask.length ≤ p.h ∧
  (0 < p.w → 1 ≤ p.face.minGrade ∧ 1 ≤ p.hidden.minGrade ∧ 1 ≤ p.edge.minGrade)

/-- The third law, with what keeps it: no cell has a flaw cap above, or a class set short of, what the APPLIED flaws give
it, so that no WITHDRAW job can lower a cell or mark it (R3, R26). -/
def State.fitWf (s : State) : Prop :=
  s.lawFit ∧ ∀ (k : Ctx) (x y : Nat), x < (s.ctxs[k]).width → y < (s.ctxs[k]).height →
    (s.cell k x y).cap ≤ recomputedCap (appliedFlaws s.flaws[k]) (x, y) ∧
    recomputedClasses (appliedFlaws s.flaws[k]) (x, y) &&& ~~~(s.cell k x y).classes = 0

/-- Weights of one byte each (R97). -/
def Weights.bounded (w : Weights) : Prop := w.lead ≤ 255 ∧ w.premium ≤ 255 ∧ w.contact ≤ 255

/-- The eighth law, with what keeps it: the weights, the drawings, and a search in flight with its samples and its best
score stay within their bounds (R41, R76, R97). -/
def State.scoreWf (s : State) : Prop :=
  s.lawScore ∧ s.weights.bounded ∧ (∀ n : PatNo, (s.patterns[n]).bounded) ∧
  ∀ q, s.searchUnit = .searching q → q.samples.weights.bounded ∧ q.samples.width ≤ 768 ∧ q.samples.drawing.bounded ∧
    ∀ b, q.best = some b → scoreInRange b.score

/-- A search or stall is for an entry that stands and wants pieces, and a search has sampled that entry's pattern as it
is drawn (R76, R84). -/
def State.searchWf (s : State) : Prop :=
  (∀ q, s.searchUnit = .stalled q → ∃ e, s.entry? q.tag = some e ∧ e.eligible = true) ∧
  ∀ q, s.searchUnit = .searching q → ∃ e, s.entry? q.pair.tag = some e ∧ e.eligible = true ∧
    q.samples.pattern = e.pattern ∧
    s.patterns[e.pattern] = { q.samples.drawing with refs := (s.patterns[e.pattern]).refs }

/-- The first law, with what keeps it: an EMPTY context has no occupied cell and no record, the patterns that entries and
records name are READY, their reference counts are those names counted, and the search is for an entry that stands (R5,
R47, R113). -/
def State.occupantsWf (s : State) : Prop :=
  s.lawOccupants ∧ s.searchWf ∧
  (∀ k : Ctx, (s.ctxs[k]).state = .empty → ∀ a, ((s.planes[k]).read a).occupant = none) ∧
  (∀ (n : SlotNo) (r : Placement), s.slots[n] = some r →
    (s.ctxs[r.ctx]).state ≠ .empty ∧ (s.patterns[r.pattern]).state = .ready) ∧
  (∀ e ∈ s.entries, (s.patterns[e.pattern]).state = .ready) ∧
  ∀ n : PatNo, (s.patterns[n]).refs =
    s.entries.countP (fun e => e.pattern = n) + s.records.countP fun r => r.2.pattern = n

/-! ### Words that statements share -/

/-- A port that owes no reply, of a part that is READY, takes a request (R182, R184). -/
abbrev State.takes (s : State) (p : Port) : Prop := (s.ports[p]).owed = none ∧ s.condition = .ready

/-- A port that owes no reply, of a part that is READY or FAILED, takes a read (R182, R184). -/
abbrev State.takesRead (s : State) (p : Port) : Prop :=
  (s.ports[p]).owed = none ∧ (s.condition = .ready ∨ s.condition = .failed)

/-- The receiver of a port hunts and the port owes an ACCEPTED reply with a payload; all else is as it was. -/
def State.answered (s : State) (k : Kind) (p : Port) (pl : List Byte) : State :=
  (s.hunt p).owe p (.reply { kind := k.byte, refusal := none, payload := pl })

/-- The receiver of a port hunts and the port owes a refusal; all else is as it was. -/
def State.refused (s : State) (k : Kind) (p : Port) (c : Code) : State :=
  (s.hunt p).owe p (.reply { kind := k.byte, refusal := some c, payload := [] })

/-- A state's port owes an ACCEPTED reply with a payload, its receiver hunts, and the other ports are as another state
has them. -/
def State.repliedFrom (s t : State) (k : Kind) (p : Port) (pl : List Byte) : Prop :=
  (t.ports[p]).owed = some (.reply { kind := k.byte, refusal := none, payload := pl }) ∧
  (t.ports[p]).receiver = .hunting ∧ ∀ q : Port, q ≠ p → t.ports[q] = s.ports[q]

/-- The settings, the tables, the part condition and the encoder inputs of two states are the same. -/
def State.sameSettings (s t : State) : Prop :=
  t.condition = s.condition ∧ t.mismatches = s.mismatches ∧ t.rules = s.rules ∧ t.ranges = s.ranges ∧
  t.classDefaults = s.classDefaults ∧ t.links = s.links ∧ t.weights = s.weights ∧ t.conveyor = s.conveyor ∧
  t.encA = s.encA ∧ t.encB = s.encB ∧ t.encErrors = s.encErrors ∧ t.freeCells = s.freeCells

/-- The cells, slots, entries and patterns of two states are the same. -/
def State.samePieces (s t : State) : Prop :=
  t.planes = s.planes ∧ t.slots = s.slots ∧ t.withdrawn = s.withdrawn ∧ t.entries = s.entries ∧
  t.postCounter = s.postCounter ∧ t.patterns = s.patterns

/-- What the tail of an event may change apart from the Map Writer's, the Search Unit's and the claim timers' progress:
contexts in their state alone, lines in their working level, notice units and the gate in their working fields. -/
def State.steady (s t : State) : Prop :=
  (∀ k : Ctx, t.ctxs[k] = { s.ctxs[k] with state := (t.ctxs[k]).state }) ∧
  (∀ k : Ctx, (t.flaws[k]).length = (s.flaws[k]).length) ∧
  (∀ l : LineNo, t.lines[l] = { s.lines[l] with work := (t.lines[l]).work }) ∧
  (∀ p : Port, t.notices[p] = { s.notices[p] with
    pending := (t.notices[p]).pending, count := (t.notices[p]).count, timer := (t.notices[p]).timer,
    attention := (t.notices[p]).attention }) ∧
  t.gate = { s.gate with holding := t.gate.holding, armed := t.gate.armed, timer := t.gate.timer }

/-- The heads of two states differ in their claim timers at most. -/
def State.sameHeads (s t : State) : Prop := ∀ h : Head, t.heads[h] = { s.heads[h] with timer := (t.heads[h]).timer }

/-- A flag is pending on its port. -/
def State.flagged (s : State) (n : Notice) : Prop := (s.notices[n.port]).pending &&& n.bit = n.bit

/-- Between two states stands one event that has a setting event of the flag, with whatever others it has on that port
(R172). -/
def State.raises (s t : State) (n : Notice) : Prop :=
  ∃ b : FlagSet, b &&& n.bit = n.bit ∧ t.notices[n.port] = (s.notices[n.port]).set n.port b

/-- Between two states stand two events, one of which has a setting event of the flag (R130, R172). -/
def State.raisesInTwo (s t : State) (n : Notice) : Prop :=
  ∃ a b : FlagSet, (a ||| b) &&& n.bit = n.bit ∧
    t.notices[n.port] = ((s.notices[n.port]).set n.port a).set n.port b

/-- The commands that reach the Notice Units by the setting events of one event alone: not POWER_UP and PART RESET, not
the notice commands, not an encoder transition, which may be two events, and not a frame by its bytes, which may be any
request. -/
def isOneEvent (c : Instr) : Bool :=
  match c with
  | .powerUp | .partReset _ _ | .noticeClear _ _ | .noticeSetup _ _ | .noticeHoldoffExpiry _ | .encoderTransition _ _
  | .unknownKind _ _ _ | .checkRefused _ _ _ _ | .frameDiscardedOwed _ _ _ _ | .frameByteReceived _ _ => false
  | _ => true

/-- The grade that the last run of a list covering a column gives it (R10). -/
def gradeAt (runs : List GradeRun) (x : Nat) : Option Nat :=
  (runs.reverse.find? fun r => decide (r.start ≤ x) && decide (x < r.start + r.length)).map fun r => r.grade

/-- What the downgrade check makes of a slot's record between two states, once it fails or not (R106 to R108, R62, R64):
a PLACED or CLAIMED piece is WITHDRAWN with the check's cause and its cells are free, a CUTTING one is tainted, a CUT
one is SPOILED with cause LATE_FLAW and reopens a SATISFIED entry; any other record stays. -/
def State.checked (s t : State) (origin : Cause) (n : SlotNo) (p : Placement) (fails : Prop) : Prop :=
  (¬ fails → t.slots[n] = some p) ∧
  (fails →
    ((p.state = .placed ∨ p.state = .claimed) →
      t.slots[n] = some { p with state := .withdrawn, cause := some origin } ∧ n ∈ t.withdrawn ∧
      s.raises t .placementWithdrawn ∧ t.marks[p.ctx] = 0 ∧
      (∀ a, ((t.planes[p.ctx]).read a).occupant ≠ some n) ∧
      ∀ h, p.state = .claimed → p.head = some h →
        s.raises t (.claimLost h) ∧ ∀ x ∈ (t.heads[h]).held, x.slot ≠ n) ∧
    (p.state = .cutting →
      t.slots[n] = some { p with tainted := true } ∧ ∀ h, p.head = some h → s.raises t (.pieceTainted h)) ∧
    (p.state = .cut →
      t.slots[n] = some { p with state := .spoiled, cause := some .lateFlaw } ∧ s.raises t .pieceSpoiled ∧
      ∀ e, s.entry? p.tag = some e → e.state = .satisfied → ∃ g, t.entry? p.tag = some g ∧ g.state = .opened) ∧
    ((p.state = .spoiled ∨ p.state = .missed ∨ p.state = .withdrawn) → t.slots[n] = some p))

/-- The requirement that a record's mask puts on a hide cell (R43, R106). -/
def State.requiredAt (s : State) (p : Placement) (x y : Nat) : Requirement :=
  (s.patterns[p.pattern]).requirement ((s.patterns[p.pattern]).oriented p.orient (x - p.xlo) (y - p.ylo))

/-- How many pieces of an entry went, between two states, from one of some states to another. -/
def State.went (s t : State) (u : Tag) (a : List PlacementState) (b : PlacementState) : Nat :=
  (List.finRange 256).countP fun n => (s.slots[n]).any fun p =>
    decide (p.tag = u) && decide (p.state ∈ a) && (t.slots[n]).any fun q => decide (q.state = b)

/-- The entries of two states are the same but for what their pieces' ends move: a piece WITHDRAWN or MISSED before its cut
lowers live, a CUTTING one SPOILED lowers live and raises spoiled, and a CUT one SPOILED lowers cut, raises spoiled and
reopens a SATISFIED entry (R62, R64). -/
def State.recounted (s t : State) : Prop :=
  t.entries = s.entries.map fun e => { e with
    live := e.live - s.went t e.tag [.placed, .claimed] .withdrawn - s.went t e.tag [.placed, .claimed] .missed -
      s.went t e.tag [.cutting] .spoiled,
    cut := e.cut - s.went t e.tag [.cut] .spoiled,
    spoiled := if s.went t e.tag [.cutting, .cut] .spoiled = 0 then e.spoiled
      else min 255 (e.spoiled + s.went t e.tag [.cutting, .cut] .spoiled),
    state := if 0 < s.went t e.tag [.cut] .spoiled ∧ e.state = .satisfied then .opened else e.state }

/-- The slots that became WITHDRAWN between two states stand at the back of the withdrawn list, in ascending order
(R104). -/
def State.withdrawnJoin (s t : State) : Prop :=
  t.withdrawn = s.withdrawn ++ (List.finRange 256).filter fun n =>
    (s.slots[n]).any (fun p => decide (p.state ≠ .withdrawn)) && (t.slots[n]).any fun q => decide (q.state = .withdrawn)

/-- Between two states the cells of a context lose the occupants whose records are of some kind, and no cell changes
otherwise (R104). -/
def State.freesCells (s t : State) (k : Ctx) (gone : Placement → Prop) : Prop :=
  ∀ a : Nat,
    (∀ (n : SlotNo) (r : Placement), ((s.planes[k]).read a).occupant = some n → s.slots[n] = some r → gone r →
      (t.planes[k]).read a = { (s.planes[k]).read a with occupant := none }) ∧
    ((∀ (n : SlotNo) (r : Placement), ((s.planes[k]).read a).occupant = some n → s.slots[n] = some r → ¬ gone r) →
      (t.planes[k]).read a = (s.planes[k]).read a)

/-- How many records of a context name an entry. -/
def State.namedIn (s : State) (k : Ctx) (u : Tag) : Nat := s.records.countP fun r => r.2.ctx = k && r.2.tag = u

/-- An entry that leaves the queue when a context's slots are freed: one that is not OPEN and whose last holders they are
(R67, R113). -/
def State.leavesQueue (s : State) (k : Ctx) (e : Entry) : Bool :=
  decide (0 < s.namedIn k e.tag) && decide (e.state ≠ .opened) && decide (e.holders ≤ s.namedIn k e.tag)

/-- The occupants of a context's cells are slots whose records name the context (R4). -/
def State.occupantsNamed (s : State) (k : Ctx) : Prop :=
  ∀ (a : Nat) (n : SlotNo) (r : Placement), ((s.planes[k]).read a).occupant = some n → s.slots[n] = some r → r.ctx = k

/-- What belongs to a context is as another state has it: its cells, its no-fit marks, its records and its live count. -/
def State.sameIn (s t : State) (j : Ctx) : Prop :=
  t.planes[j] = s.planes[j] ∧ t.marks[j] = s.marks[j] ∧ t.liveCount j = s.liveCount j ∧
  ∀ (n : SlotNo) (r : Placement), s.slots[n] = some r → r.ctx = j → t.slots[n] = some r

/-- A cell has the cap and the class set that the APPLIED flaws of a list give it: the cap is 7, or that of a flaw whose
footprint covers the cell, and at most that of each; a class is set exactly for a flaw of it that reaches the cell (R3,
R26). -/
def Cell.markedBy (fs : List Flaw) (x y : Nat) (c : Cell) : Prop :=
  (∀ f ∈ fs, ∀ d g, f.state = .applied → f.classified = some d → f.shape.covers x y = true → d.cap = some g → c.cap ≤ g) ∧
  (c.cap = 7 ∨ ∃ f ∈ fs, ∃ d, f.state = .applied ∧ f.classified = some d ∧ f.shape.covers x y = true ∧
    d.cap = some c.cap) ∧
  ∀ i : Fin 8, c.classes.getLsbD i.val = true ↔
    ∃ f ∈ fs, ∃ d, f.state = .applied ∧ f.classified = some d ∧ f.shape.reaches d.margin x y = true ∧ d.cls = i

/-- A key test passes: under every digit of the mask that is set, the key has the value's digit (R32). -/
def KeyTest.agrees {w : Nat} (t : KeyTest w) (k : BitVec w) : Prop :=
  ∀ i : Nat, t.mask.getLsbD i = true → k.getLsbD i = t.value.getLsbD i

/-- A demand entry can be searched for on a context: the entry is OPEN and wants pieces, the context is OPEN, the pair is
not marked, and its window is not empty (R73). -/
def State.canSearch (s : State) (e : Entry) (k : Ctx) : Prop :=
  e.state = .opened ∧ e.cut + e.live < e.requested ∧ (s.ctxs[k]).state = .opened ∧ s.marked e.tag k = false ∧
  s.floor k < (s.ctxs[k]).frontier

/-- Some entry that is OPEN and wants pieces has no mark for some OPEN context (R75). -/
def State.workWaits (s : State) : Prop :=
  ∃ e ∈ s.entries, e.state = .opened ∧ e.cut + e.live < e.requested ∧
    ∃ k : Ctx, (s.ctxs[k]).state = .opened ∧ s.marked e.tag k = false

/-- The first pair in selection order: no entry before this one can be searched for, and of its two contexts this is the
only one or the older (R73). -/
def State.choosesFirst (s : State) (e : Entry) (k : Ctx) : Prop :=
  (∃ before after, s.entries = before ++ e :: after ∧ ∀ x ∈ before, ∀ j, ¬ s.canSearch x j) ∧ s.canSearch e k ∧
  (s.canSearch e (otherCtx k) → if (s.ctxs[(1 : Ctx)]).rank = some .first then k = 1 else k = 0)

/-- A search that has just started for an entry on a context, with its samples (R74, R76). -/
def State.freshSearch (s : State) (e : Entry) (k : Ctx) (retry : Nat) : SearchState :=
  .searching
    { pair := { tag := e.tag, ctx := k }, tested := 0, best := none, retry := retry,
      samples := { weights := s.weights, floor := s.floor k, frontier := (s.ctxs[k]).frontier,
                   width := (s.ctxs[k]).width, height := (s.ctxs[k]).height, pattern := e.pattern,
                   drawing := s.patterns[e.pattern],
                   orients := orientList ((s.patterns[e.pattern]).orients &&& e.hand.orients) } }

/-- Selection has run in a state that came of another: the first pair has a fresh search; with none the unit is IDLE, and
window short stands while work waits, flagged in the event that sets it (R73 to R76). -/
def State.selected (s t : State) : Prop :=
  (∀ e k, t.choosesFirst e k → t.searchUnit = t.freshSearch e k 0 ∧ t.windowShort = false) ∧
  ((∀ e ∈ t.entries, ∀ k, ¬ t.canSearch e k) → t.searchUnit = .idle ∧ (t.windowShort = true ↔ t.workWaits)) ∧
  (t.windowShort = true → s.windowShort = false → s.raises t .windowShort)

/-- The Search Unit as selection leaves it and keeps it: an IDLE unit has no pair to take, and window short stands exactly
while work waits; any other has window short clear and its pair's context OPEN (R74, R75, R95). -/
def State.searchUnitWf (s : State) : Prop :=
  (s.searchUnit = .idle → (∀ e ∈ s.entries, ∀ k, ¬ s.canSearch e k) ∧ (s.windowShort = true ↔ s.workWaits)) ∧
  (s.searchUnit ≠ .idle → s.windowShort = false) ∧
  (∀ q, s.searchUnit = .searching q → (s.ctxs[q.pair.ctx]).state = .opened) ∧
  ∀ q, s.searchUnit = .stalled q → (s.ctxs[q.ctx]).state = .opened

/-- A search goes on: the same pair, samples and retry count, and no candidate tested is tested again (R77, R89). -/
def Search.goesOn (q r : Search) : Prop :=
  r.pair = q.pair ∧ r.samples = q.samples ∧ r.retry = q.retry ∧ q.tested ≤ r.tested

/-- An event between two states abandons the search or stall on a pair: its context is OPEN no longer, or its entry, which
was OPEN, is CANCELLED or gone (R94, R95). -/
def State.givesUp (s t : State) (q : Pair) : Prop :=
  ((s.ctxs[q.ctx]).state = .opened ∧ (t.ctxs[q.ctx]).state ≠ .opened) ∨
  ∃ e, s.entry? q.tag = some e ∧ e.state = .opened ∧ ∀ f, t.entry? q.tag = some f → f.state = .cancelled

/-- A slot became FREE or WITHDRAWN between two states (R88). -/
def State.slotComesFree (s t : State) : Prop :=
  ∃ (n : SlotNo) (r : Placement), s.slots[n] = some r ∧
    (t.slots[n] = none ∨ (r.state ≠ .withdrawn ∧ ∃ p, t.slots[n] = some p ∧ p.state = .withdrawn))

/-- What an event that is no search completion makes of the Search Unit: an IDLE unit selects; a search goes on and a
stall stays unless abandoned, and then the unit selects; a stall that stands when a slot becomes FREE or WITHDRAWN
re-runs its search from the start (R74, R88, R93 to R95). -/
def State.searchFollows (s t : State) : Prop :=
  (s.searchUnit = .idle → s.selected t) ∧
  (∀ q, s.searchUnit = .searching q →
    (s.givesUp t q.pair → s.selected t) ∧
    (¬ s.givesUp t q.pair → t.windowShort = false ∧ ∃ r, t.searchUnit = .searching r ∧ q.goesOn r)) ∧
  ∀ q, s.searchUnit = .stalled q →
    (s.givesUp t q → s.selected t) ∧
    (¬ s.givesUp t q → t.windowShort = false ∧
      (s.slotComesFree t → ∃ e, t.entry? q.tag = some e ∧ t.searchUnit = t.freshSearch e q.ctx 0) ∧
      (¬ s.slotComesFree t → t.searchUnit = .stalled q))

/-- A drawing laid as a candidate passes the cell test on a context's map as it stands: under every covered cell the
effective grade is at least the region's minimum, every class is tolerated and there is no occupant (R43, R78). -/
def State.passes (s : State) (k : Ctx) (p : Pattern) (c : Candidate) : Prop :=
  ∀ i j, i < (p.orientedSize c.orient).1 → j < (p.orientedSize c.orient).2 → ∀ r : Requirement,
    ((p.oriented c.orient i j = .face ∧ r = p.face) ∨ (p.oriented c.orient i j = .hidden ∧ r = p.hidden) ∨
      (p.oriented c.orient i j = .edge ∧ r = p.edge)) →
    r.minGrade ≤ min (s.cell k (c.x + i) (c.y + j)).base.val (s.cell k (c.x + i) (c.y + j)).cap.val ∧
    (s.cell k (c.x + i) (c.y + j)).classes &&& ~~~r.tolerated = 0 ∧ (s.cell k (c.x + i) (c.y + j)).occupant = none

/-- Re-verification passes: the context is OPEN, the entry is OPEN and wants pieces, the candidate lies at or above the
present floor and below the present frontier, and it passes the cell test now (R84). -/
def State.reverified (s : State) (q : Search) (c : Candidate) : Prop :=
  (s.ctxs[q.pair.ctx]).state = .opened ∧
  (∃ e, s.entry? q.pair.tag = some e ∧ e.state = .opened ∧ e.cut + e.live < e.requested) ∧
  s.floor q.pair.ctx ≤ c.x ∧
  c.x + (q.samples.drawing.orientedSize c.orient).1 ≤ (s.ctxs[q.pair.ctx]).frontier ∧
  s.passes q.pair.ctx q.samples.drawing c

/-- The best candidate a scan ends with, once the candidates left are tested: the one held, if none left that passes
scores lower; else the first of the lowest score among those left that pass (R82, R83). -/
def State.scanEnds (s : State) (q : Search) (best : Option Best) : Prop :=
  match best with
  | none => q.best = none ∧
      ∀ c ∈ q.samples.candidates.drop q.tested, ¬ s.passes q.pair.ctx q.samples.drawing c
  | some b =>
    (q.best = some b ∧ ∀ c ∈ q.samples.candidates.drop q.tested, s.passes q.pair.ctx q.samples.drawing c →
      b.score ≤ scoreOf (s.hideMap q.pair.ctx) q.samples c) ∨
    ((∀ o, q.best = some o → b.score < o.score) ∧ s.passes q.pair.ctx q.samples.drawing b.cand ∧
      b.score = scoreOf (s.hideMap q.pair.ctx) q.samples b.cand ∧
      ∃ before after, q.samples.candidates.drop q.tested = before ++ b.cand :: after ∧
        (∀ c ∈ before, s.passes q.pair.ctx q.samples.drawing c →
          b.score < scoreOf (s.hideMap q.pair.ctx) q.samples c) ∧
        ∀ c ∈ after, s.passes q.pair.ctx q.samples.drawing c →
          b.score ≤ scoreOf (s.hideMap q.pair.ctx) q.samples c)

/-- The slot that times a head: the front of its held list, CLAIMED while no held slot is CUTTING (R157). -/
def State.times (s : State) (h : Head) (n : SlotNo) : Prop :=
  (∃ x rest, (s.heads[h]).held = x :: rest ∧ x.slot = n) ∧ (∃ p, s.slots[n] = some p ∧ p.state = .claimed) ∧
  ∀ y ∈ (s.heads[h]).held, ∀ q, s.slots[y.slot] = some q → q.state ≠ .cutting

/-- The claim timers of a state that came of another: stopped without a timed slot or with a claim limit of 0, running on
while the timed slot is the one it was, and from 0 for a new one (R157). -/
def State.claimsTimed (s t : State) : Prop :=
  ∀ h : Head,
    ((∀ n, ¬ t.times h n) → (t.heads[h]).timer = none) ∧
    ∀ n, t.times h n →
      (t.conveyor.claimLimit = 0 → (t.heads[h]).timer = none) ∧
      (0 < t.conveyor.claimLimit → (s.times h n → (t.heads[h]).timer = (s.heads[h]).timer) ∧
        (¬ s.times h n → (t.heads[h]).timer = some 0))

/-- Some registered context is OPEN (R137). -/
def State.nests (s : State) : Prop := ∃ k : Ctx, (s.ctxs[k]).registered = true ∧ (s.ctxs[k]).state = .opened

/-- A command is the completion of the search in flight. -/
def State.completes (s : State) (c : Instr) : Prop := c = .searchCompletion ∧ ∃ q, s.searchUnit = .searching q

/-- An event between two states releases a HOLDING gate, which stays armed: the ready count rises to the release
threshold, the Search Unit comes to be IDLE or STALLED, the Map Writer comes to be IDLE while the Search Unit does not
search, or no registered context is OPEN any longer (R138). -/
def State.gateLetsGo (s t : State) : Prop :=
  (s.readyCount < t.readyCount ∧ s.gate.release ≤ t.readyCount) ∨
  ((∀ q, t.searchUnit ≠ .searching q) ∧
    ((∃ q, s.searchUnit = .searching q) ∨ ¬ (s.searchUnit = .idle ↔ t.searchUnit = .idle))) ∨
  (s.inFlight ≠ none ∧ t.inFlight = none ∧ ∀ q, t.searchUnit ≠ .searching q) ∨
  (s.nests ∧ ¬ t.nests)

/-- A command between two states is a test of a FLOWING gate: a search starts, a Map Writer job starts (one that ends at
once with its flaw IGNORED included), the ready count falls, a context is registered, or a completion re-arms the gate
(R137, R139; of a completion with the gate armed already, log 28). -/
def State.gateTested (s t : State) (c : Instr) : Prop :=
  (∃ r, t.searchUnit = .searching r ∧ (s.completes c ∨ ∀ q, s.searchUnit = .searching q → q.pair ≠ r.pair)) ∨
  (t.inFlight ≠ none ∧ t.inFlight ≠ s.inFlight) ∨
  (∃ (k : Ctx) (n : Nat) (g : Flaw), (t.flaws[k])[n]? = some g ∧ g.state = .ignored ∧
    ∀ f, (s.flaws[k])[n]? = some f → f.state ≠ .ignored) ∨
  t.readyCount < s.readyCount ∨
  (∃ k : Ctx, (s.ctxs[k]).registered = false ∧ (t.ctxs[k]).registered = true) ∨
  (s.completes c ∧ s.gate.armed = false)

/-- What a command that is not the gate's own makes of the gate: a HOLDING gate is released by an event of R138 and else
holds on under its timer; a FLOWING one takes a hold, its timer from 0 if there is a limit, exactly when the command is
a test that finds it armed, the ready count below a hold threshold above 0, work under way and a registered context
OPEN. A search completion arms it. -/
def State.gateFollows (s t : State) (c : Instr) : Prop :=
  (t.gate.armed = true ↔ s.gate.armed = true ∨ s.completes c) ∧
  (s.gate.holding = true →
    (s.gateLetsGo t → t.gate = { s.gate with holding := false, timer := none, armed := t.gate.armed }) ∧
    (¬ s.gateLetsGo t → t.gate = { s.gate with armed := t.gate.armed })) ∧
  (s.gate.holding = false →
    (t.gate.holding = true ↔ s.gateTested t c ∧ t.gate.armed = true ∧ 0 < s.gate.hold ∧ t.readyCount < s.gate.hold ∧
      ((∃ q, t.searchUnit = .searching q) ∨ t.inFlight ≠ none) ∧ t.nests) ∧
    (t.gate.holding = true → s.raises t .gateHold ∧ t.gate = { s.gate with
      holding := true,
      armed := t.gate.armed,
      timer := (if s.gate.holdLimit = 0 then none else some { elapsed := 0, limit := s.gate.holdLimit }) }) ∧
    (t.gate.holding = false → t.gate = { s.gate with armed := t.gate.armed }))

/-- The commands that do not write the gate themselves: not SET GATE, not the releases, and not a change of a line with
the function GATE RELEASE (R139, R140). -/
def State.sparesGate (s : State) (c : Instr) : Prop :=
  match c with
  | .setGate _ _ | .gateRelease _ _ | .gateHoldLimitExpiry => False
  | .linePinChange l _ | .debounceExpiry l => (s.lines[l]).function ≠ .gateRelease
  | _ => True

/-- A command between two states is one event: one that is so by its form, or an encoder transition that leaves the cell
travel of a context as it was (R130). -/
def State.inOneEvent (s t : State) (c : Instr) : Prop :=
  isOneEvent c = true ∨ ∃ a b, c = .encoderTransition a b ∧ ∃ k : Ctx, s.travel k = t.travel k

/-- The timer whose expiry a command is runs and has reached its limit: in steps of 100 µs, H × 10 ms, the hold limit and
the claim limit × 100 ms, the debounce time × 100 µs, the pulse width × 1 ms, and a gap of more than 20 ms since the last
byte of a frame (R139, R157, R161, R165, R173, R180). -/
def State.ripe (s : State) (c : Instr) : Prop :=
  match c with
  | .noticeHoldoffExpiry p => ∃ e, (s.notices[p]).timer = .running e ∧ (s.notices[p]).holdoff * 100 ≤ e
  | .gateHoldLimitExpiry => ∃ x, s.gate.timer = some x ∧ x.limit * 1000 ≤ x.elapsed
  | .claimTimerExpiry h => ∃ e, (s.heads[h]).timer = some e ∧ s.conveyor.claimLimit * 1000 ≤ e
  | .debounceExpiry l => ∃ d x, (s.lines[l]).work = .input d (some x) ∧ (s.lines[l]).debounce ≤ x.elapsed
  | .outputHoldEnd l => ∃ d x, (s.lines[l]).work = .output d (some x) ∧ x.width * 10 ≤ x.elapsed
  | .frameGapTimeout p => (s.ports[p]).receiver ≠ .hunting ∧ 200 < (s.ports[p]).gap
  | _ => False

/-- A context that a hide edge can register: OPEN or DRAINING, and not registered (R123). -/
def State.awaitsEdge (s : State) (k : Ctx) : Prop :=
  ((s.ctxs[k]).state = .opened ∨ (s.ctxs[k]).state = .draining) ∧ (s.ctxs[k]).registered = false

/-- The context a hide edge registers: the one that awaits it, or of two the one with open rank FIRST (R123). -/
def State.takesEdge (s : State) (k : Ctx) : Prop :=
  s.awaitsEdge k ∧ (¬ s.awaitsEdge (otherCtx k) ∨
    ((s.ctxs[k]).rank = some .first ∧ (s.ctxs[otherCtx k]).rank = some .second))

/-- A line that holds a head's interlock view INACTIVE: IN, with the function, at debounced level 0 (R163). -/
def Line.opens (l : Line) (h : Head) : Prop := l.function = .interlock h ∧ ∃ c, l.work = .input false c

/-- The interlock views of a state are those its lines give, and a head whose view fell since another state is OFFLINE
and holds nothing: its claims are given back and its cut is SPOILED with cause HEAD_OFFLINE, each flagged to the head
(R146, R163). No other head's state or held list changes. -/
def State.viewed (s t : State) : Prop :=
  ∀ h : Head,
    ((t.heads[h]).interlock = .inactive ↔ ∃ m : LineNo, (t.lines[m]).opens h) ∧
    ((s.heads[h]).interlock = .active → (t.heads[h]).interlock = .inactive → (t.heads[h]).state = .offline ∧
      (s.heldWf → (t.heads[h]).held = [] ∧ ∀ x ∈ (s.heads[h]).held, ∀ r, s.slots[x.slot] = some r →
        (r.state = .claimed →
          t.slots[x.slot] = some { r with state := .placed, head := none } ∧ s.raises t (.claimLost h)) ∧
        (r.state = .cutting →
          t.slots[x.slot] = some { r with state := .spoiled, cause := some .headOffline } ∧
          s.raises t (.cutAborted h) ∧ s.raises t .pieceSpoiled))) ∧
    (¬ ((s.heads[h]).interlock = .active ∧ (t.heads[h]).interlock = .inactive) →
      (t.heads[h]).state = (s.heads[h]).state ∧ (s.heldWf → (t.heads[h]).held = (s.heads[h]).held))

/-- What the delivery of a debounced change to a line's function does between two states; the entries' counts move by the
pieces it ends (R62, R123, R139, R162, R166). -/
def State.delivers (s t : State) (f : InputFunction) (level : Bool) : Prop :=
  (s.heldWf → s.recounted t) ∧
  (f = .none → t.ctxs.map (fun c => c.registered) = s.ctxs.map (fun c => c.registered) ∧ t.slots = s.slots) ∧
  (f = .hideEdge → level = true →
    (∀ k, s.takesEdge k → (t.ctxs[k]).registered = true ∧ (t.ctxs[k]).count = 0 ∧ s.raises t .hideRegistered ∧
      (t.ctxs[otherCtx k]).registered = (s.ctxs[otherCtx k]).registered ∧
      ∀ m : LineNo, (s.lines[m]).source = .staged → ∀ v, (s.lines[m]).pendingStaged = some v →
        (t.lines[m]).applied = v ∧ (t.lines[m]).pendingStaged = none) ∧
    ((∀ k, ¬ s.awaitsEdge k) → s.raises t .unexpectedEdge ∧
      ∀ k : Ctx, (t.ctxs[k]).registered = (s.ctxs[k]).registered ∧ (t.ctxs[k]).count = (s.ctxs[k]).count)) ∧
  (f = .gateRelease → level = true → t.gate = { s.gate with holding := false, armed := false, timer := none }) ∧
  (∀ h, f = .interlock h → s.viewed t) ∧
  ((f = .hideEdge ∨ f = .gateRelease) → level = false →
    (∀ k : Ctx, (t.ctxs[k]).registered = (s.ctxs[k]).registered ∧ (t.ctxs[k]).count = (s.ctxs[k]).count) ∧
    t.slots = s.slots)

/-- An output line's working level after a requested level has passed through the pulse width rule: with no hold running
the line drives it, with a hold for the width if that makes a change; a running hold runs on, and a change of the
requested level is its pending level (R165). -/
def LineWork.follows (w : LineWork) (width : Nat) (requested : Bool) (v : LineWork) : Prop :=
  (∀ d, w = .output d none → v = if requested = d then .output d none else
    .output (!d) (if width = 0 then none else some { pending := none, elapsed := 0, width := width })) ∧
  ∀ d h, w = .output d (some h) → v = .output d
    (some { h with pending := if requested = h.pending.getD d then h.pending else some requested })

/-- Every output line drives its requested level, or holds it as the level last requested (R164, R165). -/
def State.driven (s : State) : Prop :=
  ∀ l : LineNo,
    (∀ d, (s.lines[l]).work = .output d none → s.requested s.lines[l] = d) ∧
    ∀ d h, (s.lines[l]).work = .output d (some h) → s.requested s.lines[l] = h.pending.getD d

/-- The commands after which a line that was OUT has followed its requested level once: not POWER_UP, which makes every
line IN, not the end of the line's own hold, not a SET LINE of the line itself, not an encoder transition, which may be
two events, and not a frame by its bytes, which may be any request. -/
def drivesOnce (c : Instr) (l : LineNo) : Bool :=
  match c with
  | .powerUp | .encoderTransition _ _ | .unknownKind _ _ _ | .checkRefused _ _ _ _ | .frameDiscardedOwed _ _ _ _
  | .frameByteReceived _ _ => false
  | .outputHoldEnd m => m ≠ l
  | .setLine _ pl => u8 pl 0 ≠ l.val
  | _ => true

/-- The conveyor position of a placement's lowest column (R149). -/
def State.downstream (s : State) (p : Placement) : Int := (s.travel p.ctx : Int) - p.xlo

/-- A record that a change of cell travel makes MISSED (R103). -/
def Placement.missed (p : Placement) : Placement :=
  { p with state := .missed, cause := some .leftReach, head := none }

/-- What changes of cell travel of some contexts make of a state, with what counts as telling a flag (R125, R133, R158,
R159).
The window: such a context, OPEN with a floor of W or more, drains with cause EXHAUSTED or closes, and no search is left
on it; with a lower floor only its count and registration differ.
Reach loss: a held claim of such a context no longer fully in reach goes back, a cut whose lowest column is out of reach
is SPOILED with cause LEFT_REACH; each is told to its head.
Separation loss: afterwards the held pieces of the two heads are separated where one is of such a context; of one short
pair the claim goes rather than the cut, and the later grant or start rather than the earlier; a piece in reach that is
short of none stays held.
MISSED: a PLACED piece of such a context that has passed every present head, one just given back included, is MISSED with
cause LEFT_REACH. Every other record stays. The entries' counts move by the pieces SPOILED and MISSED (R62). -/
def State.travelTaken (s t : State) (moved : Ctx → Prop) (told : Notice → Prop) : Prop :=
  s.recounted t ∧
  (∀ k : Ctx, moved k → (s.ctxs[k]).state = .opened → (s.ctxs[k]).width ≤ t.floor k →
    ((t.ctxs[k]).state = .draining ∨ (t.ctxs[k]).state = .closed) ∧ (t.ctxs[k]).drainCause = some .exhausted ∧
    t.searchesOn k = false) ∧
  (∀ k : Ctx, moved k → (s.ctxs[k]).state = .opened → t.floor k < (s.ctxs[k]).width → t.ctxs[k] = { s.ctxs[k] with
    count := (t.ctxs[k]).count, registered := (t.ctxs[k]).registered }) ∧
  (∀ (h : Head) (x : Held) (p : Placement), x ∈ (s.heads[h]).held → s.slots[x.slot] = some p →
    (moved p.ctx → p.state = .claimed → t.fullyReaches h p = false →
      told (.claimLost h) ∧ x ∉ (t.heads[h]).held ∧ (t.passedAll p.ctx p.xlo = true → told .pieceMissed) ∧
      t.slots[x.slot] = some (if t.passedAll p.ctx p.xlo then p.missed else { p with state := .placed, head := none })) ∧
    (moved p.ctx → p.state = .cutting → t.reaches h p.ctx p.xlo = false →
      told (.cutAborted h) ∧ told .pieceSpoiled ∧ x ∉ (t.heads[h]).held ∧
      t.slots[x.slot] = some { p with state := .spoiled, cause := some .leftReach }) ∧
    ((moved p.ctx → p.state = .claimed → t.fullyReaches h p = true) →
      (moved p.ctx → p.state = .cutting → t.reaches h p.ctx p.xlo = true) →
      (∀ y ∈ (s.heads[otherHead h]).held, ∀ q, s.slots[y.slot] = some q → (moved p.ctx ∨ moved q.ctx) →
        t.separated p q = true) →
      x ∈ (t.heads[h]).held ∧ t.slots[x.slot] = some p)) ∧
  (∀ h : Head, ∀ x ∈ (t.heads[h]).held, x ∈ (s.heads[h]).held) ∧
  (∀ u ∈ t.heldRecords 0, ∀ v ∈ t.heldRecords 1, (moved u.2.ctx ∨ moved v.2.ctx) → t.separated u.2 v.2 = true) ∧
  (∀ (x y : Held) (p q : Placement), (s.heads[(0 : Head)]).held = [x] → (s.heads[(1 : Head)]).held = [y] →
    s.slots[x.slot] = some p → s.slots[y.slot] = some q → (moved p.ctx ∨ moved q.ctx) → t.separated p q = false →
    (moved p.ctx → t.fullyReaches 0 p = true) → (moved q.ctx → t.fullyReaches 1 q = true) →
    ((p.state = .cutting ∧ q.state = .claimed) ∨
      (p.state = .claimed ∧ q.state = .claimed ∧ x.grantOrder < y.grantOrder) ∨
      (p.state = .cutting ∧ q.state = .cutting ∧ x.startOrder.getD 0 < y.startOrder.getD 0) →
      (t.heads[(0 : Head)]).held = [x] ∧ (t.heads[(1 : Head)]).held = [] ∧
      (q.state = .claimed → told (.claimLost 1) ∧
        t.slots[y.slot] = some { q with state := .placed, head := none }) ∧
      (q.state = .cutting → told (.cutAborted 1) ∧ told .pieceSpoiled ∧
        t.slots[y.slot] = some { q with state := .spoiled, cause := some .leftReach })) ∧
    ((p.state = .claimed ∧ q.state = .cutting) ∨
      (p.state = .claimed ∧ q.state = .claimed ∧ y.grantOrder < x.grantOrder) ∨
      (p.state = .cutting ∧ q.state = .cutting ∧ y.startOrder.getD 0 < x.startOrder.getD 0) →
      (t.heads[(0 : Head)]).held = [] ∧ (t.heads[(1 : Head)]).held = [y] ∧
      (p.state = .claimed → told (.claimLost 0) ∧
        t.slots[x.slot] = some { p with state := .placed, head := none }) ∧
      (p.state = .cutting → told (.cutAborted 0) ∧ told .pieceSpoiled ∧
        t.slots[x.slot] = some { p with state := .spoiled, cause := some .leftReach }))) ∧
  ∀ (n : SlotNo) (p : Placement), s.slots[n] = some p →
    (p.state = .placed → moved p.ctx → t.passedAll p.ctx p.xlo = true → told .pieceMissed ∧
      t.slots[n] = some p.missed) ∧
    ((p.state = .placed → moved p.ctx → t.passedAll p.ctx p.xlo = false) → p.state ≠ .claimed → p.state ≠ .cutting →
      t.slots[n] = some p)

/-- The request catalogue: each kind with its KIND byte, the ports that take it, and its payload length where that is one
number (R187). -/
def catalogue : List (Kind × Byte × List Port × Option Nat) :=
  [(.partStatus, 0x01, [0, 1, 2, 3], some 0), (.noticeRead, 0x02, [0, 1, 2, 3], some 0),
   (.noticeClear, 0x03, [0, 1, 2, 3], some 2), (.noticeSetup, 0x04, [0, 1, 2, 3], some 4),
   (.mapRead, 0x05, [0, 1], some 6), (.placementRead, 0x06, [0, 1, 2, 3], some 1), (.hideReport, 0x07, [0, 1], some 1),
   (.lineStatus, 0x17, [0, 1, 2, 3], some 0), (.partReset, 0x10, [0], some 0), (.mapTest, 0x11, [0], some 0),
   (.setWeights, 0x12, [0], some 3), (.setConveyor, 0x13, [0], some 14), (.setGate, 0x14, [0], some 3),
   (.gateRelease, 0x15, [0], some 0), (.setLine, 0x16, [0], some 9), (.libraryBegin, 0x20, [0], some 11),
   (.libraryRows, 0x21, [0], none), (.libraryEnd, 0x22, [0], some 1), (.libraryDrop, 0x23, [0], some 1),
   (.libraryRead, 0x24, [0], some 3), (.ruleWrite, 0x28, [0], some 22), (.ruleRead, 0x29, [0], some 1)] ++
  [(.rangeWrite, 0x2A, [0], some 6), (.classDefaults, 0x2B, [0], some 19), (.demandPost, 0x30, [0], some 4),
   (.demandCancel, 0x31, [0], some 1), (.demandRead, 0x32, [0], some 1), (.hideDrain, 0x38, [0], some 1),
   (.hideAbort, 0x39, [0], some 1), (.hideRelease, 0x3A, [0], some 1), (.placementWithdraw, 0x3B, [0], some 4),
   (.hideOpen, 0x40, [1], some 5), (.gradeRuns, 0x41, [1], none), (.flawAdd, 0x42, [1], none),
   (.flawWithdraw, 0x43, [1], some 3), (.flawRead, 0x44, [1], some 3), (.markFrontier, 0x45, [1], some 3),
   (.headOnline, 0x50, [2, 3], some 0), (.headOffline, 0x51, [2, 3], some 0), (.claim, 0x52, [2, 3], some 0),
   (.startCut, 0x53, [2, 3], some 4), (.cutDone, 0x54, [2, 3], some 4), (.cutFailed, 0x55, [2, 3], some 5),
   (.returnClaim, 0x56, [2, 3], some 4)]

/-- The commands that a request of a kind is: one, or the two forms of a read that has two (R187). -/
def requestRows (k : Kind) (p : Port) (pl : List Byte) : List Instr :=
  match k with
  | .partStatus => [.partStatus p pl] | .noticeRead => [.noticeRead p pl] | .noticeClear => [.noticeClear p pl]
  | .noticeSetup => [.noticeSetup p pl] | .mapRead => [.mapRead p pl] | .placementRead => [.placementRead p pl]
  | .hideReport => [.hideReport p pl] | .lineStatus => [.lineStatus p pl] | .partReset => [.partReset p pl]
  | .mapTest => [.mapTest p pl] | .setWeights => [.setWeights p pl] | .setConveyor => [.setConveyor p pl]
  | .setGate => [.setGate p pl] | .gateRelease => [.gateRelease p pl] | .setLine => [.setLine p pl]
  | .libraryBegin => [.libraryBegin p pl] | .libraryRows => [.libraryRows p pl] | .libraryEnd => [.libraryEnd p pl]
  | .libraryDrop => [.libraryDrop p pl] | .libraryRead => [.libraryReadRecord p pl, .libraryReadMask p pl]
  | .ruleWrite => [.ruleWrite p pl] | .ruleRead => [.ruleReadEntry p pl, .ruleReadTables p pl]
  | .rangeWrite => [.rangeWrite p pl] | .classDefaults => [.classDefaults p pl] | .demandPost => [.demandPost p pl]
  | .demandCancel => [.demandCancel p pl] | .demandRead => [.demandReadEntry p pl, .demandReadList p pl]
  | .hideDrain => [.hideDrain p pl] | .hideAbort => [.hideAbort p pl] | .hideRelease => [.hideRelease p pl]
  | .placementWithdraw => [.placementWithdraw p pl] | .hideOpen => [.hideOpen p pl] | .gradeRuns => [.gradeRuns p pl]
  | .flawAdd => [.flawAdd p pl] | .flawWithdraw => [.flawWithdraw p pl] | .flawRead => [.flawRead p pl]
  | .markFrontier => [.markFrontier p pl] | .headOnline => [.headOnline p pl] | .headOffline => [.headOffline p pl]
  | .claim => [.claim p pl] | .startCut => [.startCut p pl] | .cutDone => [.cutDone p pl]
  | .cutFailed => [.cutFailed p pl] | .returnClaim => [.returnClaim p pl]

/-- What the end of a load makes of the record that was LOADING, the outcome it reports (0 COMPLETE, 1 TRUNCATED,
2 EMPTIED) and the final height (R46, R51). -/
def State.loadEnded (s t : State) (n : PatNo) (outcome height : Nat) : Prop :=
  ((∀ row ∈ (s.patterns[n]).mask, ∀ c ∈ row, c = .outside) →
    outcome = 2 ∧ height = 0 ∧ t.patterns[n] = Pattern.reset ∧
    t.freeCells = s.freeCells + (s.patterns[n]).reserved) ∧
  ((∃ row ∈ (s.patterns[n]).mask, ∃ c ∈ row, c ≠ .outside) →
    outcome = (if (s.patterns[n]).mask.length = (s.patterns[n]).h then 0 else 1) ∧
    height = (s.patterns[n]).mask.length ∧
    t.patterns[n] = { s.patterns[n] with
      state := .ready, h := (s.patterns[n]).mask.length,
      covered := ((s.patterns[n]).mask.map fun row => row.countP fun c => c ≠ .outside).sum,
      reserved := (s.patterns[n]).w * (s.patterns[n]).mask.length } ∧
    t.freeCells + (s.patterns[n]).w * (s.patterns[n]).mask.length =
      s.freeCells + (s.patterns[n]).w * (s.patterns[n]).h) ∧
  ∀ m : PatNo, m ≠ n → t.patterns[m] = s.patterns[m]

end Sys2Proof.Machine
end

