-- ==== Sys2Proof/Certificates/Slice0/Obligations.lean ====
section
/-!
DEFINITION. The statements for the provers.
-/

open Sys2Proof Sys2Proof.Machine

/-! ### The queue and the step -/

/-- A step takes the command at the front of the queue and runs it on the state with the queue's rest. -/
def Obligations.StepRunsFrontCommand : Prop :=
  ∀ (c : Instr) (rest : List Instr) (s : State),
    step { s with pending := c :: rest } = exec c { s with pending := rest }

/-- On an empty queue a step puts the expiry of a timer that has reached its limit into the queue, and lets 100 µs pass
when no timer has (the model's choice, log 4).
The timers: a holdoff timer, the gate's hold timer, a claim timer, a debounce candidate, a minimum pulse hold and the gap
within a frame. One is due exactly when some timer has reached its limit, and is such a one. When time passes each of
them that runs is one step on, and nothing else changes.
Every command answers a next state and leaves the queue to the step; that an event which cannot happen as things stand
changes nothing is the model's choice (log 2). -/
def Obligations.TimePassesAndEveryCommandAnswers : Prop :=
  (∀ s : State, s.pending = [] →
    (s.due = none → step s = .next s.advance) ∧ (∀ c, s.due = some c → step s = .next { s with pending := [c] })) ∧
  (∀ s : State, (s.due = none ↔ ∀ c, ¬ s.ripe c) ∧ ∀ c, s.due = some c → s.ripe c) ∧
  (∀ s : State,
    s.advance = { s with
      notices := s.advance.notices, gate := { s.gate with timer := s.advance.gate.timer }, heads := s.advance.heads,
      lines := s.advance.lines, ports := s.advance.ports } ∧
    (∀ p : Port, s.advance.notices[p] = { s.notices[p] with
      timer := (match (s.notices[p]).timer with
        | .idle => .idle | .running e => .running (e + 1) | .expired => .expired) }) ∧
    (s.gate.timer = none → s.advance.gate.timer = none) ∧
    (∀ x, s.gate.timer = some x → s.advance.gate.timer = some { elapsed := x.elapsed + 1, limit := x.limit }) ∧
    (∀ h : Head, s.advance.heads[h] = { s.heads[h] with timer := (s.heads[h]).timer.map fun e => e + 1 }) ∧
    (∀ l : LineNo, s.advance.lines[l] = { s.lines[l] with
      work := (match (s.lines[l]).work with
        | .input d none => .input d none
        | .input d (some c) => .input d (some { level := c.level, elapsed := c.elapsed + 1 })
        | .output d none => .output d none
        | .output d (some h) => .output d (some { pending := h.pending, elapsed := h.elapsed + 1, width := h.width })) }) ∧
    ∀ p : Port, ((s.ports[p]).receiver = .hunting → s.advance.ports[p] = s.ports[p]) ∧
      ((s.ports[p]).receiver ≠ .hunting → s.advance.ports[p] = { s.ports[p] with gap := (s.ports[p]).gap + 1 })) ∧
  ∀ (c : Instr) (s : State), ∃ t, exec c s = .next t ∧ t.pending = s.pending

/-! ### Reset -/

/-- The values right after power-up that the chapters give, and with them the model's own: the pass FIRST of every rule
entry, which R32 leaves open (log 27), and, in the state as a whole, the cells at their reset value while the test runs
(log 5) and pins and encoder inputs at 0 (log 6).
The rules: R13, R31, R32, R34, R41, R55, R70, R72, R97, R115, R120, R134, R136, R142, R160, R169, R178, R180, R182.
The fields of an entry, a record, a context and a notice unit at reset are spelled out first; no pair is marked no-fit.
POWER_UP answers the state right after power-up, with the queue and the outside's levels as they were (log 7);
every line is an input without a function whose debounced level is its pin's. -/
def Obligations.PowerUpGivesResetState : Prop :=
  (RuleEntry.reset =
      { valid := false, pass := .first, link := { value := 0, mask := 0 }, category := { value := 0, mask := 0 },
        ladder := { value := 0, mask := 0 }, source := { value := 0, mask := 0 }, shape := { value := 0, mask := 0 },
        anchor := { value := 0, mask := 0 }, ranges := { value := 0, mask := 0 },
        action := { cls := none, margin := none, cap := none, next := none, ignore := false } } ∧
    Pattern.reset =
      { state := .empty, w := 0, h := 0, mask := [], kind := 0, face := { minGrade := 0, tolerated := 0 },
        hidden := { minGrade := 0, tolerated := 0 }, edge := { minGrade := 0, tolerated := 0 }, orients := 0,
        covered := 0, reserved := 0, refs := 0 } ∧
    HideContext.reset =
      { state := .empty, aborted := false, drainCause := none, article := 0, width := 0, height := 0, rank := none,
        registered := false, count := 0, frontier := 0, commits := 0 } ∧
    NoticeUnit.reset =
      { pending := 0, enabled := 0, count := 0, holdoff := 0, threshold := 0, timer := .idle, attention := false }) ∧
  (State.reset.condition = .starting ∧ State.reset.mismatches = 0 ∧
  State.reset.flaws = Vector.replicate 2 [] ∧ State.reset.jobs = [] ∧ State.reset.inFlight = none ∧
  (∀ i : Fin 128, State.reset.rules[i] = RuleEntry.reset ∧ State.reset.patterns[i] = Pattern.reset) ∧
  (∀ i : Fin 8, State.reset.ranges[i] = { quantity := .disabled, low := 0, high := 0 }) ∧
  State.reset.classDefaults = { cls := 0, margin := 1, cap := none } ∧ (∀ i : Fin 16, State.reset.links[i] = 0) ∧
  State.reset.freeCells = 262144 ∧ State.reset.entries = [] ∧ State.reset.postCounter = 0 ∧
  State.reset.searchUnit = .idle ∧ State.reset.windowShort = false ∧
  State.reset.weights = { lead := 16, premium := 4, contact := 8 } ∧
  (∀ n : SlotNo, State.reset.slots[n] = none) ∧ State.reset.withdrawn = [] ∧
  (∀ k : Ctx, State.reset.ctxs[k] = HideContext.reset ∧ State.reset.marks[k] = 0) ∧
  State.reset.conveyor.factor = 8192 ∧ State.reset.conveyor.separation = 16 ∧ State.reset.conveyor.guardCells = 8 ∧
  State.reset.conveyor.claimLimit = 50 ∧
  (∀ h : Head, State.reset.conveyor.reach[h] = { present := false, start := 0, length := 1 }) ∧
  State.reset.gate = { holding := false, armed := true, hold := 0, release := 1, holdLimit := 0, timer := none } ∧
  (∀ h : Head, State.reset.heads[h] = { state := .offline, held := [], timer := none, interlock := .active }) ∧
  State.reset.encErrors = 0 ∧
  (∀ p : Port, State.reset.notices[p] = NoticeUnit.reset) ∧
  (∀ p : Port, (State.reset.ports[p]).receiver = .hunting ∧ (State.reset.ports[p]).owed = none)) ∧
  (∀ s : State, ∃ t, exec .powerUp s = .next t ∧
    t = { State.reset with pending := s.pending, lines := t.lines, encA := s.encA, encB := s.encB } ∧
    ∀ l : LineNo, t.lines[l] =
      { invert := false, debounce := 0, function := .none, source := .constant false, width := 0,
        work := .input (s.lines[l]).pin none, applied := false, pendingStaged := none, pin := (s.lines[l]).pin })

/-! ### Part condition and map test -/

/-- MAP TEST, taken in READY or FAILED with both contexts EMPTY, starts a test; its reply is owed and not yet
decided. With a context that is not EMPTY it is refused STATE.
A map test's end: both planes at their reset value, the count stored, READY with a count of 0 and FAILED with PART
FAULT raised above it, and the reply to MAP TEST decided if it is owed.
The count is of the cells of both planes with some read-back that differs from what a pattern wrote, at most 65535; the
four patterns have the properties R14 gives them.
That the read-backs are the event's operand, and what the patterns hold beyond those properties, is the model's choice
(log 22). -/
def Obligations.MapTestStartsAndEnds : Prop :=
  (∀ s : State, (s.ports[(0 : Port)]).owed = none → (s.condition = .ready ∨ s.condition = .failed) →
    (∀ k : Ctx, (s.ctxs[k]).state = .empty) →
    ∃ t, exec (.mapTest 0 []) s = .next t ∧ t.condition = .testing ∧ (t.ports[(0 : Port)]).owed = some .mapTest ∧
      (∀ q : Port, q ≠ 0 → t.ports[q] = s.ports[q]) ∧
      t = { s with condition := t.condition, ports := t.ports, lines := t.lines }) ∧
  (∀ s : State, (s.ports[(0 : Port)]).owed = none → (s.condition = .ready ∨ s.condition = .failed) →
    (∃ k : Ctx, (s.ctxs[k]).state ≠ .empty) → exec (.mapTest 0 []) s = .next (s.refused .mapTest 0 .state)) ∧
  (∀ (rs : List ReadBack) (s : State), (s.condition = .starting ∨ s.condition = .testing) →
    ∃ t, exec (.mapTestCompletion rs) s = .next t ∧
      (∀ (k : Ctx) (x y : Nat), t.cell k x y = { base := 0, cap := 7, classes := 0, occupant := none }) ∧
      t.mismatches = mismatchCount rs ∧
      t.condition = (if mismatchCount rs = 0 then .ready else .failed) ∧
      (∀ p : Port, t.notices[p] =
        (s.notices[p]).set p (if p = 0 ∧ 0 < mismatchCount rs then Notice.bit .partFault else 0)) ∧
      ((s.ports[(0 : Port)]).owed = some .mapTest →
        (t.ports[(0 : Port)]).owed =
          some (.reply { kind := 0x11, refusal := none, payload := enc2 (mismatchCount rs) })) ∧
      ((s.ports[(0 : Port)]).owed ≠ some .mapTest → t.ports = s.ports) ∧
      t = { s with planes := t.planes, mismatches := t.mismatches, condition := t.condition, ports := t.ports,
                   lines := t.lines, notices := t.notices }) ∧
  (∀ rs : List ReadBack, mismatchCount rs = min 65535
    (((List.finRange 2).flatMap fun k => (List.finRange 768).flatMap fun x => (List.finRange 512).map fun y =>
      (k, x, y)).countP fun c => rs.any fun r => decide (r.plane = c.1) && decide (r.column = c.2.1) &&
        decide (r.row = c.2.2) && decide (r.cell ≠ writtenCell r.pattern r.plane r.column r.row))) ∧
  ∀ (k : Ctx) (x y : Nat),
    writtenCell .alternating k (x + 1) y = writtenCell .invertedAlternating k x y ∧
    writtenCell .alternating k x (y + 1) = writtenCell .invertedAlternating k x y ∧
    writtenCell .invertedAlternating k x y =
      { base := ~~~(writtenCell .alternating k x y).base, cap := ~~~(writtenCell .alternating k x y).cap,
        classes := ~~~(writtenCell .alternating k x y).classes,
        occupant := ~~~(writtenCell .alternating k x y).occupant } ∧
    (∀ d, 1 ≤ d → d < 8 → ∀ c ∈ [writtenCell .addressDerived k (x + d) y, writtenCell .addressDerived k x (y + d)],
      c.base ≠ (writtenCell .addressDerived k x y).base ∧ c.cap ≠ (writtenCell .addressDerived k x y).cap ∧
      c.classes ≠ (writtenCell .addressDerived k x y).classes ∧
      c.occupant ≠ (writtenCell .addressDerived k x y).occupant) ∧
    writtenCell .allOnes k x y = { base := 0x7, cap := 0x7, classes := 0xFF, occupant := 0x1FF }

/-- PART RESET, taken in READY: working state at its reset values, the cells that a LOADING record held given back, every
port's pending flags cleared and its level flags judged again, of which none holds after it; the settings kept. -/
def Obligations.PartResetResets : Prop :=
  ∀ s : State, s.takes 0 →
    ∃ t, exec (.partReset 0 []) s = .next t ∧ s.repliedFrom t .partReset 0 [] ∧
      (∀ k : Ctx, t.planes[k] = [] ∧ t.flaws[k] = [] ∧ t.ctxs[k] = HideContext.reset ∧ t.marks[k] = 0) ∧
      t.jobs = [] ∧ t.inFlight = none ∧ t.entries = [] ∧ t.postCounter = 0 ∧ t.searchUnit = .idle ∧
      t.windowShort = false ∧ (∀ n : SlotNo, t.slots[n] = none) ∧ t.withdrawn = [] ∧ t.encErrors = 0 ∧
      (∀ h : Head, t.heads[h] =
        { state := .offline, held := [], timer := none, interlock := (s.heads[h]).interlock }) ∧
      t.gate = { s.gate with holding := false, armed := false, timer := none } ∧
      (∀ n : PatNo, t.patterns[n] =
        if (s.patterns[n]).state = .loading then Pattern.reset else { s.patterns[n] with refs := 0 }) ∧
      t.freeCells = s.freeCells +
        (s.patterns.toList.map fun p => if p.state = .loading then p.reserved else 0).sum ∧
      (∀ p : Port, t.levelFlags p = 0 ∧ t.notices[p] =
        { s.notices[p] with pending := t.levelFlags p, count := 0, timer := .idle, attention := false }) ∧
      (∀ l : LineNo, t.lines[l] = { s.lines[l] with
        work := driveWork (s.lines[l]).work (t.requested t.lines[l]) (s.lines[l]).width, pendingStaged := none }) ∧
      t.condition = s.condition ∧ t.mismatches = s.mismatches ∧ t.rules = s.rules ∧ t.ranges = s.ranges ∧
      t.classDefaults = s.classDefaults ∧ t.links = s.links ∧ t.weights = s.weights ∧ t.conveyor = s.conveyor ∧
      t.encA = s.encA ∧ t.encB = s.encB

/-! ### Reads -/

/-- PART STATUS, accepted on every port in every condition, and NOTICE READ and LINE STATUS, taken in READY and FAILED,
answer at once and change nothing but the port; in STARTING every group of PART STATUS but the first shows power-up
values.
The groups of PART STATUS: search, context, head. The bytes of LINE STATUS: for each line its configuration, the pin
level, the levels of its direction and its staged values, absent where the line does not have them; then the encoder
inputs, the error count and the interlock views.
PLACEMENT READ, on any port, in READY and FAILED: the record of 25 bytes, 0 in every byte for a FREE slot, then the place
in the withdrawn list and the list's length.
The codes that names have in every payload, and the bytes of numbers, flags, values that may be absent and slots.
Where R188 and R190 leave a reply's bytes open they are the model's reading: the codes of drain cause and open
rank (log 9), the search fields (log 10), a line's fields (logs 14, 20, 25), a held list's places (log 15), a place in
the withdrawn list (log 17). -/
def Obligations.StatusAndPlacementReadsReply : Prop :=
  ([Condition.starting, .testing, .ready, .failed].map Condition.code = [0, 1, 2, 3] ∧
    SearchState.idle.code = 0 ∧ (∀ q, (SearchState.searching q).code = 1) ∧ (∀ q, (SearchState.stalled q).code = 2) ∧
    [CtxState.empty, .opened, .draining, .closed].map CtxState.code = [0, 1, 2, 3] ∧
    [none, some DrainCause.request, some .exhausted].map drainCode = [255, 0, 1] ∧
    [none, some Rank.first, some .second].map rankCode = [255, 0, 1] ∧
    [HeadState.offline, .ready, .fault].map HeadState.code = [0, 1, 2] ∧
    [Interlock.active, .inactive].map Interlock.code = [0, 1] ∧
    HoldoffTimer.idle.code = 0 ∧ (∀ n, (HoldoffTimer.running n).code = 1) ∧ HoldoffTimer.expired.code = 2 ∧
    [FlawState.pending, .applied, .ignored, .withdrawing, .withdrawn].map FlawState.code = [0, 1, 2, 3, 4] ∧
    [Source.scanner, .operator].map Source.code = [0, 1] ∧
    (∀ x y r, (Shape.disc x y r).code = 0) ∧ (∀ a b c d, (Shape.box a b c d).code = 1) ∧
    (∀ pts w, (Shape.stroke pts w).code = 2) ∧
    [Pass.first, .second].map Pass.code = [0, 1] ∧
    [Quantity.extent, .area, .severity, .anchorGrade, .disabled].map Quantity.code = [0, 1, 2, 3, 4] ∧
    [PatternState.empty, .loading, .ready].map PatternState.code = [0, 1, 2] ∧
    [Region.outside, .face, .hidden, .edge].map Region.code = [0, 1, 2, 3] ∧
    (∀ n, (regionOf n).code = n % 4) ∧
    [Hand.left, .right, .any].map Hand.code = [0, 1, 2] ∧
    [EntryState.opened, .satisfied, .cancelled].map EntryState.code = [0, 1, 2] ∧
    [PlacementState.placed, .claimed, .cutting, .cut, .spoiled, .missed, .withdrawn].map PlacementState.code =
      [1, 2, 3, 4, 5, 6, 7] ∧
    [none, some Cause.lateFlaw, some .gradeChange, some .leftReach, some .headFault, some .pieceFault,
      some .headOffline, some .cancelled, some .request, some .hideAborted].map causeCode =
      [0, 1, 2, 3, 4, 5, 6, 7, 8, 9] ∧
    headCode none = 0 ∧ (∀ h, headCode (some h) = h.val + 1) ∧
    [InputFunction.none, .hideEdge, .gateRelease, .interlock 0, .interlock 1].map InputFunction.code =
      [0, 1, 2, 3, 4] ∧
    (∀ v, (OutputSource.constant v).code = 0) ∧ OutputSource.staged.code = 1 ∧ OutputSource.gateHold.code = 2 ∧
    (∀ p, (OutputSource.attention p).code = 3) ∧ (∀ h, (OutputSource.workAvailable h).code = 4) ∧
    (∀ k, (OutputSource.hideOpen k).code = 5) ∧
    [OutputSource.fault, .searchBusy, .partReady].map OutputSource.code = [6, 7, 8] ∧
    [Code.check, .unknown, .length, .role, .busy, .state, .range, .full, .notFound, .inUse, .noneReady,
      .notHeld].map Code.number = [1, 2, 3, 4, 5, 6, 7, 8, 9, 10, 11, 12]) ∧
  ((∀ (pl : List Byte) (i : Nat), u16 pl i = u8 pl i + 256 * u8 pl (i + 1)) ∧
    (∀ n, n < 256 → ∃ a : Byte, enc1 n = [a] ∧ a.toNat = n) ∧
    (∀ n, n < 65536 → ∃ a b : Byte, enc2 n = [a, b] ∧ a.toNat + 256 * b.toNat = n) ∧
    (∀ n, n < 16777216 → ∃ a b c : Byte, enc3 n = [a, b, c] ∧ a.toNat + 256 * b.toNat + 65536 * c.toNat = n) ∧
    (∀ n, n < 4294967296 → ∃ a b c d : Byte,
      enc4 n = [a, b, c, d] ∧ a.toNat + 256 * b.toNat + 65536 * c.toNat + 16777216 * d.toNat = n) ∧
    (∀ z : Int, encS2 z = enc2 (z % 65536).toNat ∧ encS4 z = enc4 (z % 4294967296).toNat) ∧
    encFlag false = enc1 0 ∧ encFlag true = enc1 1 ∧ encOpt none = [255] ∧ (∀ n, encOpt (some n) = enc1 n) ∧
    encSlot? none = [255, 255] ∧ ∀ n : SlotNo, encSlot? (some n) = enc2 n.val) ∧
  (∀ (p : Port) (s : State), (s.ports[p]).owed = none →
    exec (.partStatus p []) s = .next (s.answered .partStatus p s.statusBytes) ∧
    (s.condition = .ready ∨ s.condition = .failed →
      exec (.noticeRead p []) s = .next (s.answered .noticeRead p
        (enc2 (s.notices[p]).pending.toNat ++ enc2 (s.notices[p]).enabled.toNat ++ enc1 (s.notices[p]).count ++
          enc1 (s.notices[p]).holdoff ++ enc1 (s.notices[p]).threshold ++ enc1 (s.notices[p]).timer.code ++
          encFlag (s.notices[p]).attention)) ∧
      exec (.lineStatus p []) s = .next (s.answered .lineStatus p
        ((s.lines.toList.flatMap fun l => s.lineBytes l) ++ encFlag s.encA ++ encFlag s.encB ++ enc1 s.encErrors ++
          enc1 (s.heads[(0 : Head)]).interlock.code ++ enc1 (s.heads[(1 : Head)]).interlock.code)))) ∧
  (∀ s : State,
    (s.condition = .starting → s.statusBytes = [0] ++ enc2 s.mismatches ++ [0, 255, 255, 255] ++
      ([0, 0, 255, 255, 0] ++ List.replicate 6 0) ++ ([0, 0, 255, 255, 0] ++ List.replicate 6 0) ++ [0, 1] ++
      ([0] ++ List.replicate 6 255 ++ [0, 0]) ++ ([0] ++ List.replicate 6 255 ++ [0, 0]) ++ [0]) ∧
    (s.condition ≠ .starting → s.statusBytes = enc1 s.condition.code ++ enc2 s.mismatches ++ s.searchUnit.bytes ++
      s.ctxBytes 0 ++ s.ctxBytes 1 ++ encFlag s.gate.holding ++ encFlag s.gate.armed ++ s.headBytes 0 ++
      s.headBytes 1 ++ enc1 s.encErrors) ∧
    (s.searchUnit = .idle → s.searchUnit.bytes = [0, 255, 255, 255]) ∧
    (∀ q, s.searchUnit = .searching q →
      s.searchUnit.bytes = [1] ++ enc1 q.pair.tag.val ++ enc1 q.pair.ctx.val ++ enc1 q.retry) ∧
    (∀ q, s.searchUnit = .stalled q → s.searchUnit.bytes = [2] ++ enc1 q.tag.val ++ enc1 q.ctx.val ++ [0]) ∧
    (∀ k : Ctx, s.ctxBytes k = enc1 (s.ctxs[k]).state.code ++ encFlag (s.ctxs[k]).aborted ++
      enc1 (match (s.ctxs[k]).drainCause with | none => 255 | some .request => 0 | some .exhausted => 1) ++
      enc1 (match (s.ctxs[k]).rank with | none => 255 | some .first => 0 | some .second => 1) ++
      encFlag (s.ctxs[k]).registered ++ enc2 (s.ctxs[k]).frontier ++
      enc2 (if (s.ctxs[k]).registered then s.travel k else 0) ++ enc2 (s.floor k)) ∧
    (∀ h : Head, s.headBytes h = enc1 (s.heads[h]).state.code ++
      ([0, 1].flatMap fun (i : Nat) => match ((s.heads[h]).held)[i]? with
        | none => enc2 65535 ++ [255]
        | some x => enc2 x.slot.val ++ enc1 (((s.slots[x.slot]).map fun r => r.state.code).getD 0)) ++
      enc1 (s.heads[h]).interlock.code ++ encFlag (s.workAvailable h))) ∧
  (∀ (s : State) (l : Line), s.lineBytes l =
    (match l.work with | .input _ _ => [0] | .output _ _ => [1]) ++ encFlag l.invert ++ enc1 l.debounce ++
      enc1 l.function.code ++ enc1 l.source.code ++
      enc1 (match l.source with
        | .constant v => if v then 1 else 0
        | .staged => if l.applied then 1 else 0
        | .attention p => p.val
        | .workAvailable h => h.val + 1
        | .hideOpen k => k.val
        | .gateHold | .fault | .searchBusy | .partReady => 0) ++
      enc1 l.width ++
      (match l.work with
        | .input d c => encFlag l.pin ++ encFlag d ++ encFlag c.isSome ++ [255, 255, 255]
        | .output d h => encFlag d ++ [255, 255] ++ encFlag (xor (s.sourceValue l.applied l.source) l.invert) ++
            encFlag d ++ encFlag h.isSome) ++
      (if l.source = .staged then
        encFlag l.applied ++ (match l.pendingStaged with | none => [255] | some v => encFlag v)
       else [255, 255])) ∧
  (∀ (s : State) (n : SlotNo),
    (n ∉ s.withdrawn → s.withdrawnPosition n = 65535) ∧
    (∀ before after, s.withdrawn = before ++ n :: after → n ∉ before → s.withdrawnPosition n = before.length)) ∧
  (∀ (p : Port) (pl : List Byte) (s : State) (n : SlotNo), s.takesRead p → pl.length = 1 → u8 pl 0 = n.val →
    (s.slots[n] = none → exec (.placementRead p pl) s = .next (s.answered .placementRead p
      (List.replicate 25 0 ++ enc2 (s.withdrawnPosition n) ++ enc2 s.withdrawn.length))) ∧
    ∀ r : Placement, s.slots[n] = some r →
      exec (.placementRead p pl) s = .next (s.answered .placementRead p
        (enc1 n.val ++ enc1 r.state.code ++ enc1 r.ctx.val ++ enc1 r.tag.val ++ enc1 r.pattern.val ++
          enc1 r.orient.val ++ enc2 r.xlo ++ enc2 r.ylo ++ enc1 r.wo ++ enc1 r.ho ++ enc2 (r.xlo + r.wo - 1) ++
          enc2 r.covered ++ encS4 r.score ++ enc2 r.commitNo.toNat ++ enc1 (headCode r.head) ++ encFlag r.tainted ++
          enc1 (causeCode r.cause) ++ enc2 (s.withdrawnPosition n) ++ enc2 s.withdrawn.length)))

/-- MAP READ, in READY and FAILED: its checks in order, and for each cell of the row its effective grade, class set and occupant. -/
def Obligations.MapReadReplies : Prop :=
  ∀ (p : Port) (pl : List Byte) (s : State), s.takesRead p → (p = 0 ∨ p = 1) → pl.length = 6 →
    (1 < u8 pl 0 → exec (.mapRead p pl) s = .next (s.refused .mapRead p .range)) ∧
    ∀ k : Ctx, u8 pl 0 = k.val →
      ((s.ctxs[k]).state = .empty → exec (.mapRead p pl) s = .next (s.refused .mapRead p .state)) ∧
      ((s.ctxs[k]).state ≠ .empty →
        ((s.ctxs[k]).height ≤ u16 pl 1 ∨ (s.ctxs[k]).width ≤ u16 pl 3 ∨ u8 pl 5 = 0 ∨ 48 < u8 pl 5 →
          exec (.mapRead p pl) s = .next (s.refused .mapRead p .range)) ∧
        (u16 pl 1 < (s.ctxs[k]).height → u16 pl 3 < (s.ctxs[k]).width → 1 ≤ u8 pl 5 → u8 pl 5 ≤ 48 →
          exec (.mapRead p pl) s = .next (s.answered .mapRead p
            (enc1 k.val ++ enc2 (u16 pl 1) ++ enc2 (u16 pl 3) ++ enc1 (min (u8 pl 5) ((s.ctxs[k]).width - u16 pl 3)) ++
              (List.range (min (u8 pl 5) ((s.ctxs[k]).width - u16 pl 3))).flatMap fun i =>
                enc1 (min (s.cell k (u16 pl 3 + i) (u16 pl 1)).base.val (s.cell k (u16 pl 3 + i) (u16 pl 1)).cap.val) ++
                  [(s.cell k (u16 pl 3 + i) (u16 pl 1)).classes] ++
                  encSlot? (s.cell k (u16 pl 3 + i) (u16 pl 1)).occupant))))

/-- Each of these reads is taken in READY and FAILED.
HIDE REPORT and FLAW READ, of a context that is not EMPTY, answer at once and change nothing but the port; each
refuses in its order a context number above 1, an EMPTY context and, for a flaw, a number above 511 and one not yet given
out.
The bytes of a hide report and of a flaw record, field by field. The figures of a hide report: usable cells, utilisation
in parts per thousand, cut area in 0.01 dm².
Where R188 leaves the bytes of a flaw reply open they are the model's reading (log 11).
LIBRARY READ: the record form of any record, field by field, and the mask form of a record with the start row among the
rows received; a pattern number above 127 or a selector above 1 is refused.
DEMAND READ: the entry that holds a tag, or the order of the queue. -/
def Obligations.HideLibraryAndDemandReadsReply : Prop :=
  ((∀ (p : Port) (pl : List Byte) (s : State), (p = 0 ∨ p = 1) → s.takesRead p → pl.length = 1 →
    (1 < u8 pl 0 → exec (.hideReport p pl) s = .next (s.refused .hideReport p .range)) ∧
    ∀ k : Ctx, u8 pl 0 = k.val →
      ((s.ctxs[k]).state = .empty → exec (.hideReport p pl) s = .next (s.refused .hideReport p .state)) ∧
      ((s.ctxs[k]).state ≠ .empty → exec (.hideReport p pl) s = .next (s.answered .hideReport p
        (enc1 k.val ++ enc1 (s.ctxs[k]).state.code ++ encFlag (s.ctxs[k]).aborted ++ enc2 (s.ctxs[k]).width ++
          enc2 (s.ctxs[k]).height ++ enc2 (s.ctxs[k]).commits.toNat ++
          ([PlacementState.placed, .claimed, .cutting, .cut, .spoiled, .missed, .withdrawn].flatMap fun st =>
            enc2 (s.records.countP fun r => r.2.ctx = k && r.2.state = st)) ++
          enc3 (s.usable k) ++ enc3 (s.cutCells k) ++ enc2 (utilisation (s.usable k) (s.cutCells k)) ++
          enc2 (cutArea (s.cutCells k)))))) ∧
  (∀ (pl : List Byte) (s : State), s.takesRead 1 → pl.length = 3 →
    (1 < u8 pl 0 → exec (.flawRead 1 pl) s = .next (s.refused .flawRead 1 .range)) ∧
    ∀ k : Ctx, u8 pl 0 = k.val →
      ((s.ctxs[k]).state = .empty → exec (.flawRead 1 pl) s = .next (s.refused .flawRead 1 .state)) ∧
      ((s.ctxs[k]).state ≠ .empty →
        (511 < u16 pl 1 → exec (.flawRead 1 pl) s = .next (s.refused .flawRead 1 .range)) ∧
        (u16 pl 1 ≤ 511 → (s.flaws[k]).length ≤ u16 pl 1 →
          exec (.flawRead 1 pl) s = .next (s.refused .flawRead 1 .notFound)) ∧
        (u16 pl 1 ≤ 511 → ∀ f, (s.flaws[k])[u16 pl 1]? = some f →
          exec (.flawRead 1 pl) s = .next (s.answered .flawRead 1
            (enc2 (u16 pl 1) ++ enc1 f.category ++ enc1 f.severity ++
              (match f.source with | .scanner => [0] | .operator => [1]) ++
              (match f.shape with
                | .disc cx cy r => [0] ++ encS2 cx ++ encS2 cy ++ enc1 r
                | .box x1 y1 x2 y2 => [1] ++ encS2 x1 ++ encS2 y1 ++ encS2 x2 ++ encS2 y2
                | .stroke pts hw => [2] ++ enc1 hw ++ enc1 pts.length ++ pts.flatMap fun a => encS2 a.1 ++ encS2 a.2) ++
              enc1 f.state.code ++
              (match f.classified with
                | none => [255, 255, 255, 255, 255, 255, 255, 255]
                | some c => enc1 c.cls.val ++ enc1 c.margin ++ encOpt (c.cap.map fun g => g.val) ++ enc2 c.extent ++
                    enc3 c.area) ++
              enc2 (s.flaws[k]).length ++ enc1 (s.jobCode k (u16 pl 1))))) ∧
        ∀ n : Nat, s.jobCode k n =
          if ∃ j ∈ s.jobs, j.ctx = k ∧ j.flaw = n then 0
          else if ∃ j, s.inFlight = some j ∧ j.ctx = k ∧ j.flaw = n then 1 else 2)) ∧
  ((∀ usable cut : Nat, utilisation usable cut = if usable = 0 then 0 else (1000 * cut + usable / 2) / usable) ∧
  (∀ cut : Nat, cutArea cut = (cut * 16 + 50) / 100) ∧
  utilisation 120000 84317 = 703 ∧ cutArea 84317 = 13491 ∧
  (∀ (s : State) (k : Ctx), s.cutCells k =
    (((s.records.filter fun r => r.2.ctx = k && r.2.state = .cut).map fun r => r.2.covered).sum)) ∧
  ∀ (s : State) (k : Ctx), s.usable k = (mapCells (s.ctxs[k]).width (s.ctxs[k]).height).countP fun xy =>
    decide (1 ≤ min (s.cell k xy.1 xy.2).base.val (s.cell k xy.1 xy.2).cap.val))) ∧
  (∀ (pl : List Byte) (s : State), s.takesRead 0 → pl.length = 3 → (127 < u8 pl 0 ∨ 1 < u8 pl 1) →
    exec (.libraryReadRecord 0 pl) s = .next (s.refused .libraryRead 0 .range) ∧
    exec (.libraryReadMask 0 pl) s = .next (s.refused .libraryRead 0 .range)) ∧
  (∀ s : State, ((∀ n : PatNo, (s.patterns[n]).state ≠ .loading) → s.loading? = none) ∧
    ∀ n : PatNo, (s.patterns[n]).state = .loading → (∀ m : PatNo, m < n → (s.patterns[m]).state ≠ .loading) →
      s.loading? = some n) ∧
  (∀ (pl : List Byte) (s : State) (n : PatNo), s.takesRead 0 → pl.length = 3 → u8 pl 0 = n.val →
    (u8 pl 1 = 0 → exec (.libraryReadRecord 0 pl) s = .next (s.answered .libraryRead 0
      (enc1 (s.patterns[n]).state.code ++ enc1 (s.patterns[n]).w ++ enc1 (s.patterns[n]).h ++
        enc1 (s.patterns[n]).mask.length ++ enc1 (s.patterns[n]).kind ++
        enc1 (s.patterns[n]).face.minGrade ++ [(s.patterns[n]).face.tolerated] ++
        enc1 (s.patterns[n]).hidden.minGrade ++ [(s.patterns[n]).hidden.tolerated] ++
        enc1 (s.patterns[n]).edge.minGrade ++ [(s.patterns[n]).edge.tolerated] ++ [(s.patterns[n]).orients] ++
        enc2 (s.patterns[n]).covered ++ enc2 (s.patterns[n]).reserved ++ enc2 (s.patterns[n]).refs ++
        enc3 s.freeCells ++ (match s.loading? with | none => [255] | some m => enc1 m.val)))) ∧
    (u8 pl 1 = 1 →
      ((s.patterns[n]).state = .empty → exec (.libraryReadMask 0 pl) s = .next (s.refused .libraryRead 0 .state)) ∧
      ((s.patterns[n]).state ≠ .empty → (s.patterns[n]).mask.length ≤ u8 pl 2 →
        exec (.libraryReadMask 0 pl) s = .next (s.refused .libraryRead 0 .range)) ∧
      ((s.patterns[n]).state ≠ .empty → u8 pl 2 < (s.patterns[n]).mask.length →
        ∃ rows, rows = min ((s.patterns[n]).mask.length - u8 pl 2) (237 / rowBytes (s.patterns[n]).w) ∧
          exec (.libraryReadMask 0 pl) s = .next (s.answered .libraryRead 0
            (enc1 n.val ++ enc1 (u8 pl 2) ++ enc1 rows ++
              (((s.patterns[n]).mask.drop (u8 pl 2)).take rows).flatMap (packRow (s.patterns[n]).w)))))) ∧
  (∀ (s : State) (before after : List Entry) (x : Entry), s.entries = before ++ x :: after →
    (∀ y ∈ before, y.tag ≠ x.tag) → s.position x.tag = before.length) ∧
  ∀ (pl : List Byte) (s : State), s.takesRead 0 → pl.length = 1 →
    (∀ (t : Tag) (x : Entry), u8 pl 0 = t.val → s.entry? t = some x →
      exec (.demandReadEntry 0 pl) s = .next (s.answered .demandRead 0
        (enc1 x.tag.val ++ enc2 x.postNumber.toNat ++ enc1 x.pattern.val ++ enc1 x.hand.code ++ enc1 x.requested ++
          encFlag x.rush ++ enc1 x.state.code ++ enc1 x.live ++ enc1 x.cut ++ enc1 x.spoiled ++ enc2 x.holders ++
          enc1 (x.requested - x.cut - x.live) ++ encFlag x.eligible ++ enc1 (s.position x.tag)))) ∧
    (∀ t : Tag, u8 pl 0 = t.val → s.entry? t = none →
      exec (.demandReadEntry 0 pl) s = .next (s.refused .demandRead 0 .notFound)) ∧
    (u8 pl 0 = 64 → exec (.demandReadList 0 pl) s = .next (s.answered .demandRead 0
      (enc1 s.entries.length ++ enc1 (s.entries.countP fun x => x.rush) ++ enc2 s.postCounter.toNat ++
        s.entries.flatMap fun x => enc1 x.tag.val))) ∧
    (64 < u8 pl 0 → exec (.demandReadList 0 pl) s = .next (s.refused .demandRead 0 .range))

/-! ### Notices -/

/-- NOTICE CLEAR: a flag the port does not have is refused; otherwise the named flags are cleared but for level flags
whose condition holds, and with no enabled flag pending attention falls, the count is 0 and the timer IDLE.
A holdoff timer's expiry: the timer is EXPIRED and attention rises if an enabled flag is pending. An expiry acts whatever
time has passed, the model's choice (log 4). -/
def Obligations.NoticeClearAndHoldoff : Prop :=
  (∀ (p : Port) (pl : List Byte) (s : State), s.takes p → pl.length = 2 →
    (flagSet pl 0 &&& ~~~(portFlags p) ≠ 0 → exec (.noticeClear p pl) s = .next (s.refused .noticeClear p .range)) ∧
    (flagSet pl 0 &&& ~~~(portFlags p) = 0 →
      ∃ t, exec (.noticeClear p pl) s = .next t ∧
        (t.notices[p]).pending = (s.notices[p]).pending &&& ~~~(flagSet pl 0 &&& ~~~(s.levelFlags p)) ∧
        ((t.notices[p]).calling = 0 →
          (t.notices[p]).attention = false ∧ (t.notices[p]).count = 0 ∧ (t.notices[p]).timer = .idle) ∧
        ((t.notices[p]).calling ≠ 0 → t.notices[p] = { s.notices[p] with pending := (t.notices[p]).pending }) ∧
        (t.notices[p]).enabled = (s.notices[p]).enabled ∧ (t.notices[p]).holdoff = (s.notices[p]).holdoff ∧
        (t.notices[p]).threshold = (s.notices[p]).threshold ∧
        (∀ q : Port, q ≠ p → t.notices[q] = s.notices[q]) ∧
        s.repliedFrom t .noticeClear p (enc2 (t.notices[p]).pending.toNat ++ encFlag (t.notices[p]).attention) ∧
        t = { s with notices := t.notices, lines := t.lines, ports := t.ports })) ∧
  (∀ (p : Port) (s : State) (e : Nat), (s.notices[p]).timer = .running e →
    ∃ t, exec (.noticeHoldoffExpiry p) s = .next t ∧
      t.notices[p] = { s.notices[p] with
        timer := .expired, attention := (s.notices[p]).attention || decide ((s.notices[p]).calling ≠ 0) } ∧
      (∀ q : Port, q ≠ p → t.notices[q] = s.notices[q]) ∧
      t = { s with notices := t.notices, lines := t.lines })

/-- NOTICE SETUP: a flag the port does not have or an N above 15 is refused; otherwise the enable set, H and N take the
values, and the timer and attention are judged again under them. -/
def Obligations.NoticeSetupJudgesAgain : Prop :=
  ∀ (p : Port) (pl : List Byte) (s : State), s.takes p → pl.length = 4 →
    (flagSet pl 0 &&& ~~~(portFlags p) ≠ 0 ∨ 15 < u8 pl 3 →
      exec (.noticeSetup p pl) s = .next (s.refused .noticeSetup p .range)) ∧
    (flagSet pl 0 &&& ~~~(portFlags p) = 0 → u8 pl 3 ≤ 15 →
      ∃ t, exec (.noticeSetup p pl) s = .next t ∧
        (t.notices[p]).pending = (s.notices[p]).pending ∧ (t.notices[p]).enabled = flagSet pl 0 ∧
        (t.notices[p]).holdoff = u8 pl 2 ∧ (t.notices[p]).threshold = u8 pl 3 ∧
        ((t.notices[p]).calling = 0 →
          (t.notices[p]).attention = false ∧ (t.notices[p]).count = 0 ∧ (t.notices[p]).timer = .idle) ∧
        ((t.notices[p]).calling ≠ 0 →
          (t.notices[p]).count = (s.notices[p]).count ∧
          ((s.notices[p]).timer = .idle → (t.notices[p]).timer = if u8 pl 2 = 0 then .expired else .running 0) ∧
          (∀ e, (s.notices[p]).timer = .running e →
            (t.notices[p]).timer = if u8 pl 2 * 100 ≤ e then .expired else .running e) ∧
          ((s.notices[p]).timer = .expired → (t.notices[p]).timer = .expired) ∧
          ((t.notices[p]).attention = true ↔
            (s.notices[p]).attention = true ∨ (t.notices[p]).calling &&& urgentFlags p ≠ 0 ∨ u8 pl 2 = 0 ∨
            (t.notices[p]).timer = .expired ∨ (0 < u8 pl 3 ∧ u8 pl 3 ≤ (s.notices[p]).count))) ∧
        (∀ q : Port, q ≠ p → t.notices[q] = s.notices[q]) ∧
        s.repliedFrom t .noticeSetup p (enc2 (t.notices[p]).enabled.toNat ++ enc1 (t.notices[p]).holdoff ++
          enc1 (t.notices[p]).threshold ++ enc2 (t.notices[p]).pending.toNat ++ encFlag (t.notices[p]).attention) ∧
        t = { s with notices := t.notices, lines := t.lines, ports := t.ports })

/-- A unit's setting events, which one event has for the flags it raises on a port: each becomes pending; with none of
them enabled nothing else changes; otherwise the count rises by one for each enabled flag that is not urgent, to at most
15, the holdoff timer starts if no enabled flag was pending before, expired at once with H = 0, and the rise test is
made. Which flags are urgent.
Every command that is one event has only such an effect on each unit; an encoder transition has one such effect, or two
one after the other when it changes the cell travel of both contexts.
WORK AVAILABLE: its condition is that the head has an eligible placement; its setting event stands in exactly the event
in which the condition comes to hold, and after a command in which it comes to hold the flag is pending. -/
def Obligations.SettingEventsAndWorkAvailable : Prop :=
  ((∀ (u v : NoticeUnit) (p : Port) (b : FlagSet), v = u.set p b →
    v.pending = u.pending ||| b ∧ v.enabled = u.enabled ∧ v.holdoff = u.holdoff ∧ v.threshold = u.threshold ∧
    (b &&& u.enabled = 0 → v = { u with pending := u.pending ||| b }) ∧
    (b &&& u.enabled ≠ 0 →
      v.count = min 15 (u.count +
        (List.range 16).countP fun i => (b &&& u.enabled &&& ~~~(urgentFlags p)).getLsbD i) ∧
      v.timer = (if u.pending &&& u.enabled ≠ 0 then u.timer else if u.holdoff = 0 then .expired else .running 0) ∧
      (v.attention = true ↔ u.attention = true ∨ v.pending &&& u.enabled &&& urgentFlags p ≠ 0 ∨ u.holdoff = 0 ∨
        v.timer = .expired ∨ (0 < u.threshold ∧ u.threshold ≤ v.count)))) ∧
  (∀ (u : NoticeUnit) (n : Notice), n.bit &&& u.enabled ≠ 0 → n.bit &&& urgentFlags n.port = 0 →
    (u.set n.port n.bit).count = min 15 (u.count + 1)) ∧
  ∀ n : Notice, n.bit &&& urgentFlags n.port ≠ 0 ↔ n = .searchStalled ∨ n = .headFault ∨ n = .partFault ∨
    n = .windowShort ∨ ∃ h, n = .claimLost h ∨ n = .pieceTainted h ∨ n = .cutAborted h) ∧
  (∀ (s : State) (h : Head), s.workAvailable h = true ↔
    ∃ (n : SlotNo) (r : Placement), s.slots[n] = some r ∧ s.eligible h r = true) ∧
  (∀ (c : Instr) (s t : State), isOneEvent c = true → exec c s = .next t → ∀ p : Port, ∃ b : FlagSet,
    t.notices[p] = (s.notices[p]).set p b ∧
    ∀ h, p = headPort h → (b &&& Notice.bit (.workAvailable h) ≠ 0 ↔
      s.workAvailable h = false ∧ t.workAvailable h = true)) ∧
  (∀ (x y : Bool) (s t : State), exec (.encoderTransition x y) s = .next t → ∀ p : Port, ∃ a b : FlagSet,
    t.notices[p] = ((s.notices[p]).set p a).set p b ∧
    ((∃ k : Ctx, s.travel k = t.travel k) → b = 0) ∧
    ∀ h, p = headPort h → s.workAvailable h = false → t.workAvailable h = true →
      (a ||| b) &&& Notice.bit (.workAvailable h) ≠ 0) ∧
  ∀ (c : Instr) (s t : State) (h : Head), exec c s = .next t → s.workAvailable h = false → t.workAvailable h = true →
    t.flagged (.workAvailable h)

/-! ### The Hide Map -/

/-- GRADE RUNS' payload: which bytes give which run, and the runs out of range.
GRADE RUNS refuses in its order a context number above 1, an EMPTY or CLOSED context, a row of H or more and a run out of
range.
GRADE RUNS: the row's cells take the grade of the last run that covers them, clipped to the map; every other base
grade, every cap and every class set is as it was. The reply counts a cell once for each run that wrote it.
The downgrade check: a record some of whose cells in the row fell and no longer meet what its mask requires of them
fails, with cause GRADE_CHANGE; no other record changes. A cell that rose clears the context's no-fit marks.
The entries' counts move by what the check ends: a withdrawn piece lowers live, a spoiled cut piece lowers cut, raises
spoiled and reopens a SATISFIED entry; withdrawn slots join the withdrawn list in ascending order. Nothing of the other
context changes. -/
def Obligations.GradeRunsWriteBaseGrades : Prop :=
  ((∀ pl : List Byte, (runsOf pl).length = (pl.length - 3) / 4 ∧ ∀ i r, (runsOf pl)[i]? = some r →
    r.start = u16 pl (3 + 4 * i) ∧ r.length = u16 pl (5 + 4 * i) % 4096 ∧ r.grade = u16 pl (5 + 4 * i) / 4096) ∧
  (∀ r : GradeRun, r.bad = true ↔ r.length = 0 ∨ 768 < r.length ∨ 7 < r.grade) ∧
  ∀ (w y : Nat) (runs : List GradeRun), cellsWritten w y runs = (runs.map fun r => min r.length (w - r.start)).sum) ∧
  (∀ (pl : List Byte) (s : State), s.takes 1 → Kind.gradeRuns.lengthOk pl = true →
    (1 < u8 pl 0 → exec (.gradeRuns 1 pl) s = .next (s.refused .gradeRuns 1 .range)) ∧
    ∀ k : Ctx, u8 pl 0 = k.val →
      ((s.ctxs[k]).state = .empty ∨ (s.ctxs[k]).state = .closed →
        exec (.gradeRuns 1 pl) s = .next (s.refused .gradeRuns 1 .state)) ∧
      ((s.ctxs[k]).state = .opened ∨ (s.ctxs[k]).state = .draining →
        ((s.ctxs[k]).height ≤ u16 pl 1 → exec (.gradeRuns 1 pl) s = .next (s.refused .gradeRuns 1 .range)) ∧
        (u16 pl 1 < (s.ctxs[k]).height → (∃ r ∈ runsOf pl, r.bad = true) →
          exec (.gradeRuns 1 pl) s = .next (s.refused .gradeRuns 1 .range)))) ∧
  ∀ (pl : List Byte) (s : State) (k : Ctx), s.takes 1 → Kind.gradeRuns.lengthOk pl = true → u8 pl 0 = k.val →
    ((s.ctxs[k]).state = .opened ∨ (s.ctxs[k]).state = .draining) → u16 pl 1 < (s.ctxs[k]).height →
    (∀ r ∈ runsOf pl, r.bad = false) → s.planesWf → s.hidesWf →
    ∃ t, exec (.gradeRuns 1 pl) s = .next t ∧
      (∀ x y : Nat, x < 768 →
        (t.cell k x y).base.val =
          (if y = u16 pl 1 ∧ x < (s.ctxs[k]).width then (gradeAt (runsOf pl) x).getD (s.cell k x y).base.val
           else (s.cell k x y).base.val) ∧
        (t.cell k x y).cap = (s.cell k x y).cap ∧ (t.cell k x y).classes = (s.cell k x y).classes ∧
        ((t.cell k x y).occupant = (s.cell k x y).occupant ∨ (t.cell k x y).occupant = none)) ∧
      (∀ (j : Ctx) (x y : Nat), j ≠ k → (t.cell j x y).base = (s.cell j x y).base ∧
        (t.cell j x y).cap = (s.cell j x y).cap ∧ (t.cell j x y).classes = (s.cell j x y).classes) ∧
      (s.occupantsNamed k → s.sameIn t (otherCtx k)) ∧
      (∀ n : SlotNo, (∀ x, x < (s.ctxs[k]).width → (s.cell k x (u16 pl 1)).occupant ≠ some n) →
        t.slots[n] = s.slots[n]) ∧
      (∀ (n : SlotNo) (p : Placement), s.slots[n] = some p → s.checked t .gradeChange n p
        (∃ x, x < (s.ctxs[k]).width ∧ (s.cell k x (u16 pl 1)).occupant = some n ∧
          (t.cell k x (u16 pl 1)).effective < (s.cell k x (u16 pl 1)).effective ∧
          (t.cell k x (u16 pl 1)).meets (s.requiredAt p x (u16 pl 1)) = false)) ∧
      s.recounted t ∧ s.withdrawnJoin t ∧
      ((∃ x, x < (s.ctxs[k]).width ∧ (s.cell k x (u16 pl 1)).effective < (t.cell k x (u16 pl 1)).effective) →
        t.marks[k] = 0) ∧
      ((∀ x, x < (s.ctxs[k]).width → (t.cell k x (u16 pl 1)).effective ≤ (s.cell k x (u16 pl 1)).effective) →
        t.slots = s.slots → t.marks = s.marks) ∧
      s.repliedFrom t .gradeRuns 1 (enc2 (cellsWritten (s.ctxs[k]).width (u16 pl 1) (runsOf pl))) ∧
      s.sameSettings t ∧ s.steady t ∧ t.patterns = s.patterns ∧ t.postCounter = s.postCounter

/-! ### Flaws -/

/-- FLAW ADD's payload: what its shape makes of its length, which byte gives which field, and the values out of range.
FLAW ADD and FLAW WITHDRAW refuse in their order: a context number above 1, an EMPTY or CLOSED context, then, for FLAW
ADD, a value out of range and a full list, and, for FLAW WITHDRAW, a flaw number above 511 and one not yet given out.
FLAW ADD: the record joins the back of the context's list with its declared fields, and its APPLY job is queued or in
flight unless the job has started and ended at once with the flaw IGNORED; no cell, slot or entry changes.
With the Map Writer IDLE and nothing queued the job starts at once: the flaw is classified by a lookup with the key of
its context's article, and is IGNORED or in flight as the lookup says.
FLAW WITHDRAW: a PENDING or IGNORED flaw is WITHDRAWN at once and its APPLY job gone, with no cell changed; a
WITHDRAWING or WITHDRAWN one is left as it is; an APPLIED one is WITHDRAWING and its WITHDRAW job queued or in
flight. -/
def Obligations.FlawAddAndWithdraw : Prop :=
  (∀ pl : List Byte,
    (Kind.flawAdd.lengthOk pl = true ↔ 7 ≤ pl.length ∧ (u8 pl 4 = 0 → pl.length = 10) ∧ (u8 pl 4 = 1 → pl.length = 13) ∧
      (u8 pl 4 = 2 → 1 ≤ u8 pl 6 → u8 pl 6 ≤ 16 → pl.length = 7 + 4 * u8 pl 6)) ∧
    (∀ i, s16 pl i = if u16 pl i < 32768 then (u16 pl i : Int) else (u16 pl i : Int) - 65536) ∧
    (declared? pl = none ↔ 15 < u8 pl 1 ∨ u8 pl 2 = 0 ∨ 7 < u8 pl 2 ∨ 1 < u8 pl 3 ∨ 2 < u8 pl 4 ∨
      (u8 pl 4 = 0 ∧ 63 < u8 pl 9) ∨ (u8 pl 4 = 2 ∧ (u8 pl 6 = 0 ∨ 16 < u8 pl 6 ∨ 15 < u8 pl 5))) ∧
    ∀ f, declared? pl = some f →
      f.category = u8 pl 1 ∧ f.severity = u8 pl 2 ∧ f.source = (if u8 pl 3 = 0 then .scanner else .operator) ∧
      f.shape = (if u8 pl 4 = 0 then .disc (s16 pl 5) (s16 pl 7) (u8 pl 9)
        else if u8 pl 4 = 1 then .box (s16 pl 5) (s16 pl 7) (s16 pl 9) (s16 pl 11)
        else .stroke ((List.range (u8 pl 6)).map fun i => (s16 pl (7 + 4 * i), s16 pl (9 + 4 * i))) (u8 pl 5)) ∧
      f.state = .pending ∧ f.classified = none) ∧
  (∀ (pl : List Byte) (s : State), s.takes 1 →
    (Kind.flawAdd.lengthOk pl = true →
      (1 < u8 pl 0 → exec (.flawAdd 1 pl) s = .next (s.refused .flawAdd 1 .range)) ∧
      ∀ k : Ctx, u8 pl 0 = k.val →
        ((s.ctxs[k]).state = .empty ∨ (s.ctxs[k]).state = .closed →
          exec (.flawAdd 1 pl) s = .next (s.refused .flawAdd 1 .state)) ∧
        ((s.ctxs[k]).state = .opened ∨ (s.ctxs[k]).state = .draining →
          (declared? pl = none → exec (.flawAdd 1 pl) s = .next (s.refused .flawAdd 1 .range)) ∧
          (declared? pl ≠ none → 512 ≤ (s.flaws[k]).length →
            exec (.flawAdd 1 pl) s = .next (s.refused .flawAdd 1 .full)))) ∧
    (pl.length = 3 →
      (1 < u8 pl 0 → exec (.flawWithdraw 1 pl) s = .next (s.refused .flawWithdraw 1 .range)) ∧
      ∀ k : Ctx, u8 pl 0 = k.val →
        ((s.ctxs[k]).state = .empty ∨ (s.ctxs[k]).state = .closed →
          exec (.flawWithdraw 1 pl) s = .next (s.refused .flawWithdraw 1 .state)) ∧
        ((s.ctxs[k]).state = .opened ∨ (s.ctxs[k]).state = .draining →
          (511 < u16 pl 1 → exec (.flawWithdraw 1 pl) s = .next (s.refused .flawWithdraw 1 .range)) ∧
          (u16 pl 1 ≤ 511 → (s.flaws[k]).length ≤ u16 pl 1 →
            exec (.flawWithdraw 1 pl) s = .next (s.refused .flawWithdraw 1 .notFound))))) ∧
  (∀ (pl : List Byte) (s : State) (k : Ctx) (f : Flaw), s.takes 1 → Kind.flawAdd.lengthOk pl = true → u8 pl 0 = k.val →
    ((s.ctxs[k]).state = .opened ∨ (s.ctxs[k]).state = .draining) → declared? pl = some f →
    (s.flaws[k]).length < 512 →
    ∃ t g job, exec (.flawAdd 1 pl) s = .next t ∧
      (t.flaws[k]).length = (s.flaws[k]).length + 1 ∧ (t.flaws[k])[(s.flaws[k]).length]? = some g ∧
      g.category = f.category ∧ g.severity = f.severity ∧ g.source = f.source ∧ g.shape = f.shape ∧
      job = { kind := .apply, ctx := k, flaw := (s.flaws[k]).length } ∧
      ((g.state = .pending ∧ (job ∈ t.jobs ∨ t.inFlight = some job)) ∨
        (g.state = .ignored ∧ g.classified.isSome = true ∧ s.raises t .flawIgnored)) ∧
      (s.inFlight ≠ none → t.inFlight = s.inFlight ∧ t.jobs = s.jobs ++ [job] ∧ g = f) ∧
      (s.inFlight = none → s.jobs = [] → ∃ (a : Nat × Nat) (d : Decision) (extent area : Nat),
        a = (min f.shape.anchorPoint.1.toNat ((s.ctxs[k]).width - 1),
             min f.shape.anchorPoint.2.toNat ((s.ctxs[k]).height - 1)) ∧
        extent = extentOf (f.shape.footprint (s.ctxs[k]).width (s.ctxs[k]).height) ∧
        area = min 65535 (f.shape.footprint (s.ctxs[k]).width (s.ctxs[k]).height).length ∧
        d = lookup s.rules.toList s.classDefaults
          { link := BitVec.ofNat 7 (s.links[(s.ctxs[k]).article]).val, category := BitVec.ofNat 4 f.category,
            ladder := BitVec.ofNat 7 (2 ^ f.severity - 1),
            source := (if f.source = .scanner then 0 else 1), shape := BitVec.ofNat 2 f.shape.code,
            anchor := BitVec.ofNat 3 (s.cell k a.1 a.2).effective.val,
            ranges := rangeFlags s.ranges.toList extent area f.severity (s.cell k a.1 a.2).effective.val } ∧
        g.classified = some { cls := d.cls, margin := d.margin.val, cap := d.cap, extent := extent, area := area } ∧
        t.jobs = [] ∧
        (d.ignore = true → g.state = .ignored ∧ t.inFlight = none) ∧
        (d.ignore = false → g.state = .pending ∧ t.inFlight = some job)) ∧
      s.repliedFrom t .flawAdd 1 (enc1 k.val ++ enc2 (s.flaws[k]).length) ∧
      s.sameSettings t ∧ s.samePieces t ∧ t.marks = s.marks ∧ s.sameHeads t) ∧
  (∀ (pl : List Byte) (s : State) (k : Ctx) (f : Flaw), s.takes 1 → pl.length = 3 → u8 pl 0 = k.val →
    ((s.ctxs[k]).state = .opened ∨ (s.ctxs[k]).state = .draining) → u16 pl 1 < 512 →
    (s.flaws[k])[u16 pl 1]? = some f →
    ((f.state = .withdrawing ∨ f.state = .withdrawn) →
      exec (.flawWithdraw 1 pl) s = .next (s.answered .flawWithdraw 1 (enc1 f.state.code))) ∧
    ((f.state = .pending ∨ f.state = .ignored) →
      ∃ t, exec (.flawWithdraw 1 pl) s = .next t ∧
        (t.flaws[k])[u16 pl 1]? = some { f with state := .withdrawn } ∧
        { kind := .apply, ctx := k, flaw := u16 pl 1 } ∉ t.jobs ∧
        t.inFlight ≠ some { kind := .apply, ctx := k, flaw := u16 pl 1 } ∧
        s.repliedFrom t .flawWithdraw 1 (enc1 4) ∧ s.sameSettings t ∧ s.samePieces t ∧ s.steady t ∧ s.sameHeads t ∧
        t.marks = s.marks) ∧
    (f.state = .applied → { kind := .apply, ctx := k, flaw := u16 pl 1 } ∉ s.jobs →
      ∃ t, exec (.flawWithdraw 1 pl) s = .next t ∧
        (t.flaws[k])[u16 pl 1]? = some { f with state := .withdrawing } ∧
        ({ kind := .withdraw, ctx := k, flaw := u16 pl 1 } ∈ t.jobs ∨
          t.inFlight = some { kind := .withdraw, ctx := k, flaw := u16 pl 1 }) ∧
        s.repliedFrom t .flawWithdraw 1 (enc1 3) ∧ s.sameSettings t ∧ s.samePieces t ∧ s.steady t ∧ s.sameHeads t ∧
        t.marks = s.marks))

/-- The end of an APPLY job: footprint cells take the lesser of their cap and the flaw's and gain its class, margin
cells gain the class, no base grade changes; FLAW APPLIED is flagged and the flaw is APPLIED.
The downgrade check: a record some of whose cells fell or gained a class and no longer meet what its mask requires of
them fails, with cause LATE_FLAW; no other record changes.
The entries' counts move by what the check ends: a withdrawn piece lowers live, a spoiled cut piece lowers cut, raises
spoiled and reopens a SATISFIED entry; withdrawn slots join the withdrawn list in ascending order. Nothing of the other
context changes. -/
def Obligations.ApplyJobWritesFlaw : Prop :=
  ∀ (s : State) (k : Ctx) (n : Nat) (f : Flaw) (c : Classified),
    s.inFlight = some { kind := .apply, ctx := k, flaw := n } → (s.flaws[k])[n]? = some f → f.classified = some c →
    s.planesWf → s.hidesWf →
    ∃ t, exec .applyJobCompletion s = .next t ∧
      (∀ x y : Nat, x < (s.ctxs[k]).width → y < (s.ctxs[k]).height →
        (t.cell k x y).base = (s.cell k x y).base ∧
        (∀ i : Fin 8, (t.cell k x y).classes.getLsbD i.val = true ↔
          (s.cell k x y).classes.getLsbD i.val = true ∨ (f.shape.reaches c.margin x y = true ∧ c.cls = i)) ∧
        (∀ g, f.shape.reaches c.margin x y = true → f.shape.covers x y = true → c.cap = some g →
          (t.cell k x y).cap.val = min (s.cell k x y).cap.val g.val) ∧
        (f.shape.reaches c.margin x y = false ∨ f.shape.covers x y = false ∨ c.cap = none →
          (t.cell k x y).cap = (s.cell k x y).cap) ∧
        ((t.cell k x y).occupant = (s.cell k x y).occupant ∨ (t.cell k x y).occupant = none)) ∧
      (s.occupantsNamed k → s.sameIn t (otherCtx k)) ∧
      (∀ (m : SlotNo) (p : Placement), s.slots[m] = some p → s.checked t .lateFlaw m p
        (∃ x y, x < (s.ctxs[k]).width ∧ y < (s.ctxs[k]).height ∧ (s.cell k x y).occupant = some m ∧
          ((t.cell k x y).effective < (s.cell k x y).effective ∨
            (t.cell k x y).classes &&& ~~~(s.cell k x y).classes ≠ 0) ∧
          (t.cell k x y).meets (s.requiredAt p x y) = false)) ∧
      s.recounted t ∧ s.withdrawnJoin t ∧
      s.raises t .flawApplied ∧
      ({ kind := .apply, ctx := k, flaw := n } ∉ s.jobs → (t.flaws[k])[n]?.map (fun g => g.state) = some .applied) ∧
      s.sameSettings t ∧ s.steady t ∧ t.ports = s.ports ∧ t.patterns = s.patterns

/-- The end of a WITHDRAW job: every cell of the flaw's rectangle takes the cap and class set of the APPLIED flaws, all
else in the map stays, the context's no-fit marks are cleared, and FLAW WITHDRAWN is flagged. Nothing of the other
context changes.
The cap of the APPLIED flaws is the least of those whose footprint covers the cell, 7 without one; the classes are those
of the flaws that reach it.
The rectangle is the bounding box of what the footprint and margin reach, clipped to the map; that the box is taken
before it is clipped is the model's reading (log 19). -/
def Obligations.WithdrawJobRecomputes : Prop :=
  (∀ (sh : Shape) (m w h x y : Nat), (∀ hw, sh ≠ .stroke [] hw) →
    ((x, y) ∈ sh.rectangle m w h ↔ x < w ∧ y < h ∧
      (∃ u v : Int, sh.reaches m u v = true ∧ u ≤ x) ∧ (∃ u v : Int, sh.reaches m u v = true ∧ (x : Int) ≤ u) ∧
      (∃ u v : Int, sh.reaches m u v = true ∧ v ≤ y) ∧ ∃ u v : Int, sh.reaches m u v = true ∧ (y : Int) ≤ v)) ∧
  ∀ (s : State) (k : Ctx) (n : Nat) (f : Flaw) (c : Classified),
    s.inFlight = some { kind := .withdraw, ctx := k, flaw := n } → (s.flaws[k])[n]? = some f → f.classified = some c →
    s.planesWf → s.hidesWf →
    ∃ t, exec .withdrawJobCompletion s = .next t ∧
      (∀ x y : Nat, x < 768 →
        (t.cell k x y).base = (s.cell k x y).base ∧ (t.cell k x y).occupant = (s.cell k x y).occupant ∧
        ((x, y) ∈ f.shape.rectangle c.margin (s.ctxs[k]).width (s.ctxs[k]).height →
          (t.cell k x y).markedBy s.flaws[k] x y ∧
          (t.cell k x y).cap = recomputedCap (appliedFlaws s.flaws[k]) (x, y) ∧
          (t.cell k x y).classes = recomputedClasses (appliedFlaws s.flaws[k]) (x, y)) ∧
        ((x, y) ∉ f.shape.rectangle c.margin (s.ctxs[k]).width (s.ctxs[k]).height →
          t.cell k x y = s.cell k x y)) ∧
      (∀ j : Ctx, j ≠ k → s.sameIn t j) ∧ t.marks[k] = 0 ∧
      s.raises t .flawWithdrawn ∧
      ({ kind := .apply, ctx := k, flaw := n } ∉ s.jobs → (t.flaws[k])[n]? = some { f with state := .withdrawn }) ∧
      t.slots = s.slots ∧ t.entries = s.entries ∧ t.patterns = s.patterns ∧ t.withdrawn = s.withdrawn ∧
      s.sameSettings t ∧ s.steady t ∧ s.sameHeads t ∧ t.ports = s.ports

/-- The footprint of a disc, of a box and of a stroke: a stroke's is the squares of its half-width around the points of
its segments, each coordinate of a point rounded down, or around its only point.
Footprint and margin together: the cells at Chebyshev distance of at most the margin from a cell of the footprint; each
clipped to the map.
Extent and area of a clipped footprint: the longer side of its bounding box, and its number of cells, saturating. -/
def Obligations.FootprintsMarginsAndExtent : Prop :=
  ((∀ (cx cy : Int) (r : Nat) (i j : Int),
    (Shape.disc cx cy r).covers i j = true ↔ (i - cx) ^ 2 + (j - cy) ^ 2 ≤ (r : Int) ^ 2) ∧
  (∀ cx cy i j : Int, (Shape.disc cx cy 0).covers i j = true ↔ i = cx ∧ j = cy) ∧
  (∀ x1 y1 x2 y2 i j : Int, (Shape.box x1 y1 x2 y2).covers i j = true ↔
    ((x1 ≤ i ∧ i ≤ x2) ∨ (x2 ≤ i ∧ i ≤ x1)) ∧ ((y1 ≤ j ∧ j ≤ y2) ∨ (y2 ≤ j ∧ j ≤ y1))) ∧
  (∀ x y i j : Int, (Shape.box x y x y).covers i j = true ↔ i = x ∧ j = y) ∧
  ∀ (pts : List (Int × Int)) (hw : Nat) (i j : Int), (Shape.stroke pts hw).covers i j = true ↔
    ∃ c : Int × Int, (i - c.1).natAbs ≤ hw ∧ (j - c.2).natAbs ≤ hw ∧
      (pts = [c] ∨
        ∃ (m : Nat) (a b : Int × Int) (n : Nat), pts[m]? = some a ∧ pts[m + 1]? = some b ∧
          n = max (b.1 - a.1).natAbs (b.2 - a.2).natAbs ∧
          ((n = 0 ∧ c = a) ∨
            ∃ k : Nat, k ≤ n ∧
              2 * (n : Int) * (c.1 - a.1) ≤ 2 * (k : Int) * (b.1 - a.1) + n ∧
              2 * (k : Int) * (b.1 - a.1) + n < 2 * (n : Int) * (c.1 - a.1 + 1) ∧
              2 * (n : Int) * (c.2 - a.2) ≤ 2 * (k : Int) * (b.2 - a.2) + n ∧
              2 * (k : Int) * (b.2 - a.2) + n < 2 * (n : Int) * (c.2 - a.2 + 1)))) ∧
  (∀ (sh : Shape) (m : Nat) (i j : Int), sh.reaches m i j = true ↔
    ∃ u v : Int, sh.covers u v = true ∧ (u - i).natAbs ≤ m ∧ (v - j).natAbs ≤ m) ∧
  (∀ (sh : Shape) (w h : Nat), (sh.footprint w h).Nodup ∧
    (∀ x y, (x, y) ∈ sh.footprint w h ↔ x < w ∧ y < h ∧ sh.covers x y = true) ∧
    ∀ m, (sh.reach m w h).Nodup ∧ ∀ x y, (x, y) ∈ sh.reach m w h ↔ x < w ∧ y < h ∧ sh.reaches m x y = true) ∧
  (∀ cells : List (Nat × Nat), areaOf cells = min 65535 cells.length) ∧ extentOf [] = 0 ∧
  ∀ (cells : List (Nat × Nat)) (x0 x1 y0 y1 : Nat),
    (∀ c ∈ cells, x0 ≤ c.1 ∧ c.1 ≤ x1 ∧ y0 ≤ c.2 ∧ c.2 ≤ y1) → (∃ c ∈ cells, c.1 = x0) → (∃ c ∈ cells, c.1 = x1) →
    (∃ c ∈ cells, c.2 = y0) → (∃ c ∈ cells, c.2 = y1) → extentOf cells = max (x1 - x0 + 1) (y1 - y0 + 1)

/-! ### The Flaw Classifier -/

/-- A lookup takes each part from the second hit, else from the first, else from the class defaults, and ignores if
either hit says so; there is no second hit without a link in the first; the hit of a pass is the lowest entry that
matches.
An entry matches that is valid, of the pass, and whose seven key tests pass: under every set digit of its mask the key has
the value's digit.
The severity ladder's flags, set up to the severity, and the range flags, one for each checker in its place. -/
def Obligations.LookupResolvesPartByPart : Prop :=
  (∀ (r : RuleEntry) (pass : Pass) (k : Key), r.fits pass k = true ↔ r.valid = true ∧ r.pass = pass ∧
    r.link.agrees k.link ∧ r.category.agrees k.category ∧ r.ladder.agrees k.ladder ∧ r.source.agrees k.source ∧
    r.shape.agrees k.shape ∧ r.anchor.agrees k.anchor ∧ r.ranges.agrees k.ranges) ∧
  (∀ severity i : Nat, severity ≤ 7 → i < 7 →
    ladderOf severity = BitVec.ofNat 7 (2 ^ severity - 1) ∧ (ladderOf severity).getLsbD i = decide (i < severity)) ∧
  (∀ (cs : List RangeChecker) (extent area severity anchor i : Nat), i < 8 →
    (rangeFlags cs extent area severity anchor).getLsbD i =
      (cs[i]?).any fun c => c.flag extent area severity anchor) ∧
  (∀ (rules : List RuleEntry) (pass : Pass) (k : Key) (i : Nat) (r : RuleEntry),
    rules[i]? = some r → r.fits pass k = true → (∀ j r', j < i → rules[j]? = some r' → r'.fits pass k = false) →
    firstHit rules pass k = some r.action) ∧
  (∀ (rules : List RuleEntry) (pass : Pass) (k : Key),
    (∀ r ∈ rules, r.fits pass k = false) → firstHit rules pass k = none) ∧
  ∀ (rules : List RuleEntry) (d : ClassDefaults) (k : Key),
    (firstHit rules .first k = none →
      lookup rules d k = { cls := d.cls, margin := d.margin, cap := d.cap, ignore := false }) ∧
    (∀ a, firstHit rules .first k = some a → a.next = none →
      lookup rules d k = { cls := a.cls.getD d.cls, margin := a.margin.getD d.margin, cap := a.cap.or d.cap,
                           ignore := a.ignore }) ∧
    (∀ a l, firstHit rules .first k = some a → a.next = some l →
      firstHit rules .second { k with link := BitVec.ofNat 7 l.val } = none →
      lookup rules d k = { cls := a.cls.getD d.cls, margin := a.margin.getD d.margin, cap := a.cap.or d.cap,
                           ignore := a.ignore }) ∧
    (∀ a l b, firstHit rules .first k = some a → a.next = some l →
      firstHit rules .second { k with link := BitVec.ofNat 7 l.val } = some b →
      lookup rules d k = { cls := (b.cls.or a.cls).getD d.cls, margin := (b.margin.or a.margin).getD d.margin,
                           cap := (b.cap.or a.cap).or d.cap, ignore := a.ignore || b.ignore })

/-- RULE WRITE's payload: which byte gives which field, and the values out of range.
RULE WRITE: an entry in range replaces the one at the index, and nothing else changes; a value out of range is
refused.
RULE READ, in READY and FAILED: a selector of 0 to 127 gives that entry, 128 the rest of the classifier, any other is refused.
The order of values and masks in the bytes is the model's reading (log 12); that RULE WRITE's reply carries no payload is
the model's reading (log 18). -/
def Obligations.RuleWriteAndRead : Prop :=
  (∀ pl : List Byte,
    (ruleEntry? pl = none ↔ 1 < u8 pl 1 ∨ 1 < u8 pl 2 ∨ 127 < u8 pl 3 ∨ 127 < u8 pl 4 ∨ 15 < u8 pl 5 ∨ 15 < u8 pl 6 ∨
      127 < u8 pl 7 ∨ 127 < u8 pl 8 ∨ 1 < u8 pl 9 ∨ 1 < u8 pl 10 ∨ 3 < u8 pl 11 ∨ 3 < u8 pl 12 ∨ 7 < u8 pl 13 ∨
      7 < u8 pl 14 ∨ (7 < u8 pl 17 ∧ u8 pl 17 ≠ 255) ∨ (7 < u8 pl 18 ∧ u8 pl 18 ≠ 255) ∨
      (7 < u8 pl 19 ∧ u8 pl 19 ≠ 255) ∨ (127 < u8 pl 20 ∧ u8 pl 20 ≠ 255) ∨ 1 < u8 pl 21) ∧
    ∀ r, ruleEntry? pl = some r →
      r.valid = decide (u8 pl 1 = 1) ∧ r.pass = (if u8 pl 2 = 0 then .first else .second) ∧
      r.link.value.toNat = u8 pl 3 ∧ r.link.mask.toNat = u8 pl 4 ∧
      r.category.value.toNat = u8 pl 5 ∧ r.category.mask.toNat = u8 pl 6 ∧
      r.ladder.value.toNat = u8 pl 7 ∧ r.ladder.mask.toNat = u8 pl 8 ∧
      r.source.value.toNat = u8 pl 9 ∧ r.source.mask.toNat = u8 pl 10 ∧
      r.shape.value.toNat = u8 pl 11 ∧ r.shape.mask.toNat = u8 pl 12 ∧
      r.anchor.value.toNat = u8 pl 13 ∧ r.anchor.mask.toNat = u8 pl 14 ∧
      r.ranges.value.toNat = u8 pl 15 ∧ r.ranges.mask.toNat = u8 pl 16 ∧
      r.action.cls.map (fun g => g.val) = (if u8 pl 17 = 255 then none else some (u8 pl 17)) ∧
      r.action.margin.map (fun g => g.val) = (if u8 pl 18 = 255 then none else some (u8 pl 18)) ∧
      r.action.cap.map (fun g => g.val) = (if u8 pl 19 = 255 then none else some (u8 pl 19)) ∧
      r.action.next.map (fun g => g.val) = (if u8 pl 20 = 255 then none else some (u8 pl 20)) ∧
      r.action.ignore = decide (u8 pl 21 = 1)) ∧
  (∀ (pl : List Byte) (s : State), s.takes 0 → pl.length = 22 →
    (∀ (i : Fin 128) (r : RuleEntry), u8 pl 0 = i.val → ruleEntry? pl = some r →
      exec (.ruleWrite 0 pl) s = .next (({ s with rules := s.rules.set i r } : State).answered .ruleWrite 0 [])) ∧
    (128 ≤ u8 pl 0 ∨ ruleEntry? pl = none → exec (.ruleWrite 0 pl) s = .next (s.refused .ruleWrite 0 .range))) ∧
  (∀ (pl : List Byte) (s : State), s.takesRead 0 → pl.length = 1 →
    (∀ i : Fin 128, u8 pl 0 = i.val →
      exec (.ruleReadEntry 0 pl) s = .next (s.answered .ruleRead 0
        (encFlag (s.rules[i]).valid ++ (match (s.rules[i]).pass with | .first => [0] | .second => [1]) ++
          enc1 (s.rules[i]).link.value.toNat ++ enc1 (s.rules[i]).category.value.toNat ++
          enc1 (s.rules[i]).ladder.value.toNat ++ enc1 (s.rules[i]).source.value.toNat ++
          enc1 (s.rules[i]).shape.value.toNat ++ enc1 (s.rules[i]).anchor.value.toNat ++
          enc1 (s.rules[i]).ranges.value.toNat ++
          enc1 (s.rules[i]).link.mask.toNat ++ enc1 (s.rules[i]).category.mask.toNat ++
          enc1 (s.rules[i]).ladder.mask.toNat ++ enc1 (s.rules[i]).source.mask.toNat ++
          enc1 (s.rules[i]).shape.mask.toNat ++ enc1 (s.rules[i]).anchor.mask.toNat ++
          enc1 (s.rules[i]).ranges.mask.toNat ++
          encOpt ((s.rules[i]).action.cls.map fun g => g.val) ++ encOpt ((s.rules[i]).action.margin.map fun g => g.val) ++
          encOpt ((s.rules[i]).action.cap.map fun g => g.val) ++ encOpt ((s.rules[i]).action.next.map fun g => g.val) ++
          encFlag (s.rules[i]).action.ignore))) ∧
    (u8 pl 0 = 128 → exec (.ruleReadTables 0 pl) s = .next (s.answered .ruleRead 0
      ((s.ranges.toList.flatMap fun c => enc1 c.quantity.code ++ enc2 c.low ++ enc2 c.high) ++
        enc1 s.classDefaults.cls.val ++ enc1 s.classDefaults.margin.val ++
        encOpt (s.classDefaults.cap.map fun g => g.val) ++ s.links.toList.flatMap fun l => enc1 l.val))) ∧
    (128 < u8 pl 0 → exec (.ruleReadTables 0 pl) s = .next (s.refused .ruleRead 0 .range)))

/-- RANGE WRITE: the checker takes the given quantity and bounds, a low bound above the high one included; a checker
above 7 or a code that names no quantity is refused; nothing else changes, so a flaw in flight keeps its record.
A range checker's flag, the checkers at power-up, and the checkers under PART RESET.
CLASS DEFAULTS: the three defaults and the sixteen links are replaced together, or the request is refused and
neither changes.
That the replies to RANGE WRITE and CLASS DEFAULTS carry no payload is the model's reading (log 18). -/
def Obligations.RangesAndClassDefaultsReplaced : Prop :=
  ((∀ (pl : List Byte) (s : State), s.takes 0 → pl.length = 6 →
    (∀ (i : Fin 8) (q : Quantity), u8 pl 0 = i.val → u8 pl 1 = q.code →
      exec (.rangeWrite 0 pl) s = .next (({ s with
        ranges := s.ranges.set i { quantity := q, low := u16 pl 2, high := u16 pl 4 } } : State).answered .rangeWrite 0 [])) ∧
    (7 < u8 pl 0 ∨ 4 < u8 pl 1 → exec (.rangeWrite 0 pl) s = .next (s.refused .rangeWrite 0 .range)) ∧
    ∀ (c : RangeChecker) (extent area severity anchor : Nat),
      c.high < c.low → c.flag extent area severity anchor = false) ∧
  ((∀ (c : RangeChecker) (extent area severity anchor : Nat),
    (c.quantity = .extent → c.flag extent area severity anchor = (decide (c.low ≤ extent) && decide (extent ≤ c.high))) ∧
    (c.quantity = .area → c.flag extent area severity anchor = (decide (c.low ≤ area) && decide (area ≤ c.high))) ∧
    (c.quantity = .severity →
      c.flag extent area severity anchor = (decide (c.low ≤ severity) && decide (severity ≤ c.high))) ∧
    (c.quantity = .anchorGrade →
      c.flag extent area severity anchor = (decide (c.low ≤ anchor) && decide (anchor ≤ c.high))) ∧
    (c.quantity = .disabled → c.flag extent area severity anchor = false) ∧
    (c.high < c.low → c.flag extent area severity anchor = false)) ∧
  (∀ i : Fin 8, State.reset.ranges[i] = { quantity := .disabled, low := 0, high := 0 }) ∧
  ∀ s : State, s.takes 0 → ∃ t, exec (.partReset 0 []) s = .next t ∧ t.ranges = s.ranges)) ∧
  ∀ (pl : List Byte) (s : State), s.takes 0 → pl.length = 19 →
    (∀ (c m : Grade) (g : Option Grade), u8 pl 0 = c.val → u8 pl 1 = m.val → u8 pl 2 = (g.map fun x => x.val).getD 255 →
      (∀ i : Fin 16, u8 pl (3 + i.val) < 128) →
      ∃ t, exec (.classDefaults 0 pl) s = .next t ∧ t.classDefaults = { cls := c, margin := m, cap := g } ∧
        (∀ i : Fin 16, (t.links[i]).val = u8 pl (3 + i.val)) ∧
        t = ({ s with classDefaults := t.classDefaults, links := t.links } : State).answered .classDefaults 0 []) ∧
    (7 < u8 pl 0 ∨ 7 < u8 pl 1 ∨ (7 < u8 pl 2 ∧ u8 pl 2 ≠ 255) ∨ (∃ i : Fin 16, 127 < u8 pl (3 + i.val)) →
      exec (.classDefaults 0 pl) s = .next (s.refused .classDefaults 0 .range))

/-! ### The Pattern Library -/

/-- LIBRARY BEGIN's payload: which byte gives which field, and the values out of range; with one of them, or a pattern
number above 127, the request is refused RANGE and any load goes on. LIBRARY ROWS and LIBRARY END refuse such a number
too.
The end of a load that a BEGIN makes: of the LOADING record, whatever its number, with its report; none to end leaves the
state as it was.
LIBRARY BEGIN: any load in progress is ended first, and stays ended if the request is refused IN_USE or FULL; an
accepted one makes the record LOADING with its declared fields and reserves w × h.
The report of an ended load is none three times where none was ended (log 16).
LIBRARY ROWS: whole rows that start at the rows received and stay within h are appended; the checks come in their
order.
LIBRARY END: COMPLETE, TRUNCATED or EMPTIED, by the rows received and the codes in them. -/
def Obligations.LibraryLoads : Prop :=
  (∀ pl : List Byte,
    (declaredPattern? pl = none ↔ u8 pl 1 = 0 ∨ 96 < u8 pl 1 ∨ u8 pl 2 = 0 ∨ 64 < u8 pl 2 ∨ 15 < u8 pl 3 ∨
      (∃ i, (i = 4 ∨ i = 6 ∨ i = 8) ∧ (u8 pl i = 0 ∨ 7 < u8 pl i)) ∨ u8 pl 10 = 0) ∧
    ∀ q, declaredPattern? pl = some q → q.w = u8 pl 1 ∧ q.h = u8 pl 2 ∧ q.kind = u8 pl 3 ∧
      q.face.minGrade = u8 pl 4 ∧ q.face.tolerated.toNat = u8 pl 5 ∧ q.hidden.minGrade = u8 pl 6 ∧
      q.hidden.tolerated.toNat = u8 pl 7 ∧ q.edge.minGrade = u8 pl 8 ∧ q.edge.tolerated.toNat = u8 pl 9 ∧
      q.orients.toNat = u8 pl 10) ∧
  (∀ (pl : List Byte) (s : State), s.takes 0 →
    (pl.length = 11 → (127 < u8 pl 0 ∨ declaredPattern? pl = none) →
      exec (.libraryBegin 0 pl) s = .next (s.refused .libraryBegin 0 .range)) ∧
    (3 ≤ pl.length → pl.length ≤ 240 → 127 < u8 pl 0 →
      exec (.libraryRows 0 pl) s = .next (s.refused .libraryRows 0 .range)) ∧
    (pl.length = 1 → 127 < u8 pl 0 → exec (.libraryEnd 0 pl) s = .next (s.refused .libraryEnd 0 .range))) ∧
  (∀ s : State,
    ((∀ n : PatNo, (s.patterns[n]).state ≠ .loading) → s.endAnyLoad = s ∧ s.endedReport = [255, 255, 255]) ∧
    ∀ n : PatNo, (s.patterns[n]).state = .loading → (∀ m : PatNo, m < n → (s.patterns[m]).state ≠ .loading) →
      (s.patterns[n]).sized →
      ∃ outcome height, s.loadEnded s.endAnyLoad n outcome height ∧
        s.endedReport = enc1 n.val ++ enc1 outcome ++ enc1 height ∧
        s.endAnyLoad = { s with patterns := s.endAnyLoad.patterns, freeCells := s.endAnyLoad.freeCells }) ∧
  (∀ (pl : List Byte) (s : State) (n : PatNo) (q : Pattern), s.takes 0 → pl.length = 11 → u8 pl 0 = n.val →
    declaredPattern? pl = some q →
    (0 < (s.endAnyLoad.patterns[n]).refs →
      exec (.libraryBegin 0 pl) s = .next (s.endAnyLoad.refused .libraryBegin 0 .inUse)) ∧
    ((s.endAnyLoad.patterns[n]).refs = 0 → s.endAnyLoad.freeCells + (s.endAnyLoad.patterns[n]).reserved < q.w * q.h →
      exec (.libraryBegin 0 pl) s = .next (s.endAnyLoad.refused .libraryBegin 0 .full)) ∧
    ((s.endAnyLoad.patterns[n]).refs = 0 → q.w * q.h ≤ s.endAnyLoad.freeCells + (s.endAnyLoad.patterns[n]).reserved →
      ∃ t, exec (.libraryBegin 0 pl) s = .next t ∧
        t.patterns[n] = { q with state := .loading, mask := [], covered := 0, reserved := q.w * q.h, refs := 0 } ∧
        (∀ m : PatNo, m ≠ n → t.patterns[m] = s.endAnyLoad.patterns[m]) ∧
        t.freeCells + q.w * q.h = s.endAnyLoad.freeCells + (s.endAnyLoad.patterns[n]).reserved ∧
        s.repliedFrom t .libraryBegin 0
          (enc1 n.val ++ enc2 (q.w * q.h) ++ enc3 t.freeCells ++ s.endedReport) ∧
        t = { s with patterns := t.patterns, freeCells := t.freeCells, ports := t.ports })) ∧
  (∀ (pl : List Byte) (s : State) (n : PatNo), s.takes 0 → 3 ≤ pl.length → pl.length ≤ 240 → u8 pl 0 = n.val →
    ((s.patterns[n]).state ≠ .loading → exec (.libraryRows 0 pl) s = .next (s.refused .libraryRows 0 .state)) ∧
    ((s.patterns[n]).state = .loading → (s.patterns[n]).w ≠ 0 →
      (∀ m, 1 ≤ m → pl.length ≠ 2 + m * rowBytes (s.patterns[n]).w) →
      exec (.libraryRows 0 pl) s = .next (s.refused .libraryRows 0 .length)) ∧
    ((s.patterns[n]).state = .loading → (s.patterns[n]).w ≠ 0 → ∀ m, 1 ≤ m →
      pl.length = 2 + m * rowBytes (s.patterns[n]).w →
      (u8 pl 1 ≠ (s.patterns[n]).mask.length ∨ (s.patterns[n]).h < (s.patterns[n]).mask.length + m →
        exec (.libraryRows 0 pl) s = .next (s.refused .libraryRows 0 .range)) ∧
      (u8 pl 1 = (s.patterns[n]).mask.length → (s.patterns[n]).mask.length + m ≤ (s.patterns[n]).h →
        ∃ t, exec (.libraryRows 0 pl) s = .next t ∧
          (t.patterns[n]).mask.take (s.patterns[n]).mask.length = (s.patterns[n]).mask ∧
          (t.patterns[n]).mask.length = (s.patterns[n]).mask.length + m ∧
          (∀ i j, i < m → j < (s.patterns[n]).w →
            ((t.patterns[n]).mask.getD ((s.patterns[n]).mask.length + i) []).getD j .outside =
              regionOf (u8 pl (2 + i * rowBytes (s.patterns[n]).w + j / 4) / 4 ^ (j % 4))) ∧
          t.patterns[n] = { s.patterns[n] with mask := (t.patterns[n]).mask } ∧
          (∀ q : PatNo, q ≠ n → t.patterns[q] = s.patterns[q]) ∧
          s.repliedFrom t .libraryRows 0 (enc1 n.val ++ enc1 ((s.patterns[n]).mask.length + m)) ∧
          t = { s with patterns := t.patterns, ports := t.ports }))) ∧
  ∀ (pl : List Byte) (s : State) (n : PatNo), s.takes 0 → pl.length = 1 → u8 pl 0 = n.val →
    ((s.patterns[n]).state ≠ .loading → exec (.libraryEnd 0 pl) s = .next (s.refused .libraryEnd 0 .state)) ∧
    ((s.patterns[n]).state = .loading → (s.patterns[n]).sized →
      ∃ t outcome height, exec (.libraryEnd 0 pl) s = .next t ∧ s.loadEnded t n outcome height ∧
        s.repliedFrom t .libraryEnd 0
          (enc1 n.val ++ enc1 outcome ++ enc1 height ++ enc2 (t.freeCells - s.freeCells) ++ enc3 t.freeCells) ∧
        t = { s with patterns := t.patterns, freeCells := t.freeCells, ports := t.ports })

/-- LIBRARY DROP: its checks in order; an accepted drop empties the record and gives its cells back. -/
def Obligations.LibraryDropEmpties : Prop :=
  ∀ (pl : List Byte) (s : State), s.takes 0 → pl.length = 1 →
    (127 < u8 pl 0 → exec (.libraryDrop 0 pl) s = .next (s.refused .libraryDrop 0 .range)) ∧
    ∀ n : PatNo, u8 pl 0 = n.val →
      ((s.patterns[n]).state = .empty → exec (.libraryDrop 0 pl) s = .next (s.refused .libraryDrop 0 .notFound)) ∧
      ((s.patterns[n]).state = .loading → exec (.libraryDrop 0 pl) s = .next (s.refused .libraryDrop 0 .state)) ∧
      ((s.patterns[n]).state = .ready → 0 < (s.patterns[n]).refs →
        exec (.libraryDrop 0 pl) s = .next (s.refused .libraryDrop 0 .inUse)) ∧
      ((s.patterns[n]).state = .ready → (s.patterns[n]).refs = 0 →
        exec (.libraryDrop 0 pl) s = .next (({ s with
          patterns := s.patterns.set n Pattern.reset,
          freeCells := s.freeCells + (s.patterns[n]).reserved } : State).answered .libraryDrop 0
            (enc1 n.val ++ enc2 (s.patterns[n]).reserved ++ enc3 (s.freeCells + (s.patterns[n]).reserved))))

/-- The oriented mask of each orientation.
Every orientation of a pattern has the same count of cells of each region. -/
def Obligations.OrientationsReorderMask : Prop :=
  (∀ (p : Pattern) (i j : Nat),
    (p.orientedSize 0 = (p.w, p.h) ∧ p.oriented 0 i j = p.code i j) ∧
    (p.orientedSize 1 = (p.h, p.w) ∧ p.oriented 1 i j = p.code j (p.h - 1 - i)) ∧
    (p.orientedSize 2 = (p.w, p.h) ∧ p.oriented 2 i j = p.code (p.w - 1 - i) (p.h - 1 - j)) ∧
    (p.orientedSize 3 = (p.h, p.w) ∧ p.oriented 3 i j = p.code (p.w - 1 - j) i) ∧
    (p.orientedSize 4 = (p.w, p.h) ∧ p.oriented 4 i j = p.code (p.w - 1 - i) j) ∧
    (p.orientedSize 5 = (p.h, p.w) ∧ p.oriented 5 i j = p.code (p.w - 1 - j) (p.h - 1 - i)) ∧
    (p.orientedSize 6 = (p.w, p.h) ∧ p.oriented 6 i j = p.code (p.w - 1 - (p.w - 1 - i)) (p.h - 1 - j)) ∧
    (p.orientedSize 7 = (p.h, p.w) ∧ p.oriented 7 i j = p.code (p.w - 1 - (p.w - 1 - j)) i)) ∧
  (∀ (p : Pattern) (o : Orient) (r : Region),
    (mapCells (p.orientedSize o).1 (p.orientedSize o).2).countP (fun ij => decide (p.oriented o ij.1 ij.2 = r)) =
      (mapCells p.w p.h).countP fun ij => decide (p.code ij.1 ij.2 = r))

/-! ### The Demand Queue -/

/-- DEMAND POST refuses in its order: a pattern number above 127, a hand code that names no hand, a requested count of 0
or a rush flag above 1; a pattern that is not READY; a hand that shares no orientation with the pattern; and a queue of
64 entries.
DEMAND POST: a new OPEN entry with the lowest free tag and the post counter's value, after the rush entries at the
front if rush and else at the back; the counter advances and the pattern gains a reference. -/
def Obligations.DemandPostEnters : Prop :=
  (∀ (pl : List Byte) (s : State), s.takes 0 → pl.length = 4 →
    (127 < u8 pl 0 ∨ 2 < u8 pl 1 ∨ u8 pl 2 = 0 ∨ 1 < u8 pl 3 →
      exec (.demandPost 0 pl) s = .next (s.refused .demandPost 0 .range)) ∧
    ∀ (n : PatNo) (hand : Hand), u8 pl 0 = n.val → u8 pl 1 = hand.code → 1 ≤ u8 pl 2 → u8 pl 3 ≤ 1 →
      ((s.patterns[n]).state ≠ .ready → exec (.demandPost 0 pl) s = .next (s.refused .demandPost 0 .notFound)) ∧
      ((s.patterns[n]).state = .ready →
        ((s.patterns[n]).orients &&& hand.orients = 0 →
          exec (.demandPost 0 pl) s = .next (s.refused .demandPost 0 .range)) ∧
        ((s.patterns[n]).orients &&& hand.orients ≠ 0 → 64 ≤ s.entries.length →
          exec (.demandPost 0 pl) s = .next (s.refused .demandPost 0 .full)))) ∧
  ∀ (pl : List Byte) (s : State) (n : PatNo) (hand : Hand) (tag : Tag), s.takes 0 → pl.length = 4 → u8 pl 0 = n.val →
    u8 pl 1 = hand.code → 1 ≤ u8 pl 2 → u8 pl 3 ≤ 1 → (s.patterns[n]).state = .ready →
    (s.patterns[n]).orients &&& hand.orients ≠ 0 → s.entries.length < 64 → s.entry? tag = none →
    (∀ u : Tag, u < tag → s.entry? u ≠ none) →
    ∃ t e before after, exec (.demandPost 0 pl) s = .next t ∧
      e = { tag := tag, pattern := n, hand := hand, requested := u8 pl 2, live := 0, cut := 0, spoiled := 0,
            rush := decide (u8 pl 3 = 1), state := .opened, postNumber := s.postCounter, holders := 0 } ∧
      t.entries = before ++ [e] ++ after ∧ s.entries = before ++ after ∧
      (u8 pl 3 = 0 → after = []) ∧ (u8 pl 3 = 1 → (∀ x ∈ before, x.rush = true) ∧ ∀ x ∈ after.head?, x.rush = false) ∧
      t.postCounter = s.postCounter + 1 ∧
      t.patterns[n] = { s.patterns[n] with refs := (s.patterns[n]).refs + 1 } ∧
      (∀ m : PatNo, m ≠ n → t.patterns[m] = s.patterns[m]) ∧
      s.repliedFrom t .demandPost 0
        (enc1 tag.val ++ enc2 s.postCounter.toNat ++ enc1 before.length ++ enc1 (s.entries.length + 1)) ∧
      s.sameSettings t ∧ s.steady t ∧ s.sameHeads t ∧ t.planes = s.planes ∧ t.slots = s.slots ∧
      t.withdrawn = s.withdrawn ∧ t.marks = s.marks

/-- DEMAND CANCEL refuses a tag above 63 and a tag that no entry holds.
DEMAND CANCEL of an OPEN or SATISFIED entry: its PLACED and CLAIMED placements become WITHDRAWN with cause
CANCELLED, every cell they occupied has no occupant and no other cell changes, every other record stays; each is flagged,
a claim's head is told and loses the slot, and the slots join the withdrawn list in ascending order.
The entry is CANCELLED with its live count less by those placements, and is gone from the queue, with its pattern's
reference and its marks, exactly when no slot names it; the other entries stay in their order.
The marks of a context that lost a placement are cleared, and all other marks stay. A search or stall for the entry is
abandoned; a search for another entry goes on. -/
def Obligations.DemandCancelWithdraws : Prop :=
  (∀ (pl : List Byte) (s : State), s.takes 0 → pl.length = 1 →
    (63 < u8 pl 0 → exec (.demandCancel 0 pl) s = .next (s.refused .demandCancel 0 .range)) ∧
    ∀ tag : Tag, u8 pl 0 = tag.val → s.entry? tag = none →
      exec (.demandCancel 0 pl) s = .next (s.refused .demandCancel 0 .notFound)) ∧
  (∀ (s : State) (tag : Tag), s.uncutSlots tag = (List.finRange 256).filter fun n => (s.slots[n]).any fun r =>
    decide (r.tag = tag) && decide (r.state = .placed ∨ r.state = .claimed)) ∧
  ∀ (pl : List Byte) (s : State) (tag : Tag) (x : Entry), s.takes 0 → pl.length = 1 → u8 pl 0 = tag.val →
    s.entry? tag = some x →
    (x.state = .cancelled → exec (.demandCancel 0 pl) s =
      .next (s.answered .demandCancel 0 (enc1 tag.val ++ enc1 0 ++ enc1 x.live ++ enc1 0))) ∧
    (x.state ≠ .cancelled →
      ∃ t, exec (.demandCancel 0 pl) s = .next t ∧
        (∀ (n : SlotNo) (r : Placement), s.slots[n] = some r → r.tag = tag →
          (r.state = .placed ∨ r.state = .claimed) →
          t.slots[n] = some { r with state := .withdrawn, cause := some .cancelled } ∧
          s.raises t .placementWithdrawn ∧ t.marks[r.ctx] = 0 ∧
          ∀ h, r.state = .claimed → r.head = some h → s.raises t (.claimLost h)) ∧
        (∀ n : SlotNo, (∀ r, s.slots[n] = some r → r.tag = tag → r.state ≠ .placed ∧ r.state ≠ .claimed) →
          t.slots[n] = s.slots[n]) ∧
        t.withdrawn = s.withdrawn ++ s.uncutSlots tag ∧
        (∀ h : Head, (t.heads[h]).state = (s.heads[h]).state ∧
          (t.heads[h]).held = (s.heads[h]).held.filter fun y => !((s.slots[y.slot]).any fun r =>
            decide (r.tag = tag) && decide (r.state = .claimed) && decide (r.head = some h))) ∧
        (x.holders = 0 →
          t.entries = s.entries.filter (fun e => e.tag ≠ tag) ∧ (∀ k : Ctx, t.marked tag k = false) ∧
          (t.patterns[x.pattern]).refs = (s.patterns[x.pattern]).refs - 1 ∧
          ∀ m : PatNo, m ≠ x.pattern → t.patterns[m] = s.patterns[m]) ∧
        (x.holders ≠ 0 →
          t.entries = s.entries.map (fun e => if e.tag = tag then
            { e with state := .cancelled, live := e.live - (s.uncutSlots tag).length } else e) ∧
          t.patterns = s.patterns) ∧
        (∀ k : Ctx, (∀ (n : SlotNo) (r : Placement), s.slots[n] = some r → r.tag = tag → r.ctx = k →
            r.state ≠ .placed ∧ r.state ≠ .claimed) →
          (∀ u : Tag, u ≠ tag → t.marked u k = s.marked u k) ∧
          (x.holders ≠ 0 → t.marks[k] = s.marks[k])) ∧
        (∀ q, t.searchUnit = .searching q → q.pair.tag ≠ tag) ∧ (∀ q, t.searchUnit = .stalled q → q.tag ≠ tag) ∧
        (∀ q, s.searchUnit = .searching q → q.pair.tag ≠ tag → ∃ r, t.searchUnit = .searching r ∧ q.goesOn r) ∧
        s.repliedFrom t .demandCancel 0
          (enc1 tag.val ++ enc1 (s.uncutSlots tag).length ++ enc1 (((t.entry? tag).map fun y => y.live).getD 0) ++
            encFlag (t.entry? tag).isNone) ∧
        (∀ u : Tag, u ≠ tag → t.entry? u = s.entry? u) ∧
        (s.planesWf → ∀ k : Ctx,
          s.freesCells t k fun r => r.ctx = k ∧ r.tag = tag ∧ (r.state = .placed ∨ r.state = .claimed)) ∧
        (∀ n : PatNo, t.patterns[n] = { s.patterns[n] with refs := (t.patterns[n]).refs }) ∧
        s.sameSettings t ∧ s.steady t)

/-! ### The Placement Search -/

/-- SET WEIGHTS writes the three weights and nothing else, so a search in flight keeps its samples and every search that
starts or restarts afterwards samples the new ones; the weights at power-up are 16, 4 and 8, and PART RESET keeps
them. -/
def Obligations.SetWeightsWrites : Prop :=
  (∀ (pl : List Byte) (s : State), s.takes 0 → pl.length = 3 →
    exec (.setWeights 0 pl) s = .next (({ s with
      weights := { lead := u8 pl 0, premium := u8 pl 1, contact := u8 pl 2 } } : State).answered .setWeights 0
        (enc1 (u8 pl 0) ++ enc1 (u8 pl 1) ++ enc1 (u8 pl 2) ++ enc1 s.searchUnit.code))) ∧
  (∀ (pl : List Byte) (s : State), s.takes 0 → pl.length ≠ 3 →
    exec (.setWeights 0 pl) s = .next (s.refused .setWeights 0 .length)) ∧
  (∀ (pl : List Byte) (s : State), (s.ports[(0 : Port)]).owed = none → s.condition = .failed →
    exec (.setWeights 0 pl) s = .next (s.refused .setWeights 0 .state)) ∧
  (∀ (s : State) (e : Entry) (k : Ctx), (s.samplesFor e k).weights = s.weights) ∧
  State.reset.weights = { lead := 16, premium := 4, contact := 8 } ∧
  ∀ s : State, s.takes 0 → ∃ t, exec (.partReset 0 []) s = .next t ∧ t.weights = s.weights

/-- The scan keeps the passing candidate of lowest score, the earliest of equal ones; with none passing it keeps
none.
What passing is (the cell test), what the score is, and which candidates there are in which order. -/
def Obligations.ScanKeepsLowestEarliest : Prop :=
  (∀ (m : HideMap) (sm : Samples) (cs : List Candidate),
    (tryAll m sm none cs = none ↔ ∀ c ∈ cs, cellTest m sm.drawing c = false) ∧
    ∀ b, tryAll m sm none cs = some b →
      cellTest m sm.drawing b.cand = true ∧ b.score = scoreOf m sm b.cand ∧
      ∃ before after, cs = before ++ b.cand :: after ∧
        (∀ c ∈ before, cellTest m sm.drawing c = true → b.score < scoreOf m sm c) ∧
        ∀ c ∈ after, cellTest m sm.drawing c = true → b.score ≤ scoreOf m sm c) ∧
  (∀ (m : HideMap) (p : Pattern) (c : Candidate),
    cellTest m p c = true ↔ ∀ i j, i < (p.orientedSize c.orient).1 → j < (p.orientedSize c.orient).2 →
      ∀ (r : Requirement) (d : Cell), d = m.plane.read (768 * (c.y + j) + (c.x + i)) →
        ((p.oriented c.orient i j = .face ∧ r = p.face) ∨ (p.oriented c.orient i j = .hidden ∧ r = p.hidden) ∨
          (p.oriented c.orient i j = .edge ∧ r = p.edge)) →
        r.minGrade ≤ min d.base.val d.cap.val ∧ d.classes &&& ~~~r.tolerated = 0 ∧ d.occupant = none) ∧
  (∀ (m : HideMap) (sm : Samples) (c : Candidate),
    scoreOf m sm c = (sm.weights.lead : Int) * ((c.x : Int) - sm.floor) +
      (sm.weights.premium : Int) *
        ((mapCells (sm.drawing.orientedSize c.orient).1 (sm.drawing.orientedSize c.orient).2).map fun ij =>
          if sm.drawing.oriented c.orient ij.1 ij.2 = .outside then (0 : Int) else
            ((m.plane.read (cellAddr (c.x + ij.1) (c.y + ij.2))).effective.val : Int) -
              (sm.drawing.requirement (sm.drawing.oriented c.orient ij.1 ij.2)).minGrade).sum -
      (sm.weights.contact : Int) *
        (mapCells (sm.drawing.orientedSize c.orient).1 (sm.drawing.orientedSize c.orient).2).countP fun ij =>
          decide (sm.drawing.oriented c.orient ij.1 ij.2 ≠ .outside) &&
            [((-1 : Int), (0 : Int)), (1, 0), (0, -1), (0, 1)].any fun d =>
              contactAt m ((c.x : Int) + ij.1 + d.1) ((c.y : Int) + ij.2 + d.2)) ∧
  (∀ (m : HideMap) (x y : Int), contactAt m x y = true ↔ (x < 0 ∨ (m.width : Int) ≤ x ∨ y < 0 ∨ (m.height : Int) ≤ y ∨
    (m.plane.read (cellAddr x.toNat y.toNat)).effective.val = 0 ∨
    (m.plane.read (cellAddr x.toNat y.toNat)).occupant ≠ none)) ∧
  (∀ (sm : Samples) (c : Candidate), c ∈ sm.candidates ↔
    c.orient ∈ sm.orients ∧ c.x < sm.width ∧ c.y < sm.height ∧ sm.floor ≤ c.x ∧
    c.x + (sm.drawing.orientedSize c.orient).1 ≤ sm.frontier ∧
    c.x + (sm.drawing.orientedSize c.orient).1 ≤ sm.width ∧
    c.y + (sm.drawing.orientedSize c.orient).2 ≤ sm.height) ∧
  (∀ sm : Samples, (sm.orients.Pairwise fun a b => a < b) → sm.candidates.Pairwise fun a b =>
    a.x < b.x ∨ (a.x = b.x ∧ (a.y < b.y ∨ (a.y = b.y ∧ a.orient < b.orient)))) ∧
  ∀ (b : Set8), ((orientList b).Pairwise fun a b => a < b) ∧ ∀ o, o ∈ orientList b ↔ b.getLsbD o.val = true

/-- A search's completion by the best candidate its scan ends with: with none found it marks its pair no-fit and moves no
piece; a candidate that passes re-verification and finds no slot, none being FREE or WITHDRAWN, stalls the unit; one that
fails restarts the search with fresh samples and the retry count one higher, and at the third failure its pair is marked.
Each arms the gate.
What the scan ends with, and what passes re-verification, is spelled out by the shared words `scanEnds` and
`reverified`. -/
def Obligations.SearchCompletionWithoutCommit : Prop :=
  ∀ (s : State) (q : Search), s.searchUnit = .searching q →
    (s.scanEnds q none →
      ∃ t, exec .searchCompletion s = .next t ∧ t.marked q.pair.tag q.pair.ctx = true ∧ t.gate.armed = true ∧
        (∀ (u : Tag) (k : Ctx), (u, k) ≠ (q.pair.tag, q.pair.ctx) → t.marked u k = s.marked u k) ∧
        s.samePieces t ∧ s.sameSettings t ∧ s.steady t ∧ s.sameHeads t ∧ t.ports = s.ports) ∧
    (∀ b, s.scanEnds q (some b) → s.reverified q b.cand → (∀ n : SlotNo, s.slots[n] ≠ none) → s.withdrawn = [] →
      ∃ t, exec .searchCompletion s = .next t ∧ t.searchUnit = .stalled q.pair ∧ t.gate.armed = true ∧
        s.raises t .searchStalled ∧ t.marks = s.marks ∧ s.samePieces t ∧ s.sameSettings t ∧ s.steady t ∧
        s.sameHeads t ∧ t.ports = s.ports) ∧
    (∀ b, s.scanEnds q (some b) → ¬ s.reverified q b.cand → 2 ≤ q.retry →
      ∃ t, exec .searchCompletion s = .next t ∧ t.marked q.pair.tag q.pair.ctx = true ∧ t.gate.armed = true ∧
        (∀ (u : Tag) (k : Ctx), (u, k) ≠ (q.pair.tag, q.pair.ctx) → t.marked u k = s.marked u k) ∧
        s.samePieces t ∧ s.sameSettings t ∧ s.steady t ∧ s.sameHeads t ∧ t.ports = s.ports) ∧
    (∀ b x, s.scanEnds q (some b) → ¬ s.reverified q b.cand → q.retry < 2 → s.entry? q.pair.tag = some x →
      ∃ t, exec .searchCompletion s = .next t ∧ t.gate.armed = true ∧
        t.searchUnit = s.freshSearch x q.pair.ctx (q.retry + 1) ∧ t.windowShort = false ∧
        t.marks = s.marks ∧ s.samePieces t ∧ s.sameSettings t ∧ s.steady t ∧ s.sameHeads t ∧ t.ports = s.ports)

/-- The Search Unit after a command. A completion that commits, finds none or fails for the third time is followed by
selection; by selection the first entry in queue order that can be searched for on a context, and of two contexts the
older, gets a search with fresh samples, and with no such pair the unit is IDLE, and window short is set, with its flag,
exactly when an entry that wants pieces is unmarked for an OPEN context.
Every other command that is one event: an IDLE unit selects, so that an event which makes a pair selectable starts its
search; a search goes on, or is abandoned, by a cancel of its entry or a drain or abort of its context, and the unit
selects; a stall stays, or is abandoned likewise, or re-runs its search when a slot becomes FREE or WITHDRAWN.
Every step leaves no IDLE unit beside a pair it could take. -/
def Obligations.SelectionTakesFirstPair : Prop :=
  (∀ (s : State) (q : Search), s.searchUnit = .searching q → (s.entries.map fun e => e.tag).Nodup →
    (s.scanEnds q none ∨ (∃ b, s.scanEnds q (some b) ∧ ¬ s.reverified q b.cand ∧ 2 ≤ q.retry) ∨
      (∃ b, s.scanEnds q (some b) ∧ s.reverified q b.cand ∧
        ((∃ n : SlotNo, s.slots[n] = none) ∨ s.withdrawn ≠ []))) →
    ∃ t, exec .searchCompletion s = .next t ∧ s.selected t) ∧
  (∀ (c : Instr) (s t : State), exec c s = .next t → s.inOneEvent t c → c ≠ .searchCompletion → s.searchUnitWf →
    s.searchWf → (s.entries.map fun e => e.tag).Nodup → s.searchFollows t) ∧
  ∀ s t : State, step s = .next t → s.searchUnitWf → s.searchWf → (s.entries.map fun e => e.tag).Nodup →
    t.searchUnitWf

/-- A commit, of the best candidate its scan ends with, which passes re-verification: the record, the occupants of its cells, the counts of its entry and pattern and the commit counter.
It takes the lowest FREE slot, or with none FREE the slot at the front of the withdrawn list, whose old record is
discarded: the slot leaves the list, the old entry loses a holder and is removed if it is not OPEN and has none left,
and the old pattern loses a reference.
The cells a piece covers: those under its oriented mask where it is not OUTSIDE. -/
def Obligations.SearchCommits : Prop :=
  (∀ (p : Pattern) (c : Candidate) (x y : Nat), (x, y) ∈ hideCells p c ↔
    ∃ i j, i < (p.orientedSize c.orient).1 ∧ j < (p.orientedSize c.orient).2 ∧ p.oriented c.orient i j ≠ .outside ∧
      x = c.x + i ∧ y = c.y + j) ∧
  ∀ (s : State) (q : Search) (b : Best) (n : SlotNo), s.searchUnit = .searching q → s.scanEnds q (some b) →
    s.reverified q b.cand → s.planesWf → s.hidesWf →
    ((∀ m : SlotNo, m < n → s.slots[m] ≠ none) → s.slots[n] = none →
    ∃ (t : State) (r : Placement), exec .searchCompletion s = .next t ∧
      r = { state := .placed, ctx := q.pair.ctx, tag := q.pair.tag, pattern := q.samples.pattern,
            orient := b.cand.orient, xlo := b.cand.x, ylo := b.cand.y,
            wo := (q.samples.drawing.orientedSize b.cand.orient).1,
            ho := (q.samples.drawing.orientedSize b.cand.orient).2, covered := q.samples.drawing.covered,
            score := b.score, commitNo := (s.ctxs[q.pair.ctx]).commits, head := none, tainted := false,
            cause := none } ∧
      t.slots = s.slots.set n (some r) ∧
      (∀ x y, (x, y) ∈ hideCells q.samples.drawing b.cand →
        t.cell q.pair.ctx x y = { s.cell q.pair.ctx x y with occupant := some n }) ∧
      (∀ x y, x < 768 → (∀ uv ∈ hideCells q.samples.drawing b.cand, uv ≠ (x, y)) →
        (∀ uv ∈ hideCells q.samples.drawing b.cand, uv.1 < 768) →
        t.cell q.pair.ctx x y = s.cell q.pair.ctx x y) ∧
      t.entries = s.entries.map (fun e => if e.tag = q.pair.tag then
        { e with live := e.live + 1, holders := e.holders + 1 } else e) ∧
      t.patterns[q.samples.pattern] =
        { s.patterns[q.samples.pattern] with refs := (s.patterns[q.samples.pattern]).refs + 1 } ∧
      (t.ctxs[q.pair.ctx]).commits = (s.ctxs[q.pair.ctx]).commits + 1 ∧
      s.raises t .committed ∧ t.gate.armed = true ∧ t.withdrawn = s.withdrawn ∧ s.sameSettings t ∧ t.ports = s.ports) ∧
    (∀ (rest : List SlotNo) (old : Placement), (∀ m : SlotNo, s.slots[m] ≠ none) → s.withdrawn = n :: rest →
      s.slots[n] = some old →
      ∃ (t : State) (r : Placement), exec .searchCompletion s = .next t ∧
        r = { state := .placed, ctx := q.pair.ctx, tag := q.pair.tag, pattern := q.samples.pattern,
              orient := b.cand.orient, xlo := b.cand.x, ylo := b.cand.y,
              wo := (q.samples.drawing.orientedSize b.cand.orient).1,
              ho := (q.samples.drawing.orientedSize b.cand.orient).2, covered := q.samples.drawing.covered,
              score := b.score, commitNo := (s.ctxs[q.pair.ctx]).commits, head := none, tainted := false,
              cause := none } ∧
        t.slots = s.slots.set n (some r) ∧ t.withdrawn = rest.filter (fun m => m ≠ n) ∧
        (∀ x y, (x, y) ∈ hideCells q.samples.drawing b.cand →
          t.cell q.pair.ctx x y = { s.cell q.pair.ctx x y with occupant := some n }) ∧
        (∀ x y, x < 768 → (∀ uv ∈ hideCells q.samples.drawing b.cand, uv ≠ (x, y)) →
          (∀ uv ∈ hideCells q.samples.drawing b.cand, uv.1 < 768) →
          t.cell q.pair.ctx x y = s.cell q.pair.ctx x y) ∧
        (∀ u : Tag, u ≠ old.tag → u ≠ q.pair.tag → t.entry? u = s.entry? u) ∧
        (∀ e, s.entry? q.pair.tag = some e → t.entry? q.pair.tag = some { e with
          live := e.live + 1, holders := (if old.tag = q.pair.tag then e.holders - 1 else e.holders) + 1 }) ∧
        (∀ e, old.tag ≠ q.pair.tag → s.entry? old.tag = some e →
          ((e.state = .opened ∨ 1 < e.holders) →
            t.entry? old.tag = some { e with holders := e.holders - 1 } ∧
            ∀ m : PatNo, t.patterns[m] = { s.patterns[m] with
              refs := (s.patterns[m]).refs - (if m = old.pattern then 1 else 0) +
                (if m = q.samples.pattern then 1 else 0) }) ∧
          (e.state ≠ .opened → e.holders ≤ 1 →
            t.entry? old.tag = none ∧ (∀ k : Ctx, t.marked old.tag k = false) ∧
            ∀ m : PatNo, t.patterns[m] = { s.patterns[m] with
              refs := (s.patterns[m]).refs - (if m = e.pattern then 1 else 0) - (if m = old.pattern then 1 else 0) +
                (if m = q.samples.pattern then 1 else 0) })) ∧
        (t.ctxs[q.pair.ctx]).commits = (s.ctxs[q.pair.ctx]).commits + 1 ∧
        s.raises t .committed ∧ t.gate.armed = true ∧ s.sameSettings t ∧ t.ports = s.ports)

/-! ### The Placement Table -/

/-- PLACEMENT WITHDRAW refuses a context number above 1, and a slot that is FREE or whose record has another context or
commit number.
PLACEMENT WITHDRAW of a PLACED or CLAIMED record named by slot, context and commit number: WITHDRAWN with cause
REQUEST, its cells freed, the slot at the back of the withdrawn list, the entry's live count one less, the context's
marks cleared, the notices flagged.
A head of none is 255 in the reply, the model's reading of R188 (log 26). -/
def Obligations.PlacementWithdrawGivesUp : Prop :=
  (∀ (pl : List Byte) (s : State), s.takes 0 → pl.length = 4 →
    (1 < u8 pl 1 → exec (.placementWithdraw 0 pl) s = .next (s.refused .placementWithdraw 0 .range)) ∧
    ∀ (n : SlotNo) (k : Ctx), u8 pl 0 = n.val → u8 pl 1 = k.val →
      (∀ r, s.slots[n] = some r → r.ctx ≠ k ∨ r.commitNo.toNat ≠ u16 pl 2) →
      exec (.placementWithdraw 0 pl) s = .next (s.refused .placementWithdraw 0 .notFound)) ∧
  ∀ (pl : List Byte) (s : State) (n : SlotNo) (r : Placement), s.takes 0 → pl.length = 4 → u8 pl 0 = n.val →
    s.slots[n] = some r → u8 pl 1 = r.ctx.val → BitVec.ofNat 16 (u16 pl 2) = r.commitNo →
    (r.state ≠ .placed → r.state ≠ .claimed →
      exec (.placementWithdraw 0 pl) s = .next (s.refused .placementWithdraw 0 .state)) ∧
    ((r.state = .placed ∨ r.state = .claimed) → s.planesWf →
      ∃ t, exec (.placementWithdraw 0 pl) s = .next t ∧
        t.slots = s.slots.set n (some { r with state := .withdrawn, cause := some .request }) ∧
        (∀ a, (t.planes[r.ctx]).read a = if ((s.planes[r.ctx]).read a).occupant = some n then
          { (s.planes[r.ctx]).read a with occupant := none } else (s.planes[r.ctx]).read a) ∧
        (∀ j : Ctx, j ≠ r.ctx → t.planes[j] = s.planes[j] ∧ t.marks[j] = s.marks[j]) ∧ t.marks[r.ctx] = 0 ∧
        t.withdrawn = s.withdrawn ++ [n] ∧
        t.entries = s.entries.map (fun e => if e.tag = r.tag then { e with live := e.live - 1 } else e) ∧
        s.raises t .placementWithdrawn ∧ (∀ h, r.state = .claimed → r.head = some h → s.raises t (.claimLost h) ∧
          (t.heads[h]).held = (s.heads[h]).held.filter fun x => x.slot ≠ n) ∧
        s.repliedFrom t .placementWithdraw 0 (enc1 n.val ++ enc1 r.state.code ++
          enc1 (match r.head with | none => 255 | some h => h.val + 1)) ∧
        s.sameSettings t ∧ s.steady t ∧ t.patterns = s.patterns)

/-! ### Hide contexts -/

/-- HIDE OPEN: the lowest EMPTY context becomes OPEN with the given size and article. An article above 15 or a size out of
range is refused RANGE, and with no EMPTY context the request is refused FULL.
MARK FRONTIER: M becomes the greater of itself and the value clamped to W; a rise clears the context's marks. A context
number above 1 is refused RANGE, an EMPTY or CLOSED context STATE.
HIDE DRAIN: an OPEN context becomes DRAINING with cause REQUEST while a live placement or a flaw with work due is left on
it, and else CLOSED, which is flagged; the flaws stay as they are where no job can start. A search or stall on it is
abandoned, one on the other context goes on; a DRAINING one is left; another is refused, and so is a context number
above 1.
The codes of the open rank and of the drain cause in the replies are the model's reading of R188 (log 9). -/
def Obligations.HideOpenMarkFrontierAndDrain : Prop :=
  ((∀ (pl : List Byte) (s : State), s.takes 1 → pl.length = 5 →
    (15 < u8 pl 4 ∨ u16 pl 0 = 0 ∨ 768 < u16 pl 0 ∨ u16 pl 2 = 0 ∨ 512 < u16 pl 2 →
      exec (.hideOpen 1 pl) s = .next (s.refused .hideOpen 1 .range)) ∧
    (u8 pl 4 ≤ 15 → 1 ≤ u16 pl 0 → u16 pl 0 ≤ 768 → 1 ≤ u16 pl 2 → u16 pl 2 ≤ 512 →
      (∀ k : Ctx, (s.ctxs[k]).state ≠ .empty) → exec (.hideOpen 1 pl) s = .next (s.refused .hideOpen 1 .full))) ∧
  (∀ (pl : List Byte) (s : State), s.takes 1 → pl.length = 3 →
    (1 < u8 pl 0 → exec (.markFrontier 1 pl) s = .next (s.refused .markFrontier 1 .range)) ∧
    ∀ k : Ctx, u8 pl 0 = k.val → ((s.ctxs[k]).state = .empty ∨ (s.ctxs[k]).state = .closed) →
      exec (.markFrontier 1 pl) s = .next (s.refused .markFrontier 1 .state)) ∧
  (∀ (pl : List Byte) (s : State) (a : Fin 16) (k : Ctx), s.takes 1 → pl.length = 5 → u8 pl 4 = a.val →
    1 ≤ u16 pl 0 → u16 pl 0 ≤ 768 → 1 ≤ u16 pl 2 → u16 pl 2 ≤ 512 →
    ((k = 0 ∧ (s.ctxs[(0 : Ctx)]).state = .empty) ∨
      (k = 1 ∧ (s.ctxs[(0 : Ctx)]).state ≠ .empty ∧ (s.ctxs[(1 : Ctx)]).state = .empty)) →
    ∃ t r, exec (.hideOpen 1 pl) s = .next t ∧
      r = (if (s.ctxs[otherCtx k]).state = .empty then Rank.first else .second) ∧
      t.ctxs[k] = { state := .opened, aborted := false, drainCause := none, article := a, width := u16 pl 0,
                    height := u16 pl 2, rank := some r, registered := false, count := 0, frontier := 0, commits := 0 } ∧
      s.repliedFrom t .hideOpen 1 (enc1 k.val ++ enc1 (if r = .first then 0 else 1)) ∧
      t.ctxs[otherCtx k] = { s.ctxs[otherCtx k] with state := (t.ctxs[otherCtx k]).state } ∧
      s.sameSettings t ∧ s.samePieces t ∧ s.sameHeads t ∧ t.marks = s.marks) ∧
  (∀ (pl : List Byte) (s : State) (k : Ctx), s.takes 1 → pl.length = 3 → u8 pl 0 = k.val →
    ((s.ctxs[k]).state = .opened ∨ (s.ctxs[k]).state = .draining) →
    ∃ t rose, exec (.markFrontier 1 pl) s = .next t ∧
      (t.ctxs[k]).frontier = max (s.ctxs[k]).frontier (min (u16 pl 1) (s.ctxs[k]).width) ∧
      rose = decide ((s.ctxs[k]).frontier < (t.ctxs[k]).frontier) ∧
      (rose = true → t.marks = s.marks.set k 0) ∧ (rose = false → t.marks = s.marks) ∧
      (t.ctxs[k]).width = (s.ctxs[k]).width ∧ (t.ctxs[otherCtx k]).frontier = (s.ctxs[otherCtx k]).frontier ∧
      s.repliedFrom t .markFrontier 1 (enc1 k.val ++ enc2 (t.ctxs[k]).frontier ++ encFlag rose) ∧
      s.sameSettings t ∧ s.samePieces t ∧ s.sameHeads t)) ∧
  (∀ (pl : List Byte) (s : State), s.takes 0 → pl.length = 1 → 1 < u8 pl 0 →
    exec (.hideDrain 0 pl) s = .next (s.refused .hideDrain 0 .range)) ∧
  ∀ (pl : List Byte) (s : State) (k : Ctx), s.takes 0 → pl.length = 1 → u8 pl 0 = k.val →
    (((s.ctxs[k]).state = .empty ∨ (s.ctxs[k]).state = .closed) →
      exec (.hideDrain 0 pl) s = .next (s.refused .hideDrain 0 .state)) ∧
    ((s.ctxs[k]).state = .draining → exec (.hideDrain 0 pl) s = .next (s.answered .hideDrain 0
      (enc1 k.val ++ enc1 2 ++ enc1 (drainCode (s.ctxs[k]).drainCause)))) ∧
    ((s.ctxs[k]).state = .opened →
      ∃ t, exec (.hideDrain 0 pl) s = .next t ∧
        ((s.liveCount k ≠ 0 ∨ ∃ f ∈ t.flaws[k], f.state = .pending ∨ f.state = .withdrawing) →
          (t.ctxs[k]).state = .draining) ∧
        (s.liveCount k = 0 → (∀ f ∈ t.flaws[k], f.state ≠ .pending ∧ f.state ≠ .withdrawing) →
          (t.ctxs[k]).state = .closed ∧ s.raises t .hideClosed ∧ s.raises t .hideClosedMarking) ∧
        (s.inFlight ≠ none ∨ s.jobs = [] → t.flaws = s.flaws) ∧
        (s.liveCount k = 0 → (∀ f ∈ s.flaws[k], f.state.due = false) → (t.ctxs[k]).state = .closed ∧
          s.raises t .hideClosed ∧ s.raises t .hideClosedMarking) ∧
        t.ctxs[k] = { s.ctxs[k] with state := (t.ctxs[k]).state, drainCause := some .request } ∧
        (∀ q, t.searchUnit = .searching q → q.pair.ctx ≠ k) ∧ (∀ q, t.searchUnit = .stalled q → q.ctx ≠ k) ∧
        (∀ q, s.searchUnit = .searching q → q.pair.ctx ≠ k → t.searchUnit = s.searchUnit) ∧
        (∀ q, s.searchUnit = .stalled q → q.ctx ≠ k → t.searchUnit = s.searchUnit) ∧
        s.repliedFrom t .hideDrain 0 (enc1 k.val ++ enc1 (t.ctxs[k]).state.code ++ enc1 0) ∧
        s.sameSettings t ∧ s.samePieces t ∧ s.sameHeads t ∧ t.marks = s.marks)

/-- HIDE ABORT refuses a context number above 1 and an EMPTY or CLOSED context, HIDE RELEASE a context number above 1 and
a context that is not CLOSED.
HIDE ABORT of an OPEN or DRAINING context: CLOSED and aborted; its PLACED and CLAIMED placements WITHDRAWN and its
CUTTING ones SPOILED with cause HIDE_ABORTED, its other records and the other context's as they were; its unfinished
flaws WITHDRAWN and its jobs gone. Every cell that a placement now WITHDRAWN occupied has no occupant, and no other cell
changes.
Each piece is flagged, and its head told of a claim or cut that is gone from its held list; the entries' counts move by
the pieces ended, and the withdrawn slots join the list in ascending order. The context's marks are cleared if a placement
of it was withdrawn, and no other. A search or stall on it is abandoned; a search on the other context goes on.
HIDE RELEASE of a CLOSED context: its cells, flaw list, marks and slots are reset, it takes the EMPTY values, and
the other context, if SECOND, becomes FIRST.
Each record freed takes a holder from its entry and a reference from its pattern; an entry that is not OPEN and has no
holder left is gone from the queue, with its marks and its pattern's reference; the slots leave the withdrawn list. A
search on the other context goes on. -/
def Obligations.HideAbortAndRelease : Prop :=
  (∀ (pl : List Byte) (s : State), s.takes 0 → pl.length = 1 →
    (1 < u8 pl 0 → exec (.hideAbort 0 pl) s = .next (s.refused .hideAbort 0 .range) ∧
      exec (.hideRelease 0 pl) s = .next (s.refused .hideRelease 0 .range)) ∧
    ∀ k : Ctx, u8 pl 0 = k.val → ((s.ctxs[k]).state = .empty ∨ (s.ctxs[k]).state = .closed) →
      exec (.hideAbort 0 pl) s = .next (s.refused .hideAbort 0 .state)) ∧
  (∀ (pl : List Byte) (s : State) (k : Ctx), s.takes 0 → pl.length = 1 → u8 pl 0 = k.val →
    ((s.ctxs[k]).state = .opened ∨ (s.ctxs[k]).state = .draining) →
    ∃ t, exec (.hideAbort 0 pl) s = .next t ∧
      t.ctxs[k] = { s.ctxs[k] with state := .closed, aborted := true } ∧
      (∀ (n : SlotNo) (r : Placement), s.slots[n] = some r → r.ctx = k →
        ((r.state = .placed ∨ r.state = .claimed) →
          t.slots[n] = some { r with state := .withdrawn, cause := some .hideAborted } ∧
          s.raises t .placementWithdrawn ∧ ∀ h, r.state = .claimed → r.head = some h → s.raises t (.claimLost h)) ∧
        (r.state = .cutting →
          t.slots[n] = some { r with state := .spoiled, cause := some .hideAborted } ∧
          s.raises t .pieceSpoiled ∧ ∀ h, r.head = some h → s.raises t (.cutAborted h)) ∧
        (r.state.live = false → t.slots[n] = some r)) ∧
      (∀ n : SlotNo, (∀ r, s.slots[n] = some r → r.ctx ≠ k) → t.slots[n] = s.slots[n]) ∧
      (∀ h : Head, (t.heads[h]).state = (s.heads[h]).state ∧
        (t.heads[h]).held = (s.heads[h]).held.filter fun y => !((s.slots[y.slot]).any fun r =>
          decide (r.ctx = k) && decide (r.state = .claimed ∨ r.state = .cutting) && decide (r.head = some h))) ∧
      s.recounted t ∧ s.withdrawnJoin t ∧
      ((∃ (n : SlotNo) (r : Placement), s.slots[n] = some r ∧ r.ctx = k ∧ (r.state = .placed ∨ r.state = .claimed)) →
        t.marks[k] = 0) ∧
      ((∀ (n : SlotNo) (r : Placement), s.slots[n] = some r → r.ctx = k → r.state ≠ .placed ∧ r.state ≠ .claimed) →
        t.marks[k] = s.marks[k]) ∧
      t.marks[otherCtx k] = s.marks[otherCtx k] ∧
      (∀ q, t.searchUnit = .searching q → q.pair.ctx ≠ k) ∧ (∀ q, t.searchUnit = .stalled q → q.ctx ≠ k) ∧
      (∀ q, s.searchUnit = .searching q → q.pair.ctx ≠ k → ∃ r, t.searchUnit = .searching r ∧ q.goesOn r) ∧
      t.flaws[k] = (s.flaws[k]).map (fun f => if f.state = .pending ∨ f.state = .withdrawing then
        { f with state := .withdrawn } else f) ∧
      (∀ j ∈ t.jobs, j.ctx ≠ k) ∧ (∀ j, t.inFlight = some j → j.ctx ≠ k) ∧
      s.raises t .hideClosed ∧ s.raises t .hideClosedMarking ∧
      s.repliedFrom t .hideAbort 0 (enc1 k.val ++
        enc2 (s.records.countP fun r => r.2.ctx = k && (r.2.state = .placed || r.2.state = .claimed)) ++
        enc1 (s.records.countP fun r => r.2.ctx = k && r.2.state = .cutting)) ∧
      t.planes[otherCtx k] = s.planes[otherCtx k] ∧
      (s.planesWf → s.freesCells t k fun r => r.ctx = k ∧ (r.state = .placed ∨ r.state = .claimed)) ∧
      t.patterns = s.patterns ∧ t.postCounter = s.postCounter ∧ s.sameSettings t) ∧
  ∀ (pl : List Byte) (s : State) (k : Ctx), s.takes 0 → pl.length = 1 → u8 pl 0 = k.val →
    ((s.ctxs[k]).state ≠ .closed → exec (.hideRelease 0 pl) s = .next (s.refused .hideRelease 0 .state)) ∧
    ((s.ctxs[k]).state = .closed →
      ∃ t, exec (.hideRelease 0 pl) s = .next t ∧
        t.ctxs[k] = HideContext.reset ∧ (∀ x y, t.cell k x y = Cell.reset) ∧ t.flaws[k] = [] ∧ t.marks[k] = 0 ∧
        (∀ n : SlotNo, t.slots[n] = (s.slots[n]).filter fun r => r.ctx ≠ k) ∧
        t.withdrawn = s.withdrawn.filter (fun n => !((s.slots[n]).any fun r => decide (r.ctx = k))) ∧
        ((s.entries.map fun e => e.tag).Nodup →
          t.entries = (s.entries.filter fun e => !s.leavesQueue k e).map (fun e =>
            { e with holders := e.holders - s.namedIn k e.tag }) ∧
          (∀ e ∈ s.entries, s.leavesQueue k e = true → ∀ j : Ctx, t.marked e.tag j = false) ∧
          (∀ u : Tag, (∀ e ∈ s.entries, e.tag = u → s.leavesQueue k e = false) →
            t.marked u (otherCtx k) = s.marked u (otherCtx k)) ∧
          ∀ m : PatNo, t.patterns[m] = { s.patterns[m] with
            refs := (s.patterns[m]).refs - (s.records.countP fun r => r.2.ctx = k && r.2.pattern = m) -
              s.entries.countP fun e => s.leavesQueue k e && e.pattern = m }) ∧
        (∀ q, s.searchUnit = .searching q → t.searchUnit = s.searchUnit) ∧
        ((s.ctxs[otherCtx k]).rank = some .second → (t.ctxs[otherCtx k]).rank = some .first) ∧
        t.planes[otherCtx k] = s.planes[otherCtx k] ∧
        s.repliedFrom t .hideRelease 0 (enc1 k.val ++ enc2 (s.records.countP fun r => r.2.ctx = k)) ∧
        s.sameSettings t)

/-! ### The conveyor -/

/-- SET CONVEYOR's payload: which byte gives which setting, and the values out of range.
SET CONVEYOR: out of range is refused RANGE, a registered context STATE; otherwise every setting is replaced and
nothing else changes.
The order of the reach values in the bytes is the model's reading (log 13). -/
def Obligations.SetConveyorReplaces : Prop :=
  (∀ pl : List Byte,
    (conveyor? pl = none ↔ u16 pl 0 = 0 ∨ 3 < u8 pl 2 ∨ 4095 < u16 pl 3 ∨ u16 pl 5 = 0 ∨ 1024 < u16 pl 5 ∨
      4095 < u16 pl 7 ∨ u16 pl 9 = 0 ∨ 1024 < u16 pl 9) ∧
    ∀ c, conveyor? pl = some c →
      c.factor = u16 pl 0 ∧
      c.reach[(0 : Head)] = { present := decide (u8 pl 2 % 2 = 1), start := u16 pl 3, length := u16 pl 5 } ∧
      c.reach[(1 : Head)] = { present := decide (u8 pl 2 / 2 = 1), start := u16 pl 7, length := u16 pl 9 } ∧
      c.separation = u8 pl 11 ∧ c.guardCells = u8 pl 12 ∧ c.claimLimit = u8 pl 13) ∧
  ∀ (pl : List Byte) (s : State), s.takes 0 → pl.length = 14 →
    (conveyor? pl = none → exec (.setConveyor 0 pl) s = .next (s.refused .setConveyor 0 .range)) ∧
    ∀ c, conveyor? pl = some c →
      ((∃ k : Ctx, (s.ctxs[k]).registered = true) →
        exec (.setConveyor 0 pl) s = .next (s.refused .setConveyor 0 .state)) ∧
      ((∀ k : Ctx, (s.ctxs[k]).registered = false) →
        exec (.setConveyor 0 pl) s = .next (({ s with conveyor := c } : State).answered .setConveyor 0
          (enc2 (u16 pl 0) ++ enc1 (u8 pl 2) ++ enc2 (u16 pl 3) ++ enc2 (u16 pl 5) ++ enc2 (u16 pl 7) ++
            enc2 (u16 pl 9) ++ enc1 (u8 pl 11) ++ enc1 (u8 pl 12) ++ enc1 (u8 pl 13))))

/-- An encoder transition: forward adds 1 to each registered context's count and reverse takes 1, both within their
bounds; an invalid one counts an error. -/
def Obligations.EncoderTransitionCounts : Prop :=
  ∀ (a b : Bool) (s : State), (a ≠ s.encA ∨ b ≠ s.encB) →
    ∃ t, exec (.encoderTransition a b) s = .next t ∧ t.encA = a ∧ t.encB = b ∧
      t.encErrors = (if a ≠ s.encA ∧ b ≠ s.encB then min 255 (s.encErrors + 1) else s.encErrors) ∧
      (∀ k : Ctx, (s.ctxs[k]).registered = false → (t.ctxs[k]).count = (s.ctxs[k]).count) ∧
      (∀ k : Ctx, (s.ctxs[k]).registered = true → (t.ctxs[k]).count =
        if a ≠ s.encA ∧ b ≠ s.encB then (s.ctxs[k]).count
        else if (a ≠ s.encA ∧ a ≠ b) ∨ (b ≠ s.encB ∧ a = b) then min 4294967295 ((s.ctxs[k]).count + 1)
        else (s.ctxs[k]).count - 1) ∧
      ((∀ k : Ctx, (s.ctxs[k]).registered = false) →
        t = { s with encA := a, encB := b, encErrors := t.encErrors }) ∧
      t.planes = s.planes ∧ t.flaws.map List.length = s.flaws.map List.length ∧ t.patterns = s.patterns ∧
      t.conveyor = s.conveyor ∧ t.weights = s.weights ∧ t.ports = s.ports

/-- A change of cell travel takes its consequences, as `State.travelTaken` lists them: exhaustion, reach loss, separation
loss and MISSED, with the counts of the entries.
An encoder transition that changes the cell travel of one context, as one event; one that changes both, as two events,
each against the new cell travel of both contexts; neither changes a registration.
A registration, from unregistered to a cell travel of 0: by a debounce expiry, whose moment is the model's choice
(log 4), or by a pin change of a line without debounce.
When a column has passed every present head. -/
def Obligations.TravelChangeTakesItsConsequences : Prop :=
  (∀ (s : State) (k : Ctx) (x : Nat), s.passedAll k x = true ↔ (∃ h : Head, (s.conveyor.reach[h]).present = true) ∧
    ∀ h : Head, (s.conveyor.reach[h]).present = true →
      (x : Int) ≤ (s.travel k : Int) - (s.conveyor.reach[h]).start - (s.conveyor.reach[h]).length) ∧
  (∀ (a b : Bool) (s t : State), exec (.encoderTransition a b) s = .next t →
    (∀ k : Ctx, (t.ctxs[k]).registered = (s.ctxs[k]).registered) ∧
    (s.heldWf →
      (∀ k : Ctx, s.travel k ≠ t.travel k → s.travel (otherCtx k) = t.travel (otherCtx k) →
        s.travelTaken t (fun j => j = k) (s.raises t)) ∧
      ((∀ k : Ctx, s.travel k ≠ t.travel k) → s.travelTaken t (fun _ => True) (s.raisesInTwo t)))) ∧
  ∀ (l : LineNo) (s : State) (d : Bool) (k : Ctx), (s.lines[l]).function = .hideEdge → s.heldWf → s.takesEdge k →
    (∀ c, (s.lines[l]).work = .input d (some c) → c.level = true →
      ∃ t, exec (.debounceExpiry l) s = .next t ∧ t.travel k = 0 ∧ s.travelTaken t (fun j => j = k) (s.raises t)) ∧
    ∀ v, (s.lines[l]).pin ≠ v → (s.lines[l]).work = .input d none → (s.lines[l]).debounce = 0 → d = false →
      xor v (s.lines[l]).invert = true →
      ∃ t, exec (.linePinChange l v) s = .next t ∧ t.travel k = 0 ∧ s.travelTaken t (fun j => j = k) (s.raises t)

/-- Cell travel, floor and reach of a context; an ABSENT head reaches nothing.
The gap of two placements is the number of whole positions between their intervals. -/
def Obligations.TravelFloorReachAndSeparation : Prop :=
  ((∀ (s : State) (k : Ctx), (s.ctxs[k]).registered = true →
    s.travel k = min 4095 ((s.ctxs[k]).count * s.conveyor.factor / 65536)) ∧
  (∀ (s : State) (k : Ctx), (s.ctxs[k]).registered = false → s.floor k = 0 ∧ ∀ h c, s.reaches h k c = false) ∧
  (∀ (s : State) (h : Head), (s.conveyor.reach[h]).present = false → ∀ (k : Ctx) (c : Nat), s.reaches h k c = false) ∧
  (∀ (s : State) (k : Ctx), (∀ h : Head, (s.conveyor.reach[h]).present = false) → s.floor k = 0) ∧
  (∀ (s : State) (k : Ctx) (h : Head), (s.ctxs[k]).registered = true → (s.conveyor.reach[h]).present = true →
    (∀ g : Head, (s.conveyor.reach[g]).present = true → (s.conveyor.reach[h]).start ≤ (s.conveyor.reach[g]).start) →
    (s.floor k : Int) = max 0 ((s.travel k : Int) - (s.conveyor.reach[h]).start + 1 + s.conveyor.guardCells)) ∧
  ∀ (s : State) (k : Ctx) (h : Head) (c : Nat), (s.ctxs[k]).registered = true → (s.conveyor.reach[h]).present = true →
    (s.reaches h k c = true ↔
      (s.travel k : Int) - (s.conveyor.reach[h]).start - (s.conveyor.reach[h]).length < c ∧
      (c : Int) ≤ (s.travel k : Int) - (s.conveyor.reach[h]).start)) ∧
  (∀ (s : State) (p q : Placement), s.gap p q =
    max (((s.travel p.ctx : Int) - p.xhi) - ((s.travel q.ctx : Int) - q.xlo))
      (((s.travel q.ctx : Int) - q.xhi) - ((s.travel p.ctx : Int) - p.xlo)) - 1 ∧
    (s.separated p q = true ↔ (s.conveyor.separation : Int) ≤ s.gap p q) ∧ s.gap p q = s.gap q p)

/-! ### The Advance Gate -/

/-- The gate under every command that is one event and does not write the gate itself. A HOLDING gate is released, and
stays armed, by a rise of the ready count to the release threshold, by the end of the nesting work, or when no registered
context is OPEN any longer; otherwise it holds on under its timer. A FLOWING gate takes a hold exactly at a test (a
search or job that starts, a ready count that falls, a registration, a re-arming completion) that finds it armed with the
hold condition standing. A search completion arms it; one that finds it armed is no test of its own, the model's choice
(log 28).
SET GATE: out of range is refused; otherwise the three settings take the values, and the gate is tested: FLOWING and
armed, it comes to HOLD exactly when the ready count is below a hold threshold above 0, a search or a job is under way,
and a registered context is OPEN; HOLDING, it is released exactly when the hold threshold is 0 or the ready count has
reached the release threshold.
GATE RELEASE and the expiry of the hold limit: the gate is FLOWING and disarmed. An expiry acts whatever time has passed,
the model's choice (log 4). -/
def Obligations.GateSetAndReleased : Prop :=
  (∀ s : State, s.readyCount = (List.finRange 256).countP fun n => (s.slots[n]).any fun r =>
    decide (r.state = .placed) && (s.ctxs[r.ctx]).registered) ∧
  (∀ (c : Instr) (s t : State), exec c s = .next t → s.inOneEvent t c → s.sparesGate c → s.flawsWf →
    s.gateFollows t c) ∧
  (∀ (pl : List Byte) (s : State), s.takes 0 → pl.length = 3 →
    (31 < u8 pl 0 ∨ u8 pl 1 < u8 pl 0 + 1 ∨ 32 < u8 pl 1 →
      exec (.setGate 0 pl) s = .next (s.refused .setGate 0 .range)) ∧
    (u8 pl 0 ≤ 31 → u8 pl 0 + 1 ≤ u8 pl 1 → u8 pl 1 ≤ 32 →
      ∃ t, exec (.setGate 0 pl) s = .next t ∧
        t.gate.hold = u8 pl 0 ∧ t.gate.release = u8 pl 1 ∧ t.gate.holdLimit = u8 pl 2 ∧
        t.gate.armed = s.gate.armed ∧
        (s.gate.holding = true → (u8 pl 0 = 0 ∨ u8 pl 1 ≤ t.readyCount) → t.gate.holding = false ∧
          t.gate.timer = none) ∧
        (s.gate.holding = true → 0 < u8 pl 0 → t.readyCount < u8 pl 1 → t.gate.holding = true) ∧
        (s.gate.holding = true → t.gate.holding = true → t.gate.timer = s.gate.timer) ∧
        (s.gate.holding = false → t.gate.holding = true → s.raises t .gateHold ∧ 0 < u8 pl 0 ∧
          t.readyCount < u8 pl 0 ∧ s.gate.armed = true) ∧
        (s.gate.holding = false →
          (t.gate.holding = true ↔ s.gate.armed = true ∧ 0 < u8 pl 0 ∧ t.readyCount < u8 pl 0 ∧
            ((∃ q, t.searchUnit = .searching q) ∨ t.inFlight ≠ none) ∧
            ∃ k : Ctx, (t.ctxs[k]).registered = true ∧ (t.ctxs[k]).state = .opened) ∧
          (t.gate.holding = true → t.gate.timer =
            if u8 pl 2 = 0 then none else some { elapsed := 0, limit := u8 pl 2 }) ∧
          (t.gate.holding = false → t.gate.timer = s.gate.timer)) ∧
        s.repliedFrom t .setGate 0 (enc1 (u8 pl 0) ++ enc1 (u8 pl 1) ++ enc1 (u8 pl 2) ++
          enc1 (if t.gate.holding then 1 else 0) ++ encFlag t.gate.armed) ∧
        s.sameSettings t ∧ s.samePieces t ∧ t.marks = s.marks)) ∧
  (∀ s : State,
    (s.takes 0 → ∃ t, exec (.gateRelease 0 []) s = .next t ∧
      t.gate = { s.gate with holding := false, armed := false, timer := none } ∧
      s.repliedFrom t .gateRelease 0 (enc1 (if s.gate.holding then 1 else 0)) ∧
      t = { s with gate := t.gate, lines := t.lines, ports := t.ports }) ∧
    (∀ x, s.gate.timer = some x → ∃ t, exec .gateHoldLimitExpiry s = .next t ∧
      t.gate = { s.gate with holding := false, armed := false, timer := none } ∧
      t = { s with gate := t.gate, lines := t.lines }))

/-! ### The Head Service -/

/-- HEAD ONLINE: refused while the interlock is INACTIVE, else the head is READY.
HEAD OFFLINE: the head is OFFLINE and holds nothing; each slot it held that is CLAIMED is PLACED again with head
none, the one that is CUTTING is SPOILED with cause HEAD_OFFLINE, its entry with one live piece less and one spoiled piece
more, and no other slot changes. The premise on the held list is part of the fourth law.
The claim timers follow the timed slots.
The two-byte slots of the reply are the model's reading of R188 (log 15). -/
def Obligations.HeadOnlineAndOffline : Prop :=
  (∀ (p : Port) (s : State) (h : Head), p = headPort h → s.takes p →
    ((s.heads[h]).interlock = .inactive → exec (.headOnline p []) s = .next (s.refused .headOnline p .state)) ∧
    ((s.heads[h]).interlock = .active →
      ∃ t, exec (.headOnline p []) s = .next t ∧ (t.heads[h]).state = .ready ∧
        (t.heads[h]).held = (s.heads[h]).held ∧ (∀ g, g ≠ h → (t.heads[g]).state = (s.heads[g]).state ∧
          (t.heads[g]).held = (s.heads[g]).held) ∧
        s.repliedFrom t .headOnline p
          (enc1 (s.heads[h]).state.code ++ encFlag (s.conveyor.reach[h]).present ++ encFlag (t.workAvailable h)) ∧
        s.claimsTimed t ∧ s.sameSettings t ∧ s.steady t ∧ t.marks = s.marks ∧ s.samePieces t)) ∧
  (∀ (p : Port) (s : State) (h : Head), p = headPort h → s.takes p →
    ((s.heads[h]).held.map fun x => x.slot).Nodup →
    (∀ x ∈ (s.heads[h]).held, ∃ r, s.slots[x.slot] = some r ∧ r.head = some h ∧
      (r.state = .claimed ∨ r.state = .cutting)) →
    ∃ t, exec (.headOffline p []) s = .next t ∧ (t.heads[h]).state = .offline ∧ (t.heads[h]).held = [] ∧
      (t.heads[h]).timer = none ∧
      (∀ (x : Held) (r : Placement), x ∈ (s.heads[h]).held → s.slots[x.slot] = some r →
        (r.state = .claimed → t.slots[x.slot] = some { r with state := .placed, head := none }) ∧
        (r.state = .cutting →
          t.slots[x.slot] = some { r with state := .spoiled, cause := some .headOffline } ∧ s.raises t .pieceSpoiled)) ∧
      (∀ n : SlotNo, (∀ x ∈ (s.heads[h]).held, x.slot ≠ n) → t.slots[n] = s.slots[n]) ∧
      (∀ g, g ≠ h → (t.heads[g]).state = (s.heads[g]).state ∧ (t.heads[g]).held = (s.heads[g]).held) ∧
      s.repliedFrom t .headOffline p (enc1 (s.heads[h]).state.code ++ pairBytes (s.claimedSlots h) ++
        encSlot? (s.cuttingSlot h)) ∧
      s.recounted t ∧ s.claimsTimed t ∧ s.sameSettings t ∧ s.steady t ∧ t.marks = s.marks ∧ t.planes = s.planes ∧ t.withdrawn = s.withdrawn ∧
      t.patterns = s.patterns)

/-- CLAIM by a READY head that holds fewer than two slots: with no eligible placement it is refused NONE_READY;
otherwise the eligible placement furthest downstream, of equal ones the lowest slot, is CLAIMED by the head.
What an eligible placement is. The claim timers follow the timed slots.
The grant order is the model's count of grants (log 21). -/
def Obligations.ClaimGrantsFurthest : Prop :=
  (∀ (s : State) (h : Head) (r : Placement), s.eligible h r = true ↔
    r.state = .placed ∧ ((s.ctxs[r.ctx]).state = .opened ∨ (s.ctxs[r.ctx]).state = .draining) ∧
    (s.ctxs[r.ctx]).registered = true ∧ s.reaches h r.ctx r.xlo = true ∧ s.reaches h r.ctx (r.xlo + r.wo - 1) = true ∧
    (∀ y ∈ (s.heads[otherHead h]).held, ∀ q, s.slots[y.slot] = some q → (s.conveyor.separation : Int) ≤ s.gap r q) ∧
    (s.heads[h]).state = .ready ∧ (s.heads[h]).held.length < 2) ∧
  ∀ (p : Port) (s : State) (h : Head), p = headPort h → s.takes p →
    ((s.heads[h]).state ≠ .ready → exec (.claim p []) s = .next (s.refused .claim p .state)) ∧
    ((s.heads[h]).state = .ready → 2 ≤ (s.heads[h]).held.length →
      exec (.claim p []) s = .next (s.refused .claim p .full)) ∧
    ((s.heads[h]).state = .ready → (s.heads[h]).held.length < 2 →
      (∀ (n : SlotNo) (r : Placement), s.slots[n] = some r → s.eligible h r = false) →
      exec (.claim p []) s = .next (s.refused .claim p .noneReady)) ∧
    ∀ (n : SlotNo) (r : Placement), (s.heads[h]).state = .ready → (s.heads[h]).held.length < 2 →
      s.slots[n] = some r → s.eligible h r = true →
      (∀ (m : SlotNo) (q : Placement), s.slots[m] = some q → s.eligible h q = true →
        s.downstream q < s.downstream r ∨ (s.downstream q = s.downstream r ∧ n ≤ m)) →
      ∃ t, exec (.claim p []) s = .next t ∧
        t.slots = s.slots.set n (some { r with state := .claimed, head := some h }) ∧
        (t.heads[h]).held = (s.heads[h]).held ++ [{ slot := n, grantOrder := s.grantCount, startOrder := none }] ∧
        (∀ g, g ≠ h → (t.heads[g]).held = (s.heads[g]).held) ∧
        ((s.heads[h]).held = [] → 0 < s.conveyor.claimLimit →
          (t.heads[h]).timer = some 0) ∧
        s.repliedFrom t .claim p
          (enc1 n.val ++ enc1 r.ctx.val ++ enc2 r.commitNo.toNat ++ enc1 r.tag.val ++ enc1 r.pattern.val ++
            enc1 (s.patterns[r.pattern]).kind ++ enc1 r.orient.val ++ enc2 r.xlo ++ enc2 r.ylo ++ enc1 r.wo ++
            enc1 r.ho ++ enc2 r.covered ++ enc2 (s.travel r.ctx - r.xlo - (s.conveyor.reach[h]).start) ++
            enc4 (s.ctxs[r.ctx]).count ++ enc1 ((s.heads[h]).held.length + 1)) ∧
        s.claimsTimed t ∧ s.sameSettings t ∧ s.steady t ∧ t.marks = s.marks ∧ t.planes = s.planes ∧ t.entries = s.entries ∧
        t.patterns = s.patterns ∧
        t.withdrawn = s.withdrawn

/-- When a head holds the slot that a request names: it stands in the held list, and its record has the context and the
commit number. START CUT refuses a context number above 1, and a slot that the head does not hold.
START CUT of a held slot while none is CUTTING: the slot is CUTTING, keeps its head and moves to the front of the
held list; while one is CUTTING it is refused STATE. The claim timers follow the timed slots.
The two-byte slots of the reply are the model's reading of R188 (log 15); the start order is the model's count of starts
(log 21). -/
def Obligations.StartCutMovesToFront : Prop :=
  (∀ (s : State) (h : Head) (n : Nat) (k : Ctx) (c : Nat), c < 65536 →
    (s.heldBy h n k c = none ↔ ∀ x ∈ (s.heads[h]).held, x.slot.val = n → ∀ r, s.slots[x.slot] = some r →
      r.ctx ≠ k ∨ r.commitNo.toNat ≠ c) ∧
    (∀ x r, s.heldBy h n k c = some (x, r) → x ∈ (s.heads[h]).held ∧ x.slot.val = n ∧ s.slots[x.slot] = some r ∧
      r.ctx = k ∧ r.commitNo.toNat = c) ∧
    (((s.heads[h]).held.map fun x => x.slot).Nodup → ∀ x ∈ (s.heads[h]).held, ∀ r, x.slot.val = n →
      s.slots[x.slot] = some r → r.ctx = k → r.commitNo.toNat = c → s.heldBy h n k c = some (x, r))) ∧
  (∀ (p : Port) (pl : List Byte) (s : State) (h : Head), p = headPort h → s.takes p → pl.length = 4 →
    (1 < u8 pl 1 → exec (.startCut p pl) s = .next (s.refused .startCut p .range)) ∧
    ∀ k : Ctx, u8 pl 1 = k.val → s.heldBy h (u8 pl 0) k (u16 pl 2) = none →
      exec (.startCut p pl) s = .next (s.refused .startCut p .notHeld)) ∧
  ∀ (p : Port) (pl : List Byte) (s : State) (h : Head) (k : Ctx) (x : Held) (r : Placement), p = headPort h →
    s.takes p → pl.length = 4 → u8 pl 1 = k.val → s.heldBy h (u8 pl 0) k (u16 pl 2) = some (x, r) →
    (s.isCutting h = true → exec (.startCut p pl) s = .next (s.refused .startCut p .state)) ∧
    (s.isCutting h = false →
      ∃ t, exec (.startCut p pl) s = .next t ∧
        t.slots = s.slots.set x.slot (some { r with state := .cutting }) ∧
        (t.heads[h]).held = { x with startOrder := some s.startCount } ::
          (s.heads[h]).held.filter (fun y => y.slot ≠ x.slot) ∧
        (t.heads[h]).timer = none ∧ (∀ g, g ≠ h → (t.heads[g]).held = (s.heads[g]).held) ∧
        s.repliedFrom t .startCut p (enc1 x.slot.val ++ pairBytes ((t.heads[h]).held.map fun y => y.slot)) ∧
        s.claimsTimed t ∧ s.sameSettings t ∧ s.steady t ∧ t.marks = s.marks ∧ t.planes = s.planes ∧ t.entries = s.entries ∧
        t.patterns = s.patterns ∧
        t.withdrawn = s.withdrawn)

/-- CUT DONE refuses a context number above 1, and a slot that the head does not hold.
CUT DONE on the head's CUTTING slot: CUT with the entry's counts moved, or SPOILED with cause LATE_FLAW if tainted;
the slot leaves the held list. A held slot that is only CLAIMED is refused NOT_HELD. A CLAIMED slot left behind becomes
the timed slot: the claim timers follow the timed slots.
The two-byte slots of the reply are the model's reading of R188 (log 15). -/
def Obligations.CutDoneEndsCut : Prop :=
  (∀ (p : Port) (pl : List Byte) (s : State) (h : Head), p = headPort h → s.takes p → pl.length = 4 →
    (1 < u8 pl 1 → exec (.cutDone p pl) s = .next (s.refused .cutDone p .range)) ∧
    ∀ k : Ctx, u8 pl 1 = k.val → s.heldBy h (u8 pl 0) k (u16 pl 2) = none →
      exec (.cutDone p pl) s = .next (s.refused .cutDone p .notHeld)) ∧
  ∀ (p : Port) (pl : List Byte) (s : State) (h : Head) (k : Ctx) (x : Held) (r : Placement), p = headPort h →
    s.takes p → pl.length = 4 → u8 pl 1 = k.val → s.heldBy h (u8 pl 0) k (u16 pl 2) = some (x, r) →
    (r.state ≠ .cutting → exec (.cutDone p pl) s = .next (s.refused .cutDone p .notHeld)) ∧
    (r.state = .cutting → r.head = some h →
      ∃ t, exec (.cutDone p pl) s = .next t ∧
        (r.tainted = false →
          t.slots = s.slots.set x.slot (some { r with state := .cut }) ∧ s.raises t .pieceCut ∧
          t.entries = s.entries.map (fun e => if e.tag = r.tag then
            { e with live := e.live - 1, cut := e.cut + 1,
                     state := if e.state = .opened ∧ e.cut + 1 = e.requested then .satisfied else e.state } else e) ∧
          (∀ e, s.entry? r.tag = some e → e.state = .opened → e.cut + 1 = e.requested → s.raises t .demandSatisfied ∧
            (e.rush = true → s.raises t .rushSatisfied))) ∧
        (r.tainted = true →
          t.slots = s.slots.set x.slot (some { r with state := .spoiled, cause := some .lateFlaw }) ∧
          s.raises t .pieceSpoiled ∧
          t.entries = s.entries.map (fun e => if e.tag = r.tag then
            { e with live := e.live - 1, spoiled := min 255 (e.spoiled + 1) } else e)) ∧
        (t.heads[h]).held = (s.heads[h]).held.filter (fun y => y.slot ≠ x.slot) ∧
        (∀ g, g ≠ h → (t.heads[g]).held = (s.heads[g]).held) ∧
        s.repliedFrom t .cutDone p (enc1 x.slot.val ++ enc1 (if r.tainted then 5 else 4) ++
          pairBytes ((t.heads[h]).held.map fun y => y.slot)) ∧
        s.claimsTimed t ∧ s.sameSettings t ∧ s.steady t ∧ t.marks = s.marks ∧ t.planes = s.planes ∧ t.patterns = s.patterns ∧
        t.withdrawn = s.withdrawn)

/-- CUT FAILED refuses a context number above 1 or a cause above 1, and a slot that the head does not hold CUTTING.
CUT FAILED on the head's CUTTING slot: SPOILED with cause PIECE_FAULT and the head stays as it was, or with cause
HEAD_FAULT and the head is FAULT and holds nothing; in either the entry has one live piece less and one spoiled piece
more. The claim timers follow the timed slots.
The two-byte slots of the reply are the model's reading of R188 (log 15). -/
def Obligations.CutFailedSpoils : Prop :=
  (∀ (p : Port) (pl : List Byte) (s : State) (h : Head), p = headPort h → s.takes p → pl.length = 5 →
    (1 < u8 pl 1 ∨ 1 < u8 pl 4 → exec (.cutFailed p pl) s = .next (s.refused .cutFailed p .range)) ∧
    ∀ k : Ctx, u8 pl 1 = k.val → u8 pl 4 ≤ 1 →
      (∀ x r, s.heldBy h (u8 pl 0) k (u16 pl 2) = some (x, r) → r.state ≠ .cutting) →
      exec (.cutFailed p pl) s = .next (s.refused .cutFailed p .notHeld)) ∧
  ∀ (p : Port) (pl : List Byte) (s : State) (h : Head) (k : Ctx) (x : Held) (r : Placement), p = headPort h →
    s.takes p → pl.length = 5 → u8 pl 1 = k.val → s.heldBy h (u8 pl 0) k (u16 pl 2) = some (x, r) →
    r.state = .cutting → r.head = some h →
    (u8 pl 4 = 0 →
      ∃ t, exec (.cutFailed p pl) s = .next t ∧
        t.slots = s.slots.set x.slot (some { r with state := .spoiled, cause := some .pieceFault }) ∧
        s.raises t .pieceSpoiled ∧ (t.heads[h]).state = (s.heads[h]).state ∧
        (t.heads[h]).held = (s.heads[h]).held.filter (fun y => y.slot ≠ x.slot) ∧
        t.entries = s.entries.map (fun e => if e.tag = r.tag then
          { e with live := e.live - 1, spoiled := min 255 (e.spoiled + 1) } else e) ∧
        s.repliedFrom t .cutFailed p (enc1 x.slot.val ++ enc1 (s.heads[h]).state.code ++ enc2 65535) ∧
        s.claimsTimed t ∧ s.sameSettings t ∧ s.steady t ∧ t.marks = s.marks ∧ t.planes = s.planes ∧ t.patterns = s.patterns ∧
        t.withdrawn = s.withdrawn) ∧
    (u8 pl 4 = 1 → ((s.heads[h]).held.map fun y => y.slot).Nodup →
      (∀ y ∈ (s.heads[h]).held, y.slot ≠ x.slot → ∃ q, s.slots[y.slot] = some q ∧ q.head = some h ∧
        q.state = .claimed) →
      ∃ t, exec (.cutFailed p pl) s = .next t ∧
        t.slots[x.slot] = some { r with state := .spoiled, cause := some .headFault } ∧
        (∀ y ∈ (s.heads[h]).held, y.slot ≠ x.slot → ∀ q, s.slots[y.slot] = some q →
          t.slots[y.slot] = some { q with state := .placed, head := none }) ∧
        (∀ n : SlotNo, (∀ y ∈ (s.heads[h]).held, y.slot ≠ n) → t.slots[n] = s.slots[n]) ∧
        (t.heads[h]).state = .fault ∧ (t.heads[h]).held = [] ∧ (t.heads[h]).timer = none ∧
        s.raises t .headFault ∧ s.raises t .pieceSpoiled ∧
        t.entries = s.entries.map (fun e => if e.tag = r.tag then
          { e with live := e.live - 1, spoiled := min 255 (e.spoiled + 1) } else e) ∧
        s.repliedFrom t .cutFailed p (enc1 x.slot.val ++ enc1 2 ++
          encSlot? (((s.heads[h]).held.filter fun y => y.slot ≠ x.slot).head?.map fun y => y.slot)) ∧
        s.claimsTimed t ∧ s.sameSettings t ∧ s.steady t ∧ t.marks = s.marks ∧ t.planes = s.planes ∧ t.patterns = s.patterns ∧
        t.withdrawn = s.withdrawn)

/-- RETURN CLAIM refuses a context number above 1, and a slot that the head does not hold.
RETURN CLAIM of a held slot that is CLAIMED, and the expiry of the claim timer: the slot is PLACED again with head
none and leaves the held list; the expiry flags CLAIM LOST. A CLAIMED slot left behind becomes the timed slot: the claim
timers follow the timed slots.
The two-byte slots of the reply are the model's reading of R188 (log 15). An expiry acts whatever time has passed, the
model's choice (log 4). -/
def Obligations.ClaimsGoBack : Prop :=
  (∀ (p : Port) (pl : List Byte) (s : State) (h : Head), p = headPort h → s.takes p → pl.length = 4 →
    (1 < u8 pl 1 → exec (.returnClaim p pl) s = .next (s.refused .returnClaim p .range)) ∧
    ∀ k : Ctx, u8 pl 1 = k.val → s.heldBy h (u8 pl 0) k (u16 pl 2) = none →
      exec (.returnClaim p pl) s = .next (s.refused .returnClaim p .notHeld)) ∧
  (∀ (p : Port) (pl : List Byte) (s : State) (h : Head) (k : Ctx) (x : Held) (r : Placement), p = headPort h →
    s.takes p → pl.length = 4 → u8 pl 1 = k.val → s.heldBy h (u8 pl 0) k (u16 pl 2) = some (x, r) →
    (r.state = .cutting → exec (.returnClaim p pl) s = .next (s.refused .returnClaim p .state)) ∧
    (r.state = .claimed → r.head = some h →
      ∃ t, exec (.returnClaim p pl) s = .next t ∧
        t.slots = s.slots.set x.slot (some { r with state := .placed, head := none }) ∧
        (t.heads[h]).held = (s.heads[h]).held.filter (fun y => y.slot ≠ x.slot) ∧
        (∀ g, g ≠ h → (t.heads[g]).held = (s.heads[g]).held) ∧
        s.repliedFrom t .returnClaim p (enc1 x.slot.val ++ pairBytes ((t.heads[h]).held.map fun y => y.slot)) ∧
        s.claimsTimed t ∧ s.sameSettings t ∧ s.steady t ∧ t.marks = s.marks ∧ t.planes = s.planes ∧ t.entries = s.entries ∧
        t.patterns = s.patterns ∧
        t.withdrawn = s.withdrawn)) ∧
  ∀ (s : State) (h : Head) (e : Nat) (n : SlotNo) (r : Placement), (s.heads[h]).timer = some e →
    s.times h n → s.slots[n] = some r → r.head = some h →
    ∃ t, exec (.claimTimerExpiry h) s = .next t ∧
      t.slots = s.slots.set n (some { r with state := .placed, head := none }) ∧
      (t.heads[h]).held = (s.heads[h]).held.filter (fun y => y.slot ≠ n) ∧ s.raises t (.claimLost h) ∧
      (∀ g, g ≠ h → (t.heads[g]).held = (s.heads[g]).held) ∧
      s.claimsTimed t ∧ s.sameSettings t ∧ s.steady t ∧ t.marks = s.marks ∧ t.planes = s.planes ∧ t.entries = s.entries ∧
      t.patterns = s.patterns ∧
      t.withdrawn = s.withdrawn ∧ t.ports = s.ports

/-! ### The Line Unit -/

/-- SET LINE out of range is refused. Of a configuration in range the line takes every field, with the debounce clamped
to 255; a STAGED value stands as pending, and a line that becomes STAGED keeps its old source's value as applied.
A line made IN, or kept IN under another inversion, debounce or function, takes its logical pin level and drops its
candidate; kept IN under the same it keeps both. A line made OUT drives its requested level with a hold if the width is
above 0; kept OUT it keeps a running hold, and its requested level passes through the pulse width rule. The interlock
views follow the lines, and the entries' counts move by the pieces that a loss of a view spoils.
The pin level that a line made IN takes is the one kept while it was OUT (log 20). That an output source without an
argument takes any argument byte is the model's reading (log 25). The bytes of the reply are the model's reading
(log 14). -/
def Obligations.SetLineConfigures : Prop :=
  (∀ pl : List Byte,
    (lineConfig? pl = none ↔ 1 < u8 pl 1 ∨ 1 < u8 pl 2 ∨ 4 < u8 pl 5 ∨ (u8 pl 1 = 1 ∧ u8 pl 5 ≠ 0) ∨ 8 < u8 pl 6 ∨
      (u8 pl 6 ≤ 1 ∧ 1 < u8 pl 7) ∨ (u8 pl 6 = 3 ∧ 3 < u8 pl 7) ∨
      (u8 pl 6 = 4 ∧ (u8 pl 7 = 0 ∨ 2 < u8 pl 7)) ∨ (u8 pl 6 = 5 ∧ 1 < u8 pl 7)) ∧
    ∀ c, lineConfig? pl = some c →
      c.out = decide (u8 pl 1 = 1) ∧ c.invert = decide (u8 pl 2 = 1) ∧ c.function.code = u8 pl 5 ∧
      c.source.code = u8 pl 6 ∧ c.staged = decide (u8 pl 7 = 1) ∧
      (∀ v, c.source = .constant v → v = decide (u8 pl 7 = 1)) ∧ (∀ p, c.source = .attention p → p.val = u8 pl 7) ∧
      (∀ h, c.source = .workAvailable h → h.val + 1 = u8 pl 7) ∧ (∀ k, c.source = .hideOpen k → k.val = u8 pl 7)) ∧
  ∀ (pl : List Byte) (s : State), s.takes 0 → pl.length = 9 →
    (5 < u8 pl 0 ∨ lineConfig? pl = none → exec (.setLine 0 pl) s = .next (s.refused .setLine 0 .range)) ∧
    ∀ (l : LineNo) (c : LineConfig), u8 pl 0 = l.val → lineConfig? pl = some c →
      ∃ t, exec (.setLine 0 pl) s = .next t ∧
        (t.lines[l]).invert = decide (u8 pl 2 = 1) ∧ (t.lines[l]).debounce = min 255 (u16 pl 3) ∧
        (t.lines[l]).function = c.function ∧ (t.lines[l]).source = c.source ∧ (t.lines[l]).width = u8 pl 8 ∧
        (t.lines[l]).pin = (s.lines[l]).pin ∧
        (t.lines[l]).pendingStaged = (if c.source = .staged then some c.staged else none) ∧
        (t.lines[l]).applied = (if c.source = .staged ∧ (s.lines[l]).source ≠ .staged then
          s.sourceValue (s.lines[l]).applied (s.lines[l]).source else (s.lines[l]).applied) ∧
        (c.out = false → (∀ d x, (s.lines[l]).work ≠ .input d x) →
          (t.lines[l]).work = .input (xor (s.lines[l]).pin c.invert) none) ∧
        (c.out = false → ∀ d x, (s.lines[l]).work = .input d x → (t.lines[l]).work =
          if c.invert = (s.lines[l]).invert ∧ min 255 (u16 pl 3) = (s.lines[l]).debounce ∧
              c.function = (s.lines[l]).function then .input d x
          else .input (xor (s.lines[l]).pin c.invert) none) ∧
        (c.out = true → (∀ d x, (s.lines[l]).work ≠ .output d x) →
          (t.lines[l]).work = .output (t.requested t.lines[l])
            (if u8 pl 8 = 0 then none else some { pending := none, elapsed := 0, width := u8 pl 8 })) ∧
        (c.out = true → ∀ d, (s.lines[l]).work = .output d none → (t.lines[l]).work =
          if t.requested t.lines[l] = d then .output d none
          else .output (!d) (if u8 pl 8 = 0 then none else some { pending := none, elapsed := 0, width := u8 pl 8 })) ∧
        (c.out = true → ∀ d h, (s.lines[l]).work = .output d (some h) → (t.lines[l]).work =
          .output d (some { pending := (if t.requested t.lines[l] = h.pending.getD d then h.pending
                                        else some (t.requested t.lines[l])), elapsed := h.elapsed, width := h.width })) ∧
        (∀ m : LineNo, m ≠ l → t.lines[m] = { s.lines[m] with work := (t.lines[m]).work }) ∧
        s.viewed t ∧ (s.heldWf → s.recounted t) ∧
        s.repliedFrom t .setLine 0 ((t.lines[l]).configBytes ++ encFlag (t.lines[l]).work.level) ∧
        s.sameSettings t ∧ t.planes = s.planes ∧ t.withdrawn = s.withdrawn ∧ t.patterns = s.patterns

/-- A pin change of an input line: with debounce 0 the debounced level follows at once and the change is delivered to the
line's function; with debounce above 0 a candidate is made, or dropped on a return to the debounced level. An output
line's pin is noted, the level kept for when it is made IN (the model's reading, log 20).
The end of a minimum pulse hold: a pending level that differs from the driven one is driven and held anew, else the
line keeps its level and no hold runs. A hold's end acts whatever time the hold has run, the model's choice (log 4).
The value of each output source, and the requested level that a line's source and invert give. After every command an
output line has followed its requested level through the pulse width rule, with these aside: the line of a SET LINE or of
a hold's end, POWER_UP, which leaves no output line, and a frame by its bytes, which is what its kind's command is; an
encoder transition that is two events takes the line through the rule twice. Every step, these included, leaves every
output line driving its requested level, or holding it as the level last requested, if it found them so. -/
def Obligations.LevelsAreHeld : Prop :=
  ((∀ (s : State) (l : Line), s.requested l = xor (s.sourceValue l.applied l.source) l.invert) ∧
    (∀ (s : State) (a : Bool),
      (∀ v, s.sourceValue a (.constant v) = v) ∧ s.sourceValue a .staged = a ∧
      s.sourceValue a .gateHold = s.gate.holding ∧
      (∀ p : Port, s.sourceValue a (.attention p) = (s.notices[p]).attention) ∧
      (∀ h, s.sourceValue a (.workAvailable h) = s.workAvailable h) ∧
      (∀ k : Ctx, s.sourceValue a (.hideOpen k) = true ↔ (s.ctxs[k]).state = .opened ∨ (s.ctxs[k]).state = .draining) ∧
      (s.sourceValue a .fault = true ↔ (∃ h : Head, (s.heads[h]).state = .fault) ∨ s.condition = .failed) ∧
      (s.sourceValue a .searchBusy = true ↔ ∃ q, s.searchUnit = .searching q) ∧
      (s.sourceValue a .partReady = true ↔ s.condition = .ready)) ∧
    (∀ (c : Instr) (s t : State) (l : LineNo), exec c s = .next t → s.driven →
      (drivesOnce c l = true ∨ ∃ a b, c = .encoderTransition a b ∧ ∃ k : Ctx, s.travel k = t.travel k) →
      (s.lines[l]).work.follows (s.lines[l]).width (t.requested t.lines[l]) (t.lines[l]).work) ∧
    (∀ (a b : Bool) (s t : State) (l : LineNo), exec (.encoderTransition a b) s = .next t → s.driven →
      ∃ r v, (s.lines[l]).work.follows (s.lines[l]).width r v ∧
        v.follows (s.lines[l]).width (t.requested t.lines[l]) (t.lines[l]).work) ∧
    ∀ s t : State, step s = .next t → s.driven → t.driven) ∧
  (∀ (l : LineNo) (v : Bool) (s : State), (s.lines[l]).pin ≠ v →
    (∀ d, (s.lines[l]).work = .input d none → xor v (s.lines[l]).invert ≠ d → 0 < (s.lines[l]).debounce →
      exec (.linePinChange l v) s = .next { s with lines := s.lines.set l { s.lines[l] with
        pin := v, work := .input d (some { level := xor v (s.lines[l]).invert, elapsed := 0 }) } }) ∧
    (∀ d c, (s.lines[l]).work = .input d (some c) → xor v (s.lines[l]).invert = d →
      exec (.linePinChange l v) s = .next { s with lines := s.lines.set l { s.lines[l] with
        pin := v, work := .input d none } }) ∧
    (∀ d, (s.lines[l]).work = .input d none → xor v (s.lines[l]).invert ≠ d → (s.lines[l]).debounce = 0 →
      ∃ t, exec (.linePinChange l v) s = .next t ∧
        (t.lines[l]).work = .input (xor v (s.lines[l]).invert) none ∧ (t.lines[l]).pin = v ∧
        s.delivers t (s.lines[l]).function (xor v (s.lines[l]).invert) ∧
        s.sameSettings t ∧ t.ports = s.ports) ∧
    (∀ d x, (s.lines[l]).work = .output d x →
      exec (.linePinChange l v) s = .next { s with lines := s.lines.set l { s.lines[l] with pin := v } })) ∧
  (∀ (l : LineNo) (s : State) (d : Bool) (h : PulseHold), (s.lines[l]).work = .output d (some h) →
    exec (.outputHoldEnd l) s = .next { s with
      lines := s.lines.set l { s.lines[l] with
        work := (if h.pending = some (!d) then
            .output (!d) (if (s.lines[l]).width = 0 then none else
              some { pending := none, elapsed := 0, width := (s.lines[l]).width })
          else .output d none) } })

/-- A debounce expiry: the debounced level takes the candidate's level and the candidate is dropped; a change to active
of a HIDE EDGE line registers the oldest qualifying context, with the staged values applied, or flags UNEXPECTED EDGE;
one of a GATE RELEASE line releases and disarms the gate; a change of an interlock line recomputes the views, and a head
whose view falls is off line, its claims given back and its cut SPOILED, each flagged to it. The entries' counts move by
the pieces it ends, of whatever function the line is.
Which context a hide edge registers. An expiry acts whatever time the candidate has stood, the model's choice
(log 4). -/
def Obligations.DebounceExpiryDelivers : Prop :=
  (∀ s : State, (∀ k, s.takesEdge k → s.registrable = some k) ∧ ((∀ k, ¬ s.awaitsEdge k) → s.registrable = none)) ∧
  ∀ (l : LineNo) (s : State) (d : Bool) (c : LevelCandidate), (s.lines[l]).work = .input d (some c) →
    ∃ t, exec (.debounceExpiry l) s = .next t ∧ (t.lines[l]).work = .input c.level none ∧
      s.delivers t (s.lines[l]).function c.level ∧
      ((s.lines[l]).function = .hideEdge → c.level = true →
        (∀ k, s.registrable = some k → (t.ctxs[k]).registered = true ∧ (t.ctxs[k]).count = 0 ∧
          s.raises t .hideRegistered) ∧
        (s.registrable = none → s.raises t .unexpectedEdge ∧
          ∀ k : Ctx, (t.ctxs[k]).registered = (s.ctxs[k]).registered ∧ (t.ctxs[k]).count = (s.ctxs[k]).count)) ∧
      ((s.lines[l]).function = .gateRelease → c.level = true →
        t.gate.holding = false ∧ t.gate.armed = false ∧ t.gate.timer = none) ∧
      (∀ h, (s.lines[l]).function = .interlock h → c.level = false → (t.heads[h]).interlock = .inactive ∧
        ((s.heads[h]).interlock = .active → (t.heads[h]).state = .offline)) ∧
      s.sameSettings t ∧ t.planes = s.planes ∧ t.patterns = s.patterns ∧ t.ports = s.ports

/-! ### The Link Ports -/

/-- The events of the link: a frame whose KIND names no request is refused UNKNOWN; one whose sum is not 0 is refused
CHECK with its KIND echoed; one that completes while a reply is owed is discarded; a gap, a line error and a LENGTH
above 240 return the receiver to hunting; a reply that has been sent is owed no longer. None of these changes any state
outside the port. A gap's end acts whatever time has passed since the last byte, the model's choice (log 4).
The receiver, byte by byte: it hunts for SYNC and takes KIND, LENGTH and the payload, again changing nothing outside the
port; at the CHECK byte it hands the frame over, and what follows is what the command for a complete frame does: with a
good sum that takes the whole request (the model's arrangement of the frame commands, logs 1 and 2).
The common checks in their order, for every kind of the catalogue: a kind not accepted on the port is refused ROLE,
then the condition gives BUSY or STATE, then a wrong length LENGTH; a port that owes a reply discards the frame.
The catalogue: each kind's KIND byte, ports and payload length, and the kinds that read.
A complete frame with a good sum and a KIND of the catalogue is taken as that kind, and a frame taken as a kind is what
the command of that kind's row does.
The bytes of a reply frame, whose sum after SYNC is 0. -/
def Obligations.LinkEventsAndCommonChecks : Prop :=
  ((∀ (p : Port) (kind check : Byte) (pl : List Byte) (s : State),
    ((s.ports[p]).owed = none → kindOf kind = none →
      exec (.unknownKind p kind pl) s = .next ((s.hunt p).owe p (.reply { kind := kind, refusal := some .unknown, payload := [] }))) ∧
    ((s.ports[p]).owed = none → kind + BitVec.ofNat 8 pl.length + pl.foldl (· + ·) 0 + check ≠ 0 →
      exec (.checkRefused p kind pl check) s =
        .next ((s.hunt p).owe p (.reply { kind := kind, refusal := some .check, payload := [] }))) ∧
    ((s.ports[p]).owed ≠ none → exec (.frameDiscardedOwed p kind pl check) s = .next (s.hunt p)) ∧
    exec (.frameGapTimeout p) s = .next (s.hunt p) ∧ exec (.lineErrorDiscard p) s = .next (s.hunt p) ∧
    (∀ n : Byte, 240 < n.toNat → exec (.lengthOverflowDiscard p n) s = .next (s.hunt p)) ∧
    (∀ r, (s.ports[p]).owed = some (.reply r) →
      exec (.replySent p) s = .next { s with ports := s.ports.set p { s.ports[p] with owed := none } })) ∧
  (∀ (p : Port) (b : Byte) (s : State),
    ((s.ports[p]).receiver = .hunting → b ≠ 0xA5 → exec (.frameByteReceived p b) s = .next s) ∧
    ((s.ports[p]).receiver = .hunting → exec (.frameByteReceived p 0xA5) s = .next (s.receive p .kind)) ∧
    ((s.ports[p]).receiver = .kind → exec (.frameByteReceived p b) s = .next (s.receive p (.length b))) ∧
    (∀ k, (s.ports[p]).receiver = .length k → 240 < b.toNat → exec (.frameByteReceived p b) s = .next (s.hunt p)) ∧
    (∀ k, (s.ports[p]).receiver = .length k → b.toNat ≤ 240 →
      exec (.frameByteReceived p b) s = .next (s.receive p (.payload k b []))) ∧
    (∀ k n got, (s.ports[p]).receiver = .payload k n got → got.length < n.toNat →
      exec (.frameByteReceived p b) s = .next (s.receive p (.payload k n (got ++ [b])))) ∧
    ∀ k n got, (s.ports[p]).receiver = .payload k n got → n.toNat ≤ got.length →
      exec (.frameByteReceived p b) s = exec (.checkRefused p k got b) s)) ∧
  (∀ (k : Kind) (p : Port) (pl : List Byte) (s : State),
    ((s.ports[p]).owed ≠ none → takeFrame k p pl s = .next (s.hunt p)) ∧
    ((s.ports[p]).owed = none →
      (k.accepts p = false → takeFrame k p pl s = .next (s.refused k p .role)) ∧
      (k.accepts p = true →
        ((s.condition = .starting ∨ s.condition = .testing) → k ≠ .partStatus →
          takeFrame k p pl s = .next (s.refused k p .busy)) ∧
        (s.condition = .failed → k ≠ .partStatus → k ≠ .mapTest → k.isRead = false →
          takeFrame k p pl s = .next (s.refused k p .state)) ∧
        ((s.condition = .ready ∨ k = .partStatus ∨ (s.condition = .failed ∧ (k = .mapTest ∨ k.isRead = true))) →
          k.lengthOk pl = false → takeFrame k p pl s = .next (s.refused k p .length))))) ∧
  ((∀ k : Kind, k ∈ catalogue.map fun row => row.1) ∧
    (∀ row ∈ catalogue, row.1.byte = row.2.1 ∧ (∀ p : Port, row.1.accepts p = true ↔ p ∈ row.2.2.1) ∧
      ∀ n, row.2.2.2 = some n → ∀ pl, row.1.lengthOk pl = true ↔ pl.length = n) ∧
    (∀ pl, Kind.libraryRows.lengthOk pl = true ↔ 3 ≤ pl.length ∧ pl.length ≤ 240) ∧
    (∀ pl, Kind.gradeRuns.lengthOk pl = true ↔ ∃ r, r ≤ 48 ∧ pl.length = 3 + 4 * r) ∧
    (∀ k : Kind, k.isRead = true ↔ k ∈ [.noticeRead, .mapRead, .placementRead, .hideReport, .lineStatus, .libraryRead,
      .ruleRead, .demandRead, .flawRead]) ∧
    ∀ (b : Byte) (k : Kind), kindOf b = some k ↔ k.byte = b) ∧
  (∀ (p : Port) (b check : Byte) (k : Kind) (pl : List Byte) (s : State), (s.ports[p]).owed = none →
    b + BitVec.ofNat 8 pl.length + pl.foldl (· + ·) 0 + check = 0 → kindOf b = some k →
    exec (.checkRefused p b pl check) s = takeFrame k p pl s ∧
    exec (.frameDiscardedOwed p b pl check) s = takeFrame k p pl s ∧ exec (.unknownKind p b pl) s = takeFrame k p pl s) ∧
  (∀ (k : Kind) (p : Port) (pl : List Byte) (s : State), requestRows k p pl ≠ [] ∧
    ∀ c ∈ requestRows k p pl, takeFrame k p pl s = exec c s) ∧
  ∀ r : Reply, ∃ outcome check : Byte,
    outcome = BitVec.ofNat 8 (match r.refusal with | none => 0 | some c => c.number) ∧
    r.frame = [0x5A, r.kind, outcome, BitVec.ofNat 8 r.payload.length] ++ r.payload ++ [check] ∧
    r.kind + outcome + BitVec.ofNat 8 r.payload.length + r.payload.foldl (· + ·) 0 + check = 0

/-! ### Invariants -/

/-- The reset state has every invariant below. -/
def Obligations.InvariantsAtReset : Prop :=
  State.reset.planesWf ∧ State.reset.hidesWf ∧ State.reset.storeWf ∧ State.reset.lawQueue ∧ State.reset.lawAttention ∧
  State.reset.idleUnlessReady ∧ State.reset.heldWf ∧ State.reset.lawClosed ∧ State.reset.lawSeparation ∧
  State.reset.countsWf ∧ State.reset.flawsWf ∧ State.reset.scoreWf ∧ State.reset.occupantsWf ∧ State.reset.fitWf ∧
  State.reset.searchUnitWf ∧ State.reset.driven

/-- Every step keeps the planes in canonical form. -/
def Obligations.StepKeepsPlanesCanonical : Prop :=
  ∀ s t : State, s.planesWf → step s = .next t → t.planesWf

/-- Every step keeps the store accounted for: the ninth law. -/
def Obligations.StepKeepsStoreLaw : Prop :=
  ∀ s t : State, s.storeWf → step s = .next t → t.storeWf

/-- Every step keeps the queue's bound and order: the tenth law. -/
def Obligations.StepKeepsQueueLaw : Prop :=
  ∀ s t : State, s.lawQueue → step s = .next t → t.lawQueue

/-- Every step keeps attention without a cause down: the eleventh law. -/
def Obligations.StepKeepsAttentionLaw : Prop :=
  ∀ s t : State, s.lawAttention → step s = .next t → t.lawAttention

/-- Every step keeps every hide map in its plane and every frontier within its map, and lowers no frontier of a context
that is not EMPTY before and after it: the seventh law.
Every step keeps both contexts EMPTY while the part is not READY. -/
def Obligations.StepKeepsFrontierLaw : Prop :=
  (∀ s t : State, s.hidesWf → step s = .next t → t.hidesWf) ∧
  (∀ s t : State, step s = .next t → s.frontierRises t) ∧
  ∀ s t : State, s.idleUnlessReady → step s = .next t → t.idleUnlessReady

/-- Every step keeps what the heads hold: the fourth law; and keeps a CLOSED context without a live placement and without
a flaw that has work due: the twelfth law. -/
def Obligations.StepKeepsHeldAndClosedLaws : Prop :=
  (∀ s t : State, s.heldWf → step s = .next t → t.heldWf) ∧
  ∀ s t : State, s.heldWf → s.lawClosed → step s = .next t → t.lawClosed

/-- Every step keeps the pieces that different heads hold separated: the fifth law. -/
def Obligations.StepKeepsSeparationLaw : Prop :=
  ∀ s t : State, s.heldWf → s.lawSeparation → step s = .next t → t.lawSeparation

/-- Every step keeps each entry's live plus cut within its requested count, with the counts it rests on: the second
law. -/
def Obligations.StepKeepsCountsLaw : Prop :=
  ∀ s t : State, s.heldWf → s.lawClosed → s.countsWf → step s = .next t → t.countsWf

/-- Every step keeps each cell's cap and class set those of the APPLIED flaws, but where a flaw is WITHDRAWING or the
context was aborted: the sixth law, with the accounting of flaws and jobs it rests on. -/
def Obligations.StepKeepsFlawLaw : Prop :=
  ∀ s t : State, s.planesWf → s.hidesWf → s.idleUnlessReady → s.flawsWf → step s = .next t → t.flawsWf

/-- Every step keeps every committed placement's score in its range, with the bounds it rests on: the eighth law. -/
def Obligations.StepKeepsScoreLaw : Prop :=
  ∀ s t : State, s.hidesWf → s.scoreWf → step s = .next t → t.scoreWf

/-- Every step keeps the occupants of the map's cells the placements that cover them, with the accounting of patterns and
searches it rests on: the first law. -/
def Obligations.StepKeepsOccupantLaw : Prop :=
  ∀ s t : State, s.planesWf → s.hidesWf → s.idleUnlessReady → s.heldWf → s.lawClosed → s.countsWf → s.occupantsWf →
    step s = .next t → t.occupantsWf

/-- Every step keeps every PLACED and CLAIMED piece passing the cell test against its map, with what it rests on: the
third law. -/
def Obligations.StepKeepsFitLaw : Prop :=
  ∀ s t : State, s.planesWf → s.hidesWf → s.idleUnlessReady → s.heldWf → s.flawsWf → s.occupantsWf → s.fitWf →
    step s = .next t → t.fitWf
end

