-- ==== Sys2Proof/Laws/Memory.lean ====
section
/-!
SUPPORT. The cell planes as memory: every operation keeps the canonical form, and what each reads as afterwards.
-/

namespace Sys2Proof.Machine

open Sys2Proof

/-! ### The canonical form, entry by entry -/

theorem Plane.wf_iff (p : Plane) :
    p.wf = true ↔ (p.Pairwise fun u v => u.1 < v.1) ∧ ∀ u ∈ p, u.2 ≠ Cell.reset := by
  simp [Plane.wf, List.all_eq_true]

theorem Plane.wf_nil : Plane.wf [] = true := rfl

theorem Plane.wf_cons (b : Nat) (d : Cell) (p : Plane) :
    Plane.wf ((b, d) :: p) = true ↔ (∀ u ∈ p, b < u.1) ∧ d ≠ Cell.reset ∧ p.wf = true := by
  simp only [Plane.wf_iff, List.pairwise_cons, List.forall_mem_cons]
  tauto

/-- An address below every listed one reads as the reset cell. -/
theorem Plane.read_below (p : Plane) (a : Nat) (h : ∀ u ∈ p, a < u.1) : p.read a = Cell.reset := by
  induction p with
  | nil => rfl
  | cons u p ih =>
    have h0 := h u (List.mem_cons_self ..)
    rw [Plane.read, if_neg (by omega)]
    exact ih fun v hv => h v (List.mem_cons_of_mem _ hv)

/-! ### write -/

/-- A write lists no address below both the address written and those listed. -/
theorem Plane.write_above (p : Plane) (a : Nat) (c : Cell) (m : Nat) (hm : m < a) (h : ∀ u ∈ p, m < u.1) :
    ∀ u ∈ p.write a c, m < u.1 := by
  induction p with
  | nil =>
    intro u hu
    unfold Plane.write at hu
    split at hu
    · simp at hu
    · simp at hu; subst hu; exact hm
  | cons v p ih =>
    obtain ⟨b, d⟩ := v
    have hb := h (b, d) (List.mem_cons_self ..)
    have hp : ∀ u ∈ p, m < u.1 := fun u hu => h u (List.mem_cons_of_mem _ hu)
    intro u hu
    unfold Plane.write at hu
    split at hu
    · split at hu
      · exact h u hu
      · rcases List.mem_cons.mp hu with rfl | hu
        · exact hm
        · exact h u hu
    · split at hu
      · split at hu
        · exact hp u hu
        · rcases List.mem_cons.mp hu with rfl | hu
          · exact hm
          · exact hp u hu
      · rcases List.mem_cons.mp hu with rfl | hu
        · exact hb
        · exact ih hp u hu

/-- A write keeps the canonical form. -/
theorem Plane.write_wf (p : Plane) (a : Nat) (c : Cell) (h : p.wf = true) : (p.write a c).wf = true := by
  induction p with
  | nil =>
    unfold Plane.write
    split
    · exact Plane.wf_nil
    · rw [Plane.wf_cons]; exact ⟨by simp, by assumption, Plane.wf_nil⟩
  | cons v p ih =>
    obtain ⟨b, d⟩ := v
    rw [Plane.wf_cons] at h
    obtain ⟨hlt, hd, hp⟩ := h
    unfold Plane.write
    split
    · rename_i hab
      split
      · exact (Plane.wf_cons ..).mpr ⟨hlt, hd, hp⟩
      · rename_i hc
        refine (Plane.wf_cons ..).mpr ⟨?_, hc, (Plane.wf_cons ..).mpr ⟨hlt, hd, hp⟩⟩
        intro u hu
        rcases List.mem_cons.mp hu with rfl | hu
        · exact hab
        · exact hab.trans (hlt u hu)
    · split
      · rename_i hab
        subst hab
        split
        · exact hp
        · rename_i hc
          exact (Plane.wf_cons ..).mpr ⟨hlt, hc, hp⟩
      · rename_i h1 h2
        exact (Plane.wf_cons ..).mpr ⟨Plane.write_above p a c b (by omega) hlt, hd, ih hp⟩

/-- The cell written reads back. -/
theorem Plane.read_write_same (p : Plane) (a : Nat) (c : Cell) (h : p.wf = true) : (p.write a c).read a = c := by
  induction p with
  | nil =>
    unfold Plane.write
    split
    · rename_i hc; rw [hc]; rfl
    · simp [Plane.read]
  | cons v p ih =>
    obtain ⟨b, d⟩ := v
    rw [Plane.wf_cons] at h
    obtain ⟨hlt, hd, hp⟩ := h
    unfold Plane.write
    split
    · rename_i hab
      split
      · rename_i hc
        rw [hc]
        apply Plane.read_below
        intro u hu
        rcases List.mem_cons.mp hu with rfl | hu
        · exact hab
        · exact hab.trans (hlt u hu)
      · simp [Plane.read]
    · split
      · rename_i hab
        subst hab
        split
        · rename_i hc
          rw [hc]
          exact Plane.read_below p a hlt
        · simp [Plane.read]
      · rename_i h1 h2
        rw [Plane.read, if_neg h2]
        exact ih hp

/-- Every other cell reads as before a write. -/
theorem Plane.read_write_other (p : Plane) (a b : Nat) (c : Cell) (hne : b ≠ a) : (p.write a c).read b = p.read b := by
  induction p with
  | nil =>
    unfold Plane.write
    split
    · rfl
    · simp [Plane.read, hne]
  | cons v p ih =>
    obtain ⟨x, d⟩ := v
    unfold Plane.write
    split
    · split
      · rfl
      · rw [Plane.read, if_neg hne]
    · split
      · rename_i hax
        subst hax
        split
        · rw [Plane.read, if_neg hne]
        · rw [Plane.read, if_neg hne, Plane.read, if_neg hne]
      · rw [Plane.read, Plane.read, ih]

/-- What any address reads as after a write. -/
theorem Plane.read_write (p : Plane) (a b : Nat) (c : Cell) (h : p.wf = true) :
    (p.write a c).read b = if b = a then c else p.read b := by
  split
  · rename_i hb; rw [hb]; exact Plane.read_write_same p a c h
  · rename_i hb; exact Plane.read_write_other p a b c hb

/-! ### update -/

/-- An update of cells keeps the canonical form. -/
theorem Plane.update_wf (cells : List (Nat × Nat)) (f : Nat × Nat → Cell → Cell) (p : Plane) (h : p.wf = true) :
    (p.update cells f).wf = true := by
  unfold Plane.update
  induction cells generalizing p with
  | nil => exact h
  | cons xy cells ih => exact ih _ (Plane.write_wf _ _ _ h)

/-- An address that no updated cell has reads as before. -/
theorem Plane.read_update_other (cells : List (Nat × Nat)) (f : Nat × Nat → Cell → Cell) (p : Plane) (a : Nat)
    (h : ∀ xy ∈ cells, cellAddr xy.1 xy.2 ≠ a) : (p.update cells f).read a = p.read a := by
  unfold Plane.update
  induction cells generalizing p with
  | nil => rfl
  | cons xy cells ih =>
    rw [List.foldl_cons, ih _ fun z hz => h z (List.mem_cons_of_mem _ hz)]
    exact Plane.read_write_other _ _ _ _ (h xy (List.mem_cons_self ..)).symm

/-- An update reads each of its cells, at distinct addresses, once. -/
theorem Plane.read_update_once (cells : List (Nat × Nat)) (f : Nat × Nat → Cell → Cell) (p : Plane) (xy : Nat × Nat)
    (h : p.wf = true) (hm : xy ∈ cells) (hd : (cells.map fun c => cellAddr c.1 c.2).Nodup) :
    (Plane.update p cells f).read (cellAddr xy.1 xy.2) = f xy (p.read (cellAddr xy.1 xy.2)) := by
  induction cells generalizing p with
  | nil => exact absurd hm List.not_mem_nil
  | cons uv rest ih =>
    rw [List.map_cons, List.nodup_cons] at hd
    have hstep : Plane.update p (uv :: rest) f =
        Plane.update (Plane.write p (cellAddr uv.1 uv.2) (f uv (Plane.read p (cellAddr uv.1 uv.2)))) rest f := rfl
    rw [hstep]
    rcases List.mem_cons.mp hm with rfl | hr
    · rw [Plane.read_update_other, Plane.read_write_same _ _ _ h]
      intro z hz he
      exact hd.1 (List.mem_map.mpr ⟨z, hz, he⟩)
    · rw [ih _ (Plane.write_wf _ _ _ h) hr hd.2, Plane.read_write_other]
      intro he
      exact hd.1 (List.mem_map.mpr ⟨xy, hr, he⟩)

/-! ### Addresses -/

theorem cellAddr_inj {x y u v : Nat} (hx : x < 768) (hu : u < 768) (h : cellAddr x y = cellAddr u v) : x = u ∧ y = v := by
  unfold cellAddr Config.planeColumns at h
  omega

theorem mem_mapCells {w h x y : Nat} : (x, y) ∈ mapCells w h ↔ x < w ∧ y < h := by
  unfold mapCells
  simp

theorem mapCells_nodup (w h : Nat) : (mapCells w h).Nodup := by
  unfold mapCells
  rw [List.nodup_flatMap]
  refine ⟨fun x _ => (List.nodup_range).map fun a b e => (Prod.mk.inj e).2, ?_⟩
  refine List.nodup_range.imp ?_
  intro a b hab z hz hz'
  simp only [List.mem_map] at hz hz'
  obtain ⟨_, _, rfl⟩ := hz
  obtain ⟨_, _, e⟩ := hz'
  exact hab (Prod.mk.inj e).1.symm

/-- Cells of a map that lies in its plane have distinct addresses. -/
theorem addresses_nodup (cells : List (Nat × Nat)) (hn : cells.Nodup) (hx : ∀ c ∈ cells, c.1 < 768) :
    (cells.map fun c => cellAddr c.1 c.2).Nodup := by
  refine List.Nodup.map_on ?_ hn
  intro a ha b hb h
  obtain ⟨h1, h2⟩ := cellAddr_inj (hx a ha) (hx b hb) h
  exact Prod.ext h1 h2

/-- An update of chosen cells of a map, read at any cell of the plane's columns. -/
theorem Plane.read_update_filter (w h : Nat) (P : Nat × Nat → Bool) (f : Nat × Nat → Cell → Cell) (p : Plane)
    (x y : Nat) (hp : p.wf = true) (hw : w ≤ 768) (hx : x < 768) :
    (Plane.update p ((mapCells w h).filter P) f).read (cellAddr x y) =
      if x < w ∧ y < h ∧ P (x, y) = true then f (x, y) (p.read (cellAddr x y)) else p.read (cellAddr x y) := by
  have hlt : ∀ c ∈ (mapCells w h).filter P, c.1 < 768 := by
    intro c hc
    have := mem_mapCells.mp (List.mem_filter.mp hc).1
    omega
  split
  · rename_i hin
    refine Plane.read_update_once _ f p (x, y) hp ?_ (addresses_nodup _ ((mapCells_nodup w h).filter _) hlt)
    exact List.mem_filter.mpr ⟨mem_mapCells.mpr ⟨hin.1, hin.2.1⟩, hin.2.2⟩
  · rename_i hout
    apply Plane.read_update_other
    intro c hc he
    obtain ⟨h1, h2⟩ := cellAddr_inj (hlt c hc) hx he
    have hm := List.mem_filter.mp hc
    have hc2 : c = (x, y) := Prod.ext h1 h2
    rw [hc2] at hm
    exact hout ⟨(mem_mapCells.mp hm.1).1, (mem_mapCells.mp hm.1).2, hm.2⟩

/-! ### vacate -/

/-- What a vacated cell becomes. -/
def Cell.vacated (c : Cell) (n : SlotNo) : Cell := if c.occupant = some n then { c with occupant := none } else c

theorem Cell.vacated_reset (n : SlotNo) : Cell.vacated Cell.reset n = Cell.reset := by
  simp [Cell.vacated, Cell.reset]

theorem Plane.vacate_cons (b : Nat) (d : Cell) (p : Plane) (n : SlotNo) (hd : d ≠ Cell.reset) :
    Plane.vacate ((b, d) :: p) n =
      if d.vacated n = Cell.reset then Plane.vacate p n else (b, d.vacated n) :: Plane.vacate p n := by
  unfold Plane.vacate Cell.vacated
  rw [List.filterMap_cons]
  by_cases ho : d.occupant = some n
  · by_cases hr : { d with occupant := none } = Cell.reset
    · simp [ho, hr]
    · simp [ho, hr]
  · simp [ho, hd]

/-- Vacating lists no address that was not listed. -/
theorem Plane.vacate_above (p : Plane) (n : SlotNo) (m : Nat) (h : ∀ u ∈ p, m < u.1) :
    ∀ u ∈ p.vacate n, m < u.1 := by
  intro u hu
  unfold Plane.vacate at hu
  obtain ⟨v, hv, he⟩ := List.mem_filterMap.mp hu
  obtain ⟨b, d⟩ := v
  have hb : m < b := h (b, d) hv
  dsimp only at he
  by_cases ho : d.occupant = some n
  · by_cases hr : { d with occupant := none } = Cell.reset
    · simp [ho, hr] at he
    · simp [ho, hr] at he; rw [← he]; exact hb
  · simp [ho] at he; rw [← he]; exact hb

/-- Vacating keeps the canonical form. -/
theorem Plane.vacate_wf (p : Plane) (n : SlotNo) (h : p.wf = true) : (p.vacate n).wf = true := by
  induction p with
  | nil => rfl
  | cons v p ih =>
    obtain ⟨b, d⟩ := v
    rw [Plane.wf_cons] at h
    obtain ⟨hlt, hd, hp⟩ := h
    rw [Plane.vacate_cons b d p n hd]
    split
    · exact ih hp
    · exact (Plane.wf_cons ..).mpr ⟨Plane.vacate_above p n b hlt, by assumption, ih hp⟩

/-- Vacating a slot sets every occupant that is the slot to none and changes nothing else (R4). -/
theorem Plane.read_vacate (p : Plane) (n : SlotNo) (a : Nat) (h : p.wf = true) :
    (p.vacate n).read a = (p.read a).vacated n := by
  induction p with
  | nil => exact (Cell.vacated_reset n).symm
  | cons v p ih =>
    obtain ⟨b, d⟩ := v
    rw [Plane.wf_cons] at h
    obtain ⟨hlt, hd, hp⟩ := h
    rw [Plane.vacate_cons b d p n hd]
    by_cases hab : a = b
    · subst hab
      rw [Plane.read, if_pos rfl]
      split
      · rename_i hr
        rw [hr]
        exact Plane.read_below _ _ (Plane.vacate_above p n a hlt)
      · rw [Plane.read, if_pos rfl]
    · rw [Plane.read, if_neg hab]
      split
      · exact ih hp
      · rw [Plane.read, if_neg hab]; exact ih hp

end Sys2Proof.Machine
end

