-- ==== Sys2Proof/Laws/State.lean ====
section
/-!
SUPPORT. What each update of one collection of the state leaves in each field of the state: one lemma for each field
and update, so that no later proof unfolds a record update.
-/

namespace Sys2Proof.Machine

open Sys2Proof

variable (s : State)

/-! ### setPlane -/

@[simp] theorem State.setPlane_pending (k : Ctx) (q : Plane) : (s.setPlane k q).pending = s.pending := rfl
@[simp] theorem State.setPlane_condition (k : Ctx) (q : Plane) : (s.setPlane k q).condition = s.condition := rfl
@[simp] theorem State.setPlane_mismatches (k : Ctx) (q : Plane) : (s.setPlane k q).mismatches = s.mismatches := rfl
@[simp] theorem State.setPlane_planes (k : Ctx) (q : Plane) : (s.setPlane k q).planes = s.planes.set k q := rfl
@[simp] theorem State.setPlane_flaws (k : Ctx) (q : Plane) : (s.setPlane k q).flaws = s.flaws := rfl
@[simp] theorem State.setPlane_jobs (k : Ctx) (q : Plane) : (s.setPlane k q).jobs = s.jobs := rfl
@[simp] theorem State.setPlane_inFlight (k : Ctx) (q : Plane) : (s.setPlane k q).inFlight = s.inFlight := rfl
@[simp] theorem State.setPlane_rules (k : Ctx) (q : Plane) : (s.setPlane k q).rules = s.rules := rfl
@[simp] theorem State.setPlane_ranges (k : Ctx) (q : Plane) : (s.setPlane k q).ranges = s.ranges := rfl
@[simp] theorem State.setPlane_classDefaults (k : Ctx) (q : Plane) : (s.setPlane k q).classDefaults = s.classDefaults := rfl
@[simp] theorem State.setPlane_links (k : Ctx) (q : Plane) : (s.setPlane k q).links = s.links := rfl
@[simp] theorem State.setPlane_patterns (k : Ctx) (q : Plane) : (s.setPlane k q).patterns = s.patterns := rfl
@[simp] theorem State.setPlane_freeCells (k : Ctx) (q : Plane) : (s.setPlane k q).freeCells = s.freeCells := rfl
@[simp] theorem State.setPlane_entries (k : Ctx) (q : Plane) : (s.setPlane k q).entries = s.entries := rfl
@[simp] theorem State.setPlane_postCounter (k : Ctx) (q : Plane) : (s.setPlane k q).postCounter = s.postCounter := rfl
@[simp] theorem State.setPlane_searchUnit (k : Ctx) (q : Plane) : (s.setPlane k q).searchUnit = s.searchUnit := rfl
@[simp] theorem State.setPlane_windowShort (k : Ctx) (q : Plane) : (s.setPlane k q).windowShort = s.windowShort := rfl
@[simp] theorem State.setPlane_marks (k : Ctx) (q : Plane) : (s.setPlane k q).marks = s.marks := rfl
@[simp] theorem State.setPlane_weights (k : Ctx) (q : Plane) : (s.setPlane k q).weights = s.weights := rfl
@[simp] theorem State.setPlane_slots (k : Ctx) (q : Plane) : (s.setPlane k q).slots = s.slots := rfl
@[simp] theorem State.setPlane_withdrawn (k : Ctx) (q : Plane) : (s.setPlane k q).withdrawn = s.withdrawn := rfl
@[simp] theorem State.setPlane_ctxs (k : Ctx) (q : Plane) : (s.setPlane k q).ctxs = s.ctxs := rfl
@[simp] theorem State.setPlane_conveyor (k : Ctx) (q : Plane) : (s.setPlane k q).conveyor = s.conveyor := rfl
@[simp] theorem State.setPlane_gate (k : Ctx) (q : Plane) : (s.setPlane k q).gate = s.gate := rfl
@[simp] theorem State.setPlane_heads (k : Ctx) (q : Plane) : (s.setPlane k q).heads = s.heads := rfl
@[simp] theorem State.setPlane_grantCount (k : Ctx) (q : Plane) : (s.setPlane k q).grantCount = s.grantCount := rfl
@[simp] theorem State.setPlane_startCount (k : Ctx) (q : Plane) : (s.setPlane k q).startCount = s.startCount := rfl
@[simp] theorem State.setPlane_lines (k : Ctx) (q : Plane) : (s.setPlane k q).lines = s.lines := rfl
@[simp] theorem State.setPlane_encA (k : Ctx) (q : Plane) : (s.setPlane k q).encA = s.encA := rfl
@[simp] theorem State.setPlane_encB (k : Ctx) (q : Plane) : (s.setPlane k q).encB = s.encB := rfl
@[simp] theorem State.setPlane_encErrors (k : Ctx) (q : Plane) : (s.setPlane k q).encErrors = s.encErrors := rfl
@[simp] theorem State.setPlane_notices (k : Ctx) (q : Plane) : (s.setPlane k q).notices = s.notices := rfl
@[simp] theorem State.setPlane_ports (k : Ctx) (q : Plane) : (s.setPlane k q).ports = s.ports := rfl
@[simp] theorem State.setPlane_freeIndex (k : Ctx) (q : Plane) : (s.setPlane k q).freeIndex = s.freeIndex := rfl

/-! ### setFlaws -/

@[simp] theorem State.setFlaws_pending (k : Ctx) (fs : List Flaw) : (s.setFlaws k fs).pending = s.pending := rfl
@[simp] theorem State.setFlaws_condition (k : Ctx) (fs : List Flaw) : (s.setFlaws k fs).condition = s.condition := rfl
@[simp] theorem State.setFlaws_mismatches (k : Ctx) (fs : List Flaw) : (s.setFlaws k fs).mismatches = s.mismatches := rfl
@[simp] theorem State.setFlaws_planes (k : Ctx) (fs : List Flaw) : (s.setFlaws k fs).planes = s.planes := rfl
@[simp] theorem State.setFlaws_flaws (k : Ctx) (fs : List Flaw) : (s.setFlaws k fs).flaws = s.flaws.set k fs := rfl
@[simp] theorem State.setFlaws_jobs (k : Ctx) (fs : List Flaw) : (s.setFlaws k fs).jobs = s.jobs := rfl
@[simp] theorem State.setFlaws_inFlight (k : Ctx) (fs : List Flaw) : (s.setFlaws k fs).inFlight = s.inFlight := rfl
@[simp] theorem State.setFlaws_rules (k : Ctx) (fs : List Flaw) : (s.setFlaws k fs).rules = s.rules := rfl
@[simp] theorem State.setFlaws_ranges (k : Ctx) (fs : List Flaw) : (s.setFlaws k fs).ranges = s.ranges := rfl
@[simp] theorem State.setFlaws_classDefaults (k : Ctx) (fs : List Flaw) : (s.setFlaws k fs).classDefaults = s.classDefaults := rfl
@[simp] theorem State.setFlaws_links (k : Ctx) (fs : List Flaw) : (s.setFlaws k fs).links = s.links := rfl
@[simp] theorem State.setFlaws_patterns (k : Ctx) (fs : List Flaw) : (s.setFlaws k fs).patterns = s.patterns := rfl
@[simp] theorem State.setFlaws_freeCells (k : Ctx) (fs : List Flaw) : (s.setFlaws k fs).freeCells = s.freeCells := rfl
@[simp] theorem State.setFlaws_entries (k : Ctx) (fs : List Flaw) : (s.setFlaws k fs).entries = s.entries := rfl
@[simp] theorem State.setFlaws_postCounter (k : Ctx) (fs : List Flaw) : (s.setFlaws k fs).postCounter = s.postCounter := rfl
@[simp] theorem State.setFlaws_searchUnit (k : Ctx) (fs : List Flaw) : (s.setFlaws k fs).searchUnit = s.searchUnit := rfl
@[simp] theorem State.setFlaws_windowShort (k : Ctx) (fs : List Flaw) : (s.setFlaws k fs).windowShort = s.windowShort := rfl
@[simp] theorem State.setFlaws_marks (k : Ctx) (fs : List Flaw) : (s.setFlaws k fs).marks = s.marks := rfl
@[simp] theorem State.setFlaws_weights (k : Ctx) (fs : List Flaw) : (s.setFlaws k fs).weights = s.weights := rfl
@[simp] theorem State.setFlaws_slots (k : Ctx) (fs : List Flaw) : (s.setFlaws k fs).slots = s.slots := rfl
@[simp] theorem State.setFlaws_withdrawn (k : Ctx) (fs : List Flaw) : (s.setFlaws k fs).withdrawn = s.withdrawn := rfl
@[simp] theorem State.setFlaws_ctxs (k : Ctx) (fs : List Flaw) : (s.setFlaws k fs).ctxs = s.ctxs := rfl
@[simp] theorem State.setFlaws_conveyor (k : Ctx) (fs : List Flaw) : (s.setFlaws k fs).conveyor = s.conveyor := rfl
@[simp] theorem State.setFlaws_gate (k : Ctx) (fs : List Flaw) : (s.setFlaws k fs).gate = s.gate := rfl
@[simp] theorem State.setFlaws_heads (k : Ctx) (fs : List Flaw) : (s.setFlaws k fs).heads = s.heads := rfl
@[simp] theorem State.setFlaws_grantCount (k : Ctx) (fs : List Flaw) : (s.setFlaws k fs).grantCount = s.grantCount := rfl
@[simp] theorem State.setFlaws_startCount (k : Ctx) (fs : List Flaw) : (s.setFlaws k fs).startCount = s.startCount := rfl
@[simp] theorem State.setFlaws_lines (k : Ctx) (fs : List Flaw) : (s.setFlaws k fs).lines = s.lines := rfl
@[simp] theorem State.setFlaws_encA (k : Ctx) (fs : List Flaw) : (s.setFlaws k fs).encA = s.encA := rfl
@[simp] theorem State.setFlaws_encB (k : Ctx) (fs : List Flaw) : (s.setFlaws k fs).encB = s.encB := rfl
@[simp] theorem State.setFlaws_encErrors (k : Ctx) (fs : List Flaw) : (s.setFlaws k fs).encErrors = s.encErrors := rfl
@[simp] theorem State.setFlaws_notices (k : Ctx) (fs : List Flaw) : (s.setFlaws k fs).notices = s.notices := rfl
@[simp] theorem State.setFlaws_ports (k : Ctx) (fs : List Flaw) : (s.setFlaws k fs).ports = s.ports := rfl
@[simp] theorem State.setFlaws_freeIndex (k : Ctx) (fs : List Flaw) : (s.setFlaws k fs).freeIndex = s.freeIndex := rfl

/-! ### setFlaw -/

@[simp] theorem State.setFlaw_pending (k : Ctx) (n : Nat) (x : Flaw) : (s.setFlaw k n x).pending = s.pending := rfl
@[simp] theorem State.setFlaw_condition (k : Ctx) (n : Nat) (x : Flaw) : (s.setFlaw k n x).condition = s.condition := rfl
@[simp] theorem State.setFlaw_mismatches (k : Ctx) (n : Nat) (x : Flaw) : (s.setFlaw k n x).mismatches = s.mismatches := rfl
@[simp] theorem State.setFlaw_planes (k : Ctx) (n : Nat) (x : Flaw) : (s.setFlaw k n x).planes = s.planes := rfl
@[simp] theorem State.setFlaw_flaws (k : Ctx) (n : Nat) (x : Flaw) : (s.setFlaw k n x).flaws = s.flaws.set k (s.flaws[k].set n x) := rfl
@[simp] theorem State.setFlaw_jobs (k : Ctx) (n : Nat) (x : Flaw) : (s.setFlaw k n x).jobs = s.jobs := rfl
@[simp] theorem State.setFlaw_inFlight (k : Ctx) (n : Nat) (x : Flaw) : (s.setFlaw k n x).inFlight = s.inFlight := rfl
@[simp] theorem State.setFlaw_rules (k : Ctx) (n : Nat) (x : Flaw) : (s.setFlaw k n x).rules = s.rules := rfl
@[simp] theorem State.setFlaw_ranges (k : Ctx) (n : Nat) (x : Flaw) : (s.setFlaw k n x).ranges = s.ranges := rfl
@[simp] theorem State.setFlaw_classDefaults (k : Ctx) (n : Nat) (x : Flaw) : (s.setFlaw k n x).classDefaults = s.classDefaults := rfl
@[simp] theorem State.setFlaw_links (k : Ctx) (n : Nat) (x : Flaw) : (s.setFlaw k n x).links = s.links := rfl
@[simp] theorem State.setFlaw_patterns (k : Ctx) (n : Nat) (x : Flaw) : (s.setFlaw k n x).patterns = s.patterns := rfl
@[simp] theorem State.setFlaw_freeCells (k : Ctx) (n : Nat) (x : Flaw) : (s.setFlaw k n x).freeCells = s.freeCells := rfl
@[simp] theorem State.setFlaw_entries (k : Ctx) (n : Nat) (x : Flaw) : (s.setFlaw k n x).entries = s.entries := rfl
@[simp] theorem State.setFlaw_postCounter (k : Ctx) (n : Nat) (x : Flaw) : (s.setFlaw k n x).postCounter = s.postCounter := rfl
@[simp] theorem State.setFlaw_searchUnit (k : Ctx) (n : Nat) (x : Flaw) : (s.setFlaw k n x).searchUnit = s.searchUnit := rfl
@[simp] theorem State.setFlaw_windowShort (k : Ctx) (n : Nat) (x : Flaw) : (s.setFlaw k n x).windowShort = s.windowShort := rfl
@[simp] theorem State.setFlaw_marks (k : Ctx) (n : Nat) (x : Flaw) : (s.setFlaw k n x).marks = s.marks := rfl
@[simp] theorem State.setFlaw_weights (k : Ctx) (n : Nat) (x : Flaw) : (s.setFlaw k n x).weights = s.weights := rfl
@[simp] theorem State.setFlaw_slots (k : Ctx) (n : Nat) (x : Flaw) : (s.setFlaw k n x).slots = s.slots := rfl
@[simp] theorem State.setFlaw_withdrawn (k : Ctx) (n : Nat) (x : Flaw) : (s.setFlaw k n x).withdrawn = s.withdrawn := rfl
@[simp] theorem State.setFlaw_ctxs (k : Ctx) (n : Nat) (x : Flaw) : (s.setFlaw k n x).ctxs = s.ctxs := rfl
@[simp] theorem State.setFlaw_conveyor (k : Ctx) (n : Nat) (x : Flaw) : (s.setFlaw k n x).conveyor = s.conveyor := rfl
@[simp] theorem State.setFlaw_gate (k : Ctx) (n : Nat) (x : Flaw) : (s.setFlaw k n x).gate = s.gate := rfl
@[simp] theorem State.setFlaw_heads (k : Ctx) (n : Nat) (x : Flaw) : (s.setFlaw k n x).heads = s.heads := rfl
@[simp] theorem State.setFlaw_grantCount (k : Ctx) (n : Nat) (x : Flaw) : (s.setFlaw k n x).grantCount = s.grantCount := rfl
@[simp] theorem State.setFlaw_startCount (k : Ctx) (n : Nat) (x : Flaw) : (s.setFlaw k n x).startCount = s.startCount := rfl
@[simp] theorem State.setFlaw_lines (k : Ctx) (n : Nat) (x : Flaw) : (s.setFlaw k n x).lines = s.lines := rfl
@[simp] theorem State.setFlaw_encA (k : Ctx) (n : Nat) (x : Flaw) : (s.setFlaw k n x).encA = s.encA := rfl
@[simp] theorem State.setFlaw_encB (k : Ctx) (n : Nat) (x : Flaw) : (s.setFlaw k n x).encB = s.encB := rfl
@[simp] theorem State.setFlaw_encErrors (k : Ctx) (n : Nat) (x : Flaw) : (s.setFlaw k n x).encErrors = s.encErrors := rfl
@[simp] theorem State.setFlaw_notices (k : Ctx) (n : Nat) (x : Flaw) : (s.setFlaw k n x).notices = s.notices := rfl
@[simp] theorem State.setFlaw_ports (k : Ctx) (n : Nat) (x : Flaw) : (s.setFlaw k n x).ports = s.ports := rfl
@[simp] theorem State.setFlaw_freeIndex (k : Ctx) (n : Nat) (x : Flaw) : (s.setFlaw k n x).freeIndex = s.freeIndex := rfl

/-! ### updCtx -/

@[simp] theorem State.updCtx_pending (k : Ctx) (f : HideContext → HideContext) : (s.updCtx k f).pending = s.pending := rfl
@[simp] theorem State.updCtx_condition (k : Ctx) (f : HideContext → HideContext) : (s.updCtx k f).condition = s.condition := rfl
@[simp] theorem State.updCtx_mismatches (k : Ctx) (f : HideContext → HideContext) : (s.updCtx k f).mismatches = s.mismatches := rfl
@[simp] theorem State.updCtx_planes (k : Ctx) (f : HideContext → HideContext) : (s.updCtx k f).planes = s.planes := rfl
@[simp] theorem State.updCtx_flaws (k : Ctx) (f : HideContext → HideContext) : (s.updCtx k f).flaws = s.flaws := rfl
@[simp] theorem State.updCtx_jobs (k : Ctx) (f : HideContext → HideContext) : (s.updCtx k f).jobs = s.jobs := rfl
@[simp] theorem State.updCtx_inFlight (k : Ctx) (f : HideContext → HideContext) : (s.updCtx k f).inFlight = s.inFlight := rfl
@[simp] theorem State.updCtx_rules (k : Ctx) (f : HideContext → HideContext) : (s.updCtx k f).rules = s.rules := rfl
@[simp] theorem State.updCtx_ranges (k : Ctx) (f : HideContext → HideContext) : (s.updCtx k f).ranges = s.ranges := rfl
@[simp] theorem State.updCtx_classDefaults (k : Ctx) (f : HideContext → HideContext) : (s.updCtx k f).classDefaults = s.classDefaults := rfl
@[simp] theorem State.updCtx_links (k : Ctx) (f : HideContext → HideContext) : (s.updCtx k f).links = s.links := rfl
@[simp] theorem State.updCtx_patterns (k : Ctx) (f : HideContext → HideContext) : (s.updCtx k f).patterns = s.patterns := rfl
@[simp] theorem State.updCtx_freeCells (k : Ctx) (f : HideContext → HideContext) : (s.updCtx k f).freeCells = s.freeCells := rfl
@[simp] theorem State.updCtx_entries (k : Ctx) (f : HideContext → HideContext) : (s.updCtx k f).entries = s.entries := rfl
@[simp] theorem State.updCtx_postCounter (k : Ctx) (f : HideContext → HideContext) : (s.updCtx k f).postCounter = s.postCounter := rfl
@[simp] theorem State.updCtx_searchUnit (k : Ctx) (f : HideContext → HideContext) : (s.updCtx k f).searchUnit = s.searchUnit := rfl
@[simp] theorem State.updCtx_windowShort (k : Ctx) (f : HideContext → HideContext) : (s.updCtx k f).windowShort = s.windowShort := rfl
@[simp] theorem State.updCtx_marks (k : Ctx) (f : HideContext → HideContext) : (s.updCtx k f).marks = s.marks := rfl
@[simp] theorem State.updCtx_weights (k : Ctx) (f : HideContext → HideContext) : (s.updCtx k f).weights = s.weights := rfl
@[simp] theorem State.updCtx_slots (k : Ctx) (f : HideContext → HideContext) : (s.updCtx k f).slots = s.slots := rfl
@[simp] theorem State.updCtx_withdrawn (k : Ctx) (f : HideContext → HideContext) : (s.updCtx k f).withdrawn = s.withdrawn := rfl
@[simp] theorem State.updCtx_ctxs (k : Ctx) (f : HideContext → HideContext) : (s.updCtx k f).ctxs = s.ctxs.set k (f s.ctxs[k]) := rfl
@[simp] theorem State.updCtx_conveyor (k : Ctx) (f : HideContext → HideContext) : (s.updCtx k f).conveyor = s.conveyor := rfl
@[simp] theorem State.updCtx_gate (k : Ctx) (f : HideContext → HideContext) : (s.updCtx k f).gate = s.gate := rfl
@[simp] theorem State.updCtx_heads (k : Ctx) (f : HideContext → HideContext) : (s.updCtx k f).heads = s.heads := rfl
@[simp] theorem State.updCtx_grantCount (k : Ctx) (f : HideContext → HideContext) : (s.updCtx k f).grantCount = s.grantCount := rfl
@[simp] theorem State.updCtx_startCount (k : Ctx) (f : HideContext → HideContext) : (s.updCtx k f).startCount = s.startCount := rfl
@[simp] theorem State.updCtx_lines (k : Ctx) (f : HideContext → HideContext) : (s.updCtx k f).lines = s.lines := rfl
@[simp] theorem State.updCtx_encA (k : Ctx) (f : HideContext → HideContext) : (s.updCtx k f).encA = s.encA := rfl
@[simp] theorem State.updCtx_encB (k : Ctx) (f : HideContext → HideContext) : (s.updCtx k f).encB = s.encB := rfl
@[simp] theorem State.updCtx_encErrors (k : Ctx) (f : HideContext → HideContext) : (s.updCtx k f).encErrors = s.encErrors := rfl
@[simp] theorem State.updCtx_notices (k : Ctx) (f : HideContext → HideContext) : (s.updCtx k f).notices = s.notices := rfl
@[simp] theorem State.updCtx_ports (k : Ctx) (f : HideContext → HideContext) : (s.updCtx k f).ports = s.ports := rfl
@[simp] theorem State.updCtx_freeIndex (k : Ctx) (f : HideContext → HideContext) : (s.updCtx k f).freeIndex = s.freeIndex := rfl

/-! ### setSlot -/

@[simp] theorem State.setSlot_pending (n : SlotNo) (o : Option Placement) : (s.setSlot n o).pending = s.pending := rfl
@[simp] theorem State.setSlot_condition (n : SlotNo) (o : Option Placement) : (s.setSlot n o).condition = s.condition := rfl
@[simp] theorem State.setSlot_mismatches (n : SlotNo) (o : Option Placement) : (s.setSlot n o).mismatches = s.mismatches := rfl
@[simp] theorem State.setSlot_planes (n : SlotNo) (o : Option Placement) : (s.setSlot n o).planes = s.planes := rfl
@[simp] theorem State.setSlot_flaws (n : SlotNo) (o : Option Placement) : (s.setSlot n o).flaws = s.flaws := rfl
@[simp] theorem State.setSlot_jobs (n : SlotNo) (o : Option Placement) : (s.setSlot n o).jobs = s.jobs := rfl
@[simp] theorem State.setSlot_inFlight (n : SlotNo) (o : Option Placement) : (s.setSlot n o).inFlight = s.inFlight := rfl
@[simp] theorem State.setSlot_rules (n : SlotNo) (o : Option Placement) : (s.setSlot n o).rules = s.rules := rfl
@[simp] theorem State.setSlot_ranges (n : SlotNo) (o : Option Placement) : (s.setSlot n o).ranges = s.ranges := rfl
@[simp] theorem State.setSlot_classDefaults (n : SlotNo) (o : Option Placement) : (s.setSlot n o).classDefaults = s.classDefaults := rfl
@[simp] theorem State.setSlot_links (n : SlotNo) (o : Option Placement) : (s.setSlot n o).links = s.links := rfl
@[simp] theorem State.setSlot_patterns (n : SlotNo) (o : Option Placement) : (s.setSlot n o).patterns = s.patterns := rfl
@[simp] theorem State.setSlot_freeCells (n : SlotNo) (o : Option Placement) : (s.setSlot n o).freeCells = s.freeCells := rfl
@[simp] theorem State.setSlot_entries (n : SlotNo) (o : Option Placement) : (s.setSlot n o).entries = s.entries := rfl
@[simp] theorem State.setSlot_postCounter (n : SlotNo) (o : Option Placement) : (s.setSlot n o).postCounter = s.postCounter := rfl
@[simp] theorem State.setSlot_searchUnit (n : SlotNo) (o : Option Placement) : (s.setSlot n o).searchUnit = s.searchUnit := rfl
@[simp] theorem State.setSlot_windowShort (n : SlotNo) (o : Option Placement) : (s.setSlot n o).windowShort = s.windowShort := rfl
@[simp] theorem State.setSlot_marks (n : SlotNo) (o : Option Placement) : (s.setSlot n o).marks = s.marks := rfl
@[simp] theorem State.setSlot_weights (n : SlotNo) (o : Option Placement) : (s.setSlot n o).weights = s.weights := rfl
@[simp] theorem State.setSlot_slots (n : SlotNo) (o : Option Placement) : (s.setSlot n o).slots = s.slots.set n o := rfl
@[simp] theorem State.setSlot_withdrawn (n : SlotNo) (o : Option Placement) : (s.setSlot n o).withdrawn = s.withdrawn := rfl
@[simp] theorem State.setSlot_ctxs (n : SlotNo) (o : Option Placement) : (s.setSlot n o).ctxs = s.ctxs := rfl
@[simp] theorem State.setSlot_conveyor (n : SlotNo) (o : Option Placement) : (s.setSlot n o).conveyor = s.conveyor := rfl
@[simp] theorem State.setSlot_gate (n : SlotNo) (o : Option Placement) : (s.setSlot n o).gate = s.gate := rfl
@[simp] theorem State.setSlot_heads (n : SlotNo) (o : Option Placement) : (s.setSlot n o).heads = s.heads := rfl
@[simp] theorem State.setSlot_grantCount (n : SlotNo) (o : Option Placement) : (s.setSlot n o).grantCount = s.grantCount := rfl
@[simp] theorem State.setSlot_startCount (n : SlotNo) (o : Option Placement) : (s.setSlot n o).startCount = s.startCount := rfl
@[simp] theorem State.setSlot_lines (n : SlotNo) (o : Option Placement) : (s.setSlot n o).lines = s.lines := rfl
@[simp] theorem State.setSlot_encA (n : SlotNo) (o : Option Placement) : (s.setSlot n o).encA = s.encA := rfl
@[simp] theorem State.setSlot_encB (n : SlotNo) (o : Option Placement) : (s.setSlot n o).encB = s.encB := rfl
@[simp] theorem State.setSlot_encErrors (n : SlotNo) (o : Option Placement) : (s.setSlot n o).encErrors = s.encErrors := rfl
@[simp] theorem State.setSlot_notices (n : SlotNo) (o : Option Placement) : (s.setSlot n o).notices = s.notices := rfl
@[simp] theorem State.setSlot_ports (n : SlotNo) (o : Option Placement) : (s.setSlot n o).ports = s.ports := rfl
@[simp] theorem State.setSlot_freeIndex (n : SlotNo) (o : Option Placement) : (s.setSlot n o).freeIndex = s.freeIndex := rfl

/-! ### updHead -/

@[simp] theorem State.updHead_pending (h : Head) (f : HeadChannel → HeadChannel) : (s.updHead h f).pending = s.pending := rfl
@[simp] theorem State.updHead_condition (h : Head) (f : HeadChannel → HeadChannel) : (s.updHead h f).condition = s.condition := rfl
@[simp] theorem State.updHead_mismatches (h : Head) (f : HeadChannel → HeadChannel) : (s.updHead h f).mismatches = s.mismatches := rfl
@[simp] theorem State.updHead_planes (h : Head) (f : HeadChannel → HeadChannel) : (s.updHead h f).planes = s.planes := rfl
@[simp] theorem State.updHead_flaws (h : Head) (f : HeadChannel → HeadChannel) : (s.updHead h f).flaws = s.flaws := rfl
@[simp] theorem State.updHead_jobs (h : Head) (f : HeadChannel → HeadChannel) : (s.updHead h f).jobs = s.jobs := rfl
@[simp] theorem State.updHead_inFlight (h : Head) (f : HeadChannel → HeadChannel) : (s.updHead h f).inFlight = s.inFlight := rfl
@[simp] theorem State.updHead_rules (h : Head) (f : HeadChannel → HeadChannel) : (s.updHead h f).rules = s.rules := rfl
@[simp] theorem State.updHead_ranges (h : Head) (f : HeadChannel → HeadChannel) : (s.updHead h f).ranges = s.ranges := rfl
@[simp] theorem State.updHead_classDefaults (h : Head) (f : HeadChannel → HeadChannel) : (s.updHead h f).classDefaults = s.classDefaults := rfl
@[simp] theorem State.updHead_links (h : Head) (f : HeadChannel → HeadChannel) : (s.updHead h f).links = s.links := rfl
@[simp] theorem State.updHead_patterns (h : Head) (f : HeadChannel → HeadChannel) : (s.updHead h f).patterns = s.patterns := rfl
@[simp] theorem State.updHead_freeCells (h : Head) (f : HeadChannel → HeadChannel) : (s.updHead h f).freeCells = s.freeCells := rfl
@[simp] theorem State.updHead_entries (h : Head) (f : HeadChannel → HeadChannel) : (s.updHead h f).entries = s.entries := rfl
@[simp] theorem State.updHead_postCounter (h : Head) (f : HeadChannel → HeadChannel) : (s.updHead h f).postCounter = s.postCounter := rfl
@[simp] theorem State.updHead_searchUnit (h : Head) (f : HeadChannel → HeadChannel) : (s.updHead h f).searchUnit = s.searchUnit := rfl
@[simp] theorem State.updHead_windowShort (h : Head) (f : HeadChannel → HeadChannel) : (s.updHead h f).windowShort = s.windowShort := rfl
@[simp] theorem State.updHead_marks (h : Head) (f : HeadChannel → HeadChannel) : (s.updHead h f).marks = s.marks := rfl
@[simp] theorem State.updHead_weights (h : Head) (f : HeadChannel → HeadChannel) : (s.updHead h f).weights = s.weights := rfl
@[simp] theorem State.updHead_slots (h : Head) (f : HeadChannel → HeadChannel) : (s.updHead h f).slots = s.slots := rfl
@[simp] theorem State.updHead_withdrawn (h : Head) (f : HeadChannel → HeadChannel) : (s.updHead h f).withdrawn = s.withdrawn := rfl
@[simp] theorem State.updHead_ctxs (h : Head) (f : HeadChannel → HeadChannel) : (s.updHead h f).ctxs = s.ctxs := rfl
@[simp] theorem State.updHead_conveyor (h : Head) (f : HeadChannel → HeadChannel) : (s.updHead h f).conveyor = s.conveyor := rfl
@[simp] theorem State.updHead_gate (h : Head) (f : HeadChannel → HeadChannel) : (s.updHead h f).gate = s.gate := rfl
@[simp] theorem State.updHead_heads (h : Head) (f : HeadChannel → HeadChannel) : (s.updHead h f).heads = s.heads.set h (f s.heads[h]) := rfl
@[simp] theorem State.updHead_grantCount (h : Head) (f : HeadChannel → HeadChannel) : (s.updHead h f).grantCount = s.grantCount := rfl
@[simp] theorem State.updHead_startCount (h : Head) (f : HeadChannel → HeadChannel) : (s.updHead h f).startCount = s.startCount := rfl
@[simp] theorem State.updHead_lines (h : Head) (f : HeadChannel → HeadChannel) : (s.updHead h f).lines = s.lines := rfl
@[simp] theorem State.updHead_encA (h : Head) (f : HeadChannel → HeadChannel) : (s.updHead h f).encA = s.encA := rfl
@[simp] theorem State.updHead_encB (h : Head) (f : HeadChannel → HeadChannel) : (s.updHead h f).encB = s.encB := rfl
@[simp] theorem State.updHead_encErrors (h : Head) (f : HeadChannel → HeadChannel) : (s.updHead h f).encErrors = s.encErrors := rfl
@[simp] theorem State.updHead_notices (h : Head) (f : HeadChannel → HeadChannel) : (s.updHead h f).notices = s.notices := rfl
@[simp] theorem State.updHead_ports (h : Head) (f : HeadChannel → HeadChannel) : (s.updHead h f).ports = s.ports := rfl
@[simp] theorem State.updHead_freeIndex (h : Head) (f : HeadChannel → HeadChannel) : (s.updHead h f).freeIndex = s.freeIndex := rfl

/-! ### updLine -/

@[simp] theorem State.updLine_pending (l : LineNo) (f : Line → Line) : (s.updLine l f).pending = s.pending := rfl
@[simp] theorem State.updLine_condition (l : LineNo) (f : Line → Line) : (s.updLine l f).condition = s.condition := rfl
@[simp] theorem State.updLine_mismatches (l : LineNo) (f : Line → Line) : (s.updLine l f).mismatches = s.mismatches := rfl
@[simp] theorem State.updLine_planes (l : LineNo) (f : Line → Line) : (s.updLine l f).planes = s.planes := rfl
@[simp] theorem State.updLine_flaws (l : LineNo) (f : Line → Line) : (s.updLine l f).flaws = s.flaws := rfl
@[simp] theorem State.updLine_jobs (l : LineNo) (f : Line → Line) : (s.updLine l f).jobs = s.jobs := rfl
@[simp] theorem State.updLine_inFlight (l : LineNo) (f : Line → Line) : (s.updLine l f).inFlight = s.inFlight := rfl
@[simp] theorem State.updLine_rules (l : LineNo) (f : Line → Line) : (s.updLine l f).rules = s.rules := rfl
@[simp] theorem State.updLine_ranges (l : LineNo) (f : Line → Line) : (s.updLine l f).ranges = s.ranges := rfl
@[simp] theorem State.updLine_classDefaults (l : LineNo) (f : Line → Line) : (s.updLine l f).classDefaults = s.classDefaults := rfl
@[simp] theorem State.updLine_links (l : LineNo) (f : Line → Line) : (s.updLine l f).links = s.links := rfl
@[simp] theorem State.updLine_patterns (l : LineNo) (f : Line → Line) : (s.updLine l f).patterns = s.patterns := rfl
@[simp] theorem State.updLine_freeCells (l : LineNo) (f : Line → Line) : (s.updLine l f).freeCells = s.freeCells := rfl
@[simp] theorem State.updLine_entries (l : LineNo) (f : Line → Line) : (s.updLine l f).entries = s.entries := rfl
@[simp] theorem State.updLine_postCounter (l : LineNo) (f : Line → Line) : (s.updLine l f).postCounter = s.postCounter := rfl
@[simp] theorem State.updLine_searchUnit (l : LineNo) (f : Line → Line) : (s.updLine l f).searchUnit = s.searchUnit := rfl
@[simp] theorem State.updLine_windowShort (l : LineNo) (f : Line → Line) : (s.updLine l f).windowShort = s.windowShort := rfl
@[simp] theorem State.updLine_marks (l : LineNo) (f : Line → Line) : (s.updLine l f).marks = s.marks := rfl
@[simp] theorem State.updLine_weights (l : LineNo) (f : Line → Line) : (s.updLine l f).weights = s.weights := rfl
@[simp] theorem State.updLine_slots (l : LineNo) (f : Line → Line) : (s.updLine l f).slots = s.slots := rfl
@[simp] theorem State.updLine_withdrawn (l : LineNo) (f : Line → Line) : (s.updLine l f).withdrawn = s.withdrawn := rfl
@[simp] theorem State.updLine_ctxs (l : LineNo) (f : Line → Line) : (s.updLine l f).ctxs = s.ctxs := rfl
@[simp] theorem State.updLine_conveyor (l : LineNo) (f : Line → Line) : (s.updLine l f).conveyor = s.conveyor := rfl
@[simp] theorem State.updLine_gate (l : LineNo) (f : Line → Line) : (s.updLine l f).gate = s.gate := rfl
@[simp] theorem State.updLine_heads (l : LineNo) (f : Line → Line) : (s.updLine l f).heads = s.heads := rfl
@[simp] theorem State.updLine_grantCount (l : LineNo) (f : Line → Line) : (s.updLine l f).grantCount = s.grantCount := rfl
@[simp] theorem State.updLine_startCount (l : LineNo) (f : Line → Line) : (s.updLine l f).startCount = s.startCount := rfl
@[simp] theorem State.updLine_lines (l : LineNo) (f : Line → Line) : (s.updLine l f).lines = s.lines.set l (f s.lines[l]) := rfl
@[simp] theorem State.updLine_encA (l : LineNo) (f : Line → Line) : (s.updLine l f).encA = s.encA := rfl
@[simp] theorem State.updLine_encB (l : LineNo) (f : Line → Line) : (s.updLine l f).encB = s.encB := rfl
@[simp] theorem State.updLine_encErrors (l : LineNo) (f : Line → Line) : (s.updLine l f).encErrors = s.encErrors := rfl
@[simp] theorem State.updLine_notices (l : LineNo) (f : Line → Line) : (s.updLine l f).notices = s.notices := rfl
@[simp] theorem State.updLine_ports (l : LineNo) (f : Line → Line) : (s.updLine l f).ports = s.ports := rfl
@[simp] theorem State.updLine_freeIndex (l : LineNo) (f : Line → Line) : (s.updLine l f).freeIndex = s.freeIndex := rfl

/-! ### updPattern -/

@[simp] theorem State.updPattern_pending (n : PatNo) (f : Pattern → Pattern) : (s.updPattern n f).pending = s.pending := rfl
@[simp] theorem State.updPattern_condition (n : PatNo) (f : Pattern → Pattern) : (s.updPattern n f).condition = s.condition := rfl
@[simp] theorem State.updPattern_mismatches (n : PatNo) (f : Pattern → Pattern) : (s.updPattern n f).mismatches = s.mismatches := rfl
@[simp] theorem State.updPattern_planes (n : PatNo) (f : Pattern → Pattern) : (s.updPattern n f).planes = s.planes := rfl
@[simp] theorem State.updPattern_flaws (n : PatNo) (f : Pattern → Pattern) : (s.updPattern n f).flaws = s.flaws := rfl
@[simp] theorem State.updPattern_jobs (n : PatNo) (f : Pattern → Pattern) : (s.updPattern n f).jobs = s.jobs := rfl
@[simp] theorem State.updPattern_inFlight (n : PatNo) (f : Pattern → Pattern) : (s.updPattern n f).inFlight = s.inFlight := rfl
@[simp] theorem State.updPattern_rules (n : PatNo) (f : Pattern → Pattern) : (s.updPattern n f).rules = s.rules := rfl
@[simp] theorem State.updPattern_ranges (n : PatNo) (f : Pattern → Pattern) : (s.updPattern n f).ranges = s.ranges := rfl
@[simp] theorem State.updPattern_classDefaults (n : PatNo) (f : Pattern → Pattern) : (s.updPattern n f).classDefaults = s.classDefaults := rfl
@[simp] theorem State.updPattern_links (n : PatNo) (f : Pattern → Pattern) : (s.updPattern n f).links = s.links := rfl
@[simp] theorem State.updPattern_patterns (n : PatNo) (f : Pattern → Pattern) : (s.updPattern n f).patterns = s.patterns.set n (f s.patterns[n]) := rfl
@[simp] theorem State.updPattern_freeCells (n : PatNo) (f : Pattern → Pattern) : (s.updPattern n f).freeCells = s.freeCells := rfl
@[simp] theorem State.updPattern_entries (n : PatNo) (f : Pattern → Pattern) : (s.updPattern n f).entries = s.entries := rfl
@[simp] theorem State.updPattern_postCounter (n : PatNo) (f : Pattern → Pattern) : (s.updPattern n f).postCounter = s.postCounter := rfl
@[simp] theorem State.updPattern_searchUnit (n : PatNo) (f : Pattern → Pattern) : (s.updPattern n f).searchUnit = s.searchUnit := rfl
@[simp] theorem State.updPattern_windowShort (n : PatNo) (f : Pattern → Pattern) : (s.updPattern n f).windowShort = s.windowShort := rfl
@[simp] theorem State.updPattern_marks (n : PatNo) (f : Pattern → Pattern) : (s.updPattern n f).marks = s.marks := rfl
@[simp] theorem State.updPattern_weights (n : PatNo) (f : Pattern → Pattern) : (s.updPattern n f).weights = s.weights := rfl
@[simp] theorem State.updPattern_slots (n : PatNo) (f : Pattern → Pattern) : (s.updPattern n f).slots = s.slots := rfl
@[simp] theorem State.updPattern_withdrawn (n : PatNo) (f : Pattern → Pattern) : (s.updPattern n f).withdrawn = s.withdrawn := rfl
@[simp] theorem State.updPattern_ctxs (n : PatNo) (f : Pattern → Pattern) : (s.updPattern n f).ctxs = s.ctxs := rfl
@[simp] theorem State.updPattern_conveyor (n : PatNo) (f : Pattern → Pattern) : (s.updPattern n f).conveyor = s.conveyor := rfl
@[simp] theorem State.updPattern_gate (n : PatNo) (f : Pattern → Pattern) : (s.updPattern n f).gate = s.gate := rfl
@[simp] theorem State.updPattern_heads (n : PatNo) (f : Pattern → Pattern) : (s.updPattern n f).heads = s.heads := rfl
@[simp] theorem State.updPattern_grantCount (n : PatNo) (f : Pattern → Pattern) : (s.updPattern n f).grantCount = s.grantCount := rfl
@[simp] theorem State.updPattern_startCount (n : PatNo) (f : Pattern → Pattern) : (s.updPattern n f).startCount = s.startCount := rfl
@[simp] theorem State.updPattern_lines (n : PatNo) (f : Pattern → Pattern) : (s.updPattern n f).lines = s.lines := rfl
@[simp] theorem State.updPattern_encA (n : PatNo) (f : Pattern → Pattern) : (s.updPattern n f).encA = s.encA := rfl
@[simp] theorem State.updPattern_encB (n : PatNo) (f : Pattern → Pattern) : (s.updPattern n f).encB = s.encB := rfl
@[simp] theorem State.updPattern_encErrors (n : PatNo) (f : Pattern → Pattern) : (s.updPattern n f).encErrors = s.encErrors := rfl
@[simp] theorem State.updPattern_notices (n : PatNo) (f : Pattern → Pattern) : (s.updPattern n f).notices = s.notices := rfl
@[simp] theorem State.updPattern_ports (n : PatNo) (f : Pattern → Pattern) : (s.updPattern n f).ports = s.ports := rfl
@[simp] theorem State.updPattern_freeIndex (n : PatNo) (f : Pattern → Pattern) : (s.updPattern n f).freeIndex = s.freeIndex := rfl

/-! ### updNotice -/

@[simp] theorem State.updNotice_pending (p : Port) (f : NoticeUnit → NoticeUnit) : (s.updNotice p f).pending = s.pending := rfl
@[simp] theorem State.updNotice_condition (p : Port) (f : NoticeUnit → NoticeUnit) : (s.updNotice p f).condition = s.condition := rfl
@[simp] theorem State.updNotice_mismatches (p : Port) (f : NoticeUnit → NoticeUnit) : (s.updNotice p f).mismatches = s.mismatches := rfl
@[simp] theorem State.updNotice_planes (p : Port) (f : NoticeUnit → NoticeUnit) : (s.updNotice p f).planes = s.planes := rfl
@[simp] theorem State.updNotice_flaws (p : Port) (f : NoticeUnit → NoticeUnit) : (s.updNotice p f).flaws = s.flaws := rfl
@[simp] theorem State.updNotice_jobs (p : Port) (f : NoticeUnit → NoticeUnit) : (s.updNotice p f).jobs = s.jobs := rfl
@[simp] theorem State.updNotice_inFlight (p : Port) (f : NoticeUnit → NoticeUnit) : (s.updNotice p f).inFlight = s.inFlight := rfl
@[simp] theorem State.updNotice_rules (p : Port) (f : NoticeUnit → NoticeUnit) : (s.updNotice p f).rules = s.rules := rfl
@[simp] theorem State.updNotice_ranges (p : Port) (f : NoticeUnit → NoticeUnit) : (s.updNotice p f).ranges = s.ranges := rfl
@[simp] theorem State.updNotice_classDefaults (p : Port) (f : NoticeUnit → NoticeUnit) : (s.updNotice p f).classDefaults = s.classDefaults := rfl
@[simp] theorem State.updNotice_links (p : Port) (f : NoticeUnit → NoticeUnit) : (s.updNotice p f).links = s.links := rfl
@[simp] theorem State.updNotice_patterns (p : Port) (f : NoticeUnit → NoticeUnit) : (s.updNotice p f).patterns = s.patterns := rfl
@[simp] theorem State.updNotice_freeCells (p : Port) (f : NoticeUnit → NoticeUnit) : (s.updNotice p f).freeCells = s.freeCells := rfl
@[simp] theorem State.updNotice_entries (p : Port) (f : NoticeUnit → NoticeUnit) : (s.updNotice p f).entries = s.entries := rfl
@[simp] theorem State.updNotice_postCounter (p : Port) (f : NoticeUnit → NoticeUnit) : (s.updNotice p f).postCounter = s.postCounter := rfl
@[simp] theorem State.updNotice_searchUnit (p : Port) (f : NoticeUnit → NoticeUnit) : (s.updNotice p f).searchUnit = s.searchUnit := rfl
@[simp] theorem State.updNotice_windowShort (p : Port) (f : NoticeUnit → NoticeUnit) : (s.updNotice p f).windowShort = s.windowShort := rfl
@[simp] theorem State.updNotice_marks (p : Port) (f : NoticeUnit → NoticeUnit) : (s.updNotice p f).marks = s.marks := rfl
@[simp] theorem State.updNotice_weights (p : Port) (f : NoticeUnit → NoticeUnit) : (s.updNotice p f).weights = s.weights := rfl
@[simp] theorem State.updNotice_slots (p : Port) (f : NoticeUnit → NoticeUnit) : (s.updNotice p f).slots = s.slots := rfl
@[simp] theorem State.updNotice_withdrawn (p : Port) (f : NoticeUnit → NoticeUnit) : (s.updNotice p f).withdrawn = s.withdrawn := rfl
@[simp] theorem State.updNotice_ctxs (p : Port) (f : NoticeUnit → NoticeUnit) : (s.updNotice p f).ctxs = s.ctxs := rfl
@[simp] theorem State.updNotice_conveyor (p : Port) (f : NoticeUnit → NoticeUnit) : (s.updNotice p f).conveyor = s.conveyor := rfl
@[simp] theorem State.updNotice_gate (p : Port) (f : NoticeUnit → NoticeUnit) : (s.updNotice p f).gate = s.gate := rfl
@[simp] theorem State.updNotice_heads (p : Port) (f : NoticeUnit → NoticeUnit) : (s.updNotice p f).heads = s.heads := rfl
@[simp] theorem State.updNotice_grantCount (p : Port) (f : NoticeUnit → NoticeUnit) : (s.updNotice p f).grantCount = s.grantCount := rfl
@[simp] theorem State.updNotice_startCount (p : Port) (f : NoticeUnit → NoticeUnit) : (s.updNotice p f).startCount = s.startCount := rfl
@[simp] theorem State.updNotice_lines (p : Port) (f : NoticeUnit → NoticeUnit) : (s.updNotice p f).lines = s.lines := rfl
@[simp] theorem State.updNotice_encA (p : Port) (f : NoticeUnit → NoticeUnit) : (s.updNotice p f).encA = s.encA := rfl
@[simp] theorem State.updNotice_encB (p : Port) (f : NoticeUnit → NoticeUnit) : (s.updNotice p f).encB = s.encB := rfl
@[simp] theorem State.updNotice_encErrors (p : Port) (f : NoticeUnit → NoticeUnit) : (s.updNotice p f).encErrors = s.encErrors := rfl
@[simp] theorem State.updNotice_notices (p : Port) (f : NoticeUnit → NoticeUnit) : (s.updNotice p f).notices = s.notices.set p (f s.notices[p]) := rfl
@[simp] theorem State.updNotice_ports (p : Port) (f : NoticeUnit → NoticeUnit) : (s.updNotice p f).ports = s.ports := rfl
@[simp] theorem State.updNotice_freeIndex (p : Port) (f : NoticeUnit → NoticeUnit) : (s.updNotice p f).freeIndex = s.freeIndex := rfl

/-! ### updPort -/

@[simp] theorem State.updPort_pending (p : Port) (f : LinkPort → LinkPort) : (s.updPort p f).pending = s.pending := rfl
@[simp] theorem State.updPort_condition (p : Port) (f : LinkPort → LinkPort) : (s.updPort p f).condition = s.condition := rfl
@[simp] theorem State.updPort_mismatches (p : Port) (f : LinkPort → LinkPort) : (s.updPort p f).mismatches = s.mismatches := rfl
@[simp] theorem State.updPort_planes (p : Port) (f : LinkPort → LinkPort) : (s.updPort p f).planes = s.planes := rfl
@[simp] theorem State.updPort_flaws (p : Port) (f : LinkPort → LinkPort) : (s.updPort p f).flaws = s.flaws := rfl
@[simp] theorem State.updPort_jobs (p : Port) (f : LinkPort → LinkPort) : (s.updPort p f).jobs = s.jobs := rfl
@[simp] theorem State.updPort_inFlight (p : Port) (f : LinkPort → LinkPort) : (s.updPort p f).inFlight = s.inFlight := rfl
@[simp] theorem State.updPort_rules (p : Port) (f : LinkPort → LinkPort) : (s.updPort p f).rules = s.rules := rfl
@[simp] theorem State.updPort_ranges (p : Port) (f : LinkPort → LinkPort) : (s.updPort p f).ranges = s.ranges := rfl
@[simp] theorem State.updPort_classDefaults (p : Port) (f : LinkPort → LinkPort) : (s.updPort p f).classDefaults = s.classDefaults := rfl
@[simp] theorem State.updPort_links (p : Port) (f : LinkPort → LinkPort) : (s.updPort p f).links = s.links := rfl
@[simp] theorem State.updPort_patterns (p : Port) (f : LinkPort → LinkPort) : (s.updPort p f).patterns = s.patterns := rfl
@[simp] theorem State.updPort_freeCells (p : Port) (f : LinkPort → LinkPort) : (s.updPort p f).freeCells = s.freeCells := rfl
@[simp] theorem State.updPort_entries (p : Port) (f : LinkPort → LinkPort) : (s.updPort p f).entries = s.entries := rfl
@[simp] theorem State.updPort_postCounter (p : Port) (f : LinkPort → LinkPort) : (s.updPort p f).postCounter = s.postCounter := rfl
@[simp] theorem State.updPort_searchUnit (p : Port) (f : LinkPort → LinkPort) : (s.updPort p f).searchUnit = s.searchUnit := rfl
@[simp] theorem State.updPort_windowShort (p : Port) (f : LinkPort → LinkPort) : (s.updPort p f).windowShort = s.windowShort := rfl
@[simp] theorem State.updPort_marks (p : Port) (f : LinkPort → LinkPort) : (s.updPort p f).marks = s.marks := rfl
@[simp] theorem State.updPort_weights (p : Port) (f : LinkPort → LinkPort) : (s.updPort p f).weights = s.weights := rfl
@[simp] theorem State.updPort_slots (p : Port) (f : LinkPort → LinkPort) : (s.updPort p f).slots = s.slots := rfl
@[simp] theorem State.updPort_withdrawn (p : Port) (f : LinkPort → LinkPort) : (s.updPort p f).withdrawn = s.withdrawn := rfl
@[simp] theorem State.updPort_ctxs (p : Port) (f : LinkPort → LinkPort) : (s.updPort p f).ctxs = s.ctxs := rfl
@[simp] theorem State.updPort_conveyor (p : Port) (f : LinkPort → LinkPort) : (s.updPort p f).conveyor = s.conveyor := rfl
@[simp] theorem State.updPort_gate (p : Port) (f : LinkPort → LinkPort) : (s.updPort p f).gate = s.gate := rfl
@[simp] theorem State.updPort_heads (p : Port) (f : LinkPort → LinkPort) : (s.updPort p f).heads = s.heads := rfl
@[simp] theorem State.updPort_grantCount (p : Port) (f : LinkPort → LinkPort) : (s.updPort p f).grantCount = s.grantCount := rfl
@[simp] theorem State.updPort_startCount (p : Port) (f : LinkPort → LinkPort) : (s.updPort p f).startCount = s.startCount := rfl
@[simp] theorem State.updPort_lines (p : Port) (f : LinkPort → LinkPort) : (s.updPort p f).lines = s.lines := rfl
@[simp] theorem State.updPort_encA (p : Port) (f : LinkPort → LinkPort) : (s.updPort p f).encA = s.encA := rfl
@[simp] theorem State.updPort_encB (p : Port) (f : LinkPort → LinkPort) : (s.updPort p f).encB = s.encB := rfl
@[simp] theorem State.updPort_encErrors (p : Port) (f : LinkPort → LinkPort) : (s.updPort p f).encErrors = s.encErrors := rfl
@[simp] theorem State.updPort_notices (p : Port) (f : LinkPort → LinkPort) : (s.updPort p f).notices = s.notices := rfl
@[simp] theorem State.updPort_ports (p : Port) (f : LinkPort → LinkPort) : (s.updPort p f).ports = s.ports.set p (f s.ports[p]) := rfl
@[simp] theorem State.updPort_freeIndex (p : Port) (f : LinkPort → LinkPort) : (s.updPort p f).freeIndex = s.freeIndex := rfl

/-! ### updEntry -/

@[simp] theorem State.updEntry_pending (t : Tag) (f : Entry → Entry) : (s.updEntry t f).pending = s.pending := rfl
@[simp] theorem State.updEntry_condition (t : Tag) (f : Entry → Entry) : (s.updEntry t f).condition = s.condition := rfl
@[simp] theorem State.updEntry_mismatches (t : Tag) (f : Entry → Entry) : (s.updEntry t f).mismatches = s.mismatches := rfl
@[simp] theorem State.updEntry_planes (t : Tag) (f : Entry → Entry) : (s.updEntry t f).planes = s.planes := rfl
@[simp] theorem State.updEntry_flaws (t : Tag) (f : Entry → Entry) : (s.updEntry t f).flaws = s.flaws := rfl
@[simp] theorem State.updEntry_jobs (t : Tag) (f : Entry → Entry) : (s.updEntry t f).jobs = s.jobs := rfl
@[simp] theorem State.updEntry_inFlight (t : Tag) (f : Entry → Entry) : (s.updEntry t f).inFlight = s.inFlight := rfl
@[simp] theorem State.updEntry_rules (t : Tag) (f : Entry → Entry) : (s.updEntry t f).rules = s.rules := rfl
@[simp] theorem State.updEntry_ranges (t : Tag) (f : Entry → Entry) : (s.updEntry t f).ranges = s.ranges := rfl
@[simp] theorem State.updEntry_classDefaults (t : Tag) (f : Entry → Entry) : (s.updEntry t f).classDefaults = s.classDefaults := rfl
@[simp] theorem State.updEntry_links (t : Tag) (f : Entry → Entry) : (s.updEntry t f).links = s.links := rfl
@[simp] theorem State.updEntry_patterns (t : Tag) (f : Entry → Entry) : (s.updEntry t f).patterns = s.patterns := rfl
@[simp] theorem State.updEntry_freeCells (t : Tag) (f : Entry → Entry) : (s.updEntry t f).freeCells = s.freeCells := rfl
@[simp] theorem State.updEntry_entries (t : Tag) (f : Entry → Entry) : (s.updEntry t f).entries = s.entries.map fun e => if e.tag = t then f e else e := rfl
@[simp] theorem State.updEntry_postCounter (t : Tag) (f : Entry → Entry) : (s.updEntry t f).postCounter = s.postCounter := rfl
@[simp] theorem State.updEntry_searchUnit (t : Tag) (f : Entry → Entry) : (s.updEntry t f).searchUnit = s.searchUnit := rfl
@[simp] theorem State.updEntry_windowShort (t : Tag) (f : Entry → Entry) : (s.updEntry t f).windowShort = s.windowShort := rfl
@[simp] theorem State.updEntry_marks (t : Tag) (f : Entry → Entry) : (s.updEntry t f).marks = s.marks := rfl
@[simp] theorem State.updEntry_weights (t : Tag) (f : Entry → Entry) : (s.updEntry t f).weights = s.weights := rfl
@[simp] theorem State.updEntry_slots (t : Tag) (f : Entry → Entry) : (s.updEntry t f).slots = s.slots := rfl
@[simp] theorem State.updEntry_withdrawn (t : Tag) (f : Entry → Entry) : (s.updEntry t f).withdrawn = s.withdrawn := rfl
@[simp] theorem State.updEntry_ctxs (t : Tag) (f : Entry → Entry) : (s.updEntry t f).ctxs = s.ctxs := rfl
@[simp] theorem State.updEntry_conveyor (t : Tag) (f : Entry → Entry) : (s.updEntry t f).conveyor = s.conveyor := rfl
@[simp] theorem State.updEntry_gate (t : Tag) (f : Entry → Entry) : (s.updEntry t f).gate = s.gate := rfl
@[simp] theorem State.updEntry_heads (t : Tag) (f : Entry → Entry) : (s.updEntry t f).heads = s.heads := rfl
@[simp] theorem State.updEntry_grantCount (t : Tag) (f : Entry → Entry) : (s.updEntry t f).grantCount = s.grantCount := rfl
@[simp] theorem State.updEntry_startCount (t : Tag) (f : Entry → Entry) : (s.updEntry t f).startCount = s.startCount := rfl
@[simp] theorem State.updEntry_lines (t : Tag) (f : Entry → Entry) : (s.updEntry t f).lines = s.lines := rfl
@[simp] theorem State.updEntry_encA (t : Tag) (f : Entry → Entry) : (s.updEntry t f).encA = s.encA := rfl
@[simp] theorem State.updEntry_encB (t : Tag) (f : Entry → Entry) : (s.updEntry t f).encB = s.encB := rfl
@[simp] theorem State.updEntry_encErrors (t : Tag) (f : Entry → Entry) : (s.updEntry t f).encErrors = s.encErrors := rfl
@[simp] theorem State.updEntry_notices (t : Tag) (f : Entry → Entry) : (s.updEntry t f).notices = s.notices := rfl
@[simp] theorem State.updEntry_ports (t : Tag) (f : Entry → Entry) : (s.updEntry t f).ports = s.ports := rfl
@[simp] theorem State.updEntry_freeIndex (t : Tag) (f : Entry → Entry) : (s.updEntry t f).freeIndex = s.freeIndex := rfl

/-! ### hunt -/

@[simp] theorem State.hunt_pending (p : Port) : (s.hunt p).pending = s.pending := rfl
@[simp] theorem State.hunt_condition (p : Port) : (s.hunt p).condition = s.condition := rfl
@[simp] theorem State.hunt_mismatches (p : Port) : (s.hunt p).mismatches = s.mismatches := rfl
@[simp] theorem State.hunt_planes (p : Port) : (s.hunt p).planes = s.planes := rfl
@[simp] theorem State.hunt_flaws (p : Port) : (s.hunt p).flaws = s.flaws := rfl
@[simp] theorem State.hunt_jobs (p : Port) : (s.hunt p).jobs = s.jobs := rfl
@[simp] theorem State.hunt_inFlight (p : Port) : (s.hunt p).inFlight = s.inFlight := rfl
@[simp] theorem State.hunt_rules (p : Port) : (s.hunt p).rules = s.rules := rfl
@[simp] theorem State.hunt_ranges (p : Port) : (s.hunt p).ranges = s.ranges := rfl
@[simp] theorem State.hunt_classDefaults (p : Port) : (s.hunt p).classDefaults = s.classDefaults := rfl
@[simp] theorem State.hunt_links (p : Port) : (s.hunt p).links = s.links := rfl
@[simp] theorem State.hunt_patterns (p : Port) : (s.hunt p).patterns = s.patterns := rfl
@[simp] theorem State.hunt_freeCells (p : Port) : (s.hunt p).freeCells = s.freeCells := rfl
@[simp] theorem State.hunt_entries (p : Port) : (s.hunt p).entries = s.entries := rfl
@[simp] theorem State.hunt_postCounter (p : Port) : (s.hunt p).postCounter = s.postCounter := rfl
@[simp] theorem State.hunt_searchUnit (p : Port) : (s.hunt p).searchUnit = s.searchUnit := rfl
@[simp] theorem State.hunt_windowShort (p : Port) : (s.hunt p).windowShort = s.windowShort := rfl
@[simp] theorem State.hunt_marks (p : Port) : (s.hunt p).marks = s.marks := rfl
@[simp] theorem State.hunt_weights (p : Port) : (s.hunt p).weights = s.weights := rfl
@[simp] theorem State.hunt_slots (p : Port) : (s.hunt p).slots = s.slots := rfl
@[simp] theorem State.hunt_withdrawn (p : Port) : (s.hunt p).withdrawn = s.withdrawn := rfl
@[simp] theorem State.hunt_ctxs (p : Port) : (s.hunt p).ctxs = s.ctxs := rfl
@[simp] theorem State.hunt_conveyor (p : Port) : (s.hunt p).conveyor = s.conveyor := rfl
@[simp] theorem State.hunt_gate (p : Port) : (s.hunt p).gate = s.gate := rfl
@[simp] theorem State.hunt_heads (p : Port) : (s.hunt p).heads = s.heads := rfl
@[simp] theorem State.hunt_grantCount (p : Port) : (s.hunt p).grantCount = s.grantCount := rfl
@[simp] theorem State.hunt_startCount (p : Port) : (s.hunt p).startCount = s.startCount := rfl
@[simp] theorem State.hunt_lines (p : Port) : (s.hunt p).lines = s.lines := rfl
@[simp] theorem State.hunt_encA (p : Port) : (s.hunt p).encA = s.encA := rfl
@[simp] theorem State.hunt_encB (p : Port) : (s.hunt p).encB = s.encB := rfl
@[simp] theorem State.hunt_encErrors (p : Port) : (s.hunt p).encErrors = s.encErrors := rfl
@[simp] theorem State.hunt_notices (p : Port) : (s.hunt p).notices = s.notices := rfl
@[simp] theorem State.hunt_ports (p : Port) : (s.hunt p).ports = s.ports.set p { s.ports[p] with receiver := .hunting, gap := 0 } := rfl
@[simp] theorem State.hunt_freeIndex (p : Port) : (s.hunt p).freeIndex = s.freeIndex := rfl

/-! ### owe -/

@[simp] theorem State.owe_pending (p : Port) (o : Owed) : (s.owe p o).pending = s.pending := rfl
@[simp] theorem State.owe_condition (p : Port) (o : Owed) : (s.owe p o).condition = s.condition := rfl
@[simp] theorem State.owe_mismatches (p : Port) (o : Owed) : (s.owe p o).mismatches = s.mismatches := rfl
@[simp] theorem State.owe_planes (p : Port) (o : Owed) : (s.owe p o).planes = s.planes := rfl
@[simp] theorem State.owe_flaws (p : Port) (o : Owed) : (s.owe p o).flaws = s.flaws := rfl
@[simp] theorem State.owe_jobs (p : Port) (o : Owed) : (s.owe p o).jobs = s.jobs := rfl
@[simp] theorem State.owe_inFlight (p : Port) (o : Owed) : (s.owe p o).inFlight = s.inFlight := rfl
@[simp] theorem State.owe_rules (p : Port) (o : Owed) : (s.owe p o).rules = s.rules := rfl
@[simp] theorem State.owe_ranges (p : Port) (o : Owed) : (s.owe p o).ranges = s.ranges := rfl
@[simp] theorem State.owe_classDefaults (p : Port) (o : Owed) : (s.owe p o).classDefaults = s.classDefaults := rfl
@[simp] theorem State.owe_links (p : Port) (o : Owed) : (s.owe p o).links = s.links := rfl
@[simp] theorem State.owe_patterns (p : Port) (o : Owed) : (s.owe p o).patterns = s.patterns := rfl
@[simp] theorem State.owe_freeCells (p : Port) (o : Owed) : (s.owe p o).freeCells = s.freeCells := rfl
@[simp] theorem State.owe_entries (p : Port) (o : Owed) : (s.owe p o).entries = s.entries := rfl
@[simp] theorem State.owe_postCounter (p : Port) (o : Owed) : (s.owe p o).postCounter = s.postCounter := rfl
@[simp] theorem State.owe_searchUnit (p : Port) (o : Owed) : (s.owe p o).searchUnit = s.searchUnit := rfl
@[simp] theorem State.owe_windowShort (p : Port) (o : Owed) : (s.owe p o).windowShort = s.windowShort := rfl
@[simp] theorem State.owe_marks (p : Port) (o : Owed) : (s.owe p o).marks = s.marks := rfl
@[simp] theorem State.owe_weights (p : Port) (o : Owed) : (s.owe p o).weights = s.weights := rfl
@[simp] theorem State.owe_slots (p : Port) (o : Owed) : (s.owe p o).slots = s.slots := rfl
@[simp] theorem State.owe_withdrawn (p : Port) (o : Owed) : (s.owe p o).withdrawn = s.withdrawn := rfl
@[simp] theorem State.owe_ctxs (p : Port) (o : Owed) : (s.owe p o).ctxs = s.ctxs := rfl
@[simp] theorem State.owe_conveyor (p : Port) (o : Owed) : (s.owe p o).conveyor = s.conveyor := rfl
@[simp] theorem State.owe_gate (p : Port) (o : Owed) : (s.owe p o).gate = s.gate := rfl
@[simp] theorem State.owe_heads (p : Port) (o : Owed) : (s.owe p o).heads = s.heads := rfl
@[simp] theorem State.owe_grantCount (p : Port) (o : Owed) : (s.owe p o).grantCount = s.grantCount := rfl
@[simp] theorem State.owe_startCount (p : Port) (o : Owed) : (s.owe p o).startCount = s.startCount := rfl
@[simp] theorem State.owe_lines (p : Port) (o : Owed) : (s.owe p o).lines = s.lines := rfl
@[simp] theorem State.owe_encA (p : Port) (o : Owed) : (s.owe p o).encA = s.encA := rfl
@[simp] theorem State.owe_encB (p : Port) (o : Owed) : (s.owe p o).encB = s.encB := rfl
@[simp] theorem State.owe_encErrors (p : Port) (o : Owed) : (s.owe p o).encErrors = s.encErrors := rfl
@[simp] theorem State.owe_notices (p : Port) (o : Owed) : (s.owe p o).notices = s.notices := rfl
@[simp] theorem State.owe_ports (p : Port) (o : Owed) : (s.owe p o).ports = s.ports.set p { s.ports[p] with owed := some o } := rfl
@[simp] theorem State.owe_freeIndex (p : Port) (o : Owed) : (s.owe p o).freeIndex = s.freeIndex := rfl

/-! ### unmarkTag -/

@[simp] theorem State.unmarkTag_pending (t : Tag) : (s.unmarkTag t).pending = s.pending := rfl
@[simp] theorem State.unmarkTag_condition (t : Tag) : (s.unmarkTag t).condition = s.condition := rfl
@[simp] theorem State.unmarkTag_mismatches (t : Tag) : (s.unmarkTag t).mismatches = s.mismatches := rfl
@[simp] theorem State.unmarkTag_planes (t : Tag) : (s.unmarkTag t).planes = s.planes := rfl
@[simp] theorem State.unmarkTag_flaws (t : Tag) : (s.unmarkTag t).flaws = s.flaws := rfl
@[simp] theorem State.unmarkTag_jobs (t : Tag) : (s.unmarkTag t).jobs = s.jobs := rfl
@[simp] theorem State.unmarkTag_inFlight (t : Tag) : (s.unmarkTag t).inFlight = s.inFlight := rfl
@[simp] theorem State.unmarkTag_rules (t : Tag) : (s.unmarkTag t).rules = s.rules := rfl
@[simp] theorem State.unmarkTag_ranges (t : Tag) : (s.unmarkTag t).ranges = s.ranges := rfl
@[simp] theorem State.unmarkTag_classDefaults (t : Tag) : (s.unmarkTag t).classDefaults = s.classDefaults := rfl
@[simp] theorem State.unmarkTag_links (t : Tag) : (s.unmarkTag t).links = s.links := rfl
@[simp] theorem State.unmarkTag_patterns (t : Tag) : (s.unmarkTag t).patterns = s.patterns := rfl
@[simp] theorem State.unmarkTag_freeCells (t : Tag) : (s.unmarkTag t).freeCells = s.freeCells := rfl
@[simp] theorem State.unmarkTag_entries (t : Tag) : (s.unmarkTag t).entries = s.entries := rfl
@[simp] theorem State.unmarkTag_postCounter (t : Tag) : (s.unmarkTag t).postCounter = s.postCounter := rfl
@[simp] theorem State.unmarkTag_searchUnit (t : Tag) : (s.unmarkTag t).searchUnit = s.searchUnit := rfl
@[simp] theorem State.unmarkTag_windowShort (t : Tag) : (s.unmarkTag t).windowShort = s.windowShort := rfl
@[simp] theorem State.unmarkTag_marks (t : Tag) : (s.unmarkTag t).marks = s.marks.map fun m => m &&& ~~~(tagBit t) := rfl
@[simp] theorem State.unmarkTag_weights (t : Tag) : (s.unmarkTag t).weights = s.weights := rfl
@[simp] theorem State.unmarkTag_slots (t : Tag) : (s.unmarkTag t).slots = s.slots := rfl
@[simp] theorem State.unmarkTag_withdrawn (t : Tag) : (s.unmarkTag t).withdrawn = s.withdrawn := rfl
@[simp] theorem State.unmarkTag_ctxs (t : Tag) : (s.unmarkTag t).ctxs = s.ctxs := rfl
@[simp] theorem State.unmarkTag_conveyor (t : Tag) : (s.unmarkTag t).conveyor = s.conveyor := rfl
@[simp] theorem State.unmarkTag_gate (t : Tag) : (s.unmarkTag t).gate = s.gate := rfl
@[simp] theorem State.unmarkTag_heads (t : Tag) : (s.unmarkTag t).heads = s.heads := rfl
@[simp] theorem State.unmarkTag_grantCount (t : Tag) : (s.unmarkTag t).grantCount = s.grantCount := rfl
@[simp] theorem State.unmarkTag_startCount (t : Tag) : (s.unmarkTag t).startCount = s.startCount := rfl
@[simp] theorem State.unmarkTag_lines (t : Tag) : (s.unmarkTag t).lines = s.lines := rfl
@[simp] theorem State.unmarkTag_encA (t : Tag) : (s.unmarkTag t).encA = s.encA := rfl
@[simp] theorem State.unmarkTag_encB (t : Tag) : (s.unmarkTag t).encB = s.encB := rfl
@[simp] theorem State.unmarkTag_encErrors (t : Tag) : (s.unmarkTag t).encErrors = s.encErrors := rfl
@[simp] theorem State.unmarkTag_notices (t : Tag) : (s.unmarkTag t).notices = s.notices := rfl
@[simp] theorem State.unmarkTag_ports (t : Tag) : (s.unmarkTag t).ports = s.ports := rfl
@[simp] theorem State.unmarkTag_freeIndex (t : Tag) : (s.unmarkTag t).freeIndex = s.freeIndex := rfl

/-! ### clearMarks -/

@[simp] theorem State.clearMarks_pending (k : Ctx) : (s.clearMarks k).pending = s.pending := rfl
@[simp] theorem State.clearMarks_condition (k : Ctx) : (s.clearMarks k).condition = s.condition := rfl
@[simp] theorem State.clearMarks_mismatches (k : Ctx) : (s.clearMarks k).mismatches = s.mismatches := rfl
@[simp] theorem State.clearMarks_planes (k : Ctx) : (s.clearMarks k).planes = s.planes := rfl
@[simp] theorem State.clearMarks_flaws (k : Ctx) : (s.clearMarks k).flaws = s.flaws := rfl
@[simp] theorem State.clearMarks_jobs (k : Ctx) : (s.clearMarks k).jobs = s.jobs := rfl
@[simp] theorem State.clearMarks_inFlight (k : Ctx) : (s.clearMarks k).inFlight = s.inFlight := rfl
@[simp] theorem State.clearMarks_rules (k : Ctx) : (s.clearMarks k).rules = s.rules := rfl
@[simp] theorem State.clearMarks_ranges (k : Ctx) : (s.clearMarks k).ranges = s.ranges := rfl
@[simp] theorem State.clearMarks_classDefaults (k : Ctx) : (s.clearMarks k).classDefaults = s.classDefaults := rfl
@[simp] theorem State.clearMarks_links (k : Ctx) : (s.clearMarks k).links = s.links := rfl
@[simp] theorem State.clearMarks_patterns (k : Ctx) : (s.clearMarks k).patterns = s.patterns := rfl
@[simp] theorem State.clearMarks_freeCells (k : Ctx) : (s.clearMarks k).freeCells = s.freeCells := rfl
@[simp] theorem State.clearMarks_entries (k : Ctx) : (s.clearMarks k).entries = s.entries := rfl
@[simp] theorem State.clearMarks_postCounter (k : Ctx) : (s.clearMarks k).postCounter = s.postCounter := rfl
@[simp] theorem State.clearMarks_searchUnit (k : Ctx) : (s.clearMarks k).searchUnit = s.searchUnit := rfl
@[simp] theorem State.clearMarks_windowShort (k : Ctx) : (s.clearMarks k).windowShort = s.windowShort := rfl
@[simp] theorem State.clearMarks_marks (k : Ctx) : (s.clearMarks k).marks = s.marks.set k 0 := rfl
@[simp] theorem State.clearMarks_weights (k : Ctx) : (s.clearMarks k).weights = s.weights := rfl
@[simp] theorem State.clearMarks_slots (k : Ctx) : (s.clearMarks k).slots = s.slots := rfl
@[simp] theorem State.clearMarks_withdrawn (k : Ctx) : (s.clearMarks k).withdrawn = s.withdrawn := rfl
@[simp] theorem State.clearMarks_ctxs (k : Ctx) : (s.clearMarks k).ctxs = s.ctxs := rfl
@[simp] theorem State.clearMarks_conveyor (k : Ctx) : (s.clearMarks k).conveyor = s.conveyor := rfl
@[simp] theorem State.clearMarks_gate (k : Ctx) : (s.clearMarks k).gate = s.gate := rfl
@[simp] theorem State.clearMarks_heads (k : Ctx) : (s.clearMarks k).heads = s.heads := rfl
@[simp] theorem State.clearMarks_grantCount (k : Ctx) : (s.clearMarks k).grantCount = s.grantCount := rfl
@[simp] theorem State.clearMarks_startCount (k : Ctx) : (s.clearMarks k).startCount = s.startCount := rfl
@[simp] theorem State.clearMarks_lines (k : Ctx) : (s.clearMarks k).lines = s.lines := rfl
@[simp] theorem State.clearMarks_encA (k : Ctx) : (s.clearMarks k).encA = s.encA := rfl
@[simp] theorem State.clearMarks_encB (k : Ctx) : (s.clearMarks k).encB = s.encB := rfl
@[simp] theorem State.clearMarks_encErrors (k : Ctx) : (s.clearMarks k).encErrors = s.encErrors := rfl
@[simp] theorem State.clearMarks_notices (k : Ctx) : (s.clearMarks k).notices = s.notices := rfl
@[simp] theorem State.clearMarks_ports (k : Ctx) : (s.clearMarks k).ports = s.ports := rfl
@[simp] theorem State.clearMarks_freeIndex (k : Ctx) : (s.clearMarks k).freeIndex = s.freeIndex := rfl

/-! ### mark -/

@[simp] theorem State.mark_pending (t : Tag) (k : Ctx) : (s.mark t k).pending = s.pending := rfl
@[simp] theorem State.mark_condition (t : Tag) (k : Ctx) : (s.mark t k).condition = s.condition := rfl
@[simp] theorem State.mark_mismatches (t : Tag) (k : Ctx) : (s.mark t k).mismatches = s.mismatches := rfl
@[simp] theorem State.mark_planes (t : Tag) (k : Ctx) : (s.mark t k).planes = s.planes := rfl
@[simp] theorem State.mark_flaws (t : Tag) (k : Ctx) : (s.mark t k).flaws = s.flaws := rfl
@[simp] theorem State.mark_jobs (t : Tag) (k : Ctx) : (s.mark t k).jobs = s.jobs := rfl
@[simp] theorem State.mark_inFlight (t : Tag) (k : Ctx) : (s.mark t k).inFlight = s.inFlight := rfl
@[simp] theorem State.mark_rules (t : Tag) (k : Ctx) : (s.mark t k).rules = s.rules := rfl
@[simp] theorem State.mark_ranges (t : Tag) (k : Ctx) : (s.mark t k).ranges = s.ranges := rfl
@[simp] theorem State.mark_classDefaults (t : Tag) (k : Ctx) : (s.mark t k).classDefaults = s.classDefaults := rfl
@[simp] theorem State.mark_links (t : Tag) (k : Ctx) : (s.mark t k).links = s.links := rfl
@[simp] theorem State.mark_patterns (t : Tag) (k : Ctx) : (s.mark t k).patterns = s.patterns := rfl
@[simp] theorem State.mark_freeCells (t : Tag) (k : Ctx) : (s.mark t k).freeCells = s.freeCells := rfl
@[simp] theorem State.mark_entries (t : Tag) (k : Ctx) : (s.mark t k).entries = s.entries := rfl
@[simp] theorem State.mark_postCounter (t : Tag) (k : Ctx) : (s.mark t k).postCounter = s.postCounter := rfl
@[simp] theorem State.mark_searchUnit (t : Tag) (k : Ctx) : (s.mark t k).searchUnit = s.searchUnit := rfl
@[simp] theorem State.mark_windowShort (t : Tag) (k : Ctx) : (s.mark t k).windowShort = s.windowShort := rfl
@[simp] theorem State.mark_marks (t : Tag) (k : Ctx) : (s.mark t k).marks = s.marks.set k (s.marks[k] ||| tagBit t) := rfl
@[simp] theorem State.mark_weights (t : Tag) (k : Ctx) : (s.mark t k).weights = s.weights := rfl
@[simp] theorem State.mark_slots (t : Tag) (k : Ctx) : (s.mark t k).slots = s.slots := rfl
@[simp] theorem State.mark_withdrawn (t : Tag) (k : Ctx) : (s.mark t k).withdrawn = s.withdrawn := rfl
@[simp] theorem State.mark_ctxs (t : Tag) (k : Ctx) : (s.mark t k).ctxs = s.ctxs := rfl
@[simp] theorem State.mark_conveyor (t : Tag) (k : Ctx) : (s.mark t k).conveyor = s.conveyor := rfl
@[simp] theorem State.mark_gate (t : Tag) (k : Ctx) : (s.mark t k).gate = s.gate := rfl
@[simp] theorem State.mark_heads (t : Tag) (k : Ctx) : (s.mark t k).heads = s.heads := rfl
@[simp] theorem State.mark_grantCount (t : Tag) (k : Ctx) : (s.mark t k).grantCount = s.grantCount := rfl
@[simp] theorem State.mark_startCount (t : Tag) (k : Ctx) : (s.mark t k).startCount = s.startCount := rfl
@[simp] theorem State.mark_lines (t : Tag) (k : Ctx) : (s.mark t k).lines = s.lines := rfl
@[simp] theorem State.mark_encA (t : Tag) (k : Ctx) : (s.mark t k).encA = s.encA := rfl
@[simp] theorem State.mark_encB (t : Tag) (k : Ctx) : (s.mark t k).encB = s.encB := rfl
@[simp] theorem State.mark_encErrors (t : Tag) (k : Ctx) : (s.mark t k).encErrors = s.encErrors := rfl
@[simp] theorem State.mark_notices (t : Tag) (k : Ctx) : (s.mark t k).notices = s.notices := rfl
@[simp] theorem State.mark_ports (t : Tag) (k : Ctx) : (s.mark t k).ports = s.ports := rfl
@[simp] theorem State.mark_freeIndex (t : Tag) (k : Ctx) : (s.mark t k).freeIndex = s.freeIndex := rfl

end Sys2Proof.Machine
end

