-- ==== Sys2Proof/Laws/Settle.lean ====
section
/-!
SUPPORT. What the tail of an event can do, said once: it touches the flaws' and jobs' progress, the states of draining
contexts, the Search Unit, the claim timers, the gate, the notices and what the lines drive, and nothing else.
-/

namespace Sys2Proof.Machine

open Sys2Proof

/-! ### Vectors -/

theorem get_set {α : Type} {n : Nat} (v : Vector α n) (i j : Fin n) (x : α) :
    (v.set i x)[j] = if j = i then x else v[j] := by
  simp only [Fin.getElem_fin, Vector.getElem_set]
  by_cases h : j = i
  · subst h; simp
  · have : ¬ (i : Nat) = j := fun e => h (Fin.ext e.symm)
    simp [h, this]

theorem get_map {α β : Type} {n : Nat} (v : Vector α n) (f : α → β) (j : Fin n) : (v.map f)[j] = f v[j] := by
  simp [Fin.getElem_fin]

theorem get_ofFn {α : Type} {n : Nat} (f : Fin n → α) (j : Fin n) : (Vector.ofFn f)[j] = f j := by
  simp [Fin.getElem_fin]

theorem get_replicate {α : Type} {n : Nat} (x : α) (j : Fin n) : (Vector.replicate n x)[j] = x := by
  simp [Fin.getElem_fin]

/-! ### The attention law of one unit -/

/-- Attention is asserted only while an enabled flag is pending, for one unit (R174). -/
def NoticeUnit.sound (u : NoticeUnit) : Prop := u.attention = true → u.calling ≠ 0

theorem NoticeUnit.riseTest_sound (u : NoticeUnit) (p : Port) (h : u.sound) : (u.riseTest p).sound := by
  intro ha
  have hc : (u.riseTest p).calling = u.calling := rfl
  rw [hc]
  simp only [NoticeUnit.riseTest, Bool.or_eq_true] at ha
  rcases ha with ha | ha
  · exact h ha
  · simp only [NoticeUnit.rises, Bool.and_eq_true, decide_eq_true_eq] at ha
    exact ha.1

theorem NoticeUnit.fall_sound (u : NoticeUnit) (h : u.sound) : u.fall.sound := by
  unfold NoticeUnit.fall
  split
  · intro ha; simp at ha
  · exact h

theorem NoticeUnit.calling_set (u : NoticeUnit) (r : FlagSet) (h : u.calling ≠ 0) :
    (u.pending ||| r) &&& u.enabled ≠ 0 := by
  intro he
  apply h
  have : u.pending &&& u.enabled = (u.pending &&& u.enabled) &&& ((u.pending ||| r) &&& u.enabled) := by
    ext i hi
    simp only [BitVec.getElem_and, BitVec.getElem_or]
    cases u.pending[i] <;> cases u.enabled[i] <;> cases r[i] <;> rfl
  unfold NoticeUnit.calling
  rw [this, he]
  simp

theorem NoticeUnit.set_sound (u : NoticeUnit) (p : Port) (r : FlagSet) (h : u.sound) : (u.set p r).sound := by
  have hp : ∀ v : NoticeUnit, v.pending = (u.pending ||| r) → v.enabled = u.enabled → v.attention = u.attention →
      v.sound := by
    intro v h1 h2 h3 ha
    rw [h3] at ha
    unfold NoticeUnit.calling
    rw [h1, h2]
    exact NoticeUnit.calling_set u r (h ha)
  unfold NoticeUnit.set
  split
  · exact hp _ rfl rfl rfl
  · exact NoticeUnit.riseTest_sound _ _ (hp _ rfl rfl rfl)

/-- A setting event keeps a unit's settings (R172). -/
theorem NoticeUnit.set_settings (u : NoticeUnit) (p : Port) (r : FlagSet) :
    u.set p r = { u with pending := (u.set p r).pending, count := (u.set p r).count, timer := (u.set p r).timer,
                         attention := (u.set p r).attention } := by
  unfold NoticeUnit.set
  split <;> rfl

/-- A setting event leaves pending what was pending and adds the flags raised (R172). -/
theorem NoticeUnit.set_pending (u : NoticeUnit) (p : Port) (r : FlagSet) :
    (u.set p r).pending = u.pending ||| r := by
  unfold NoticeUnit.set
  split <;> rfl

/-! ### The relation between the state an event made and the state its tail leaves -/

/-- What a tail may change. -/
structure State.Tail (s t : State) : Prop where
  /-- Every field outside those the tail touches is as it was. -/
  rest : t = { s with flaws := t.flaws, jobs := t.jobs, inFlight := t.inFlight, ctxs := t.ctxs,
                      searchUnit := t.searchUnit, windowShort := t.windowShort, heads := t.heads, gate := t.gate,
                      notices := t.notices, lines := t.lines }
  /-- A flaw list keeps its length. -/
  flaws : ∀ k : Ctx, (t.flaws[k]).length = (s.flaws[k]).length
  /-- A context changes in its state alone. -/
  ctx : ∀ k : Ctx, t.ctxs[k] = { s.ctxs[k] with state := (t.ctxs[k]).state }
  /-- A context's state changes only from DRAINING to CLOSED. -/
  closing : ∀ k : Ctx, (t.ctxs[k]).state = (s.ctxs[k]).state ∨
    ((s.ctxs[k]).state = .draining ∧ (t.ctxs[k]).state = .closed)
  /-- A head changes in its claim timer alone. -/
  head : ∀ h : Head, t.heads[h] = { s.heads[h] with timer := (t.heads[h]).timer }
  /-- A line changes in its working level alone. -/
  line : ∀ l : LineNo, t.lines[l] = { s.lines[l] with work := (t.lines[l]).work }
  /-- A Notice Unit keeps its settings. -/
  notice : ∀ p : Port, t.notices[p] = { s.notices[p] with
    pending := (t.notices[p]).pending, count := (t.notices[p]).count, timer := (t.notices[p]).timer,
    attention := (t.notices[p]).attention }
  /-- A flag that was pending is pending. -/
  flags : ∀ p : Port, (t.notices[p]).pending = (s.notices[p]).pending ||| (t.notices[p]).pending
  /-- The attention law is kept. -/
  sound : ∀ p : Port, (s.notices[p]).sound → (t.notices[p]).sound
  /-- The gate keeps its settings. -/
  gate : t.gate = { s.gate with holding := t.gate.holding, armed := t.gate.armed, timer := t.gate.timer }

theorem State.Tail.refl (s : State) : State.Tail s s where
  rest := rfl
  flaws _ := rfl
  ctx _ := rfl
  closing _ := Or.inl rfl
  head _ := rfl
  line _ := rfl
  notice _ := rfl
  flags _ := (BitVec.or_self).symm
  sound _ h := h
  gate := rfl

theorem State.Tail.trans {s t u : State} (h : State.Tail s t) (g : State.Tail t u) : State.Tail s u where
  rest := by
    have hr := h.rest
    have gr := g.rest
    rw [hr] at gr
    exact gr
  flaws k := (g.flaws k).trans (h.flaws k)
  ctx k := by rw [g.ctx k, h.ctx k]
  closing k := by
    rcases g.closing k with e | e <;> rcases h.closing k with f | f
    · exact Or.inl (e.trans f)
    · exact Or.inr ⟨f.1, e.trans f.2⟩
    · exact Or.inr ⟨f ▸ e.1, e.2⟩
    · exact Or.inr ⟨f.1, e.2⟩
  head k := by rw [g.head k, h.head k]
  line k := by rw [g.line k, h.line k]
  notice k := by rw [g.notice k, h.notice k]
  flags k := by
    rw [g.flags k, h.flags k, ← BitVec.or_assoc, ← BitVec.or_assoc, BitVec.or_self]
  sound k e := g.sound k (h.sound k e)
  gate := by rw [g.gate, h.gate]

/-- A change of the Map Writer's progress and the Search Unit alone is within a tail. -/
theorem State.Tail.progress (s : State) (fs : Vector (List Flaw) 2) (js : List Job) (j : Option Job)
    (u : SearchState) (w : Bool) (h : ∀ k : Ctx, (fs[k]).length = (s.flaws[k]).length) :
    State.Tail s { s with flaws := fs, jobs := js, inFlight := j, searchUnit := u, windowShort := w } where
  rest := rfl
  flaws := h
  ctx _ := rfl
  closing _ := Or.inl rfl
  head _ := rfl
  line _ := rfl
  notice _ := rfl
  flags _ := (BitVec.or_self).symm
  sound _ h := h
  gate := rfl

/-! ### Raising flags leaves the state -/

@[simp] theorem Event.raise_state (e : Event) (n : Notice) : (e.raise n).state = e.state := rfl

@[simp] theorem Event.raiseIf_state (e : Event) (b : Bool) (n : Notice) : (e.raiseIf b n).state = e.state := by
  unfold Event.raiseIf; split <;> rfl

@[simp] theorem Event.on_state (e : Event) (f : State → State) : (e.on f).state = f e.state := rfl

@[simp] theorem State.begin_state (s : State) : s.begin.state = s := rfl

/-! ### The parts of a tail -/

theorem State.setFlaw_length (s : State) (k : Ctx) (n : Nat) (f : Flaw) (j : Ctx) :
    ((s.setFlaw k n f).flaws[j]).length = (s.flaws[j]).length := by
  rw [State.setFlaw_flaws, get_set]
  split
  · rename_i h; subst h; exact List.length_set
  · rfl

theorem Event.startJob_tail (e : Event) (j : Job) : State.Tail e.state (e.startJob j).state := by
  unfold Event.startJob
  dsimp only
  split
  · exact State.Tail.progress _ _ _ _ _ _ fun _ => rfl
  · split
    · exact State.Tail.progress _ _ _ _ _ _ fun _ => rfl
    · split
      · exact State.Tail.progress _ _ _ _ _ _ fun _ => State.setFlaw_length ..
      · exact State.Tail.progress _ _ _ _ _ _ fun _ => State.setFlaw_length ..

theorem Event.startFrom_tail (js : List Job) (e : Event) : State.Tail e.state (Event.startFrom js e).state := by
  induction js generalizing e with
  | nil => exact State.Tail.progress _ _ _ _ _ _ fun _ => rfl
  | cons j js ih =>
    have h := Event.startJob_tail e j
    unfold Event.startFrom
    dsimp only
    split
    · exact h.trans (State.Tail.progress _ _ _ _ _ _ fun _ => rfl)
    · exact h.trans (ih _)

theorem Event.startJobs_tail (e : Event) : State.Tail e.state e.startJobs.state := by
  unfold Event.startJobs
  split
  · exact State.Tail.refl _
  · exact Event.startFrom_tail _ _

theorem Event.closeTest_tail (e : Event) (k : Ctx) : State.Tail e.state (e.closeTest k).state := by
  unfold Event.closeTest
  split
  · rename_i hc
    have hd : (e.state.ctxs[k]).state = .draining := by
      simp only [State.closes, Bool.and_eq_true, decide_eq_true_eq] at hc
      exact hc.1.1
    refine ⟨rfl, fun _ => rfl, fun j => ?_, fun j => ?_, fun _ => rfl, fun _ => rfl, fun _ => rfl,
      fun _ => (BitVec.or_self).symm, fun _ h => h, rfl⟩
    · simp only [Event.raise_state, Event.on_state, State.updCtx_ctxs, get_set]
      split
      · rename_i h; subst h; rfl
      · rfl
    · simp only [Event.raise_state, Event.on_state, State.updCtx_ctxs, get_set]
      split
      · rename_i h; subst h; exact Or.inr ⟨hd, rfl⟩
      · exact Or.inl rfl
  · exact State.Tail.refl _

theorem Event.startPair_tail (e : Event) (q : Pair) (n : Nat) : State.Tail e.state (e.startPair q n).state := by
  unfold Event.startPair
  split
  · exact State.Tail.progress _ _ _ _ _ _ fun _ => rfl
  · exact State.Tail.progress _ _ _ _ _ _ fun _ => rfl

theorem Event.runSearchUnit_tail (e : Event) : State.Tail e.state e.runSearchUnit.state := by
  unfold Event.runSearchUnit
  split
  · unfold Event.select
    split
    · exact Event.startPair_tail _ _ _
    · unfold Event.judgeWindow
      simp only [Event.on_state, Event.raiseIf_state]
      exact State.Tail.progress _ _ _ _ _ _ fun _ => rfl
  · exact State.Tail.refl _
  · split
    · exact Event.startPair_tail _ _ _
    · exact State.Tail.refl _

theorem State.timeClaims_tail (before s : State) : State.Tail s (State.timeClaims before s) := by
  unfold State.timeClaims
  refine ⟨rfl, fun _ => rfl, fun _ => rfl, fun _ => Or.inl rfl, fun j => ?_, fun _ => rfl, fun _ => rfl,
    fun _ => (BitVec.or_self).symm, fun _ h => h, rfl⟩
  simp only [State.updHead_heads, get_set]
  rcases j with ⟨j, hj⟩
  interval_cases j <;> rfl

theorem Event.runGate_tail (before : State) (e : Event) : State.Tail e.state (e.runGate before).state := by
  have key : ∀ (g : Gate), g = { e.state.gate with holding := g.holding, armed := g.armed, timer := g.timer } →
      State.Tail e.state { e.state with gate := g } := by
    intro g hg
    exact ⟨rfl, fun _ => rfl, fun _ => rfl, fun _ => Or.inl rfl, fun _ => rfl, fun _ => rfl, fun _ => rfl,
      fun _ => (BitVec.or_self).symm, fun _ h => h, hg⟩
  unfold Event.runGate
  dsimp only
  split
  · split
    · exact key _ rfl
    · exact key _ rfl
  · split
    · exact key _ rfl
    · exact key _ rfl

theorem Event.raiseWork_state (before : State) (e : Event) : (e.raiseWork before).state = e.state := by
  unfold Event.raiseWork
  simp

theorem State.postNotices_tail (s : State) (r : Vector FlagSet 4) : State.Tail s (s.postNotices r) := by
  refine ⟨rfl, fun _ => rfl, fun _ => rfl, fun _ => Or.inl rfl, fun _ => rfl, fun _ => rfl, fun p => ?_, fun p => ?_,
    fun p h => ?_, rfl⟩
  · simp only [State.postNotices, get_ofFn]; exact NoticeUnit.set_settings _ _ _
  · simp only [State.postNotices, get_ofFn, NoticeUnit.set_pending]
    rw [← BitVec.or_assoc, BitVec.or_self]
  · simp only [State.postNotices, get_ofFn]; exact NoticeUnit.set_sound _ _ _ h

theorem State.driveLines_tail (s : State) : State.Tail s s.driveLines := by
  refine ⟨rfl, fun _ => rfl, fun _ => rfl, fun _ => Or.inl rfl, fun _ => rfl, fun l => ?_, fun _ => rfl,
    fun _ => (BitVec.or_self).symm, fun _ h => h, rfl⟩
  simp only [State.driveLines, get_map]
  rfl

theorem Event.sent_tail (e : Event) : State.Tail e.state e.sent := by
  unfold Event.sent
  exact State.Tail.trans (State.postNotices_tail _ _) (State.driveLines_tail _)

theorem Event.closed_tail (e : Event) : State.Tail e.state e.closed.state := by
  unfold Event.closed
  refine State.Tail.trans ?_ (Event.closeTest_tail _ 1)
  exact State.Tail.trans (Event.startJobs_tail e) (Event.closeTest_tail _ 0)

theorem Event.timed_tail (before : State) (e : Event) : State.Tail e.state (e.timed before).state := by
  unfold Event.timed
  rw [Event.on_state]
  exact (e.closed_tail.trans (Event.runSearchUnit_tail _)).trans (State.timeClaims_tail before _)

theorem Event.worked_tail (before : State) (e : Event) : State.Tail e.state (e.worked before).state := by
  unfold Event.worked
  rw [Event.raiseWork_state]
  exact (e.timed_tail before).trans (Event.runGate_tail before _)

/-- A tail stays within its bounds. -/
theorem settle_tail (before : State) (e : Event) : State.Tail e.state (settle before e) := by
  unfold settle
  exact (e.worked_tail before).trans (Event.sent_tail _)

/-- A tail of notices and lines stays within its bounds. -/
theorem settleNotices_tail (e : Event) : State.Tail e.state (settleNotices e) := by
  unfold settleNotices
  exact Event.sent_tail e

/-! ### What a tail leaves, field by field -/

theorem State.Tail.pending {s t : State} (h : State.Tail s t) : t.pending = s.pending := by rw [h.rest]
theorem State.Tail.condition {s t : State} (h : State.Tail s t) : t.condition = s.condition := by rw [h.rest]
theorem State.Tail.mismatches {s t : State} (h : State.Tail s t) : t.mismatches = s.mismatches := by rw [h.rest]
theorem State.Tail.planes {s t : State} (h : State.Tail s t) : t.planes = s.planes := by rw [h.rest]
theorem State.Tail.rules {s t : State} (h : State.Tail s t) : t.rules = s.rules := by rw [h.rest]
theorem State.Tail.ranges {s t : State} (h : State.Tail s t) : t.ranges = s.ranges := by rw [h.rest]
theorem State.Tail.classDefaults {s t : State} (h : State.Tail s t) : t.classDefaults = s.classDefaults := by rw [h.rest]
theorem State.Tail.links {s t : State} (h : State.Tail s t) : t.links = s.links := by rw [h.rest]
theorem State.Tail.patterns {s t : State} (h : State.Tail s t) : t.patterns = s.patterns := by rw [h.rest]
theorem State.Tail.freeCells {s t : State} (h : State.Tail s t) : t.freeCells = s.freeCells := by rw [h.rest]
theorem State.Tail.entries {s t : State} (h : State.Tail s t) : t.entries = s.entries := by rw [h.rest]
theorem State.Tail.postCounter {s t : State} (h : State.Tail s t) : t.postCounter = s.postCounter := by rw [h.rest]
theorem State.Tail.marks {s t : State} (h : State.Tail s t) : t.marks = s.marks := by rw [h.rest]
theorem State.Tail.weights {s t : State} (h : State.Tail s t) : t.weights = s.weights := by rw [h.rest]
theorem State.Tail.slots {s t : State} (h : State.Tail s t) : t.slots = s.slots := by rw [h.rest]
theorem State.Tail.withdrawn {s t : State} (h : State.Tail s t) : t.withdrawn = s.withdrawn := by rw [h.rest]
theorem State.Tail.conveyor {s t : State} (h : State.Tail s t) : t.conveyor = s.conveyor := by rw [h.rest]
theorem State.Tail.grantCount {s t : State} (h : State.Tail s t) : t.grantCount = s.grantCount := by rw [h.rest]
theorem State.Tail.startCount {s t : State} (h : State.Tail s t) : t.startCount = s.startCount := by rw [h.rest]
theorem State.Tail.encA {s t : State} (h : State.Tail s t) : t.encA = s.encA := by rw [h.rest]
theorem State.Tail.encB {s t : State} (h : State.Tail s t) : t.encB = s.encB := by rw [h.rest]
theorem State.Tail.encErrors {s t : State} (h : State.Tail s t) : t.encErrors = s.encErrors := by rw [h.rest]
theorem State.Tail.ports {s t : State} (h : State.Tail s t) : t.ports = s.ports := by rw [h.rest]
theorem State.Tail.freeIndex {s t : State} (h : State.Tail s t) : t.freeIndex = s.freeIndex := by rw [h.rest]

@[simp] theorem settle_pending (b : State) (e : Event) : (settle b e).pending = e.state.pending := (settle_tail b e).pending
@[simp] theorem settle_condition (b : State) (e : Event) : (settle b e).condition = e.state.condition := (settle_tail b e).condition
@[simp] theorem settle_mismatches (b : State) (e : Event) : (settle b e).mismatches = e.state.mismatches := (settle_tail b e).mismatches
@[simp] theorem settle_planes (b : State) (e : Event) : (settle b e).planes = e.state.planes := (settle_tail b e).planes
@[simp] theorem settle_rules (b : State) (e : Event) : (settle b e).rules = e.state.rules := (settle_tail b e).rules
@[simp] theorem settle_ranges (b : State) (e : Event) : (settle b e).ranges = e.state.ranges := (settle_tail b e).ranges
@[simp] theorem settle_classDefaults (b : State) (e : Event) : (settle b e).classDefaults = e.state.classDefaults := (settle_tail b e).classDefaults
@[simp] theorem settle_links (b : State) (e : Event) : (settle b e).links = e.state.links := (settle_tail b e).links
@[simp] theorem settle_patterns (b : State) (e : Event) : (settle b e).patterns = e.state.patterns := (settle_tail b e).patterns
@[simp] theorem settle_freeCells (b : State) (e : Event) : (settle b e).freeCells = e.state.freeCells := (settle_tail b e).freeCells
@[simp] theorem settle_entries (b : State) (e : Event) : (settle b e).entries = e.state.entries := (settle_tail b e).entries
@[simp] theorem settle_postCounter (b : State) (e : Event) : (settle b e).postCounter = e.state.postCounter := (settle_tail b e).postCounter
@[simp] theorem settle_marks (b : State) (e : Event) : (settle b e).marks = e.state.marks := (settle_tail b e).marks
@[simp] theorem settle_weights (b : State) (e : Event) : (settle b e).weights = e.state.weights := (settle_tail b e).weights
@[simp] theorem settle_slots (b : State) (e : Event) : (settle b e).slots = e.state.slots := (settle_tail b e).slots
@[simp] theorem settle_withdrawn (b : State) (e : Event) : (settle b e).withdrawn = e.state.withdrawn := (settle_tail b e).withdrawn
@[simp] theorem settle_conveyor (b : State) (e : Event) : (settle b e).conveyor = e.state.conveyor := (settle_tail b e).conveyor
@[simp] theorem settle_grantCount (b : State) (e : Event) : (settle b e).grantCount = e.state.grantCount := (settle_tail b e).grantCount
@[simp] theorem settle_startCount (b : State) (e : Event) : (settle b e).startCount = e.state.startCount := (settle_tail b e).startCount
@[simp] theorem settle_encA (b : State) (e : Event) : (settle b e).encA = e.state.encA := (settle_tail b e).encA
@[simp] theorem settle_encB (b : State) (e : Event) : (settle b e).encB = e.state.encB := (settle_tail b e).encB
@[simp] theorem settle_encErrors (b : State) (e : Event) : (settle b e).encErrors = e.state.encErrors := (settle_tail b e).encErrors
@[simp] theorem settle_ports (b : State) (e : Event) : (settle b e).ports = e.state.ports := (settle_tail b e).ports
@[simp] theorem settle_freeIndex (b : State) (e : Event) : (settle b e).freeIndex = e.state.freeIndex := (settle_tail b e).freeIndex

@[simp] theorem settleNotices_pending (e : Event) : (settleNotices e).pending = e.state.pending := (settleNotices_tail e).pending
@[simp] theorem settleNotices_condition (e : Event) : (settleNotices e).condition = e.state.condition := (settleNotices_tail e).condition
@[simp] theorem settleNotices_mismatches (e : Event) : (settleNotices e).mismatches = e.state.mismatches := (settleNotices_tail e).mismatches
@[simp] theorem settleNotices_planes (e : Event) : (settleNotices e).planes = e.state.planes := (settleNotices_tail e).planes
@[simp] theorem settleNotices_rules (e : Event) : (settleNotices e).rules = e.state.rules := (settleNotices_tail e).rules
@[simp] theorem settleNotices_ranges (e : Event) : (settleNotices e).ranges = e.state.ranges := (settleNotices_tail e).ranges
@[simp] theorem settleNotices_classDefaults (e : Event) : (settleNotices e).classDefaults = e.state.classDefaults := (settleNotices_tail e).classDefaults
@[simp] theorem settleNotices_links (e : Event) : (settleNotices e).links = e.state.links := (settleNotices_tail e).links
@[simp] theorem settleNotices_patterns (e : Event) : (settleNotices e).patterns = e.state.patterns := (settleNotices_tail e).patterns
@[simp] theorem settleNotices_freeCells (e : Event) : (settleNotices e).freeCells = e.state.freeCells := (settleNotices_tail e).freeCells
@[simp] theorem settleNotices_entries (e : Event) : (settleNotices e).entries = e.state.entries := (settleNotices_tail e).entries
@[simp] theorem settleNotices_postCounter (e : Event) : (settleNotices e).postCounter = e.state.postCounter := (settleNotices_tail e).postCounter
@[simp] theorem settleNotices_marks (e : Event) : (settleNotices e).marks = e.state.marks := (settleNotices_tail e).marks
@[simp] theorem settleNotices_weights (e : Event) : (settleNotices e).weights = e.state.weights := (settleNotices_tail e).weights
@[simp] theorem settleNotices_slots (e : Event) : (settleNotices e).slots = e.state.slots := (settleNotices_tail e).slots
@[simp] theorem settleNotices_withdrawn (e : Event) : (settleNotices e).withdrawn = e.state.withdrawn := (settleNotices_tail e).withdrawn
@[simp] theorem settleNotices_conveyor (e : Event) : (settleNotices e).conveyor = e.state.conveyor := (settleNotices_tail e).conveyor
@[simp] theorem settleNotices_grantCount (e : Event) : (settleNotices e).grantCount = e.state.grantCount := (settleNotices_tail e).grantCount
@[simp] theorem settleNotices_startCount (e : Event) : (settleNotices e).startCount = e.state.startCount := (settleNotices_tail e).startCount
@[simp] theorem settleNotices_encA (e : Event) : (settleNotices e).encA = e.state.encA := (settleNotices_tail e).encA
@[simp] theorem settleNotices_encB (e : Event) : (settleNotices e).encB = e.state.encB := (settleNotices_tail e).encB
@[simp] theorem settleNotices_encErrors (e : Event) : (settleNotices e).encErrors = e.state.encErrors := (settleNotices_tail e).encErrors
@[simp] theorem settleNotices_ports (e : Event) : (settleNotices e).ports = e.state.ports := (settleNotices_tail e).ports
@[simp] theorem settleNotices_freeIndex (e : Event) : (settleNotices e).freeIndex = e.state.freeIndex := (settleNotices_tail e).freeIndex

end Sys2Proof.Machine
end

