-- ==== Sys2Proof/Laws/Events.lean ====
section
/-!
SUPPORT. What the operations on placements, and the events made of them, can do, said once: a relation between the
state before and the state after that every one of them keeps.
-/

namespace Sys2Proof.Machine

open Sys2Proof

/-! ### The relation -/

/-- What of an entry does not change while it stands in the queue (R57). -/
def Entry.fixed (e : Entry) : Tag × PatNo × Hand × Nat × Bool × BitVec 16 :=
  (e.tag, e.pattern, e.hand, e.requested, e.rush, e.postNumber)

/-- What an event that declares nothing new may change. -/
structure State.Keeps (s t : State) : Prop where
  /-- The settings, the tables, the condition, the ports and the queue are as they were. -/
  rest : t = { s with planes := t.planes, flaws := t.flaws, jobs := t.jobs, inFlight := t.inFlight,
                      patterns := t.patterns, entries := t.entries, searchUnit := t.searchUnit,
                      windowShort := t.windowShort, marks := t.marks, slots := t.slots, withdrawn := t.withdrawn,
                      ctxs := t.ctxs, gate := t.gate, heads := t.heads, grantCount := t.grantCount,
                      startCount := t.startCount, lines := t.lines, notices := t.notices,
                      freeIndex := t.freeIndex }
  /-- Canonical planes stay canonical. -/
  planes : s.planesWf → t.planesWf
  /-- A pattern record changes in its reference count alone. -/
  patterns : ∀ n : PatNo, t.patterns[n] = { s.patterns[n] with refs := (t.patterns[n]).refs }
  /-- Entries may leave the queue; the others keep their order and what is fixed of them. -/
  entries : (t.entries.map Entry.fixed).Sublist (s.entries.map Entry.fixed)
  /-- The hide maps and frontiers stay in their bounds. -/
  frontier : s.hidesWf → t.hidesWf
  /-- An EMPTY context stays EMPTY. -/
  empty : ∀ k : Ctx, (s.ctxs[k]).state = .empty → (t.ctxs[k]).state = .empty
  /-- The attention law is kept. -/
  sound : ∀ p : Port, (s.notices[p]).sound → (t.notices[p]).sound

theorem State.Keeps.refl (s : State) : State.Keeps s s where
  rest := rfl
  planes h := h
  patterns _ := rfl
  entries := List.Sublist.refl _
  frontier h := h
  empty _ h := h
  sound _ h := h

theorem State.Keeps.trans {s t u : State} (h : State.Keeps s t) (g : State.Keeps t u) : State.Keeps s u where
  rest := by
    have hr := h.rest
    have gr := g.rest
    rw [hr] at gr
    exact gr
  planes e := g.planes (h.planes e)
  patterns n := by rw [g.patterns n, h.patterns n]
  entries := g.entries.trans h.entries
  frontier e := g.frontier (h.frontier e)
  empty k e := g.empty k (h.empty k e)
  sound p e := g.sound p (h.sound p e)

/-- A tail is within the relation. -/
theorem State.Tail.keeps {s t : State} (h : State.Tail s t) : State.Keeps s t where
  rest := by
    have hr := h.rest
    rw [hr]
  planes e := by
    intro k
    rw [h.planes]
    exact e k
  patterns n := by rw [h.patterns]
  entries := by rw [h.entries]
  frontier e := by
    intro k
    rw [h.ctx k]
    exact e k
  empty k e := by
    rcases h.closing k with f | f
    · exact f.trans e
    · rw [e] at f; exact absurd f.1 (by decide)
  sound := h.sound

theorem settle_keeps (before : State) (e : Event) : State.Keeps e.state (settle before e) := (settle_tail before e).keeps

theorem settleNotices_keeps (e : Event) : State.Keeps e.state (settleNotices e) := (settleNotices_tail e).keeps

/-! ### Changes of one collection -/

theorem State.setSlot_keeps (s : State) (n : SlotNo) (o : Option Placement) : State.Keeps s (s.setSlot n o) :=
  ⟨rfl, fun h => h, fun _ => rfl, List.Sublist.refl _, fun h => h, fun _ h => h, fun _ h => h⟩

theorem State.updHead_keeps (s : State) (h : Head) (f : HeadChannel → HeadChannel) : State.Keeps s (s.updHead h f) :=
  ⟨rfl, fun h => h, fun _ => rfl, List.Sublist.refl _, fun h => h, fun _ h => h, fun _ h => h⟩

theorem State.clearMarks_keeps (s : State) (k : Ctx) : State.Keeps s (s.clearMarks k) :=
  ⟨rfl, fun h => h, fun _ => rfl, List.Sublist.refl _, fun h => h, fun _ h => h, fun _ h => h⟩

theorem State.mark_keeps (s : State) (t : Tag) (k : Ctx) : State.Keeps s (s.mark t k) :=
  ⟨rfl, fun h => h, fun _ => rfl, List.Sublist.refl _, fun h => h, fun _ h => h, fun _ h => h⟩

theorem State.unmarkTag_keeps (s : State) (t : Tag) : State.Keeps s (s.unmarkTag t) :=
  ⟨rfl, fun h => h, fun _ => rfl, List.Sublist.refl _, fun h => h, fun _ h => h, fun _ h => h⟩

theorem State.abandonSearch_keeps (s : State) : State.Keeps s s.abandonSearch :=
  ⟨rfl, fun h => h, fun _ => rfl, List.Sublist.refl _, fun h => h, fun _ h => h, fun _ h => h⟩

theorem State.advanceScan_keeps (s : State) : State.Keeps s s.advanceScan := by
  unfold State.advanceScan
  split
  · exact ⟨rfl, fun h => h, fun _ => rfl, List.Sublist.refl _, fun h => h, fun _ h => h, fun _ h => h⟩
  · exact State.Keeps.refl _
  · exact State.Keeps.refl _

theorem State.setPlane_keeps (s : State) (k : Ctx) (q : Plane) (h : s.planesWf → q.wf = true) :
    State.Keeps s (s.setPlane k q) := by
  refine ⟨rfl, fun e => ?_, fun _ => rfl, List.Sublist.refl _, fun h => h, fun _ h => h, fun _ h => h⟩
  intro j
  rw [State.setPlane_planes, get_set]
  split
  · exact h e
  · exact e j

theorem State.updPattern_keeps (s : State) (n : PatNo) (f : Pattern → Pattern)
    (h : f s.patterns[n] = { s.patterns[n] with refs := (f s.patterns[n]).refs }) : State.Keeps s (s.updPattern n f) := by
  refine ⟨rfl, fun e => e, fun j => ?_, List.Sublist.refl _, fun h => h, fun _ h => h, fun _ h => h⟩
  rw [State.updPattern_patterns, get_set]
  split
  · rename_i hj; subst hj; exact h
  · rfl

theorem State.dropRef_keeps (s : State) (n : PatNo) : State.Keeps s (s.dropRef n) := State.updPattern_keeps _ _ _ rfl

theorem State.addRef_keeps (s : State) (n : PatNo) : State.Keeps s (s.addRef n) := State.updPattern_keeps _ _ _ rfl

theorem State.updEntry_fixed (s : State) (t : Tag) (f : Entry → Entry) (h : ∀ e, (f e).fixed = e.fixed) :
    (s.updEntry t f).entries.map Entry.fixed = s.entries.map Entry.fixed := by
  rw [State.updEntry_entries, List.map_map]
  apply List.map_congr_left
  intro e _
  simp only [Function.comp]
  split
  · exact h e
  · rfl

theorem State.updEntry_keeps (s : State) (t : Tag) (f : Entry → Entry) (h : ∀ e, (f e).fixed = e.fixed) :
    State.Keeps s (s.updEntry t f) :=
  ⟨rfl, fun e => e, fun _ => rfl, by rw [State.updEntry_fixed s t f h], fun h => h, fun _ h => h, fun _ h => h⟩

theorem State.setEntries_keeps (s : State) (es : List Entry) (h : es.Sublist s.entries) :
    State.Keeps s { s with entries := es } :=
  ⟨rfl, fun e => e, fun _ => rfl, h.map _, fun h => h, fun _ h => h, fun _ h => h⟩

theorem State.setWithdrawn_keeps (s : State) (ns : List SlotNo) : State.Keeps s { s with withdrawn := ns } :=
  ⟨rfl, fun e => e, fun _ => rfl, List.Sublist.refl _, fun h => h, fun _ h => h, fun _ h => h⟩

theorem State.setGate_keeps (s : State) (g : Gate) : State.Keeps s { s with gate := g } :=
  ⟨rfl, fun e => e, fun _ => rfl, List.Sublist.refl _, fun h => h, fun _ h => h, fun _ h => h⟩

theorem State.setWriter_keeps (s : State) (fs : Vector (List Flaw) 2) (js : List Job) (j : Option Job) :
    State.Keeps s { s with flaws := fs, jobs := js, inFlight := j } :=
  ⟨rfl, fun e => e, fun _ => rfl, List.Sublist.refl _, fun h => h, fun _ h => h, fun _ h => h⟩

theorem State.setSearch_keeps (s : State) (u : SearchState) : State.Keeps s { s with searchUnit := u } :=
  ⟨rfl, fun e => e, fun _ => rfl, List.Sublist.refl _, fun h => h, fun _ h => h, fun _ h => h⟩

theorem State.setLines_keeps (s : State) (v : Vector Line 6) : State.Keeps s { s with lines := v } :=
  ⟨rfl, fun e => e, fun _ => rfl, List.Sublist.refl _, fun h => h, fun _ h => h, fun _ h => h⟩

theorem State.updLine_keeps (s : State) (l : LineNo) (f : Line → Line) : State.Keeps s (s.updLine l f) :=
  State.setLines_keeps s _

theorem State.updCtx_keeps (s : State) (k : Ctx) (f : HideContext → HideContext)
    (hf : (f s.ctxs[k]).frontier = (s.ctxs[k]).frontier ∧ (f s.ctxs[k]).width = (s.ctxs[k]).width ∧
      (f s.ctxs[k]).height = (s.ctxs[k]).height)
    (he : (s.ctxs[k]).state = .empty → (f s.ctxs[k]).state = .empty) : State.Keeps s (s.updCtx k f) := by
  refine ⟨rfl, fun e => e, fun _ => rfl, List.Sublist.refl _, fun e j => ?_, fun j e => ?_, fun _ h => h⟩
  · rw [State.updCtx_ctxs, get_set]
    split
    · rename_i hj; subst hj; rw [hf.1, hf.2.1, hf.2.2]; exact e j
    · exact e j
  · rw [State.updCtx_ctxs, get_set]
    split
    · rename_i hj; subst hj; exact he e
    · exact e

/-! ### Folds of events -/

theorem Event.foldl_keeps {α : Type} (f : Event → α → Event) (h : ∀ e x, State.Keeps e.state (f e x).state)
    (xs : List α) (e : Event) : State.Keeps e.state (xs.foldl f e).state := by
  induction xs generalizing e with
  | nil => exact State.Keeps.refl _
  | cons x xs ih => exact (h e x).trans (ih _)

/-! ### Entries and references -/

theorem State.removeIfDone_keeps (s : State) (t : Tag) : State.Keeps s (s.removeIfDone t) := by
  unfold State.removeIfDone
  split
  · exact State.Keeps.refl _
  · split
    · refine State.Keeps.trans ?_ (State.unmarkTag_keeps _ _)
      refine State.Keeps.trans ?_ (State.dropRef_keeps _ _)
      exact State.setEntries_keeps s _ List.filter_sublist
    · exact State.Keeps.refl _

theorem State.dropHolder_keeps (s : State) (t : Tag) : State.Keeps s (s.dropHolder t) := by
  unfold State.dropHolder
  refine State.Keeps.trans ?_ (State.removeIfDone_keeps _ t)
  exact State.updEntry_keeps s t _ fun _ => rfl

theorem State.unhold_keeps (s : State) (h : Head) (n : SlotNo) : State.Keeps s (s.unhold h n) := State.updHead_keeps s h _

theorem State.unholdBy_keeps (s : State) (h : Option Head) (n : SlotNo) : State.Keeps s (s.unholdBy h n) := by
  cases h with
  | none => exact State.Keeps.refl _
  | some h => exact State.unhold_keeps s h n

theorem State.vacate_keeps (s : State) (k : Ctx) (n : SlotNo) :
    State.Keeps s (s.setPlane k (Plane.vacate s.planes[k] n)) :=
  State.setPlane_keeps s k _ fun h => Plane.vacate_wf _ _ (h k)

/-! ### Changes of a placement -/

theorem Event.withdraw_keeps (e : Event) (n : SlotNo) (c : Cause) : State.Keeps e.state (e.withdraw n c).state := by
  unfold Event.withdraw
  split
  · exact State.Keeps.refl _
  · have base : ∀ p : Placement, State.Keeps e.state (((({ (e.state.setSlot n
        (some { p with state := .withdrawn, cause := some c })).setPlane p.ctx (Plane.vacate e.state.planes[p.ctx] n) with
        withdrawn := e.state.withdrawn ++ [n] } : State).updEntry p.tag Entry.loseLive).clearMarks p.ctx)) := by
      intro p
      refine State.Keeps.trans ?_ (State.clearMarks_keeps _ _)
      refine State.Keeps.trans ?_ (State.updEntry_keeps _ _ _ fun _ => rfl)
      refine State.Keeps.trans ?_ (State.setWithdrawn_keeps _ _)
      refine State.Keeps.trans ?_ (State.vacate_keeps _ _ _)
      exact State.setSlot_keeps _ _ _
    dsimp only
    split
    · exact State.Keeps.trans (base _) (State.unhold_keeps _ _ _)
    · exact base _

theorem Event.spoil_keeps (e : Event) (n : SlotNo) (c : Cause) : State.Keeps e.state (e.spoil n c).state := by
  unfold Event.spoil
  split
  · exact State.Keeps.refl _
  · dsimp only
    rw [Event.raise_state]
    dsimp only
    split
    · refine State.Keeps.trans ?_ (State.updEntry_keeps _ _ _ fun _ => rfl)
      exact State.setSlot_keeps _ _ _
    · refine State.Keeps.trans ?_ (State.unholdBy_keeps _ _ _)
      refine State.Keeps.trans ?_ (State.updEntry_keeps _ _ _ fun _ => rfl)
      exact State.setSlot_keeps _ _ _

theorem State.returnClaim_keeps (s : State) (n : SlotNo) : State.Keeps s (s.returnClaim n) := by
  unfold State.returnClaim
  split
  · exact State.Keeps.refl _
  · refine State.Keeps.trans ?_ (State.unholdBy_keeps _ _ _)
    exact State.setSlot_keeps _ _ _

theorem Event.free_keeps (e : Event) (n : SlotNo) : State.Keeps e.state (e.free n).state := by
  unfold Event.free
  split
  · exact State.Keeps.refl _
  · refine State.Keeps.trans ?_ (State.dropRef_keeps _ _)
    refine State.Keeps.trans ?_ (State.dropHolder_keeps _ _)
    refine State.Keeps.trans ?_ (State.setWithdrawn_keeps _ _)
    exact State.setSlot_keeps _ _ _

theorem Event.loseClaim_keeps (e : Event) (h : Head) (n : SlotNo) : State.Keeps e.state (e.loseClaim h n).state :=
  State.returnClaim_keeps _ _

theorem Event.abortCut_keeps (e : Event) (h : Head) (n : SlotNo) (c : Cause) :
    State.Keeps e.state (e.abortCut h n c).state :=
  Event.spoil_keeps _ _ _

theorem Event.giveUp_keeps (h : Head) (notify : Bool) (e : Event) (x : Held) :
    State.Keeps e.state (Event.giveUp h notify e x).state := by
  unfold Event.giveUp
  split
  · exact State.Keeps.refl _
  · split
    · split
      · exact Event.abortCut_keeps ..
      · exact Event.spoil_keeps ..
    · split
      · exact Event.loseClaim_keeps ..
      · exact State.returnClaim_keeps ..

theorem Event.takeOffline_keeps (e : Event) (h : Head) (notify : Bool) :
    State.Keeps e.state (e.takeOffline h notify).state := by
  unfold Event.takeOffline
  rw [Event.on_state]
  refine State.Keeps.trans ?_ (State.updHead_keeps _ _ _)
  exact Event.foldl_keeps _ (fun e x => Event.giveUp_keeps h notify e x) _ _

theorem Event.viewInterlock_keeps (e : Event) (h : Head) : State.Keeps e.state (e.viewInterlock h).state := by
  unfold Event.viewInterlock
  dsimp only
  split
  · refine State.Keeps.trans ?_ (Event.takeOffline_keeps _ _ _)
    rw [Event.on_state]
    exact State.updHead_keeps _ _ _
  · rw [Event.on_state]
    exact State.updHead_keeps _ _ _

theorem Event.viewInterlocks_keeps (e : Event) : State.Keeps e.state e.viewInterlocks.state :=
  (Event.viewInterlock_keeps e 0).trans (Event.viewInterlock_keeps _ 1)

theorem Event.withdrawAll_keeps (e : Event) (ns : List SlotNo) (c : Cause) :
    State.Keeps e.state (e.withdrawAll ns c).state :=
  Event.foldl_keeps _ (fun e n => Event.withdraw_keeps e n c) _ _

theorem Event.freeAll_keeps (e : Event) (ns : List SlotNo) : State.Keeps e.state (e.freeAll ns).state :=
  Event.foldl_keeps _ Event.free_keeps _ _

theorem Event.abortSlot_keeps (k : Ctx) (e : Event) (n : SlotNo) : State.Keeps e.state (Event.abortSlot k e n).state := by
  unfold Event.abortSlot
  split
  · exact State.Keeps.refl _
  · split
    · exact State.Keeps.refl _
    · split <;> first
        | exact Event.withdraw_keeps ..
        | exact Event.abortCut_keeps ..
        | exact Event.spoil_keeps ..
        | exact State.Keeps.refl _

/-! ### The downgrade check -/

theorem Event.failCheck_keeps (e : Event) (c : Cause) (n : SlotNo) (p : Placement) :
    State.Keeps e.state (e.failCheck c n p).state := by
  unfold Event.failCheck
  split
  · exact Event.withdraw_keeps ..
  · exact Event.withdraw_keeps ..
  · dsimp only
    split
    · exact State.setSlot_keeps _ _ _
    · exact State.setSlot_keeps _ _ _
  · exact Event.spoil_keeps ..
  · exact State.Keeps.refl _
  · exact State.Keeps.refl _
  · exact State.Keeps.refl _

theorem Event.checkSlot_keeps (q : Plane) (ds : List Downgrade) (c : Cause) (e : Event) (n : SlotNo) :
    State.Keeps e.state (Event.checkSlot q ds c e n).state := by
  unfold Event.checkSlot
  split
  · exact State.Keeps.refl _
  · split
    · exact State.Keeps.refl _
    · exact Event.failCheck_keeps ..

theorem Event.downgrade_keeps (e : Event) (q : Plane) (ds : List Downgrade) (c : Cause) :
    State.Keeps e.state (e.downgrade q ds c).state :=
  Event.foldl_keeps _ (Event.checkSlot_keeps q ds c) _ _

/-! ### Changes of cell travel -/

theorem State.drainCtx_keeps (s : State) (k : Ctx) (c : DrainCause) (h : (s.ctxs[k]).state ≠ .empty) :
    State.Keeps s (s.drainCtx k c) := by
  unfold State.drainCtx
  have base := State.updCtx_keeps s k (fun x => { x with state := .draining, drainCause := some c }) ⟨rfl, rfl, rfl⟩
    (fun e => absurd e h)
  dsimp only
  split
  · exact base.trans (State.abandonSearch_keeps _)
  · exact base

theorem Event.exhaust_keeps (e : Event) (k : Ctx) : State.Keeps e.state (e.exhaust k).state := by
  unfold Event.exhaust
  split
  · rename_i h
    refine State.drainCtx_keeps _ _ _ ?_
    simp only [Bool.and_eq_true, decide_eq_true_eq] at h
    rw [h.1]
    decide
  · exact State.Keeps.refl _

theorem Event.loseReach_keeps (k : Ctx) (h : Head) (e : Event) (x : Held) :
    State.Keeps e.state (Event.loseReach k h e x).state := by
  unfold Event.loseReach
  split
  · exact State.Keeps.refl _
  · split
    · exact State.Keeps.refl _
    · split
      · split
        · exact State.Keeps.refl _
        · exact Event.abortCut_keeps ..
      · split
        · exact State.Keeps.refl _
        · exact Event.loseClaim_keeps ..

theorem Event.reachLoss_keeps (e : Event) (k : Ctx) : State.Keeps e.state (e.reachLoss k).state :=
  (Event.foldl_keeps _ (Event.loseReach_keeps k 0) _ _).trans (Event.foldl_keeps _ (Event.loseReach_keeps k 1) _ _)

theorem Event.separationLoss_keeps (k : Ctx) (n : Nat) (e : Event) :
    State.Keeps e.state (Event.separationLoss k n e).state := by
  induction n generalizing e with
  | zero => exact State.Keeps.refl _
  | succ n ih =>
    unfold Event.separationLoss
    split
    · exact State.Keeps.refl _
    · refine State.Keeps.trans ?_ (ih _)
      unfold Event.takeShort
      split
      · exact Event.abortCut_keeps ..
      · exact Event.loseClaim_keeps ..

theorem Event.testMissed_keeps (k : Ctx) (e : Event) (n : SlotNo) :
    State.Keeps e.state (Event.testMissed k e n).state := by
  unfold Event.testMissed
  split
  · exact State.Keeps.refl _
  · split
    · refine State.Keeps.trans ?_ (State.updEntry_keeps _ _ _ fun _ => rfl)
      exact State.setSlot_keeps _ _ _
    · exact State.Keeps.refl _

theorem Event.travelChange_keeps (e : Event) (k : Ctx) : State.Keeps e.state (e.travelChange k).state := by
  unfold Event.travelChange
  dsimp only
  refine State.Keeps.trans ?_ (Event.foldl_keeps _ (Event.testMissed_keeps k) _ _)
  refine State.Keeps.trans ?_ (Event.separationLoss_keeps k 4 _)
  refine State.Keeps.trans ?_ (Event.reachLoss_keeps _ k)
  exact Event.exhaust_keeps e k

theorem State.register_keeps (s : State) (k : Ctx) : State.Keeps s (s.register k) := by
  unfold State.register
  dsimp only
  refine State.Keeps.trans ?_ (State.setLines_keeps _ _)
  exact State.updCtx_keeps s k _ ⟨rfl, rfl, rfl⟩ fun h => h

theorem Event.hideEdge_keeps (e : Event) : State.Keeps e.state e.hideEdge.state := by
  unfold Event.hideEdge
  split
  · exact State.Keeps.refl _
  · refine State.Keeps.trans ?_ (Event.travelChange_keeps _ _)
    exact State.register_keeps _ _

theorem Event.deliver_keeps (e : Event) (f : InputFunction) (v : Bool) : State.Keeps e.state (e.deliver f v).state := by
  unfold Event.deliver
  split
  · exact State.Keeps.refl _
  · split
    · exact Event.hideEdge_keeps _
    · exact State.Keeps.refl _
  · split
    · exact State.setGate_keeps _ _
    · exact State.Keeps.refl _
  · exact Event.viewInterlocks_keeps _

/-! ### Heads and searches -/

theorem Event.faultHead_keeps (e : Event) (h : Head) : State.Keeps e.state (e.faultHead h).state := by
  unfold Event.faultHead
  dsimp only
  rw [Event.raise_state, Event.on_state]
  refine State.Keeps.trans ?_ (State.updHead_keeps _ _ _)
  exact Event.foldl_keeps _ (fun e n => State.returnClaim_keeps e.state n) _ _

theorem Event.cutThrough_keeps (e : Event) (h : Head) (n : SlotNo) (p : Placement) :
    State.Keeps e.state (e.cutThrough h n p).state := by
  unfold Event.cutThrough
  dsimp only
  rw [Event.raiseIf_state, Event.raiseIf_state, Event.raise_state]
  refine State.Keeps.trans ?_ (State.updEntry_keeps _ _ _ fun e => ?_)
  · exact State.Keeps.trans (State.setSlot_keeps _ _ _) (State.unhold_keeps _ _ _)
  · rfl

theorem Event.commit_keeps (e : Event) (n : SlotNo) (q : Search) (b : Best) :
    State.Keeps e.state (e.commit n q b).state := by
  unfold Event.commit
  dsimp only
  rw [Event.raise_state]
  refine (Event.free_keeps e n).trans ?_
  refine State.Keeps.trans ?_ (State.setSearch_keeps _ _)
  refine State.Keeps.trans ?_ (State.updCtx_keeps _ _ _ ⟨rfl, rfl, rfl⟩ fun h => h)
  refine State.Keeps.trans ?_ (State.addRef_keeps _ _)
  refine State.Keeps.trans ?_ (State.updEntry_keeps _ _ _ fun _ => rfl)
  refine State.Keeps.trans (State.setSlot_keeps _ _ _) (State.setPlane_keeps _ _ _ fun h => ?_)
  exact Plane.update_wf _ _ _ (h _)

theorem Event.finish_keeps (e : Event) (q : Search) (b : Option Best) : State.Keeps e.state (e.finish q b).state := by
  have up : ∀ s : State, State.Keeps s (s.giveUpPair q.pair) := fun s =>
    (State.mark_keeps s _ _).trans (State.abandonSearch_keeps _)
  unfold Event.finish
  split
  · exact up _
  · split
    · split
      · exact Event.commit_keeps ..
      · exact State.setSearch_keeps _ _
    · unfold Event.failVerify
      split
      · exact (Event.startPair_tail _ _ _).keeps
      · exact up _

end Sys2Proof.Machine
end

