-- ==== Sys2Proof/Laws/Tail.lean ====
section
/-!
SUPPORT. What the tail of an event does to each thing it touches: the flags that end pending, the Map Writer's jobs and
flaws, the contexts, the Search Unit, the claim timers and the gate.
-/

namespace Sys2Proof.Machine

open Sys2Proof

/-! ### The flags an event raises -/

/-- An event has raised a flag. -/
def Event.raised (e : Event) (n : Notice) : Prop := (e.sig.raised[n.port]) &&& n.bit = n.bit

theorem FlagSet.bit_or_left (a b m : FlagSet) (h : a &&& m = m) : (a ||| b) &&& m = m := by
  ext i hi
  have hb := congrArg (fun v => v.getLsbD i) h
  simp only [BitVec.getLsbD_and] at hb
  simp only [BitVec.getElem_and, BitVec.getElem_or]
  simp only [BitVec.getLsbD_eq_getElem hi] at hb
  revert hb
  cases a[i] <;> cases b[i] <;> cases m[i] <;> simp

theorem FlagSet.bit_or_right (a b m : FlagSet) (h : b &&& m = m) : (a ||| b) &&& m = m := by
  rw [BitVec.or_comm]
  exact FlagSet.bit_or_left b a m h

theorem Event.raised_raise (e : Event) (m n : Notice) (h : e.raised n) : (e.raise m).raised n := by
  unfold Event.raised Event.raise at *
  dsimp only
  rw [get_set]
  split
  · rename_i hp
    have key : ∀ p : Port, p = m.port → (e.sig.raised[p]) &&& n.bit = n.bit →
        (e.sig.raised[m.port] ||| m.bit) &&& n.bit = n.bit := by
      rintro p rfl hq
      exact FlagSet.bit_or_left _ _ _ hq
    exact key _ hp h
  · exact h

theorem Event.raised_raise_self (e : Event) (n : Notice) : (e.raise n).raised n := by
  unfold Event.raised Event.raise
  dsimp only
  rw [get_set, if_pos rfl]
  exact FlagSet.bit_or_right _ _ _ BitVec.and_self

theorem Event.raised_raiseIf (e : Event) (b : Bool) (m n : Notice) (h : e.raised n) : (e.raiseIf b m).raised n := by
  unfold Event.raiseIf
  split
  · exact Event.raised_raise e m n h
  · exact h

theorem Event.raised_raiseIf_self (e : Event) (b : Bool) (n : Notice) (h : b = true) : (e.raiseIf b n).raised n := by
  subst h
  exact Event.raised_raise_self e n

theorem Event.startJob_raised (e : Event) (j : Job) (n : Notice) (h : e.raised n) : (e.startJob j).raised n := by
  unfold Event.startJob
  dsimp only
  split
  · exact h
  · split
    · exact h
    · split
      · exact Event.raised_raise _ _ _ h
      · exact h

theorem Event.startFrom_raised (js : List Job) (e : Event) (n : Notice) (h : e.raised n) :
    (Event.startFrom js e).raised n := by
  induction js generalizing e with
  | nil => exact h
  | cons j js ih =>
    unfold Event.startFrom
    dsimp only
    split
    · exact Event.startJob_raised e j n h
    · exact ih _ (Event.startJob_raised e j n h)

theorem Event.startJobs_raised (e : Event) (n : Notice) (h : e.raised n) : e.startJobs.raised n := by
  unfold Event.startJobs
  split
  · exact h
  · exact Event.startFrom_raised _ _ _ h

theorem Event.closeTest_raised (e : Event) (k : Ctx) (n : Notice) (h : e.raised n) : (e.closeTest k).raised n := by
  unfold Event.closeTest
  split
  · exact Event.raised_raise _ _ _ (Event.raised_raise _ _ _ h)
  · exact h

theorem Event.startPair_raised (e : Event) (q : Pair) (r : Nat) (n : Notice) (h : e.raised n) :
    (e.startPair q r).raised n := by
  unfold Event.startPair
  split <;> exact h

theorem Event.runSearchUnit_raised (e : Event) (n : Notice) (h : e.raised n) : e.runSearchUnit.raised n := by
  unfold Event.runSearchUnit
  split
  · unfold Event.select
    split
    · exact Event.startPair_raised _ _ _ _ h
    · exact Event.raised_raiseIf _ _ _ _ h
  · exact h
  · split
    · exact Event.startPair_raised _ _ _ _ h
    · exact h

theorem Event.runGate_raised (before : State) (e : Event) (n : Notice) (h : e.raised n) :
    (e.runGate before).raised n := by
  unfold Event.runGate
  dsimp only
  split
  · split <;> exact h
  · split
    · exact Event.raised_raise _ _ _ h
    · exact h

theorem Event.raiseWork_raised (before : State) (e : Event) (n : Notice) (h : e.raised n) :
    (e.raiseWork before).raised n :=
  Event.raised_raiseIf _ _ _ _ (Event.raised_raiseIf _ _ _ _ h)

theorem Event.sent_flagged (e : Event) (n : Notice) (h : e.raised n) : e.sent.flagged n := by
  have key : ∀ (s : State) (r : Vector FlagSet 4), (r[n.port]) &&& n.bit = n.bit → ((s.postNotices r).driveLines).flagged n := by
    intro s r hr
    show (((s.postNotices r).notices)[n.port]).pending &&& n.bit = n.bit
    unfold State.postNotices
    dsimp only
    rw [get_ofFn, NoticeUnit.set_pending]
    exact FlagSet.bit_or_right _ _ _ hr
  exact key e.state e.sig.raised h

theorem settleNotices_flagged (e : Event) (n : Notice) (h : e.raised n) : (settleNotices e).flagged n :=
  Event.sent_flagged e n h

/-- A unit on which nothing is raised is as it was (R172). -/
theorem NoticeUnit.set_zero (u : NoticeUnit) (p : Port) : u.set p 0 = u := by
  unfold NoticeUnit.set
  rw [if_pos (by simp)]
  simp

/-- With nothing raised the notices are as they were. -/
theorem State.postNotices_none (s : State) : s.postNotices Signals.none.raised = s := by
  have h : Vector.ofFn (fun p : Port => (s.notices[p]).set p (Signals.none.raised)[p]) = s.notices := by
    apply Vector.ext
    intro i hi
    have : (Signals.none.raised)[(⟨i, hi⟩ : Port)] = (0 : FlagSet) := get_replicate _ _
    simp only [Vector.getElem_ofFn]
    rw [this, NoticeUnit.set_zero]
    rfl
  unfold State.postNotices
  rw [h]

/-- The tail of notices and lines of an event that raised nothing moves lines alone. -/
theorem settleNotices_begin (s : State) : settleNotices s.begin = s.driveLines := by
  unfold settleNotices Event.sent
  rw [show s.begin.sig.raised = Signals.none.raised from rfl, State.postNotices_none]
  rfl

/-! ### The later parts of a tail touch neither flaws nor contexts nor the Search Unit -/

theorem Event.closed_raised (e : Event) (n : Notice) (h : e.raised n) : e.closed.raised n := by
  unfold Event.closed
  exact Event.closeTest_raised _ _ _ (Event.closeTest_raised _ _ _ (Event.startJobs_raised _ _ h))

theorem Event.on_raised (e : Event) (f : State → State) (n : Notice) (h : e.raised n) : (e.on f).raised n := h

theorem Event.timed_raised (before : State) (e : Event) (n : Notice) (h : e.raised n) : (e.timed before).raised n := by
  unfold Event.timed
  exact Event.on_raised _ _ _ (Event.runSearchUnit_raised _ _ (Event.closed_raised e n h))

theorem Event.worked_raised (before : State) (e : Event) (n : Notice) (h : e.raised n) : (e.worked before).raised n := by
  unfold Event.worked
  exact Event.raiseWork_raised _ _ _ (Event.runGate_raised _ _ _ (Event.timed_raised before e n h))

/-- A flag that an event raised is pending after its tail (R172). -/
theorem settle_flagged (before : State) (e : Event) (n : Notice) (h : e.raised n) : (settle before e).flagged n := by
  unfold settle
  exact Event.sent_flagged _ n (Event.worked_raised before e n h)

theorem Event.closeTest_flaws (e : Event) (k : Ctx) : (e.closeTest k).state.flaws = e.state.flaws := by
  unfold Event.closeTest; split <;> rfl

theorem Event.closeTest_jobs (e : Event) (k : Ctx) : (e.closeTest k).state.jobs = e.state.jobs := by
  unfold Event.closeTest; split <;> rfl

theorem Event.closeTest_inFlight (e : Event) (k : Ctx) : (e.closeTest k).state.inFlight = e.state.inFlight := by
  unfold Event.closeTest; split <;> rfl

theorem Event.closeTest_searchUnit (e : Event) (k : Ctx) : (e.closeTest k).state.searchUnit = e.state.searchUnit := by
  unfold Event.closeTest; split <;> rfl

theorem Event.closeTest_gate (e : Event) (k : Ctx) : (e.closeTest k).state.gate = e.state.gate := by
  unfold Event.closeTest; split <;> rfl

theorem Event.startPair_fields (e : Event) (q : Pair) (n : Nat) :
    (e.startPair q n).state.flaws = e.state.flaws ∧ (e.startPair q n).state.jobs = e.state.jobs ∧
    (e.startPair q n).state.inFlight = e.state.inFlight ∧ (e.startPair q n).state.ctxs = e.state.ctxs ∧
    (e.startPair q n).state.heads = e.state.heads ∧ (e.startPair q n).state.gate = e.state.gate := by
  unfold Event.startPair
  split <;> exact ⟨rfl, rfl, rfl, rfl, rfl, rfl⟩

theorem Event.runSearchUnit_fields (e : Event) :
    e.runSearchUnit.state.flaws = e.state.flaws ∧ e.runSearchUnit.state.jobs = e.state.jobs ∧
    e.runSearchUnit.state.inFlight = e.state.inFlight ∧ e.runSearchUnit.state.ctxs = e.state.ctxs ∧
    e.runSearchUnit.state.heads = e.state.heads ∧ e.runSearchUnit.state.gate = e.state.gate := by
  unfold Event.runSearchUnit
  split
  · unfold Event.select
    split
    · exact Event.startPair_fields ..
    · unfold Event.judgeWindow
      rw [Event.on_state]
      unfold Event.raiseIf
      split <;> exact ⟨rfl, rfl, rfl, rfl, rfl, rfl⟩
  · exact ⟨rfl, rfl, rfl, rfl, rfl, rfl⟩
  · split
    · exact Event.startPair_fields ..
    · exact ⟨rfl, rfl, rfl, rfl, rfl, rfl⟩

theorem Event.runGate_fields (before : State) (e : Event) :
    (e.runGate before).state = { e.state with gate := (e.runGate before).state.gate } := by
  unfold Event.runGate
  dsimp only
  split
  · split <;> rfl
  · split <;> rfl

theorem Event.startJob_calm (e : Event) (j : Job) :
    (e.startJob j).state.searchUnit = e.state.searchUnit ∧ (e.startJob j).state.gate = e.state.gate ∧
    (e.startJob j).state.heads = e.state.heads ∧ (e.startJob j).sig.slotFreed = e.sig.slotFreed ∧
    (e.startJob j).sig.completion = e.sig.completion ∧ (e.startJob j).sig.gateSet = e.sig.gateSet := by
  unfold Event.startJob
  cases j.kind with
  | withdraw => exact ⟨rfl, rfl, rfl, rfl, rfl, rfl⟩
  | apply =>
    dsimp only
    cases (e.state.flaws[j.ctx])[j.flaw]? with
    | none => exact ⟨rfl, rfl, rfl, rfl, rfl, rfl⟩
    | some f =>
      dsimp only
      cases (e.state.classify j.ctx f).2 with
      | true => exact ⟨rfl, rfl, rfl, rfl, rfl, rfl⟩
      | false => exact ⟨rfl, rfl, rfl, rfl, rfl, rfl⟩

theorem Event.startFrom_calm (js : List Job) (e : Event) :
    (Event.startFrom js e).state.searchUnit = e.state.searchUnit ∧ (Event.startFrom js e).state.gate = e.state.gate ∧
    (Event.startFrom js e).state.heads = e.state.heads ∧ (Event.startFrom js e).sig.slotFreed = e.sig.slotFreed ∧
    (Event.startFrom js e).sig.completion = e.sig.completion ∧
    (Event.startFrom js e).sig.gateSet = e.sig.gateSet := by
  induction js generalizing e with
  | nil => exact ⟨rfl, rfl, rfl, rfl, rfl, rfl⟩
  | cons j js ih =>
    have hj := Event.startJob_calm e j
    unfold Event.startFrom
    generalize e.startJob j = e' at hj
    dsimp only
    split
    · exact hj
    · obtain ⟨a, b, c, d, x, y⟩ := ih e'
      obtain ⟨a', b', c', d', x', y'⟩ := hj
      exact ⟨a.trans a', b.trans b', c.trans c', d.trans d', x.trans x', y.trans y'⟩

/-- Starting jobs touches neither the Search Unit, the gate nor the heads. -/
theorem Event.startJobs_calm (e : Event) :
    e.startJobs.state.searchUnit = e.state.searchUnit ∧ e.startJobs.state.gate = e.state.gate ∧
    e.startJobs.state.heads = e.state.heads ∧ e.startJobs.sig.slotFreed = e.sig.slotFreed ∧
    e.startJobs.sig.completion = e.sig.completion ∧ e.startJobs.sig.gateSet = e.sig.gateSet := by
  unfold Event.startJobs
  split
  · exact ⟨rfl, rfl, rfl, rfl, rfl, rfl⟩
  · exact Event.startFrom_calm _ _

theorem Event.startJobs_gate (e : Event) : e.startJobs.state.gate = e.state.gate := e.startJobs_calm.2.1

theorem settle_eq (before : State) (e : Event) : settle before e = (e.worked before).sent := by
  unfold settle
  rfl

theorem Event.worked_state (before : State) (e : Event) :
    (e.worked before).state = { (e.timed before).state with gate := ((e.timed before).runGate before).state.gate } := by
  unfold Event.worked
  rw [Event.raiseWork_state, Event.runGate_fields]

theorem Event.sent_flaws (e : Event) : e.sent.flaws = e.state.flaws := by
  have key : ∀ (s : State) (r : Vector FlagSet 4), ((s.postNotices r).driveLines).flaws = s.flaws := fun _ _ => rfl
  exact key _ _

theorem Event.worked_flaws (before : State) (e : Event) : (e.worked before).state.flaws = (e.timed before).state.flaws := by
  rw [Event.worked_state]

theorem Event.sent_jobs (e : Event) : e.sent.jobs = e.state.jobs := by
  have key : ∀ (s : State) (r : Vector FlagSet 4), ((s.postNotices r).driveLines).jobs = s.jobs := fun _ _ => rfl
  exact key _ _

theorem Event.worked_jobs (before : State) (e : Event) : (e.worked before).state.jobs = (e.timed before).state.jobs := by
  rw [Event.worked_state]

theorem Event.sent_inFlight (e : Event) : e.sent.inFlight = e.state.inFlight := by
  have key : ∀ (s : State) (r : Vector FlagSet 4), ((s.postNotices r).driveLines).inFlight = s.inFlight := fun _ _ => rfl
  exact key _ _

theorem Event.worked_inFlight (before : State) (e : Event) : (e.worked before).state.inFlight = (e.timed before).state.inFlight := by
  rw [Event.worked_state]

theorem Event.sent_ctxs (e : Event) : e.sent.ctxs = e.state.ctxs := by
  have key : ∀ (s : State) (r : Vector FlagSet 4), ((s.postNotices r).driveLines).ctxs = s.ctxs := fun _ _ => rfl
  exact key _ _

theorem Event.worked_ctxs (before : State) (e : Event) : (e.worked before).state.ctxs = (e.timed before).state.ctxs := by
  rw [Event.worked_state]

theorem Event.sent_heads (e : Event) : e.sent.heads = e.state.heads := by
  have key : ∀ (s : State) (r : Vector FlagSet 4), ((s.postNotices r).driveLines).heads = s.heads := fun _ _ => rfl
  exact key _ _

theorem Event.worked_heads (before : State) (e : Event) : (e.worked before).state.heads = (e.timed before).state.heads := by
  rw [Event.worked_state]

theorem Event.sent_searchUnit (e : Event) : e.sent.searchUnit = e.state.searchUnit := by
  have key : ∀ (s : State) (r : Vector FlagSet 4), ((s.postNotices r).driveLines).searchUnit = s.searchUnit := fun _ _ => rfl
  exact key _ _

theorem Event.worked_searchUnit (before : State) (e : Event) : (e.worked before).state.searchUnit = (e.timed before).state.searchUnit := by
  rw [Event.worked_state]

theorem Event.sent_gate (e : Event) : e.sent.gate = e.state.gate := by
  have key : ∀ (s : State) (r : Vector FlagSet 4), ((s.postNotices r).driveLines).gate = s.gate := fun _ _ => rfl
  exact key _ _

theorem Event.worked_gate (before : State) (e : Event) :
    (e.worked before).state.gate = ((e.timed before).runGate before).state.gate := by
  rw [Event.worked_state]

theorem State.timeClaims_flaws (before s : State) : (State.timeClaims before s).flaws = s.flaws := rfl

theorem Event.timed_flaws (before : State) (e : Event) :
    (e.timed before).state.flaws = e.closed.runSearchUnit.state.flaws := by
  unfold Event.timed
  rw [Event.on_state, State.timeClaims_flaws]

theorem settle_flaws (before : State) (e : Event) : (settle before e).flaws = e.startJobs.state.flaws := by
  rw [settle_eq, Event.sent_flaws, Event.worked_flaws, Event.timed_flaws, (Event.runSearchUnit_fields _).1]
  unfold Event.closed
  rw [Event.closeTest_flaws, Event.closeTest_flaws]

theorem State.timeClaims_jobs (before s : State) : (State.timeClaims before s).jobs = s.jobs := rfl

theorem Event.timed_jobs (before : State) (e : Event) :
    (e.timed before).state.jobs = e.closed.runSearchUnit.state.jobs := by
  unfold Event.timed
  rw [Event.on_state, State.timeClaims_jobs]

theorem settle_jobs (before : State) (e : Event) : (settle before e).jobs = e.startJobs.state.jobs := by
  rw [settle_eq, Event.sent_jobs, Event.worked_jobs, Event.timed_jobs, (Event.runSearchUnit_fields _).2.1]
  unfold Event.closed
  rw [Event.closeTest_jobs, Event.closeTest_jobs]

theorem State.timeClaims_inFlight (before s : State) : (State.timeClaims before s).inFlight = s.inFlight := rfl

theorem Event.timed_inFlight (before : State) (e : Event) :
    (e.timed before).state.inFlight = e.closed.runSearchUnit.state.inFlight := by
  unfold Event.timed
  rw [Event.on_state, State.timeClaims_inFlight]

theorem settle_inFlight (before : State) (e : Event) : (settle before e).inFlight = e.startJobs.state.inFlight := by
  rw [settle_eq, Event.sent_inFlight, Event.worked_inFlight, Event.timed_inFlight, (Event.runSearchUnit_fields _).2.2.1]
  unfold Event.closed
  rw [Event.closeTest_inFlight, Event.closeTest_inFlight]

theorem State.timeClaims_ctxs (before s : State) : (State.timeClaims before s).ctxs = s.ctxs := rfl

theorem Event.timed_ctxs (before : State) (e : Event) :
    (e.timed before).state.ctxs = e.closed.runSearchUnit.state.ctxs := by
  unfold Event.timed
  rw [Event.on_state, State.timeClaims_ctxs]

theorem settle_ctxs (before : State) (e : Event) : (settle before e).ctxs = e.closed.state.ctxs := by
  rw [settle_eq, Event.sent_ctxs, Event.worked_ctxs, Event.timed_ctxs, (Event.runSearchUnit_fields _).2.2.2.1]

theorem State.timeClaims_searchUnit (before s : State) : (State.timeClaims before s).searchUnit = s.searchUnit := rfl

theorem Event.timed_searchUnit (before : State) (e : Event) :
    (e.timed before).state.searchUnit = e.closed.runSearchUnit.state.searchUnit := by
  unfold Event.timed
  rw [Event.on_state, State.timeClaims_searchUnit]

theorem settle_searchUnit (before : State) (e : Event) :
    (settle before e).searchUnit = e.closed.runSearchUnit.state.searchUnit := by
  rw [settle_eq, Event.sent_searchUnit, Event.worked_searchUnit, Event.timed_searchUnit]

theorem settle_gate (before : State) (e : Event) :
    (settle before e).gate = ((e.timed before).runGate before).state.gate := by
  rw [settle_eq, Event.sent_gate, Event.worked_gate]

theorem Event.timed_gate (before : State) (e : Event) : (e.timed before).state.gate = e.state.gate := by
  have key : ∀ b s : State, (State.timeClaims b s).gate = s.gate := fun _ _ => rfl
  unfold Event.timed
  rw [Event.on_state, key, (Event.runSearchUnit_fields _).2.2.2.2.2]
  unfold Event.closed
  rw [Event.closeTest_gate, Event.closeTest_gate]
  exact Event.startJobs_gate e

/-! ### Contexts -/

/-- A context that is not DRAINING is as it was (R126). -/
theorem settle_ctx (before : State) (e : Event) (k : Ctx) (h : (e.state.ctxs[k]).state ≠ .draining) :
    (settle before e).ctxs[k] = e.state.ctxs[k] := by
  have t := settle_tail before e
  rw [t.ctx k]
  rcases t.closing k with hs | hs
  · rw [hs]
  · exact absurd hs.1 h

theorem settle_frontier (before : State) (e : Event) (k : Ctx) :
    ((settle before e).ctxs[k]).frontier = (e.state.ctxs[k]).frontier := by rw [(settle_tail before e).ctx k]

theorem settle_width (before : State) (e : Event) (k : Ctx) :
    ((settle before e).ctxs[k]).width = (e.state.ctxs[k]).width := by rw [(settle_tail before e).ctx k]

theorem settle_height (before : State) (e : Event) (k : Ctx) :
    ((settle before e).ctxs[k]).height = (e.state.ctxs[k]).height := by rw [(settle_tail before e).ctx k]

theorem settle_registered (before : State) (e : Event) (k : Ctx) :
    ((settle before e).ctxs[k]).registered = (e.state.ctxs[k]).registered := by rw [(settle_tail before e).ctx k]

theorem settle_count (before : State) (e : Event) (k : Ctx) :
    ((settle before e).ctxs[k]).count = (e.state.ctxs[k]).count := by rw [(settle_tail before e).ctx k]

theorem settle_held (before : State) (e : Event) (h : Head) :
    ((settle before e).heads[h]).held = (e.state.heads[h]).held := by rw [(settle_tail before e).head h]

theorem settle_headState (before : State) (e : Event) (h : Head) :
    ((settle before e).heads[h]).state = (e.state.heads[h]).state := by rw [(settle_tail before e).head h]

theorem settle_interlock (before : State) (e : Event) (h : Head) :
    ((settle before e).heads[h]).interlock = (e.state.heads[h]).interlock := by rw [(settle_tail before e).head h]

/-! ### The Map Writer -/

/-- The Map Writer takes its jobs from the front of its queue: what is left of the queue is its end, and a job in
flight was in flight or stood in the queue before what is left (R23). -/
theorem Event.startFrom_queue (js : List Job) (e : Event) :
    (Event.startFrom js e).state.jobs <:+ js ∧
    ∀ j, (Event.startFrom js e).state.inFlight = some j → e.state.inFlight = some j ∨ j ∈ js := by
  induction js generalizing e with
  | nil => exact ⟨List.nil_suffix, fun j h => Or.inl h⟩
  | cons j js ih =>
    have hj : ∀ i, (e.startJob j).state.inFlight = some i → e.state.inFlight = some i ∨ i = j := by
      intro i
      unfold Event.startJob
      dsimp only
      split
      · intro h; right; exact (Option.some.inj h).symm
      · split
        · intro h; right; exact (Option.some.inj h).symm
        · split
          · intro h; left; exact h
          · intro h; right; exact (Option.some.inj h).symm
    unfold Event.startFrom
    dsimp only
    split
    · refine ⟨List.suffix_cons _ _, fun i h => ?_⟩
      rcases hj i h with h | h
      · exact Or.inl h
      · exact Or.inr (by rw [h]; exact List.mem_cons_self)
    · obtain ⟨h1, h2⟩ := ih (e.startJob j)
      refine ⟨h1.trans (List.suffix_cons _ _), fun i h => ?_⟩
      rcases h2 i h with h | h
      · rcases hj i h with h | h
        · exact Or.inl h
        · exact Or.inr (by rw [h]; exact List.mem_cons_self)
      · exact Or.inr (List.mem_cons_of_mem _ h)

theorem settle_queue (before : State) (e : Event) :
    (∀ j ∈ (settle before e).jobs, j ∈ e.state.jobs) ∧
    ∀ j, (settle before e).inFlight = some j → e.state.inFlight = some j ∨ j ∈ e.state.jobs := by
  rw [settle_jobs, settle_inFlight]
  unfold Event.startJobs
  split
  · exact ⟨fun _ h => h, fun _ h => Or.inl h⟩
  · obtain ⟨h1, h2⟩ := Event.startFrom_queue e.state.jobs e
    exact ⟨fun _ h => h1.subset h, h2⟩

/-- What starting a job does to a flaw: nothing unless it is the APPLY job of the flaw, and then it classifies it and
may make it IGNORED (R24). -/
theorem Event.startJob_flaw (e : Event) (j : Job) (k : Ctx) (n : Nat) :
    ((e.startJob j).state.flaws[k])[n]? = (e.state.flaws[k])[n]? ∨
    (j = { kind := .apply, ctx := k, flaw := n } ∧ ∃ f c st, (e.state.flaws[k])[n]? = some f ∧
      (st = f.state ∨ st = .ignored) ∧ ((e.startJob j).state.flaws[k])[n]? = some { f with state := st, classified := some c }) := by
  unfold Event.startJob
  dsimp only
  split
  · exact Or.inl rfl
  · rename_i hkind
    have hj : j.ctx = k ∧ j.flaw = n → j = { kind := .apply, ctx := k, flaw := n } := by
      rintro ⟨rfl, rfl⟩
      rw [← hkind]
    split
    · exact Or.inl rfl
    · rename_i f hf
      have key : ∀ (g : Flaw) (u : State), u.flaws = (e.state.setFlaw j.ctx j.flaw g).flaws →
          (u.flaws[k])[n]? = (e.state.flaws[k])[n]? ∨ ((j.ctx = k ∧ j.flaw = n) ∧ (u.flaws[k])[n]? = some g) := by
        intro g u hu
        rw [hu, State.setFlaw_flaws, get_set]
        by_cases hk : k = j.ctx
        · subst hk
          rw [if_pos rfl]
          by_cases hn : j.flaw = n
          · subst hn
            right
            refine ⟨⟨rfl, rfl⟩, ?_⟩
            rw [List.getElem?_set_self]
            exact (List.getElem?_eq_some_iff.mp hf).1
          · left
            exact List.getElem?_set_ne hn
        · left
          rw [if_neg hk]
      split
      · rcases key { f with state := .ignored, classified := some (e.state.classify j.ctx f).1 }
          (e.state.setFlaw j.ctx j.flaw { f with state := .ignored, classified := some (e.state.classify j.ctx f).1 }) rfl with h | h
        · exact Or.inl h
        · refine Or.inr ⟨hj h.1, f, (e.state.classify j.ctx f).1, .ignored, ?_, Or.inr rfl, h.2⟩
          rw [← h.1.1, ← h.1.2]; exact hf
      · rcases key { f with classified := some (e.state.classify j.ctx f).1 }
          (e.state.setFlaw j.ctx j.flaw { f with classified := some (e.state.classify j.ctx f).1 }) rfl with h | h
        · exact Or.inl h
        · refine Or.inr ⟨hj h.1, f, (e.state.classify j.ctx f).1, f.state, ?_, Or.inl rfl, h.2⟩
          rw [← h.1.1, ← h.1.2]; exact hf

/-- What a tail may do to a flaw record: classify it and make it IGNORED. -/
def Flaw.progress (f g : Flaw) : Prop :=
  g = { f with state := g.state, classified := g.classified } ∧ (g.state = f.state ∨ g.state = .ignored)

theorem Flaw.progress_refl (f : Flaw) : f.progress f := ⟨rfl, Or.inl rfl⟩

theorem Flaw.progress_trans {f g h : Flaw} (a : f.progress g) (b : g.progress h) : f.progress h := by
  refine ⟨?_, ?_⟩
  · have ha := a.1
    have hb := b.1
    rw [ha] at hb
    exact hb
  · rcases b.2 with e | e
    · rw [e]; exact a.2
    · exact Or.inr e

theorem Event.startFrom_flaw (js : List Job) (e : Event) (k : Ctx) (n : Nat) :
    (∀ f, (e.state.flaws[k])[n]? = some f →
      ∃ g, ((Event.startFrom js e).state.flaws[k])[n]? = some g ∧ f.progress g) ∧
    ({ kind := .apply, ctx := k, flaw := n } ∉ js →
      ((Event.startFrom js e).state.flaws[k])[n]? = (e.state.flaws[k])[n]?) := by
  induction js generalizing e with
  | nil => exact ⟨fun f h => ⟨f, h, Flaw.progress_refl f⟩, fun _ => rfl⟩
  | cons j js ih =>
    have hj := Event.startJob_flaw e j k n
    have first : ∀ f, (e.state.flaws[k])[n]? = some f →
        ∃ g, ((e.startJob j).state.flaws[k])[n]? = some g ∧ f.progress g := by
      intro f hf
      rcases hj with h | ⟨_, f', c, st, h1, h2, h3⟩
      · exact ⟨f, h.trans hf, Flaw.progress_refl f⟩
      · rw [hf] at h1
        obtain rfl := Option.some.inj h1
        exact ⟨_, h3, rfl, h2⟩
    unfold Event.startFrom
    dsimp only
    split
    · refine ⟨first, fun h => ?_⟩
      rcases hj with h' | h'
      · exact h'
      · exact absurd (h'.1 ▸ List.mem_cons_self) h
    · obtain ⟨i1, i2⟩ := ih (e.startJob j)
      refine ⟨fun f hf => ?_, fun h => ?_⟩
      · obtain ⟨g, hg, pg⟩ := first f hf
        obtain ⟨g', hg', pg'⟩ := i1 g hg
        exact ⟨g', hg', Flaw.progress_trans pg pg'⟩
      · rw [i2 fun hi => h (List.mem_cons_of_mem _ hi)]
        rcases hj with h' | h'
        · exact h'
        · exact absurd (h'.1 ▸ List.mem_cons_self) h

/-- A flaw record at most progresses in a tail. -/
theorem settle_flaw (before : State) (e : Event) (k : Ctx) (n : Nat) (f : Flaw) (h : (e.state.flaws[k])[n]? = some f) :
    ∃ g, ((settle before e).flaws[k])[n]? = some g ∧ f.progress g := by
  rw [settle_flaws]
  unfold Event.startJobs
  split
  · exact ⟨f, h, Flaw.progress_refl f⟩
  · exact (Event.startFrom_flaw _ _ k n).1 f h

/-- A flaw that no queued APPLY job names is as it was after a tail. -/
theorem settle_flaw_apart (before : State) (e : Event) (k : Ctx) (n : Nat)
    (h : { kind := .apply, ctx := k, flaw := n } ∉ e.state.jobs) :
    ((settle before e).flaws[k])[n]? = (e.state.flaws[k])[n]? := by
  rw [settle_flaws]
  unfold Event.startJobs
  split
  · rfl
  · exact (Event.startFrom_flaw _ _ k n).2 h

/-- A flaw list none of whose flaws a queued job names is as it was after a tail. -/
theorem settle_flaws_apart (before : State) (e : Event) (k : Ctx) (h : ∀ j ∈ e.state.jobs, j.ctx ≠ k) :
    (settle before e).flaws[k] = e.state.flaws[k] := by
  apply List.ext_getElem?
  intro n
  exact settle_flaw_apart before e k n fun hj => h _ hj rfl

theorem Flaw.due_of_progress (xs ys : List Flaw) (hl : ys.length = xs.length)
    (hp : ∀ (n : Nat) (f : Flaw), xs[n]? = some f → ∃ g, ys[n]? = some g ∧ f.progress g)
    (h : ∀ f ∈ xs, f.state.due = false) : ∀ g ∈ ys, g.state.due = false := by
  intro g hg
  obtain ⟨n, hn⟩ := List.getElem?_of_mem hg
  have hlt : n < xs.length := by
    rw [← hl]; exact (List.getElem?_eq_some_iff.mp hn).1
  obtain ⟨g', hg', pg⟩ := hp n _ (List.getElem?_eq_getElem hlt)
  rw [hn] at hg'
  obtain rfl := Option.some.inj hg'
  rcases pg.2 with e' | e'
  · rw [e']; exact h _ (List.getElem_mem hlt)
  · rw [e']; rfl

/-- A tail gives no flaw work that had none. -/
theorem settle_due (before : State) (e : Event) (k : Ctx) (h : ∀ f ∈ e.state.flaws[k], f.state.due = false) :
    ∀ f ∈ (settle before e).flaws[k], f.state.due = false :=
  Flaw.due_of_progress _ _ ((settle_tail before e).flaws k) (fun n f hf => settle_flaw before e k n f hf) h

/-! ### The Search Unit -/

theorem Event.closeTest_calm (e : Event) (k : Ctx) :
    (e.closeTest k).state.searchUnit = e.state.searchUnit ∧ (e.closeTest k).state.gate = e.state.gate ∧
    (e.closeTest k).state.heads = e.state.heads ∧ (e.closeTest k).sig.slotFreed = e.sig.slotFreed ∧
    (e.closeTest k).sig.completion = e.sig.completion ∧ (e.closeTest k).sig.gateSet = e.sig.gateSet := by
  unfold Event.closeTest
  split <;> exact ⟨rfl, rfl, rfl, rfl, rfl, rfl⟩

/-- The Map Writer and the close tests touch neither the Search Unit, the gate nor the heads. -/
theorem Event.closed_calm (e : Event) :
    e.closed.state.searchUnit = e.state.searchUnit ∧ e.closed.state.gate = e.state.gate ∧
    e.closed.state.heads = e.state.heads ∧ e.closed.sig.slotFreed = e.sig.slotFreed ∧
    e.closed.sig.completion = e.sig.completion ∧ e.closed.sig.gateSet = e.sig.gateSet := by
  unfold Event.closed
  obtain ⟨a1, b1, c1, d1, x1, y1⟩ := Event.closeTest_calm (e.startJobs.closeTest 0) 1
  obtain ⟨a2, b2, c2, d2, x2, y2⟩ := Event.closeTest_calm e.startJobs 0
  obtain ⟨a3, b3, c3, d3, x3, y3⟩ := e.startJobs_calm
  exact ⟨a1.trans (a2.trans a3), b1.trans (b2.trans b3), c1.trans (c2.trans c3), d1.trans (d2.trans d3),
    x1.trans (x2.trans x3), y1.trans (y2.trans y3)⟩

/-- A search in flight goes on through a tail (R74). -/
theorem settle_searching (before : State) (e : Event) (q : Search) (h : e.state.searchUnit = .searching q) :
    (settle before e).searchUnit = .searching q := by
  rw [settle_searchUnit]
  have hc : e.closed.state.searchUnit = .searching q := e.closed_calm.1.trans h
  unfold Event.runSearchUnit
  rw [hc]
  exact hc

/-- A stalled unit stays stalled through a tail of an event that frees and withdraws no slot (R88). -/
theorem settle_stalled (before : State) (e : Event) (q : Pair) (h : e.state.searchUnit = .stalled q)
    (hf : e.sig.slotFreed = false) : (settle before e).searchUnit = .stalled q := by
  rw [settle_searchUnit]
  have hc : e.closed.state.searchUnit = .stalled q := e.closed_calm.1.trans h
  unfold Event.runSearchUnit
  rw [hc]
  dsimp only
  rw [e.closed_calm.2.2.2.1, hf]
  exact hc

/-! ### The gate -/

theorem Event.runSearchUnit_sig (e : Event) :
    e.runSearchUnit.sig.completion = e.sig.completion ∧ e.runSearchUnit.sig.gateSet = e.sig.gateSet := by
  have hp : ∀ (q : Pair) (n : Nat), (e.startPair q n).sig.completion = e.sig.completion ∧
      (e.startPair q n).sig.gateSet = e.sig.gateSet := by
    intro q n
    unfold Event.startPair
    split <;> exact ⟨rfl, rfl⟩
  unfold Event.runSearchUnit
  split
  · unfold Event.select
    split
    · exact hp _ _
    · unfold Event.judgeWindow Event.raiseIf
      split <;> exact ⟨rfl, rfl⟩
  · exact ⟨rfl, rfl⟩
  · split
    · exact hp _ _
    · exact ⟨rfl, rfl⟩

theorem Event.timed_sig (before : State) (e : Event) :
    (e.timed before).sig.completion = e.sig.completion ∧ (e.timed before).sig.gateSet = e.sig.gateSet := by
  have key : ∀ (e : Event) (f : State → State), (e.on f).sig = e.sig := fun _ _ => rfl
  unfold Event.timed
  rw [key]
  rw [(Event.runSearchUnit_sig _).1, (Event.runSearchUnit_sig _).2, e.closed_calm.2.2.2.2.1, e.closed_calm.2.2.2.2.2]
  exact ⟨rfl, rfl⟩

/-- What the gate's part of a tail does, case by case (R137 to R139). -/
theorem Event.runGate_gate (before : State) (e : Event) :
    (e.runGate before).state.gate =
      if e.state.gate.holding then
        if releases before e.state e.sig then { e.state.gate.letGo with armed := e.state.gate.armed || e.sig.completion }
        else { e.state.gate with armed := e.state.gate.armed || e.sig.completion }
      else if gateTested before e.state e.sig && (e.state.gate.armed || e.sig.completion) && e.state.holdCondition then
        { e.state.gate.takeHold with armed := e.state.gate.armed || e.sig.completion }
      else { e.state.gate with armed := e.state.gate.armed || e.sig.completion } := by
  unfold Event.runGate
  dsimp only
  split
  · split <;> rfl
  · split <;> rfl

/-- The gate is armed after a tail if it was, or if the event completed a search (R139). -/
theorem settle_armed (before : State) (e : Event) :
    (settle before e).gate.armed = (e.state.gate.armed || e.sig.completion) := by
  rw [settle_gate, Event.runGate_gate, Event.timed_gate, (Event.timed_sig before e).1]
  split
  · split <;> rfl
  · split <;> rfl

/-- A FLOWING gate that is disarmed stays so through a tail of an event that completes no search (R139). -/
theorem settle_disarmed (before : State) (e : Event) (ha : e.state.gate.armed = false) (hh : e.state.gate.holding = false)
    (hc : e.sig.completion = false) : (settle before e).gate = e.state.gate := by
  rw [settle_gate, Event.runGate_gate, Event.timed_gate, (Event.timed_sig before e).1, hh, ha, hc]
  simp only [Bool.or_self, Bool.and_false, Bool.false_and, Bool.false_eq_true, if_false]
  rw [← ha]

/-! ### Claim timers -/

/-- What two states must share for a claim timer to be judged alike. -/
theorem claimTimerAfter_congr (before s t : State) (h : Head) (hs : t.slots = s.slots)
    (hh : t.heads = s.heads) (hc : t.conveyor = s.conveyor) : claimTimerAfter before t h = claimTimerAfter before s h := by
  unfold claimTimerAfter State.timedSlot State.isCutting State.heldRecords
  rw [hs, hh, hc]

/-- A head's claim timer after a tail (R157). -/
theorem settle_timer (before : State) (e : Event) (h : Head) :
    ((settle before e).heads[h]).timer = claimTimerAfter before e.state h := by
  have hh : (settle before e).heads = (State.timeClaims before e.closed.runSearchUnit.state).heads := by
    rw [settle_eq, Event.sent_heads, Event.worked_heads, Event.timed, Event.on_state]
  have hc : claimTimerAfter before e.closed.runSearchUnit.state h = claimTimerAfter before e.state h := by
    have ht := e.closed_tail.trans (Event.runSearchUnit_tail _)
    apply claimTimerAfter_congr
    · exact ht.slots
    · rw [(Event.runSearchUnit_fields _).2.2.2.2.1, e.closed_calm.2.2.1]
    · exact ht.conveyor
  rw [hh, ← hc]
  generalize e.closed.runSearchUnit.state = u
  unfold State.timeClaims
  dsimp only
  rw [State.updHead_heads, get_set, State.updHead_heads, get_set, get_set]
  rcases h with ⟨i, hi⟩
  interval_cases i <;> rfl

/-! ### The setting events of a tail (R172) -/

theorem Event.startJob_notices (e : Event) (j : Job) : (e.startJob j).state.notices = e.state.notices := by
  unfold Event.startJob
  cases j.kind with
  | withdraw => rfl
  | apply =>
    dsimp only
    cases (e.state.flaws[j.ctx])[j.flaw]? with
    | none => rfl
    | some f =>
      dsimp only
      cases (e.state.classify j.ctx f).2 <;> rfl

theorem Event.startFrom_notices (js : List Job) (e : Event) :
    (Event.startFrom js e).state.notices = e.state.notices := by
  induction js generalizing e with
  | nil => rfl
  | cons j js ih =>
    have hj := Event.startJob_notices e j
    unfold Event.startFrom
    generalize e.startJob j = e' at hj
    dsimp only
    split
    · exact hj
    · exact (ih e').trans hj

theorem Event.closed_notices (e : Event) : e.closed.state.notices = e.state.notices := by
  have hc : ∀ (e : Event) (k : Ctx), (e.closeTest k).state.notices = e.state.notices := by
    intro e k
    unfold Event.closeTest
    split <;> rfl
  unfold Event.closed
  rw [hc, hc]
  unfold Event.startJobs
  split
  · rfl
  · exact Event.startFrom_notices _ _

theorem Event.startPair_notices (e : Event) (q : Pair) (n : Nat) :
    (e.startPair q n).state.notices = e.state.notices := by
  unfold Event.startPair
  split <;> rfl

theorem Event.runSearchUnit_notices (e : Event) : e.runSearchUnit.state.notices = e.state.notices := by
  unfold Event.runSearchUnit
  split
  · unfold Event.select
    split
    · exact Event.startPair_notices ..
    · unfold Event.judgeWindow
      rw [Event.on_state]
      unfold Event.raiseIf
      split <;> rfl
  · rfl
  · split
    · exact Event.startPair_notices ..
    · rfl

theorem Event.worked_notices (before : State) (e : Event) : (e.worked before).state.notices = e.state.notices := by
  have ht : ∀ s : State, (State.timeClaims before s).notices = s.notices := fun _ => rfl
  rw [Event.worked_state]
  show (e.timed before).state.notices = e.state.notices
  unfold Event.timed
  rw [Event.on_state, ht, Event.runSearchUnit_notices, Event.closed_notices]

/-- Each unit after an event has the setting events of the flags the event raised on its port. -/
theorem Event.sent_notice (e : Event) (p : Port) : e.sent.notices[p] = (e.state.notices[p]).set p e.sig.raised[p] := by
  have key : ∀ (s : State) (r : Vector FlagSet 4),
      ((s.postNotices r).driveLines).notices[p] = (s.notices[p]).set p r[p] := fun s r => get_ofFn _ p
  exact key _ _

theorem settleNotices_notice (e : Event) (p : Port) :
    (settleNotices e).notices[p] = (e.state.notices[p]).set p e.sig.raised[p] := Event.sent_notice e p

theorem settle_notice (before : State) (e : Event) (p : Port) :
    (settle before e).notices[p] = (e.state.notices[p]).set p ((e.worked before).sig.raised)[p] := by
  rw [settle_eq, Event.sent_notice, Event.worked_notices]

/-- An event that raised a flag has a setting event of it. -/
theorem settle_raises {s : State} (before : State) (e : Event) (n : Notice) (hs : e.state.notices = s.notices)
    (h : e.raised n) : s.raises (settle before e) n := by
  refine ⟨((e.worked before).sig.raised)[n.port], Event.worked_raised before e n h, ?_⟩
  rw [settle_notice, hs]

theorem State.raises.flagged {s t : State} {n : Notice} (h : s.raises t n) : t.flagged n := by
  obtain ⟨b, hb, ht⟩ := h
  unfold State.flagged
  rw [ht, NoticeUnit.set_pending]
  exact FlagSet.bit_or_right _ _ _ hb

end Sys2Proof.Machine
end

