-- ==== Sys2Proof/Laws/Exec.lean ====
section
/-!
SUPPORT. What taking a request does, said once for every kind, and what each command's event keeps.
-/

namespace Sys2Proof.Machine

open Sys2Proof

/-! ### Taking a request -/

theorem index?_val {n : Nat} (i : Fin n) : index? n i.val = some i := by
  unfold index?
  rw [dif_pos i.isLt]

theorem index?_of_eq {n k : Nat} (i : Fin n) (h : k = i.val) : index? n k = some i := by
  rw [h]; exact index?_val i

theorem index?_none {n k : Nat} (h : n ≤ k) : index? n k = none := by
  unfold index?
  rw [dif_neg (Nat.not_lt.mpr h)]

/-- A port that owes a reply discards the frame (R182). -/
theorem request_owed (k : Kind) (o : Owner) (p : Port) (pl : List Byte) (s : State) (h : (s.ports[p]).owed ≠ none) :
    request k o p pl s = .next (s.hunt p) := by
  unfold request
  rw [if_pos (Option.isSome_iff_ne_none.mpr h)]

/-- The common checks refuse a request (R184). -/
theorem request_refused (k : Kind) (o : Owner) (p : Port) (pl : List Byte) (s : State) (c : Code)
    (h : (s.ports[p]).owed = none) (hc : commonRefusal k p pl s.condition = some c) :
    request k o p pl s = .next (s.refused k p c) := by
  unfold request
  rw [h, hc]
  rfl

/-- A request that passes the common checks is its owner's (R184). -/
theorem request_owner (k : Kind) (o : Owner) (p : Port) (pl : List Byte) (s : State)
    (h : (s.ports[p]).owed = none) (hc : commonRefusal k p pl s.condition = none) :
    request k o p pl s = .next (settleAnswer k p (o p pl (s.hunt p))) := by
  unfold request
  rw [h, hc]
  rfl

theorem commonRefusal_ready (k : Kind) (p : Port) (pl : List Byte) (ha : k.accepts p = true)
    (hl : k.lengthOk pl = true) : commonRefusal k p pl .ready = none := by
  unfold commonRefusal
  simp [ha, hl]

/-- A READY part hands an accepted kind of right length to its owner. -/
theorem request_taken (k : Kind) (o : Owner) (p : Port) (pl : List Byte) (s : State) (h : s.takes p)
    (ha : k.accepts p = true) (hl : k.lengthOk pl = true) :
    request k o p pl s = .next (settleAnswer k p (o p pl (s.hunt p))) :=
  request_owner k o p pl s h.1 (by rw [h.2]; exact commonRefusal_ready k p pl ha hl)

/-- A READY part answers what the owner accepts. -/
theorem request_accepts (k : Kind) (o : Owner) (p : Port) (pl : List Byte) (s u : State) (a : List Byte) (h : s.takes p)
    (ha : k.accepts p = true) (hl : k.lengthOk pl = true) (ho : o p pl (s.hunt p) = (u, .accept a)) :
    request k o p pl s = .next (u.owe p (.reply { kind := k.byte, refusal := none, payload := a })) := by
  rw [request_taken k o p pl s h ha hl, ho]
  rfl

/-- A READY part answers what the owner refuses without an effect. -/
theorem request_refuses (k : Kind) (o : Owner) (p : Port) (pl : List Byte) (s : State) (c : Code) (h : s.takes p)
    (ha : k.accepts p = true) (hl : k.lengthOk pl = true) (ho : o p pl (s.hunt p) = (s.hunt p, .refuse c)) :
    request k o p pl s = .next (s.refused k p c) := by
  rw [request_taken k o p pl s h ha hl, ho]
  rfl

/-- A relation that a request's parts keep is kept by the request. -/
theorem request_elim (k : Kind) (o : Owner) (p : Port) (pl : List Byte) (s : State) (P : State → Prop)
    (hd : P (s.hunt p)) (hr : ∀ c, P (s.refused k p c)) (ho : commonRefusal k p pl s.condition = none →
      P (settleAnswer k p (o p pl (s.hunt p)))) : ∃ t, request k o p pl s = .next t ∧ P t := by
  by_cases h : (s.ports[p]).owed = none
  · cases hc : commonRefusal k p pl s.condition with
    | none => exact ⟨_, request_owner k o p pl s h hc, ho hc⟩
    | some c => exact ⟨_, request_refused k o p pl s c h hc, hr c⟩
  · exact ⟨_, request_owed k o p pl s h, hd⟩

/-- The receiver of a port that hunts hunts; what is owed is replaced. -/
theorem State.hunt_owed (s : State) (p : Port) : ((s.hunt p).ports[p]).owed = (s.ports[p]).owed := by
  rw [State.hunt_ports, get_set, if_pos rfl]

theorem State.repliedFrom_owe (s u : State) (k : Kind) (p : Port) (pl : List Byte) (h : u.ports = (s.hunt p).ports) :
    s.repliedFrom (u.owe p (.reply { kind := k.byte, refusal := none, payload := pl })) k p pl := by
  refine ⟨?_, ?_, fun q hq => ?_⟩
  · rw [State.owe_ports, get_set, if_pos rfl]
  · rw [State.owe_ports, get_set, if_pos rfl, h, State.hunt_ports, get_set, if_pos rfl]
  · rw [State.owe_ports, get_set, if_neg hq, h, State.hunt_ports, get_set, if_neg hq]

end Sys2Proof.Machine
end

