-- ==== Sys2Proof/Laws/MapTest.lean ====
section
/-!
SUPPORT. What the count of a map test counts.
-/

namespace Sys2Proof.Machine

open Sys2Proof

/-- A cell is mismatched exactly when some read-back of it differs. -/
theorem mismatched_iff (rs : List ReadBack) (c : CellName) :
    mismatched rs c = true ↔ ∃ r ∈ rs, cellOf r = c ∧ differs r = true := by
  simp [mismatched]

/-- A cell that no read-back names is not mismatched. -/
theorem mismatched_of_unlisted {rs : List ReadBack} {c : CellName} (h : ∀ r ∈ rs, cellOf r ≠ c) :
    mismatched rs c = false := by
  simp only [mismatched, List.any_eq_false, Bool.and_eq_true, decide_eq_true_iff, not_and]
  exact fun r hr e => absurd e (h r hr)

/-- The cells counted are the mismatched ones. -/
theorem mem_counted_iff (rs : List ReadBack) (c : CellName) :
    c ∈ ((rs.filter differs).map cellOf).eraseDups ↔ mismatched rs c = true := by
  rw [List.mem_eraseDups, mismatched_iff]
  simp only [List.mem_map, List.mem_filter]
  exact ⟨fun ⟨r, ⟨hr, hd⟩, he⟩ => ⟨r, hr, he, hd⟩, fun ⟨r, hr, he, hd⟩ => ⟨r, ⟨hr, hd⟩, he⟩⟩

/-- The count saturates at 65535 (R14). -/
theorem mismatchCount_le (rs : List ReadBack) : mismatchCount rs ≤ 65535 := Nat.min_le_left _ _

end Sys2Proof.Machine
end

