-- ==== Sys2Proof/Laws/Pieces.lean ====
section
/-!
SUPPORT. What the operations on placements change: the pieces' own state and nothing else, the cells in their occupant
alone, and the slots they are called on.
-/

namespace Sys2Proof.Machine

open Sys2Proof

/-! ### The pieces' own state -/

/-- Two states differ in the pieces' own state alone: cells' occupants, entries, marks, slots, the withdrawn list and
held lists. -/
structure State.Pieces (s t : State) : Prop where
  rest : t = { s with planes := t.planes, entries := t.entries, marks := t.marks, slots := t.slots,
                      withdrawn := t.withdrawn, heads := t.heads }
  head : ∀ h : Head, t.heads[h] = { s.heads[h] with held := (t.heads[h]).held }
  /-- Cells change in their occupant alone, which falls to none. -/
  cells : s.planesWf → t.planesWf ∧ ∀ (k : Ctx) (a : Nat), (t.planes[k]).read a = (s.planes[k]).read a ∨
    (t.planes[k]).read a = { (s.planes[k]).read a with occupant := none }

theorem State.Pieces.refl (s : State) : State.Pieces s s where
  rest := rfl
  head _ := rfl
  cells h := ⟨h, fun _ _ => Or.inl rfl⟩

theorem State.Pieces.trans {s t u : State} (h : State.Pieces s t) (g : State.Pieces t u) : State.Pieces s u where
  rest := by
    have hr := h.rest
    have gr := g.rest
    rw [hr] at gr
    exact gr
  head k := by rw [g.head k, h.head k]
  cells e := by
    obtain ⟨w, hc⟩ := h.cells e
    obtain ⟨w', gc⟩ := g.cells w
    refine ⟨w', fun k a => ?_⟩
    rcases gc k a with x | x <;> rcases hc k a with y | y
    · exact Or.inl (x.trans y)
    · exact Or.inr (x.trans y)
    · right; rw [x, y]
    · right; rw [x, y]

theorem State.Pieces.ofSame {s t : State}
    (h : t = { s with entries := t.entries, marks := t.marks, slots := t.slots, withdrawn := t.withdrawn }) :
    State.Pieces s t where
  rest := by rw [h]
  head k := by rw [h]
  cells e := by
    have hp : t.planes = s.planes := by rw [h]
    refine ⟨fun k => ?_, fun k a => Or.inl ?_⟩
    · rw [hp]; exact e k
    · rw [hp]

theorem State.setSlot_pieces (s : State) (n : SlotNo) (o : Option Placement) : State.Pieces s (s.setSlot n o) :=
  State.Pieces.ofSame rfl

theorem State.updEntry_pieces (s : State) (t : Tag) (f : Entry → Entry) : State.Pieces s (s.updEntry t f) :=
  State.Pieces.ofSame rfl

theorem State.clearMarks_pieces (s : State) (k : Ctx) : State.Pieces s (s.clearMarks k) := State.Pieces.ofSame rfl

theorem State.setWithdrawn_pieces (s : State) (ns : List SlotNo) : State.Pieces s { s with withdrawn := ns } :=
  State.Pieces.ofSame rfl

theorem State.unhold_pieces (s : State) (h : Head) (n : SlotNo) : State.Pieces s (s.unhold h n) where
  rest := rfl
  head k := by
    unfold State.unhold
    rw [State.updHead_heads, get_set]
    split
    · rename_i hk; subst hk; rfl
    · rfl
  cells e := ⟨e, fun _ _ => Or.inl rfl⟩

theorem State.unholdBy_pieces (s : State) (h : Option Head) (n : SlotNo) : State.Pieces s (s.unholdBy h n) := by
  cases h with
  | none => exact State.Pieces.refl s
  | some h => exact State.unhold_pieces s h n

theorem State.vacate_pieces (s : State) (k : Ctx) (n : SlotNo) :
    State.Pieces s (s.setPlane k (Plane.vacate s.planes[k] n)) where
  rest := rfl
  head _ := rfl
  cells e := by
    refine ⟨fun j => ?_, fun j a => ?_⟩
    · rw [State.setPlane_planes, get_set]
      split
      · exact Plane.vacate_wf _ _ (e k)
      · exact e j
    · rw [State.setPlane_planes, get_set]
      split
      · rename_i hj
        subst hj
        rw [Plane.read_vacate _ _ _ (e j)]
        unfold Cell.vacated
        split
        · exact Or.inr rfl
        · exact Or.inl rfl
      · exact Or.inl rfl

/-- What a withdrawal makes of the state, its raise and its head aside. -/
theorem Event.withdraw_pieces (e : Event) (n : SlotNo) (c : Cause) : State.Pieces e.state (e.withdraw n c).state := by
  unfold Event.withdraw
  split
  · exact State.Pieces.refl _
  · have base : ∀ p : Placement, State.Pieces e.state (((({ (e.state.setSlot n
        (some { p with state := .withdrawn, cause := some c })).setPlane p.ctx (Plane.vacate e.state.planes[p.ctx] n) with
        withdrawn := e.state.withdrawn ++ [n] } : State).updEntry p.tag Entry.loseLive).clearMarks p.ctx)) := by
      intro p
      refine State.Pieces.trans ?_ (State.clearMarks_pieces _ _)
      refine State.Pieces.trans ?_ (State.updEntry_pieces _ _ _)
      refine State.Pieces.trans ?_ (State.setWithdrawn_pieces _ _)
      refine State.Pieces.trans ?_ (State.vacate_pieces _ _ _)
      exact State.setSlot_pieces _ _ _
    dsimp only
    split
    · exact State.Pieces.trans (base _) (State.unhold_pieces _ _ _)
    · exact base _

theorem Event.spoil_pieces (e : Event) (n : SlotNo) (c : Cause) : State.Pieces e.state (e.spoil n c).state := by
  unfold Event.spoil
  split
  · exact State.Pieces.refl _
  · dsimp only
    rw [Event.raise_state]
    dsimp only
    split
    · refine State.Pieces.trans ?_ (State.updEntry_pieces _ _ _)
      exact State.setSlot_pieces _ _ _
    · refine State.Pieces.trans ?_ (State.unholdBy_pieces _ _ _)
      refine State.Pieces.trans ?_ (State.updEntry_pieces _ _ _)
      exact State.setSlot_pieces _ _ _

theorem State.returnClaim_pieces (s : State) (n : SlotNo) : State.Pieces s (s.returnClaim n) := by
  unfold State.returnClaim
  split
  · exact State.Pieces.refl _
  · refine State.Pieces.trans ?_ (State.unholdBy_pieces _ _ _)
    exact State.setSlot_pieces _ _ _

theorem Event.loseClaim_pieces (e : Event) (h : Head) (n : SlotNo) : State.Pieces e.state (e.loseClaim h n).state :=
  State.returnClaim_pieces _ _

theorem Event.abortCut_pieces (e : Event) (h : Head) (n : SlotNo) (c : Cause) :
    State.Pieces e.state (e.abortCut h n c).state :=
  Event.spoil_pieces _ _ _

theorem Event.giveUp_pieces (h : Head) (notify : Bool) (e : Event) (x : Held) :
    State.Pieces e.state (Event.giveUp h notify e x).state := by
  unfold Event.giveUp
  split
  · exact State.Pieces.refl _
  · split
    · split
      · exact Event.abortCut_pieces ..
      · exact Event.spoil_pieces ..
    · split
      · exact Event.loseClaim_pieces ..
      · exact State.returnClaim_pieces ..

theorem Event.foldl_pieces {α : Type} (f : Event → α → Event) (h : ∀ e x, State.Pieces e.state (f e x).state)
    (xs : List α) (e : Event) : State.Pieces e.state (xs.foldl f e).state := by
  induction xs generalizing e with
  | nil => exact State.Pieces.refl _
  | cons x xs ih => exact (h e x).trans (ih _)

theorem Event.withdrawAll_pieces (e : Event) (ns : List SlotNo) (c : Cause) :
    State.Pieces e.state (e.withdrawAll ns c).state :=
  Event.foldl_pieces _ (fun e n => Event.withdraw_pieces e n c) _ _

theorem Event.abortSlot_pieces (k : Ctx) (e : Event) (n : SlotNo) :
    State.Pieces e.state (Event.abortSlot k e n).state := by
  unfold Event.abortSlot
  split
  · exact State.Pieces.refl _
  · split
    · exact State.Pieces.refl _
    · split <;> first
        | exact Event.withdraw_pieces ..
        | exact Event.abortCut_pieces ..
        | exact Event.spoil_pieces ..
        | exact State.Pieces.refl _

theorem Event.failCheck_pieces (e : Event) (c : Cause) (n : SlotNo) (p : Placement) :
    State.Pieces e.state (e.failCheck c n p).state := by
  unfold Event.failCheck
  split
  · exact Event.withdraw_pieces ..
  · exact Event.withdraw_pieces ..
  · dsimp only
    split
    · exact State.setSlot_pieces _ _ _
    · exact State.setSlot_pieces _ _ _
  · exact Event.spoil_pieces ..
  · exact State.Pieces.refl _
  · exact State.Pieces.refl _
  · exact State.Pieces.refl _

theorem Event.checkSlot_pieces (q : Plane) (ds : List Downgrade) (c : Cause) (e : Event) (n : SlotNo) :
    State.Pieces e.state (Event.checkSlot q ds c e n).state := by
  unfold Event.checkSlot
  split
  · exact State.Pieces.refl _
  · split
    · exact State.Pieces.refl _
    · exact Event.failCheck_pieces ..

theorem Event.downgrade_pieces (e : Event) (q : Plane) (ds : List Downgrade) (c : Cause) :
    State.Pieces e.state (e.downgrade q ds c).state :=
  Event.foldl_pieces _ (Event.checkSlot_pieces q ds c) _ _

/-! ### Frames -/

theorem State.steady_refl (s : State) : s.steady s := ⟨fun _ => rfl, fun _ => rfl, fun _ => rfl, fun _ => rfl, rfl⟩

theorem State.steady_trans {s t u : State} (h : s.steady t) (g : t.steady u) : s.steady u := by
  obtain ⟨h1, h2, h3, h4, h5⟩ := h
  obtain ⟨g1, g2, g3, g4, g5⟩ := g
  refine ⟨fun k => ?_, fun k => (g2 k).trans (h2 k), fun l => ?_, fun p => ?_, ?_⟩
  · rw [g1 k, h1 k]
  · rw [g3 l, h3 l]
  · rw [g4 p, h4 p]
  · rw [g5, h5]

theorem State.sameSettings_refl (s : State) : s.sameSettings s :=
  ⟨rfl, rfl, rfl, rfl, rfl, rfl, rfl, rfl, rfl, rfl, rfl, rfl⟩

theorem State.sameSettings_trans {s t u : State} (h : s.sameSettings t) (g : t.sameSettings u) : s.sameSettings u := by
  obtain ⟨a1, a2, a3, a4, a5, a6, a7, a8, a9, a10, a11, a12⟩ := h
  obtain ⟨b1, b2, b3, b4, b5, b6, b7, b8, b9, b10, b11, b12⟩ := g
  exact ⟨b1.trans a1, b2.trans a2, b3.trans a3, b4.trans a4, b5.trans a5, b6.trans a6, b7.trans a7, b8.trans a8,
    b9.trans a9, b10.trans a10, b11.trans a11, b12.trans a12⟩

theorem State.sameHeads_trans {s t u : State} (h : s.sameHeads t) (g : t.sameHeads u) : s.sameHeads u := by
  intro k
  rw [g k, h k]

theorem State.samePieces_trans {s t u : State} (h : s.samePieces t) (g : t.samePieces u) : s.samePieces u := by
  obtain ⟨a1, a2, a3, a4, a5, a6⟩ := h
  obtain ⟨b1, b2, b3, b4, b5, b6⟩ := g
  exact ⟨b1.trans a1, b2.trans a2, b3.trans a3, b4.trans a4, b5.trans a5, b6.trans a6⟩

/-- Every frame that two states may share. -/
def State.sameAll (s t : State) : Prop :=
  s.sameSettings t ∧ s.steady t ∧ s.samePieces t ∧ s.sameHeads t ∧ t.marks = s.marks ∧ t.flaws = s.flaws ∧
  t.jobs = s.jobs ∧ t.inFlight = s.inFlight

/-- What a port owes is no other frame's. -/
theorem State.owe_sameAll (s : State) (p : Port) (o : Owed) : s.sameAll (s.owe p o) :=
  ⟨State.sameSettings_refl s, State.steady_refl s, ⟨rfl, rfl, rfl, rfl, rfl, rfl⟩, fun _ => rfl, rfl, rfl, rfl, rfl⟩

/-- A receiver that returns to hunting is no other frame's. -/
theorem State.hunt_sameAll (s : State) (p : Port) : s.sameAll (s.hunt p) :=
  ⟨State.sameSettings_refl s, State.steady_refl s, ⟨rfl, rfl, rfl, rfl, rfl, rfl⟩, fun _ => rfl, rfl, rfl, rfl, rfl⟩

theorem State.Tail.steady {s t : State} (h : State.Tail s t) : s.steady t := ⟨h.ctx, h.flaws, h.line, h.notice, h.gate⟩

theorem State.Tail.sameHeads {s t : State} (h : State.Tail s t) : s.sameHeads t := h.head

theorem State.Tail.sameSettings {s t : State} (h : State.Tail s t) : s.sameSettings t :=
  ⟨h.condition, h.mismatches, h.rules, h.ranges, h.classDefaults, h.links, h.weights, h.conveyor, h.encA, h.encB,
    h.encErrors, h.freeCells⟩

theorem State.Tail.samePieces {s t : State} (h : State.Tail s t) : s.samePieces t :=
  ⟨h.planes, h.slots, h.withdrawn, h.entries, h.postCounter, h.patterns⟩

theorem State.Pieces.steady {s t : State} (h : State.Pieces s t) : s.steady t := by
  rw [h.rest]
  exact ⟨fun _ => rfl, fun _ => rfl, fun _ => rfl, fun _ => rfl, rfl⟩

theorem State.Pieces.sameSettings {s t : State} (h : State.Pieces s t) : s.sameSettings t := by
  rw [h.rest]
  exact State.sameSettings_refl s

theorem State.Keeps.sameSettings {s t : State} (h : State.Keeps s t) : s.sameSettings t := by
  rw [h.rest]
  exact ⟨rfl, rfl, rfl, rfl, rfl, rfl, rfl, rfl, rfl, rfl, rfl, rfl⟩

/-- What a scan's going on before a map-changing event changes: the Search Unit and the model's own counter. -/
theorem State.advanceScan_rest (s : State) :
    s.advanceScan = { s with searchUnit := s.advanceScan.searchUnit, freeIndex := s.advanceScan.freeIndex } := by
  unfold State.advanceScan
  split <;> rfl

@[simp] theorem State.advanceScan_pending (s : State) : s.advanceScan.pending = s.pending := by rw [State.advanceScan_rest]
@[simp] theorem State.advanceScan_condition (s : State) : s.advanceScan.condition = s.condition := by rw [State.advanceScan_rest]
@[simp] theorem State.advanceScan_mismatches (s : State) : s.advanceScan.mismatches = s.mismatches := by rw [State.advanceScan_rest]
@[simp] theorem State.advanceScan_planes (s : State) : s.advanceScan.planes = s.planes := by rw [State.advanceScan_rest]
@[simp] theorem State.advanceScan_flaws (s : State) : s.advanceScan.flaws = s.flaws := by rw [State.advanceScan_rest]
@[simp] theorem State.advanceScan_jobs (s : State) : s.advanceScan.jobs = s.jobs := by rw [State.advanceScan_rest]
@[simp] theorem State.advanceScan_inFlight (s : State) : s.advanceScan.inFlight = s.inFlight := by rw [State.advanceScan_rest]
@[simp] theorem State.advanceScan_rules (s : State) : s.advanceScan.rules = s.rules := by rw [State.advanceScan_rest]
@[simp] theorem State.advanceScan_ranges (s : State) : s.advanceScan.ranges = s.ranges := by rw [State.advanceScan_rest]
@[simp] theorem State.advanceScan_classDefaults (s : State) : s.advanceScan.classDefaults = s.classDefaults := by rw [State.advanceScan_rest]
@[simp] theorem State.advanceScan_links (s : State) : s.advanceScan.links = s.links := by rw [State.advanceScan_rest]
@[simp] theorem State.advanceScan_patterns (s : State) : s.advanceScan.patterns = s.patterns := by rw [State.advanceScan_rest]
@[simp] theorem State.advanceScan_freeCells (s : State) : s.advanceScan.freeCells = s.freeCells := by rw [State.advanceScan_rest]
@[simp] theorem State.advanceScan_entries (s : State) : s.advanceScan.entries = s.entries := by rw [State.advanceScan_rest]
@[simp] theorem State.advanceScan_postCounter (s : State) : s.advanceScan.postCounter = s.postCounter := by rw [State.advanceScan_rest]
@[simp] theorem State.advanceScan_windowShort (s : State) : s.advanceScan.windowShort = s.windowShort := by rw [State.advanceScan_rest]
@[simp] theorem State.advanceScan_marks (s : State) : s.advanceScan.marks = s.marks := by rw [State.advanceScan_rest]
@[simp] theorem State.advanceScan_weights (s : State) : s.advanceScan.weights = s.weights := by rw [State.advanceScan_rest]
@[simp] theorem State.advanceScan_slots (s : State) : s.advanceScan.slots = s.slots := by rw [State.advanceScan_rest]
@[simp] theorem State.advanceScan_withdrawn (s : State) : s.advanceScan.withdrawn = s.withdrawn := by rw [State.advanceScan_rest]
@[simp] theorem State.advanceScan_ctxs (s : State) : s.advanceScan.ctxs = s.ctxs := by rw [State.advanceScan_rest]
@[simp] theorem State.advanceScan_conveyor (s : State) : s.advanceScan.conveyor = s.conveyor := by rw [State.advanceScan_rest]
@[simp] theorem State.advanceScan_gate (s : State) : s.advanceScan.gate = s.gate := by rw [State.advanceScan_rest]
@[simp] theorem State.advanceScan_heads (s : State) : s.advanceScan.heads = s.heads := by rw [State.advanceScan_rest]
@[simp] theorem State.advanceScan_grantCount (s : State) : s.advanceScan.grantCount = s.grantCount := by rw [State.advanceScan_rest]
@[simp] theorem State.advanceScan_startCount (s : State) : s.advanceScan.startCount = s.startCount := by rw [State.advanceScan_rest]
@[simp] theorem State.advanceScan_lines (s : State) : s.advanceScan.lines = s.lines := by rw [State.advanceScan_rest]
@[simp] theorem State.advanceScan_encA (s : State) : s.advanceScan.encA = s.encA := by rw [State.advanceScan_rest]
@[simp] theorem State.advanceScan_encB (s : State) : s.advanceScan.encB = s.encB := by rw [State.advanceScan_rest]
@[simp] theorem State.advanceScan_encErrors (s : State) : s.advanceScan.encErrors = s.encErrors := by rw [State.advanceScan_rest]
@[simp] theorem State.advanceScan_notices (s : State) : s.advanceScan.notices = s.notices := by rw [State.advanceScan_rest]
@[simp] theorem State.advanceScan_ports (s : State) : s.advanceScan.ports = s.ports := by rw [State.advanceScan_rest]

theorem State.advanceScan_sameSettings (s : State) : s.sameSettings s.advanceScan := by
  rw [State.advanceScan_rest]
  exact State.sameSettings_refl s

theorem State.advanceScan_steady (s : State) : s.steady s.advanceScan := by
  rw [State.advanceScan_rest]
  exact State.steady_refl s

/-! ### Slots -/

/-- A withdrawal touches no slot but its own. -/
theorem Event.withdraw_slots (e : Event) (n : SlotNo) (c : Cause) :
    (e.withdraw n c).state.slots =
      match e.state.slots[n] with
      | none => e.state.slots
      | some p => e.state.slots.set n (some { p with state := .withdrawn, cause := some c }) := by
  unfold Event.withdraw
  split
  · rename_i hn; rw [hn]
  · rename_i p hp
    rw [hp]
    dsimp only
    split <;> rfl

theorem State.unholdBy_slots (s : State) (h : Option Head) (n : SlotNo) : (s.unholdBy h n).slots = s.slots := by
  cases h <;> rfl

/-- A spoiling touches no slot but its own. -/
theorem Event.spoil_slots (e : Event) (n : SlotNo) (c : Cause) :
    (e.spoil n c).state.slots =
      match e.state.slots[n] with
      | none => e.state.slots
      | some p => e.state.slots.set n (some { p with state := .spoiled, cause := some c }) := by
  unfold Event.spoil
  split
  · rename_i hn; rw [hn]
  · rename_i p hp
    rw [hp]
    dsimp only
    rw [Event.raise_state]
    dsimp only
    split
    · rfl
    · rw [State.unholdBy_slots]; rfl

/-- A claim that goes back touches no slot but its own. -/
theorem State.returnClaim_slots (s : State) (n : SlotNo) :
    (s.returnClaim n).slots =
      match s.slots[n] with
      | none => s.slots
      | some p => s.slots.set n (some { p with state := .placed, head := none }) := by
  unfold State.returnClaim
  split
  · rename_i hn; rw [hn]
  · rename_i p hp
    rw [hp]
    dsimp only
    rw [State.unholdBy_slots]; rfl

theorem Event.withdraw_slot_other (e : Event) (n m : SlotNo) (c : Cause) (h : m ≠ n) :
    ((e.withdraw n c).state.slots)[m] = e.state.slots[m] := by
  rw [Event.withdraw_slots]
  split
  · rfl
  · rw [get_set, if_neg h]

theorem Event.spoil_slot_other (e : Event) (n m : SlotNo) (c : Cause) (h : m ≠ n) :
    ((e.spoil n c).state.slots)[m] = e.state.slots[m] := by
  rw [Event.spoil_slots]
  split
  · rfl
  · rw [get_set, if_neg h]

theorem State.returnClaim_slot_other (s : State) (n m : SlotNo) (h : m ≠ n) :
    ((s.returnClaim n).slots)[m] = s.slots[m] := by
  rw [State.returnClaim_slots]
  split
  · rfl
  · rw [get_set, if_neg h]

theorem Event.checkSlot_slot_other (q : Plane) (ds : List Downgrade) (c : Cause) (e : Event) (n m : SlotNo) (h : m ≠ n) :
    ((Event.checkSlot q ds c e n).state.slots)[m] = e.state.slots[m] := by
  unfold Event.checkSlot
  split
  · rfl
  · split
    · rfl
    · unfold Event.failCheck
      split
      · exact Event.withdraw_slot_other _ _ _ _ h
      · exact Event.withdraw_slot_other _ _ _ _ h
      · dsimp only
        split <;> exact (get_set _ _ _ _).trans (if_neg h)
      · exact Event.spoil_slot_other _ _ _ _ h
      · rfl
      · rfl
      · rfl

/-- A fold over slots leaves alone a slot that each of its steps leaves alone. -/
theorem Event.foldl_slot_other {α : Type} (f : Event → α → Event) (m : SlotNo) (xs : List α)
    (h : ∀ e, ∀ x ∈ xs, ((f e x).state.slots)[m] = e.state.slots[m]) (e : Event) :
    ((xs.foldl f e).state.slots)[m] = e.state.slots[m] := by
  induction xs generalizing e with
  | nil => rfl
  | cons x xs ih =>
    exact (ih (fun e y hy => h e y (List.mem_cons_of_mem _ hy)) _).trans (h e x List.mem_cons_self)

/-- The downgrade checks touch no slot that no signal names (R106). -/
theorem Event.downgrade_slot_other (e : Event) (q : Plane) (ds : List Downgrade) (c : Cause) (m : SlotNo)
    (h : ∀ d ∈ ds, d.slot ≠ m) : ((e.downgrade q ds c).state.slots)[m] = e.state.slots[m] := by
  unfold Event.downgrade
  apply Event.foldl_slot_other
  intro e n hn
  apply Event.checkSlot_slot_other
  rintro rfl
  simp only [List.mem_filter, List.any_eq_true, decide_eq_true_eq] at hn
  obtain ⟨_, d, hd, he⟩ := hn
  exact h d hd he

/-! ### Flags of the placement operations -/

theorem Event.withdraw_raised (e : Event) (n : SlotNo) (c : Cause) (m : Notice) (h : e.raised m) :
    (e.withdraw n c).raised m := by
  unfold Event.withdraw
  split
  · exact h
  · dsimp only
    split
    · exact Event.raised_raise _ _ _ (Event.raised_raise _ _ _ h)
    · exact Event.raised_raise _ _ _ h

theorem Event.spoil_raised (e : Event) (n : SlotNo) (c : Cause) (m : Notice) (h : e.raised m) :
    (e.spoil n c).raised m := by
  unfold Event.spoil
  split
  · exact h
  · exact Event.raised_raise _ _ _ h

theorem Event.checkSlot_raised (q : Plane) (ds : List Downgrade) (c : Cause) (e : Event) (n : SlotNo) (m : Notice)
    (h : e.raised m) : (Event.checkSlot q ds c e n).raised m := by
  unfold Event.checkSlot
  split
  · exact h
  · split
    · exact h
    · unfold Event.failCheck
      split
      · exact Event.withdraw_raised _ _ _ _ h
      · exact Event.withdraw_raised _ _ _ _ h
      · dsimp only
        split
        · exact Event.raised_raise _ _ _ h
        · exact h
      · exact Event.spoil_raised _ _ _ _ h
      · exact h
      · exact h
      · exact h

theorem Event.foldl_raised {α : Type} (f : Event → α → Event) (m : Notice)
    (h : ∀ e x, Event.raised e m → (f e x).raised m) (xs : List α) (e : Event) (he : e.raised m) :
    (xs.foldl f e).raised m := by
  induction xs generalizing e with
  | nil => exact he
  | cons x xs ih => exact ih _ (h e x he)

theorem Event.downgrade_raised (e : Event) (q : Plane) (ds : List Downgrade) (c : Cause) (m : Notice) (h : e.raised m) :
    (e.downgrade q ds c).raised m :=
  Event.foldl_raised _ m (fun e n he => Event.checkSlot_raised q ds c e n m he) _ _ h

end Sys2Proof.Machine
end

