-- ==== Sys2Proof/Laws/Service.lean ====
section
/-!
SUPPORT. What taking a head off line does to the slots it holds: their records, the held lists and the flags.
-/

namespace Sys2Proof.Machine

open Sys2Proof

/-- What a held record becomes when its head leaves work. -/
def Placement.givenUp (p : Placement) : Placement :=
  if p.state = .cutting then { p with state := .spoiled, cause := some .headOffline } else { p with state := .placed, head := none }

/-- Taking a slot out of the held list of the head its record names moves that list alone (R143). -/
theorem State.unholdBy_heads (s : State) (o : Option Head) (n : SlotNo) (g : Head) :
    ((s.unholdBy o n).heads[g]).held = if o = some g then ((s.heads[g]).held).filter (fun y => y.slot ≠ n) else (s.heads[g]).held := by
  cases o with
  | none => rw [if_neg (by simp)]; rfl
  | some h =>
    show (((s.unhold h n).heads)[g]).held = _
    unfold State.unhold
    rw [State.updHead_heads, get_set]
    by_cases hg : g = h
    · subst hg; rw [if_pos rfl, if_pos rfl]
    · rw [if_neg hg, if_neg (by intro hh; injection hh with hh; exact hg hh.symm)]

/-- A CUTTING record that is spoiled leaves its head's held list (R102, R143). -/
theorem Event.spoil_held (e : Event) (n : SlotNo) (c : Cause) (p : Placement) (hp : e.state.slots[n] = some p) (hc : p.state ≠ .cut) (g : Head) :
    ((e.spoil n c).state.heads[g]).held = if p.head = some g then ((e.state.heads[g]).held).filter (fun y => y.slot ≠ n) else (e.state.heads[g]).held := by
  unfold Event.spoil
  split
  · rename_i hn; rw [hn] at hp; cases hp
  · rename_i q hq
    rw [hq] at hp; injection hp with hp; subst hp
    dsimp only
    rw [Event.raise_state]
    dsimp only
    rw [if_neg hc, State.unholdBy_heads]; rfl

/-- A claim given back leaves its head's held list (R100, R143). -/
theorem State.returnClaim_held (s : State) (n : SlotNo) (p : Placement) (hp : s.slots[n] = some p) (g : Head) :
    ((s.returnClaim n).heads[g]).held = if p.head = some g then ((s.heads[g]).held).filter (fun y => y.slot ≠ n) else (s.heads[g]).held := by
  unfold State.returnClaim
  split
  · rename_i hn; rw [hn] at hp; cases hp
  · rename_i q hq
    rw [hq] at hp; injection hp with hp; subst hp
    rw [State.unholdBy_heads]; rfl

/-- One held slot of a head that leaves work: its record and no other changes (R145). -/
theorem Event.giveUp_slots (h : Head) (b : Bool) (e : Event) (x : Held) (m : SlotNo) :
    (Event.giveUp h b e x).state.slots[m] = if m = x.slot then (e.state.slots[m]).map Placement.givenUp else e.state.slots[m] := by
  unfold Event.giveUp
  split
  · rename_i hn
    split
    · rename_i hm; subst hm; rw [hn]; rfl
    · rfl
  · rename_i p hp
    have hs : ∀ c, ((e.spoil x.slot c).state.slots)[m] = if m = x.slot then some { p with state := .spoiled, cause := some c } else e.state.slots[m] := by
      intro c; rw [Event.spoil_slots, hp]; exact get_set _ _ _ _
    have hr : ((e.state.returnClaim x.slot).slots)[m] = if m = x.slot then some { p with state := .placed, head := none } else e.state.slots[m] := by
      rw [State.returnClaim_slots, hp]; exact get_set _ _ _ _
    split
    · rename_i hc
      have : (Placement.givenUp p) = { p with state := .spoiled, cause := some .headOffline } := by unfold Placement.givenUp; rw [if_pos hc]
      split
      · show ((e.spoil x.slot .headOffline).state.slots)[m] = _
        rw [hs]; split
        · rename_i hm; subst hm; rw [hp, Option.map_some, this]
        · rfl
      · rw [hs]; split
        · rename_i hm; subst hm; rw [hp, Option.map_some, this]
        · rfl
    · rename_i hc
      have : (Placement.givenUp p) = { p with state := .placed, head := none } := by unfold Placement.givenUp; rw [if_neg hc]
      split
      · show ((e.state.returnClaim x.slot).slots)[m] = _
        rw [hr]; split
        · rename_i hm; subst hm; rw [hp, Option.map_some, this]
        · rfl
      · show ((e.state.returnClaim x.slot).slots)[m] = _
        rw [hr]; split
        · rename_i hm; subst hm; rw [hp, Option.map_some, this]
        · rfl

/-- One held slot of a head that leaves work leaves that head's held list (R145). -/
theorem Event.giveUp_held (h : Head) (b : Bool) (e : Event) (x : Held) (p : Placement) (hp : e.state.slots[x.slot] = some p)
   (hh : p.head = some h) (hs : p.state ≠ .cut) (g : Head) :
    ((Event.giveUp h b e x).state.heads[g]).held = if g = h then ((e.state.heads[g]).held).filter (fun y => y.slot ≠ x.slot) else (e.state.heads[g]).held := by
  have e1 := fun c => Event.spoil_held e x.slot c p hp hs g
  have e2 := State.returnClaim_held e.state x.slot p hp g
  have hgh : (p.head = some g) = (g = h) := by rw [hh]; simp; exact eq_comm
  simp only [hgh] at e1 e2
  unfold Event.giveUp
  rw [hp]; dsimp only
  split
  · split
    · exact e1 _
    · exact e1 _
  · split
    · exact e2
    · exact e2

/-- A flag that was raised stays raised while a head leaves work. -/
theorem Event.giveUp_raised (h : Head) (b : Bool) (e : Event) (x : Held) (n : Notice) (hn : e.raised n) : (Event.giveUp h b e x).raised n := by
  unfold Event.giveUp
  split
  · exact hn
  · split
    · split
      · exact Event.raised_raise _ _ _ (Event.spoil_raised _ _ _ _ hn)
      · exact Event.spoil_raised _ _ _ _ hn
    · split
      · exact Event.raised_raise _ _ _ hn
      · exact hn

/-- A CUTTING slot of a head that leaves work raises PIECE SPOILED (R145). -/
theorem Event.giveUp_spoils (h : Head) (b : Bool) (e : Event) (x : Held) (p : Placement) (hp : e.state.slots[x.slot] = some p) (hc : p.state = .cutting) :
   (Event.giveUp h b e x).raised .pieceSpoiled := by
  have : ∀ c, (e.spoil x.slot c).raised .pieceSpoiled := by
    intro c; unfold Event.spoil; rw [hp]; exact Event.raised_raise_self _ _
  unfold Event.giveUp; rw [hp]; dsimp only; rw [if_pos hc]
  split
  · exact Event.raised_raise _ _ _ (this _)
  · exact this _

/-- Every held slot of a head that leaves work, the slots distinct and each held by it: their records change and leave
its held list, no other slot or held list changes, and a CUTTING one raises PIECE SPOILED (R145, R146). -/
theorem Event.giveUps (h : Head) (b : Bool) (xs : List Held) (e : Event) (hd : (xs.map fun x => x.slot).Nodup)
    (hx : ∀ x ∈ xs, ∃ p, e.state.slots[x.slot] = some p ∧ p.head = some h ∧ p.state ≠ .cut) :
    (∀ m, (xs.foldl (Event.giveUp h b) e).state.slots[m] = if m ∈ xs.map (fun x => x.slot) then (e.state.slots[m]).map Placement.givenUp else e.state.slots[m]) ∧
    (∀ g, ((xs.foldl (Event.giveUp h b) e).state.heads[g]).held = if g = h then ((e.state.heads[g]).held).filter (fun y => y.slot ∉ xs.map fun x => x.slot) else (e.state.heads[g]).held) ∧
    (∀ n, e.raised n → (xs.foldl (Event.giveUp h b) e).raised n) ∧
    (∀ x ∈ xs, ∀ p, e.state.slots[x.slot] = some p → p.state = .cutting → (xs.foldl (Event.giveUp h b) e).raised .pieceSpoiled) := by
  induction xs generalizing e with
  | nil => refine ⟨fun m => by simp, fun g => by simp, fun n hn => hn, fun x hx => by cases hx⟩
  | cons x xs ih =>
    rw [List.map_cons, List.nodup_cons] at hd
    have hne : ∀ y ∈ xs, y.slot ≠ x.slot := by
      intro y hy he; exact hd.1 (List.mem_map.mpr ⟨y, hy, he⟩)
    have hsl := Event.giveUp_slots h b e x
    obtain ⟨px, hp, hph, hps⟩ := hx x List.mem_cons_self
    obtain ⟨i1, i2, i3, i4⟩ := ih (Event.giveUp h b e x) hd.2 (by
      intro y hy
      rw [hsl, if_neg (hne y hy)]
      exact hx y (List.mem_cons_of_mem _ hy))
    rw [List.foldl_cons]
    refine ⟨fun m => ?_, fun g => ?_, fun n hn => i3 n (Event.giveUp_raised h b e x n hn), ?_⟩
    · rw [i1, hsl, List.map_cons]
      by_cases hm : m = x.slot
      · subst hm; simp [hd.1]
      · simp [hm]
    · rw [i2, Event.giveUp_held h b e x px hp hph hps]
      by_cases hg : g = h
      · simp only [hg, if_true, List.filter_filter]
        congr 1
        funext y
        rw [Bool.eq_iff_iff]
        simp only [Bool.and_eq_true, decide_eq_true_eq, List.map_cons, List.mem_cons, not_or]
        exact and_comm
      · simp [hg]
    · intro y hy p hyp hc
      rcases List.mem_cons.mp hy with rfl | hy
      · exact i3 _ (Event.giveUp_spoils h b e y p hyp hc)
      · exact i4 y hy p (by rw [hsl, if_neg (hne y hy)]; exact hyp) hc

/-- A spoiling changes slots, entries and held lists alone (R102). -/
theorem Event.spoil_rest (e : Event) (n : SlotNo) (c : Cause) : (e.spoil n c).state = { e.state with slots := (e.spoil n c).state.slots, entries := (e.spoil n c).state.entries, heads := (e.spoil n c).state.heads } := by
  unfold Event.spoil
  split
  · rfl
  · dsimp only; rw [Event.raise_state]; dsimp only
    split
    · rfl
    · rename_i p _ _; cases p.head <;> rfl

/-- A claim given back changes slots and held lists alone (R100). -/
theorem State.returnClaim_rest (s : State) (n : SlotNo) : (s.returnClaim n) = { s with slots := (s.returnClaim n).slots, entries := (s.returnClaim n).entries, heads := (s.returnClaim n).heads } := by
  unfold State.returnClaim
  split
  · rfl
  · rename_i p _; cases p.head <;> rfl

/-- What a head gives up changes slots, entries and held lists alone (R145). -/
theorem Event.giveUp_rest (h : Head) (b : Bool) (e : Event) (x : Held) : (Event.giveUp h b e x).state = { e.state with slots := (Event.giveUp h b e x).state.slots, entries := (Event.giveUp h b e x).state.entries, heads := (Event.giveUp h b e x).state.heads } := by
  unfold Event.giveUp
  split
  · rfl
  · split
    · split
      · exact Event.spoil_rest e x.slot _
      · exact Event.spoil_rest e x.slot _
    · split
      · have := State.returnClaim_rest e.state x.slot
        show e.state.returnClaim x.slot = _
        exact this
      · exact State.returnClaim_rest e.state x.slot

/-- All that a head gives up changes slots, entries and held lists alone (R145). -/
theorem Event.giveUps_rest (h : Head) (b : Bool) (xs : List Held) (e : Event) : (xs.foldl (Event.giveUp h b) e).state = { e.state with slots := (xs.foldl (Event.giveUp h b) e).state.slots, entries := (xs.foldl (Event.giveUp h b) e).state.entries, heads := (xs.foldl (Event.giveUp h b) e).state.heads } := by
  induction xs generalizing e with
  | nil => rfl
  | cons x xs ih =>
    rw [List.foldl_cons]
    have h1 := ih (Event.giveUp h b e x)
    rw [Event.giveUp_rest h b e x] at h1
    exact h1

end Sys2Proof.Machine
end

