-- ==== Sys2Proof/Laws/Words.lean ====
section
/-!
SUPPORT. What the words that statements share say in the terms of the machine's own definitions: passing the cell test,
re-verification, the end of a scan, the timed slot, a key test and an output line.
-/

namespace Sys2Proof.Machine

open Sys2Proof

theorem Cell.effective_val (c : Cell) : c.effective.val = min c.base.val c.cap.val := by
  unfold Cell.effective lesser
  split <;> rename_i h
  · exact (Nat.min_eq_left h).symm
  · exact (Nat.min_eq_right (Nat.le_of_not_le h)).symm

theorem Cell.meets_iff (c : Cell) (r : Requirement) :
    c.meets r = true ↔ r.minGrade ≤ min c.base.val c.cap.val ∧ c.classes &&& ~~~r.tolerated = 0 := by
  simp only [Cell.meets, Set8.within, Cell.effective_val, Bool.and_eq_true, decide_eq_true_eq, beq_iff_eq]

theorem Pattern.mem_coveredCells {p : Pattern} {o : Orient} {i j : Nat} {r : Region} :
    (i, j, r) ∈ p.coveredCells o ↔
      i < (p.orientedSize o).1 ∧ j < (p.orientedSize o).2 ∧ r = p.oriented o i j ∧ r ≠ .outside := by
  simp only [Pattern.coveredCells, List.mem_filterMap, Prod.exists]
  constructor
  · rintro ⟨a, b, hm, h⟩
    split at h
    · cases h
    · rename_i hne
      injection h with h
      injection h with h1 h
      injection h with h2 h3
      subst h1
      subst h2
      subst h3
      exact ⟨(mem_mapCells.mp hm).1, (mem_mapCells.mp hm).2, rfl, hne⟩
  · rintro ⟨hi, hj, rfl, hne⟩
    exact ⟨i, j, mem_mapCells.mpr ⟨hi, hj⟩, if_neg hne⟩

/-- A drawing passes as the cell test says. -/
theorem State.passes_iff_cellTest (s : State) (k : Ctx) (p : Pattern) (c : Candidate) :
    s.passes k p c ↔ cellTest (s.hideMap k) p c = true := by
  have cell : ∀ i j, Plane.read (s.hideMap k).plane (cellAddr (c.x + i) (c.y + j)) = s.cell k (c.x + i) (c.y + j) :=
    fun _ _ => rfl
  simp only [cellTest, List.all_eq_true, Bool.and_eq_true, Option.isNone_iff_eq_none, Cell.meets_iff, cell, Prod.forall,
    Pattern.mem_coveredCells, State.passes, and_assoc]
  constructor
  · rintro h i j r ⟨hi, hj, rfl, hne⟩
    refine h i j hi hj _ ?_
    cases e : p.oriented c.orient i j with
    | outside => exact absurd e hne
    | face => exact .inl ⟨rfl, rfl⟩
    | hidden => exact .inr (.inl ⟨rfl, rfl⟩)
    | edge => exact .inr (.inr ⟨rfl, rfl⟩)
  · rintro h i j hi hj r (⟨e, rfl⟩ | ⟨e, rfl⟩ | ⟨e, rfl⟩)
    · exact h i j .face ⟨hi, hj, e.symm, by decide⟩
    · exact h i j .hidden ⟨hi, hj, e.symm, by decide⟩
    · exact h i j .edge ⟨hi, hj, e.symm, by decide⟩

theorem Entry.eligible_iff (e : Entry) : e.eligible = true ↔ e.state = .opened ∧ e.cut + e.live < e.requested := by
  simp only [Entry.eligible, Entry.need, Bool.and_eq_true, decide_eq_true_eq, Nat.sub_sub, Nat.sub_pos_iff_lt]

/-- Re-verification is the machine's. -/
theorem State.reverified_iff (s : State) (q : Search) (c : Candidate) : s.reverified q c ↔ s.reverifies q c = true := by
  simp only [State.reverified, State.reverifies, State.wants, Bool.and_eq_true, decide_eq_true_eq,
    State.passes_iff_cellTest, Option.any_eq_true, Entry.eligible_iff, and_assoc]

/-- What a scan that holds a best candidate ends with. -/
theorem tryAll_some (m : HideMap) (sm : Samples) (cs : List Candidate) (o b : Best) :
    tryAll m sm (some o) cs = some b ↔
      (o = b ∧ ∀ c ∈ cs, cellTest m sm.drawing c = true → b.score ≤ scoreOf m sm c) ∨
      (b.score < o.score ∧ cellTest m sm.drawing b.cand = true ∧ b.score = scoreOf m sm b.cand ∧
        ∃ before after, cs = before ++ b.cand :: after ∧
          (∀ c ∈ before, cellTest m sm.drawing c = true → b.score < scoreOf m sm c) ∧
          ∀ c ∈ after, cellTest m sm.drawing c = true → b.score ≤ scoreOf m sm c) := by
  induction cs generalizing o with
  | nil => simp [tryAll]
  | cons d cs ih =>
    have step : tryAll m sm (some o) (d :: cs) = tryAll m sm (tryCandidate m sm (some o) d) cs := rfl
    rw [step]
    by_cases hp : cellTest m sm.drawing d = true
    · by_cases hs : scoreOf m sm d < o.score
      · have e : tryCandidate m sm (some o) d = some { cand := d, score := scoreOf m sm d } := by
          simp [tryCandidate, hp, hs]
        rw [e, ih]
        constructor
        · rintro (⟨rfl, h⟩ | ⟨h1, h2, h3, before, after, h4, h5, h6⟩)
          · exact .inr ⟨hs, hp, rfl, [], cs, rfl, (by simp), h⟩
          · refine .inr ⟨lt_trans h1 hs, h2, h3, d :: before, after, by rw [h4]; rfl, ?_, h6⟩
            intro c hc hpc
            rcases List.mem_cons.mp hc with rfl | hc
            · exact h1
            · exact h5 c hc hpc
        · rintro (⟨rfl, h⟩ | ⟨h1, h2, h3, before, after, h4, h5, h6⟩)
          · exact absurd (h d (by simp) hp) (not_le.mpr hs)
          · cases before with
            | nil =>
              injection h4 with h7 h8
              subst h8
              refine .inl ⟨?_, h6⟩
              rw [h7, ← h3]
            | cons a before =>
              injection h4 with h7 h8
              subst h7
              exact .inr ⟨h5 d (by simp) hp, h2, h3, before, after, h8, fun c hc => h5 c (by simp [hc]), h6⟩
      · have e : tryCandidate m sm (some o) d = some o := by simp [tryCandidate, hp, hs]
        rw [e, ih]
        constructor
        · rintro (⟨rfl, h⟩ | ⟨h1, h2, h3, before, after, h4, h5, h6⟩)
          · refine .inl ⟨rfl, fun c hc hpc => ?_⟩
            rcases List.mem_cons.mp hc with rfl | hc
            · exact not_lt.mp hs
            · exact h c hc hpc
          · refine .inr ⟨h1, h2, h3, d :: before, after, by rw [h4]; rfl, ?_, h6⟩
            intro c hc hpc
            rcases List.mem_cons.mp hc with rfl | hc
            · exact lt_of_lt_of_le h1 (not_lt.mp hs)
            · exact h5 c hc hpc
        · rintro (⟨rfl, h⟩ | ⟨h1, h2, h3, before, after, h4, h5, h6⟩)
          · exact .inl ⟨rfl, fun c hc => h c (by simp [hc])⟩
          · cases before with
            | nil =>
              injection h4 with h7 h8
              rw [h3, ← h7] at h1
              exact absurd h1 hs
            | cons a before =>
              injection h4 with h7 h8
              exact .inr ⟨h1, h2, h3, before, after, h8, fun c hc => h5 c (by simp [hc]), h6⟩
    · have e : tryCandidate m sm (some o) d = some o := by simp [tryCandidate, hp]
      rw [e, ih]
      constructor
      · rintro (⟨rfl, h⟩ | ⟨h1, h2, h3, before, after, h4, h5, h6⟩)
        · refine .inl ⟨rfl, fun c hc hpc => ?_⟩
          rcases List.mem_cons.mp hc with rfl | hc
          · exact absurd hpc hp
          · exact h c hc hpc
        · refine .inr ⟨h1, h2, h3, d :: before, after, by rw [h4]; rfl, ?_, h6⟩
          intro c hc hpc
          rcases List.mem_cons.mp hc with rfl | hc
          · exact absurd hpc hp
          · exact h5 c hc hpc
      · rintro (⟨rfl, h⟩ | ⟨h1, h2, h3, before, after, h4, h5, h6⟩)
        · exact .inl ⟨rfl, fun c hc => h c (by simp [hc])⟩
        · cases before with
          | nil =>
            injection h4 with h7 h8
            rw [← h7] at h2
            exact absurd h2 hp
          | cons a before =>
            injection h4 with h7 h8
            exact .inr ⟨h1, h2, h3, before, after, h8, fun c hc => h5 c (by simp [hc]), h6⟩

/-- A scan that holds a best candidate ends with one. -/
theorem tryAll_ne_none (m : HideMap) (sm : Samples) (cs : List Candidate) (o : Best) : tryAll m sm (some o) cs ≠ none := by
  induction cs generalizing o with
  | nil => simp [tryAll]
  | cons d cs ih =>
    have step : tryAll m sm (some o) (d :: cs) = tryAll m sm (tryCandidate m sm (some o) d) cs := rfl
    rw [step]
    unfold tryCandidate
    split
    · dsimp only
      split
      · exact ih _
      · exact ih _
    · exact ih _

/-- What a scan that holds none ends with. -/
theorem tryAll_none (m : HideMap) (sm : Samples) (cs : List Candidate) :
    (tryAll m sm none cs = none ↔ ∀ c ∈ cs, ¬ cellTest m sm.drawing c = true) ∧
    ∀ b, tryAll m sm none cs = some b ↔
      cellTest m sm.drawing b.cand = true ∧ b.score = scoreOf m sm b.cand ∧
        ∃ before after, cs = before ++ b.cand :: after ∧
          (∀ c ∈ before, cellTest m sm.drawing c = true → b.score < scoreOf m sm c) ∧
          ∀ c ∈ after, cellTest m sm.drawing c = true → b.score ≤ scoreOf m sm c := by
  induction cs with
  | nil => simp [tryAll]
  | cons d cs ih =>
    have step : tryAll m sm none (d :: cs) = tryAll m sm (tryCandidate m sm none d) cs := rfl
    rw [step]
    by_cases hp : cellTest m sm.drawing d = true
    · have e : tryCandidate m sm none d = some { cand := d, score := scoreOf m sm d } := by simp [tryCandidate, hp]
      rw [e]
      refine ⟨⟨fun h => absurd h (tryAll_ne_none m sm cs _), fun h => absurd hp (h d (by simp))⟩, fun b => ?_⟩
      rw [tryAll_some]
      constructor
      · rintro (⟨rfl, h⟩ | ⟨h1, h2, h3, before, after, h4, h5, h6⟩)
        · exact ⟨hp, rfl, [], cs, rfl, (by simp), h⟩
        · refine ⟨h2, h3, d :: before, after, by rw [h4]; rfl, ?_, h6⟩
          intro c hc hpc
          rcases List.mem_cons.mp hc with rfl | hc
          · exact h1
          · exact h5 c hc hpc
      · rintro ⟨h2, h3, before, after, h4, h5, h6⟩
        cases before with
        | nil =>
          injection h4 with h7 h8
          subst h8
          refine .inl ⟨?_, h6⟩
          rw [h7, ← h3]
        | cons a before =>
          injection h4 with h7 h8
          subst h7
          exact .inr ⟨h5 d (by simp) hp, h2, h3, before, after, h8, fun c hc => h5 c (by simp [hc]), h6⟩
    · have e : tryCandidate m sm none d = none := by simp [tryCandidate, hp]
      rw [e]
      refine ⟨ih.1.trans ⟨fun h c hc => ?_, fun h c hc => h c (by simp [hc])⟩, fun b => (ih.2 b).trans ?_⟩
      · rcases List.mem_cons.mp hc with rfl | hc
        · exact hp
        · exact h c hc
      · constructor
        · rintro ⟨h2, h3, before, after, h4, h5, h6⟩
          refine ⟨h2, h3, d :: before, after, by rw [h4]; rfl, ?_, h6⟩
          intro c hc hpc
          rcases List.mem_cons.mp hc with rfl | hc
          · exact absurd hpc hp
          · exact h5 c hc hpc
        · rintro ⟨h2, h3, before, after, h4, h5, h6⟩
          cases before with
          | nil =>
            injection h4 with h7 h8
            rw [← h7] at h2
            exact absurd h2 hp
          | cons a before =>
            injection h4 with h7 h8
            exact ⟨h2, h3, before, after, h8, fun c hc => h5 c (by simp [hc]), h6⟩

/-- The end of a scan is the machine's. -/
theorem State.scanEnds_iff (s : State) (q : Search) (b : Option Best) : s.scanEnds q b ↔ s.finalBest q = b := by
  unfold State.finalBest Search.left
  cases b with
  | none =>
    simp only [State.scanEnds, State.passes_iff_cellTest]
    cases e : q.best with
    | none => simpa using ((tryAll_none _ _ _).1).symm
    | some o => simpa using tryAll_ne_none _ _ _ o
  | some b =>
    simp only [State.scanEnds, State.passes_iff_cellTest]
    cases e : q.best with
    | none => simpa using ((tryAll_none _ _ _).2 b).symm
    | some o => simpa using (tryAll_some _ _ _ o b).symm

/-- The slot that times a head is the machine's timed slot. -/
theorem State.times_iff (s : State) (h : Head) (n : SlotNo) : s.times h n ↔ s.timedSlot h = some n := by
  have cutting : s.isCutting h = false ↔
      ∀ y ∈ (s.heads[h]).held, ∀ q, s.slots[y.slot] = some q → q.state ≠ .cutting := by
    simp only [State.isCutting, State.heldRecords, List.any_eq_false, List.mem_filterMap, Option.map_eq_some_iff,
      decide_eq_true_eq, Prod.forall, Prod.mk.injEq]
    exact ⟨fun H y hy q hq => H y q ⟨y, hy, q, hq, rfl, rfl⟩, fun H x q ⟨y, hy, r, hr, hx, hq⟩ => hq ▸ H y hy r hr⟩
  unfold State.times State.timedSlot
  rw [← cutting]
  cases (s.heads[h]).held with
  | nil => simp
  | cons x rest =>
    simp only [List.cons.injEq, exists_and_right]
    cases hs : s.slots[x.slot] with
    | none =>
      simp only [reduceCtorEq, iff_false]
      rintro ⟨⟨y, ⟨_, ⟨rfl, rfl⟩⟩, rfl⟩, ⟨p, hp, _⟩, _⟩
      rw [hs] at hp
      cases hp
    | some p =>
      simp only [Bool.and_eq_true, decide_eq_true_eq, Bool.not_eq_true']
      constructor
      · rintro ⟨⟨y, ⟨_, ⟨rfl, rfl⟩⟩, rfl⟩, ⟨q, hq, hc⟩, hn⟩
        rw [hs] at hq
        injection hq with hq
        subst hq
        rw [if_pos ⟨hc, hn⟩]
      · intro hh
        split at hh
        · rename_i hc
          injection hh with hh
          subst hh
          exact ⟨⟨x, ⟨rest, rfl, rfl⟩, rfl⟩, ⟨p, hs, hc.1⟩, hc.2⟩
        · cases hh

/-- A key test passes as its digits agree. -/
theorem KeyTest.agrees_iff {w : Nat} (t : KeyTest w) (k : BitVec w) : t.agrees k ↔ t.passes k = true := by
  simp only [KeyTest.agrees, KeyTest.passes, beq_iff_eq]
  constructor
  · intro h
    apply BitVec.eq_of_getLsbD_eq
    intro i _
    have := h i
    cases hm : t.mask.getLsbD i with
    | false => simp [hm]
    | true => simp [hm, this hm]
  · intro h i hi
    have := congrArg (fun z => z.getLsbD i) h
    simpa [hi] using this

/-! ### Output lines -/

theorem LineWork.follows_driveWork (w : LineWork) (width : Nat) (r : Bool) : w.follows width r (driveWork w r width) := by
  refine ⟨fun d h => ?_, fun d h e => ?_⟩
  · subst h
    cases r <;> cases d <;> rfl
  · subst e
    unfold driveWork
    dsimp only
    split <;> rfl

/-- What an output line's working level follows is what the pulse width rule makes of it. -/
theorem LineWork.follows_iff {w : LineWork} (hw : w.isOut = true) {width : Nat} {r : Bool} {v : LineWork} :
    w.follows width r v ↔ v = driveWork w r width := by
  refine ⟨fun h => ?_, fun h => h ▸ w.follows_driveWork width r⟩
  have g := w.follows_driveWork width r
  cases w with
  | input d c => cases hw
  | output d x =>
    cases x with
    | none => exact (h.1 d rfl).trans (g.1 d rfl).symm
    | some y => exact (h.2 d y rfl).trans (g.2 d y rfl).symm

/-- Output lines are driven exactly when the pulse width rule leaves every line as it is. -/
theorem State.driven_iff (s : State) :
    s.driven ↔ ∀ l : LineNo, driveWork (s.lines[l]).work (s.requested s.lines[l]) (s.lines[l]).width = (s.lines[l]).work := by
  unfold State.driven
  refine forall_congr' fun l => ?_
  generalize (s.lines[l]).work = w
  generalize s.requested s.lines[l] = r
  generalize (s.lines[l]).width = width
  cases w with
  | input d c => simp [driveWork]
  | output d x =>
    cases x with
    | none => cases r <;> cases d <;> simp [driveWork]
    | some y =>
      obtain ⟨p, e, n⟩ := y
      cases r <;> cases d <;> cases p <;> simp [driveWork]

/-- The pulse width rule is idempotent for one requested level. -/
theorem driveWork_idem (w : LineWork) (r : Bool) (width : Nat) :
    driveWork (driveWork w r width) r width = driveWork w r width := by
  cases w with
  | input d c => rfl
  | output d x =>
    cases x with
    | none => by_cases hw : width = 0 <;> cases r <;> cases d <;> simp [driveWork, startHold, hw]
    | some y =>
      obtain ⟨p, e, n⟩ := y
      rcases p with _ | p <;> cases r <;> cases d <;> try cases p
      all_goals simp [driveWork]

end Sys2Proof.Machine
end

