-- ==== Sys2Proof/WellFormed.lean ====
section
/-!
DEFINITION. Which commands are events that the part's surroundings and engines can bring about as they are written: a
payload fits a frame (R180), a request's form is the one its selector asks for (R38, R53, R54, R68, R69), a frame
that is refused or discarded is of the kind its name says (R181, R184), and a map test reads each cell back once under
each pattern (R14).
-/

namespace Sys2Proof

/-- Whether a payload fits a frame (R180). -/
def payloadFits (pl : List Byte) : Bool := decide (pl.length ≤ Config.maxPayload)

/-- Whether a command is well formed. -/
def Instr.wellFormed (i : Instr) : Bool :=
  match i with
  | .powerUp | .applyJobCompletion | .withdrawJobCompletion | .searchCompletion | .gateHoldLimitExpiry => true
  | .mapTestCompletion rs => decide ((rs.map fun r => (r.plane, r.column, r.row, r.pattern)).Nodup)
  | .noticeHoldoffExpiry _ | .frameGapTimeout _ | .replySent _ | .lineErrorDiscard _ => true
  | .claimTimerExpiry _ | .debounceExpiry _ | .outputHoldEnd _ | .linePinChange _ _ | .encoderTransition _ _ => true
  | .frameByteReceived _ _ => true
  | .ruleReadEntry _ pl => payloadFits pl && decide (Machine.u8 pl 0 ≠ 128)
  | .ruleReadTables _ pl => payloadFits pl && decide (Machine.u8 pl 0 = 128)
  | .libraryReadRecord _ pl => payloadFits pl && decide (Machine.u8 pl 1 ≠ 1)
  | .libraryReadMask _ pl => payloadFits pl && decide (Machine.u8 pl 1 = 1)
  | .demandReadEntry _ pl => payloadFits pl && decide (Machine.u8 pl 0 ≠ 64)
  | .demandReadList _ pl => payloadFits pl && decide (Machine.u8 pl 0 = 64)
  | .unknownKind _ k pl => payloadFits pl && (Machine.kindOf k).isNone
  | .checkRefused _ k pl c => payloadFits pl && !Machine.sumOk k pl c
  | .frameDiscardedOwed _ _ pl _ => payloadFits pl
  | .lengthOverflowDiscard _ n => decide (Config.maxPayload < n.toNat)
  | .partStatus _ pl | .partReset _ pl | .mapTest _ pl | .noticeRead _ pl | .noticeClear _ pl | .noticeSetup _ pl
  | .mapRead _ pl | .gradeRuns _ pl | .flawAdd _ pl | .flawWithdraw _ pl | .flawRead _ pl | .ruleWrite _ pl
  | .rangeWrite _ pl | .classDefaults _ pl | .libraryBegin _ pl | .libraryRows _ pl | .libraryEnd _ pl
  | .libraryDrop _ pl | .demandPost _ pl | .demandCancel _ pl | .setWeights _ pl | .placementRead _ pl
  | .hideReport _ pl | .placementWithdraw _ pl | .hideOpen _ pl | .markFrontier _ pl | .hideDrain _ pl
  | .hideAbort _ pl | .hideRelease _ pl | .setConveyor _ pl | .setGate _ pl | .gateRelease _ pl | .headOnline _ pl
  | .headOffline _ pl | .claim _ pl | .startCut _ pl | .cutDone _ pl | .cutFailed _ pl | .returnClaim _ pl
  | .setLine _ pl | .lineStatus _ pl => payloadFits pl

end Sys2Proof
end

