-- ==== Sys2Proof/Tests/Slice0.lean ====
section
/-!
SUPPORT. The well-formedness smoke, small states, one or two tests for each command, and a witness for the hypotheses of
each statement.
-/

namespace Sys2Proof.Tests

open Sys2Proof Sys2Proof.Machine

set_option Elab.async false

/-! ### Well-formedness: each check refuses an ill-formed command -/

theorem test_wellFormed_refuses_long_payload : (Instr.partStatus 0 (List.replicate 241 0)).wellFormed = false := by
  decide +kernel
theorem test_wellFormed_takes_longest_payload : (Instr.partStatus 0 (List.replicate 240 0)).wellFormed = true := by
  decide +kernel
theorem test_wellFormed_refuses_entry_form_of_tables : (Instr.ruleReadEntry 0 [128]).wellFormed = false := by decide
theorem test_wellFormed_refuses_tables_form_of_entry : (Instr.ruleReadTables 0 [127]).wellFormed = false := by decide
theorem test_wellFormed_refuses_record_form_of_mask : (Instr.libraryReadRecord 0 [3, 1, 0]).wellFormed = false := by decide
theorem test_wellFormed_refuses_mask_form_of_record : (Instr.libraryReadMask 0 [3, 0, 0]).wellFormed = false := by decide
theorem test_wellFormed_refuses_entry_form_of_list : (Instr.demandReadEntry 0 [64]).wellFormed = false := by decide
theorem test_wellFormed_refuses_list_form_of_entry : (Instr.demandReadList 0 [63]).wellFormed = false := by decide
theorem test_wellFormed_refuses_known_kind : (Instr.unknownKind 0 0x52 []).wellFormed = false := by decide
theorem test_wellFormed_takes_unknown_kind : (Instr.unknownKind 0 0x57 []).wellFormed = true := by decide
theorem test_wellFormed_refuses_good_sum : (Instr.checkRefused 2 0x52 [] 0xAE).wellFormed = false := by decide
theorem test_wellFormed_takes_bad_sum : (Instr.checkRefused 2 0x52 [] 0xAF).wellFormed = true := by decide
theorem test_wellFormed_refuses_length_in_range : (Instr.lengthOverflowDiscard 0 240).wellFormed = false := by decide
theorem test_wellFormed_refuses_long_discarded : (Instr.frameDiscardedOwed 0 1 (List.replicate 241 0) 0).wellFormed = false := by
  decide +kernel

theorem test_wellFormed_refuses_repeated_readBack :
    (Instr.mapTestCompletion [⟨0, 5, 7, .allOnes, ⟨0, 0, 0, 0⟩⟩, ⟨0, 5, 7, .allOnes, ⟨1, 0, 0, 0⟩⟩]).wellFormed = false ∧
    (Instr.mapTestCompletion [⟨0, 5, 7, .allOnes, ⟨0, 0, 0, 0⟩⟩, ⟨0, 5, 7, .alternating, ⟨0, 0, 0, 0⟩⟩]).wellFormed = true := by
  decide +kernel

/-! ### Small states -/

/-- The state a command leaves. -/
def run (c : Instr) (s : State) : State :=
  match exec c s with
  | .next t => t
  | .fault _ => s
  | .refused _ => s

/-- The reply a port owes: its outcome code and its payload as numbers. -/
def replyOf (p : Port) (s : State) : Option (Nat × List Nat) :=
  match (s.ports[p]).owed with
  | some (.reply r) => some ((r.refusal.map Code.number).getD 0, r.payload.map fun b => b.toNat)
  | some .mapTest => none
  | none => none

/-- A READY part. -/
def ready : State := { State.reset with condition := .ready }

/-- A hide of 8 × 2 cells, not registered. -/
def hide : HideContext := { HideContext.reset with state := .opened, width := 8, height := 2, rank := some .first, frontier := 8 }

/-- The same hide under the knives: cell travel 400. -/
def hideOnBelt : HideContext := { hide with registered := true, count := 3200 }

/-- A READY part with the hide open. -/
def opened : State := { ready with ctxs := ready.ctxs.set 0 hide }

/-- Head 1 reaches every column of the hide on the belt. -/
def belt : Conveyor := { Conveyor.reset with reach := #v[{ present := true, start := 390, length := 200 }, { present := false, start := 0, length := 1 }] }

/-- A READY pattern of 2 × 1 FACE cells. -/
def drawing : Pattern :=
  { Pattern.reset with state := .ready, w := 2, h := 1, mask := [[.face, .face]], face := ⟨1, 0⟩, hidden := ⟨1, 0⟩,
                       edge := ⟨1, 0⟩, orients := 1, covered := 2, reserved := 2, refs := 2 }

/-- An entry with one live placement of two requested. -/
def order : Entry :=
  { tag := 0, pattern := 0, hand := .any, requested := 2, live := 1, cut := 0, spoiled := 0, rush := false,
    state := .opened, postNumber := 0, holders := 1 }

/-- Its placement, in slot 0. -/
def record : Placement :=
  { state := .placed, ctx := 0, tag := 0, pattern := 0, orient := 0, xlo := 1, ylo := 0, wo := 2, ho := 1, covered := 2,
    score := 0, commitNo := 0, head := none, tainted := false, cause := none }

/-- The plane with the placement's cells graded and occupied. -/
def laidPlane : Plane := [(1, { base := 5, cap := 7, classes := 0, occupant := some 0 }),
                          (2, { base := 5, cap := 7, classes := 0, occupant := some 0 })]

/-- The placement lies on the hide on the belt; head 1 is READY. -/
def laid : State :=
  { ready with
    planes := ready.planes.set 0 laidPlane, ctxs := ready.ctxs.set 0 hideOnBelt, patterns := ready.patterns.set 0 drawing,
    freeCells := 262142, entries := [order], slots := ready.slots.set 0 (some record), conveyor := belt,
    heads := ready.heads.set 0 { HeadChannel.reset with state := .ready } }

/-- Head 1 holds the placement, in a state of its own choice. -/
def heldIn (st : PlacementState) : State :=
  { laid with
    slots := laid.slots.set 0 (some { record with state := st, head := some 0 }),
    heads := laid.heads.set 0 { HeadChannel.reset with
      state := .ready, held := [{ slot := 0, grantOrder := 0, startOrder := none }], timer := some 0 } }

/-- A flaw with its classification. -/
def flaw : Flaw :=
  { category := 1, severity := 1, source := .scanner, shape := .disc 1 0 0, state := .pending,
    classified := some { cls := 3, margin := 1, cap := some 4, extent := 1, area := 1 } }

/-- Its APPLY job is in flight. -/
def applying : State :=
  { laid with flaws := laid.flaws.set 0 [flaw], inFlight := some { kind := .apply, ctx := 0, flaw := 0 } }

/-- Its WITHDRAW job is in flight. -/
def withdrawing : State :=
  { laid with flaws := laid.flaws.set 0 [{ flaw with state := .withdrawing }],
              inFlight := some { kind := .withdraw, ctx := 0, flaw := 0 } }

/-- A search on an open hide with two graded cells, its one fitting candidate not yet tested. -/
def searching : State :=
  { opened with
    planes := opened.planes.set 0 [(0, { base := 5, cap := 7, classes := 0, occupant := none }),
                                   (1, { base := 5, cap := 7, classes := 0, occupant := none })],
    patterns := opened.patterns.set 0 { drawing with refs := 1 }, entries := [{ order with live := 0, holders := 0 }],
    searchUnit := .searching
      { pair := ⟨0, 0⟩, tested := 0, best := none, retry := 0,
        samples := { weights := ⟨16, 4, 8⟩, floor := 0, frontier := 2, width := 8, height := 1, pattern := 0,
                     drawing := { drawing with refs := 1 }, orients := [0] } } }

/-- The search of the state above, with another retry count and place. -/
def searchOf (retry tested : Nat) (best : Option Best) : Search :=
  { pair := ⟨0, 0⟩, tested := tested, best := best, retry := retry,
    samples := { weights := ⟨16, 4, 8⟩, floor := 0, frontier := 2, width := 8, height := 1, pattern := 0,
                 drawing := { drawing with refs := 1 }, orients := [0] } }

/-- The one candidate of that search. -/
def candidate : Candidate := { x := 0, y := 0, orient := 0 }

/-- A load of a 2 × 2 mask in progress. -/
def loading : State :=
  { ready with
    patterns := ready.patterns.set 3 { Pattern.reset with state := .loading, w := 2, h := 2, reserved := 4 },
    freeCells := 262140 }

/-- A unit of the marking port with a running holdoff timer. -/
def waiting : State :=
  { ready with notices := ready.notices.set 1 { NoticeUnit.reset with pending := 1, enabled := 1, count := 1, holdoff := 2, timer := .running 200 } }

/-- The first line of a part with a candidate standing on a line with an input function. -/
def edge (f : InputFunction) (v : Bool) : State :=
  { opened with lines := opened.lines.set 0 { Line.powerUp (!v) with debounce := 20, function := f, pin := v, work := .input (!v) (some { level := v, elapsed := 20 }) } }

/-- The first line driving 0 with a hold running and 1 pending. -/
def driving : State :=
  { ready with lines := ready.lines.set 0 { Line.powerUp false with width := 20, work := .output false (some { pending := some true, elapsed := 0, width := 20 }) } }

/-- The gate HOLDING with its timer running. -/
def holding : State :=
  { ready with gate := { holding := true, armed := true, hold := 3, release := 6, holdLimit := 50,
                         timer := some { elapsed := 0, limit := 50 } } }

/-- A port that owes a reply. -/
def owing : State := run (.partStatus 0 []) ready

/-! ### Part, notices and reads -/

theorem test_powerUp : (run .powerUp laid).condition = .starting ∧ (run .powerUp laid).slots[(0 : SlotNo)] = none := by
  decide +kernel
theorem test_mapTestCompletion_ready : (run (.mapTestCompletion []) State.reset).condition = .ready := by decide +kernel
theorem test_mapTestCompletion_failed :
    (run (.mapTestCompletion [⟨0, 5, 7, .allOnes, ⟨7, 7, 0xFE, 0x1FF⟩⟩, ⟨0, 5, 7, .addressDerived, ⟨4, 4, 12, 0⟩⟩,
      ⟨1, 5, 8, .alternating, ⟨2, 2, 0xAA, 0x0AA⟩⟩]) State.reset).mismatches = 1 ∧
    (run (.mapTestCompletion [⟨0, 5, 7, .allOnes, ⟨7, 7, 0xFE, 0x1FF⟩⟩]) State.reset).condition = .failed := by
  decide +kernel
theorem test_partStatus_starting_shows_no_encoder_error :
    (run (.encoderTransition true true) State.reset).encErrors = 1 ∧
    (run (.encoderTransition true true) State.reset).statusBytes = State.reset.statusBytes := by decide +kernel
theorem test_partStatus_busy_of_others :
    replyOf 0 (run (.noticeRead 0 []) State.reset) = some (5, []) ∧
    (replyOf 0 (run (.partStatus 0 []) State.reset)).map (fun r => r.1) = some 0 := by decide +kernel
theorem test_partReset : (run (.partReset 0 []) laid).entries = [] ∧ (run (.partReset 0 []) laid).condition = .ready := by
  decide +kernel
theorem test_mapTest_refused_with_open_hide :
    replyOf 0 (run (.mapTest 0 []) opened) = some (6, []) ∧ (run (.mapTest 0 []) ready).condition = .testing := by
  decide +kernel
theorem test_noticeRead : replyOf 1 (run (.noticeRead 1 []) waiting) = some (0, [1, 0, 1, 0, 1, 2, 0, 1, 0]) := by
  decide +kernel
theorem test_noticeClear : ((run (.noticeClear 1 [1, 0]) waiting).notices[(1 : Port)]).timer = .idle := by decide +kernel
theorem test_noticeSetup_raises_at_zero_holdoff :
    ((run (.noticeSetup 1 [1, 0, 0, 0]) waiting).notices[(1 : Port)]).attention = true := by decide +kernel
theorem test_noticeHoldoffExpiry :
    ((run (.noticeHoldoffExpiry 1) waiting).notices[(1 : Port)]).attention = true := by decide +kernel
theorem test_mapRead : replyOf 1 (run (.mapRead 1 [0, 0, 0, 0, 0, 3]) laid) =
    some (0, [0, 0, 0, 0, 0, 3, 0, 0, 255, 255, 5, 0, 0, 0, 5, 0, 0, 0]) := by decide +kernel
theorem test_placementRead : replyOf 2 (run (.placementRead 2 [0]) laid) =
    some (0, [0, 1, 0, 0, 0, 0, 1, 0, 0, 0, 2, 1, 2, 0, 2, 0, 0, 0, 0, 0, 0, 0, 0, 0, 0, 255, 255, 0, 0]) := by decide +kernel
theorem test_hideReport_refused_when_empty : replyOf 1 (run (.hideReport 1 [1]) laid) = some (6, []) := by decide +kernel
theorem test_lineStatus : (replyOf 0 (run (.lineStatus 0 []) ready)).map (fun r => r.2.length) = some 95 := by decide +kernel

/-! ### Map and flaws -/

theorem test_gradeRuns_withdraws :
    (((run (.gradeRuns 1 [0, 0, 0, 0, 0, 8, 0]) laid).slots[(0 : SlotNo)]).map fun r => (r.state, r.cause)) =
      some (.withdrawn, some .gradeChange) := by decide +kernel
theorem test_flawAdd : replyOf 1 (run (.flawAdd 1 [0, 1, 1, 0, 0, 1, 0, 0, 0, 0]) laid) = some (0, [0, 0, 0]) := by
  decide +kernel
theorem test_applyJobCompletion :
    ((run .applyJobCompletion applying).cell 0 1 0).cap = 4 ∧ ((run .applyJobCompletion applying).cell 0 2 0).classes = 8 ∧
    ((run .applyJobCompletion applying).cell 0 2 0).cap = 7 := by decide +kernel
theorem test_flawWithdraw : replyOf 1 (run (.flawWithdraw 1 [0, 0, 0]) applying) = some (0, [4]) := by decide +kernel
theorem test_withdrawJobCompletion :
    (((run .withdrawJobCompletion withdrawing).flaws[(0 : Ctx)]).map fun f => f.state) = [.withdrawn] := by decide +kernel
theorem test_flawRead : replyOf 1 (run (.flawRead 1 [0, 0, 0]) applying) =
    some (0, [0, 0, 1, 1, 0, 0, 1, 0, 0, 0, 0, 0, 3, 1, 4, 1, 0, 1, 0, 0, 1, 0, 1]) := by decide +kernel

/-! ### Classifier -/

theorem test_ruleWrite :
    replyOf 0 (run (.ruleWrite 0 [5, 1, 0, 5, 127, 3, 15, 0, 8, 0, 0, 0, 0, 0, 0, 1, 1, 4, 1, 255, 9, 0]) ready) =
      some (0, []) := by decide +kernel
theorem test_ruleWrite_refuses_class_8 :
    replyOf 0 (run (.ruleWrite 0 [5, 1, 0, 5, 127, 3, 15, 0, 8, 0, 0, 0, 0, 0, 0, 1, 1, 8, 1, 255, 9, 0]) ready) =
      some (7, []) := by decide +kernel
theorem test_rangeWrite : (run (.rangeWrite 0 [7, 1, 9, 0, 4, 1]) ready).ranges[(7 : Fin 8)] = ⟨.area, 9, 260⟩ := by
  decide +kernel
theorem test_classDefaults_refuses_link :
    replyOf 0 (run (.classDefaults 0 ([2, 1, 255] ++ List.replicate 15 0 ++ [128])) ready) = some (7, []) := by
  decide +kernel
theorem test_ruleReadEntry_refuses_129 : replyOf 0 (run (.ruleReadEntry 0 [129]) ready) = some (7, []) := by
  decide +kernel
theorem test_ruleReadTables : (replyOf 0 (run (.ruleReadTables 0 [128]) ready)).map (fun r => r.2.length) = some 59 := by
  decide +kernel
theorem test_lookup_uses_defaults : lookup [] { cls := 2, margin := 1, cap := none }
    { link := 0, category := 0, ladder := 0, source := 0, shape := 0, anchor := 0, ranges := 0 } =
    { cls := 2, margin := 1, cap := none, ignore := false } := by decide

/-! ### Library and demand -/

theorem test_libraryBegin_ends_load :
    replyOf 0 (run (.libraryBegin 0 [4, 1, 1, 0, 1, 0, 1, 0, 1, 0, 1]) loading) =
      some (0, [4, 1, 0, 255, 255, 3, 3, 2, 0]) := by decide +kernel
theorem test_libraryRows : replyOf 0 (run (.libraryRows 0 [3, 0, 0x05]) loading) = some (0, [3, 1]) := by decide +kernel
theorem test_libraryEnd_truncates :
    replyOf 0 (run (.libraryEnd 0 [3]) { run (.libraryRows 0 [3, 0, 0x05]) loading with ports := loading.ports }) =
      some (0, [3, 1, 1, 2, 0, 254, 255, 3]) := by decide +kernel
theorem test_libraryDrop_in_use : replyOf 0 (run (.libraryDrop 0 [0]) laid) = some (10, []) := by decide +kernel
theorem test_libraryReadRecord : (replyOf 0 (run (.libraryReadRecord 0 [0, 0, 9]) laid)).map (fun r => r.2.length) = some 22 := by
  decide +kernel
theorem test_libraryReadMask : replyOf 0 (run (.libraryReadMask 0 [0, 1, 0]) laid) = some (0, [0, 0, 1, 5]) := by
  decide +kernel
theorem test_demandPost_rush_first :
    replyOf 0 (run (.demandPost 0 [0, 2, 3, 1]) laid) = some (0, [1, 0, 0, 0, 2]) ∧
    ((run (.demandPost 0 [0, 2, 3, 1]) laid).entries.map fun e => e.tag) = [1, 0] := by decide +kernel
theorem test_demandCancel : replyOf 0 (run (.demandCancel 0 [0]) laid) = some (0, [0, 1, 0, 0]) := by decide +kernel
theorem test_demandReadEntry : replyOf 0 (run (.demandReadEntry 0 [0]) laid) =
    some (0, [0, 0, 0, 0, 2, 2, 0, 0, 1, 0, 0, 1, 0, 1, 1, 0]) := by decide +kernel
theorem test_demandReadList : replyOf 0 (run (.demandReadList 0 [64]) laid) = some (0, [1, 0, 0, 0, 0]) := by decide +kernel

/-! ### Search and placements -/

theorem test_setWeights : replyOf 0 (run (.setWeights 0 [1, 2, 3]) searching) = some (0, [1, 2, 3, 1]) := by decide +kernel
theorem test_searchCompletion_commits :
    ((run .searchCompletion searching).slots[(0 : SlotNo)]).map (fun r => (r.xlo, r.score)) = some (0, 16) ∧
    ((run .searchCompletion searching).cell 0 1 0).occupant = some 0 := by decide +kernel
theorem test_placementWithdraw : replyOf 0 (run (.placementWithdraw 0 [0, 0, 0, 0]) (heldIn .claimed)) = some (0, [0, 2, 1]) ∧
    replyOf 0 (run (.placementWithdraw 0 [0, 0, 0, 0]) laid) = some (0, [0, 1, 255]) := by decide +kernel

/-! ### Hides, conveyor and gate -/

theorem test_hideOpen : replyOf 1 (run (.hideOpen 1 [44, 1, 200, 0, 2]) opened) = some (0, [1, 1]) := by decide +kernel
theorem test_markFrontier : replyOf 1 (run (.markFrontier 1 [0, 255, 255]) opened) = some (0, [0, 8, 0, 0]) := by decide +kernel
theorem test_hideDrain : replyOf 0 (run (.hideDrain 0 [0]) laid) = some (0, [0, 2, 0]) := by decide +kernel
theorem test_hideAbort : replyOf 0 (run (.hideAbort 0 [0]) (heldIn .cutting)) = some (0, [0, 0, 0, 1]) := by decide +kernel
theorem test_hideRelease_refused_when_open : replyOf 0 (run (.hideRelease 0 [0]) laid) = some (6, []) := by decide +kernel
theorem test_setConveyor_refused_when_registered :
    replyOf 0 (run (.setConveyor 0 [0, 32, 3, 150, 0, 200, 0, 44, 1, 200, 0, 16, 10, 50]) laid) = some (6, []) ∧
    replyOf 0 (run (.setConveyor 0 [0, 32, 3, 150, 0, 200, 0, 44, 1, 200, 0, 16, 10, 50]) ready) =
      some (0, [0, 32, 3, 150, 0, 200, 0, 44, 1, 200, 0, 16, 10, 50]) := by decide +kernel
theorem test_encoderTransition :
    ((run (.encoderTransition true false) laid).ctxs[(0 : Ctx)]).count = 3201 ∧
    (run (.encoderTransition true true) laid).encErrors = 1 := by decide +kernel
theorem test_setGate : replyOf 0 (run (.setGate 0 [3, 6, 50]) ready) = some (0, [3, 6, 50, 0, 1]) := by decide +kernel
theorem test_gateRelease : replyOf 0 (run (.gateRelease 0 []) holding) = some (0, [1]) := by decide +kernel
theorem test_gateHoldLimitExpiry :
    ((run .gateHoldLimitExpiry holding).gate.holding, (run .gateHoldLimitExpiry holding).gate.armed) = (false, false) := by
  decide +kernel

/-! ### Heads -/

theorem test_headOnline : ((run (.headOnline 3 []) laid).heads[(1 : Head)]).state = .ready := by decide +kernel
theorem test_headOffline_spoils :
    replyOf 2 (run (.headOffline 2 []) (heldIn .cutting)) = some (0, [1, 255, 255, 255, 255, 0, 0]) := by decide +kernel
theorem test_claim : replyOf 2 (run (.claim 2 []) laid) =
    some (0, [0, 0, 0, 0, 0, 0, 0, 0, 1, 0, 0, 0, 2, 1, 2, 0, 9, 0, 128, 12, 0, 0, 1]) := by decide +kernel
theorem test_startCut : ((run (.startCut 2 [0, 0, 0, 0]) (heldIn .claimed)).slots[(0 : SlotNo)]).map (fun r => r.state) =
    some .cutting := by decide +kernel
theorem test_cutDone : (run (.cutDone 2 [0, 0, 0, 0]) (heldIn .cutting)).entries = [{ order with live := 0, cut := 1 }] := by
  decide +kernel
theorem test_cutFailed_of_head :
    ((run (.cutFailed 2 [0, 0, 0, 0, 1]) (heldIn .cutting)).heads[(0 : Head)]).state = .fault := by decide +kernel
theorem test_returnClaim :
    (run (.returnClaim 2 [0, 0, 0, 0]) (heldIn .claimed)).slots[(0 : SlotNo)] = some record := by decide +kernel
theorem test_claimTimerExpiry : (run (.claimTimerExpiry 0) (heldIn .claimed)).slots[(0 : SlotNo)] = some record := by
  decide +kernel

/-! ### Lines and link -/

theorem test_setLine : replyOf 0 (run (.setLine 0 [0, 0, 0, 44, 1, 1, 0, 0, 0]) ready) =
    some (0, [0, 0, 255, 1, 0, 0, 0, 0]) := by decide +kernel
theorem test_setLine_drives : (((run (.setLine 0 [3, 1, 1, 0, 0, 0, 0, 0, 20]) ready).lines[(3 : LineNo)]).work) =
    .output true (some { pending := none, elapsed := 0, width := 20 }) := by decide +kernel
theorem test_linePinChange : ((run (.linePinChange 0 true) ready).lines[(0 : LineNo)]).work = .input true none := by
  decide +kernel
theorem test_debounceExpiry_registers :
    ((run (.debounceExpiry 0) (edge .hideEdge true)).ctxs[(0 : Ctx)]).registered = true := by decide +kernel
theorem test_outputHoldEnd : ((run (.outputHoldEnd 0) driving).lines[(0 : LineNo)]).work =
    .output true (some { pending := none, elapsed := 0, width := 20 }) := by decide +kernel
theorem test_unknownKind : replyOf 3 (run (.unknownKind 3 0x57 []) ready) = some (2, []) := by decide +kernel
theorem test_checkRefused : replyOf 0 (run (.checkRefused 0 0x38 [0] 0xC6) ready) = some (1, []) := by decide +kernel
theorem test_frameDiscardedOwed : (run (.frameDiscardedOwed 0 0x52 [] 0xAE) owing).ports = owing.ports := by decide +kernel
theorem test_frameGapTimeout :
    ((run (.frameGapTimeout 0) (run (.frameByteReceived 0 0xA5) ready)).ports[(0 : Port)]).receiver = .hunting := by
  decide +kernel
theorem test_lengthOverflowDiscard :
    ((run (.lengthOverflowDiscard 0 241) (run (.frameByteReceived 0 0xA5) ready)).ports[(0 : Port)]).receiver = .hunting := by
  decide +kernel
theorem test_replySent : ((run (.replySent 0) owing).ports[(0 : Port)]).owed = none := by decide +kernel
theorem test_lineErrorDiscard :
    ((run (.lineErrorDiscard 0) (run (.frameByteReceived 0 0xA5) ready)).ports[(0 : Port)]).receiver = .hunting := by
  decide +kernel
theorem test_frameByteReceived :
    replyOf 2 (run (.frameByteReceived 2 0xAE) (run (.frameByteReceived 2 0) (run (.frameByteReceived 2 0x52)
      (run (.frameByteReceived 2 0xA5) laid)))) = replyOf 2 (run (.claim 2 []) laid) := by decide +kernel

/-! ### Witnesses: states and operands that meet the hypotheses of each statement, for each clause -/

theorem witness_TimePassesAndEveryCommandAnswers :
    ready.pending = [] ∧ ready.due = none ∧ waiting.pending = [] ∧ waiting.due = some (.noticeHoldoffExpiry 1) := by
  decide +kernel

theorem witness_MapTestStartsAndEnds_starts : (ready.ports[(0 : Port)]).owed = none ∧ ready.condition = .ready ∧
    (∀ k : Ctx, (ready.ctxs[k]).state = .empty) ∧
    ({ ready with condition := .failed } : State).condition = .failed := by decide +kernel

theorem witness_MapTestStartsAndEnds_ends : State.reset.condition = .starting ∧
    (run (.mapTest 0 []) ready).condition = .testing ∧
    ((run (.mapTest 0 []) ready).ports[(0 : Port)]).owed = some .mapTest ∧ mismatchCount [] = 0 ∧
    0 < mismatchCount [⟨1, 767, 511, .allOnes, ⟨7, 7, 0xFF, 0⟩⟩] := by decide +kernel

theorem witness_takes : ready.takes 0 ∧ laid.takes 0 ∧ laid.takes 1 ∧ laid.takes 2 ∧ laid.takes 3 := by decide +kernel

theorem witness_PartResetResets : loading.takes 0 ∧ (loading.patterns[(3 : PatNo)]).state = .loading ∧
    (laid.patterns[(0 : PatNo)]).state ≠ .loading ∧ waiting.takes 0 ∧ (waiting.notices[(1 : Port)]).pending ≠ 0 := by
  decide +kernel

theorem witness_StatusAndPlacementReadsReply_starting : State.reset.condition = .starting ∧ ready.condition ≠ .starting := by
  decide +kernel

theorem witness_StatusAndPlacementReadsReply : (State.reset.ports[(3 : Port)]).owed = none ∧ laid.takes 3 ∧
    u8 [0] 0 = (0 : SlotNo).val ∧ laid.slots[(0 : SlotNo)] = some record ∧ u8 [255] 0 = (255 : SlotNo).val ∧
    laid.slots[(255 : SlotNo)] = none := by decide +kernel

theorem witness_MapReadReplies_refused : laid.takes 0 ∧ 1 < u8 [2, 0, 0, 0, 0, 1] 0 ∧
    u8 [1, 0, 0, 0, 0, 1] 0 = (1 : Ctx).val ∧ (laid.ctxs[(1 : Ctx)]).state = .empty ∧
    (laid.ctxs[(0 : Ctx)]).height ≤ u16 [0, 2, 0, 0, 0, 1] 1 ∧ (laid.ctxs[(0 : Ctx)]).width ≤ u16 [0, 0, 0, 8, 0, 1] 3 ∧
    u8 [0, 0, 0, 0, 0, 0] 5 = 0 ∧ 48 < u8 [0, 0, 0, 0, 0, 49] 5 := by decide +kernel

theorem witness_MapReadReplies_read : laid.takes 1 ∧ u8 [0, 1, 0, 7, 0, 48] 0 = (0 : Ctx).val ∧
    (laid.ctxs[(0 : Ctx)]).state ≠ .empty ∧ u16 [0, 1, 0, 7, 0, 48] 1 < (laid.ctxs[(0 : Ctx)]).height ∧
    u16 [0, 1, 0, 7, 0, 48] 3 < (laid.ctxs[(0 : Ctx)]).width ∧ 1 ≤ u8 [0, 1, 0, 7, 0, 48] 5 ∧
    u8 [0, 1, 0, 7, 0, 48] 5 ≤ 48 := by decide +kernel

theorem witness_HideLibraryAndDemandReadsReply_hide : u8 [0, 0, 0] 0 = (0 : Ctx).val ∧ (applying.ctxs[(0 : Ctx)]).state ≠ .empty ∧
    applying.takes 0 ∧ applying.takes 1 ∧ u16 [0, 0, 0] 1 < 512 ∧
    (applying.flaws[(0 : Ctx)])[u16 [0, 0, 0] 1]? = some flaw := by decide +kernel

theorem witness_HideLibraryAndDemandReadsReply_library : laid.takes 0 ∧ (laid.patterns[(1 : PatNo)]).state = .empty ∧
    (laid.patterns[(0 : PatNo)]).state ≠ .empty ∧ (laid.patterns[(0 : PatNo)]).mask.length ≤ u8 [0, 1, 1] 2 ∧
    u8 [0, 1, 0] 2 < (laid.patterns[(0 : PatNo)]).mask.length := by decide +kernel

theorem witness_HideLibraryAndDemandReadsReply_refused : laid.takes 1 ∧ laid.takes 0 ∧ 1 < u8 [2] 0 ∧ 1 < u8 [2, 0, 0] 0 ∧
    u8 [1] 0 = (1 : Ctx).val ∧ (laid.ctxs[(1 : Ctx)]).state = .empty ∧ 511 < u16 [0, 0, 2] 1 ∧ u16 [0, 255, 1] 1 ≤ 511 ∧
    (laid.flaws[(0 : Ctx)]).length ≤ u16 [0, 255, 1] 1 ∧ 127 < u8 [128, 0, 0] 0 ∧ 1 < u8 [127, 2, 0] 1 ∧
    (loading.patterns[(3 : PatNo)]).state = .loading ∧ (∀ m : PatNo, m < 3 → (loading.patterns[m]).state ≠ .loading) ∧
    (∀ n : PatNo, (laid.patterns[n]).state ≠ .loading) := by decide +kernel

theorem witness_HideLibraryAndDemandReadsReply_demand : laid.takes 0 ∧ laid.entry? 0 = some order ∧ laid.entry? 63 = none ∧
    u8 [63] 0 = (63 : Tag).val ∧ u8 [64] 0 = 64 ∧ 64 < u8 [65] 0 := by decide +kernel

theorem witness_NoticeClearAndHoldoff : waiting.takes 1 ∧ flagSet [64, 0] 0 &&& ~~~(portFlags 1) ≠ 0 ∧
    flagSet [63, 0] 0 &&& ~~~(portFlags 1) = 0 ∧
    ((run (.noticeClear 1 [63, 0]) waiting).notices[(1 : Port)]).calling = 0 ∧
    ((run (.noticeClear 1 [2, 0]) waiting).notices[(1 : Port)]).calling ≠ 0 ∧
    (waiting.notices[(1 : Port)]).timer = .running 200 := by decide +kernel

theorem witness_NoticeSetupJudgesAgain : waiting.takes 1 ∧ 15 < u8 [0, 0, 0, 16] 3 ∧
    flagSet [0, 16, 0, 0] 0 &&& ~~~(portFlags 0) = 0 ∧ flagSet [0, 32, 0, 0] 0 &&& ~~~(portFlags 0) ≠ 0 ∧
    ((run (.noticeSetup 1 [0, 0, 2, 15]) waiting).notices[(1 : Port)]).calling = 0 ∧
    ((run (.noticeSetup 1 [1, 0, 2, 15]) waiting).notices[(1 : Port)]).calling ≠ 0 ∧
    (waiting.notices[(1 : Port)]).timer = .running 200 := by decide +kernel

/-- A unit of the marking port with a holdoff of 2 and a threshold of 15, in a count and timer of one's choice. -/
def unit (enabled pending : FlagSet) (count : Nat) (timer : HoldoffTimer) : NoticeUnit :=
  { NoticeUnit.reset with enabled := enabled, pending := pending, count := count, holdoff := 2, threshold := 15, timer := timer }

theorem witness_SettingEventsAndWorkAvailable :
    (unit 2 0 0 .idle).set 1 1 = unit 2 1 0 .idle ∧ (unit 1 0 0 .idle).set 1 1 = unit 1 1 1 (.running 0) ∧
    (unit 3 2 4 (.running 7)).set 1 1 = unit 3 3 5 (.running 7) ∧
    (unit 3 2 14 (.running 7)).set 1 1 = { unit 3 3 15 (.running 7) with attention := true } ∧
    (unit 3 2 15 (.running 7)).set 1 1 = { unit 3 3 15 (.running 7) with attention := true } ∧
    ({ unit 1 0 0 .idle with holdoff := 0 }).set 1 1 = { unit 1 1 1 .expired with holdoff := 0, attention := true } := by
  decide +kernel

/-- The placement lies on the hide on the belt; both heads are OFFLINE. -/
def unattended : State := { laid with heads := ready.heads }

theorem witness_SettingEventsAndWorkAvailable_rises : isOneEvent (.headOnline 2 []) = true ∧
    unattended.workAvailable 0 = false ∧ (run (.headOnline 2 []) unattended).workAvailable 0 = true := by decide +kernel

theorem witness_GradeRunsWriteBaseGrades : laid.takes 1 ∧ Kind.gradeRuns.lengthOk [0, 1, 0, 0, 0, 0, 115] = true ∧
    u8 [0, 1, 0, 0, 0, 0, 115] 0 = (0 : Ctx).val ∧ (laid.ctxs[(0 : Ctx)]).state = .opened ∧
    u16 [0, 1, 0, 0, 0, 0, 115] 1 < (laid.ctxs[(0 : Ctx)]).height ∧
    (∀ r ∈ runsOf [0, 1, 0, 0, 0, 0, 115], r.bad = false) ∧ runsOf [0, 1, 0, 0, 0, 0, 115] = [⟨0, 768, 7⟩] ∧
    laid.planesWf ∧ laid.hidesWf := by decide +kernel

theorem witness_GradeRunsWriteBaseGrades_falls : ∀ st ∈ [PlacementState.claimed, .cutting, .cut, .spoiled],
    (heldIn st).takes 1 ∧ (heldIn st).planesWf ∧ (heldIn st).hidesWf ∧
    ((heldIn st).slots[(0 : SlotNo)]).map (fun r => r.state) = some st ∧
    ∃ x, x < ((heldIn st).ctxs[(0 : Ctx)]).width ∧ ((heldIn st).cell 0 x 0).occupant = some 0 ∧
      ((run (.gradeRuns 1 [0, 0, 0, 0, 0, 8, 0]) (heldIn st)).cell 0 x 0).effective < ((heldIn st).cell 0 x 0).effective ∧
      ((run (.gradeRuns 1 [0, 0, 0, 0, 0, 8, 0]) (heldIn st)).cell 0 x 0).meets
        ((heldIn st).requiredAt { record with state := st, head := some 0 } x 0) = false := by decide +kernel

theorem witness_GradeRunsWriteBaseGrades_rises :
    (∃ x, x < (laid.ctxs[(0 : Ctx)]).width ∧
      (laid.cell 0 x 1).effective < ((run (.gradeRuns 1 [0, 1, 0, 0, 0, 0, 115]) laid).cell 0 x 1).effective) ∧
    Kind.gradeRuns.lengthOk [0, 1, 0] = true ∧ (run (.gradeRuns 1 [0, 1, 0]) laid).slots = laid.slots ∧
    (∀ x, x < (laid.ctxs[(0 : Ctx)]).width →
      ((run (.gradeRuns 1 [0, 1, 0]) laid).cell 0 x 1).effective ≤ (laid.cell 0 x 1).effective) := by decide +kernel

theorem witness_FlawAddAndWithdraw_add : laid.takes 1 ∧ Kind.flawAdd.lengthOk [0, 15, 7, 1, 0, 255, 255, 0, 0, 63] = true ∧
    (laid.ctxs[(0 : Ctx)]).state = .opened ∧
    declared? [0, 15, 7, 1, 0, 255, 255, 0, 0, 63] = some ⟨15, 7, .operator, .disc (-1) 0 63, .pending, none⟩ ∧
    (laid.flaws[(0 : Ctx)]).length < 512 := by decide +kernel

theorem witness_FlawAddAndWithdraw_length :
    Kind.flawAdd.lengthOk [0, 15, 7, 1, 1, 0, 0, 0, 0, 0, 0, 0, 0] = true ∧
    Kind.flawAdd.lengthOk [0, 15, 7, 1, 2, 15, 1, 0, 0, 0, 0] = true ∧ u8 [0, 15, 7, 1, 2, 15, 1, 0, 0, 0, 0] 6 = 1 ∧
    Kind.flawAdd.lengthOk [0, 15, 7, 1, 0, 0, 0] = false ∧ s16 [255, 127] 0 = 32767 ∧ s16 [0, 128] 0 = -32768 := by
  decide +kernel

theorem witness_FlawAddAndWithdraw_declared :
    declared? [0, 15, 7, 1, 1, 255, 255, 0, 0, 1, 0, 2, 0] =
      some ⟨15, 7, .operator, .box (-1) 0 1 2, .pending, none⟩ ∧
    declared? [0, 0, 1, 0, 2, 15, 2, 0, 0, 0, 0, 5, 0, 2, 0] =
      some ⟨0, 1, .scanner, .stroke [(0, 0), (5, 2)] 15, .pending, none⟩ ∧
    ∀ pl ∈ [[(0 : Byte), 16, 7, 1, 0, 0, 0, 0, 0, 0], [0, 15, 0, 1, 0, 0, 0, 0, 0, 0], [0, 15, 8, 1, 0, 0, 0, 0, 0, 0],
      [0, 15, 7, 2, 0, 0, 0, 0, 0, 0], [0, 15, 7, 1, 3, 0, 0, 0, 0, 0], [0, 15, 7, 1, 0, 0, 0, 0, 0, 64],
      [0, 15, 7, 1, 2, 15, 0], [0, 15, 7, 1, 2, 15, 17], [0, 15, 7, 1, 2, 16, 1, 0, 0, 0, 0]],
      declared? pl = none := by decide +kernel

/-- The hide's flaw list at its bound. -/
def fullOfFlaws : State := { laid with flaws := laid.flaws.set 0 (List.replicate 512 flaw) }

theorem witness_FlawAddAndWithdraw_refused : laid.takes 1 ∧ 1 < u8 [2, 0, 0] 0 ∧ (laid.ctxs[(1 : Ctx)]).state = .empty ∧
    fullOfFlaws.takes 1 ∧ (fullOfFlaws.ctxs[(0 : Ctx)]).state = .opened ∧ 512 ≤ (fullOfFlaws.flaws[(0 : Ctx)]).length ∧
    511 < u16 [0, 0, 2] 1 ∧ u16 [0, 0, 0] 1 ≤ 511 ∧ (laid.flaws[(0 : Ctx)]).length ≤ u16 [0, 0, 0] 1 := by decide +kernel

/-- The hide on the belt, with a first rule that ignores every flaw. -/
def ignoring : State :=
  { laid with rules := laid.rules.set 0 { RuleEntry.reset with valid := true, action := ⟨none, none, none, none, true⟩ } }

theorem witness_FlawAddAndWithdraw_start : laid.inFlight = none ∧ laid.jobs = [] ∧ applying.inFlight ≠ none ∧
    applying.takes 1 ∧ (applying.flaws[(0 : Ctx)]).length < 512 ∧ ignoring.takes 1 ∧ ignoring.inFlight = none ∧
    ((run (.flawAdd 1 [0, 1, 1, 0, 0, 1, 0, 0, 0, 0]) laid).flaws[(0 : Ctx)]).map (fun f => f.state) = [.pending] ∧
    ((run (.flawAdd 1 [0, 1, 1, 0, 0, 1, 0, 0, 0, 0]) ignoring).flaws[(0 : Ctx)]).map (fun f => f.state) = [.ignored] := by
  decide +kernel

theorem witness_FlawAddAndWithdraw_withdraw : applying.takes 1 ∧ u8 [0, 0, 0] 0 = (0 : Ctx).val ∧
    (applying.ctxs[(0 : Ctx)]).state = .opened ∧ u16 [0, 0, 0] 1 < 512 ∧
    (applying.flaws[(0 : Ctx)])[u16 [0, 0, 0] 1]? = some flaw ∧ flaw.state = .pending ∧
    (withdrawing.flaws[(0 : Ctx)])[u16 [0, 0, 0] 1]? = some { flaw with state := .withdrawing } := by decide +kernel

theorem witness_FlawAddAndWithdraw_applied :
    (((run .applyJobCompletion applying).flaws[(0 : Ctx)])[u16 [0, 0, 0] 1]?).map (fun f => f.state) = some .applied ∧
    { kind := .apply, ctx := 0, flaw := u16 [0, 0, 0] 1 } ∉ (run .applyJobCompletion applying).jobs := by decide +kernel

theorem witness_ApplyJobWritesFlaw : applying.inFlight = some { kind := .apply, ctx := 0, flaw := 0 } ∧
    (applying.flaws[(0 : Ctx)])[0]? = some flaw ∧ flaw.classified = some { cls := 3, margin := 1, cap := some 4, extent := 1, area := 1 } ∧
    { kind := .apply, ctx := 0, flaw := 0 } ∉ applying.jobs ∧ applying.planesWf ∧ applying.hidesWf := by decide +kernel

/-- The APPLY job is in flight while head 1 holds the placement in a state of its own choice. -/
def applyingIn (st : PlacementState) : State :=
  { heldIn st with flaws := laid.flaws.set 0 [flaw], inFlight := some { kind := .apply, ctx := 0, flaw := 0 } }

theorem witness_ApplyJobWritesFlaw_falls : ∀ st ∈ [PlacementState.placed, .claimed, .cutting, .cut, .missed],
    (applyingIn st).inFlight = some { kind := .apply, ctx := 0, flaw := 0 } ∧ (applyingIn st).planesWf ∧
    (applyingIn st).hidesWf ∧ ((applyingIn st).slots[(0 : SlotNo)]).map (fun r => r.state) = some st ∧
    ((applyingIn st).cell 0 1 0).occupant = some 0 ∧
    ((run .applyJobCompletion (applyingIn st)).cell 0 1 0).effective < ((applyingIn st).cell 0 1 0).effective ∧
    ((run .applyJobCompletion (applyingIn st)).cell 0 1 0).meets
      ((applyingIn st).requiredAt { record with state := st, head := some 0 } 1 0) = false := by decide +kernel

theorem witness_WithdrawJobRecomputes : withdrawing.inFlight = some { kind := .withdraw, ctx := 0, flaw := 0 } ∧
    (withdrawing.flaws[(0 : Ctx)])[0]? = some { flaw with state := .withdrawing } ∧
    { kind := .apply, ctx := 0, flaw := 0 } ∉ withdrawing.jobs ∧ withdrawing.planesWf ∧ withdrawing.hidesWf := by
  decide +kernel

theorem witness_WithdrawJobRecomputes_rectangle :
    (∀ hw, flaw.shape ≠ .stroke [] hw) ∧ (3, 1) ∈ (Shape.box 2 1 1 0).rectangle 1 4 2 ∧
    (3, 1) ∉ (Shape.disc 1 0 0).rectangle 1 4 2 := by
  refine ⟨fun hw h => (by cases h), ?_, ?_⟩ <;> decide +kernel

theorem witness_FootprintsMarginsAndExtent_stroke :
    (∀ c ∈ [((0 : Int), (0 : Int)), (1, 0), (2, 1), (3, 1), (4, 2), (5, 2)],
      (Shape.stroke [(0, 0), (5, 2)] 0).covers c.1 c.2 = true) ∧
    (∀ c ∈ [((0 : Int), (1 : Int)), (1, 1), (2, 0), (3, 2), (4, 1), (5, 1), (6, 2)],
      (Shape.stroke [(0, 0), (5, 2)] 0).covers c.1 c.2 = false) ∧
    (Shape.stroke [(3, 3)] 1).covers 4 2 = true ∧ (Shape.stroke [(3, 3)] 1).covers 5 3 = false ∧
    (Shape.disc 0 0 1).reaches 1 2 1 = true ∧ (Shape.disc 0 0 1).reaches 1 2 2 = false := by decide +kernel

theorem witness_FootprintsMarginsAndExtent_extent : (∀ c ∈ [(1, 1), (2, 1), (4, 2)], 1 ≤ c.1 ∧ c.1 ≤ 4 ∧ 1 ≤ c.2 ∧ c.2 ≤ 2) ∧
    (∃ c ∈ [(1, 1), (2, 1), (4, 2)], c.1 = 1) ∧ (∃ c ∈ [(1, 1), (2, 1), (4, 2)], c.1 = 4) ∧
    (∃ c ∈ [(1, 1), (2, 1), (4, 2)], c.2 = 1) ∧ (∃ c ∈ [(1, 1), (2, 1), (4, 2)], c.2 = 2) ∧
    extentOf [(1, 1), (2, 1), (4, 2)] = 4 := by decide +kernel

theorem witness_LookupResolvesPartByPart_none : ∀ r ∈ [RuleEntry.reset], r.fits .first
    { link := 0, category := 0, ladder := 0, source := 0, shape := 0, anchor := 0, ranges := 0 } = false := by decide

/-- A rule that matches every key of its pass. -/
def rule (p : Pass) (link : Option (Fin 128)) : RuleEntry :=
  { RuleEntry.reset with valid := true, pass := p, action := ⟨some 4, none, none, link, false⟩ }

theorem witness_LookupResolvesPartByPart_hits :
    firstHit [rule .second none, rule .first (some 9)] .first
      { link := 0, category := 0, ladder := 0, source := 0, shape := 0, anchor := 0, ranges := 0 } =
        some (rule .first (some 9)).action ∧
    firstHit [rule .second none, rule .first (some 9)] .second
      { link := 9, category := 0, ladder := 0, source := 0, shape := 0, anchor := 0, ranges := 0 } =
        some (rule .second none).action ∧ (rule .second none).action.next = none := by decide

theorem witness_LookupResolvesPartByPart_one_hit :
    firstHit [rule .first none] .first
      { link := 0, category := 0, ladder := 0, source := 0, shape := 0, anchor := 0, ranges := 0 } =
        some (rule .first none).action ∧ (rule .first none).action.next = none ∧
    firstHit [rule .first (some 9)] .first
      { link := 0, category := 0, ladder := 0, source := 0, shape := 0, anchor := 0, ranges := 0 } =
        some (rule .first (some 9)).action ∧ (rule .first (some 9)).action.next = some 9 ∧
    firstHit [rule .first (some 9)] .second
      { link := 9, category := 0, ladder := 0, source := 0, shape := 0, anchor := 0, ranges := 0 } = none := by decide

theorem witness_RuleWriteAndRead : ready.takes 0 ∧
    (ruleEntry? [127, 1, 1, 127, 127, 15, 15, 127, 127, 1, 1, 3, 3, 7, 7, 255, 255, 7, 7, 7, 127, 1]).isSome = true ∧
    ruleEntry? [127, 1, 2, 0, 0, 0, 0, 0, 0, 0, 0, 0, 0, 0, 0, 0, 0, 0, 0, 0, 0, 0] = none ∧ 128 ≤ u8 [128] 0 := by
  decide +kernel

/-- A RULE WRITE payload with every byte 0 but one. -/
def ruleWith (i : Nat) (v : Byte) : List Byte := (List.replicate 22 0).set i v

theorem witness_RuleWriteAndRead_bounds :
    (∀ w ∈ [(1, (2 : Byte)), (2, 2), (3, 128), (4, 128), (5, 16), (6, 16), (7, 128), (8, 128), (9, 2), (10, 2), (11, 4),
      (12, 4), (13, 8), (14, 8), (17, 8), (18, 254), (19, 8), (20, 128), (21, 2)], ruleEntry? (ruleWith w.1 w.2) = none) ∧
    ∀ w ∈ [(1, (1 : Byte)), (2, 1), (3, 127), (4, 127), (5, 15), (6, 15), (7, 127), (8, 127), (9, 1), (10, 1), (11, 3),
      (12, 3), (13, 7), (14, 7), (15, 255), (16, 255), (17, 7), (18, 255), (19, 7), (20, 127), (21, 1)],
      (ruleEntry? (ruleWith w.1 w.2)).isSome = true := by decide +kernel

theorem witness_RangesAndClassDefaultsReplaced_range : ready.takes 0 ∧ u8 [7, 4, 9, 0, 8, 0] 0 = (7 : Fin 8).val ∧
    u8 [7, 4, 9, 0, 8, 0] 1 = Quantity.disabled.code ∧ 7 < u8 [8, 0, 0, 0, 0, 0] 0 ∧ 4 < u8 [0, 5, 0, 0, 0, 0] 1 := by
  decide +kernel

theorem witness_RangesAndClassDefaultsReplaced_defaults : ready.takes 0 ∧
    (∀ i : Fin 16, u8 ([7, 7, 255] ++ List.replicate 16 127) (3 + i.val) < 128) ∧
    u8 ([7, 7, 255] ++ List.replicate 16 127) 2 = ((none : Option Grade).map fun x => x.val).getD 255 ∧
    7 < u8 ([8, 7, 255] ++ List.replicate 16 127) 0 ∧ 7 < u8 ([7, 8, 255] ++ List.replicate 16 127) 1 ∧
    (7 < u8 ([7, 7, 254] ++ List.replicate 16 127) 2 ∧ u8 ([7, 7, 254] ++ List.replicate 16 127) 2 ≠ 255) ∧
    (∃ i : Fin 16, 127 < u8 ([7, 7, 255] ++ List.replicate 15 127 ++ [128]) (3 + i.val)) := by decide +kernel

theorem witness_LibraryLoads_begin : loading.takes 0 ∧
    (declaredPattern? [0, 96, 64, 15, 7, 255, 7, 255, 7, 255, 255]).map (fun q => (q.w, q.h)) = some (96, 64) ∧
    (loading.endAnyLoad.patterns[(0 : PatNo)]).refs = 0 ∧ 0 < (laid.endAnyLoad.patterns[(0 : PatNo)]).refs ∧
    96 * 64 ≤ loading.endAnyLoad.freeCells + (loading.endAnyLoad.patterns[(0 : PatNo)]).reserved ∧
    ({ ready with freeCells := 0 } : State).endAnyLoad.freeCells +
      (({ ready with freeCells := 0 } : State).endAnyLoad.patterns[(0 : PatNo)]).reserved < 96 * 64 := by decide +kernel

theorem witness_LibraryLoads_range : loading.takes 0 ∧
    (∀ pl ∈ [[(0 : Byte), 0, 1, 0, 1, 0, 1, 0, 1, 0, 1], [0, 97, 1, 0, 1, 0, 1, 0, 1, 0, 1], [0, 1, 0, 0, 1, 0, 1, 0, 1, 0, 1],
      [0, 1, 65, 0, 1, 0, 1, 0, 1, 0, 1], [0, 1, 1, 16, 1, 0, 1, 0, 1, 0, 1], [0, 1, 1, 0, 0, 0, 1, 0, 1, 0, 1],
      [0, 1, 1, 0, 1, 0, 8, 0, 1, 0, 1], [0, 1, 1, 0, 1, 0, 1, 0, 8, 0, 1], [0, 1, 1, 0, 1, 0, 1, 0, 1, 0, 0]],
      declaredPattern? pl = none) ∧
    (declaredPattern? [127, 1, 1, 0, 1, 0, 1, 0, 1, 0, 1]).isSome = true ∧ 127 < u8 [128, 1, 1, 0, 1, 0, 1, 0, 1, 0, 1] 0 ∧
    127 < u8 [128, 0, 0] 0 ∧ 127 < u8 [128] 0 := by decide +kernel

theorem witness_LibraryLoads_ended : (∀ n : PatNo, (laid.patterns[n]).state ≠ .loading) ∧
    (loading.patterns[(3 : PatNo)]).state = .loading ∧ (∀ m : PatNo, m < 3 → (loading.patterns[m]).state ≠ .loading) ∧
    (loading.patterns[(3 : PatNo)]).sized ∧ loading.endedReport = [3, 2, 0] ∧
    ({ run (.libraryRows 0 [3, 0, 5]) loading with ports := ready.ports } : State).endedReport = [3, 1, 1] := by
  refine ⟨by decide +kernel, by decide +kernel, by decide +kernel, ?_, by decide +kernel, by decide +kernel⟩
  unfold Pattern.sized
  decide +kernel

theorem witness_LibraryLoads_rows : loading.takes 0 ∧ (loading.patterns[(3 : PatNo)]).state = .loading ∧
    (loading.patterns[(2 : PatNo)]).state ≠ .loading ∧ (loading.patterns[(3 : PatNo)]).w ≠ 0 ∧
    List.length [(3 : Byte), 0, 5, 5] = 2 + 2 * rowBytes (loading.patterns[(3 : PatNo)]).w ∧
    u8 [3, 0, 5, 5] 1 = (loading.patterns[(3 : PatNo)]).mask.length ∧
    u8 [3, 1, 5, 5] 1 ≠ (loading.patterns[(3 : PatNo)]).mask.length ∧
    (loading.patterns[(3 : PatNo)]).mask.length + 2 ≤ (loading.patterns[(3 : PatNo)]).h := by decide +kernel

theorem witness_LibraryLoads_length :
    ∀ m, 1 ≤ m → (List.replicate 3 (0 : Byte)).length ≠
      2 + m * rowBytes ({ Pattern.reset with state := .loading, w := 8, h := 2, reserved := 16 } : Pattern).w := by
  intro m hm h
  have e : rowBytes 8 = 2 := by decide
  simp [e] at h
  omega

theorem witness_LibraryLoads_end : loading.takes 0 ∧ (loading.patterns[(3 : PatNo)]).state = .loading ∧
    (loading.patterns[(2 : PatNo)]).state ≠ .loading ∧
    (loading.patterns[(3 : PatNo)]).reserved = (loading.patterns[(3 : PatNo)]).w * (loading.patterns[(3 : PatNo)]).h ∧
    (∀ row ∈ (loading.patterns[(3 : PatNo)]).mask, ∀ c ∈ row, c = .outside) ∧
    (∃ row ∈ ((run (.libraryRows 0 [3, 0, 5]) loading).patterns[(3 : PatNo)]).mask, ∃ c ∈ row, c ≠ .outside) := by
  decide +kernel

theorem witness_LibraryDropEmpties : laid.takes 0 ∧ 127 < u8 [128] 0 ∧ (laid.patterns[(127 : PatNo)]).state = .empty ∧
    (loading.patterns[(3 : PatNo)]).state = .loading ∧ (laid.patterns[(0 : PatNo)]).state = .ready ∧
    0 < (laid.patterns[(0 : PatNo)]).refs ∧
    ((run (.partReset 0 []) laid).patterns[(0 : PatNo)]).state = .ready ∧
    ((run (.partReset 0 []) laid).patterns[(0 : PatNo)]).refs = 0 := by decide +kernel

theorem witness_DemandPostEnters : laid.takes 0 ∧ u8 [0, 2, 255, 1] 0 = (0 : PatNo).val ∧ u8 [0, 2, 255, 1] 1 = Hand.any.code ∧
    1 ≤ u8 [0, 2, 255, 1] 2 ∧ u8 [0, 2, 255, 1] 3 ≤ 1 ∧ (laid.patterns[(0 : PatNo)]).state = .ready ∧
    (laid.patterns[(0 : PatNo)]).orients &&& Hand.any.orients ≠ 0 ∧ laid.entries.length < 64 ∧ laid.entry? 1 = none ∧
    (∀ u : Tag, u < 1 → laid.entry? u ≠ none) := by decide +kernel

theorem witness_DemandCancelWithdraws : laid.takes 0 ∧ laid.entry? 0 = some order ∧ order.state ≠ .cancelled ∧
    laid.slots[(0 : SlotNo)] = some record ∧ record.tag = 0 ∧ record.state = .placed ∧ laid.planesWf ∧
    ({ laid with entries := [{ order with state := .cancelled }] } : State).entry? 0 =
      some { order with state := .cancelled } := by decide +kernel

theorem witness_SetWeightsWrites : laid.takes 0 ∧ (laid.ports[(0 : Port)]).owed = none ∧
    ({ ready with condition := .failed } : State).condition = .failed := by decide +kernel

theorem witness_ScanKeepsLowestEarliest :
    tryAll (searching.hideMap 0) (searchOf 0 0 none).samples none [candidate] = some { cand := candidate, score := 16 } ∧
    tryAll (searching.hideMap 0) (searchOf 0 0 none).samples none [] = none ∧
    (searchOf 0 0 none).samples.orients.Pairwise (fun a b => a < b) := by decide +kernel

theorem witness_SearchCompletionWithoutCommit_none :
    ({ searching with planes := Vector.replicate 2 [] } : State).searchUnit = .searching (searchOf 0 0 none) ∧
    ({ searching with planes := Vector.replicate 2 [] } : State).finalBest (searchOf 0 0 none) = none := by decide +kernel

theorem witness_SearchCompletionWithoutCommit_stall :
    ({ searching with slots := Vector.replicate 256 (some record) } : State).finalBest (searchOf 0 0 none) =
      some { cand := candidate, score := 16 } ∧
    ({ searching with slots := Vector.replicate 256 (some record) } : State).reverifies (searchOf 0 0 none) candidate = true ∧
    ({ searching with slots := Vector.replicate 256 (some record) } : State).allocate = none := by decide +kernel

theorem witness_SearchCompletionWithoutCommit_retry :
    (∀ r ∈ [0, 1, 2], (searching.finalBest (searchOf r 1 (some { cand := { candidate with x := 7 }, score := 0 }))) =
      some { cand := { candidate with x := 7 }, score := 0 }) ∧
    searching.reverifies (searchOf 1 1 none) { candidate with x := 7 } = false ∧
    (searching.entry? 0).isSome = true := by decide +kernel

theorem witness_SearchCommits : searching.searchUnit = .searching (searchOf 0 0 none) ∧
    searching.finalBest (searchOf 0 0 none) = some { cand := candidate, score := 16 } ∧
    searching.reverifies (searchOf 0 0 none) candidate = true ∧ (∀ m : SlotNo, m < 0 → searching.slots[m] ≠ none) ∧
    searching.slots[(0 : SlotNo)] = none ∧ searching.planesWf ∧ searching.hidesWf := by decide +kernel

/-- A search that finds none, beside some further entries, on a hide marked to a column of one's choice. -/
def failing (more : List Entry) (m : Nat) : State :=
  { searching with planes := Vector.replicate 2 [], entries := searching.entries ++ more,
                   ctxs := searching.ctxs.set 0 { hide with frontier := m } }

theorem witness_SelectionTakesFirstPair : ∀ more ∈ [[], [{ order with tag := 1, live := 0, holders := 0 }]], ∀ m ∈ [0, 8],
    (failing more m).searchUnit = .searching (searchOf 0 0 none) ∧ (failing more m).finalBest (searchOf 0 0 none) = none ∧
    ((failing more m).entries.map fun e => e.tag).Nodup := by decide +kernel

theorem witness_SelectionTakesFirstPair_next :
    (run .searchCompletion (failing [{ order with tag := 1, live := 0, holders := 0 }] 8)).canSearch
      { order with tag := 1, live := 0, holders := 0 } 0 ∧
    ¬ (run .searchCompletion (failing [{ order with tag := 1, live := 0, holders := 0 }] 8)).canSearch
      { order with live := 0, holders := 0 } 0 := by
  simp only [State.canSearch]
  decide +kernel

theorem witness_SelectionTakesFirstPair_last :
    (run .searchCompletion (failing [] 8)).windowShort = false ∧
    (run .searchCompletion (failing [{ order with tag := 1, live := 0, holders := 0 }] 0)).windowShort = true ∧
    (failing [] 8).windowShort = false ∧
    ∀ e ∈ (failing [{ order with tag := 1, live := 0, holders := 0 }] 0).entries, ∀ k,
      ¬ (run .searchCompletion (failing [{ order with tag := 1, live := 0, holders := 0 }] 0)).canSearch e k := by
  simp only [State.canSearch]
  decide +kernel

/-- The search above with no FREE slot and slot 7 at the front of the withdrawn list, its record of a given tag; the
second entry is in a given state with a given number of holders. -/
def crowded (u : Tag) (st : EntryState) (n : Nat) : State :=
  { searching with slots := Vector.replicate 256 (some { record with state := .withdrawn, tag := u, cause := some .request }),
                   withdrawn := [7, 8], entries := searching.entries ++ [{ order with tag := 1, state := st, live := 0, holders := n }] }

theorem witness_SearchCommits_withdrawn : ∀ w ∈ [((0 : Tag), EntryState.opened, 2), (1, .opened, 1), (1, .cancelled, 2), (1, .cancelled, 1)],
    (crowded w.1 w.2.1 w.2.2).searchUnit = .searching (searchOf 0 0 none) ∧
    (crowded w.1 w.2.1 w.2.2).finalBest (searchOf 0 0 none) = some { cand := candidate, score := 16 } ∧
    (crowded w.1 w.2.1 w.2.2).reverifies (searchOf 0 0 none) candidate = true ∧ (crowded w.1 w.2.1 w.2.2).planesWf ∧
    (crowded w.1 w.2.1 w.2.2).hidesWf ∧ (∀ m : SlotNo, (crowded w.1 w.2.1 w.2.2).slots[m] ≠ none) ∧
    (crowded w.1 w.2.1 w.2.2).withdrawn = 7 :: [8] ∧
    ((crowded w.1 w.2.1 w.2.2).slots[(7 : SlotNo)]).map (fun r => r.tag) = some w.1 ∧
    ((crowded w.1 w.2.1 w.2.2).entry? 1).map (fun e => (e.state, e.holders)) = some w.2 := by decide +kernel

theorem witness_PlacementWithdrawGivesUp : laid.takes 0 ∧ laid.slots[(0 : SlotNo)] = some record ∧
    u8 [0, 0, 0, 0] 1 = record.ctx.val ∧ BitVec.ofNat 16 (u16 [0, 0, 0, 0] 2) = record.commitNo ∧ record.state = .placed ∧
    laid.planesWf ∧ ((heldIn .cutting).slots[(0 : SlotNo)]).map (fun r => r.state) = some .cutting ∧
    ((heldIn .claimed).slots[(0 : SlotNo)]).map (fun r => (r.state, r.head)) = some (.claimed, some 0) := by decide +kernel

theorem witness_HideOpenMarkFrontierAndDrain_open : ready.takes 1 ∧ u8 [0, 3, 0, 2, 15] 4 = (15 : Fin 16).val ∧
    u16 [0, 3, 0, 2, 15] 0 = 768 ∧ u16 [0, 3, 0, 2, 15] 2 = 512 ∧ (ready.ctxs[(0 : Ctx)]).state = .empty ∧
    (opened.ctxs[(0 : Ctx)]).state ≠ .empty ∧ (opened.ctxs[(1 : Ctx)]).state = .empty ∧ opened.takes 1 ∧
    (opened.ctxs[(0 : Ctx)]).state = .opened := by decide +kernel

theorem witness_HideOpenMarkFrontierAndDrain_drain : laid.takes 0 ∧ (laid.ctxs[(1 : Ctx)]).state = .empty ∧
    (laid.ctxs[(0 : Ctx)]).state = .opened ∧ (opened.ctxs[(0 : Ctx)]).state = .opened ∧ opened.liveCount 0 = 0 ∧
    (∀ f ∈ opened.flaws[(0 : Ctx)], f.state.due = false) ∧
    ((run (.hideDrain 0 [0]) laid).ctxs[(0 : Ctx)]).state = .draining := by decide +kernel

theorem witness_HideAbortAndRelease_abort : (heldIn .cutting).takes 0 ∧ ((heldIn .cutting).ctxs[(0 : Ctx)]).state = .opened ∧
    laid.takes 0 ∧ (laid.ctxs[(0 : Ctx)]).state = .opened ∧ laid.planesWf := by decide +kernel

/-- A hide that an abort has closed. -/
def closed : State := { run (.hideAbort 0 [0]) laid with ports := laid.ports }

theorem witness_HideAbortAndRelease_release : closed.takes 0 ∧ (closed.ctxs[(0 : Ctx)]).state = .closed ∧
    (laid.ctxs[(0 : Ctx)]).state ≠ .closed := by decide +kernel

theorem witness_SetConveyorReplaces : ready.takes 0 ∧
    (conveyor? [0, 32, 3, 150, 0, 200, 0, 44, 1, 200, 0, 16, 10, 50]).isSome = true ∧
    conveyor? [0, 0, 3, 150, 0, 200, 0, 44, 1, 200, 0, 16, 10, 50] = none ∧ (laid.ctxs[(0 : Ctx)]).registered = true ∧
    (∀ k : Ctx, (ready.ctxs[k]).registered = false) := by decide +kernel

theorem witness_SetConveyorReplaces_bounds :
    (∀ pl ∈ [[(1 : Byte), 0, 4, 0, 0, 1, 0, 0, 0, 1, 0, 0, 0, 0], [1, 0, 0, 0, 16, 1, 0, 0, 0, 1, 0, 0, 0, 0],
      [1, 0, 0, 0, 0, 0, 0, 0, 0, 1, 0, 0, 0, 0], [1, 0, 0, 0, 0, 1, 4, 0, 0, 1, 0, 0, 0, 0],
      [1, 0, 0, 0, 0, 1, 0, 0, 16, 1, 0, 0, 0, 0], [1, 0, 0, 0, 0, 1, 0, 0, 0, 0, 0, 0, 0, 0],
      [1, 0, 0, 0, 0, 1, 0, 0, 0, 1, 4, 0, 0, 0]], conveyor? pl = none) ∧
    ∀ pl ∈ [[(1 : Byte), 0, 0, 0, 0, 1, 0, 0, 0, 1, 0, 0, 0, 0], [255, 255, 3, 255, 15, 0, 4, 255, 15, 0, 4, 255, 255, 255]],
      (conveyor? pl).isSome = true := by decide +kernel

theorem witness_EncoderTransitionCounts : true ≠ laid.encA ∧ (laid.ctxs[(0 : Ctx)]).registered = true ∧
    (laid.ctxs[(1 : Ctx)]).registered = false ∧ (∀ k : Ctx, (ready.ctxs[k]).registered = false) := by decide +kernel

/-- The hide at the count before cell travel 401, under a reach of one's choice, head 1 holding the placement. -/
def moving (st : PlacementState) (start length : Nat) : State :=
  { heldIn st with
    ctxs := laid.ctxs.set 0 { hideOnBelt with count := 3207 },
    conveyor := { belt with reach := #v[{ present := true, start := start, length := length }, { present := false, start := 0, length := 1 }] } }

theorem witness_TravelChangeTakesItsConsequences :
    ∀ w ∈ [(PlacementState.claimed, 390, 200), (.claimed, 395, 5), (.claimed, 401, 1), (.cutting, 390, 200), (.cutting, 401, 1)],
    (moving w.1 w.2.1 w.2.2).travel 0 = 400 ∧ (run (.encoderTransition true false) (moving w.1 w.2.1 w.2.2)).travel 0 = 401 ∧
    (moving w.1 w.2.1 w.2.2).travel 1 = (run (.encoderTransition true false) (moving w.1 w.2.1 w.2.2)).travel 1 ∧
    ((moving w.1 w.2.1 w.2.2).heads[(0 : Head)]).held.length = 1 ∧
    ((run (.encoderTransition true false) (moving w.1 w.2.1 w.2.2)).fullyReaches 0 record = decide (w.2.1 = 390)) ∧
    ((run (.encoderTransition true false) (moving w.1 w.2.1 w.2.2)).passedAll 0 record.xlo = decide (w.2.1 = 395)) := by
  decide +kernel

theorem witness_TravelChangeTakesItsConsequences_window :
    ((run (.encoderTransition true false) (moving .claimed 390 200)).floor 0 = 20) ∧
    ((run (.encoderTransition true false) (moving .claimed 402 1)).floor 0 = 8) ∧
    ((run (.encoderTransition true false) (moving .claimed 403 1)).floor 0 = 7) ∧
    ((moving .claimed 403 1).ctxs[(0 : Ctx)]).width = 8 ∧ ((moving .claimed 403 1).ctxs[(0 : Ctx)]).state = .opened ∧
    (moving .placed 395 5).slots[(0 : SlotNo)] = some { record with head := some 0 } := by decide +kernel

/-- Both heads reach the hide and hold pieces that lie within the separation, in states and orders of one's choice. -/
def meeting (a b : PlacementState) (g : Nat) : State :=
  { moving a 390 200 with
    slots := (laid.slots.set 0 (some { record with state := a, head := some 0 })).set 1
      (some { record with xlo := 4, state := b, head := some 1 }),
    conveyor := { belt with reach := #v[{ present := true, start := 390, length := 200 }, { present := true, start := 390, length := 200 }] },
    heads := #v[{ HeadChannel.reset with state := .ready, held := [{ slot := 0, grantOrder := g, startOrder := some g }] },
                { HeadChannel.reset with state := .ready, held := [{ slot := 1, grantOrder := 1, startOrder := some 1 }] }] }

theorem witness_TravelChangeTakesItsConsequences_pair :
    ∀ w ∈ [(PlacementState.claimed, PlacementState.claimed, 0), (.claimed, .claimed, 2), (.cutting, .claimed, 0),
      (.claimed, .cutting, 0), (.cutting, .cutting, 0), (.cutting, .cutting, 2)],
    (meeting w.1 w.2.1 w.2.2).travel 0 ≠ (run (.encoderTransition true false) (meeting w.1 w.2.1 w.2.2)).travel 0 ∧
    (run (.encoderTransition true false) (meeting w.1 w.2.1 w.2.2)).separated record { record with xlo := 4 } = false ∧
    (run (.encoderTransition true false) (meeting w.1 w.2.1 w.2.2)).fullyReaches 0 record = true ∧
    (run (.encoderTransition true false) (meeting w.1 w.2.1 w.2.2)).fullyReaches 1 { record with xlo := 4 } = true := by
  decide +kernel

/-- Both contexts on the belt at the count before the next cell travel, head 1 holding the placement of the first. -/
def twoMoving : State :=
  { heldIn .claimed with
    ctxs := #v[{ hideOnBelt with count := 3207 }, { hideOnBelt with count := 3207, rank := some .second }],
    conveyor := { belt with reach := #v[{ present := true, start := 401, length := 1 }, { present := false, start := 0, length := 1 }] } }

/-- A hide edge about to register the hide, whose map is no wider than the guard. -/
def registering (debounce : Nat) (candidate : Option LevelCandidate) (pin : Bool) : State :=
  { edge .hideEdge true with
    conveyor := { Conveyor.reset with reach := #v[{ present := true, start := 0, length := 1 }, { present := false, start := 0, length := 1 }] },
    lines := opened.lines.set 0 { Line.powerUp false with debounce := debounce, function := .hideEdge, pin := pin, work := .input false candidate } }

theorem witness_TravelFloorReachAndSeparation : (laid.ctxs[(0 : Ctx)]).registered = true ∧
    (laid.ctxs[(1 : Ctx)]).registered = false ∧ (∀ h : Head, (ready.conveyor.reach[h]).present = false) ∧
    (laid.conveyor.reach[(0 : Head)]).present = true ∧
    (∀ g : Head, (laid.conveyor.reach[g]).present = true →
      (laid.conveyor.reach[(0 : Head)]).start ≤ (laid.conveyor.reach[g]).start) := by decide +kernel

theorem witness_GateSetAndReleased : ready.takes 0 ∧ u8 [31, 32, 0] 0 ≤ 31 ∧ u8 [31, 32, 0] 0 + 1 ≤ u8 [31, 32, 0] 1 ∧
    u8 [31, 32, 0] 1 ≤ 32 ∧ 31 < u8 [32, 32, 0] 0 ∧ u8 [3, 3, 0] 1 < u8 [3, 3, 0] 0 + 1 ∧ 32 < u8 [3, 33, 0] 1 ∧
    holding.takes 0 ∧ holding.gate.holding = true ∧ holding.gate.timer = some { elapsed := 0, limit := 50 } := by
  decide +kernel

theorem witness_GateSetAndReleased_holds : applying.takes 0 ∧ applying.gate.holding = false ∧
    (run (.setGate 0 [31, 32, 5]) applying).gate.holding = true ∧ (run (.setGate 0 [31, 32, 0]) applying).gate.timer = none ∧
    (run (.setGate 0 [0, 32, 5]) applying).gate.holding = false ∧ (run (.setGate 0 [31, 32, 5]) laid).gate.holding = false := by
  decide +kernel

theorem witness_HeadOnlineAndOffline_online : (2 : Port) = headPort 0 ∧ (3 : Port) = headPort 1 ∧ laid.takes 3 ∧
    (laid.heads[(1 : Head)]).interlock = .active ∧
    (({ laid with heads := laid.heads.set 1 { HeadChannel.reset with interlock := .inactive } } : State).heads[(1 : Head)]).interlock =
      .inactive := by decide +kernel

theorem witness_HeadOnlineAndOffline_offline : (heldIn .cutting).takes 2 ∧
    (((heldIn .cutting).heads[(0 : Head)]).held.map fun x => x.slot).Nodup ∧
    ((heldIn .cutting).heads[(0 : Head)]).held.map (fun x => x.slot) = [0] ∧
    ((heldIn .cutting).slots[(0 : SlotNo)]).map (fun r => (r.head, r.state)) = some (some 0, .cutting) ∧
    ((heldIn .claimed).slots[(0 : SlotNo)]).map (fun r => (r.head, r.state)) = some (some 0, .claimed) := by decide +kernel

theorem witness_ClaimGrantsFurthest_refused : laid.takes 3 ∧ (laid.heads[(1 : Head)]).state ≠ .ready ∧
    (laid.heads[(0 : Head)]).state = .ready ∧ (laid.heads[(0 : Head)]).held.length < 2 := by decide +kernel

theorem witness_ClaimGrantsFurthest_granted : laid.slots[(0 : SlotNo)] = some record ∧ laid.eligible 0 record = true ∧
    (∀ (m : SlotNo) (q : Placement), laid.slots[m] = some q → laid.eligible 0 q = true →
      laid.downstream q < laid.downstream record ∨ (laid.downstream q = laid.downstream record ∧ 0 ≤ m)) := by
  refine ⟨by decide +kernel, by decide +kernel, fun m q hq _ => ?_⟩
  by_cases h : m = 0
  · subst h
    have e : laid.slots[(0 : SlotNo)] = some record := by decide +kernel
    rw [e] at hq
    injection hq with hq
    subst hq
    exact Or.inr ⟨rfl, le_refl _⟩
  · have e : ∀ m : SlotNo, m ≠ 0 → laid.slots[m] = none := by decide +kernel
    rw [e m h] at hq
    cases hq

theorem witness_StartCutMovesToFront : (heldIn .claimed).takes 2 ∧ ((heldIn .claimed).heldBy 0 (u8 [0, 0, 0, 0] 0) 0
      (u16 [0, 0, 0, 0] 2)).isSome = true ∧ (heldIn .claimed).isCutting 0 = false ∧ (heldIn .cutting).isCutting 0 = true := by
  decide +kernel

theorem witness_CutDoneEndsCut : ∀ t ∈ [true, false],
    ({ heldIn .cutting with slots := ready.slots.set 0 (some { record with state := .cutting, head := some 0, tainted := t }) } : State).heldBy
      0 (u8 [0, 0, 0, 0] 0) 0 (u16 [0, 0, 0, 0] 2) =
        some ({ slot := 0, grantOrder := 0, startOrder := none }, { record with state := .cutting, head := some 0, tainted := t }) := by
  decide +kernel

theorem witness_CutFailedSpoils : (heldIn .cutting).takes 2 ∧ 1 < u8 [0, 0, 0, 0, 2] 4 ∧
    (heldIn .cutting).heldBy 0 (u8 [0, 0, 0, 0, 1] 0) 0 (u16 [0, 0, 0, 0, 1] 2) =
      some ({ slot := 0, grantOrder := 0, startOrder := none }, { record with state := .cutting, head := some 0 }) ∧
    (((heldIn .cutting).heads[(0 : Head)]).held.map fun y => y.slot).Nodup ∧
    (∀ y ∈ ((heldIn .cutting).heads[(0 : Head)]).held, y.slot = 0) := by decide +kernel

/-- Head 1 is cutting one piece and holds another claim. -/
def cuttingTwo : State :=
  { heldIn .cutting with
    slots := (heldIn .cutting).slots.set 1 (some { record with xlo := 4, state := .claimed, head := some 0 }),
    heads := laid.heads.set 0 { HeadChannel.reset with
      state := .ready, held := [{ slot := 0, grantOrder := 0, startOrder := some 0 }, { slot := 1, grantOrder := 1, startOrder := none }] } }

theorem witness_CutFailedSpoils_two : cuttingTwo.takes 2 ∧
    (cuttingTwo.heldBy 0 (u8 [0, 0, 0, 0, 1] 0) 0 (u16 [0, 0, 0, 0, 1] 2)).map (fun w => w.1.slot) = some 0 ∧
    ((cuttingTwo.heads[(0 : Head)]).held.map fun y => y.slot).Nodup ∧
    (cuttingTwo.slots[(1 : SlotNo)]).map (fun q => (q.head, q.state)) = some (some 0, .claimed) ∧
    u8 [0, 0, 0, 0, 0] 4 = 0 := by decide +kernel

theorem witness_ClaimsGoBack : (heldIn .claimed).heldBy 0 (u8 [0, 0, 0, 0] 0) 0 (u16 [0, 0, 0, 0] 2) =
      some ({ slot := 0, grantOrder := 0, startOrder := none }, { record with state := .claimed, head := some 0 }) ∧
    ((heldIn .claimed).heads[(0 : Head)]).timer = some 0 ∧ (heldIn .claimed).timedSlot 0 = some 0 := by decide +kernel

theorem witness_SetLineConfigures : ready.takes 0 ∧ 5 < u8 [6, 0, 0, 0, 0, 0, 0, 0, 0] 0 ∧
    lineConfig? [0, 2, 0, 0, 0, 0, 0, 0, 0] = none ∧
    (lineConfig? [5, 1, 1, 255, 255, 0, 1, 1, 255]).map (fun c => (c.out, c.source, c.staged)) = some (true, .staged, true) ∧
    (lineConfig? [5, 0, 1, 255, 255, 4, 0, 1, 255]).map (fun c => (c.out, c.function)) = some (false, .interlock 1) ∧
    (driving.lines[(0 : LineNo)]).work.isOut = true ∧ (driving.lines[(1 : LineNo)]).work = .input false none := by
  decide +kernel

theorem witness_SetLineConfigures_kept : (edge .hideEdge true).takes 0 ∧ driving.takes 0 ∧
    (lineConfig? [0, 0, 0, 20, 0, 1, 0, 0, 0]).map (fun c => (c.out, c.invert, c.function)) = some (false, false, .hideEdge) ∧
    ((edge .hideEdge true).lines[(0 : LineNo)]).invert = false ∧ ((edge .hideEdge true).lines[(0 : LineNo)]).debounce = 20 ∧
    (lineConfig? [0, 0, 1, 20, 0, 1, 0, 0, 0]).map (fun c => c.invert) = some true ∧
    (lineConfig? [0, 1, 0, 0, 0, 0, 0, 1, 20]).map (fun c => c.out) = some true ∧
    ((run (.outputHoldEnd 0) (run (.outputHoldEnd 0) driving)).lines[(0 : LineNo)]).work = .output true none := by
  decide +kernel

/-- The hide on the belt, the first line at 0 on its pin with the function of head 1's interlock; head 1 holds the
placement in a state of one's choice. -/
def guarded (st : PlacementState) (work : LineWork) : State :=
  { heldIn st with lines := laid.lines.set 0 { Line.powerUp true with function := .interlock 0, work := work } }

theorem witness_SetLineConfigures_view : ∀ st ∈ [PlacementState.claimed, .cutting],
    (guarded st (.input true none)).takes 0 ∧ ((guarded st (.input true none)).heads[(0 : Head)]).interlock = .active ∧
    ((run (.setLine 0 [0, 0, 1, 0, 0, 3, 0, 0, 0]) (guarded st (.input true none))).heads[(0 : Head)]).interlock = .inactive := by
  decide +kernel

theorem witness_LevelsAreHeld_delivers : ∀ f ∈ [InputFunction.none, .hideEdge, .gateRelease, .interlock 1],
    (({ opened with lines := opened.lines.set 0 { Line.powerUp true with function := f } } : State).lines[(0 : LineNo)]).work =
      .input true none ∧
    (({ opened with lines := opened.lines.set 0 { Line.powerUp true with function := f } } : State).lines[(0 : LineNo)]).debounce = 0 := by
  decide +kernel

theorem witness_LevelsAreHeld_candidate :
    (({ opened with lines := opened.lines.set 0 { Line.powerUp true with debounce := 1 } } : State).lines[(0 : LineNo)]).work =
      .input true none ∧
    0 < (({ opened with lines := opened.lines.set 0 { Line.powerUp true with debounce := 1 } } : State).lines[(0 : LineNo)]).debounce := by
  decide +kernel

theorem witness_LevelsAreHeld : (ready.lines[(0 : LineNo)]).pin ≠ true ∧ (ready.lines[(0 : LineNo)]).work = .input false none ∧
    (ready.lines[(0 : LineNo)]).debounce = 0 ∧ ((edge .none true).lines[(0 : LineNo)]).pin ≠ false ∧
    ((edge .none true).lines[(0 : LineNo)]).work = .input false (some { level := true, elapsed := 20 }) ∧
    0 < ((edge .none true).lines[(0 : LineNo)]).debounce ∧ (driving.lines[(0 : LineNo)]).pin ≠ true ∧
    (driving.lines[(0 : LineNo)]).work = .output false (some { pending := some true, elapsed := 0, width := 20 }) := by
  decide +kernel

theorem witness_DebounceExpiryDelivers : ((edge .hideEdge true).lines[(0 : LineNo)]).work =
      .input false (some { level := true, elapsed := 20 }) ∧ (edge .hideEdge true).registrable = some 0 ∧
    ({ edge .hideEdge true with ctxs := ready.ctxs } : State).registrable = none ∧
    ((edge .gateRelease true).lines[(0 : LineNo)]).function = .gateRelease ∧
    ((edge (.interlock 1) false).lines[(0 : LineNo)]).work = .input true (some { level := false, elapsed := 20 }) := by
  decide +kernel

theorem witness_DebounceExpiryDelivers_edge : (edge .hideEdge true).takesEdge 0 ∧ ¬ (edge .hideEdge true).awaitsEdge 1 ∧
    (∀ k, ¬ ({ edge .hideEdge true with ctxs := ready.ctxs } : State).awaitsEdge k) ∧
    ({ edge .hideEdge true with ctxs := #v[{ hide with rank := some .second }, { hide with state := .draining }] } : State).takesEdge 1 := by
  simp only [State.takesEdge, State.awaitsEdge]
  decide +kernel

theorem witness_DebounceExpiryDelivers_view : ∀ st ∈ [PlacementState.claimed, .cutting],
    ((guarded st (.input true (some { level := false, elapsed := 20 }))).heads[(0 : Head)]).interlock = .active ∧
    ((run (.debounceExpiry 0) (guarded st (.input true (some { level := false, elapsed := 20 })))).heads[(0 : Head)]).interlock =
      .inactive := by decide +kernel

theorem witness_LinkEventsAndCommonChecks_events : (ready.ports[(0 : Port)]).owed = none ∧ kindOf 0x57 = none ∧
    (0x38 : Byte) + BitVec.ofNat 8 1 + [(0 : Byte)].foldl (· + ·) 0 + 0xC6 ≠ 0 ∧ (owing.ports[(0 : Port)]).owed ≠ none ∧
    240 < (241 : Byte).toNat ∧ (0 : Byte) ≠ 0xA5 := by decide +kernel

theorem witness_LinkEventsAndCommonChecks_receiver : (ready.ports[(0 : Port)]).receiver = .hunting ∧
    ((run (.frameByteReceived 0 0xA5) ready).ports[(0 : Port)]).receiver = .kind ∧
    ((run (.frameByteReceived 0 1) (run (.frameByteReceived 0 0xA5) ready)).ports[(0 : Port)]).receiver = .length 1 ∧
    ((run (.frameByteReceived 0 240) (run (.frameByteReceived 0 1) (run (.frameByteReceived 0 0xA5) ready))).ports[(0 : Port)]).receiver =
      .payload 1 240 [] := by decide +kernel

theorem witness_LinkEventsAndCommonChecks_checks : (owing.ports[(0 : Port)]).owed ≠ none ∧ Kind.claim.accepts 0 = false ∧
    Kind.claim.accepts 2 = true ∧ State.reset.condition = .starting ∧ Kind.claim ≠ .partStatus ∧ Kind.claim.isRead = false ∧
    Kind.claim.lengthOk [0] = false := by decide +kernel

theorem witness_StepKeepsQueueLaw : laid.lawQueue := by
  refine ⟨by decide +kernel, ?_⟩
  have e : laid.entries = [order] := rfl
  rw [e]
  exact List.pairwise_singleton _ _

theorem witness_StepKeepsAttentionLaw : waiting.lawAttention := by
  have e : ∀ p : Port, (waiting.notices[p]).attention = true → (waiting.notices[p]).calling ≠ 0 := by decide +kernel
  exact e

theorem witness_StepKeepsStoreLaw : loading.storeWf := by
  refine ⟨fun n => ?_, ?_⟩
  · have e : ∀ n : PatNo, ((loading.patterns[n]).state = .empty → (loading.patterns[n]).reserved = 0) ∧
        ((loading.patterns[n]).state = .loading →
          (loading.patterns[n]).reserved = (loading.patterns[n]).w * (loading.patterns[n]).h ∧
          (loading.patterns[n]).mask.length ≤ (loading.patterns[n]).h) := by decide +kernel
    exact e n
  · have e : loading.freeCells + reservedCells loading.patterns.toList = Config.storeCells := by decide +kernel
    exact e

/-! ### Witnesses: states that the laws hold in -/

theorem exists_of_any {α : Type} {P : α → Prop} [DecidablePred P] {o : Option α} (h : o.any (fun a => decide (P a)) = true) :
    ∃ a, o = some a ∧ P a := by
  cases o with
  | none => cases h
  | some a => exact ⟨a, rfl, of_decide_eq_true h⟩

theorem of_all {α : Type} {P : α → Prop} [DecidablePred P] {o : Option α} (h : o.all (fun a => decide (P a)) = true) {a : α}
    (e : o = some a) : P a := by
  subst e
  exact of_decide_eq_true h

/-- A record of a head's held list, as the fourth law has it. -/
abbrev isHeld (s : State) (h : Head) (p : Placement) : Prop :=
  p.head = some h ∧ (p.state = .claimed ∨ p.state = .cutting) ∧ (s.ctxs[p.ctx]).registered = true ∧
    (s.ctxs[p.ctx]).state.cuttable = true

/-- The fourth law of a concrete state, as a computation. -/
def holdsHeld (s : State) : Bool :=
  (decide (∀ h : Head, (s.heads[h]).held.length ≤ 2 ∧ (s.heldRecords h).countP (fun x => x.2.state = .cutting) ≤ 1 ∧
    ((s.heads[h]).held.map fun x => x.slot).Nodup) &&
  decide (∀ h : Head, ((s.heads[h]).held.all fun x => (s.slots[x.slot]).any fun p => decide (isHeld s h p)) = true)) &&
  s.withdrawn.all fun n => (s.slots[n]).any fun p => decide (p.state = .withdrawn)

theorem heldWf_of_holdsHeld {s : State} (h : holdsHeld s = true) : s.heldWf := by
  unfold holdsHeld at h
  rw [Bool.and_eq_true, Bool.and_eq_true, decide_eq_true_iff, decide_eq_true_iff, List.all_eq_true] at h
  exact ⟨fun g => ⟨(h.1.1 g).1, (h.1.1 g).2.1, fun x hx => exists_of_any (List.all_eq_true.mp (h.1.2 g) x hx)⟩,
    fun g => (h.1.1 g).2.2, fun n hn => exists_of_any (h.2 n hn)⟩

theorem witness_heldWf : laid.heldWf ∧ ∀ st ∈ [PlacementState.claimed, .cutting], (heldIn st).heldWf := by
  have e : holdsHeld laid = true ∧ ∀ st ∈ [PlacementState.claimed, .cutting], holdsHeld (heldIn st) = true := by
    decide +kernel
  exact ⟨heldWf_of_holdsHeld e.1, fun st h => heldWf_of_holdsHeld (e.2 st h)⟩

theorem witness_heldWf_moving :
    ∀ w ∈ [(PlacementState.claimed, 390, 200), (.claimed, 395, 5), (.claimed, 401, 1), (.cutting, 390, 200), (.cutting, 401, 1),
      (.claimed, 402, 1), (.claimed, 403, 1)], (moving w.1 w.2.1 w.2.2).heldWf := by
  have e : ∀ w ∈ [(PlacementState.claimed, 390, 200), (.claimed, 395, 5), (.claimed, 401, 1), (.cutting, 390, 200),
      (.cutting, 401, 1), (.claimed, 402, 1), (.claimed, 403, 1)], holdsHeld (moving w.1 w.2.1 w.2.2) = true := by decide +kernel
  exact fun w h => heldWf_of_holdsHeld (e w h)

theorem witness_heldWf_meeting :
    ∀ w ∈ [(PlacementState.claimed, PlacementState.claimed, 0), (.claimed, .claimed, 2), (.cutting, .claimed, 0),
      (.claimed, .cutting, 0), (.cutting, .cutting, 0), (.cutting, .cutting, 2)], (meeting w.1 w.2.1 w.2.2).heldWf := by
  have e : ∀ w ∈ [(PlacementState.claimed, PlacementState.claimed, 0), (.claimed, .claimed, 2), (.cutting, .claimed, 0),
      (.claimed, .cutting, 0), (.cutting, .cutting, 0), (.cutting, .cutting, 2)],
      holdsHeld (meeting w.1 w.2.1 w.2.2) = true := by decide +kernel
  exact fun w h => heldWf_of_holdsHeld (e w h)

theorem witness_TravelChangeTakesItsConsequences_both : twoMoving.heldWf ∧
    (∀ k : Ctx, twoMoving.travel k ≠ (run (.encoderTransition true false) twoMoving).travel k) ∧
    (run (.encoderTransition true false) twoMoving).fullyReaches 0 record = false := by
  exact ⟨heldWf_of_holdsHeld (by decide +kernel), by decide +kernel, by decide +kernel⟩

theorem witness_TravelChangeTakesItsConsequences_registers :
    ((registering 20 (some ⟨true, 20⟩) true).heldWf ∧ (registering 0 none false).heldWf) ∧
    ((registering 20 (some ⟨true, 20⟩) true).takesEdge 0 ∧ (registering 0 none false).takesEdge 0) ∧
    ((registering 0 none false).lines[(0 : LineNo)]).debounce = 0 ∧ ((registering 0 none false).lines[(0 : LineNo)]).pin ≠ true ∧
    ((run (.linePinChange 0 true) (registering 0 none false)).ctxs[(0 : Ctx)]).drainCause = some .exhausted ∧
    ((run (.debounceExpiry 0) (registering 20 (some ⟨true, 20⟩) true)).ctxs[(0 : Ctx)]).drainCause = some .exhausted := by
  refine ⟨⟨heldWf_of_holdsHeld (by decide +kernel), heldWf_of_holdsHeld (by decide +kernel)⟩, ?_, by decide +kernel,
    by decide +kernel, by decide +kernel, by decide +kernel⟩
  simp only [State.takesEdge, State.awaitsEdge]
  decide +kernel

theorem witness_heldWf_guarded : ∀ st ∈ [PlacementState.claimed, .cutting],
    ∀ v ∈ [none, some { level := false, elapsed := 20 }], (guarded st (.input true v)).heldWf := by
  have e : ∀ st ∈ [PlacementState.claimed, .cutting], ∀ v ∈ [none, some { level := false, elapsed := 20 }],
      holdsHeld (guarded st (.input true v)) = true := by decide +kernel
  exact fun st h v g => heldWf_of_holdsHeld (e st h v g)

theorem witness_lawSeparation : ∀ st ∈ [PlacementState.claimed, .cutting], (heldIn st).lawSeparation := by
  unfold State.lawSeparation
  decide +kernel

theorem witness_lawClosed : closed.heldWf ∧ closed.lawClosed ∧ laid.lawClosed := by
  refine ⟨heldWf_of_holdsHeld (by decide +kernel), ?_, ?_⟩ <;> unfold State.lawClosed <;> decide +kernel

theorem witness_countsWf : laid.countsWf := by
  have tagged : ∀ n : SlotNo, (laid.slots[n]).all (fun r => decide (∃ e ∈ laid.entries, e.tag = r.tag)) = true := by
    decide +kernel
  refine ⟨?_, by decide +kernel, fun n r h => of_all (P := fun r => ∃ e ∈ laid.entries, e.tag = r.tag) (tagged n) h,
    by decide +kernel⟩
  unfold State.lawCounts
  decide +kernel

theorem witness_flawsWf : applying.flawsWf := by
  have cells : ∀ k : Ctx, ∀ x, x < (applying.ctxs[k]).width → ∀ y, y < (applying.ctxs[k]).height →
      (applying.cell k x y).cap = recomputedCap (appliedFlaws applying.flaws[k]) (x, y) ∧
      (applying.cell k x y).classes = recomputedClasses (appliedFlaws applying.flaws[k]) (x, y) := by decide +kernel
  have jobs : ∀ j ∈ applying.jobs ++ applying.inFlight.toList, ((applying.flaws[j.ctx])[j.flaw]?).any (fun f =>
      decide (f.state = (match j.kind with | .apply => .pending | .withdraw => .withdrawing))) = true := by decide +kernel
  exact ⟨fun k x y hx hy _ _ => cells k x hx y hy, by decide +kernel, by decide +kernel,
    fun j hj => exists_of_any (jobs j hj), by decide +kernel, by decide +kernel⟩

theorem witness_scoreWf : searching.scoreWf := by
  refine ⟨fun n p h => ?_, ?_, ?_, fun q hq => ?_⟩
  · have e : ∀ n : SlotNo, searching.slots[n] = none := by decide +kernel
    rw [e n] at h
    cases h
  · unfold Weights.bounded
    decide +kernel
  · unfold Pattern.bounded
    decide +kernel
  · injection hq with hq
    subst hq
    refine ⟨?_, by decide +kernel, ?_, fun b hb => by cases hb⟩
    · unfold Weights.bounded
      decide +kernel
    · unfold Pattern.bounded
      decide +kernel

theorem witness_occupantsWf : laid.occupantsWf := by
  have cells : ∀ k : Ctx, ∀ n : SlotNo, ∀ x, x < (laid.ctxs[k]).width → ∀ y, y < (laid.ctxs[k]).height →
      ((laid.cell k x y).occupant = some n ↔ (laid.slots[n]).any (fun p =>
        decide (p.ctx = k ∧ p.state.occupies = true ∧ (x, y) ∈ laid.cellsOf p)) = true) := by decide +kernel
  have empty : ∀ k : Ctx, (laid.ctxs[k]).state = .empty → laid.planes[k] = [] := by decide +kernel
  have named : ∀ n : SlotNo, (laid.slots[n]).all (fun r =>
      decide ((laid.ctxs[r.ctx]).state ≠ .empty ∧ (laid.patterns[r.pattern]).state = .ready)) = true := by decide +kernel
  refine ⟨fun k n x y hx hy => ?_, ⟨fun q hq => (by cases hq), fun q hq => (by cases hq)⟩, fun k hk a => ?_,
    fun n r h => of_all (P := fun r => (laid.ctxs[r.ctx]).state ≠ .empty ∧ (laid.patterns[r.pattern]).state = .ready)
      (named n) h, by decide +kernel, by decide +kernel⟩
  · rw [cells k n x hx y hy]
    constructor
    · exact exists_of_any
    · rintro ⟨p, hp, h⟩
      rw [hp]
      exact decide_eq_true h
  · rw [empty k hk]
    rfl

theorem witness_StepKeepsFitLaw : laid.flawsWf ∧ laid.fitWf := by
  have cells : ∀ k : Ctx, ∀ x, x < (laid.ctxs[k]).width → ∀ y, y < (laid.ctxs[k]).height →
      (laid.cell k x y).cap = recomputedCap (appliedFlaws laid.flaws[k]) (x, y) ∧
      (laid.cell k x y).classes = recomputedClasses (appliedFlaws laid.flaws[k]) (x, y) := by decide +kernel
  have kept : ∀ k : Ctx, ∀ x, x < (laid.ctxs[k]).width → ∀ y, y < (laid.ctxs[k]).height →
      (laid.cell k x y).cap ≤ recomputedCap (appliedFlaws laid.flaws[k]) (x, y) ∧
      recomputedClasses (appliedFlaws laid.flaws[k]) (x, y) &&& ~~~(laid.cell k x y).classes = 0 := by decide +kernel
  have fits : ∀ n : SlotNo, (laid.slots[n]).all (fun p =>
      decide (∀ ijr ∈ (laid.patterns[p.pattern]).coveredCells p.orient,
        (laid.cell p.ctx (p.xlo + ijr.1) (p.ylo + ijr.2.1)).meets ((laid.patterns[p.pattern]).requirement ijr.2.2) = true ∧
        (laid.cell p.ctx (p.xlo + ijr.1) (p.ylo + ijr.2.1)).occupant = some n)) = true := by decide +kernel
  refine ⟨⟨fun k x y hx hy _ _ => cells k x hx y hy, by decide +kernel, by decide +kernel, ?_, by decide +kernel,
    by decide +kernel⟩, fun n p h _ => of_all (P := fun p => ∀ ijr ∈ (laid.patterns[p.pattern]).coveredCells p.orient,
      (laid.cell p.ctx (p.xlo + ijr.1) (p.ylo + ijr.2.1)).meets ((laid.patterns[p.pattern]).requirement ijr.2.2) = true ∧
      (laid.cell p.ctx (p.xlo + ijr.1) (p.ylo + ijr.2.1)).occupant = some n) (fits n) h, fun k x y hx hy => kept k x hx y hy⟩
  rintro j ⟨⟩

theorem witness_StepKeepsLaws : State.reset.planesWf ∧ State.reset.hidesWf ∧ State.reset.idleUnlessReady ∧
    step State.reset = .next State.reset.idle ∧ laid.planesWf ∧ laid.hidesWf ∧ laid.idleUnlessReady ∧ applying.planesWf ∧ applying.hidesWf ∧
    applying.idleUnlessReady ∧ searching.hidesWf ∧ step laid = .next laid.idle := by
  refine ⟨?_, ?_, ?_, rfl, ?_, ?_, ?_, ?_, ?_, ?_, ?_, rfl⟩ <;> decide +kernel

/-! ### Witnesses: the refusals, the timers, the search unit and the gate -/

theorem witness_TimePassesAndEveryCommandAnswers_ripe :
    waiting.due = some (.noticeHoldoffExpiry 1) ∧
    (run (.noticeSetup 1 [1, 0, 3, 0]) waiting).due = none ∧
    ({ holding with gate := { holding.gate with timer := some ⟨50000, 50⟩ } } : State).due = some .gateHoldLimitExpiry ∧
    ({ holding with gate := { holding.gate with timer := some ⟨49999, 50⟩ } } : State).due = none ∧
    ({ laid with heads := laid.heads.set 1 { HeadChannel.reset with timer := some 50000 } } : State).due =
      some (.claimTimerExpiry 1) ∧
    (edge .none true).due = some (.debounceExpiry 0) ∧ driving.due = none ∧
    ({ driving with lines := driving.lines.set 0 { Line.powerUp false with work := .output false (some ⟨none, 200, 20⟩) } } : State).due =
      some (.outputHoldEnd 0) ∧
    ({ ready with ports := ready.ports.set 3 { LinkPort.reset with receiver := .kind, gap := 201 } } : State).due =
      some (.frameGapTimeout 3) ∧
    ({ ready with ports := ready.ports.set 3 { LinkPort.reset with receiver := .kind, gap := 200 } } : State).due = none := by
  decide +kernel

theorem witness_MapTestStartsAndEnds_refused : (opened.ports[(0 : Port)]).owed = none ∧ opened.condition = .ready ∧
    (∃ k : Ctx, (opened.ctxs[k]).state ≠ .empty) := by decide +kernel

/-- A part whose map test found a mismatch. -/
def failed : State := { ready with condition := .failed }

theorem witness_reads_in_failed : failed.takesRead 0 ∧ failed.takesRead 1 ∧ laid.takesRead 3 ∧
    failed.slots[(255 : SlotNo)] = none ∧ (failed.ctxs[(1 : Ctx)]).state = .empty ∧ failed.entry? 0 = none ∧
    (failed.patterns[(0 : PatNo)]).state = .empty ∧ u8 [128] 0 = 128 := by decide +kernel

theorem witness_position : laid.entries = [] ++ order :: [] ∧
    ({ laid with entries := [{ order with tag := 5 }, order] } : State).entries = [{ order with tag := 5 }] ++ order :: [] ∧
    (∀ y ∈ [({ order with tag := 5 } : Entry)], y.tag ≠ order.tag) := by decide +kernel

theorem witness_GradeRunsWriteBaseGrades_refused : laid.takes 1 ∧ Kind.gradeRuns.lengthOk [2, 0, 0] = true ∧
    1 < u8 [2, 0, 0] 0 ∧ (laid.ctxs[(1 : Ctx)]).state = .empty ∧ (closed.ctxs[(0 : Ctx)]).state = .closed ∧ closed.takes 1 ∧
    (laid.ctxs[(0 : Ctx)]).height ≤ u16 [0, 2, 0] 1 ∧ u16 [0, 1, 0] 1 < (laid.ctxs[(0 : Ctx)]).height ∧
    (∀ pl ∈ [[(0 : Byte), 1, 0, 0, 0, 0, 16], [0, 1, 0, 0, 0, 1, 3], [0, 1, 0, 0, 0, 1, 128]],
      Kind.gradeRuns.lengthOk pl = true ∧ ∃ r ∈ runsOf pl, r.bad = true) := by decide +kernel

/-- Every record of the laid hide names its context. -/
theorem occupantsNamed_laid : laid.occupantsNamed 0 := by
  intro a n r h e
  have slots : ∀ n : SlotNo, (laid.slots[n]).all (fun r => decide (r.ctx = 0)) = true := by decide +kernel
  exact of_all (slots n) e

theorem witness_GradeRunsWriteBaseGrades_other : laid.occupantsNamed 0 ∧ laid.takes 1 ∧ laid.planesWf ∧ laid.hidesWf :=
  ⟨occupantsNamed_laid, by decide +kernel, by decide +kernel, by decide +kernel⟩

theorem witness_DemandPostEnters_refused : laid.takes 0 ∧
    127 < u8 [128, 0, 1, 0] 0 ∧ 2 < u8 [0, 3, 1, 0] 1 ∧ u8 [0, 0, 0, 0] 2 = 0 ∧ 1 < u8 [0, 0, 1, 2] 3 ∧
    u8 [127, 0, 1, 1] 0 = (127 : PatNo).val ∧ (laid.patterns[(127 : PatNo)]).state ≠ .ready ∧
    (laid.patterns[(0 : PatNo)]).state = .ready ∧ u8 [0, 1, 1, 1] 1 = Hand.right.code ∧
    (laid.patterns[(0 : PatNo)]).orients &&& Hand.right.orients = 0 ∧
    (laid.patterns[(0 : PatNo)]).orients &&& Hand.any.orients ≠ 0 ∧
    64 ≤ ({ laid with entries := (List.finRange 64).map fun t => { order with tag := t } } : State).entries.length := by
  decide +kernel

theorem witness_DemandCancelWithdraws_refused : laid.takes 0 ∧ 63 < u8 [64] 0 ∧ u8 [63] 0 = (63 : Tag).val ∧
    laid.entry? 63 = none := by decide +kernel

theorem witness_DemandCancelWithdraws_ends :
    (heldIn .claimed).entry? 0 = some order ∧ ((heldIn .claimed).slots[(0 : SlotNo)]).map (fun r => (r.state, r.head)) =
      some (.claimed, some 0) ∧ order.holders ≠ 0 ∧
    (searching.entry? 0).map (fun x => (x.state, x.holders)) = some (.opened, 0) ∧
    searching.searchUnit = .searching (searchOf 0 0 none) ∧
    (failing [{ order with tag := 1, live := 0, holders := 0 }] 8).entry? 1 =
      some { order with tag := 1, live := 0, holders := 0 } ∧
    (∀ r, (searching.slots[(0 : SlotNo)]) ≠ some r) := by
  refine ⟨by decide +kernel, by decide +kernel, by decide +kernel, by decide +kernel, by decide +kernel, by decide +kernel,
    fun r h => ?_⟩
  have e : searching.slots[(0 : SlotNo)] = none := by decide +kernel
  rw [e] at h
  cases h

theorem witness_scanEnds :
    (failing [] 8).scanEnds (searchOf 0 0 none) none ∧
    searching.scanEnds (searchOf 0 0 none) (some { cand := candidate, score := 16 }) ∧
    searching.reverified (searchOf 0 0 none) candidate ∧
    (∀ r ∈ [0, 1, 2], searching.scanEnds (searchOf r 1 (some { cand := { candidate with x := 7 }, score := 0 }))
      (some { cand := { candidate with x := 7 }, score := 0 })) ∧
    ¬ searching.reverified (searchOf 1 1 none) { candidate with x := 7 } := by
  simp only [State.scanEnds_iff, State.reverified_iff]
  decide +kernel

theorem witness_scanEnds_stall :
    ({ searching with slots := Vector.replicate 256 (some record) } : State).scanEnds (searchOf 0 0 none)
      (some { cand := candidate, score := 16 }) ∧
    ({ searching with slots := Vector.replicate 256 (some record) } : State).reverified (searchOf 0 0 none) candidate ∧
    (∀ n : SlotNo, ({ searching with slots := Vector.replicate 256 (some record) } : State).slots[n] ≠ none) ∧
    ({ searching with slots := Vector.replicate 256 (some record) } : State).withdrawn = [] := by
  simp only [State.scanEnds_iff, State.reverified_iff]
  decide +kernel

theorem witness_scanEnds_withdrawn : (crowded 1 .cancelled 1).scanEnds (searchOf 0 0 none)
      (some { cand := candidate, score := 16 }) ∧ (crowded 1 .cancelled 1).reverified (searchOf 0 0 none) candidate ∧
    (crowded 1 .cancelled 1).withdrawn ≠ [] := by
  simp only [State.scanEnds_iff, State.reverified_iff]
  decide +kernel

/-- The search above with its unit STALLED on the pair. -/
def stalled : State := { searching with searchUnit := .stalled ⟨0, 0⟩ }

/-- The same hide, its unit IDLE before the first entry is posted. -/
def waitingForWork : State := { searching with searchUnit := .idle, entries := [], patterns := opened.patterns.set 0 { drawing with refs := 0 } }

theorem searchUnitWf_searching : searching.searchUnitWf := by
  refine ⟨fun h => ?_, fun _ => rfl, fun q h => ?_, fun q h => ?_⟩
  · cases h
  · injection h with h
    subst h
    decide +kernel
  · cases h

theorem searchUnitWf_stalled : stalled.searchUnitWf := by
  refine ⟨fun h => ?_, fun _ => rfl, fun q h => ?_, fun q h => ?_⟩
  · cases h
  · cases h
  · injection h with h
    subst h
    decide +kernel

theorem searchUnitWf_waitingForWork : waitingForWork.searchUnitWf := by
  refine ⟨fun _ => ⟨fun e h => (by cases h), ?_⟩, fun h => absurd rfl h, fun q h => ?_, fun q h => ?_⟩
  · constructor
    · intro h
      cases h
    · rintro ⟨e, h, _⟩
      cases h
  · cases h
  · cases h

theorem searchWf_searching : searching.searchWf := by
  refine ⟨fun q h => ?_, fun q h => ?_⟩
  · cases h
  · injection h with h
    subst h
    exact ⟨{ order with live := 0, holders := 0 }, by decide +kernel⟩

theorem searchWf_stalled : stalled.searchWf := by
  refine ⟨fun q h => ?_, fun q h => ?_⟩
  · injection h with h
    subst h
    exact ⟨{ order with live := 0, holders := 0 }, by decide +kernel⟩
  · cases h

theorem searchWf_waitingForWork : waitingForWork.searchWf :=
  ⟨fun q h => (by cases h), fun q h => (by cases h)⟩

/-- A unit that starts, goes on, gives up, stays STALLED or re-runs its search, each by an event. -/
theorem witness_SelectionTakesFirstPair_follows :
    (searching.searchUnitWf ∧ searching.searchWf) ∧ (stalled.searchUnitWf ∧ stalled.searchWf) ∧
    (waitingForWork.searchUnitWf ∧ waitingForWork.searchWf) ∧
    (∀ c ∈ [Instr.hideDrain 0 [0], .demandPost 0 [0, 2, 1, 0], .demandCancel 0 [0], .headOnline 2 []], isOneEvent c = true) ∧
    (run (.demandPost 0 [0, 2, 1, 0]) waitingForWork).searchUnit.code = 1 ∧
    (run (.headOnline 2 []) searching).searchUnit.code = 1 ∧ (run (.hideDrain 0 [0]) searching).searchUnit.code = 0 ∧
    (run (.demandCancel 0 [0]) searching).searchUnit.code = 0 ∧ (run (.headOnline 2 []) stalled).searchUnit.code = 2 ∧
    (run (.hideDrain 0 [0]) stalled).searchUnit.code = 0 :=
  ⟨⟨searchUnitWf_searching, searchWf_searching⟩, ⟨searchUnitWf_stalled, searchWf_stalled⟩,
    ⟨searchUnitWf_waitingForWork, searchWf_waitingForWork⟩, by decide +kernel, by decide +kernel, by decide +kernel,
    by decide +kernel, by decide +kernel, by decide +kernel, by decide +kernel⟩

/-- The stall with a second entry's placement, whose withdrawal frees a slot. -/
def stalledBeside : State :=
  { stalled with
    entries := stalled.entries ++ [{ order with tag := 1 }],
    slots := stalled.slots.set 0 (some { record with tag := 1, xlo := 4 }) }

theorem witness_SelectionTakesFirstPair_reruns :
    stalledBeside.searchUnit = .stalled ⟨0, 0⟩ ∧ stalledBeside.windowShort = false ∧
    (stalledBeside.ctxs[(0 : Ctx)]).state = .opened ∧
    (stalledBeside.entry? 0).any (fun e => e.eligible) = true ∧ (stalledBeside.entries.map fun e => e.tag).Nodup ∧
    ((run (.demandCancel 0 [1]) stalledBeside).slots[(0 : SlotNo)]).map (fun r => r.state) = some .withdrawn ∧
    (run (.demandCancel 0 [1]) stalledBeside).searchUnit.code = 1 := by decide +kernel

theorem witness_PlacementWithdrawGivesUp_refused : laid.takes 0 ∧ 1 < u8 [0, 2, 0, 0] 1 ∧
    u8 [255, 1, 0, 0] 0 = (255 : SlotNo).val ∧ u8 [255, 1, 0, 0] 1 = (1 : Ctx).val ∧ laid.slots[(255 : SlotNo)] = none ∧
    laid.slots[(0 : SlotNo)] = some record ∧ record.ctx ≠ 1 ∧ record.commitNo.toNat ≠ u16 [0, 0, 1, 0] 2 := by
  decide +kernel

/-- A part with both contexts in use, and the second one's hide of a state of one's choice. -/
def bothOpen (st : CtxState) : State :=
  { searching with ctxs := #v[hide, { hide with state := st, rank := some .second }] }

theorem witness_HideOpenMarkFrontierAndDrain_refused : (bothOpen .closed).takes 1 ∧
    15 < u8 [8, 0, 2, 0, 16] 4 ∧ u16 [0, 0, 2, 0, 15] 0 = 0 ∧ 768 < u16 [1, 3, 2, 0, 15] 0 ∧ u16 [8, 0, 0, 0, 15] 2 = 0 ∧
    512 < u16 [8, 0, 1, 2, 15] 2 ∧ u8 [0, 3, 0, 2, 15] 4 ≤ 15 ∧ u16 [0, 3, 0, 2, 15] 0 ≤ 768 ∧
    (∀ k : Ctx, ((bothOpen .closed).ctxs[k]).state ≠ .empty) ∧ 1 < u8 [2, 0, 0] 0 ∧
    ((bothOpen .closed).ctxs[(1 : Ctx)]).state = .closed ∧ ((bothOpen .empty).ctxs[(1 : Ctx)]).state = .empty := by
  decide +kernel

theorem witness_HideOpenMarkFrontierAndDrain_search : (bothOpen .opened).takes 0 ∧
    ((bothOpen .opened).ctxs[(1 : Ctx)]).state = .opened ∧
    (bothOpen .opened).searchUnit = .searching (searchOf 0 0 none) ∧ (searchOf 0 0 none).pair.ctx ≠ 1 ∧
    (run (.hideDrain 0 [0]) (bothOpen .opened)).searchUnit.code = 1 ∧
    (run (.hideDrain 0 [1]) (bothOpen .opened)).searchUnit = (bothOpen .opened).searchUnit ∧
    ({ bothOpen .opened with searchUnit := .stalled ⟨0, 0⟩ } : State).searchUnit = .stalled ⟨0, 0⟩ := by decide +kernel

theorem witness_HideAbortAndRelease_refused : (bothOpen .closed).takes 0 ∧ 1 < u8 [2] 0 ∧
    ((bothOpen .closed).ctxs[(1 : Ctx)]).state = .closed ∧ ((bothOpen .empty).ctxs[(1 : Ctx)]).state = .empty := by
  decide +kernel

theorem witness_HideAbortAndRelease_ends :
    (∀ st ∈ [PlacementState.placed, .claimed, .cutting, .cut], (heldIn st).takes 0 ∧
      ((heldIn st).ctxs[(0 : Ctx)]).state = .opened ∧
      ((heldIn st).slots[(0 : SlotNo)]).map (fun r => (r.state, r.ctx, r.head)) = some (st, 0, some 0)) ∧
    (∀ n : SlotNo, searching.slots[n] = none) ∧ (searching.ctxs[(0 : Ctx)]).state = .opened ∧
    (run (.hideAbort 0 [1]) (bothOpen .opened)).searchUnit.code = 1 := by decide +kernel

/-- The closed hide, its placement's entry in a given state with a given number of holders. -/
def closedFor (st : EntryState) (n : Nat) : State := { closed with entries := [{ order with live := 0, state := st, holders := n }] }

theorem witness_HideAbortAndRelease_leaves : ∀ w ∈ [(EntryState.cancelled, 1), (.satisfied, 1), (.cancelled, 2), (.opened, 1)],
    (closedFor w.1 w.2).takes 0 ∧ ((closedFor w.1 w.2).ctxs[(0 : Ctx)]).state = .closed ∧
    ((closedFor w.1 w.2).entries.map fun e => e.tag).Nodup ∧ (closedFor w.1 w.2).namedIn 0 0 = 1 ∧
    (closedFor w.1 w.2).entries.all (fun e => (closedFor w.1 w.2).leavesQueue 0 e) = (decide (w.1 ≠ .opened) && decide (w.2 = 1)) := by
  decide +kernel

theorem witness_TravelFloorReachAndSeparation_absent : (laid.conveyor.reach[(1 : Head)]).present = false ∧
    (laid.ctxs[(0 : Ctx)]).registered = true := by decide +kernel

/-- The job in flight on the hide on the belt, under a gate of one's choice. -/
def gated (g : Gate) : State := { applying with gate := g }

theorem flawsWf_gated (g : Gate) : (gated g).flawsWf := witness_flawsWf

theorem witness_GateSetAndReleased_follows :
    (∀ g : Gate, (gated g).flawsWf) ∧
    (∀ c ∈ [Instr.claim 2 [], .applyJobCompletion, .headOnline 3 []], isOneEvent c = true) ∧
    (run (.claim 2 []) (gated { Gate.reset with hold := 3, release := 6, holdLimit := 50 })).gate.timer =
      some { elapsed := 0, limit := 50 } ∧
    (run (.claim 2 []) (gated { Gate.reset with hold := 3, release := 6, armed := false })).gate.holding = false ∧
    (run (.headOnline 3 []) (gated { Gate.reset with hold := 3, release := 6 })).gate.holding = false ∧
    (run (.headOnline 3 []) (gated { Gate.reset with hold := 3, release := 6, holding := true })).gate.holding = true ∧
    (run .applyJobCompletion (gated { Gate.reset with hold := 3, release := 6, holding := true })).gate.holding = false := by
  exact ⟨flawsWf_gated, by decide +kernel, by decide +kernel, by decide +kernel, by decide +kernel, by decide +kernel,
    by decide +kernel⟩

theorem witness_GateSetAndReleased_keeps : holding.takes 0 ∧ holding.gate.holding = true ∧ 0 < u8 [1, 2, 0] 0 ∧
    (run (.setGate 0 [1, 2, 0]) holding).readyCount < u8 [1, 2, 0] 1 ∧ u8 [0, 1, 0] 0 = 0 := by decide +kernel

theorem witness_reports_refused : (heldIn .cutting).takes 2 ∧ 1 < u8 [0, 2, 0, 0] 1 ∧ 1 < u8 [0, 1, 0, 0, 2] 4 ∧
    (heldIn .cutting).heldBy 0 (u8 [1, 0, 0, 0] 0) 0 (u16 [1, 0, 0, 0] 2) = none ∧
    (heldIn .cutting).heldBy 0 (u8 [0, 1, 0, 0] 0) 1 (u16 [0, 1, 0, 0] 2) = none ∧
    (heldIn .cutting).heldBy 0 (u8 [0, 0, 1, 0] 0) 0 (u16 [0, 0, 1, 0] 2) = none ∧
    ((heldIn .claimed).heldBy 0 (u8 [0, 0, 0, 0] 0) 0 (u16 [0, 0, 0, 0] 2)).map (fun w => w.2.state) = some .claimed := by
  decide +kernel

theorem witness_times : (heldIn .claimed).times 0 0 ∧ ¬ (heldIn .cutting).times 0 0 ∧ ¬ cuttingTwo.times 0 1 ∧
    (run (.cutDone 2 [0, 0, 0, 0]) cuttingTwo).times 0 1 ∧
    ((run (.cutDone 2 [0, 0, 0, 0]) cuttingTwo).heads[(0 : Head)]).timer = some 0 ∧
    ((run (.cutDone 2 [0, 0, 0, 0]) { cuttingTwo with conveyor := { belt with claimLimit := 0 } }).heads[(0 : Head)]).timer = none := by
  simp only [State.times_iff]
  decide +kernel

theorem witness_LinkEventsAndCommonChecks_taken : (ready.ports[(0 : Port)]).owed = none ∧
    (0x38 : Byte) + BitVec.ofNat 8 1 + [(0 : Byte)].foldl (· + ·) 0 + 0xC7 = 0 ∧ kindOf 0x38 = some .hideDrain := by
  decide +kernel

theorem witness_DemandCancelWithdraws_cells : laid.planesWf ∧ (∀ a ∈ [1, 2], ((laid.planes[(0 : Ctx)]).read a).occupant = some 0 ∧
      (((run (.demandCancel 0 [0]) laid).planes[(0 : Ctx)]).read a) =
        { (laid.planes[(0 : Ctx)]).read a with occupant := none }) ∧
    ((laid.planes[(0 : Ctx)]).read 3).occupant = none ∧ (heldIn .cutting).planesWf ∧
    ((heldIn .cutting).planes[(0 : Ctx)]).read 1 = ((run (.demandCancel 0 [0]) (heldIn .cutting)).planes[(0 : Ctx)]).read 1 := by
  decide +kernel

theorem witness_HideAbortAndRelease_cells : laid.planesWf ∧ ((laid.planes[(0 : Ctx)]).read 1).occupant = some 0 ∧
    (((run (.hideAbort 0 [0]) laid).planes[(0 : Ctx)]).read 1).occupant = none ∧ (heldIn .cutting).planesWf ∧
    (((heldIn .cutting).planes[(0 : Ctx)]).read 1).occupant = some 0 ∧
    (((run (.hideAbort 0 [0]) (heldIn .cutting)).planes[(0 : Ctx)]).read 1).occupant = some 0 := by decide +kernel

/-- A hide that one flaw of a state of one's choice is left on. -/
def flawed (st : FlawState) : State :=
  { opened with flaws := opened.flaws.set 0 [{ flaw with state := st }],
                inFlight := if st = .pending then some { kind := .apply, ctx := 0, flaw := 0 } else none }

theorem witness_HideOpenMarkFrontierAndDrain_flaw : (∀ st ∈ [FlawState.pending, .withdrawing, .applied],
      (flawed st).takes 0 ∧ ((flawed st).ctxs[(0 : Ctx)]).state = .opened ∧ (flawed st).liveCount 0 = 0 ∧
      ((flawed st).inFlight ≠ none ∨ (flawed st).jobs = [])) ∧
    ((run (.hideDrain 0 [0]) (flawed .pending)).ctxs[(0 : Ctx)]).state = .draining ∧
    ((run (.hideDrain 0 [0]) (flawed .withdrawing)).ctxs[(0 : Ctx)]).state = .draining ∧
    ((run (.hideDrain 0 [0]) (flawed .applied)).ctxs[(0 : Ctx)]).state = .closed := by decide +kernel

/-- An entry's counts and its piece in slot 0 after a command. -/
def counted (c : Instr) (s : State) : Option (Nat × Nat) × Option PlacementState :=
  (((run c s).entry? 0).map fun e => (e.live, e.spoiled), ((run c s).slots[(0 : SlotNo)]).map fun r => r.state)

theorem test_counts_follow_pieces :
    counted (.encoderTransition true false) (moving .cutting 401 1) = (some (0, 1), some .spoiled) ∧
    counted (.encoderTransition true false) (moving .claimed 399 1) = (some (0, 0), some .missed) ∧
    counted (.encoderTransition true false) (moving .claimed 401 1) = (some (1, 0), some .placed) ∧
    counted (.setLine 0 [0, 0, 1, 0, 0, 3, 0, 0, 0]) (guarded .cutting (.input true none)) = (some (0, 1), some .spoiled) ∧
    counted (.debounceExpiry 0) (guarded .cutting (.input true (some { level := false, elapsed := 20 }))) =
      (some (0, 1), some .spoiled) := by
  decide +kernel

/-- A line signals that context 0 is under work, with its hold running or not. -/
def signalling (hold : Option PulseHold) (s : State) : State :=
  { s with lines := s.lines.set 3 { Line.powerUp false with source := .hideOpen 0, width := 20, work := .output hold.isNone hold } }

theorem witness_LevelsAreHeld_driven : ∀ s ∈ [laid, twoMoving, heldIn .cutting],
    ∀ h ∈ [none, some { pending := some true, elapsed := 3, width := 20 }], (signalling h s).driven := by
  simp only [State.driven_iff]
  decide +kernel

theorem witness_LevelsAreHeld_drivesOnce :
    (∀ c ∈ [Instr.hideAbort 0 [0], .noticeClear 0 [0, 0], .partReset 0 [], .setLine 0 [2, 1, 0, 0, 0, 0, 0, 1, 0], .outputHoldEnd 2],
      drivesOnce c 3 = true) ∧
    drivesOnce (.outputHoldEnd 3) 3 = false ∧ drivesOnce (.setLine 0 [3]) 3 = false ∧
    ((run (.hideAbort 0 [0]) (signalling none laid)).lines[(3 : LineNo)]).work =
      .output false (some { pending := none, elapsed := 0, width := 20 }) ∧
    ((run (.hideAbort 0 [0]) (signalling (some { pending := some true, elapsed := 3, width := 20 }) laid)).lines[(3 : LineNo)]).work =
      .output false (some { pending := some false, elapsed := 3, width := 20 }) ∧
    (∀ k : Ctx, (signalling none twoMoving).travel k ≠ (run (.encoderTransition true false) (signalling none twoMoving)).travel k) := by
  decide +kernel

end Sys2Proof.Tests
end

section
/-!
What a step can do, said once: apart from quiet bookkeeping (ports, lines, notices, timers, settings) a step makes at
most one move, and most moves are the tail of an event. Every law that a step keeps is proved over these moves.
-/

namespace Sys2Proof.Machine

open Sys2Proof

/-! ### Quiet changes -/

/-- Two states differ in what no law of the hide map speaks of: the queue, the settings and tables, the gate, the heads,
the lines, the notices and the ports. -/
structure State.Quiet (s t : State) : Prop where
  rest : t = { s with pending := t.pending, mismatches := t.mismatches, rules := t.rules, ranges := t.ranges,
                      classDefaults := t.classDefaults, links := t.links, weights := t.weights,
                      conveyor := t.conveyor, gate := t.gate, heads := t.heads, grantCount := t.grantCount,
                      startCount := t.startCount, lines := t.lines, encA := t.encA, encB := t.encB,
                      encErrors := t.encErrors, notices := t.notices, ports := t.ports, freeIndex := t.freeIndex }
  /-- No head takes or loses a slot. -/
  held : ∀ h : Head, (t.heads[h]).held = (s.heads[h]).held

theorem State.Quiet.refl (s : State) : s.Quiet s := ⟨rfl, fun _ => rfl⟩

theorem State.Quiet.trans {s t u : State} (h : s.Quiet t) (g : t.Quiet u) : s.Quiet u := by
  have hr := h.rest
  have gr := g.rest
  rw [hr] at gr
  exact ⟨gr, fun k => (g.held k).trans (h.held k)⟩

theorem State.Quiet.condition {s t : State} (h : s.Quiet t) : t.condition = s.condition := by rw [h.rest]
theorem State.Quiet.planes {s t : State} (h : s.Quiet t) : t.planes = s.planes := by rw [h.rest]
theorem State.Quiet.flaws {s t : State} (h : s.Quiet t) : t.flaws = s.flaws := by rw [h.rest]
theorem State.Quiet.jobs {s t : State} (h : s.Quiet t) : t.jobs = s.jobs := by rw [h.rest]
theorem State.Quiet.inFlight {s t : State} (h : s.Quiet t) : t.inFlight = s.inFlight := by rw [h.rest]
theorem State.Quiet.patterns {s t : State} (h : s.Quiet t) : t.patterns = s.patterns := by rw [h.rest]
theorem State.Quiet.entries {s t : State} (h : s.Quiet t) : t.entries = s.entries := by rw [h.rest]
theorem State.Quiet.searchUnit {s t : State} (h : s.Quiet t) : t.searchUnit = s.searchUnit := by rw [h.rest]
theorem State.Quiet.slots {s t : State} (h : s.Quiet t) : t.slots = s.slots := by rw [h.rest]
theorem State.Quiet.withdrawn {s t : State} (h : s.Quiet t) : t.withdrawn = s.withdrawn := by rw [h.rest]
theorem State.Quiet.ctxs {s t : State} (h : s.Quiet t) : t.ctxs = s.ctxs := by rw [h.rest]

theorem State.hunt_quiet (s : State) (p : Port) : s.Quiet (s.hunt p) := ⟨rfl, fun _ => rfl⟩
theorem State.owe_quiet (s : State) (p : Port) (o : Owed) : s.Quiet (s.owe p o) := ⟨rfl, fun _ => rfl⟩
theorem State.updPort_quiet (s : State) (p : Port) (f : LinkPort → LinkPort) : s.Quiet (s.updPort p f) := ⟨rfl, fun _ => rfl⟩
theorem State.updLine_quiet (s : State) (l : LineNo) (f : Line → Line) : s.Quiet (s.updLine l f) := ⟨rfl, fun _ => rfl⟩
theorem State.updHead_quiet (s : State) (h : Head) {f : HeadChannel → HeadChannel}
    (hf : (f s.heads[h]).held = (s.heads[h]).held) : s.Quiet (s.updHead h f) := by
  refine ⟨rfl, fun k => ?_⟩
  rw [State.updHead_heads, get_set]
  split
  · rename_i hk
    subst hk
    exact hf
  · rfl
theorem State.updNotice_quiet (s : State) (p : Port) (f : NoticeUnit → NoticeUnit) : s.Quiet (s.updNotice p f) := ⟨rfl, fun _ => rfl⟩
theorem State.driveLines_quiet (s : State) : s.Quiet s.driveLines := ⟨rfl, fun _ => rfl⟩
theorem State.postNotices_quiet (s : State) (r : Vector FlagSet 4) : s.Quiet (s.postNotices r) := ⟨rfl, fun _ => rfl⟩
theorem State.advance_quiet (s : State) : s.Quiet s.advance := by
  refine ⟨rfl, fun h => ?_⟩
  simp only [State.advance, get_map]

theorem settleNotices_quiet (e : Event) : e.state.Quiet (settleNotices e) :=
  (State.postNotices_quiet e.state e.sig.raised).trans (State.driveLines_quiet _)

/-! ### The events that have a tail -/

/-- The event of GRADE RUNS before its tail (R6 to R8, R10). -/
def State.grading (s : State) (k : Ctx) (y : Nat) (runs : List GradeRun) : Event :=
  let w := (s.ctxs[k]).width
  let row := (List.range w).map fun x => (x, y)
  let after := writeRuns s.planes[k] w y runs
  let e := (s.advanceScan.setPlane k after).begin.downgrade after (downgrades s.planes[k] after row) .gradeChange
  if someRaised s.planes[k] after row then e.on fun u => u.clearMarks k else e

theorem State.gradeRow_eq (s : State) (k : Ctx) (y : Nat) (runs : List GradeRun) :
    s.gradeRow k y runs = settle s.advanceScan (s.grading k y runs) := by
  simp only [State.gradeRow, State.grading, State.advanceScan_ctxs, State.advanceScan_planes]

/-- The state that the end of an APPLY job has written, its downgrade check aside (R25). -/
def State.flawWritten (s : State) (k : Ctx) (n : Nat) (f : Flaw) (c : Classified) : State :=
  { (s.advanceScan.setPlane k (applyPlane s.planes[k] f.shape c (s.ctxs[k]).width (s.ctxs[k]).height)).setFlaw k n
      { f with state := .applied } with inFlight := none }

/-- The event of the end of an APPLY job before its tail (R25). -/
def State.applying (s : State) (k : Ctx) (n : Nat) (f : Flaw) (c : Classified) : Event :=
  let after := applyPlane s.planes[k] f.shape c (s.ctxs[k]).width (s.ctxs[k]).height
  ((s.flawWritten k n f c).begin.raise .flawApplied).downgrade after
    (downgrades s.planes[k] after (f.shape.reach c.margin (s.ctxs[k]).width (s.ctxs[k]).height)) .lateFlaw

theorem State.applyFlaw_eq (s : State) (k : Ctx) (n : Nat) (f : Flaw) (c : Classified) :
    s.applyFlaw k n f c = settle s.advanceScan (s.applying k n f c) := by
  simp only [State.applyFlaw, State.applying, State.flawWritten, State.advanceScan_ctxs, State.advanceScan_planes]

/-- The event of the end of a WITHDRAW job before its tail (R26, R91). -/
def State.unapplying (s : State) (k : Ctx) (n : Nat) (f : Flaw) (c : Classified) : Event :=
  let cells := f.shape.rectangle c.margin (s.ctxs[k]).width (s.ctxs[k]).height
  let after := recomputePlane s.planes[k] cells (appliedFlaws s.flaws[k])
  let t : State := { (s.advanceScan.setPlane k after).setFlaw k n { f with state := .withdrawn } with inFlight := none }
  (t.clearMarks k).begin.raise .flawWithdrawn

theorem State.unapplyFlaw_eq (s : State) (k : Ctx) (n : Nat) (f : Flaw) (c : Classified) :
    s.unapplyFlaw k n f c = settle s.advanceScan (s.unapplying k n f c) := by
  simp only [State.unapplyFlaw, State.unapplying, State.advanceScan_ctxs, State.advanceScan_planes,
    State.advanceScan_flaws]

/-- The events that change a hide's grades, flaws, frontier or life, as they stand before their tail, each with what its
owner has made sure of. -/
inductive State.HideEvent : State → Event → Prop
  | grade {s : State} (k : Ctx) (y : Nat) (runs : List GradeRun)
      (hk : (s.ctxs[k]).state = .opened ∨ (s.ctxs[k]).state = .draining) : State.HideEvent s (s.grading k y runs)
  | addFlaw {s : State} (k : Ctx) (f : Flaw) (hk : (s.ctxs[k]).state.cuttable = true) (hf : f.state = .pending) :
      State.HideEvent s (s.queueFlaw k f).begin
  | applyFlaw {s : State} (k : Ctx) (n : Nat) (f : Flaw) (c : Classified)
      (hj : s.inFlight = some { kind := .apply, ctx := k, flaw := n }) (hf : (s.flaws[k])[n]? = some f)
      (hc : f.classified = some c) :
      State.HideEvent s (s.applying k n f c)
  | dropFlaw {s : State} (k : Ctx) (n : Nat) (f : Flaw) (hf : (s.flaws[k])[n]? = some f)
      (hs : f.state = .pending ∨ f.state = .ignored) : State.HideEvent s (s.dropFlaw k n f).begin
  | queueWithdraw {s : State} (k : Ctx) (n : Nat) (f : Flaw) (hk : (s.ctxs[k]).state.cuttable = true)
      (hf : (s.flaws[k])[n]? = some f) (hs : f.state = .applied) : State.HideEvent s (s.queueWithdraw k n f).begin
  | unapplyFlaw {s : State} (k : Ctx) (n : Nat) (f : Flaw) (c : Classified)
      (hj : s.inFlight = some { kind := .withdraw, ctx := k, flaw := n }) (hf : (s.flaws[k])[n]? = some f)
      (hc : f.classified = some c) :
      State.HideEvent s (s.unapplying k n f c)
  | openHide {s : State} (k : Ctx) (w h : Nat) (a : Fin 16) (hready : s.condition = .ready)
      (hk : (s.ctxs[k]).state = .empty) (hw : w ≤ 768) (hh : h ≤ 512) :
      State.HideEvent s (s.updCtx k fun _ => s.openedCtx k w h a).begin
  | raiseFrontier {s : State} (k : Ctx) (v : Nat) (hk : (s.ctxs[k]).state.cuttable = true) :
      State.HideEvent s ((s.updCtx k fun c => { c with frontier := (s.ctxs[k]).raised v }).clearMarks k).begin
  | abort {s : State} (k : Ctx) (hk : (s.ctxs[k]).state.cuttable = true) : State.HideEvent s (s.aborting k)
  | release {s : State} (k : Ctx) (hk : (s.ctxs[k]).state = .closed) : State.HideEvent s (s.releasing k)

/-- The other events that a tail follows: those of demand, searches, placements, heads and the conveyor. -/
inductive State.PieceEvent : State → Event → Prop
  | nothing {s : State} (e : Event) (he : e.state = s) : State.PieceEvent s e
  | post {s : State} (t : Tag) (n : PatNo) (hand : Hand) (requested : Nat) (rush : Bool)
      (hready : (s.patterns[n]).state = .ready) (hfree : s.entry? t = none) :
      State.PieceEvent s (s.enterDemand (s.newEntry t n hand requested rush)).begin
  | cancel {s : State} (t : Tag) (x : Entry) (hx : s.entry? t = some x) : State.PieceEvent s (s.cancelling t)
  | complete {s : State} (q : Search) (hq : s.searchUnit = .searching q) :
      State.PieceEvent s { (s.begin.finish q (s.finalBest q)) with
        sig := { (s.begin.finish q (s.finalBest q)).sig with completion := true } }
  | withdraw {s : State} (n : SlotNo) (c : Cause) (p : Placement) (hp : s.slots[n] = some p)
      (hs : p.state = .placed ∨ p.state = .claimed) : State.PieceEvent s (s.advanceScan.begin.withdraw n c)
  | drain {s : State} (k : Ctx) (hk : (s.ctxs[k]).state = .opened) : State.PieceEvent s (s.drainCtx k .request).begin
  | leaveWork {s : State} (h : Head) (b : Bool) : State.PieceEvent s (s.begin.takeOffline h b)
  | grant {s : State} (h : Head) (n : SlotNo) (p : Placement) (hp : s.slots[n] = some p) (hs : p.state = .placed) :
      State.PieceEvent s (s.grantSlot h n p).begin
  | startCut {s : State} (h : Head) (x : Held) (p : Placement) (hx : x ∈ (s.heads[h]).held)
      (hp : s.slots[x.slot] = some p) : State.PieceEvent s (s.startSlot h x p).begin
  | cutThrough {s : State} (h : Head) (x : Held) (p : Placement) (hx : x ∈ (s.heads[h]).held)
      (hp : s.slots[x.slot] = some p) (hs : p.state = .cutting) : State.PieceEvent s (s.begin.cutThrough h x.slot p)
  | spoil {s : State} (h : Head) (x : Held) (p : Placement) (hx : x ∈ (s.heads[h]).held)
      (hp : s.slots[x.slot] = some p) (hs : p.state = .cutting) (c : Cause) : State.PieceEvent s (s.begin.spoil x.slot c)
  | fault {s : State} (h : Head) (x : Held) (p : Placement) (hx : x ∈ (s.heads[h]).held)
      (hp : s.slots[x.slot] = some p) (hs : p.state = .cutting) (c : Cause) :
      State.PieceEvent s ((s.begin.spoil x.slot c).faultHead h)
  | giveBack {s : State} (h : Head) (x : Held) (p : Placement) (hx : x ∈ (s.heads[h]).held)
      (hp : s.slots[x.slot] = some p) (hs : p.state ≠ .cutting) : State.PieceEvent s (s.returnClaim x.slot).begin
  | loseClaim {s : State} (h : Head) (n : SlotNo) (p : Placement) (hp : s.slots[n] = some p)
      (hs : p.state = .claimed) : State.PieceEvent s (s.begin.loseClaim h n)
  | deliver {s : State} (f : InputFunction) (level : Bool) : State.PieceEvent s (s.begin.deliver f level)

/-- The events that a tail follows. -/
def State.Begins (s : State) (e : Event) : Prop := s.HideEvent e ∨ s.PieceEvent e

theorem State.HideEvent.begins {s : State} {e : Event} (h : s.HideEvent e) : s.Begins e := .inl h

theorem State.PieceEvent.begins {s : State} {e : Event} (h : s.PieceEvent e) : s.Begins e := .inr h

/-! ### Moves -/

/-- What a step can do to a state, quiet changes aside. -/
inductive State.Move : State → State → Prop
  | stay (s : State) : State.Move s s
  | powerUp (s : State) : State.Move s s.powerUp
  | partReset (s : State) : State.Move s s.partReset
  | mapTest (s : State) (h : ∀ k : Ctx, (s.ctxs[k]).state = .empty) : State.Move s { s with condition := .testing }
  | endMapTest (s : State) (n : Nat) (h : s.condition = .starting ∨ s.condition = .testing) :
      State.Move s (s.endMapTest n)
  | endAnyLoad (s : State) : State.Move s s.endAnyLoad
  | beginLoad (s : State) (n : PatNo) (pl : List Byte) (p : Pattern) (hp : declaredPattern? pl = some p)
      (h : (s.endAnyLoad.patterns[n]).refs = 0)
      (hroom : p.reserved ≤ s.endAnyLoad.freeCells + (s.endAnyLoad.patterns[n]).reserved) :
      State.Move s (s.endAnyLoad.beginLoad n p)
  | libraryRows (s : State) (n : PatNo) (pl : List Byte) (h : (s.patterns[n]).state = .loading)
      (hfit : (s.patterns[n]).mask.length + (rowsOf (s.patterns[n]).w pl).length ≤ (s.patterns[n]).h) :
      State.Move s (s.updPattern n fun p => { p with mask := p.mask ++ rowsOf (s.patterns[n]).w pl })
  | endLoad (s : State) (n : PatNo) (h : (s.patterns[n]).state = .loading) : State.Move s (s.endLoad n)
  | dropPattern (s : State) (n : PatNo) (h : (s.patterns[n]).state = .ready) (hr : (s.patterns[n]).refs = 0) :
      State.Move s (s.dropPattern n)
  | turn (s : State) (t : Transition) (a b : Bool) : State.Move s (s.turn t a b)
  | event (s before : State) (e : Event) (h : s.Begins e) : State.Move s (settle before e)

/-- A state comes of another by one move between quiet changes. -/
def State.Comes (s t : State) : Prop := ∃ u v, s.Quiet u ∧ u.Move v ∧ v.Quiet t

theorem State.Move.comes {s t : State} (h : s.Move t) : s.Comes t := ⟨s, t, .refl s, h, .refl t⟩

theorem State.Quiet.comes {s t : State} (h : s.Quiet t) : s.Comes t := ⟨s, s, .refl s, .stay s, h⟩

theorem State.Comes.refl (s : State) : s.Comes s := (State.Quiet.refl s).comes

theorem State.Quiet.comes_after {s t u : State} (h : s.Quiet t) (g : t.Comes u) : s.Comes u := by
  obtain ⟨v, w, hv, hm, hw⟩ := g
  exact ⟨v, w, h.trans hv, hm, hw⟩

theorem State.Comes.quiet {s t u : State} (h : s.Comes t) (g : t.Quiet u) : s.Comes u := by
  obtain ⟨v, w, hv, hm, hw⟩ := h
  exact ⟨v, w, hv, hm, hw.trans g⟩

theorem State.Begins.comes {s : State} {e : Event} (before : State) (h : s.Begins e) : s.Comes (settle before e) :=
  (State.Move.event s before e h).comes

/-- A law that quiet changes and moves keep is kept by whatever a step makes of a state. -/
theorem State.Comes.keeps {P : State → Prop} {s t : State} (h : s.Comes t) (hq : ∀ {u v : State}, u.Quiet v → P u → P v)
    (hm : ∀ {u v : State}, u.Move v → P u → P v) (hs : P s) : P t := by
  obtain ⟨u, v, hsu, huv, hvt⟩ := h
  exact hq hvt (hm huv (hq hsu hs))

end Sys2Proof.Machine
end

section
/-!
Every command comes down to one move: the owners one by one, the events that no request brings, and the frames.
-/

namespace Sys2Proof.Machine

open Sys2Proof

/-! ### Taking a request -/

/-- What a request makes of a state is what its owner makes of it. -/
theorem request_comes {k : Kind} {o : Owner} {p : Port} {pl : List Byte} {s t : State}
    (ho : ∀ u : State, commonRefusal k p pl u.condition = none → u.Comes (o p pl u).1)
    (h : request k o p pl s = .next t) : s.Comes t := by
  obtain ⟨t', ht', hc⟩ := request_elim k o p pl s s.Comes (s.hunt_quiet p).comes
    (fun _ => ((s.hunt_quiet p).trans (State.owe_quiet _ p _)).comes)
    (fun hr => ((s.hunt_quiet p).comes_after (ho _ hr)).quiet (State.owe_quiet _ p _))
  rw [ht'] at h
  injection h with h
  exact h ▸ hc

theorem reading_comes {k : Kind} {f : Port → List Byte → State → Answer} {p : Port} {pl : List Byte} {s t : State}
    (h : request k (reading f) p pl s = .next t) : s.Comes t :=
  request_comes (fun u _ => State.Comes.refl u) h

/-- A kind that is neither a read nor taken in every condition is taken in READY alone (R184). -/
theorem condition_of_commonRefusal {k : Kind} {p : Port} {pl : List Byte} {c : Condition}
    (h : commonRefusal k p pl c = none) (hk : k ≠ .partStatus) (hm : k ≠ .mapTest) (hr : k.isRead = false) :
    c = .ready := by
  cases ha : k.accepts p <;> cases c <;> simp_all [commonRefusal]

/-! ### Owners: the settings and tables -/

/-- The tail of an event that is quiet so far is one move. -/
theorem State.Quiet.comes_settle {s : State} {e : Event} (h : s.Quiet e.state) (before : State) :
    s.Comes (settle before e) :=
  h.comes_after ((State.PieceEvent.nothing e rfl).begins.comes before)

theorem State.setGate_comes (s : State) (hold release limit : Nat) : s.Comes (s.setGate hold release limit) := by
  unfold State.setGate
  apply State.Quiet.comes_settle
  exact ⟨rfl, fun _ => rfl⟩

theorem State.bringOnline_comes (s : State) (h : Head) : s.Comes (s.bringOnline h) := by
  unfold State.bringOnline
  apply State.Quiet.comes_settle
  exact s.updHead_quiet h (f := fun c => { c with state := .ready }) rfl

theorem noticeClearOwner_comes (p : Port) (pl : List Byte) (s : State) : s.Comes (noticeClearOwner p pl s).1 := by
  unfold noticeClearOwner
  dsimp only
  split
  · exact .refl s
  · exact ((s.updNotice_quiet p _).trans (State.driveLines_quiet _)).comes

theorem noticeSetupOwner_comes (p : Port) (pl : List Byte) (s : State) : s.Comes (noticeSetupOwner p pl s).1 := by
  unfold noticeSetupOwner
  dsimp only
  split
  · exact .refl s
  · exact ((s.updNotice_quiet p _).trans (State.driveLines_quiet _)).comes

theorem ruleWriteOwner_comes (p : Port) (pl : List Byte) (s : State) : s.Comes (ruleWriteOwner p pl s).1 := by
  unfold ruleWriteOwner
  split
  · exact State.Quiet.comes ⟨rfl, fun _ => rfl⟩
  · exact .refl s

theorem rangeWriteOwner_comes (p : Port) (pl : List Byte) (s : State) : s.Comes (rangeWriteOwner p pl s).1 := by
  unfold rangeWriteOwner
  split
  · exact State.Quiet.comes ⟨rfl, fun _ => rfl⟩
  · exact .refl s

theorem classDefaultsOwner_comes (p : Port) (pl : List Byte) (s : State) : s.Comes (classDefaultsOwner p pl s).1 := by
  unfold classDefaultsOwner
  split
  · exact .refl s
  · split
    · exact State.Quiet.comes ⟨rfl, fun _ => rfl⟩
    · exact .refl s

theorem setConveyorOwner_comes (p : Port) (pl : List Byte) (s : State) : s.Comes (setConveyorOwner p pl s).1 := by
  unfold setConveyorOwner
  split
  · exact .refl s
  · split
    · exact .refl s
    · exact State.Quiet.comes ⟨rfl, fun _ => rfl⟩

theorem setGateOwner_comes (p : Port) (pl : List Byte) (s : State) : s.Comes (setGateOwner p pl s).1 := by
  unfold setGateOwner
  split
  · exact .refl s
  · exact s.setGate_comes _ _ _

theorem State.releaseGate_comes (s : State) : s.Comes s.releaseGate :=
  (State.Quiet.trans (t := { s with gate := s.gate.disarm }) ⟨rfl, fun _ => rfl⟩ (settleNotices_quiet (State.begin _))).comes

theorem setLineOwner_comes (p : Port) (pl : List Byte) (s : State) : s.Comes (setLineOwner p pl s).1 := by
  unfold setLineOwner
  split
  · rename_i l c _ _
    unfold State.setLine
    dsimp only
    have base := (s.updLine_quiet l fun x => x.configure c (s.sourceValue (s.lines[l]).applied (s.lines[l]).source)).comes_after
      ((State.PieceEvent.deliver (.interlock 0) true).begins.comes s)
    split
    · exact base.quiet (State.updLine_quiet ..)
    · exact base
  · exact .refl s

/-! ### Owners: the part and its library -/

theorem mapTestOwner_comes (p : Port) (pl : List Byte) (s : State) : s.Comes (mapTestOwner p pl s).1 := by
  unfold mapTestOwner
  split
  · rename_i h
    refine State.Comes.quiet (State.Move.mapTest s fun k => ?_).comes (settleNotices_quiet (State.begin _))
    simp only [Bool.and_eq_true, decide_eq_true_eq] at h
    fin_cases k
    · exact h.1
    · exact h.2
  · exact .refl s

theorem libraryBeginOwner_comes (p : Port) (pl : List Byte) (s : State) : s.Comes (libraryBeginOwner p pl s).1 := by
  unfold libraryBeginOwner
  split
  · rename_i n q _ hq
    dsimp only
    split
    · exact (State.Move.endAnyLoad s).comes
    · split
      · exact (State.Move.endAnyLoad s).comes
      · rename_i hr hc
        exact (State.Move.beginLoad s n pl q hq (by omega) (by omega)).comes
  · exact .refl s

theorem libraryRowsOwner_comes (p : Port) (pl : List Byte) (s : State) : s.Comes (libraryRowsOwner p pl s).1 := by
  unfold libraryRowsOwner
  split
  · exact .refl s
  · dsimp only
    split
    · exact .refl s
    · split
      · exact .refl s
      · split
        · exact .refl s
        · rename_i h _ hf
          exact (State.Move.libraryRows s _ pl (not_not.mp h) (by omega)).comes

theorem libraryEndOwner_comes (p : Port) (pl : List Byte) (s : State) : s.Comes (libraryEndOwner p pl s).1 := by
  unfold libraryEndOwner
  split
  · exact .refl s
  · dsimp only
    split
    · exact .refl s
    · rename_i h
      exact (State.Move.endLoad s _ (not_not.mp h)).comes

theorem libraryDropOwner_comes (p : Port) (pl : List Byte) (s : State) : s.Comes (libraryDropOwner p pl s).1 := by
  unfold libraryDropOwner
  split
  · exact .refl s
  · dsimp only
    split
    · exact .refl s
    · exact .refl s
    · rename_i h
      split
      · exact .refl s
      · exact (State.Move.dropPattern s _ h (by omega)).comes

/-! ### Owners: demand, placements and flaws -/

theorem freeTag?_free {s : State} {t : Tag} (h : s.freeTag? = some t) : s.entry? t = none := by
  simpa using List.find?_some h

theorem demandPostOwner_comes (p : Port) (pl : List Byte) (s : State) : s.Comes (demandPostOwner p pl s).1 := by
  unfold demandPostOwner
  split
  · split
    · exact .refl s
    · split
      · exact .refl s
      · rename_i hr
        split
        · exact .refl s
        · split
          · exact .refl s
          · split
            · exact .refl s
            · rename_i hf
              exact (State.PieceEvent.post _ _ _ _ _ (not_not.mp hr) (freeTag?_free hf)).begins.comes _
  · exact .refl s

theorem demandCancelOwner_comes (p : Port) (pl : List Byte) (s : State) : s.Comes (demandCancelOwner p pl s).1 := by
  unfold demandCancelOwner
  split
  · exact .refl s
  · split
    · exact .refl s
    · split
      · exact .refl s
      · rename_i hx _
        exact (State.PieceEvent.cancel _ _ hx).begins.comes _

theorem placementWithdrawOwner_comes (p : Port) (pl : List Byte) (s : State) :
    s.Comes (placementWithdrawOwner p pl s).1 := by
  unfold placementWithdrawOwner
  split
  · split
    · exact .refl s
    · rename_i hp
      split
      · exact .refl s
      · split
        · rename_i hs
          simp only [Bool.or_eq_true, decide_eq_true_eq] at hs
          exact (State.PieceEvent.withdraw _ _ _ hp hs).begins.comes _
        · exact .refl s
  · exact .refl s

theorem declared?_state {pl : List Byte} {f : Flaw} (h : declared? pl = some f) : f.state = .pending := by
  unfold declared? at h
  split at h
  · split at h
    · injection h with h
      rw [← h]
    · cases h
  · cases h

theorem flawAddOwner_comes (p : Port) (pl : List Byte) (s : State) : s.Comes (flawAddOwner p pl s).1 := by
  unfold flawAddOwner
  split
  · exact .refl s
  · split
    · exact .refl s
    · rename_i hk
      split
      · exact .refl s
      · rename_i hf
        split
        · exact .refl s
        · exact (State.HideEvent.addFlaw _ _ (by simpa using hk) (declared?_state hf)).begins.comes _

theorem flawWithdrawOwner_comes (p : Port) (pl : List Byte) (s : State) : s.Comes (flawWithdrawOwner p pl s).1 := by
  unfold flawWithdrawOwner
  split
  · exact .refl s
  · split
    · exact .refl s
    · rename_i hk
      split
      · exact .refl s
      · split
        · exact .refl s
        · rename_i f hf
          dsimp only
          unfold State.withdrawFlaw
          split
          · rename_i hs
            exact (State.HideEvent.dropFlaw _ _ f hf (.inl hs)).begins.comes _
          · rename_i hs
            exact (State.HideEvent.dropFlaw _ _ f hf (.inr hs)).begins.comes _
          · rename_i hs
            exact (State.HideEvent.queueWithdraw _ _ f (by simpa using hk) hf hs).begins.comes _
          · exact .refl s
          · exact .refl s

theorem gradeRunsOwner_comes (p : Port) (pl : List Byte) (s : State) : s.Comes (gradeRunsOwner p pl s).1 := by
  unfold gradeRunsOwner
  split
  · exact .refl s
  · rename_i k _
    dsimp only
    split
    · exact .refl s
    · rename_i hk
      split
      · exact .refl s
      · split
        · exact .refl s
        · dsimp only
          rw [State.gradeRow_eq]
          refine (State.HideEvent.grade k _ _ ?_).begins.comes _
          revert hk
          cases (s.ctxs[k]).state <;> simp

/-! ### Owners: the hide contexts -/

theorem hideOpenOwner_comes (p : Port) (pl : List Byte) (s : State) (hs : s.condition = .ready) :
    s.Comes (hideOpenOwner p pl s).1 := by
  unfold hideOpenOwner
  split
  · exact .refl s
  · split
    · exact .refl s
    · rename_i hb
      split
      · exact .refl s
      · rename_i k hk
        refine (State.HideEvent.openHide k _ _ _ hs ?_ (by omega) (by omega)).begins.comes _
        simpa using List.find?_some hk

theorem markFrontierOwner_comes (p : Port) (pl : List Byte) (s : State) : s.Comes (markFrontierOwner p pl s).1 := by
  unfold markFrontierOwner
  split
  · exact .refl s
  · dsimp only
    split
    · exact .refl s
    · rename_i hk
      dsimp only
      split
      · exact (State.HideEvent.raiseFrontier _ _ (by simpa using hk)).begins.comes _
      · exact .refl s

theorem hideDrainOwner_comes (p : Port) (pl : List Byte) (s : State) : s.Comes (hideDrainOwner p pl s).1 := by
  unfold hideDrainOwner
  split
  · exact .refl s
  · split
    · rename_i hk
      exact (State.PieceEvent.drain _ hk).begins.comes _
    · exact .refl s
    · exact .refl s
    · exact .refl s

theorem hideAbortOwner_comes (p : Port) (pl : List Byte) (s : State) : s.Comes (hideAbortOwner p pl s).1 := by
  unfold hideAbortOwner
  split
  · exact .refl s
  · split
    · exact .refl s
    · rename_i hk
      exact (State.HideEvent.abort _ (by simpa using hk)).begins.comes _

theorem hideReleaseOwner_comes (p : Port) (pl : List Byte) (s : State) : s.Comes (hideReleaseOwner p pl s).1 := by
  unfold hideReleaseOwner
  split
  · exact .refl s
  · split
    · exact .refl s
    · rename_i hk
      exact (State.HideEvent.release _ (not_not.mp hk)).begins.comes _

/-! ### Owners: the heads -/

theorem headOnlineOwner_comes (p : Port) (pl : List Byte) (s : State) : s.Comes (headOnlineOwner p pl s).1 := by
  unfold headOnlineOwner
  dsimp only
  split
  · exact .refl s
  · exact s.bringOnline_comes _

theorem State.mem_records {s : State} {n : SlotNo} {p : Placement} : (n, p) ∈ s.records ↔ s.slots[n] = some p := by
  simp only [State.records, indexed, List.mem_filterMap, Option.map_eq_some_iff, Prod.mk.injEq, Prod.exists]
  constructor
  · rintro ⟨m, o, hm, r, rfl, rfl, rfl⟩
    rw [List.mem_iff_getElem] at hm
    obtain ⟨i, hi, he⟩ := hm
    rw [List.getElem_zip, Prod.mk.injEq] at he
    obtain ⟨h1, h2⟩ := he
    rw [List.getElem_finRange] at h1
    rw [← h1, ← h2]
    rfl
  · intro h
    refine ⟨n, s.slots[n], ?_, p, h, rfl, rfl⟩
    rw [List.mem_iff_getElem]
    refine ⟨n.val, ?_, ?_⟩
    · simp
    · rw [List.getElem_zip, Prod.mk.injEq, List.getElem_finRange]
      exact ⟨rfl, rfl⟩

theorem grantChoice_mem {s : State} {h : Head} {r : SlotNo × Placement} (hr : s.grantChoice h = some r) :
    r ∈ s.records ∧ s.eligible h r.2 = true := by
  have key : ∀ (xs : List (SlotNo × Placement)) (o : Option (SlotNo × Placement)),
      xs.foldl (betterGrant s) o = some r → o = some r ∨ r ∈ xs := by
    intro xs
    induction xs with
    | nil => exact fun o ho => .inl ho
    | cons x xs ih =>
      intro o ho
      rcases ih _ ho with h1 | h1
      · unfold betterGrant at h1
        split at h1
        · exact .inr (by rw [Option.some.inj h1]; exact List.mem_cons_self)
        · split at h1
          · exact .inr (by rw [Option.some.inj h1]; exact List.mem_cons_self)
          · exact .inl h1
      · exact .inr (List.mem_cons_of_mem _ h1)
  rcases key _ _ hr with h1 | h1
  · cases h1
  · exact List.mem_filter.mp h1

theorem eligible_placed {s : State} {h : Head} {p : Placement} (he : s.eligible h p = true) : p.state = .placed := by
  simp only [State.eligible, Bool.and_eq_true, decide_eq_true_eq] at he
  obtain ⟨⟨⟨⟨⟨⟨hp, _⟩, _⟩, _⟩, _⟩, _⟩, _⟩ := he
  exact hp

theorem claimOwner_comes (p : Port) (pl : List Byte) (s : State) : s.Comes (claimOwner p pl s).1 := by
  unfold claimOwner
  dsimp only
  split
  · exact .refl s
  · split
    · exact .refl s
    · split
      · exact .refl s
      · rename_i hg
        obtain ⟨hm, he⟩ := grantChoice_mem hg
        exact (State.PieceEvent.grant _ _ _ (State.mem_records.mp hm) (eligible_placed he)).begins.comes _

theorem State.mem_heldRecords {s : State} {h : Head} {x : Held} {p : Placement} :
    (x, p) ∈ s.heldRecords h ↔ x ∈ (s.heads[h]).held ∧ s.slots[x.slot] = some p := by
  simp only [State.heldRecords, List.mem_filterMap, Option.map_eq_some_iff, Prod.mk.injEq]
  constructor
  · rintro ⟨y, hy, q, hq, rfl, rfl⟩
    exact ⟨hy, hq⟩
  · rintro ⟨hx, hp⟩
    exact ⟨x, hx, p, hp, rfl, rfl⟩

theorem heldBy_held {s : State} {h : Head} {n c : Nat} {k : Ctx} {x : Held} {p : Placement}
    (hx : s.heldBy h n k c = some (x, p)) : x ∈ (s.heads[h]).held ∧ s.slots[x.slot] = some p :=
  State.mem_heldRecords.mp (List.mem_of_find?_eq_some hx)

theorem startCutOwner_comes (p : Port) (pl : List Byte) (s : State) : s.Comes (startCutOwner p pl s).1 := by
  unfold startCutOwner
  dsimp only
  split
  · exact .refl s
  · split
    · exact .refl s
    · rename_i hh
      obtain ⟨hx, hp⟩ := heldBy_held hh
      split
      · exact .refl s
      · exact (State.PieceEvent.startCut _ _ _ hx hp).begins.comes _

theorem cutDoneOwner_comes (p : Port) (pl : List Byte) (s : State) : s.Comes (cutDoneOwner p pl s).1 := by
  unfold cutDoneOwner
  dsimp only
  split
  · exact .refl s
  · split
    · exact .refl s
    · rename_i hh
      obtain ⟨hx, hp⟩ := heldBy_held hh
      split
      · exact .refl s
      · rename_i hs
        unfold State.cutDone
        split
        · exact (State.PieceEvent.spoil _ _ _ hx hp (not_not.mp hs) _).begins.comes _
        · exact (State.PieceEvent.cutThrough _ _ _ hx hp (not_not.mp hs)).begins.comes _

theorem cutFailedOwner_comes (p : Port) (pl : List Byte) (s : State) : s.Comes (cutFailedOwner p pl s).1 := by
  unfold cutFailedOwner
  dsimp only
  split
  · exact .refl s
  · split
    · exact .refl s
    · split
      · exact .refl s
      · rename_i hh
        obtain ⟨hx, hp⟩ := heldBy_held hh
        split
        · exact .refl s
        · rename_i hs
          unfold State.cutFailed
          split
          · exact (State.PieceEvent.fault _ _ _ hx hp (not_not.mp hs) _).begins.comes _
          · exact (State.PieceEvent.spoil _ _ _ hx hp (not_not.mp hs) _).begins.comes _

theorem returnClaimOwner_comes (p : Port) (pl : List Byte) (s : State) : s.Comes (returnClaimOwner p pl s).1 := by
  unfold returnClaimOwner
  dsimp only
  split
  · exact .refl s
  · split
    · exact .refl s
    · rename_i hh
      obtain ⟨hx, hp⟩ := heldBy_held hh
      split
      · exact .refl s
      · rename_i hs
        exact (State.PieceEvent.giveBack _ _ _ hx hp hs).begins.comes _

/-! ### Events that no request brings -/

theorem execClaimTimerExpiry_comes {h : Head} {s t : State} (he : execClaimTimerExpiry h s = .next t) : s.Comes t := by
  unfold execClaimTimerExpiry at he
  split at he
  · rename_i n _ hn
    injection he with he
    subst he
    obtain ⟨_, ⟨p, hp, hs⟩, _⟩ := (State.times_iff s h n).mpr hn
    exact (State.PieceEvent.loseClaim h n p hp hs).begins.comes _
  · injection he with he
    exact he ▸ .refl s
  · injection he with he
    exact he ▸ .refl s

theorem execApplyJobCompletion_comes {s t : State} (he : execApplyJobCompletion s = .next t) : s.Comes t := by
  unfold execApplyJobCompletion at he
  split at he
  · rename_i hj
    split at he
    · rename_i hf
      split at he
      · rename_i hc
        injection he with he
        rw [← he, State.applyFlaw_eq]
        exact (State.HideEvent.applyFlaw _ _ _ _ hj hf hc).begins.comes _
      · injection he with he
        exact he ▸ .refl s
    · injection he with he
      exact he ▸ .refl s
  · injection he with he
    exact he ▸ .refl s
  · injection he with he
    exact he ▸ .refl s

theorem execWithdrawJobCompletion_comes {s t : State} (he : execWithdrawJobCompletion s = .next t) : s.Comes t := by
  unfold execWithdrawJobCompletion at he
  split at he
  · rename_i hj
    split at he
    · rename_i hf
      split at he
      · rename_i hc
        injection he with he
        rw [← he, State.unapplyFlaw_eq]
        exact (State.HideEvent.unapplyFlaw _ _ _ _ hj hf hc).begins.comes _
      · injection he with he
        exact he ▸ .refl s
    · injection he with he
      exact he ▸ .refl s
  · injection he with he
    exact he ▸ .refl s
  · injection he with he
    exact he ▸ .refl s

theorem execSearchCompletion_comes {s t : State} (he : execSearchCompletion s = .next t) : s.Comes t := by
  unfold execSearchCompletion at he
  split at he
  · rename_i hq
    injection he with he
    exact he ▸ (State.PieceEvent.complete _ hq).begins.comes _
  · injection he with he
    exact he ▸ .refl s
  · injection he with he
    exact he ▸ .refl s

theorem State.changeLevel_comes (s : State) (l : LineNo) (level : Bool) : s.Comes (s.changeLevel l level) :=
  (s.updLine_quiet l _).comes_after ((State.PieceEvent.deliver _ level).begins.comes s)

theorem State.followPin_comes (s : State) (l : LineNo) : s.Comes (s.followPin l) := by
  unfold State.followPin
  dsimp only
  split
  · exact .refl s
  · split
    · exact .refl s
    · split
      · exact s.changeLevel_comes l _
      · exact (s.updLine_quiet l _).comes
  · split
    · exact (s.updLine_quiet l _).comes
    · exact (s.updLine_quiet l _).comes

theorem execLinePinChange_comes {l : LineNo} {v : Bool} {s t : State} (he : execLinePinChange l v s = .next t) :
    s.Comes t := by
  unfold execLinePinChange at he
  split at he
  · injection he with he
    exact he ▸ .refl s
  · injection he with he
    exact he ▸ (s.updLine_quiet l _).comes_after (State.followPin_comes _ l)

theorem execDebounceExpiry_comes {l : LineNo} {s t : State} (he : execDebounceExpiry l s = .next t) : s.Comes t := by
  unfold execDebounceExpiry at he
  split at he
  · injection he with he
    exact he ▸ s.changeLevel_comes l _
  · injection he with he
    exact he ▸ .refl s
  · injection he with he
    exact he ▸ .refl s

theorem execEncoderTransition_comes {a b : Bool} {s t : State} (he : execEncoderTransition a b s = .next t) :
    s.Comes t := by
  unfold execEncoderTransition at he
  split at he
  · injection he with he
    exact he ▸ .refl s
  all_goals
    injection he with he
    exact he ▸ (State.Move.turn s _ a b).comes

theorem execNoticeHoldoffExpiry_comes {p : Port} {s t : State} (he : execNoticeHoldoffExpiry p s = .next t) :
    s.Comes t := by
  unfold execNoticeHoldoffExpiry at he
  split at he
  · injection he with he
    exact he ▸ ((s.updNotice_quiet p _).trans (State.driveLines_quiet _)).comes
  · injection he with he
    exact he ▸ .refl s
  · injection he with he
    exact he ▸ .refl s

theorem execMapTestCompletion_comes {rs : List ReadBack} {s t : State} (he : execMapTestCompletion rs s = .next t) :
    s.Comes t := by
  unfold execMapTestCompletion at he
  split at he
  · rename_i hc
    injection he with he
    simp only [Bool.or_eq_true, decide_eq_true_eq] at hc
    exact he ▸ (State.Move.endMapTest s _ hc).comes
  · injection he with he
    exact he ▸ .refl s

theorem execGateHoldLimitExpiry_comes {s t : State} (he : execGateHoldLimitExpiry s = .next t) : s.Comes t := by
  unfold execGateHoldLimitExpiry at he
  split at he
  · injection he with he
    exact he ▸ s.releaseGate_comes
  · injection he with he
    exact he ▸ .refl s

/-! ### Frames -/

/-- A frame of a known kind comes down to one move of its owner. -/
theorem takeFrame_comes {k : Kind} {p : Port} {pl : List Byte} {s t : State} (h : takeFrame k p pl s = .next t) :
    s.Comes t := by
  cases k with
  | partStatus => exact reading_comes h
  | noticeRead => exact reading_comes h
  | noticeClear => exact request_comes (fun u _ => noticeClearOwner_comes p pl u) h
  | noticeSetup => exact request_comes (fun u _ => noticeSetupOwner_comes p pl u) h
  | mapRead => exact reading_comes h
  | placementRead => exact reading_comes h
  | hideReport => exact reading_comes h
  | lineStatus => exact reading_comes h
  | partReset => exact request_comes (fun u _ => (State.Move.partReset u).comes) h
  | mapTest => exact request_comes (fun u _ => mapTestOwner_comes p pl u) h
  | setWeights => exact request_comes (fun u _ => State.Quiet.comes ⟨rfl, fun _ => rfl⟩) h
  | setConveyor => exact request_comes (fun u _ => setConveyorOwner_comes p pl u) h
  | setGate => exact request_comes (fun u _ => setGateOwner_comes p pl u) h
  | gateRelease => exact request_comes (fun u _ => u.releaseGate_comes) h
  | setLine => exact request_comes (fun u _ => setLineOwner_comes p pl u) h
  | libraryBegin => exact request_comes (fun u _ => libraryBeginOwner_comes p pl u) h
  | libraryRows => exact request_comes (fun u _ => libraryRowsOwner_comes p pl u) h
  | libraryEnd => exact request_comes (fun u _ => libraryEndOwner_comes p pl u) h
  | libraryDrop => exact request_comes (fun u _ => libraryDropOwner_comes p pl u) h
  | libraryRead => exact reading_comes h
  | ruleWrite => exact request_comes (fun u _ => ruleWriteOwner_comes p pl u) h
  | ruleRead => exact reading_comes h
  | rangeWrite => exact request_comes (fun u _ => rangeWriteOwner_comes p pl u) h
  | classDefaults => exact request_comes (fun u _ => classDefaultsOwner_comes p pl u) h
  | demandPost => exact request_comes (fun u _ => demandPostOwner_comes p pl u) h
  | demandCancel => exact request_comes (fun u _ => demandCancelOwner_comes p pl u) h
  | demandRead => exact reading_comes h
  | hideDrain => exact request_comes (fun u _ => hideDrainOwner_comes p pl u) h
  | hideAbort => exact request_comes (fun u _ => hideAbortOwner_comes p pl u) h
  | hideRelease => exact request_comes (fun u _ => hideReleaseOwner_comes p pl u) h
  | placementWithdraw => exact request_comes (fun u _ => placementWithdrawOwner_comes p pl u) h
  | hideOpen =>
    exact request_comes (fun u hu => hideOpenOwner_comes p pl u
      (condition_of_commonRefusal hu (by decide) (by decide) rfl)) h
  | gradeRuns => exact request_comes (fun u _ => gradeRunsOwner_comes p pl u) h
  | flawAdd => exact request_comes (fun u _ => flawAddOwner_comes p pl u) h
  | flawWithdraw => exact request_comes (fun u _ => flawWithdrawOwner_comes p pl u) h
  | flawRead => exact reading_comes h
  | markFrontier => exact request_comes (fun u _ => markFrontierOwner_comes p pl u) h
  | headOnline => exact request_comes (fun u _ => headOnlineOwner_comes p pl u) h
  | headOffline => exact request_comes (fun u _ => (State.PieceEvent.leaveWork (portHead p) false).begins.comes u) h
  | claim => exact request_comes (fun u _ => claimOwner_comes p pl u) h
  | startCut => exact request_comes (fun u _ => startCutOwner_comes p pl u) h
  | cutDone => exact request_comes (fun u _ => cutDoneOwner_comes p pl u) h
  | cutFailed => exact request_comes (fun u _ => cutFailedOwner_comes p pl u) h
  | returnClaim => exact request_comes (fun u _ => returnClaimOwner_comes p pl u) h

theorem State.refuseFrame_comes (s : State) (p : Port) (kind : Byte) (c : Code) : s.Comes (s.refuseFrame p kind c) :=
  ((s.hunt_quiet p).trans (State.owe_quiet _ p _)).comes

theorem goodFrame_comes {p : Port} {kind : Byte} {pl : List Byte} {s t : State}
    (h : goodFrame p kind pl s = .next t) : s.Comes t := by
  unfold goodFrame at h
  split at h
  · injection h with h
    exact h ▸ (s.hunt_quiet p).comes
  · split at h
    · injection h with h
      exact h ▸ s.refuseFrame_comes p kind _
    · exact takeFrame_comes h

theorem completeFrame_comes {p : Port} {kind check : Byte} {pl : List Byte} {s t : State}
    (h : completeFrame p kind pl check s = .next t) : s.Comes t := by
  unfold completeFrame at h
  split at h
  · injection h with h
    exact h ▸ (s.hunt_quiet p).comes
  · split at h
    · exact goodFrame_comes h
    · injection h with h
      exact h ▸ s.refuseFrame_comes p kind _

theorem execFrameByteReceived_comes {p : Port} {b : Byte} {s t : State}
    (h : execFrameByteReceived p b s = .next t) : s.Comes t := by
  have take : ∀ r, s.Comes (s.receive p r) := fun r => (s.updPort_quiet p _).comes
  unfold execFrameByteReceived at h
  split at h
  · split at h
    · injection h with h
      exact h ▸ take _
    · injection h with h
      exact h ▸ .refl s
  · injection h with h
    exact h ▸ take _
  · split at h
    · injection h with h
      exact h ▸ (s.hunt_quiet p).comes
    · injection h with h
      exact h ▸ take _
  · split at h
    · injection h with h
      exact h ▸ take _
    · exact completeFrame_comes h

/-! ### Every command, every step -/

/-- Every command comes down to one move. -/
theorem exec_comes {c : Instr} {s t : State} (h : exec c s = .next t) : s.Comes t := by
  cases c with
  | powerUp =>
    injection h with h
    exact h ▸ (State.Move.powerUp s).comes
  | mapTestCompletion rs => exact execMapTestCompletion_comes h
  | noticeHoldoffExpiry p => exact execNoticeHoldoffExpiry_comes h
  | applyJobCompletion => exact execApplyJobCompletion_comes h
  | withdrawJobCompletion => exact execWithdrawJobCompletion_comes h
  | searchCompletion => exact execSearchCompletion_comes h
  | encoderTransition a b => exact execEncoderTransition_comes h
  | gateHoldLimitExpiry => exact execGateHoldLimitExpiry_comes h
  | claimTimerExpiry g => exact execClaimTimerExpiry_comes h
  | linePinChange l v => exact execLinePinChange_comes h
  | debounceExpiry l => exact execDebounceExpiry_comes h
  | outputHoldEnd l =>
    injection h with h
    exact h ▸ (s.updLine_quiet l _).comes
  | unknownKind p k pl => exact goodFrame_comes h
  | checkRefused p k pl c => exact completeFrame_comes h
  | frameDiscardedOwed p k pl c => exact completeFrame_comes h
  | frameGapTimeout p =>
    injection h with h
    exact h ▸ (s.hunt_quiet p).comes
  | lineErrorDiscard p =>
    injection h with h
    exact h ▸ (s.hunt_quiet p).comes
  | lengthOverflowDiscard p n =>
    unfold exec execLengthOverflowDiscard at h
    dsimp only at h
    split at h
    · injection h with h
      exact h ▸ (s.hunt_quiet p).comes
    · injection h with h
      exact h ▸ .refl s
  | replySent p =>
    injection h with h
    exact h ▸ (s.updPort_quiet p _).comes
  | frameByteReceived p b => exact execFrameByteReceived_comes h
  | partStatus p pl => exact takeFrame_comes (k := .partStatus) h
  | partReset p pl => exact takeFrame_comes (k := .partReset) h
  | mapTest p pl => exact takeFrame_comes (k := .mapTest) h
  | noticeRead p pl => exact takeFrame_comes (k := .noticeRead) h
  | noticeClear p pl => exact takeFrame_comes (k := .noticeClear) h
  | noticeSetup p pl => exact takeFrame_comes (k := .noticeSetup) h
  | mapRead p pl => exact takeFrame_comes (k := .mapRead) h
  | gradeRuns p pl => exact takeFrame_comes (k := .gradeRuns) h
  | flawAdd p pl => exact takeFrame_comes (k := .flawAdd) h
  | flawWithdraw p pl => exact takeFrame_comes (k := .flawWithdraw) h
  | flawRead p pl => exact takeFrame_comes (k := .flawRead) h
  | ruleWrite p pl => exact takeFrame_comes (k := .ruleWrite) h
  | rangeWrite p pl => exact takeFrame_comes (k := .rangeWrite) h
  | classDefaults p pl => exact takeFrame_comes (k := .classDefaults) h
  | ruleReadEntry p pl => exact takeFrame_comes (k := .ruleRead) h
  | ruleReadTables p pl => exact takeFrame_comes (k := .ruleRead) h
  | libraryBegin p pl => exact takeFrame_comes (k := .libraryBegin) h
  | libraryRows p pl => exact takeFrame_comes (k := .libraryRows) h
  | libraryEnd p pl => exact takeFrame_comes (k := .libraryEnd) h
  | libraryDrop p pl => exact takeFrame_comes (k := .libraryDrop) h
  | libraryReadRecord p pl => exact takeFrame_comes (k := .libraryRead) h
  | libraryReadMask p pl => exact takeFrame_comes (k := .libraryRead) h
  | demandPost p pl => exact takeFrame_comes (k := .demandPost) h
  | demandCancel p pl => exact takeFrame_comes (k := .demandCancel) h
  | demandReadEntry p pl => exact takeFrame_comes (k := .demandRead) h
  | demandReadList p pl => exact takeFrame_comes (k := .demandRead) h
  | setWeights p pl => exact takeFrame_comes (k := .setWeights) h
  | placementRead p pl => exact takeFrame_comes (k := .placementRead) h
  | hideReport p pl => exact takeFrame_comes (k := .hideReport) h
  | placementWithdraw p pl => exact takeFrame_comes (k := .placementWithdraw) h
  | hideOpen p pl => exact takeFrame_comes (k := .hideOpen) h
  | markFrontier p pl => exact takeFrame_comes (k := .markFrontier) h
  | hideDrain p pl => exact takeFrame_comes (k := .hideDrain) h
  | hideAbort p pl => exact takeFrame_comes (k := .hideAbort) h
  | hideRelease p pl => exact takeFrame_comes (k := .hideRelease) h
  | setConveyor p pl => exact takeFrame_comes (k := .setConveyor) h
  | setGate p pl => exact takeFrame_comes (k := .setGate) h
  | gateRelease p pl => exact takeFrame_comes (k := .gateRelease) h
  | headOnline p pl => exact takeFrame_comes (k := .headOnline) h
  | headOffline p pl => exact takeFrame_comes (k := .headOffline) h
  | claim p pl => exact takeFrame_comes (k := .claim) h
  | startCut p pl => exact takeFrame_comes (k := .startCut) h
  | cutDone p pl => exact takeFrame_comes (k := .cutDone) h
  | cutFailed p pl => exact takeFrame_comes (k := .cutFailed) h
  | returnClaim p pl => exact takeFrame_comes (k := .returnClaim) h
  | setLine p pl => exact takeFrame_comes (k := .setLine) h
  | lineStatus p pl => exact takeFrame_comes (k := .lineStatus) h

/-- Every step comes down to one move. -/
theorem step_comes {s t : State} (h : step s = .next t) : s.Comes t := by
  unfold step at h
  split at h
  · injection h with h
    subst h
    unfold State.idle
    split
    · exact State.Quiet.comes ⟨rfl, fun _ => rfl⟩
    · exact s.advance_quiet.comes
  · rename_i c rest _
    exact State.Quiet.comes_after (t := { s with pending := rest }) ⟨rfl, fun _ => rfl⟩ (exec_comes h)

end Sys2Proof.Machine
end

section
/-!
What the events of pieces, searches and heads leave of the hides: a calm event changes no grade, cap, class, flaw, map
or frontier. From it the canonical form of the planes, the seventh law and the EMPTY contexts outside READY follow.
-/

namespace Sys2Proof.Machine

open Sys2Proof

/-! ### Planes by what they read -/

/-- A canonical plane whose cells all read as the reset cell lists none. -/
theorem Plane.eq_nil_of_read {p : Plane} (hp : p.wf = true) (h : ∀ a, p.read a = Cell.reset) : p = [] := by
  cases p with
  | nil => rfl
  | cons u rest =>
    obtain ⟨b, d⟩ := u
    have hd := ((Plane.wf_cons b d rest).mp hp).2.1
    have hr := h b
    rw [Plane.read, if_pos rfl] at hr
    exact absurd hr hd

theorem State.planesWf_replicate_nil {s : State} (h : s.planes = Vector.replicate 2 []) : s.planesWf := by
  intro k
  rw [h, get_replicate]
  exact Plane.wf_nil

/-! ### Calm changes -/

/-- What a calm event may change of the hides: a context's state from OPEN to DRAINING, its drain cause, its registration,
its counts, and the cells' occupants. -/
structure State.Calm (s t : State) : Prop where
  condition : t.condition = s.condition
  flaws : t.flaws = s.flaws
  jobs : t.jobs = s.jobs
  inFlight : t.inFlight = s.inFlight
  ctx : ∀ k : Ctx, t.ctxs[k] = { s.ctxs[k] with
    state := (t.ctxs[k]).state, drainCause := (t.ctxs[k]).drainCause, registered := (t.ctxs[k]).registered,
    count := (t.ctxs[k]).count, commits := (t.ctxs[k]).commits }
  draining : ∀ k : Ctx, (t.ctxs[k]).state = (s.ctxs[k]).state ∨
    ((s.ctxs[k]).state = .opened ∧ (t.ctxs[k]).state = .draining)
  wf : s.planesWf → t.planesWf
  /-- A cell changes in its occupant alone. -/
  cells : s.planesWf → ∀ (k : Ctx) (a : Nat),
    (t.planes[k]).read a = { (s.planes[k]).read a with occupant := ((t.planes[k]).read a).occupant }
  /-- A cell of an EMPTY context gets no occupant. -/
  blank : s.planesWf → ∀ k : Ctx, (s.ctxs[k]).state = .empty → ∀ a, ((s.planes[k]).read a).occupant = none →
    ((t.planes[k]).read a).occupant = none

theorem State.Calm.empty_iff {s t : State} (h : s.Calm t) (k : Ctx) :
    (t.ctxs[k]).state = .empty ↔ (s.ctxs[k]).state = .empty := by
  rcases h.draining k with e | ⟨e1, e2⟩
  · rw [e]
  · rw [e1, e2]; decide

theorem State.Calm.of_eq {s t : State} (condition : t.condition = s.condition) (flaws : t.flaws = s.flaws)
    (jobs : t.jobs = s.jobs) (inFlight : t.inFlight = s.inFlight) (ctxs : t.ctxs = s.ctxs)
    (planes : t.planes = s.planes) : s.Calm t where
  condition := condition
  flaws := flaws
  jobs := jobs
  inFlight := inFlight
  ctx k := by rw [ctxs]
  draining k := .inl (by rw [ctxs])
  wf h k := by rw [planes]; exact h k
  cells _ k a := by rw [planes]
  blank _ k _ a h := by rw [planes]; exact h

theorem State.Calm.refl (s : State) : s.Calm s := .of_eq rfl rfl rfl rfl rfl rfl

theorem State.Calm.trans {s t u : State} (h : s.Calm t) (g : t.Calm u) : s.Calm u where
  condition := g.condition.trans h.condition
  flaws := g.flaws.trans h.flaws
  jobs := g.jobs.trans h.jobs
  inFlight := g.inFlight.trans h.inFlight
  ctx k := by rw [g.ctx k, h.ctx k]
  draining k := by
    rcases h.draining k with e | ⟨e1, e2⟩ <;> rcases g.draining k with f | ⟨f1, f2⟩
    · exact .inl (f.trans e)
    · exact .inr ⟨e ▸ f1, f2⟩
    · exact .inr ⟨e1, f.trans e2⟩
    · exact .inr ⟨e1, f2⟩
  wf e := g.wf (h.wf e)
  cells e k a := by rw [g.cells (h.wf e) k a, h.cells e k a]
  blank e k he a ha := g.blank (h.wf e) k ((h.empty_iff k).mpr he) a (h.blank e k he a ha)

theorem State.Quiet.calm {s t : State} (h : s.Quiet t) : s.Calm t :=
  .of_eq h.condition h.flaws h.jobs h.inFlight h.ctxs h.planes

theorem State.Pieces.calm {s t : State} (h : s.Pieces t) : s.Calm t where
  condition := by rw [h.rest]
  flaws := by rw [h.rest]
  jobs := by rw [h.rest]
  inFlight := by rw [h.rest]
  ctx k := by rw [h.rest]
  draining k := .inl (by rw [h.rest])
  wf e := (h.cells e).1
  cells e k a := by rcases (h.cells e).2 k a with r | r <;> rw [r]
  blank e k _ a ha := by rcases (h.cells e).2 k a with r | r <;> rw [r]; exact ha

theorem State.updCtx_calm (s : State) (k : Ctx) (f : HideContext → HideContext)
    (hf : f s.ctxs[k] = { s.ctxs[k] with
      state := (f s.ctxs[k]).state, drainCause := (f s.ctxs[k]).drainCause, registered := (f s.ctxs[k]).registered,
      count := (f s.ctxs[k]).count, commits := (f s.ctxs[k]).commits })
    (hs : (f s.ctxs[k]).state = (s.ctxs[k]).state ∨ ((s.ctxs[k]).state = .opened ∧ (f s.ctxs[k]).state = .draining)) :
    s.Calm (s.updCtx k f) where
  condition := rfl
  flaws := rfl
  jobs := rfl
  inFlight := rfl
  ctx j := by
    rw [State.updCtx_ctxs, get_set]
    split
    · rename_i hj; subst hj; exact hf
    · rfl
  draining j := by
    rw [State.updCtx_ctxs, get_set]
    split
    · rename_i hj; subst hj; exact hs
    · exact .inl rfl
  wf h := h
  cells _ _ _ := rfl
  blank _ _ _ _ h := h

/-! ### Events are calm -/

theorem State.advanceScan_calm (s : State) : s.Calm s.advanceScan := by
  refine .of_eq ?_ ?_ ?_ ?_ ?_ ?_ <;> simp

theorem Event.foldl_calm {α : Type} (f : Event → α → Event) (h : ∀ (e : Event) (x : α), e.state.Calm (f e x).state) (xs : List α)
    (e : Event) : e.state.Calm (xs.foldl f e).state := by
  induction xs generalizing e with
  | nil => exact .refl _
  | cons x xs ih => exact (h e x).trans (ih _)

theorem State.removeIfDone_calm (s : State) (t : Tag) : s.Calm (s.removeIfDone t) := by
  unfold State.removeIfDone
  split
  · exact .refl s
  · split
    · exact .of_eq rfl rfl rfl rfl rfl rfl
    · exact .refl s

theorem State.dropHolder_calm (s : State) (t : Tag) : s.Calm (s.dropHolder t) :=
  State.Calm.trans (t := s.updEntry t _) (.of_eq rfl rfl rfl rfl rfl rfl) (State.removeIfDone_calm _ t)

theorem Event.free_calm (e : Event) (n : SlotNo) : e.state.Calm (e.free n).state := by
  unfold Event.free
  split
  · exact .refl _
  · rename_i p _
    refine State.Calm.trans ?_ (State.Calm.trans (State.dropHolder_calm
      { e.state.setSlot n none with withdrawn := e.state.withdrawn.filter fun m => m ≠ n } p.tag) ?_)
    · exact .of_eq rfl rfl rfl rfl rfl rfl
    · exact .of_eq rfl rfl rfl rfl rfl rfl

/-- Occupying the cells under a candidate changes nothing else of them. -/
theorem occupy_cell (p : Plane) (d : Pattern) (c : Candidate) (n : SlotNo) (a : Nat) (hp : p.wf = true) :
    (occupy p d c n).read a = { p.read a with occupant := ((occupy p d c n).read a).occupant } := by
  have key : ∀ (cells : List (Nat × Nat)) (q : Plane), q.wf = true →
      (Plane.update q cells fun _ cell => { cell with occupant := some n }).read a =
        { q.read a with occupant :=
          ((Plane.update q cells fun _ cell => { cell with occupant := some n }).read a).occupant } := by
    intro cells
    induction cells with
    | nil => exact fun _ _ => rfl
    | cons xy cells ih =>
      intro q hq
      have hstep := ih _ (Plane.write_wf q (cellAddr xy.1 xy.2)
        { q.read (cellAddr xy.1 xy.2) with occupant := some n } hq)
      have hcons : Plane.update q (xy :: cells) (fun _ cell => { cell with occupant := some n }) =
          Plane.update (q.write (cellAddr xy.1 xy.2) { q.read (cellAddr xy.1 xy.2) with occupant := some n }) cells
            fun _ cell => { cell with occupant := some n } := rfl
      rw [hcons, hstep, Plane.read_write _ _ _ _ hq]
      by_cases ha : a = cellAddr xy.1 xy.2
      · rw [if_pos ha, ha]
      · rw [if_neg ha]
  exact key _ p hp

/-- What a commit makes of the state, once its slot is free (R87). -/
theorem Event.commit_state (e : Event) (n : SlotNo) (q : Search) (b : Best) :
    (e.commit n q b).state = { (e.free n).state with
      slots := (e.free n).state.slots.set n (some ((e.free n).state.commitRecord q b)),
      planes := (e.free n).state.planes.set q.pair.ctx
        (occupy (e.free n).state.planes[q.pair.ctx] q.samples.drawing b.cand n),
      entries := (e.free n).state.entries.map fun x =>
        if x.tag = q.pair.tag then { x with live := x.live + 1, holders := x.holders + 1 } else x,
      patterns := (e.free n).state.patterns.set q.samples.pattern
        { (e.free n).state.patterns[q.samples.pattern] with
          refs := ((e.free n).state.patterns[q.samples.pattern]).refs + 1 },
      ctxs := (e.free n).state.ctxs.set q.pair.ctx
        { (e.free n).state.ctxs[q.pair.ctx] with commits := ((e.free n).state.ctxs[q.pair.ctx]).commits + 1 },
      searchUnit := .idle } := by
  unfold Event.commit
  generalize e.free n = f
  rfl

theorem Event.commit_calm (e : Event) (n : SlotNo) (q : Search) (b : Best)
    (hk : (e.state.ctxs[q.pair.ctx]).state ≠ .empty) : e.state.Calm (e.commit n q b).state := by
  have hf := Event.free_calm e n
  have hk' : ((e.free n).state.ctxs[q.pair.ctx]).state ≠ .empty := fun h => hk ((hf.empty_iff _).mp h)
  refine hf.trans ?_
  rw [Event.commit_state]
  generalize (e.free n).state = s at hk'
  refine ⟨rfl, rfl, rfl, rfl, fun j => ?_, fun j => .inl ?_, fun h j => ?_, fun h j a => ?_, fun h j he a ha => ?_⟩
  · dsimp only
    rw [get_set]
    split
    · rename_i hj; subst hj; rfl
    · rfl
  · dsimp only
    rw [get_set]
    split
    · rename_i hj; subst hj; rfl
    · rfl
  · dsimp only
    rw [get_set]
    split
    · exact Plane.update_wf _ _ _ (h _)
    · exact h j
  · dsimp only
    rw [get_set]
    split
    · rename_i hj
      subst hj
      exact occupy_cell _ _ _ _ _ (h _)
    · rfl
  · dsimp only
    rw [get_set]
    split
    · rename_i hj
      subst hj
      exact absurd he hk'
    · exact ha

theorem Event.startPair_calm (e : Event) (q : Pair) (n : Nat) : e.state.Calm (e.startPair q n).state := by
  unfold Event.startPair
  split <;> exact .of_eq rfl rfl rfl rfl rfl rfl

theorem Event.finish_calm (e : Event) (q : Search) (b : Option Best) : e.state.Calm (e.finish q b).state := by
  unfold Event.finish
  split
  · exact .of_eq rfl rfl rfl rfl rfl rfl
  · split
    · rename_i hv
      split
      · refine Event.commit_calm _ _ _ _ ?_
        have hopen := ((State.reverified_iff _ _ _).mpr hv).1
        rw [hopen]
        decide
      · exact .of_eq rfl rfl rfl rfl rfl rfl
    · unfold Event.failVerify
      split
      · exact Event.startPair_calm ..
      · exact .of_eq rfl rfl rfl rfl rfl rfl

theorem State.cancelling_calm (s : State) (t : Tag) : s.Calm (s.cancelling t).state := by
  have base : s.Calm (((s.advanceScan.updEntry t fun x => { x with state := .cancelled }).begin).withdrawAll
      (s.advanceScan.uncutSlots t) .cancelled).state :=
    (s.advanceScan_calm.trans (u := s.advanceScan.updEntry t fun x => { x with state := .cancelled })
      (.of_eq rfl rfl rfl rfl rfl rfl)).trans
      (Event.withdrawAll_pieces (s.advanceScan.updEntry t fun x => { x with state := .cancelled }).begin _ _).calm
  unfold State.cancelling
  dsimp only
  rw [Event.on_state]
  refine State.Calm.trans ?_ (State.removeIfDone_calm _ t)
  split
  · exact base.trans (.of_eq rfl rfl rfl rfl rfl rfl)
  · exact base

theorem State.drainCtx_calm (s : State) (k : Ctx) (c : DrainCause) (h : (s.ctxs[k]).state = .opened) :
    s.Calm (s.drainCtx k c) := by
  have base := s.updCtx_calm k (fun x => { x with state := .draining, drainCause := some c }) rfl (.inr ⟨h, rfl⟩)
  unfold State.drainCtx
  dsimp only
  split
  · exact base.trans (.of_eq rfl rfl rfl rfl rfl rfl)
  · exact base

theorem Event.takeOffline_calm (e : Event) (h : Head) (b : Bool) : e.state.Calm (e.takeOffline h b).state := by
  unfold Event.takeOffline
  rw [Event.on_state]
  exact (Event.foldl_pieces _ (Event.giveUp_pieces h b) _ e).calm.trans (State.updHead_quiet _ h rfl).calm

theorem Event.viewInterlock_calm (e : Event) (h : Head) : e.state.Calm (e.viewInterlock h).state := by
  unfold Event.viewInterlock
  dsimp only
  have base : e.state.Calm (e.on fun s => s.updHead h fun c => { c with interlock := e.state.interlockView h }).state := by
    rw [Event.on_state]
    exact (State.updHead_quiet _ h rfl).calm
  split
  · exact base.trans (Event.takeOffline_calm _ h true)
  · exact base

theorem Event.viewInterlocks_calm (e : Event) : e.state.Calm e.viewInterlocks.state :=
  (Event.viewInterlock_calm e 0).trans (Event.viewInterlock_calm _ 1)

theorem Event.loseReach_pieces (k : Ctx) (h : Head) (e : Event) (x : Held) :
    State.Pieces e.state (Event.loseReach k h e x).state := by
  unfold Event.loseReach
  split
  · exact .refl _
  · split
    · exact .refl _
    · split
      · split
        · exact .refl _
        · exact Event.abortCut_pieces ..
      · split
        · exact .refl _
        · exact Event.loseClaim_pieces ..

theorem Event.reachLoss_pieces (e : Event) (k : Ctx) : State.Pieces e.state (e.reachLoss k).state :=
  (Event.foldl_pieces _ (Event.loseReach_pieces k 0) _ _).trans (Event.foldl_pieces _ (Event.loseReach_pieces k 1) _ _)

theorem Event.separationLoss_pieces (k : Ctx) (n : Nat) (e : Event) :
    State.Pieces e.state (Event.separationLoss k n e).state := by
  induction n generalizing e with
  | zero => exact .refl _
  | succ n ih =>
    unfold Event.separationLoss
    split
    · exact .refl _
    · refine State.Pieces.trans ?_ (ih _)
      unfold Event.takeShort
      split
      · exact Event.abortCut_pieces ..
      · exact Event.loseClaim_pieces ..

theorem Event.testMissed_pieces (k : Ctx) (e : Event) (n : SlotNo) :
    State.Pieces e.state (Event.testMissed k e n).state := by
  unfold Event.testMissed
  split
  · exact .refl _
  · split
    · exact State.Pieces.ofSame rfl
    · exact .refl _

theorem Event.exhaust_calm (e : Event) (k : Ctx) : e.state.Calm (e.exhaust k).state := by
  unfold Event.exhaust
  split
  · rename_i h
    simp only [Bool.and_eq_true, decide_eq_true_eq] at h
    exact State.drainCtx_calm _ _ _ h.1
  · exact .refl _

/-- What a change of cell travel does after the window is over the pieces alone. -/
theorem Event.travelChange_calm (e : Event) (k : Ctx) : e.state.Calm (e.travelChange k).state :=
  (e.exhaust_calm k).trans (((Event.reachLoss_pieces _ k).trans (Event.separationLoss_pieces k 4 _)).trans
    (Event.foldl_pieces _ (Event.testMissed_pieces k) _ _)).calm

theorem Event.hideEdge_calm (e : Event) : e.state.Calm e.hideEdge.state := by
  unfold Event.hideEdge
  split
  · exact .refl _
  · rename_i k _
    dsimp only
    refine State.Calm.trans (t := e.state.register k) ?_ (Event.travelChange_calm (Event.mk _ _) k)
    exact (e.state.updCtx_calm k (fun c => { c with registered := true, count := 0 }) rfl (.inl rfl)).trans
      (State.Quiet.calm ⟨rfl, fun _ => rfl⟩)

theorem Event.deliver_calm (e : Event) (f : InputFunction) (v : Bool) : e.state.Calm (e.deliver f v).state := by
  unfold Event.deliver
  split
  · exact .refl _
  · split
    · exact e.hideEdge_calm
    · exact .refl _
  · split
    · exact State.Quiet.calm ⟨rfl, fun _ => rfl⟩
    · exact .refl _
  · exact e.viewInterlocks_calm

theorem Event.faultHead_calm (e : Event) (h : Head) : e.state.Calm (e.faultHead h).state := by
  unfold Event.faultHead
  dsimp only
  rw [Event.raise_state, Event.on_state]
  exact (Event.foldl_pieces (fun e n => e.on fun s => s.returnClaim n) (fun e n => State.returnClaim_pieces e.state n) _ e).calm.trans
    (State.updHead_quiet _ h rfl).calm

/-- The events that are not the hides' own are calm. -/
theorem State.PieceEvent.calm {s : State} {e : Event} (h : s.PieceEvent e) : s.Calm e.state := by
  cases h with
  | nothing _ he => exact he ▸ .refl _
  | post => exact .of_eq rfl rfl rfl rfl rfl rfl
  | cancel t x hx => exact s.cancelling_calm t
  | complete q hq => exact s.begin.finish_calm q _
  | withdraw n c p hp hs => exact s.advanceScan_calm.trans (Event.withdraw_pieces (State.begin _) n c).calm
  | drain k hk => exact s.drainCtx_calm k _ hk
  | leaveWork h b => exact s.begin.takeOffline_calm h b
  | grant => exact .of_eq rfl rfl rfl rfl rfl rfl
  | startCut => exact .of_eq rfl rfl rfl rfl rfl rfl
  | cutThrough h x p hx hp hs =>
    unfold Event.cutThrough
    rw [Event.raiseIf_state, Event.raiseIf_state]
    exact .of_eq rfl rfl rfl rfl rfl rfl
  | spoil h x p hx hp hs c => exact (Event.spoil_pieces s.begin x.slot c).calm
  | fault h x p hx hp hs c => exact (Event.spoil_pieces s.begin x.slot c).calm.trans (Event.faultHead_calm _ h)
  | giveBack h x p hx hp hs => exact (State.returnClaim_pieces s x.slot).calm
  | loseClaim h n p hp hs => exact (Event.loseClaim_pieces s.begin h n).calm
  | deliver f v => exact s.begin.deliver_calm f v

/-! ### Encoder transitions -/

/-- A law that quiet changes of the belt, changes of cell travel and tails keep is kept by an encoder transition. -/
theorem State.turn_keeps {P : State → Prop} (s : State) (t : Transition) (a b : Bool) (hm : P (s.moveBelt t a b))
    (he : ∀ (u before : State) (k : Ctx), P u → P (settle before (u.begin.travelChange k))) : P (s.turn t a b) := by
  have travel : ∀ (old new before u : State) (k : Ctx), P u → P (travelEvent old new k before u) := by
    intro old new before u k hu
    unfold travelEvent
    split
    · exact he u before k hu
    · exact hu
  exact travel _ _ _ _ 1 (travel _ _ _ _ 0 hm)

theorem State.moveBelt_calm (s : State) (t : Transition) (a b : Bool) : s.Calm (s.moveBelt t a b) where
  condition := rfl
  flaws := rfl
  jobs := rfl
  inFlight := rfl
  ctx k := by
    simp only [State.moveBelt, get_map, HideContext.move]
    split <;> rfl
  draining k := by
    left
    simp only [State.moveBelt, get_map, HideContext.move]
    split <;> rfl
  wf h := h
  cells _ _ _ := rfl
  blank _ _ _ _ h := h

end Sys2Proof.Machine
end

section
/-!
What the hides' own events do, the piece work apart, and the planes' canonical form over every move.
-/

namespace Sys2Proof.Machine

open Sys2Proof

/-! ### The canonical form of the planes -/

theorem writeRuns_wf (w y : Nat) (runs : List GradeRun) (p : Plane) (h : p.wf = true) :
    (writeRuns p w y runs).wf = true := by
  unfold writeRuns
  induction runs generalizing p with
  | nil => exact h
  | cons r runs ih => exact ih _ (Plane.update_wf _ _ _ h)

theorem State.setPlane_planesWf {s : State} {k : Ctx} {q : Plane} (h : s.planesWf) (hq : q.wf = true) :
    (s.setPlane k q).planesWf :=
  (s.setPlane_keeps k q fun _ => hq).planes h

/-! ### The hides' own events, piece work apart -/

/-- The state in which GRADE RUNS has written its row, its downgrade check aside (R10). -/
def State.rowWritten (s : State) (k : Ctx) (y : Nat) (runs : List GradeRun) : State :=
  s.advanceScan.setPlane k (writeRuns s.planes[k] (s.ctxs[k]).width y runs)

/-- Once its row is written, GRADE RUNS changes pieces alone. -/
theorem State.grading_pieces (s : State) (k : Ctx) (y : Nat) (runs : List GradeRun) :
    State.Pieces (s.rowWritten k y runs) (s.grading k y runs).state := by
  have base := Event.downgrade_pieces (s.rowWritten k y runs).begin
    (writeRuns s.planes[k] (s.ctxs[k]).width y runs)
    (downgrades s.planes[k] (writeRuns s.planes[k] (s.ctxs[k]).width y runs)
      ((List.range (s.ctxs[k]).width).map fun x => (x, y))) .gradeChange
  unfold State.grading
  dsimp only
  split
  · exact State.Pieces.trans base (State.clearMarks_pieces _ k)
  · exact base

/-- Once its flaw is written, the end of an APPLY job changes pieces alone. -/
theorem State.applying_pieces (s : State) (k : Ctx) (n : Nat) (f : Flaw) (c : Classified) :
    State.Pieces (s.flawWritten k n f c) (s.applying k n f c).state :=
  Event.downgrade_pieces ((s.flawWritten k n f c).begin.raise .flawApplied) _ _ _

/-- A HIDE ABORT before it comes to the slots: the context's marking work is cleared out and a search on it abandoned
(R39, R95). -/
def State.abortStart (s : State) (k : Ctx) : State :=
  if s.searchesOn k then (s.advanceScan.clearMarking k).abandonSearch else s.advanceScan.clearMarking k

/-- A HIDE ABORT once it is through the slots (R112). -/
def State.abortPieces (s : State) (k : Ctx) : Event :=
  (s.abortStart k).usedSlots.foldl (Event.abortSlot k) (s.abortStart k).begin

theorem State.searchesOn_advanceScan (s : State) (k : Ctx) : s.advanceScan.searchesOn k = s.searchesOn k := by
  cases h : s.searchUnit <;> simp only [State.advanceScan, State.searchesOn, State.scanOn, h]

theorem State.aborting_eq (s : State) (k : Ctx) :
    s.aborting k = ((((s.abortPieces k).on fun u => u.updCtx k fun c => { c with state := .closed, aborted := true }).raise
      .hideClosed).raise .hideClosedMarking) := by
  have h : (s.advanceScan.clearMarking k).searchesOn k = s.searchesOn k := s.searchesOn_advanceScan k
  unfold State.abortPieces State.abortStart
  rw [← h]
  rfl

theorem State.abortPieces_pieces (s : State) (k : Ctx) : State.Pieces (s.abortStart k) (s.abortPieces k).state :=
  Event.foldl_pieces _ (Event.abortSlot_pieces k) (s.abortStart k).usedSlots (s.abortStart k).begin

/-- What the start of an abort leaves: the marking work, the Search Unit and the model's counter aside, everything. -/
theorem State.abortStart_rest (s : State) (k : Ctx) :
    s.abortStart k = { s with
      flaws := s.flaws.set k ((s.flaws[k]).map Flaw.abandoned), jobs := s.jobs.filter fun j => j.ctx ≠ k,
      inFlight := s.inFlight.filter fun j => j.ctx ≠ k, searchUnit := (s.abortStart k).searchUnit,
      freeIndex := (s.abortStart k).freeIndex } := by
  unfold State.abortStart State.clearMarking State.abandonSearch State.setFlaws
  rw [s.advanceScan_rest]
  split <;> rfl

/-- What removing an entry that is done leaves: entries, patterns and marks aside, everything (R62). -/
theorem State.removeIfDone_rest (s : State) (t : Tag) :
    s.removeIfDone t = { s with
      entries := (s.removeIfDone t).entries, patterns := (s.removeIfDone t).patterns,
      marks := (s.removeIfDone t).marks } := by
  unfold State.removeIfDone
  split
  · rfl
  · split <;> rfl

/-- What an entry's and a pattern's loss of a slot leaves: entries, patterns and marks aside, everything. -/
theorem State.dropHolder_dropRef_rest (s : State) (t : Tag) (n : PatNo) :
    (s.dropHolder t).dropRef n = { s with
      entries := ((s.dropHolder t).dropRef n).entries, patterns := ((s.dropHolder t).dropRef n).patterns,
      marks := ((s.dropHolder t).dropRef n).marks } := by
  have h := State.removeIfDone_rest (s.updEntry t fun e => { e with holders := e.holders - 1 }) t
  unfold State.dropHolder
  generalize (s.updEntry t fun e => { e with holders := e.holders - 1 }).removeIfDone t = u at h
  rw [h]
  rfl

/-- What freeing a slot leaves of the hides: everything. -/
theorem Event.free_rest (e : Event) (n : SlotNo) :
    (e.free n).state = { e.state with
      slots := (e.free n).state.slots, withdrawn := (e.free n).state.withdrawn, entries := (e.free n).state.entries,
      patterns := (e.free n).state.patterns, marks := (e.free n).state.marks } := by
  have key : ∀ {s u v : State}, u = { s with slots := u.slots, withdrawn := u.withdrawn } →
      v = { u with entries := v.entries, patterns := v.patterns, marks := v.marks } →
      v = { s with
        slots := v.slots, withdrawn := v.withdrawn, entries := v.entries, patterns := v.patterns,
        marks := v.marks } := by
    intro s u v hu hv
    rw [hu] at hv
    rw [hv]
  unfold Event.free
  split
  · rfl
  · exact key (u := { e.state.setSlot n none with withdrawn := e.state.withdrawn.filter fun m => m ≠ n }) rfl
      (State.dropHolder_dropRef_rest _ _ _)

theorem Event.freeAll_rest (ns : List SlotNo) (e : Event) :
    (e.freeAll ns).state = { e.state with
      slots := (e.freeAll ns).state.slots, withdrawn := (e.freeAll ns).state.withdrawn,
      entries := (e.freeAll ns).state.entries, patterns := (e.freeAll ns).state.patterns,
      marks := (e.freeAll ns).state.marks } := by
  induction ns generalizing e with
  | nil => rfl
  | cons n ns ih =>
    have h := ih (e.free n)
    rw [Event.free_rest e n] at h
    exact h

/-- What a HIDE RELEASE makes of the state, its slots freed (R128). -/
theorem State.releasing_state (s : State) (k : Ctx) :
    (s.releasing k).state = { (s.begin.freeAll (s.slotsOf k)).state with
      planes := s.planes.set k [], flaws := s.flaws.set k [],
      marks := (s.begin.freeAll (s.slotsOf k)).state.marks.set k 0,
      ctxs := (s.ctxs.set k HideContext.reset).set (otherCtx k)
        (HideContext.promote (s.ctxs.set k HideContext.reset)[otherCtx k]) } := by
  have h := Event.freeAll_rest (s.slotsOf k) s.begin
  unfold State.releasing
  rw [Event.on_state]
  generalize (s.begin.freeAll (s.slotsOf k)).state = u at h
  rw [h]
  rfl

theorem State.HideEvent.planesWf {s : State} {e : Event} (h : s.HideEvent e) (hs : s.planesWf) : e.state.planesWf := by
  have ha : s.advanceScan.planesWf := s.advanceScan_keeps.planes hs
  cases h with
  | grade k y runs hk =>
    exact ((s.grading_pieces k y runs).cells (State.setPlane_planesWf ha (writeRuns_wf _ _ _ _ (hs k)))).1
  | addFlaw => exact hs
  | applyFlaw k n f c hj hf hc =>
    exact ((s.applying_pieces k n f c).cells
      (State.setPlane_planesWf (s := s.advanceScan) ha (Plane.update_wf _ _ _ (hs k)))).1
  | dropFlaw => exact hs
  | queueWithdraw => exact hs
  | unapplyFlaw k n f c hj hf hc =>
    exact State.setPlane_planesWf (s := s.advanceScan) ha (Plane.update_wf _ _ _ (hs k))
  | openHide => exact hs
  | raiseFrontier => exact hs
  | abort k hk =>
    have h0 : (s.abortStart k).planesWf := by
      rw [State.abortStart_rest]
      exact hs
    have h1 := ((s.abortPieces_pieces k).cells h0).1
    rw [State.aborting_eq]
    exact h1
  | release k hk =>
    intro j
    rw [State.releasing_state]
    dsimp only
    rw [get_set]
    split
    · exact Plane.wf_nil
    · exact hs j

theorem State.endAnyLoad_planes (s : State) : s.endAnyLoad.planes = s.planes := by
  unfold State.endAnyLoad
  split <;> rfl

theorem State.endMapTest_planes (s : State) (n : Nat) : (s.endMapTest n).planes = Vector.replicate 2 [] := by
  unfold State.endMapTest State.answerMapTest
  split <;> simp

theorem State.Move.planesWf {s t : State} (h : s.Move t) (hs : s.planesWf) : t.planesWf := by
  cases h with
  | stay => exact hs
  | powerUp => exact State.planesWf_replicate_nil rfl
  | partReset => exact State.planesWf_replicate_nil rfl
  | mapTest => exact hs
  | endMapTest n hc => exact State.planesWf_replicate_nil (s.endMapTest_planes n)
  | endAnyLoad =>
    intro k
    rw [State.endAnyLoad_planes]
    exact hs k
  | beginLoad n pl p hp hr hroom =>
    intro k
    show (s.endAnyLoad.planes[k]).wf = true
    rw [State.endAnyLoad_planes]
    exact hs k
  | libraryRows => exact hs
  | endLoad => exact hs
  | dropPattern => exact hs
  | turn tr a b =>
    exact s.turn_keeps tr a b ((s.moveBelt_calm tr a b).wf hs) fun u before k hu =>
      (settle_keeps before _).planes ((Event.travelChange_calm u.begin k).wf hu)
  | event before e he =>
    refine (settle_keeps before e).planes ?_
    rcases he with he | he
    · exact he.planesWf hs
    · exact he.calm.wf hs

/-- Settles O49, over the moves a step can make. -/
theorem stepKeepsPlanesCanonical : Obligations.StepKeepsPlanesCanonical := by
  intro s t hs hstep
  exact (step_comes hstep).keeps (P := State.planesWf) (fun hq hu => hq.calm.wf hu) (fun hm hu => hm.planesWf hu) hs

end Sys2Proof.Machine
end

section
/-!
The seventh law: the bounds of the hide maps and their frontiers, no frontier falls, and no context is open outside READY.
-/

namespace Sys2Proof.Machine

open Sys2Proof

/-! ### What a change makes of the hide contexts -/

/-- What every step keeps of the hide contexts: their maps stay within the planes and their frontiers within the maps, no
frontier of a hide that stays falls, and outside READY no context comes to be open. -/
structure State.Holds (s t : State) : Prop where
  bounds : s.hidesWf → t.hidesWf
  rises : s.frontierRises t
  idle : s.idleUnlessReady → t.idleUnlessReady

/-- Of two changes after one another, the first is to leave every hide open that the second finds open. -/
theorem State.Holds.trans {s t u : State} (h : s.Holds t) (g : t.Holds u)
    (hk : ∀ k : Ctx, (s.ctxs[k]).state ≠ .empty → (u.ctxs[k]).state ≠ .empty → (t.ctxs[k]).state ≠ .empty) :
    s.Holds u where
  bounds hs := g.bounds (h.bounds hs)
  rises k hs hu := (h.rises k hs (hk k hs hu)).trans (g.rises k (hk k hs hu) hu)
  idle hs := g.idle (h.idle hs)

/-- A change that holds, and opens and releases no context. -/
structure State.Stays (s t : State) : Prop extends State.Holds s t where
  empty_iff : ∀ k : Ctx, (t.ctxs[k]).state = .empty ↔ (s.ctxs[k]).state = .empty

theorem State.Stays.then_holds {s t u : State} (h : s.Stays t) (g : t.Holds u) : s.Holds u :=
  h.toHolds.trans g fun k hs _ ht => hs ((h.empty_iff k).mp ht)

theorem State.Holds.then_stays {s t u : State} (h : s.Holds t) (g : t.Stays u) : s.Holds u :=
  h.trans g.toHolds fun k _ hu ht => hu ((g.empty_iff k).mpr ht)

theorem State.Stays.trans {s t u : State} (h : s.Stays t) (g : t.Stays u) : s.Stays u where
  toHolds := h.then_holds g.toHolds
  empty_iff k := (g.empty_iff k).trans (h.empty_iff k)

theorem State.Calm.stays {s t : State} (h : s.Calm t) : s.Stays t where
  bounds hs k := by rw [h.ctx k]; exact hs k
  rises k _ _ := by rw [h.ctx k]
  idle hs hc k := (h.empty_iff k).mpr (hs (h.condition ▸ hc) k)
  empty_iff := h.empty_iff

/-- A tail keeps the contexts but for the closing of drained ones. -/
theorem State.Tail.stays {s t : State} (h : State.Tail s t) : s.Stays t where
  bounds hs := h.keeps.frontier hs
  rises k _ _ := by rw [h.ctx k]
  idle hs hc k := h.keeps.empty k (hs (h.condition ▸ hc) k)
  empty_iff k := by
    rcases h.closing k with e | ⟨e1, e2⟩
    · rw [e]
    · rw [e1, e2]; decide

/-- Contexts and condition that are as they were hold. -/
theorem State.Holds.of_eq {s t : State} (hc : t.condition = s.condition) (hk : t.ctxs = s.ctxs) : s.Holds t where
  bounds hs k := by rw [hk]; exact hs k
  rises k _ _ := by rw [hk]
  idle hs e k := by rw [hk]; exact hs (hc ▸ e) k

/-- A part whose contexts are all at their reset value holds. -/
theorem State.Holds.of_reset {s t : State} (hk : t.ctxs = Vector.replicate 2 HideContext.reset) : s.Holds t where
  bounds _ k := by
    rw [hk, get_replicate]
    decide
  rises k _ ht := absurd (by rw [hk, get_replicate]; rfl) ht
  idle _ _ k := by rw [hk, get_replicate]; rfl

/-! ### The events of the hides -/

/-- A context changes within its bounds, without a fall of its frontier, and opens in READY alone. -/
theorem State.updCtx_holds (s : State) (k : Ctx) (f : HideContext → HideContext)
    (hb : s.hidesWf → (f s.ctxs[k]).frontier ≤ (f s.ctxs[k]).width ∧ (f s.ctxs[k]).width ≤ 768 ∧
      (f s.ctxs[k]).height ≤ 512)
    (hr : (s.ctxs[k]).state ≠ .empty → (s.ctxs[k]).frontier ≤ (f s.ctxs[k]).frontier)
    (hi : s.condition = .ready ∨ (s.ctxs[k]).state ≠ .empty ∨ (f s.ctxs[k]).state = .empty) :
    s.Holds (s.updCtx k f) where
  bounds hs j := by
    rw [State.updCtx_ctxs, get_set]
    split
    · exact hb hs
    · exact hs j
  rises j hj _ := by
    rw [State.updCtx_ctxs, get_set]
    split
    · rename_i hk; subst hk; exact hr hj
    · exact le_refl _
  idle hs hc j := by
    rw [State.updCtx_ctxs, get_set]
    split
    · rcases hi with hi | hi | hi
      · exact absurd hi hc
      · exact absurd (hs hc k) hi
      · exact hi
    · exact hs hc j

theorem CtxState.ne_empty_of_cuttable {x : CtxState} (h : x.cuttable = true) : x ≠ .empty := by
  rintro rfl
  exact absurd h (by decide)

theorem HideContext.raised_le {c : HideContext} (v : Nat) (h : c.frontier ≤ c.width) : c.raised v ≤ c.width :=
  max_le h (min_le_right _ _)

theorem HideContext.promote_state (c : HideContext) : c.promote.state = c.state := by
  unfold HideContext.promote
  split <;> rfl

/-- What a HIDE RELEASE makes of a context: its own is EMPTY, the other keeps all but its rank (R128). -/
theorem State.releasing_ctx (s : State) (k j : Ctx) :
    (j = k ∧ (s.releasing k).state.ctxs[j] = HideContext.reset) ∨
    (s.releasing k).state.ctxs[j] = { s.ctxs[j] with rank := ((s.releasing k).state.ctxs[j]).rank } := by
  rw [State.releasing_state]
  dsimp only
  rw [get_set]
  split
  · rename_i hj
    subst hj
    rw [get_set, if_neg (show ¬ otherCtx k = k by revert k; decide)]
    right
    unfold HideContext.promote
    split <;> rfl
  · rw [get_set]
    split
    · rename_i hj
      exact .inl ⟨hj, rfl⟩
    · exact .inr rfl

theorem State.releasing_condition (s : State) (k : Ctx) : (s.releasing k).state.condition = s.condition := by
  rw [State.releasing_state, Event.freeAll_rest]
  rfl

theorem State.releasing_holds (s : State) (k : Ctx) : s.Holds (s.releasing k).state where
  bounds hs j := by
    rcases s.releasing_ctx k j with ⟨_, h⟩ | h <;> rw [h]
    · decide
    · exact hs j
  rises j _ ht := by
    rcases s.releasing_ctx k j with ⟨_, h⟩ | h
    · rw [h] at ht
      exact absurd rfl ht
    · rw [h]
  idle hs hc j := by
    rcases s.releasing_ctx k j with ⟨_, h⟩ | h <;> rw [h]
    · rfl
    · exact hs (s.releasing_condition k ▸ hc) j

theorem State.HideEvent.holds {s : State} {e : Event} (h : s.HideEvent e) : s.Holds e.state := by
  cases h with
  | grade k y runs hk =>
    refine .of_eq ?_ ?_ <;> rw [(s.grading_pieces k y runs).rest]
    · exact s.advanceScan_condition
    · exact s.advanceScan_ctxs
  | addFlaw => exact .of_eq rfl rfl
  | applyFlaw k n f c hj hf hc =>
    refine .of_eq ?_ ?_ <;> rw [(s.applying_pieces k n f c).rest]
    · exact s.advanceScan_condition
    · exact s.advanceScan_ctxs
  | dropFlaw => exact .of_eq rfl rfl
  | queueWithdraw => exact .of_eq rfl rfl
  | unapplyFlaw k n f c hj hf hc => exact .of_eq s.advanceScan_condition s.advanceScan_ctxs
  | openHide k w h a hready hk hw hh =>
    exact s.updCtx_holds k (fun _ => s.openedCtx k w h a) (fun _ => ⟨Nat.zero_le _, hw, hh⟩) (fun hs => absurd hk hs) (.inl hready)
  | raiseFrontier k v hk =>
    refine State.Holds.then_stays ?_ (State.clearMarks_pieces _ k).calm.stays
    exact s.updCtx_holds k _ (fun hs => ⟨HideContext.raised_le v (hs k).1, (hs k).2⟩) (fun _ => le_max_left _ _)
      (.inr (.inl (CtxState.ne_empty_of_cuttable hk)))
  | abort k hk =>
    have hp := (s.abortPieces_pieces k).rest
    have hc : (s.abortPieces k).state.ctxs = s.ctxs := by rw [hp, State.abortStart_rest]
    have hr : (s.abortPieces k).state.condition = s.condition := by rw [hp, State.abortStart_rest]
    have hne := CtxState.ne_empty_of_cuttable hk
    rw [← hc] at hne
    rw [State.aborting_eq, Event.raise_state, Event.raise_state, Event.on_state]
    refine (State.Stays.mk (.of_eq hr hc) fun j => by rw [hc]).then_holds ?_
    exact State.updCtx_holds _ k _ (fun hs => hs k) (fun _ => le_refl _) (.inr (.inl hne))
  | release k hk => exact s.releasing_holds k

/-! ### The moves -/

theorem State.endAnyLoad_ctxs (s : State) : s.endAnyLoad.ctxs = s.ctxs := by
  unfold State.endAnyLoad
  split <;> rfl

theorem State.endAnyLoad_condition (s : State) : s.endAnyLoad.condition = s.condition := by
  unfold State.endAnyLoad
  split <;> rfl

theorem State.endMapTest_ctxs (s : State) (n : Nat) : (s.endMapTest n).ctxs = s.ctxs := by
  have h : ∀ u : State, (u.answerMapTest n).ctxs = u.ctxs := by
    intro u
    unfold State.answerMapTest
    split <;> rfl
  unfold State.endMapTest
  rw [h, (settleNotices_quiet _).ctxs, Event.raiseIf_state]
  rfl

theorem State.turn_stays (s : State) (t : Transition) (a b : Bool) : s.Stays (s.turn t a b) :=
  s.turn_keeps t a b (s.moveBelt_calm t a b).stays fun u before k hu =>
    hu.trans ((Event.travelChange_calm u.begin k).stays.trans (settle_tail before _).stays)

theorem State.Move.holds {s t : State} (h : s.Move t) : s.Holds t := by
  cases h with
  | stay => exact .of_eq rfl rfl
  | powerUp => exact .of_reset rfl
  | partReset => exact .of_reset rfl
  | mapTest hk => exact ⟨id, fun _ _ _ => le_refl _, fun _ _ => hk⟩
  | endMapTest n hc =>
    have hk := s.endMapTest_ctxs n
    refine ⟨fun hs k => hk ▸ hs k, fun k _ _ => by rw [hk], fun hs _ k => ?_⟩
    rw [hk]
    refine hs ?_ k
    rcases hc with e | e <;> rw [e] <;> decide
  | endAnyLoad => exact .of_eq s.endAnyLoad_condition s.endAnyLoad_ctxs
  | beginLoad n pl p hp hr hroom => exact .of_eq (s.endAnyLoad_condition) (s.endAnyLoad_ctxs)
  | libraryRows => exact .of_eq rfl rfl
  | endLoad => exact .of_eq rfl rfl
  | dropPattern => exact .of_eq rfl rfl
  | turn tr a b => exact (s.turn_stays tr a b).toHolds
  | event before e he =>
    refine State.Holds.then_stays ?_ (settle_tail before e).stays
    rcases he with he | he
    · exact he.holds
    · exact he.calm.stays.toHolds

theorem State.Comes.holds {s t : State} (h : s.Comes t) : s.Holds t := by
  obtain ⟨u, v, hsu, huv, hvt⟩ := h
  exact (hsu.calm.stays.then_holds huv.holds).then_stays hvt.calm.stays

/-- Settles O53, over the moves a step can make. -/
theorem stepKeepsFrontierLaw : Obligations.StepKeepsFrontierLaw :=
  ⟨fun _ _ hs h => (step_comes h).holds.bounds hs, fun _ _ h => (step_comes h).holds.rises,
    fun _ _ hs h => (step_comes h).holds.idle hs⟩

end Sys2Proof.Machine
end

section
/-!
Power-up: the state a part resets to, field by field.
-/

namespace Sys2Proof.Machine

open Sys2Proof

/-- Settles O3. -/
theorem powerUpGivesResetState : Obligations.PowerUpGivesResetState := by
  refine ⟨⟨rfl, rfl, rfl, rfl⟩, ⟨rfl, rfl, rfl, rfl, rfl, ?_, ?_, rfl, ?_, rfl, rfl, rfl, rfl, rfl, rfl, ?_, rfl, ?_,
    rfl, rfl, rfl, rfl, ?_, rfl, ?_, rfl, ?_, ?_⟩, ?_⟩
  · exact fun i => ⟨get_replicate .., get_replicate ..⟩
  · exact fun i => get_replicate ..
  · exact fun i => get_replicate ..
  · exact fun i => get_replicate ..
  · exact fun i => ⟨get_replicate .., get_replicate ..⟩
  · exact fun i => get_replicate ..
  · exact fun i => get_replicate ..
  · exact fun i => get_replicate ..
  · intro p
    constructor <;> revert p <;> decide
  · intro s
    exact ⟨s.powerUp, rfl, rfl, fun l => get_map ..⟩

end Sys2Proof.Machine
end

section
/-!
MAP READ: taking a read in READY and FAILED, and the answer of its owner check by check.
-/

namespace Sys2Proof.Machine

open Sys2Proof

/-! ### Taking a read -/

/-- The common checks pass a read of right length in READY and FAILED (R184). -/
theorem commonRefusal_read {k : Kind} {p : Port} {pl : List Byte} {c : Condition} (hc : c = .ready ∨ c = .failed)
    (hr : k.isRead = true) (ha : k.accepts p = true) (hl : k.lengthOk pl = true) : commonRefusal k p pl c = none := by
  unfold commonRefusal
  rcases hc with rfl | rfl <;> simp [hr, ha, hl]

/-- A read that its owner refuses. -/
theorem request_read_refuses {k : Kind} {f : Port → List Byte → State → Answer} {p : Port} {pl : List Byte} {s : State}
    {c : Code} (h : s.takesRead p) (hr : k.isRead = true) (ha : k.accepts p = true) (hl : k.lengthOk pl = true)
    (ho : f p pl (s.hunt p) = .refuse c) : request k (reading f) p pl s = .next (s.refused k p c) := by
  rw [request_owner k _ p pl s h.1 (commonRefusal_read h.2 hr ha hl), reading, ho]
  rfl

/-- A read that its owner answers. -/
theorem request_read_accepts {k : Kind} {f : Port → List Byte → State → Answer} {p : Port} {pl a : List Byte} {s : State}
    (h : s.takesRead p) (hr : k.isRead = true) (ha : k.accepts p = true) (hl : k.lengthOk pl = true)
    (ho : f p pl (s.hunt p) = .accept a) : request k (reading f) p pl s = .next (s.answered k p a) := by
  rw [request_owner k _ p pl s h.1 (commonRefusal_read h.2 hr ha hl), reading, ho]
  rfl

/-! ### The owner -/

theorem mapReadAnswer_noCtx {pl : List Byte} (h : 1 < u8 pl 0) (p : Port) (s : State) :
    mapReadAnswer p pl s = .refuse .range := by
  unfold mapReadAnswer
  rw [index?_none h]

theorem mapReadAnswer_empty {pl : List Byte} {s : State} {k : Ctx} (hk : u8 pl 0 = k.val)
    (h : (s.ctxs[k]).state = .empty) (p : Port) : mapReadAnswer p pl s = .refuse .state := by
  unfold mapReadAnswer
  rw [index?_of_eq k hk]
  exact if_pos h

theorem mapReadAnswer_range {pl : List Byte} {s : State} {k : Ctx} (hk : u8 pl 0 = k.val)
    (h : (s.ctxs[k]).state ≠ .empty)
    (hr : (s.ctxs[k]).height ≤ u16 pl 1 ∨ (s.ctxs[k]).width ≤ u16 pl 3 ∨ u8 pl 5 = 0 ∨ 48 < u8 pl 5) (p : Port) :
    mapReadAnswer p pl s = .refuse .range := by
  unfold mapReadAnswer
  rw [index?_of_eq k hk]
  exact (if_neg h).trans (if_pos hr)

theorem mapReadAnswer_accept {pl : List Byte} {s : State} {k : Ctx} (hk : u8 pl 0 = k.val)
    (h : (s.ctxs[k]).state ≠ .empty)
    (hr : ¬ ((s.ctxs[k]).height ≤ u16 pl 1 ∨ (s.ctxs[k]).width ≤ u16 pl 3 ∨ u8 pl 5 = 0 ∨ 48 < u8 pl 5)) (p : Port) :
    mapReadAnswer p pl s =
      .accept (s.rowReadBytes k (u16 pl 1) (u16 pl 3) (min (u8 pl 5) ((s.ctxs[k]).width - u16 pl 3))) := by
  unfold mapReadAnswer
  rw [index?_of_eq k hk]
  exact (if_neg h).trans (if_neg hr)

/-- Settles O7, check by check of MAP READ's owner. -/
theorem mapReadReplies : Obligations.MapReadReplies := by
  intro p pl s hs hp hl
  have ha : Kind.mapRead.accepts p = true := by rcases hp with rfl | rfl <;> rfl
  have hlen : Kind.mapRead.lengthOk pl = true := decide_eq_true hl
  have refuses : ∀ {c : Code}, mapReadAnswer p pl (s.hunt p) = .refuse c →
      exec (.mapRead p pl) s = .next (s.refused .mapRead p c) := fun h => request_read_refuses hs rfl ha hlen h
  refine ⟨fun h => refuses (mapReadAnswer_noCtx h p _), fun k hk => ⟨fun he => refuses (mapReadAnswer_empty hk he p),
    fun he => ⟨fun hr => refuses (mapReadAnswer_range hk he hr p), fun hy hx hn hn' => ?_⟩⟩⟩
  refine (request_read_accepts hs rfl ha hlen (mapReadAnswer_accept (s := s.hunt p) hk he ?_ p)).trans ?_
  · show ¬ ((s.ctxs[k]).height ≤ u16 pl 1 ∨ (s.ctxs[k]).width ≤ u16 pl 3 ∨ u8 pl 5 = 0 ∨ 48 < u8 pl 5)
    omega
  · simp only [State.rowReadBytes, Cell.bytes, Cell.effective_val]
    rfl

end Sys2Proof.Machine
end

section
/-!
The map test: how it starts and ends, what it counts, and the properties of its patterns.
-/

namespace Sys2Proof.Machine

open Sys2Proof

/-! ### The count -/

theorem nodup_eraseDups {α : Type} [BEq α] [LawfulBEq α] : ∀ xs : List α, xs.eraseDups.Nodup
  | [] => List.nodup_nil
  | x :: xs => by
    rw [List.eraseDups_cons, List.nodup_cons, List.mem_eraseDups]
    exact ⟨by simp, nodup_eraseDups _⟩
  termination_by xs => xs.length
  decreasing_by exact Nat.lt_succ_of_le (List.length_filter_le _ _)

/-- The cells of both planes. -/
def allCells : List CellName :=
  (List.finRange 2).flatMap fun k => (List.finRange 768).flatMap fun x => (List.finRange 512).map fun y => (k, x, y)

theorem mem_allCells (c : CellName) : c ∈ allCells := by
  obtain ⟨k, x, y⟩ := c
  simp only [allCells, List.mem_flatMap, List.mem_map]
  exact ⟨k, List.mem_finRange k, x, List.mem_finRange x, y, List.mem_finRange y, rfl⟩

theorem allCells_nodup : allCells.Nodup := by
  have h : allCells = List.finRange 2 ×ˢ (List.finRange 768 ×ˢ List.finRange 512) := by
    simp only [allCells, SProd.sprod, List.product, List.map_flatMap, List.map_map]
    rfl
  rw [h]
  exact (List.nodup_finRange 2).product ((List.nodup_finRange 768).product (List.nodup_finRange 512))

/-- A map test counts each mismatched cell of the planes once (R14). -/
theorem mismatchCount_eq (rs : List ReadBack) : mismatchCount rs = min 65535 (allCells.countP (mismatched rs)) := by
  have hp : List.Perm ((rs.filter differs).map cellOf).eraseDups (allCells.filter (mismatched rs)) := by
    refine (List.perm_ext_iff_of_nodup (nodup_eraseDups _) (allCells_nodup.filter _)).mpr fun c => ?_
    rw [mem_counted_iff, List.mem_filter]
    exact ⟨fun h => ⟨mem_allCells c, h⟩, fun h => h.2⟩
  unfold mismatchCount
  rw [hp.length_eq, List.countP_eq_length_filter]

/-- The mismatch of a cell, read-back by read-back. -/
theorem mismatched_eq (rs : List ReadBack) (c : CellName) :
    mismatched rs c = rs.any fun r => decide (r.plane = c.1) && decide (r.column = c.2.1) && decide (r.row = c.2.2) &&
      decide (r.cell ≠ writtenCell r.pattern r.plane r.column r.row) := by
  unfold mismatched cellOf differs
  congr 1
  funext r
  simp only [Prod.ext_iff, Bool.decide_and, Bool.and_assoc]

/-! ### The patterns -/

/-- Cells on different phases hold complementary alternating patterns. -/
theorem alternatingCell_inverted {x y x' y' : Nat} (h : (x' + y') % 2 ≠ (x + y) % 2) :
    alternatingCell x' y' = invertedCell (alternatingCell x y) := by
  unfold alternatingCell
  rcases Nat.mod_two_eq_zero_or_one (x + y) with e | e
  · rw [e, show (x' + y') % 2 = 1 by omega]
    decide
  · rw [e, show (x' + y') % 2 = 0 by omega]
    decide

theorem ofNat_add_ne {w n d : Nat} (hw : 3 ≤ w) (hd : 1 ≤ d) (h8 : d < 8) : BitVec.ofNat w (n + d) ≠ BitVec.ofNat w n := by
  intro h
  have hn : (n + d) ≡ n [MOD 2 ^ w] := by
    have := congrArg BitVec.toNat h
    rwa [BitVec.toNat_ofNat, BitVec.toNat_ofNat] at this
  have hdvd : 2 ^ w ∣ d := by
    have h0 := (Nat.modEq_iff_dvd' (Nat.le_add_right n d)).mp hn.symm
    rwa [Nat.add_sub_cancel_left] at h0
  have h8w : 2 ^ 3 ≤ 2 ^ w := Nat.pow_le_pow_right (by decide) hw
  have := Nat.le_of_dvd hd hdvd
  omega

/-- Address-derived cells whose addresses lie one to seven steps apart differ in every field. -/
theorem addressCell_ne {k : Ctx} {x y x' y' d : Nat} (h : x' + y' = x + y + d) (hd : 1 ≤ d) (h8 : d < 8) :
    (addressCell k x' y').base ≠ (addressCell k x y).base ∧ (addressCell k x' y').cap ≠ (addressCell k x y).cap ∧
    (addressCell k x' y').classes ≠ (addressCell k x y).classes ∧
    (addressCell k x' y').occupant ≠ (addressCell k x y).occupant := by
  have hs : k.val + x' + y' = k.val + x + y + d := by omega
  simp only [addressCell, hs]
  exact ⟨ofNat_add_ne (by decide) hd h8, ofNat_add_ne (by decide) hd h8, ofNat_add_ne (by decide) hd h8,
    ofNat_add_ne (by decide) hd h8⟩

/-! ### The request -/

theorem commonRefusal_mapTest {c : Condition} (h : c = .ready ∨ c = .failed) : commonRefusal .mapTest 0 [] c = none := by
  rcases h with rfl | rfl <;> rfl

theorem exec_mapTest {s : State} (ho : (s.ports[(0 : Port)]).owed = none) (hc : s.condition = .ready ∨ s.condition = .failed) :
    exec (.mapTest 0 []) s = .next (settleAnswer .mapTest 0 (mapTestOwner 0 [] (s.hunt 0))) :=
  request_owner .mapTest mapTestOwner 0 [] s ho (commonRefusal_mapTest hc)

theorem mapTestOwner_starts {s : State} (h : ∀ k : Ctx, (s.ctxs[k]).state = .empty) :
    mapTestOwner 0 [] s = (State.driveLines { s with condition := .testing }, .later) := by
  unfold mapTestOwner
  rw [h 0, h 1, settleNotices_begin]
  rfl

theorem mapTestOwner_refuses {s : State} (h : ∃ k : Ctx, (s.ctxs[k]).state ≠ .empty) :
    mapTestOwner 0 [] s = (s, .refuse .state) := by
  obtain ⟨k, hk⟩ := h
  unfold mapTestOwner
  refine if_neg fun hb => ?_
  simp only [Bool.and_eq_true, decide_eq_true_eq] at hb
  rcases (by decide : ∀ k : Ctx, k = 0 ∨ k = 1) k with rfl | rfl
  · exact hk hb.1
  · exact hk hb.2

/-- The state a MAP TEST leaves that is taken. -/
def State.testStarted (s : State) : State := State.owe (State.driveLines { s.hunt 0 with condition := .testing }) 0 .mapTest

theorem exec_mapTest_starts {s : State} (ho : (s.ports[(0 : Port)]).owed = none)
    (hc : s.condition = .ready ∨ s.condition = .failed) (hk : ∀ k : Ctx, (s.ctxs[k]).state = .empty) :
    exec (.mapTest 0 []) s = .next s.testStarted := by
  rw [exec_mapTest ho hc, mapTestOwner_starts (s := s.hunt 0) hk]
  rfl

theorem exec_mapTest_refuses {s : State} (ho : (s.ports[(0 : Port)]).owed = none)
    (hc : s.condition = .ready ∨ s.condition = .failed) (hk : ∃ k : Ctx, (s.ctxs[k]).state ≠ .empty) :
    exec (.mapTest 0 []) s = .next (s.refused .mapTest 0 .state) := by
  rw [exec_mapTest ho hc, mapTestOwner_refuses (s := s.hunt 0) hk]
  rfl

/-! ### The end of a test -/

/-- What the end of a map test sets before its tail (R15). -/
def State.tested (s : State) (n : Nat) : State :=
  { s with planes := Vector.replicate 2 [], mismatches := n, condition := conditionAfterTest n }

theorem State.endMapTest_eq (s : State) (n : Nat) :
    s.endMapTest n = (settleNotices ((s.tested n).begin.raiseIf (decide (0 < n)) .partFault)).answerMapTest n := rfl

theorem State.answerMapTest_rest (s : State) (n : Nat) :
    s.answerMapTest n = { s with ports := (s.answerMapTest n).ports } := by
  unfold State.answerMapTest
  split <;> rfl

theorem settleNotices_rest (e : Event) :
    settleNotices e = { e.state with lines := (settleNotices e).lines, notices := (settleNotices e).notices } := rfl

theorem State.endMapTest_rest (s : State) (n : Nat) :
    s.endMapTest n = { s.tested n with
      ports := (s.endMapTest n).ports, lines := (s.endMapTest n).lines, notices := (s.endMapTest n).notices } := by
  have key : ∀ u : State, u = { s.tested n with lines := u.lines, notices := u.notices } →
      u.answerMapTest n = { s.tested n with
        ports := (u.answerMapTest n).ports, lines := (u.answerMapTest n).lines,
        notices := (u.answerMapTest n).notices } := by
    intro u hu
    have h := u.answerMapTest_rest n
    generalize u.answerMapTest n = v at h
    rw [h, hu]
  refine key _ ?_
  have h := settleNotices_rest ((s.tested n).begin.raiseIf (decide (0 < n)) .partFault)
  rwa [Event.raiseIf_state] at h

theorem State.endMapTest_mismatches (s : State) (n : Nat) : (s.endMapTest n).mismatches = n := by
  rw [s.endMapTest_rest]
  rfl

theorem State.endMapTest_condition (s : State) (n : Nat) : (s.endMapTest n).condition = conditionAfterTest n := by
  rw [s.endMapTest_rest]
  rfl

theorem State.endMapTest_ports (s : State) (n : Nat) :
    (s.endMapTest n).ports = (s.answerMapTest n).ports := by
  have key : ∀ u : State, u.ports = s.ports → (u.answerMapTest n).ports = (s.answerMapTest n).ports := by
    intro u hu
    unfold State.answerMapTest State.owe State.updPort
    rw [hu]
    split
    · rfl
    · exact hu
  rw [s.endMapTest_eq n]
  refine key _ ?_
  rw [settleNotices_ports, Event.raiseIf_state]
  rfl

/-- An event that raises one flag raises it on its port alone. -/
theorem State.begin_raise_raised (s : State) (n : Notice) (p : Port) :
    ((s.begin.raise n).sig.raised)[p] = if p = n.port then n.bit else 0 := by
  show (Signals.none.raised.set n.port (Signals.none.raised[n.port] ||| n.bit))[p] = _
  simp only [get_set, Signals.none, get_replicate, show (0 : FlagSet) ||| n.bit = n.bit from BitVec.zero_or]

theorem State.endMapTest_notice (s : State) (n : Nat) (p : Port) :
    (s.endMapTest n).notices[p] =
      (s.notices[p]).set p (if p = 0 ∧ 0 < n then Notice.bit .partFault else 0) := by
  have hr : (((s.tested n).begin.raiseIf (decide (0 < n)) .partFault).sig.raised)[p] =
      if p = 0 ∧ 0 < n then Notice.bit .partFault else 0 := by
    by_cases h : 0 < n
    · rw [decide_eq_true h]
      simp only [h, and_true]
      exact State.begin_raise_raised _ _ p
    · rw [decide_eq_false h, if_neg fun hp => h hp.2]
      exact get_replicate _ p
  rw [s.endMapTest_eq n, State.answerMapTest_rest]
  dsimp only
  rw [settleNotices_notice, hr, Event.raiseIf_state]
  rfl

theorem exec_mapTestCompletion (rs : List ReadBack) {s : State} (h : s.condition = .starting ∨ s.condition = .testing) :
    exec (.mapTestCompletion rs) s = .next (s.endMapTest (mismatchCount rs)) :=
  if_pos (by simpa using h)

/-- Settles O4: the request, the end of a test, the count and the patterns. -/
theorem mapTestStartsAndEnds : Obligations.MapTestStartsAndEnds := by
  refine ⟨fun s ho hc hk => ⟨s.testStarted, exec_mapTest_starts ho hc hk, rfl, ?_, ?_, rfl⟩,
    fun s ho hc hk => exec_mapTest_refuses ho hc hk, fun rs s hc => ?_, fun rs => ?_, fun k x y => ⟨?_, ?_, rfl, ?_, ?_⟩⟩
  · exact congrArg LinkPort.owed (get_set _ _ _ _)
  · intro q hq
    show ((s.hunt 0).owe 0 .mapTest).ports[q] = _
    rw [State.owe_ports, get_set, if_neg hq, State.hunt_ports, get_set, if_neg hq]
  · refine ⟨_, exec_mapTestCompletion rs hc, fun k x y => ?_, ?_, ?_, s.endMapTest_notice _, fun ho => ?_, fun ho => ?_, ?_⟩
    · show ((s.endMapTest _).planes[k]).read _ = _
      rw [s.endMapTest_planes, get_replicate]
      rfl
    · exact s.endMapTest_mismatches _
    · exact s.endMapTest_condition _
    · rw [s.endMapTest_ports]
      unfold State.answerMapTest
      rw [if_pos ho, State.owe_ports, get_set, if_pos rfl]
      rfl
    · rw [s.endMapTest_ports]
      unfold State.answerMapTest
      rw [if_neg ho]
    · rw [s.endMapTest_planes, s.endMapTest_mismatches, s.endMapTest_condition]
      exact s.endMapTest_rest _
  · rw [mismatchCount_eq, show mismatched rs = _ from funext (mismatched_eq rs)]
    rfl
  · exact alternatingCell_inverted (by omega)
  · exact alternatingCell_inverted (by omega)
  · intro d hd h8 c hc
    simp only [List.mem_cons, List.not_mem_nil, or_false] at hc
    rcases hc with rfl | rfl
    · exact addressCell_ne (by omega) hd h8
    · exact addressCell_ne (by omega) hd h8
  · rfl

end Sys2Proof.Machine
end

section
/-!
The geometry that the sixth law rests on: a shape lies in its bounding box, a WITHDRAW job recomputes every cell its flaw
reaches, and the caps and class sets of APPLIED flaws do not depend on their order.
-/

namespace Sys2Proof.Machine

open Sys2Proof

/-! ### Bounding boxes -/

/-- A point of a rectangle given as (x lo, x hi, y lo, y hi). -/
def inBox (b : Int × Int × Int × Int) (i j : Int) : Prop := b.1 ≤ i ∧ i ≤ b.2.1 ∧ b.2.2.1 ≤ j ∧ j ≤ b.2.2.2

/-- A rounded step of a segment stays between its ends. -/
theorem segment_between {d : Int} {n k : Nat} (hn : 0 < n) (hk : k ≤ n) (a : Int) :
    min a (a + d) ≤ a + (2 * (k : Int) * d + n) / (2 * n) ∧ a + (2 * (k : Int) * d + n) / (2 * n) ≤ max a (a + d) := by
  have hn2 : (0 : Int) < 2 * n := by omega
  have hk0 : (0 : Int) ≤ k := Int.natCast_nonneg k
  have hkn : (k : Int) ≤ n := by omega
  rcases le_total 0 d with h | h
  · have hlow : 0 ≤ (2 * (k : Int) * d + n) / (2 * n) := by
      apply Int.ediv_nonneg _ hn2.le
      have := mul_nonneg hk0 h
      nlinarith
    have hup : (2 * (k : Int) * d + n) / (2 * n) < d + 1 := by
      apply Int.ediv_lt_of_lt_mul hn2
      have := mul_le_mul_of_nonneg_right hkn h
      nlinarith
    omega
  · have hlow : d ≤ (2 * (k : Int) * d + n) / (2 * n) := by
      apply (Int.le_ediv_iff_mul_le hn2).mpr
      have := mul_le_mul_of_nonpos_right hkn h
      nlinarith
    have hup : (2 * (k : Int) * d + n) / (2 * n) < 1 := by
      apply Int.ediv_lt_of_lt_mul hn2
      have := mul_nonpos_of_nonneg_of_nonpos hk0 h
      nlinarith
    omega

theorem segmentPoints_between {a b p : Int × Int} (h : p ∈ segmentPoints a b) :
    (min a.1 b.1 ≤ p.1 ∧ p.1 ≤ max a.1 b.1) ∧ (min a.2 b.2 ≤ p.2 ∧ p.2 ≤ max a.2 b.2) := by
  unfold segmentPoints at h
  dsimp only at h
  split at h
  · rw [List.mem_singleton] at h
    subst h
    omega
  · rename_i hn
    obtain ⟨k, hk, rfl⟩ := List.mem_map.mp h
    rw [List.mem_range] at hk
    have h1 := segment_between (d := b.1 - a.1) (Nat.pos_of_ne_zero hn) (Nat.le_of_lt_succ hk) a.1
    have h2 := segment_between (d := b.2 - a.2) (Nat.pos_of_ne_zero hn) (Nat.le_of_lt_succ hk) a.2
    rw [add_sub_cancel] at h1 h2
    exact ⟨h1, h2⟩

theorem foldl_min_le {α : Type} (f : α → Int) (xs : List α) (z : Int) :
    xs.foldl (fun z x => min z (f x)) z ≤ z ∧ ∀ x ∈ xs, xs.foldl (fun z x => min z (f x)) z ≤ f x := by
  induction xs generalizing z with
  | nil => exact ⟨le_refl z, fun _ h => absurd h List.not_mem_nil⟩
  | cons y ys ih =>
    obtain ⟨h0, h1⟩ := ih (min z (f y))
    refine ⟨h0.trans (min_le_left _ _), fun x hx => ?_⟩
    rcases List.mem_cons.mp hx with rfl | hx
    · exact h0.trans (min_le_right _ _)
    · exact h1 x hx

theorem le_foldl_max {α : Type} (f : α → Int) (xs : List α) (z : Int) :
    z ≤ xs.foldl (fun z x => max z (f x)) z ∧ ∀ x ∈ xs, f x ≤ xs.foldl (fun z x => max z (f x)) z := by
  induction xs generalizing z with
  | nil => exact ⟨le_refl z, fun _ h => absurd h List.not_mem_nil⟩
  | cons y ys ih =>
    obtain ⟨h0, h1⟩ := ih (max z (f y))
    refine ⟨(le_max_left _ _).trans h0, fun x hx => ?_⟩
    rcases List.mem_cons.mp hx with rfl | hx
    · exact (le_max_right _ _).trans h0
    · exact h1 x hx

/-- A stamped point of a stroke lies between points the stroke was given by. -/
theorem strokePoints_between {pts : List (Int × Int)} {p : Int × Int} (h : p ∈ strokePoints pts) :
    ∃ a ∈ pts, ∃ b ∈ pts, (min a.1 b.1 ≤ p.1 ∧ p.1 ≤ max a.1 b.1) ∧ (min a.2 b.2 ≤ p.2 ∧ p.2 ≤ max a.2 b.2) := by
  unfold strokePoints at h
  split at h
  · exact absurd h List.not_mem_nil
  · rw [List.mem_singleton] at h
    subst h
    exact ⟨p, List.mem_singleton_self p, p, List.mem_singleton_self p, by omega⟩
  · obtain ⟨ab, hab, hp⟩ := List.mem_flatMap.mp h
    have hm := List.of_mem_zip hab
    exact ⟨ab.1, hm.1, ab.2, List.mem_cons_of_mem _ hm.2, segmentPoints_between hp⟩

theorem Shape.covers_inBox {sh : Shape} {i j : Int} (h : sh.covers i j = true) : inBox sh.bounds i j := by
  cases sh with
  | disc cx cy r =>
    have hc : (i - cx) * (i - cx) + (j - cy) * (j - cy) ≤ (r : Int) * r := of_decide_eq_true h
    have hr : (0 : Int) ≤ r := Int.natCast_nonneg r
    have hi : |i - cx| ≤ r := abs_le_of_sq_le_sq (by nlinarith [mul_self_nonneg (j - cy)]) hr
    have hj : |j - cy| ≤ r := abs_le_of_sq_le_sq (by nlinarith [mul_self_nonneg (i - cx)]) hr
    rw [abs_le] at hi hj
    simp only [inBox, Shape.bounds]
    omega
  | box x1 y1 x2 y2 =>
    simp only [Shape.covers, Bool.and_eq_true, decide_eq_true_eq] at h
    simp only [inBox, Shape.bounds]
    omega
  | stroke pts hw =>
    simp only [Shape.covers, List.any_eq_true, Bool.and_eq_true, decide_eq_true_eq] at h
    obtain ⟨p, hp, hx, hy⟩ := h
    obtain ⟨a, ha, b, hb, h1, h2⟩ := strokePoints_between hp
    have l1 := foldl_min_le (fun p : Int × Int => p.1) pts (pts.headD (0, 0)).1
    have l2 := foldl_min_le (fun p : Int × Int => p.2) pts (pts.headD (0, 0)).2
    have u1 := le_foldl_max (fun p : Int × Int => p.1) pts (pts.headD (0, 0)).1
    have u2 := le_foldl_max (fun p : Int × Int => p.2) pts (pts.headD (0, 0)).2
    have la1 := l1.2 a ha
    have lb1 := l1.2 b hb
    have la2 := l2.2 a ha
    have lb2 := l2.2 b hb
    have ua1 := u1.2 a ha
    have ub1 := u1.2 b hb
    have ua2 := u2.2 a ha
    have ub2 := u2.2 b hb
    simp only [inBox, Shape.bounds]
    omega

theorem mem_offsets {m : Nat} {d : Int} : d ∈ offsets m ↔ -m ≤ d ∧ d ≤ m := by
  simp only [offsets, List.mem_map, List.mem_range]
  constructor
  · rintro ⟨k, hk, rfl⟩
    omega
  · exact fun h => ⟨(d + m).toNat, by omega, by omega⟩

theorem Shape.reaches_iff {sh : Shape} {m : Nat} {i j : Int} :
    sh.reaches m i j = true ↔ ∃ dx dy : Int, (-m ≤ dx ∧ dx ≤ m) ∧ (-m ≤ dy ∧ dy ≤ m) ∧ sh.covers (i + dx) (j + dy) = true := by
  simp only [Shape.reaches, List.any_eq_true, mem_offsets]
  exact ⟨fun ⟨dx, hx, dy, hy, h⟩ => ⟨dx, dy, hx, hy, h⟩, fun ⟨dx, dy, hx, hy, h⟩ => ⟨dx, hx, dy, hy, h⟩⟩

/-- A footprint lies in what the flaw reaches. -/
theorem Shape.reaches_of_covers {sh : Shape} {i j : Int} (m : Nat) (h : sh.covers i j = true) :
    sh.reaches m i j = true :=
  Shape.reaches_iff.mpr ⟨0, 0, by omega, by omega, by rwa [add_zero, add_zero]⟩

/-- Whether a cell lies in the bounding box of a shape and its margin (R26). -/
def Shape.boxed (sh : Shape) (m : Nat) (xy : Nat × Nat) : Bool :=
  decide (sh.bounds.1 - m ≤ xy.1) && decide ((xy.1 : Int) ≤ sh.bounds.2.1 + m) &&
    decide (sh.bounds.2.2.1 - m ≤ xy.2) && decide ((xy.2 : Int) ≤ sh.bounds.2.2.2 + m)

theorem Shape.rectangle_eq (sh : Shape) (m w h : Nat) : sh.rectangle m w h = (mapCells w h).filter (sh.boxed m) := rfl

/-- A WITHDRAW job recomputes every cell its flaw reaches (R26). -/
theorem Shape.boxed_of_reaches {sh : Shape} {m x y : Nat} (h : sh.reaches m x y = true) : sh.boxed m (x, y) = true := by
  obtain ⟨dx, dy, hx, hy, hc⟩ := Shape.reaches_iff.mp h
  have hb := Shape.covers_inBox hc
  simp only [inBox] at hb
  simp only [Shape.boxed, Bool.and_eq_true, decide_eq_true_eq]
  omega

/-! ### Caps and class sets of applied flaws -/

/-- A cap lowered by one applied flaw (R26). -/
def lowered (xy : Nat × Nat) (g : Grade) (f : Shape × Classified) : Grade :=
  if f.1.covers xy.1 xy.2 then capWith g f.2.cap else g

/-- A class set widened by one applied flaw (R26). -/
def widened (xy : Nat × Nat) (b : Set8) (f : Shape × Classified) : Set8 :=
  if f.1.reaches f.2.margin xy.1 xy.2 then b ||| classBit f.2.cls else b

theorem recomputedCap_eq (fs : List (Shape × Classified)) (xy : Nat × Nat) :
    recomputedCap fs xy = fs.foldl (lowered xy) 7 := rfl

theorem recomputedClasses_eq (fs : List (Shape × Classified)) (xy : Nat × Nat) :
    recomputedClasses fs xy = fs.foldl (widened xy) 0 := rfl

theorem lesser_eq_min (a b : Grade) : lesser a b = min a b := (min_def a b).symm

theorem capWith_comm (g : Grade) (a b : Option Grade) : capWith (capWith g a) b = capWith (capWith g b) a := by
  cases a <;> cases b <;> simp only [capWith, lesser_eq_min]
  exact min_right_comm ..

theorem lowered_comm (xy : Nat × Nat) (g : Grade) (a b : Shape × Classified) :
    lowered xy (lowered xy g a) b = lowered xy (lowered xy g b) a := by
  unfold lowered
  split_ifs
  · exact capWith_comm ..
  all_goals rfl

theorem widened_comm (xy : Nat × Nat) (c : Set8) (a b : Shape × Classified) :
    widened xy (widened xy c a) b = widened xy (widened xy c b) a := by
  unfold widened
  split_ifs
  · rw [BitVec.or_assoc, BitVec.or_comm (classBit _), ← BitVec.or_assoc]
  all_goals rfl

/-- The caps of a list of flaws with one more, wherever it stands. -/
theorem recomputedCap_perm {fs gs : List (Shape × Classified)} {f : Shape × Classified} (h : List.Perm fs (gs ++ [f]))
    (xy : Nat × Nat) : recomputedCap fs xy = lowered xy (recomputedCap gs xy) f := by
  have : RightCommutative (lowered xy) := ⟨lowered_comm xy⟩
  rw [recomputedCap_eq, h.foldl_eq, List.foldl_append]
  rfl

theorem recomputedClasses_perm {fs gs : List (Shape × Classified)} {f : Shape × Classified}
    (h : List.Perm fs (gs ++ [f])) (xy : Nat × Nat) :
    recomputedClasses fs xy = widened xy (recomputedClasses gs xy) f := by
  have : RightCommutative (widened xy) := ⟨widened_comm xy⟩
  rw [recomputedClasses_eq, h.foldl_eq, List.foldl_append]
  rfl

/-! ### The applied flaws of a list -/

theorem appliedFlaws_append (fs gs : List Flaw) : appliedFlaws (fs ++ gs) = appliedFlaws fs ++ appliedFlaws gs :=
  List.filterMap_append

theorem appliedFlaws_cons_other {f : Flaw} (h : f.state ≠ .applied) (fs : List Flaw) :
    appliedFlaws (f :: fs) = appliedFlaws fs := by
  unfold appliedFlaws
  rw [List.filterMap_cons, if_neg h]

theorem appliedFlaws_cons_applied {f : Flaw} {c : Classified} (h : f.state = .applied) (hc : f.classified = some c)
    (fs : List Flaw) : appliedFlaws (f :: fs) = (f.shape, c) :: appliedFlaws fs := by
  unfold appliedFlaws
  rw [List.filterMap_cons, if_pos h, hc]
  rfl

/-- A list around one of its elements, and with that element replaced. -/
theorem split_at {α : Type} {xs : List α} {n : Nat} {x : α} (h : xs[n]? = some x) (y : α) :
    ∃ as bs, xs = as ++ x :: bs ∧ xs.set n y = as ++ y :: bs := by
  obtain ⟨hn, hx⟩ := List.getElem?_eq_some_iff.mp h
  refine ⟨xs.take n, xs.drop (n + 1), ?_, ?_⟩
  · rw [← hx, List.getElem_cons_drop, List.take_append_drop]
  · rw [List.set_eq_take_append_cons_drop, if_pos hn]

/-- Between records that are not APPLIED the applied flaws stay. -/
theorem appliedFlaws_set {fs : List Flaw} {n : Nat} {f g : Flaw} (hf : fs[n]? = some f) (h : f.state ≠ .applied)
    (hg : g.state ≠ .applied) : appliedFlaws (fs.set n g) = appliedFlaws fs := by
  obtain ⟨as, bs, e1, e2⟩ := split_at hf g
  rw [e2, e1, appliedFlaws_append, appliedFlaws_append, appliedFlaws_cons_other h, appliedFlaws_cons_other hg]

/-- An APPLIED record that comes to be another state takes its flaw from the applied ones. -/
theorem appliedFlaws_perm {fs : List Flaw} {n : Nat} {f g : Flaw} {c : Classified} (hf : fs[n]? = some f)
    (h : f.state = .applied) (hc : f.classified = some c) (hg : g.state ≠ .applied) :
    List.Perm (appliedFlaws fs) (appliedFlaws (fs.set n g) ++ [(f.shape, c)]) := by
  obtain ⟨as, bs, e1, e2⟩ := split_at hf g
  rw [e2, e1, appliedFlaws_append, appliedFlaws_append, appliedFlaws_cons_applied h hc, appliedFlaws_cons_other hg]
  exact List.perm_middle.trans (List.perm_append_singleton _ _).symm

end Sys2Proof.Machine
end

section
/-!
The sixth law, context by context: how a hide's cells agree with its flaw records, and how the Map Writer's jobs name them.
-/

namespace Sys2Proof.Machine

open Sys2Proof

/-! ### The cells of one hide and its flaw records -/

/-- A flaw does not reach a cell while it is WITHDRAWING (R3). -/
def Flaw.spares (f : Flaw) (x y : Nat) : Prop :=
  ∀ c, f.state = .withdrawing → f.classified = some c → f.shape.reaches c.margin x y = false

/-- A cell of a plane has the cap and class set of the APPLIED flaws (R3). -/
def Plane.agrees (p : Plane) (fs : List Flaw) (x y : Nat) : Prop :=
  (p.read (cellAddr x y)).cap = recomputedCap (appliedFlaws fs) (x, y) ∧
  (p.read (cellAddr x y)).classes = recomputedClasses (appliedFlaws fs) (x, y)

/-- What the sixth law, with what keeps it, says of one context, its plane and its flaw records. -/
structure Marked (c : HideContext) (p : Plane) (fs : List Flaw) : Prop where
  agrees : c.aborted = false → ∀ x y, x < c.width → y < c.height → (∀ f ∈ fs, f.spares x y) → p.agrees fs x y
  blank : c.state = .empty → p = [] ∧ fs = []
  idle : c.state = .closed → ∀ f ∈ fs, f.state.due = false
  classified : ∀ f ∈ fs, (f.state = .applied ∨ f.state = .withdrawing) → f.classified.isSome = true

/-- The context and the occupants may change; it does not become EMPTY, and becomes CLOSED with no flaw that has work due. -/
theorem Marked.of_cells {c d : HideContext} {p q : Plane} {fs : List Flaw} (h : Marked c p fs)
    (hw : d.width = c.width) (hh : d.height = c.height) (ha : d.aborted = c.aborted)
    (he : d.state = .empty → c.state = .empty ∧ (p = [] → q = []))
    (hc : d.state = .closed → c.state = .closed ∨ ∀ f ∈ fs, f.state.due = false)
    (hq : ∀ a, (q.read a).cap = (p.read a).cap ∧ (q.read a).classes = (p.read a).classes) : Marked d q fs where
  agrees hd x y hx hy hs := by
    obtain ⟨h1, h2⟩ := h.agrees (ha ▸ hd) x y (hw ▸ hx) (hh ▸ hy) hs
    exact ⟨(hq _).1.trans h1, (hq _).2.trans h2⟩
  blank hd := ⟨(he hd).2 (h.blank (he hd).1).1, (h.blank (he hd).1).2⟩
  idle hd := (hc hd).elim h.idle id
  classified := h.classified

/-- A context without a flaw on a plane at its reset value. -/
theorem Marked.fresh {c : HideContext} : Marked c [] [] where
  agrees _ _ _ _ _ _ := ⟨rfl, rfl⟩
  blank _ := ⟨rfl, rfl⟩
  idle _ _ hf := absurd hf List.not_mem_nil
  classified _ hf := absurd hf List.not_mem_nil

theorem Marked.ne_empty {c : HideContext} {p : Plane} {fs : List Flaw} {n : Nat} {f : Flaw} (h : Marked c p fs)
    (hf : fs[n]? = some f) : c.state ≠ .empty := by
  intro he
  rw [(h.blank he).2] at hf
  simp at hf

theorem Marked.ne_closed {c : HideContext} {p : Plane} {fs : List Flaw} {n : Nat} {f : Flaw} (h : Marked c p fs)
    (hf : fs[n]? = some f) (hd : f.state.due = true) : c.state ≠ .closed := by
  intro hc
  have := h.idle hc f (List.mem_of_getElem? hf)
  rw [hd] at this
  exact absurd this (by decide)

/-- A new flaw record, neither APPLIED nor WITHDRAWING, of an open hide (R20). -/
theorem Marked.add {c : HideContext} {p : Plane} {fs : List Flaw} {f : Flaw} (h : Marked c p fs)
    (hc : c.state.cuttable = true) (hf : f.state = .pending) : Marked c p (fs ++ [f]) where
  agrees ha x y hx hy hs := by
    have := h.agrees ha x y hx hy fun g hg => hs g (List.mem_append_left _ hg)
    unfold Plane.agrees at this ⊢
    rwa [appliedFlaws_append, appliedFlaws_cons_other (by rw [hf]; decide), show appliedFlaws [] = [] from rfl,
      List.append_nil]
  blank he := absurd he (CtxState.ne_empty_of_cuttable hc)
  idle he := by rw [he] at hc; exact absurd hc (by decide)
  classified g hg hs := by
    rcases List.mem_append.mp hg with hg | hg
    · exact h.classified g hg hs
    · rw [List.mem_singleton.mp hg, hf] at hs
      exact absurd hs (by decide)

/-- One record changes: what its new state asks for is to be shown, the rest stays. -/
theorem Marked.set {c : HideContext} {p q : Plane} {fs : List Flaw} {n : Nat} {f g : Flaw} (h : Marked c p fs)
    (hf : fs[n]? = some f) (hd : g.state.due = true → c.state ≠ .closed)
    (hg : g.state = .applied ∨ g.state = .withdrawing → g.classified.isSome = true)
    (hq : ∀ x y, x < c.width → y < c.height → g.spares x y → (f.spares x y → p.agrees fs x y) →
      q.agrees (fs.set n g) x y) : Marked c q (fs.set n g) where
  agrees ha x y hx hy hs := by
    obtain ⟨as, bs, e1, e2⟩ := split_at hf g
    refine hq x y hx hy (hs g (by rw [e2]; simp)) fun hsf => h.agrees ha x y hx hy fun e he => ?_
    rw [e1, List.mem_append, List.mem_cons] at he
    rcases he with he | rfl | he
    · exact hs e (by rw [e2]; simp [he])
    · exact hsf
    · exact hs e (by rw [e2]; simp [he])
  blank he := absurd he (h.ne_empty hf)
  idle hc e he := by
    rcases List.mem_or_eq_of_mem_set he with he | rfl
    · exact h.idle hc e he
    · exact Bool.eq_false_iff.mpr fun hd' => hd hd' hc
  classified e he := by
    rcases List.mem_or_eq_of_mem_set he with he | rfl
    · exact h.classified e he
    · exact hg

theorem Flaw.spares_of_ne {f : Flaw} {x y : Nat} (h : f.state ≠ .withdrawing) : f.spares x y := fun _ hs => absurd hs h

/-- A record that neither was nor comes to be APPLIED or WITHDRAWING. -/
theorem Marked.set_waiting {c : HideContext} {p : Plane} {fs : List Flaw} {n : Nat} {f g : Flaw} (h : Marked c p fs)
    (hf : fs[n]? = some f) (h1 : f.state ≠ .applied) (h2 : f.state ≠ .withdrawing) (h3 : g.state ≠ .applied)
    (h4 : g.state ≠ .withdrawing) (hd : g.state.due = true → f.state.due = true) : Marked c p (fs.set n g) := by
  refine h.set hf (fun hg => h.ne_closed hf (hd hg)) (fun hs => ?_) fun x y _ _ _ ha => ?_
  · exact absurd hs (by simp [h3, h4])
  · have := ha (Flaw.spares_of_ne h2)
    unfold Plane.agrees at this ⊢
    rwa [appliedFlaws_set hf h1 h3]

/-- The end of an APPLY job (R25). -/
theorem Marked.apply {c : HideContext} {p : Plane} {fs : List Flaw} {n : Nat} {f : Flaw} {d : Classified}
    (h : Marked c p fs) (hf : fs[n]? = some f) (hs : f.state = .pending) (hd : f.classified = some d)
    (hp : p.wf = true) (hw : c.width ≤ 768) :
    Marked c (applyPlane p f.shape d c.width c.height) (fs.set n { f with state := .applied }) := by
  refine h.set hf (fun hg => absurd hg (by simp [FlawState.due])) (fun _ => by simp [hd]) fun x y hx hy _ ha => ?_
  obtain ⟨hcap, hcls⟩ := ha (Flaw.spares_of_ne (by rw [hs]; decide))
  have hperm : List.Perm (appliedFlaws (fs.set n { f with state := .applied })) (appliedFlaws fs ++ [(f.shape, d)]) := by
    have hback : (fs.set n { f with state := .applied })[n]? = some { f with state := .applied } :=
      List.getElem?_set_self (List.getElem?_eq_some_iff.mp hf).1
    have hfs : (fs.set n { f with state := .applied }).set n f = fs := by
      obtain ⟨hn, hx⟩ := List.getElem?_eq_some_iff.mp hf
      rw [List.set_set, ← hx, List.set_getElem_self]
    have := appliedFlaws_perm (g := f) hback rfl hd (by rw [hs]; decide)
    rwa [hfs] at this
  have hread := Plane.read_update_filter c.width c.height (fun xy => f.shape.reaches d.margin xy.1 xy.2)
    (applyCell f.shape d) p x y hp hw (by omega)
  unfold Plane.agrees applyPlane Shape.reach
  rw [hread, recomputedCap_perm hperm, recomputedClasses_perm hperm, ← hcap, ← hcls]
  unfold lowered widened
  dsimp only
  by_cases hr : f.shape.reaches d.margin x y = true
  · rw [if_pos ⟨hx, hy, hr⟩, if_pos hr]
    exact ⟨rfl, rfl⟩
  · have hc : ¬ f.shape.covers x y = true := fun hc => hr (Shape.reaches_of_covers _ hc)
    rw [if_neg fun hxy => hr hxy.2.2, if_neg hr, if_neg hc]
    exact ⟨rfl, rfl⟩

/-- An APPLIED flaw becomes WITHDRAWING (R21): the cells it does not reach have nothing of it. -/
theorem Marked.queueWithdraw {c : HideContext} {p : Plane} {fs : List Flaw} {n : Nat} {f : Flaw}
    (h : Marked c p fs) (hf : fs[n]? = some f) (hs : f.state = .applied) (hk : c.state.cuttable = true) :
    Marked c p (fs.set n { f with state := .withdrawing }) := by
  have hsome := h.classified f (List.mem_of_getElem? hf) (.inl hs)
  obtain ⟨d, hd⟩ := Option.isSome_iff_exists.mp hsome
  refine h.set hf (fun _ hc => ?_) (fun _ => hsome) fun x y hx hy hg ha => ?_
  · rw [hc] at hk
    exact absurd hk (by decide)
  · obtain ⟨hcap, hcls⟩ := ha (Flaw.spares_of_ne (by rw [hs]; decide))
    have hr : ¬ f.shape.reaches d.margin x y = true := by
      rw [hg d rfl hd]
      decide
    have hc : ¬ f.shape.covers x y = true := fun hc => hr (Shape.reaches_of_covers _ hc)
    have hperm := appliedFlaws_perm (g := { f with state := .withdrawing }) hf hs hd (by simp)
    rw [recomputedCap_perm hperm, lowered, if_neg hc] at hcap
    rw [recomputedClasses_perm hperm, widened, if_neg hr] at hcls
    exact ⟨hcap, hcls⟩

/-- The end of a WITHDRAW job (R26). -/
theorem Marked.unapply {c : HideContext} {p : Plane} {fs : List Flaw} {n : Nat} {f : Flaw} {d : Classified}
    (h : Marked c p fs) (hf : fs[n]? = some f) (hs : f.state = .withdrawing) (hd : f.classified = some d)
    (hp : p.wf = true) (hw : c.width ≤ 768) :
    Marked c (recomputePlane p (f.shape.rectangle d.margin c.width c.height) (appliedFlaws fs))
      (fs.set n { f with state := .withdrawn }) := by
  refine h.set hf (fun hg => absurd hg (by simp [FlawState.due])) (fun hg => absurd hg (by simp)) fun x y hx hy _ ha => ?_
  have hread := Plane.read_update_filter c.width c.height (f.shape.boxed d.margin) (fun xy cell =>
    { cell with cap := recomputedCap (appliedFlaws fs) xy, classes := recomputedClasses (appliedFlaws fs) xy })
    p x y hp hw (by omega)
  unfold Plane.agrees recomputePlane
  rw [Shape.rectangle_eq, hread, appliedFlaws_set hf (by rw [hs]; decide) (by simp)]
  by_cases hb : f.shape.boxed d.margin (x, y) = true
  · rw [if_pos ⟨hx, hy, hb⟩]
    exact ⟨rfl, rfl⟩
  · rw [if_neg fun hxy => hb hxy.2.2]
    refine ha fun e _ he => Bool.eq_false_iff.mpr fun hr => hb ?_
    rw [hd] at he
    obtain rfl := Option.some.inj he
    exact Shape.boxed_of_reaches hr

theorem Flaw.abandoned_due (f : Flaw) : f.abandoned.state.due = false := by
  unfold Flaw.abandoned
  split
  · rfl
  · rename_i h
    exact Bool.eq_false_iff.mpr h

/-- A CLOSED and aborted context whose work was abandoned (R39). -/
theorem Marked.abandon {c d : HideContext} {p q : Plane} {fs : List Flaw} (h : Marked c p fs) (hd : d.aborted = true)
    (hs : d.state = .closed) : Marked d q (fs.map Flaw.abandoned) where
  agrees ha := absurd (hd.symm.trans ha) (by decide)
  blank he := absurd (hs.symm.trans he) (by decide)
  idle _ f hf := by
    obtain ⟨g, _, rfl⟩ := List.mem_map.mp hf
    exact g.abandoned_due
  classified f hf hs := by
    obtain ⟨g, hg, rfl⟩ := List.mem_map.mp hf
    unfold Flaw.abandoned at hs ⊢
    split at hs
    · exact absurd hs (by simp)
    · rename_i hdue
      rw [if_neg hdue]
      exact h.classified g hg hs

/-! ### The jobs of the Map Writer -/

/-- The state in which a flaw waits for a job of a kind (R23). -/
def JobKind.awaited : JobKind → FlawState
  | .apply => .pending
  | .withdraw => .withdrawing

/-- A job names a flaw that waits for it. -/
def Job.named (fl : Vector (List Flaw) 2) (j : Job) : Prop :=
  ∃ f, (fl[j.ctx])[j.flaw]? = some f ∧ f.state = j.kind.awaited

/-- Each of some jobs names a flaw that waits for it, and stands once. -/
structure Queued (fl : Vector (List Flaw) 2) (js : List Job) : Prop where
  named : ∀ j ∈ js, j.named fl
  nodup : js.Nodup

theorem Queued.perm {fl : Vector (List Flaw) 2} {js is : List Job} (h : Queued fl js) (hp : List.Perm js is) :
    Queued fl is where
  named j hj := h.named j (hp.mem_iff.mpr hj)
  nodup := hp.nodup_iff.mp h.nodup

theorem Queued.nil (fl : Vector (List Flaw) 2) : Queued fl [] where
  named _ hj := absurd hj List.not_mem_nil
  nodup := List.nodup_nil

theorem JobKind.awaited_injective {a b : JobKind} (h : a.awaited = b.awaited) : a = b := by
  revert h
  cases a <;> cases b <;> decide

/-- A flaw waits for one job at most. -/
theorem Queued.unique {fl : Vector (List Flaw) 2} {js : List Job} (h : Queued fl js) {i j : Job} (hi : i ∈ js)
    (hj : j ∈ js) (hk : i.ctx = j.ctx) (hn : i.flaw = j.flaw) : i = j := by
  obtain ⟨f, hf, hfs⟩ := h.named i hi
  obtain ⟨g, hg, hgs⟩ := h.named j hj
  obtain ⟨a, k, n⟩ := i
  obtain ⟨b, _, _⟩ := j
  obtain rfl : k = _ := hk
  obtain rfl : n = _ := hn
  obtain rfl := Option.some.inj (hf.symm.trans hg)
  obtain rfl : a = b := JobKind.awaited_injective (hfs.symm.trans hgs)
  rfl

theorem Job.named_set {fl : Vector (List Flaw) 2} {j : Job} {k : Ctx} {n : Nat} {f : Flaw} (h : j.named fl)
    (hne : ¬ (j.ctx = k ∧ j.flaw = n)) : j.named (fl.set k (fl[k].set n f)) := by
  obtain ⟨g, hg, hs⟩ := h
  refine ⟨g, ?_, hs⟩
  rw [get_set]
  split
  · rename_i hk
    subst hk
    rw [List.getElem?_set_ne fun hn => hne ⟨rfl, hn.symm⟩]
    exact hg
  · exact hg

/-- A flaw whose job, if it has one, is gone may change. -/
theorem Queued.set {fl : Vector (List Flaw) 2} {js is : List Job} {k : Ctx} {n : Nat} {f : Flaw} (h : Queued fl js)
    (hs : ∀ j ∈ is, j ∈ js ∧ ¬ (j.ctx = k ∧ j.flaw = n)) (hd : is.Nodup) : Queued (fl.set k (fl[k].set n f)) is where
  named j hj := Job.named_set (h.named j (hs j hj).1) (hs j hj).2
  nodup := hd

/-- No job behind the front one names its flaw. -/
theorem Queued.behind {fl : Vector (List Flaw) 2} {j : Job} {js : List Job} (h : Queued fl (j :: js)) :
    ∀ i ∈ js, i ∈ j :: js ∧ ¬ (i.ctx = j.ctx ∧ i.flaw = j.flaw) := fun _ hm =>
  ⟨List.mem_cons_of_mem _ hm, fun hij => (List.nodup_cons.mp h.nodup).1
    (h.unique (List.mem_cons_of_mem _ hm) List.mem_cons_self hij.1 hij.2 ▸ hm)⟩

/-- The front job is gone, its flaw changed. -/
theorem Queued.drop_front {fl : Vector (List Flaw) 2} {j : Job} {js : List Job} (h : Queued fl (j :: js)) (g : Flaw) :
    Queued (fl.set j.ctx (fl[j.ctx].set j.flaw g)) js :=
  h.set h.behind (List.nodup_cons.mp h.nodup).2

/-- The front job stays, its flaw changed but still waiting for it. -/
theorem Queued.keep_front {fl : Vector (List Flaw) 2} {j : Job} {js : List Job} (h : Queued fl (j :: js)) {g : Flaw}
    (hg : g.state = j.kind.awaited) : Queued (fl.set j.ctx (fl[j.ctx].set j.flaw g)) (j :: js) where
  named i hi := by
    rcases List.mem_cons.mp hi with rfl | hi
    · obtain ⟨f, hf, _⟩ := h.named i List.mem_cons_self
      refine ⟨g, ?_, hg⟩
      rw [get_set, if_pos rfl]
      exact List.getElem?_set_self (List.getElem?_eq_some_iff.mp hf).1
    · exact (h.drop_front g).named i hi
  nodup := h.nodup

end Sys2Proof.Machine
end

section
/-!
The sixth law over every event, tail and move.
-/

namespace Sys2Proof.Machine

open Sys2Proof

/-! ### The law of a state -/

/-- The sixth law, with what keeps it, of a state whose queue of jobs is to be a given one. -/
structure State.Writing (s : State) (js : List Job) : Prop where
  marked : ∀ k : Ctx, Marked s.ctxs[k] s.planes[k] s.flaws[k]
  queued : Queued s.flaws (js ++ s.inFlight.toList)

theorem State.flawsWf_iff (s : State) : s.flawsWf ↔ s.Writing s.jobs := by
  constructor
  · rintro ⟨hlaw, hblank, hidle, hnamed, hnodup, hclass⟩
    refine ⟨fun k => ⟨fun ha x y hx hy hs => ?_, hblank k, hidle k, hclass k⟩, ⟨fun j hj => ?_, hnodup⟩⟩
    · exact hlaw k x y hx hy ha fun f hf c hw hc => hs f hf c hw hc
    · obtain ⟨f, hf, hs⟩ := hnamed j hj
      exact ⟨f, hf, hs⟩
  · rintro ⟨hm, hq⟩
    refine ⟨fun k x y hx hy ha hs => (hm k).agrees ha x y hx hy fun f hf c hw hc => hs f hf c hw hc,
      fun k => (hm k).blank, fun k => (hm k).idle, fun j hj => ?_, hq.nodup, fun k => (hm k).classified⟩
    obtain ⟨f, hf, hs⟩ := hq.named j hj
    exact ⟨f, hf, hs⟩

theorem State.Writing.congr {s t : State} {js : List Job} (h : s.Writing js) (hk : t.ctxs = s.ctxs)
    (hp : t.planes = s.planes) (hf : t.flaws = s.flaws) (hi : t.inFlight = s.inFlight) : t.Writing js := by
  refine ⟨fun k => ?_, ?_⟩
  · rw [hk, hp, hf]
    exact h.marked k
  · rw [hf, hi]
    exact h.queued

/-- A change at one context. -/
theorem State.Writing.change {s t : State} {js is : List Job} (h : s.Writing js) (k : Ctx)
    (hk : ∀ j : Ctx, j ≠ k → t.ctxs[j] = s.ctxs[j] ∧ t.planes[j] = s.planes[j] ∧ t.flaws[j] = s.flaws[j])
    (hm : Marked t.ctxs[k] t.planes[k] t.flaws[k]) (hq : Queued t.flaws (is ++ t.inFlight.toList)) : t.Writing is where
  marked j := by
    by_cases hj : j = k
    · subst hj
      exact hm
    · obtain ⟨e1, e2, e3⟩ := hk j hj
      rw [e1, e2, e3]
      exact h.marked j
  queued := hq

/-- Calm changes keep the law. -/
theorem State.Calm.writing {s t : State} {js : List Job} (h : s.Calm t) (hw : s.planesWf) (hs : s.Writing js) :
    t.Writing js where
  marked k := by
    have hc := h.ctx k
    have hd : (t.ctxs[k]).state ≠ .opened → (t.ctxs[k]).state ≠ .draining → (t.ctxs[k]).state = (s.ctxs[k]).state :=
      fun _ h2 => (h.draining k).elim id fun e => absurd e.2 h2
    rw [h.flaws]
    refine (hs.marked k).of_cells (by rw [hc]) (by rw [hc]) (by rw [hc]) (fun he => ?_) (fun he => .inl ?_) fun a => ?_
    · have hse := (h.empty_iff k).mp he
      refine ⟨hse, fun hp => Plane.eq_nil_of_read (h.wf hw k) fun a => ?_⟩
      have hreset : (s.planes[k]).read a = Cell.reset := by rw [hp]; rfl
      rw [h.cells hw k a, h.blank hw k hse a (by rw [hreset]; rfl), hreset]
      rfl
    · rw [← hd (by rw [he]; decide) (by rw [he]; decide)]
      exact he
    · rw [h.cells hw k a]
      exact ⟨rfl, rfl⟩
  queued := by
    rw [h.flaws, h.inFlight]
    exact hs.queued

/-! ### Tails -/

/-- The front job of the queue is started by an IDLE Map Writer (R23). -/
theorem Event.startJob_writing {e : Event} {j : Job} {js : List Job} (h : e.state.Writing (j :: js))
    (hi : e.state.inFlight = none) : (e.startJob j).state.Writing js := by
  have hq := h.queued
  rw [hi, Option.toList_none, List.append_nil] at hq
  have going : ∀ {u : State}, u.ctxs = e.state.ctxs → u.planes = e.state.planes → u.flaws = e.state.flaws →
      u.inFlight = some j → u.Writing js := by
    intro u h1 h2 h3 h4
    refine ⟨fun k => by rw [h1, h2, h3]; exact h.marked k, ?_⟩
    rw [h3, h4]
    exact hq.perm (List.perm_append_singleton _ _).symm
  unfold Event.startJob
  dsimp only
  split
  · exact going rfl rfl rfl rfl
  · rename_i hkind
    split
    · exact going rfl rfl rfl rfl
    · rename_i f hf
      have hs : f.state = .pending := by
        obtain ⟨g, hg, hgs⟩ := hq.named j List.mem_cons_self
        rw [hf] at hg
        obtain rfl := Option.some.inj hg
        rw [hgs, hkind]
        rfl
      have apart : ∀ k : Ctx, k ≠ j.ctx → ∀ g : Flaw, (e.state.setFlaw j.ctx j.flaw g).flaws[k] = e.state.flaws[k] := by
        intro k hk g
        rw [State.setFlaw_flaws, get_set, if_neg hk]
      have marked : ∀ g : Flaw, g.state = .pending ∨ g.state = .ignored →
          Marked e.state.ctxs[j.ctx] e.state.planes[j.ctx] ((e.state.setFlaw j.ctx j.flaw g).flaws[j.ctx]) := by
        intro g hg
        rw [State.setFlaw_flaws, get_set, if_pos rfl]
        refine (h.marked j.ctx).set_waiting hf ?_ ?_ ?_ ?_ fun _ => by rw [hs]; rfl
        · rw [hs]; decide
        · rw [hs]; decide
        · rcases hg with e | e <;> rw [e] <;> decide
        · rcases hg with e | e <;> rw [e] <;> decide
      split
      · refine h.change j.ctx (fun k hk => ⟨rfl, rfl, apart k hk _⟩) (marked _ (.inr rfl)) ?_
        show Queued _ (js ++ e.state.inFlight.toList)
        rw [hi, Option.toList_none, List.append_nil]
        exact hq.drop_front _
      · refine h.change j.ctx (fun k hk => ⟨rfl, rfl, apart k hk _⟩) (marked _ (.inl hs)) ?_
        exact (hq.keep_front (by rw [hkind]; exact hs)).perm (List.perm_append_singleton _ _).symm

theorem Event.startFrom_writing (js : List Job) {e : Event} (h : e.state.Writing js) (hi : e.state.inFlight = none) :
    (Event.startFrom js e).state.Writing (Event.startFrom js e).state.jobs := by
  induction js generalizing e with
  | nil => exact h.congr rfl rfl rfl rfl
  | cons j js ih =>
    have hj := Event.startJob_writing h hi
    unfold Event.startFrom
    dsimp only
    split
    · exact hj.congr rfl rfl rfl rfl
    · rename_i hn
      exact ih hj (Option.not_isSome_iff_eq_none.mp hn)

theorem Event.startJobs_writing {e : Event} (h : e.state.flawsWf) : e.startJobs.state.flawsWf := by
  rw [State.flawsWf_iff] at h ⊢
  unfold Event.startJobs
  split
  · exact h
  · rename_i hn
    exact Event.startFrom_writing _ h (Option.not_isSome_iff_eq_none.mp hn)

/-- A context closes with no flaw that has work due (R126). -/
theorem Event.closeTest_flawsWf {e : Event} (h : e.state.flawsWf) (k : Ctx) : (e.closeTest k).state.flawsWf := by
  unfold Event.closeTest
  split
  · rename_i hc
    rw [State.flawsWf_iff] at h ⊢
    simp only [State.closes, Bool.and_eq_true, List.all_eq_true, Bool.not_eq_true'] at hc
    refine h.change k (fun j hj => ⟨?_, rfl, rfl⟩) ?_ h.queued
    · simp only [Event.raise_state, Event.on_state, State.updCtx_ctxs, get_set, if_neg hj]
    · simp only [Event.raise_state, Event.on_state, State.updCtx_ctxs, get_set, if_pos]
      exact (h.marked k).of_cells rfl rfl rfl (fun he => absurd he (by simp)) (fun _ => .inr hc.2) fun _ => ⟨rfl, rfl⟩
  · exact h

theorem settle_flawsWf (before : State) {e : Event} (h : e.state.flawsWf) : (settle before e).flawsWf := by
  have hc : e.closed.state.flawsWf :=
    Event.closeTest_flawsWf (Event.closeTest_flawsWf (Event.startJobs_writing h) 0) 1
  have hp : e.closed.state.planes = e.state.planes := e.closed_tail.planes
  rw [State.flawsWf_iff] at hc ⊢
  have hj : (settle before e).jobs = e.closed.state.jobs := by
    rw [settle_jobs, Event.closed, Event.closeTest_jobs, Event.closeTest_jobs]
  rw [hj]
  refine hc.congr (settle_ctxs before e) ((settle_planes before e).trans hp.symm) ?_ ?_
  · rw [settle_flaws, Event.closed, Event.closeTest_flaws, Event.closeTest_flaws]
  · rw [settle_inFlight, Event.closed, Event.closeTest_inFlight, Event.closeTest_inFlight]

/-! ### The events of the hides -/

/-- An update that leaves some aspect of every cell leaves it of the plane. -/
theorem Plane.read_update_aspect {α : Type} (P : Cell → α) {f : Nat × Nat → Cell → Cell} (hf : ∀ xy c, P (f xy c) = P c)
    (cells : List (Nat × Nat)) {p : Plane} (hp : p.wf = true) (a : Nat) :
    P ((Plane.update p cells f).read a) = P (p.read a) := by
  induction cells generalizing p with
  | nil => rfl
  | cons xy cells ih =>
    have hstep := ih (Plane.write_wf p (cellAddr xy.1 xy.2) (f xy (p.read (cellAddr xy.1 xy.2))) hp)
    refine Eq.trans hstep ?_
    rw [Plane.read_write _ _ _ _ hp]
    split
    · rename_i ha
      rw [hf, ha]
    · rfl

/-- Written base grades leave every aspect of a cell that is not its base grade. -/
theorem writeRuns_aspect {α : Type} (P : Cell → α) (hP : ∀ c b, P { c with base := b } = P c) (w y : Nat)
    (runs : List GradeRun) {p : Plane} (hp : p.wf = true) (a : Nat) :
    P ((writeRuns p w y runs).read a) = P (p.read a) := by
  unfold writeRuns
  induction runs generalizing p with
  | nil => rfl
  | cons r runs ih =>
    exact (ih (p := writeRun w y p r) (Plane.update_wf _ _ _ hp)).trans
      (Plane.read_update_aspect P (fun _ c => hP c _) _ hp a)

theorem writeRuns_marks (w y : Nat) (runs : List GradeRun) {p : Plane} (hp : p.wf = true) (a : Nat) :
    ((writeRuns p w y runs).read a).cap = (p.read a).cap ∧ ((writeRuns p w y runs).read a).classes = (p.read a).classes :=
  ⟨writeRuns_aspect Cell.cap (fun _ _ => rfl) w y runs hp a, writeRuns_aspect Cell.classes (fun _ _ => rfl) w y runs hp a⟩

theorem CtxState.ne_closed_of_cuttable {x : CtxState} (h : x.cuttable = true) : x ≠ .closed := by
  rintro rfl
  exact absurd h (by decide)

theorem State.rowWritten_writing {s : State} {js : List Job} (h : s.Writing js) (hp : s.planesWf) (k : Ctx) (y : Nat)
    (runs : List GradeRun) (hk : (s.ctxs[k]).state ≠ .empty) : (s.rowWritten k y runs).Writing js := by
  have ha : s.advanceScan.Writing js := s.advanceScan_calm.writing hp h
  refine ha.change k (fun j hj => ⟨rfl, ?_, rfl⟩) ?_ ha.queued
  · simp only [State.rowWritten, State.setPlane_planes, get_set, if_neg hj]
  · have hm := ha.marked k
    simp only [State.advanceScan_ctxs, State.advanceScan_planes, State.advanceScan_flaws] at hm
    simp only [State.rowWritten, State.setPlane_planes, State.setPlane_ctxs, State.setPlane_flaws, get_set, if_pos,
      State.advanceScan_ctxs, State.advanceScan_flaws]
    exact hm.of_cells rfl rfl rfl (fun he => absurd he hk) (fun he => .inl he) fun a => writeRuns_marks _ _ _ (hp k) a

theorem State.rowWritten_planesWf {s : State} (h : s.planesWf) (k : Ctx) (y : Nat) (runs : List GradeRun) :
    (s.rowWritten k y runs).planesWf :=
  State.setPlane_planesWf (s.advanceScan_keeps.planes h) (writeRuns_wf _ _ _ _ (h k))

theorem State.queueFlaw_writing {s : State} (h : s.Writing s.jobs) (k : Ctx) {f : Flaw}
    (hk : (s.ctxs[k]).state.cuttable = true) (hf : f.state = .pending) :
    (s.queueFlaw k f).Writing (s.queueFlaw k f).jobs := by
  have hset : (s.queueFlaw k f).flaws = s.flaws.set k (s.flaws[k] ++ [f]) := rfl
  refine h.change k (fun j hj => ⟨rfl, rfl, ?_⟩) ?_ ?_
  · rw [hset, get_set, if_neg hj]
  · rw [hset, get_set, if_pos rfl]
    exact (h.marked k).add hk hf
  · have hlt : ∀ j ∈ s.jobs ++ s.inFlight.toList, j.ctx = k → j.flaw < (s.flaws[k]).length := by
      rintro j hj rfl
      obtain ⟨g, hg, _⟩ := h.queued.named j hj
      exact (List.getElem?_eq_some_iff.mp hg).1
    rw [hset]
    refine Queued.perm (js := { kind := .apply, ctx := k, flaw := (s.flaws[k]).length } :: (s.jobs ++ s.inFlight.toList))
      ⟨fun j hj => ?_, List.nodup_cons.mpr ⟨fun hj => absurd (hlt _ hj rfl) (Nat.lt_irrefl _), h.queued.nodup⟩⟩ ?_
    · rcases List.mem_cons.mp hj with rfl | hj
      · refine ⟨f, ?_, hf⟩
        rw [get_set, if_pos rfl]
        exact List.getElem?_concat_length
      · obtain ⟨g, hg, hs⟩ := h.queued.named j hj
        refine ⟨g, ?_, hs⟩
        rw [get_set]
        split
        · rename_i hjk
          rw [List.getElem?_append_left (hlt j hj hjk)]
          subst hjk
          exact hg
        · exact hg
    · show List.Perm _ ((s.jobs ++ [_]) ++ s.inFlight.toList)
      rw [List.append_assoc]
      exact List.perm_middle.symm

/-- The job in flight ends: its flaw record and its plane change. -/
theorem State.Writing.job_ends {s t : State} {j : Job} (h : s.Writing s.jobs) (hj : s.inFlight = some j) {g : Flaw}
    (hk : t.ctxs = s.ctxs) (hp : ∀ i : Ctx, i ≠ j.ctx → t.planes[i] = s.planes[i])
    (hf : t.flaws = s.flaws.set j.ctx (s.flaws[j.ctx].set j.flaw g)) (hi : t.inFlight = none) (hjs : t.jobs = s.jobs)
    (hm : Marked s.ctxs[j.ctx] t.planes[j.ctx] (s.flaws[j.ctx].set j.flaw g)) : t.Writing t.jobs := by
  refine h.change j.ctx (fun i hne => ⟨by rw [hk], hp i hne, by rw [hf, get_set, if_neg hne]⟩) ?_ ?_
  · rw [hk, hf, get_set, if_pos rfl]
    exact hm
  · have hq := h.queued
    rw [hj] at hq
    rw [hi, hf, hjs, Option.toList_none, List.append_nil]
    exact (hq.perm (List.perm_append_singleton _ _)).drop_front g

/-- The flaw that the job in flight names waits for it. -/
theorem State.Writing.awaited {s : State} {js : List Job} (h : s.Writing js) {j : Job} (hj : s.inFlight = some j)
    {f : Flaw} (hf : (s.flaws[j.ctx])[j.flaw]? = some f) : f.state = j.kind.awaited := by
  obtain ⟨g, hg, hgs⟩ := h.queued.named j (by rw [hj]; simp)
  obtain rfl := Option.some.inj (hf.symm.trans hg)
  exact hgs

theorem State.flawWritten_flawsWf {s : State} (h : s.flawsWf) (hp : s.planesWf) (hw : s.hidesWf) {k : Ctx} {n : Nat}
    {f : Flaw} {c : Classified} (hj : s.inFlight = some { kind := .apply, ctx := k, flaw := n })
    (hf : (s.flaws[k])[n]? = some f) (hc : f.classified = some c) : (s.flawWritten k n f c).flawsWf := by
  rw [State.flawsWf_iff] at h ⊢
  have hs : f.state = .pending := h.awaited hj hf
  refine h.job_ends hj (g := { f with state := .applied }) s.advanceScan_ctxs (fun i hi => ?_) ?_ rfl s.advanceScan_jobs ?_
  · simp only [State.flawWritten, State.setFlaw_planes, State.setPlane_planes, get_set, if_neg hi,
      State.advanceScan_planes]
  · simp only [State.flawWritten, State.setFlaw_flaws, State.setPlane_flaws, State.advanceScan_flaws]
  · simp only [State.flawWritten, State.setFlaw_planes, State.setPlane_planes, get_set, if_pos]
    exact (h.marked k).apply hf hs hc (hp k) (hw k).2.1

theorem State.dropFlaw_flawsWf {s : State} (h : s.flawsWf) {k : Ctx} {n : Nat} {f : Flaw}
    (hf : (s.flaws[k])[n]? = some f) (hs : f.state = .pending ∨ f.state = .ignored) : (s.dropFlaw k n f).flawsWf := by
  rw [State.flawsWf_iff] at h ⊢
  have hset : (s.dropFlaw k n f).flaws = s.flaws.set k (s.flaws[k].set n { f with state := .withdrawn }) := rfl
  have hfilter : (s.dropFlaw k n f).jobs ++ (s.dropFlaw k n f).inFlight.toList =
      (s.jobs ++ s.inFlight.toList).filter fun j => j ≠ { kind := .apply, ctx := k, flaw := n } := by
    rw [List.filter_append]
    unfold State.dropFlaw
    cases s.inFlight with
    | none => rfl
    | some i => by_cases hi : i = { kind := .apply, ctx := k, flaw := n } <;> simp [hi]
  refine h.change k (fun j hj => ⟨rfl, rfl, by rw [hset, get_set, if_neg hj]⟩) ?_ ?_
  · rw [hset, get_set, if_pos rfl]
    refine (h.marked k).set_waiting hf ?_ ?_ (by simp) (by simp) (fun hd => absurd hd (by simp [FlawState.due]))
    · rcases hs with e | e <;> rw [e] <;> decide
    · rcases hs with e | e <;> rw [e] <;> decide
  · rw [hset, hfilter]
    refine h.queued.set (fun j hmem => ?_) (h.queued.nodup.filter _)
    obtain ⟨hj, hne⟩ := List.mem_filter.mp hmem
    have hne := of_decide_eq_true hne
    refine ⟨hj, ?_⟩
    rintro ⟨rfl, rfl⟩
    obtain ⟨g, hg, hgs⟩ := h.queued.named j hj
    rw [hf] at hg
    obtain rfl := Option.some.inj hg
    have hkind : j.kind = .apply := by
      cases hk : j.kind with
      | apply => rfl
      | withdraw =>
        rw [hk] at hgs
        rcases hs with e | e <;> rw [hgs] at e <;> exact absurd e (by decide)
    exact hne (by rw [← hkind])

theorem State.queueWithdraw_flawsWf {s : State} (h : s.flawsWf) {k : Ctx} {n : Nat} {f : Flaw}
    (hk : (s.ctxs[k]).state.cuttable = true) (hf : (s.flaws[k])[n]? = some f) (hs : f.state = .applied) :
    (s.queueWithdraw k n f).flawsWf := by
  rw [State.flawsWf_iff] at h ⊢
  have hset : (s.queueWithdraw k n f).flaws = s.flaws.set k (s.flaws[k].set n { f with state := .withdrawing }) := rfl
  have hfree : ∀ j ∈ s.jobs ++ s.inFlight.toList, ¬ (j.ctx = k ∧ j.flaw = n) := by
    rintro j hj ⟨rfl, rfl⟩
    obtain ⟨g, hg, hgs⟩ := h.queued.named j hj
    rw [hf] at hg
    obtain rfl := Option.some.inj hg
    rw [hs] at hgs
    cases hk : j.kind <;> rw [hk] at hgs <;> exact absurd hgs (by decide)
  refine h.change k (fun j hj => ⟨rfl, rfl, by rw [hset, get_set, if_neg hj]⟩) ?_ ?_
  · rw [hset, get_set, if_pos rfl]
    exact (h.marked k).queueWithdraw hf hs hk
  · rw [hset]
    refine Queued.perm (js := { kind := .withdraw, ctx := k, flaw := n } :: (s.jobs ++ s.inFlight.toList)) ⟨fun j hj => ?_,
      List.nodup_cons.mpr ⟨fun hj => hfree _ hj ⟨rfl, rfl⟩, h.queued.nodup⟩⟩ ?_
    · rcases List.mem_cons.mp hj with rfl | hj
      · refine ⟨{ f with state := .withdrawing }, ?_, rfl⟩
        rw [get_set, if_pos rfl]
        exact List.getElem?_set_self (List.getElem?_eq_some_iff.mp hf).1
      · exact Job.named_set (h.queued.named j hj) (hfree j hj)
    · show List.Perm _ ((s.jobs ++ [_]) ++ s.inFlight.toList)
      rw [List.append_assoc]
      exact List.perm_middle.symm

/-- The state that the end of a WITHDRAW job has written, the marks aside (R26). -/
def State.flawRecomputed (s : State) (k : Ctx) (n : Nat) (f : Flaw) (c : Classified) : State :=
  { (s.advanceScan.setPlane k (recomputePlane s.planes[k] (f.shape.rectangle c.margin (s.ctxs[k]).width (s.ctxs[k]).height)
      (appliedFlaws s.flaws[k]))).setFlaw k n { f with state := .withdrawn } with inFlight := none }

theorem State.unapplying_state (s : State) (k : Ctx) (n : Nat) (f : Flaw) (c : Classified) :
    (s.unapplying k n f c).state = (s.flawRecomputed k n f c).clearMarks k := rfl

theorem State.flawRecomputed_flawsWf {s : State} (h : s.flawsWf) (hp : s.planesWf) (hw : s.hidesWf) {k : Ctx} {n : Nat}
    {f : Flaw} {c : Classified} (hj : s.inFlight = some { kind := .withdraw, ctx := k, flaw := n })
    (hf : (s.flaws[k])[n]? = some f) (hc : f.classified = some c) : (s.flawRecomputed k n f c).flawsWf := by
  rw [State.flawsWf_iff] at h ⊢
  have hs : f.state = .withdrawing := h.awaited hj hf
  refine h.job_ends hj (g := { f with state := .withdrawn }) s.advanceScan_ctxs (fun i hi => ?_) ?_ rfl s.advanceScan_jobs ?_
  · simp only [State.flawRecomputed, State.setFlaw_planes, State.setPlane_planes, get_set, if_neg hi,
      State.advanceScan_planes]
  · simp only [State.flawRecomputed, State.setFlaw_flaws, State.setPlane_flaws, State.advanceScan_flaws]
  · simp only [State.flawRecomputed, State.setFlaw_planes, State.setPlane_planes, get_set, if_pos]
    exact (h.marked k).unapply hf hs hc (hp k) (hw k).2.1

/-- A context alone changes. -/
theorem State.updCtx_flawsWf {s : State} (h : s.flawsWf) (k : Ctx) (f : HideContext → HideContext)
    (hm : Marked (f s.ctxs[k]) s.planes[k] s.flaws[k]) : (s.updCtx k f).flawsWf := by
  rw [State.flawsWf_iff] at h ⊢
  refine h.change k (fun j hj => ⟨by rw [State.updCtx_ctxs, get_set, if_neg hj], rfl, rfl⟩) ?_ h.queued
  rw [State.updCtx_ctxs, get_set, if_pos rfl]
  exact hm

/-- What an abort leaves of the jobs and flaw records: those of the other context (R39). -/
theorem Queued.abandon {fl : Vector (List Flaw) 2} {js is : List Job} (h : Queued fl (js ++ is)) (k : Ctx)
    (fs : List Flaw) :
    Queued (fl.set k fs) ((js.filter fun j => j.ctx ≠ k) ++ is.filter fun j => j.ctx ≠ k) := by
  rw [← List.filter_append]
  refine ⟨fun j hj => ?_, h.nodup.filter _⟩
  obtain ⟨hj, hne⟩ := List.mem_filter.mp hj
  obtain ⟨f, hf, hs⟩ := h.named j hj
  refine ⟨f, ?_, hs⟩
  rw [get_set, if_neg (of_decide_eq_true hne)]
  exact hf

theorem State.Pieces.updCtx {s t : State} (h : State.Pieces s t) (k : Ctx) (f : HideContext → HideContext) :
    State.Pieces (s.updCtx k f) (t.updCtx k f) where
  rest := by
    have hr := h.rest
    have hc : t.ctxs = s.ctxs := by rw [hr]
    unfold State.updCtx
    rw [hc]
    generalize f s.ctxs[k] = c
    rw [hr]
  head := h.head
  cells := h.cells

/-- A HIDE ABORT that has closed its context, before it comes to the slots. -/
def State.abortClosed (s : State) (k : Ctx) : State :=
  (s.abortStart k).updCtx k fun c => { c with state := .closed, aborted := true }

theorem State.aborting_calm (s : State) (k : Ctx) : (s.abortClosed k).Calm (s.aborting k).state := by
  rw [State.aborting_eq]
  exact ((s.abortPieces_pieces k).updCtx k _).calm

theorem State.abortClosed_rest (s : State) (k : Ctx) :
    s.abortClosed k = { s with
      flaws := s.flaws.set k ((s.flaws[k]).map Flaw.abandoned), jobs := s.jobs.filter fun j => j.ctx ≠ k,
      inFlight := s.inFlight.filter fun j => j.ctx ≠ k, searchUnit := (s.abortStart k).searchUnit,
      freeIndex := (s.abortStart k).freeIndex,
      ctxs := s.ctxs.set k { s.ctxs[k] with state := .closed, aborted := true } } := by
  unfold State.abortClosed State.updCtx
  rw [State.abortStart_rest]

theorem State.abortClosed_flawsWf {s : State} (h : s.flawsWf) (k : Ctx) : (s.abortClosed k).flawsWf := by
  rw [State.flawsWf_iff] at h ⊢
  rw [State.abortClosed_rest]
  refine h.change k (fun j hj => ?_) ?_ ?_
  · simp only [get_set, if_neg hj, and_self]
  · simp only [get_set, if_pos]
    exact (h.marked k).abandon rfl rfl
  · rw [Option.toList_filter]
    exact h.queued.abandon k _

theorem State.aborting_flawsWf {s : State} (h : s.flawsWf) (hp : s.planesWf) (k : Ctx) : (s.aborting k).state.flawsWf := by
  have hc := s.aborting_calm k
  have hw : (s.abortClosed k).planesWf := by
    rw [State.abortClosed_rest]
    exact hp
  have ha := s.abortClosed_flawsWf h k
  rw [State.flawsWf_iff] at ha ⊢
  rw [hc.jobs]
  exact hc.writing hw ha

theorem State.Calm.flawsWf {s t : State} (h : s.Calm t) (hp : s.planesWf) (hs : s.flawsWf) : t.flawsWf := by
  rw [State.flawsWf_iff] at hs ⊢
  rw [h.jobs]
  exact h.writing hp hs

/-- What a HIDE RELEASE leaves of planes, flaw records and jobs (R128). -/
theorem State.releasing_fields (s : State) (k : Ctx) :
    (s.releasing k).state.planes = s.planes.set k [] ∧ (s.releasing k).state.flaws = s.flaws.set k [] ∧
    (s.releasing k).state.jobs = s.jobs ∧ (s.releasing k).state.inFlight = s.inFlight := by
  rw [State.releasing_state, Event.freeAll_rest]
  exact ⟨rfl, rfl, rfl, rfl⟩

theorem State.releasing_flawsWf {s : State} (h : s.flawsWf) {k : Ctx} (hk : (s.ctxs[k]).state = .closed) :
    (s.releasing k).state.flawsWf := by
  obtain ⟨hp, hf, hj, hi⟩ := s.releasing_fields k
  rw [State.flawsWf_iff] at h ⊢
  have other : ∀ j : Ctx, j ≠ k → (s.releasing k).state.planes[j] = s.planes[j] ∧
      (s.releasing k).state.flaws[j] = s.flaws[j] := fun j hj => by simp only [hp, hf, get_set, if_neg hj, and_self]
  have own : (s.releasing k).state.planes[k] = [] ∧ (s.releasing k).state.flaws[k] = [] := by
    simp only [hp, hf, get_set, if_pos, and_self]
  refine ⟨fun j => ?_, ⟨fun j hm => ?_, ?_⟩⟩
  · by_cases hjk : j = k
    · subst hjk
      rw [own.1, own.2]
      exact .fresh
    · rw [(other j hjk).1, (other j hjk).2]
      rcases s.releasing_ctx k j with ⟨hc, _⟩ | hc
      · exact absurd hc hjk
      · rw [hc]
        exact (h.marked j).of_cells rfl rfl rfl (fun he => ⟨he, id⟩) .inl fun _ => ⟨rfl, rfl⟩
  · rw [hj, hi] at hm
    obtain ⟨f, hff, hs⟩ := h.queued.named j hm
    have hne : j.ctx ≠ k := by
      rintro rfl
      have := (h.marked j.ctx).idle hk f (List.mem_of_getElem? hff)
      rw [hs] at this
      cases hkd : j.kind <;> rw [hkd] at this <;> exact absurd this (by decide)
    exact ⟨f, by rw [(other _ hne).2]; exact hff, hs⟩
  · rw [hj, hi]
    exact h.queued.nodup

theorem State.HideEvent.flawsWf {s : State} {e : Event} (h : s.HideEvent e) (hp : s.planesWf) (hw : s.hidesWf)
    (hs : s.flawsWf) : e.state.flawsWf := by
  cases h with
  | grade k y runs hk =>
    have hne : (s.ctxs[k]).state ≠ .empty := by rcases hk with e | e <;> rw [e] <;> decide
    have hrow : (s.rowWritten k y runs).flawsWf := by
      rw [State.flawsWf_iff] at hs ⊢
      rw [show (s.rowWritten k y runs).jobs = s.jobs from s.advanceScan_jobs]
      exact State.rowWritten_writing hs hp k y runs hne
    exact (s.grading_pieces k y runs).calm.flawsWf (State.rowWritten_planesWf hp k y runs) hrow
  | addFlaw k f hk hf =>
    rw [State.flawsWf_iff] at hs
    exact (State.flawsWf_iff _).mpr (State.queueFlaw_writing hs k hk hf)
  | applyFlaw k n f c hj hf hc =>
    have hpw : (s.flawWritten k n f c).planesWf :=
      State.setPlane_planesWf (s := s.advanceScan) (s.advanceScan_keeps.planes hp) (Plane.update_wf _ _ _ (hp k))
    exact (s.applying_pieces k n f c).calm.flawsWf hpw (State.flawWritten_flawsWf hs hp hw hj hf hc)
  | dropFlaw k n f hf hst => exact State.dropFlaw_flawsWf hs hf hst
  | queueWithdraw k n f hk hf hst => exact State.queueWithdraw_flawsWf hs hk hf hst
  | unapplyFlaw k n f c hj hf hc =>
    have hpw : (s.flawRecomputed k n f c).planesWf :=
      State.setPlane_planesWf (s := s.advanceScan) (s.advanceScan_keeps.planes hp) (Plane.update_wf _ _ _ (hp k))
    rw [State.unapplying_state]
    exact (State.clearMarks_pieces _ k).calm.flawsWf hpw (State.flawRecomputed_flawsWf hs hp hw hj hf hc)
  | openHide k w h a hready hk hww hhh =>
    refine State.updCtx_flawsWf hs k (fun _ => s.openedCtx k w h a) ?_
    obtain ⟨hplane, hflaws⟩ := (((State.flawsWf_iff s).mp hs).marked k).blank hk
    rw [hplane, hflaws]
    exact .fresh
  | raiseFrontier k v hk =>
    refine (State.clearMarks_pieces _ k).calm.flawsWf (s := s.updCtx k _) hp (State.updCtx_flawsWf hs k _ ?_)
    exact (((State.flawsWf_iff s).mp hs).marked k).of_cells rfl rfl rfl (fun he => ⟨he, id⟩) .inl fun _ => ⟨rfl, rfl⟩
  | abort k hk => exact State.aborting_flawsWf hs hp k
  | release k hk => exact State.releasing_flawsWf hs hk

/-! ### The moves -/

/-- A state whose planes, flaw records and jobs are at their reset values. -/
theorem State.flawsWf_of_reset {s : State} (hp : s.planes = Vector.replicate 2 []) (hf : s.flaws = Vector.replicate 2 [])
    (hj : s.jobs = []) (hi : s.inFlight = none) : s.flawsWf := by
  rw [State.flawsWf_iff]
  refine ⟨fun k => ?_, ?_⟩
  · rw [hp, hf, get_replicate, get_replicate]
    exact .fresh
  · rw [hj, hi]
    exact .nil _

/-- What else a state may change that leaves the law as it was. -/
theorem State.flawsWf_congr {s t : State} (h : s.flawsWf) (hk : t.ctxs = s.ctxs) (hp : t.planes = s.planes)
    (hf : t.flaws = s.flaws) (hj : t.jobs = s.jobs) (hi : t.inFlight = s.inFlight) : t.flawsWf := by
  rw [State.flawsWf_iff] at h ⊢
  rw [hj]
  exact h.congr hk hp hf hi

theorem State.endAnyLoad_flawsWf {s : State} (h : s.flawsWf) : s.endAnyLoad.flawsWf := by
  unfold State.endAnyLoad
  split
  · exact State.flawsWf_congr h rfl rfl rfl rfl rfl
  · exact h

/-- A map test ends with both contexts EMPTY, which have no listed cell. -/
theorem State.endMapTest_flawsWf {s : State} (h : s.flawsWf) (hidle : ∀ k : Ctx, (s.ctxs[k]).state = .empty) (n : Nat) :
    (s.endMapTest n).flawsWf := by
  have hplanes : (s.endMapTest n).planes = s.planes := by
    rw [s.endMapTest_planes]
    refine Vector.ext fun i hi => ?_
    have := ((((State.flawsWf_iff s).mp h).marked ⟨i, hi⟩).blank (hidle _)).1
    rw [Vector.getElem_replicate]
    exact this.symm
  refine State.flawsWf_congr h (s.endMapTest_ctxs n) hplanes ?_ ?_ ?_ <;> rw [s.endMapTest_rest] <;> rfl

theorem State.turn_flawsWf {s : State} (h : s.flawsWf) (hp : s.planesWf) (t : Transition) (a b : Bool) :
    (s.turn t a b).flawsWf := by
  have hm := s.moveBelt_calm t a b
  refine (s.turn_keeps (P := fun u => u.planesWf ∧ u.flawsWf) t a b ⟨hm.wf hp, hm.flawsWf hp h⟩ ?_).2
  rintro u before k ⟨hup, huf⟩
  have hc := Event.travelChange_calm u.begin k
  exact ⟨(settle_keeps before _).planes (hc.wf hup), settle_flawsWf before (hc.flawsWf hup huf)⟩

theorem State.Move.flawsWf {s t : State} (h : s.Move t) (hp : s.planesWf) (hw : s.hidesWf) (hi : s.idleUnlessReady)
    (hs : s.flawsWf) : t.flawsWf := by
  cases h with
  | stay => exact hs
  | powerUp => exact State.flawsWf_of_reset rfl rfl rfl rfl
  | partReset => exact State.flawsWf_of_reset rfl rfl rfl rfl
  | mapTest => exact State.flawsWf_congr hs rfl rfl rfl rfl rfl
  | endMapTest n hc =>
    refine State.endMapTest_flawsWf hs (hi ?_) n
    rcases hc with e | e <;> rw [e] <;> decide
  | endAnyLoad => exact State.endAnyLoad_flawsWf hs
  | beginLoad n pl p hd hr hroom => exact State.flawsWf_congr (State.endAnyLoad_flawsWf hs) rfl rfl rfl rfl rfl
  | libraryRows => exact State.flawsWf_congr hs rfl rfl rfl rfl rfl
  | endLoad => exact State.flawsWf_congr hs rfl rfl rfl rfl rfl
  | dropPattern => exact State.flawsWf_congr hs rfl rfl rfl rfl rfl
  | turn tr a b => exact State.turn_flawsWf hs hp tr a b
  | event before e he =>
    refine settle_flawsWf before ?_
    rcases he with he | he
    · exact he.flawsWf hp hw hs
    · exact he.calm.flawsWf hp hs

/-- Settles O57, over the moves a step can make. -/
theorem stepKeepsFlawLaw : Obligations.StepKeepsFlawLaw := by
  intro s t hp hw hi hs hstep
  obtain ⟨u, v, hsu, huv, hvt⟩ := step_comes hstep
  have hpu : u.planesWf := hsu.calm.wf hp
  have hsu' := hsu.calm.stays
  exact hvt.calm.flawsWf (huv.planesWf hpu)
    (huv.flawsWf hpu (hsu'.bounds hw) (hsu'.idle hi) (hsu.calm.flawsWf hp hs))

end Sys2Proof.Machine
end

section
/-!
The first law, part by part: what the cells of a hide, the records, the entries and the reference counts owe each other,
and how the changes that every event is made of keep it.
-/

namespace Sys2Proof.Machine

open Sys2Proof

/-! ### Records counted slot by slot -/

/-- The slots whose record has a property. -/
def countSlots (v : Vector (Option Placement) 256) (P : Placement → Bool) : Nat :=
  (List.finRange 256).countP fun n => (v[n]).any P

theorem indexed_eq {α : Type} {n : Nat} (v : Vector α n) : indexed v = (List.finRange n).map fun i => (i, v[i]) := by
  unfold indexed
  refine List.ext_getElem (by simp) fun i h1 h2 => ?_
  rw [List.getElem_zip, List.getElem_map, List.getElem_finRange]
  rfl

theorem State.countP_records (s : State) (P : Placement → Bool) :
    (s.records.countP fun r => P r.2) = countSlots s.slots P := by
  unfold State.records countSlots
  rw [indexed_eq, List.filterMap_map, List.countP_filterMap]
  refine List.countP_congr fun n _ => ?_
  simp only [Function.comp]
  cases s.slots[n] <;> simp

theorem countSlots_congr {v w : Vector (Option Placement) 256} {P : Placement → Bool}
    (h : ∀ n : SlotNo, (w[n]).any P = (v[n]).any P) : countSlots w P = countSlots v P :=
  List.countP_congr fun n _ => by rw [h n]

theorem countSlots_eq_zero {v : Vector (Option Placement) 256} {P : Placement → Bool} (h : countSlots v P = 0)
    {n : SlotNo} {r : Placement} (hr : v[n] = some r) : P r = false := by
  have := List.countP_eq_zero.mp h n (List.mem_finRange n)
  rwa [hr, Option.any_some, Bool.not_eq_true] at this

theorem toNat_countP_cons {α : Type} (p : α → Bool) (x : α) (xs : List α) :
    (x :: xs).countP p = xs.countP p + (p x).toNat := by
  rw [List.countP_cons]
  cases p x <;> rfl

/-- One slot changes: its old record no longer counts, its new one does. -/
theorem countSlots_set (v : Vector (Option Placement) 256) (n : SlotNo) (o : Option Placement) (P : Placement → Bool) :
    countSlots (v.set n o) P + ((v[n]).any P).toNat = countSlots v P + (o.any P).toNat := by
  have hperm : List.Perm (List.finRange 256) (n :: (List.finRange 256).erase n) :=
    List.perm_cons_erase (List.mem_finRange n)
  have hrest : ((List.finRange 256).erase n).countP (fun i => ((v.set n o)[i]).any P) =
      ((List.finRange 256).erase n).countP fun i => (v[i]).any P := by
    refine List.countP_congr fun i hi => ?_
    have hne : i ≠ n := ((List.nodup_finRange 256).mem_erase_iff.mp hi).1
    rw [get_set, if_neg hne]
  unfold countSlots
  rw [hperm.countP_eq, hperm.countP_eq, toNat_countP_cons, toNat_countP_cons, hrest, get_set, if_pos rfl]
  omega

/-! ### The law, part by part -/

/-- The first law of one context (R4). -/
def State.coveredAt (s : State) (k : Ctx) : Prop :=
  ∀ (n : SlotNo) (x y : Nat), x < (s.ctxs[k]).width → y < (s.ctxs[k]).height →
    ((s.cell k x y).occupant = some n ↔
      ∃ p, s.slots[n] = some p ∧ p.ctx = k ∧ p.state.occupies = true ∧ (x, y) ∈ s.cellsOf p)

/-- The accounts of records, entries and patterns that the first law rests on. -/
structure State.Accounted (s : State) : Prop where
  tags : (s.entries.map Entry.tag).Nodup
  records : ∀ (n : SlotNo) (r : Placement), s.slots[n] = some r →
    (s.ctxs[r.ctx]).state ≠ .empty ∧ (s.patterns[r.pattern]).state = .ready
  demand : ∀ e ∈ s.entries, (s.patterns[e.pattern]).state = .ready
  refs : ∀ n : PatNo, (s.patterns[n]).refs =
    s.entries.countP (fun e => e.pattern = n) + countSlots s.slots fun r => r.pattern = n

/-- The first law with its accounts, the search apart. -/
structure State.Laid (s : State) : Prop extends State.Accounted s where
  covered : ∀ k : Ctx, s.coveredAt k
  blank : ∀ k : Ctx, (s.ctxs[k]).state = .empty → ∀ a, ((s.planes[k]).read a).occupant = none

theorem State.Laid.occupantsWf {s : State} (h : s.Laid) (hs : s.searchWf) : s.occupantsWf := by
  refine ⟨h.covered, hs, h.blank, h.records, h.demand, fun n => ?_⟩
  rw [State.countP_records s fun r => r.pattern = n]
  exact h.refs n

theorem State.occupantsWf.laid {s : State} (h : s.occupantsWf) (ht : (s.entries.map Entry.tag).Nodup) :
    s.Laid ∧ s.searchWf := by
  obtain ⟨hcov, hsearch, hblank, hrec, hdem, hrefs⟩ := h
  refine ⟨⟨⟨ht, hrec, hdem, fun n => ?_⟩, hcov, hblank⟩, hsearch⟩
  rw [← State.countP_records s fun r => r.pattern = n]
  exact hrefs n

/-! ### What a search needs of a change -/

/-- A change keeps every entry that wants pieces, and every drawing. -/
structure State.Wants (s t : State) : Prop where
  wanted : ∀ (u : Tag) (e : Entry), s.entry? u = some e → e.eligible = true →
    ∃ e', t.entry? u = some e' ∧ e'.eligible = true ∧ e'.pattern = e.pattern
  drawings : ∀ n : PatNo, t.patterns[n] = { s.patterns[n] with refs := (t.patterns[n]).refs }

theorem State.Wants.of_eq {s t : State} (he : t.entries = s.entries) (hp : t.patterns = s.patterns) : s.Wants t where
  wanted u e hu hw := ⟨e, by rw [State.entry?, he]; exact hu, hw, rfl⟩
  drawings n := by rw [hp]

theorem State.Wants.trans {s t u : State} (h : s.Wants t) (g : t.Wants u) : s.Wants u where
  wanted v e hv hw := by
    obtain ⟨e', h1, h2, h3⟩ := h.wanted v e hv hw
    obtain ⟨e'', g1, g2, g3⟩ := g.wanted v e' h1 h2
    exact ⟨e'', g1, g2, g3.trans h3⟩
  drawings n := by rw [g.drawings n, h.drawings n]

/-- A pattern record is drawn as a drawing is, references aside (R76). -/
def State.drawnAs (s : State) (d : Pattern) (n : PatNo) : Prop :=
  s.patterns[n] = { d with refs := (s.patterns[n]).refs }

theorem State.Wants.drawn {s t : State} (h : s.Wants t) {d : Pattern} {n : PatNo} (hd : s.drawnAs d n) :
    t.drawnAs d n := by
  unfold State.drawnAs at hd ⊢
  rw [h.drawings n, hd]

/-- A search goes on, or is given up. -/
theorem State.Wants.searchWf {s t : State} (h : s.Wants t)
    (hu : t.searchUnit = s.searchUnit ∨ t.searchUnit = .idle) (hs : s.searchWf) : t.searchWf := by
  rcases hu with hu | hu
  · refine ⟨fun q hq => ?_, fun q hq => ?_⟩
    · obtain ⟨e, he, hw⟩ := hs.1 q (hu ▸ hq)
      obtain ⟨e', h1, h2, _⟩ := h.wanted _ e he hw
      exact ⟨e', h1, h2⟩
    · obtain ⟨e, he, hw, hp, hd⟩ := hs.2 q (hu ▸ hq)
      obtain ⟨e', h1, h2, h3⟩ := h.wanted _ e he hw
      refine ⟨e', h1, h2, hp.trans h3.symm, ?_⟩
      show t.drawnAs q.samples.drawing e'.pattern
      rw [h3]
      exact h.drawn hd
  · refine ⟨fun q hq => ?_, fun q hq => ?_⟩ <;> rw [hu] at hq <;> cases hq

/-! ### Changes of an entry -/

theorem State.entry?_updEntry (s : State) (t u : Tag) {f : Entry → Entry} (hf : ∀ e, (f e).tag = e.tag) :
    (s.updEntry t f).entry? u = (s.entry? u).map fun e => if e.tag = t then f e else e := by
  unfold State.entry? State.updEntry
  rw [List.find?_map]
  congr 2
  funext e
  simp only [Function.comp]
  split
  · rw [hf]
  · rfl

theorem State.mem_of_entry? {s : State} {u : Tag} {e : Entry} (h : s.entry? u = some e) : e ∈ s.entries ∧ e.tag = u :=
  ⟨List.mem_of_find?_eq_some h, of_decide_eq_true (List.find?_some (p := fun e : Entry => decide (e.tag = u)) h)⟩

/-- With each tag held once an entry is found by its tag. -/
theorem State.entry?_of_mem {s : State} {e : Entry} (ht : (s.entries.map Entry.tag).Nodup) (he : e ∈ s.entries) :
    s.entry? e.tag = some e := by
  cases h : s.entry? e.tag with
  | none => exact absurd (List.find?_eq_none.mp h e he) (by simp)
  | some e' =>
    obtain ⟨hm, htag⟩ := State.mem_of_entry? h
    rw [List.inj_on_of_nodup_map ht hm he htag]

theorem State.updEntry_wants (s : State) (t : Tag) {f : Entry → Entry} (hf : ∀ e, (f e).tag = e.tag)
    (hp : ∀ e, (f e).pattern = e.pattern)
    (he : ∀ e ∈ s.entries, e.tag = t → e.eligible = true → (f e).eligible = true) : s.Wants (s.updEntry t f) where
  wanted u e hu hw := by
    refine ⟨if e.tag = t then f e else e, by rw [State.entry?_updEntry s t u hf, hu]; rfl, ?_, ?_⟩
    · split
      · rename_i ht
        exact he e (State.mem_of_entry? hu).1 ht hw
      · exact hw
    · split
      · exact hp e
      · rfl
  drawings _ := rfl

theorem State.updEntry_accounted {s : State} (h : s.Accounted) (t : Tag) {f : Entry → Entry}
    (hf : ∀ e, (f e).tag = e.tag) (hp : ∀ e, (f e).pattern = e.pattern) : (s.updEntry t f).Accounted := by
  have hpat : ∀ e, (if e.tag = t then f e else e).pattern = e.pattern := fun e => by split <;> simp [hp]
  have htag : ∀ e, (if e.tag = t then f e else e).tag = e.tag := fun e => by split <;> simp [hf]
  refine ⟨?_, h.records, fun e he => ?_, fun n => ?_⟩
  · unfold State.updEntry
    rw [List.map_map, show (Entry.tag ∘ fun e => if e.tag = t then f e else e) = Entry.tag from funext htag]
    exact h.tags
  · obtain ⟨e', hm, rfl⟩ := List.mem_map.mp he
    show (s.patterns[(if e'.tag = t then f e' else e').pattern]).state = .ready
    rw [show s.patterns[(if e'.tag = t then f e' else e').pattern] = s.patterns[e'.pattern] from
      congrArg (fun i : PatNo => s.patterns[i]) (hpat e')]
    exact h.demand e' hm
  · refine (h.refs n).trans ?_
    unfold State.updEntry
    dsimp only
    rw [List.countP_map]
    congr 2
    funext e
    exact congrArg (fun m : PatNo => decide (m = n)) (hpat e).symm

theorem State.updEntry_laid {s : State} (h : s.Laid) (t : Tag) {f : Entry → Entry} (hf : ∀ e, (f e).tag = e.tag)
    (hp : ∀ e, (f e).pattern = e.pattern) : (s.updEntry t f).Laid where
  toAccounted := State.updEntry_accounted h.toAccounted t hf hp
  covered := h.covered
  blank := h.blank

end Sys2Proof.Machine
end

section
/-!
Piece work keeps the first law: a record that goes on lying where it lay, a withdrawn one whose cells are vacated, and
from them every operation on placements and heads.
-/

namespace Sys2Proof.Machine

open Sys2Proof

/-! ### Changes of one record -/

/-- A record lies where another lies: in the same context, with the same pattern, on the same cells. -/
structure Placement.lies (p q : Placement) : Prop where
  ctx : q.ctx = p.ctx
  pattern : q.pattern = p.pattern
  candidate : q.candidate = p.candidate

theorem State.cellsOf_lies (s : State) {p q : Placement} (h : p.lies q) : s.cellsOf q = s.cellsOf p := by
  unfold State.cellsOf
  rw [h.candidate]
  exact congrArg (fun i : PatNo => hideCells s.patterns[i] p.candidate) h.pattern

theorem State.ready_of_eq {s : State} {m n : PatNo} (h : m = n) (hn : (s.patterns[n]).state = .ready) :
    (s.patterns[m]).state = .ready := by subst h; exact hn

theorem State.live_of_eq {s : State} {j k : Ctx} (h : j = k) (hk : (s.ctxs[k]).state ≠ .empty) :
    (s.ctxs[j]).state ≠ .empty := by subst h; exact hk

/-- A slot's record is replaced by one that lies where it lay. -/
theorem State.setSlot_accounted {s : State} (h : s.Accounted) {n : SlotNo} {p q : Placement}
    (hp : s.slots[n] = some p) (hl : p.lies q) : (s.setSlot n (some q)).Accounted where
  tags := h.tags
  records m r hr := by
    rw [State.setSlot_slots, get_set] at hr
    split at hr
    · obtain rfl := Option.some.inj hr
      exact ⟨State.live_of_eq hl.ctx (h.records n p hp).1, State.ready_of_eq hl.pattern (h.records n p hp).2⟩
    · exact h.records m r hr
  demand := h.demand
  refs m := by
    refine (h.refs m).trans (congrArg _ (Eq.symm (countSlots_congr fun i => ?_)))
    rw [State.setSlot_slots, get_set]
    split
    · rename_i hi
      subst hi
      rw [hp]
      simp [hl.pattern]
    · rfl

theorem State.setSlot_laid {s : State} (h : s.Laid) {n : SlotNo} {p q : Placement} (hp : s.slots[n] = some p)
    (hl : p.lies q) (ho : q.state.occupies = p.state.occupies) : (s.setSlot n (some q)).Laid where
  toAccounted := State.setSlot_accounted h.toAccounted hp hl
  covered k m x y hx hy := by
    refine (h.covered k m x y hx hy).trans ?_
    rw [State.setSlot_slots, get_set]
    split
    · rename_i hm
      subst hm
      simp only [hp, Option.some.injEq, exists_eq_left']
      show _ ↔ q.ctx = k ∧ q.state.occupies = true ∧ (x, y) ∈ s.cellsOf q
      rw [hl.ctx, ho, s.cellsOf_lies hl]
    · rfl
  blank := h.blank

/-- A slot's record leaves its cells, which are vacated. -/
theorem State.vacate_laid {s : State} (h : s.Laid) (hw : s.planesWf) {n : SlotNo} {p q : Placement}
    (hp : s.slots[n] = some p) (hl : p.lies q) (ho : q.state.occupies = false) :
    ((s.setSlot n (some q)).setPlane p.ctx ((s.planes[p.ctx]).vacate n)).Laid where
  toAccounted := by
    have ha := State.setSlot_accounted h.toAccounted hp hl
    exact ⟨ha.tags, ha.records, ha.demand, ha.refs⟩
  covered k m x y hx hy := by
    have hold := h.covered k m x y hx hy
    have hcell : (((s.setSlot n (some q)).setPlane p.ctx ((s.planes[p.ctx]).vacate n)).cell k x y).occupant = some m ↔
        (s.cell k x y).occupant = some m ∧ ¬ (k = p.ctx ∧ m = n) := by
      unfold State.cell
      rw [State.setPlane_planes, get_set]
      split
      · rename_i hk
        subst hk
        rw [Plane.read_vacate _ _ _ (hw _)]
        unfold Cell.vacated
        split
        · rename_i hn
          rw [hn]
          simp only [reduceCtorEq, true_and, Option.some.injEq, false_iff, not_and, not_not]
          exact Eq.symm
        · rename_i hn
          refine ⟨fun hm => ⟨hm, fun hmn => hn (hmn.2 ▸ hm)⟩, And.left⟩
      · rename_i hk
        exact ⟨fun hm => ⟨hm, fun hmn => hk hmn.1⟩, And.left⟩
    rw [hcell, hold, State.setPlane_slots, State.setSlot_slots, get_set]
    split
    · rename_i hm
      subst hm
      simp only [hp, Option.some.injEq, exists_eq_left', and_true]
      constructor
      · rintro ⟨⟨hk, _⟩, hne⟩
        exact absurd hk.symm hne
      · rintro ⟨_, hocc, _⟩
        rw [ho] at hocc
        cases hocc
    · rename_i hm
      exact ⟨And.left, fun hr => ⟨hr, fun hmn => hm hmn.2⟩⟩
  blank k hk a := by
    have hb := h.blank k hk a
    rw [State.setPlane_planes, get_set]
    split
    · rename_i hkp
      subst hkp
      rw [Plane.read_vacate _ _ _ (hw _)]
      unfold Cell.vacated
      split
      · rfl
      · exact hb
    · exact hb

/-! ### Piece work -/

/-- What piece work keeps of the first law and of the search. -/
structure State.Serves (s t : State) : Prop extends State.Wants s t where
  unit : t.searchUnit = s.searchUnit ∨ t.searchUnit = .idle
  wf : s.planesWf → t.planesWf
  laid : s.planesWf → s.Laid → t.Laid

theorem State.Serves.trans {s t u : State} (h : s.Serves t) (g : t.Serves u) : s.Serves u where
  toWants := h.toWants.trans g.toWants
  unit := by
    rcases g.unit with e | e
    · rw [e]
      exact h.unit
    · exact .inr e
  wf hs := g.wf (h.wf hs)
  laid hs hl := g.laid (h.wf hs) (h.laid hs hl)

/-- The contexts stand as they stood: the same maps, none of them newly EMPTY. -/
def State.standAs (s t : State) : Prop :=
  ∀ k : Ctx, (t.ctxs[k]).width = (s.ctxs[k]).width ∧ (t.ctxs[k]).height = (s.ctxs[k]).height ∧
    ((t.ctxs[k]).state = .empty → (s.ctxs[k]).state = .empty)

theorem State.standAs_of_eq {s t : State} (h : t.ctxs = s.ctxs) : s.standAs t := fun k => by simp [h]

theorem State.updCtx_standAs (s : State) (k : Ctx) {f : HideContext → HideContext}
    (hf : (f s.ctxs[k]).width = (s.ctxs[k]).width ∧ (f s.ctxs[k]).height = (s.ctxs[k]).height ∧
      ((f s.ctxs[k]).state = .empty → (s.ctxs[k]).state = .empty)) : s.standAs (s.updCtx k f) := by
  intro j
  rw [State.updCtx_ctxs, get_set]
  split
  · rename_i hj
    subst hj
    exact hf
  · exact ⟨rfl, rfl, id⟩

theorem State.Calm.standAs {s t : State} (h : s.Calm t) : s.standAs t := fun k =>
  ⟨by rw [h.ctx k], by rw [h.ctx k], (h.empty_iff k).mp⟩

theorem State.Tail.standAs {s t : State} (h : State.Tail s t) : s.standAs t := fun k =>
  ⟨by rw [h.ctx k], by rw [h.ctx k], (h.stays.empty_iff k).mp⟩

theorem State.Laid.congr {s t : State} (h : s.Laid) (hk : s.standAs t) (planes : t.planes = s.planes)
    (slots : t.slots = s.slots) (entries : t.entries = s.entries) (patterns : t.patterns = s.patterns) : t.Laid where
  tags := by rw [entries]; exact h.tags
  records n r hr := by
    rw [slots] at hr
    rw [patterns]
    exact ⟨fun he => (h.records n r hr).1 ((hk _).2.2 he), (h.records n r hr).2⟩
  demand e he := by
    rw [patterns]
    exact h.demand e (entries ▸ he)
  refs n := by
    rw [patterns, entries, slots]
    exact h.refs n
  covered k n x y hx hy := by
    rw [(hk k).1] at hx
    rw [(hk k).2.1] at hy
    unfold State.cell State.cellsOf
    rw [planes, slots, patterns]
    exact h.covered k n x y hx hy
  blank k he := by
    rw [planes]
    exact h.blank k ((hk k).2.2 he)

theorem State.Serves.of_same {s t : State} (hk : s.standAs t) (planes : t.planes = s.planes)
    (slots : t.slots = s.slots) (entries : t.entries = s.entries) (patterns : t.patterns = s.patterns)
    (unit : t.searchUnit = s.searchUnit ∨ t.searchUnit = .idle) : s.Serves t where
  toWants := .of_eq entries patterns
  unit := unit
  wf hs k := by rw [planes]; exact hs k
  laid _ h := h.congr hk planes slots entries patterns

theorem State.Serves.refl (s : State) : s.Serves s :=
  .of_same (State.standAs_of_eq rfl) rfl rfl rfl rfl (.inl rfl)

theorem State.Quiet.serves {s t : State} (h : s.Quiet t) : s.Serves t :=
  .of_same (State.standAs_of_eq h.ctxs) h.planes h.slots h.entries h.patterns (.inl h.searchUnit)

theorem State.setSlot_serves {s : State} {n : SlotNo} {p q : Placement} (hp : s.slots[n] = some p)
    (hl : p.lies q) (ho : q.state.occupies = p.state.occupies) : s.Serves (s.setSlot n (some q)) where
  toWants := .of_eq rfl rfl
  unit := .inl rfl
  wf h := h
  laid _ h := State.setSlot_laid h hp hl ho

theorem State.updEntry_serves (s : State) (t : Tag) {f : Entry → Entry} (hf : ∀ e, (f e).tag = e.tag)
    (hp : ∀ e, (f e).pattern = e.pattern)
    (he : ∀ e ∈ s.entries, e.tag = t → e.eligible = true → (f e).eligible = true) : s.Serves (s.updEntry t f) where
  toWants := State.updEntry_wants s t hf hp he
  unit := .inl rfl
  wf h := h
  laid _ h := State.updEntry_laid h t hf hp

/-- A change of an entry that leaves it its state while OPEN and takes nothing from its need. -/
theorem Entry.eligible_mono {e f : Entry} (hs : e.state = .opened → f.state = .opened)
    (hn : e.cut + e.live < e.requested → f.cut + f.live < f.requested) (h : e.eligible = true) : f.eligible = true := by
  rw [Entry.eligible_iff] at h ⊢
  exact ⟨hs h.1, hn h.2⟩

theorem State.loseLive_serves (s : State) (t : Tag) : s.Serves (s.updEntry t Entry.loseLive) :=
  s.updEntry_serves t (fun _ => rfl) (fun _ => rfl) fun e _ _ => Entry.eligible_mono id fun h => by
    simp only [Entry.loseLive]
    omega

theorem State.spoilCutting_serves (s : State) (t : Tag) : s.Serves (s.updEntry t Entry.spoilCutting) :=
  s.updEntry_serves t (fun _ => rfl) (fun _ => rfl) fun e _ _ => Entry.eligible_mono id fun h => by
    simp only [Entry.spoilCutting]
    omega

theorem State.spoilCut_serves (s : State) (t : Tag) : s.Serves (s.updEntry t Entry.spoilCut) :=
  s.updEntry_serves t (fun _ => rfl) (fun _ => rfl) fun e _ _ => Entry.eligible_mono (fun h => by simp [Entry.spoilCut, h])
    fun h => by
      simp only [Entry.spoilCut]
      omega

theorem Event.withdraw_serves (e : Event) (n : SlotNo) (c : Cause) : e.state.Serves (e.withdraw n c).state := by
  unfold Event.withdraw
  split
  · exact .refl _
  · rename_i p hp
    have hvac : e.state.Serves ((e.state.setSlot n (some { p with state := .withdrawn, cause := some c })).setPlane p.ctx
        ((e.state.planes[p.ctx]).vacate n)) :=
      { toWants := .of_eq rfl rfl
        unit := .inl rfl
        wf := fun hw => State.setPlane_planesWf (s := e.state.setSlot n _) hw (Plane.vacate_wf _ _ (hw _))
        laid := fun hw h => State.vacate_laid h hw hp ⟨rfl, rfl, rfl⟩ rfl }
    have hlist : ∀ (u : State) (ns : List SlotNo), u.Serves { u with withdrawn := ns } := fun u ns =>
      .of_same (State.standAs_of_eq rfl) rfl rfl rfl rfl (.inl rfl)
    have hmarks : ∀ u : State, u.Serves (u.clearMarks p.ctx) := fun u =>
      .of_same (State.standAs_of_eq rfl) rfl rfl rfl rfl (.inl rfl)
    have base := ((hvac.trans (hlist _ (e.state.withdrawn ++ [n]))).trans (State.loseLive_serves _ p.tag)).trans (hmarks _)
    dsimp only
    split
    · exact base.trans (.of_same (State.standAs_of_eq rfl) rfl rfl rfl rfl (.inl rfl))
    · exact base

/-- A slot holds a record whose piece lies on cells. -/
def State.occupied (s : State) (n : SlotNo) : Prop := ∃ p, s.slots[n] = some p ∧ p.state.occupies = true

/-- Piece work that leaves every piece where it lies, and gives no head a slot. -/
structure State.Eases (s t : State) : Prop extends State.Serves s t where
  occupied : ∀ n, s.occupied n → t.occupied n
  held : ∀ h : Head, ∀ x ∈ (t.heads[h]).held, x ∈ (s.heads[h]).held

theorem State.Eases.trans {s t u : State} (h : s.Eases t) (g : t.Eases u) : s.Eases u where
  toServes := h.toServes.trans g.toServes
  occupied n hn := g.occupied n (h.occupied n hn)
  held k x hx := h.held k x (g.held k x hx)

theorem State.Eases.refl (s : State) : s.Eases s := ⟨.refl s, fun _ h => h, fun _ _ h => h⟩

/-- Every slot a head holds has a piece that lies on cells. -/
def State.heldOccupied (s : State) : Prop := ∀ h : Head, ∀ x ∈ (s.heads[h]).held, s.occupied x.slot

theorem State.Eases.heldOccupied {s t : State} (h : s.Eases t) (hs : s.heldOccupied) : t.heldOccupied :=
  fun k x hx => h.occupied _ (hs k x (h.held k x hx))

theorem State.Eases.of_same {s t : State} (hk : s.standAs t) (planes : t.planes = s.planes)
    (slots : t.slots = s.slots) (entries : t.entries = s.entries) (patterns : t.patterns = s.patterns)
    (unit : t.searchUnit = s.searchUnit ∨ t.searchUnit = .idle)
    (held : ∀ h : Head, ∀ x ∈ (t.heads[h]).held, x ∈ (s.heads[h]).held) : s.Eases t :=
  ⟨.of_same hk planes slots entries patterns unit, fun n hn => by unfold State.occupied; rw [slots]; exact hn, held⟩

theorem State.setSlot_eases {s : State} {n : SlotNo} {p q : Placement} (hp : s.slots[n] = some p)
    (hl : p.lies q) (ho : p.state.occupies = true) (hq : q.state.occupies = true) : s.Eases (s.setSlot n (some q)) where
  toServes := State.setSlot_serves hp hl (hq.trans ho.symm)
  occupied m hm := by
    unfold State.occupied
    rw [State.setSlot_slots, get_set]
    split
    · exact ⟨q, rfl, hq⟩
    · exact hm
  held _ _ hx := hx

theorem State.updEntry_eases {s : State} {t : Tag} {f : Entry → Entry} (h : s.Serves (s.updEntry t f)) :
    s.Eases (s.updEntry t f) := ⟨h, fun _ hn => hn, fun _ _ hx => hx⟩

theorem State.unhold_eases (s : State) (h : Head) (n : SlotNo) : s.Eases (s.unhold h n) := by
  refine .of_same (State.standAs_of_eq rfl) rfl rfl rfl rfl (.inl rfl) fun k x hx => ?_
  simp only [State.unhold, State.updHead_heads, get_set] at hx
  split at hx
  · rename_i hk
    subst hk
    exact (List.mem_filter.mp hx).1
  · exact hx

theorem State.unholdBy_eases (s : State) (h : Option Head) (n : SlotNo) : s.Eases (s.unholdBy h n) := by
  cases h with
  | none => exact .refl s
  | some h => exact s.unhold_eases h n

theorem Event.spoil_eases (e : Event) (n : SlotNo) (c : Cause) (ho : e.state.occupied n) :
    e.state.Eases (e.spoil n c).state := by
  obtain ⟨p, hp, hocc⟩ := ho
  unfold Event.spoil
  rw [hp]
  dsimp only
  rw [Event.raise_state]
  have base := State.setSlot_eases (q := { p with state := .spoiled, cause := some c }) hp ⟨rfl, rfl, rfl⟩ hocc rfl
  dsimp only
  split
  · exact base.trans (State.updEntry_eases (State.spoilCut_serves _ _))
  · exact base.trans ((State.updEntry_eases (State.spoilCutting_serves _ _)).trans (State.unholdBy_eases _ _ _))

theorem State.returnClaim_eases (s : State) (n : SlotNo) (ho : s.occupied n) : s.Eases (s.returnClaim n) := by
  obtain ⟨p, hp, hocc⟩ := ho
  unfold State.returnClaim
  rw [hp]
  exact (State.setSlot_eases (q := { p with state := .placed, head := none }) hp ⟨rfl, rfl, rfl⟩ hocc rfl).trans
    (State.unholdBy_eases _ _ _)

end Sys2Proof.Machine
end

section
/-!
Every compound operation on placements and heads as piece work.
-/

namespace Sys2Proof.Machine

open Sys2Proof

/-! ### Work that leaves every piece where it lies -/

theorem Event.foldl_eases {α : Type} (slot : α → SlotNo) (f : Event → α → Event)
    (h : ∀ (e : Event) (x : α), e.state.occupied (slot x) → e.state.Eases (f e x).state) (xs : List α) (e : Event)
    (hx : ∀ x ∈ xs, e.state.occupied (slot x)) : e.state.Eases (xs.foldl f e).state := by
  induction xs generalizing e with
  | nil => exact .refl _
  | cons x xs ih =>
    have hstep := h e x (hx x List.mem_cons_self)
    exact hstep.trans (ih _ fun y hy => hstep.occupied _ (hx y (List.mem_cons_of_mem _ hy)))

theorem Event.giveUp_eases (h : Head) (b : Bool) (e : Event) (x : Held) (ho : e.state.occupied x.slot) :
    e.state.Eases (Event.giveUp h b e x).state := by
  unfold Event.giveUp
  split
  · exact .refl _
  · split
    · split
      · exact e.spoil_eases x.slot _ ho
      · exact e.spoil_eases x.slot _ ho
    · split
      · exact e.state.returnClaim_eases x.slot ho
      · exact e.state.returnClaim_eases x.slot ho

theorem State.updHead_eases (s : State) (h : Head) {f : HeadChannel → HeadChannel}
    (hf : (f s.heads[h]).held = (s.heads[h]).held) : s.Eases (s.updHead h f) := by
  refine .of_same (State.standAs_of_eq rfl) rfl rfl rfl rfl (.inl rfl) fun k x hx => ?_
  rw [State.updHead_heads, get_set] at hx
  split at hx
  · rename_i hk
    subst hk
    exact hf ▸ hx
  · exact hx

theorem Event.takeOffline_eases (e : Event) (h : Head) (b : Bool) (ho : e.state.heldOccupied) :
    e.state.Eases (e.takeOffline h b).state := by
  unfold Event.takeOffline
  rw [Event.on_state]
  exact (Event.foldl_eases Held.slot _ (Event.giveUp_eases h b) _ e (ho h)).trans (State.updHead_eases _ h rfl)

theorem Event.viewInterlock_eases (e : Event) (h : Head) (ho : e.state.heldOccupied) :
    e.state.Eases (e.viewInterlock h).state := by
  have base : e.state.Eases (e.on fun s => s.updHead h fun c => { c with interlock := e.state.interlockView h }).state := by
    rw [Event.on_state]
    exact State.updHead_eases _ h rfl
  unfold Event.viewInterlock
  dsimp only
  split
  · exact base.trans (Event.takeOffline_eases _ h true (base.heldOccupied ho))
  · exact base

theorem Event.viewInterlocks_eases (e : Event) (ho : e.state.heldOccupied) : e.state.Eases e.viewInterlocks.state := by
  have h0 := e.viewInterlock_eases 0 ho
  exact h0.trans (Event.viewInterlock_eases _ 1 (h0.heldOccupied ho))

theorem Event.loseReach_eases (k : Ctx) (h : Head) (e : Event) (x : Held) (ho : e.state.occupied x.slot) :
    e.state.Eases (Event.loseReach k h e x).state := by
  unfold Event.loseReach
  split
  · exact .refl _
  · split
    · exact .refl _
    · split
      · split
        · exact .refl _
        · exact e.spoil_eases x.slot _ ho
      · split
        · exact .refl _
        · exact e.state.returnClaim_eases x.slot ho

theorem Event.reachLoss_eases (e : Event) (k : Ctx) (ho : e.state.heldOccupied) : e.state.Eases (e.reachLoss k).state := by
  have h0 := Event.foldl_eases Held.slot _ (Event.loseReach_eases k 0) _ e (ho 0)
  exact h0.trans (Event.foldl_eases Held.slot _ (Event.loseReach_eases k 1) _ _ (h0.heldOccupied ho 1))

theorem State.shortPieces_held {s : State} {k : Ctx} {x : HeldPiece} (hx : x ∈ s.shortPieces k) :
    ∃ h : Head, x.held ∈ (s.heads[h]).held := by
  have piece : ∀ h : Head, x ∈ s.heldPieces h → ∃ h : Head, x.held ∈ (s.heads[h]).held := by
    intro h hm
    obtain ⟨r, hr, rfl⟩ := List.mem_map.mp hm
    exact ⟨h, (State.mem_heldRecords.mp hr).1⟩
  rcases List.mem_append.mp hx with hx | hx
  · exact piece 0 (List.mem_filter.mp hx).1
  · exact piece 1 (List.mem_filter.mp hx).1

theorem pickShort_mem {xs : List HeldPiece} {x : HeldPiece} (h : pickShort xs = some x) : x ∈ xs := by
  have key : ∀ (ys : List HeldPiece) (a : HeldPiece),
      ys.foldl (fun best b => if takenBefore b best then b else best) a ∈ a :: ys := by
    intro ys
    induction ys with
    | nil => exact fun a => List.mem_singleton_self a
    | cons b ys ih =>
      intro a
      have hm := ih (if takenBefore b a then b else a)
      rw [List.mem_cons] at hm
      rw [List.foldl_cons]
      rcases hm with hm | hm
      · rw [hm]
        split <;> simp
      · exact List.mem_cons_of_mem _ (List.mem_cons_of_mem _ hm)
  cases xs with
  | nil => cases h
  | cons a ys => exact Option.some.inj h ▸ key ys a

theorem Event.separationLoss_eases (k : Ctx) (n : Nat) (e : Event) (ho : e.state.heldOccupied) :
    e.state.Eases (Event.separationLoss k n e).state := by
  induction n generalizing e with
  | zero => exact .refl _
  | succ n ih =>
    unfold Event.separationLoss
    split
    · exact .refl _
    · rename_i x hx
      obtain ⟨h, hh⟩ := State.shortPieces_held (pickShort_mem hx)
      have hstep : e.state.Eases (e.takeShort x).state := by
        unfold Event.takeShort
        split
        · exact e.spoil_eases x.held.slot _ (ho h _ hh)
        · exact e.state.returnClaim_eases x.held.slot (ho h _ hh)
      exact hstep.trans (ih _ (hstep.heldOccupied ho))

theorem Event.testMissed_eases (k : Ctx) (e : Event) (n : SlotNo) : e.state.Eases (Event.testMissed k e n).state := by
  unfold Event.testMissed
  split
  · exact .refl _
  · rename_i p hp
    split
    · rename_i hc
      simp only [Bool.and_eq_true, decide_eq_true_eq] at hc
      have hset := State.setSlot_eases (q := { p with state := .missed, cause := some .leftReach, head := none }) hp
        ⟨rfl, rfl, rfl⟩ (by rw [hc.1.2]; rfl) rfl
      exact hset.trans (State.updEntry_eases (State.loseLive_serves _ p.tag))
    · exact .refl _

theorem State.drainCtx_eases (s : State) (k : Ctx) (c : DrainCause) (h : (s.ctxs[k]).state = .opened) :
    s.Eases (s.drainCtx k c) := by
  have hk := (s.drainCtx_calm k c h).standAs
  unfold State.drainCtx at hk ⊢
  dsimp only at hk ⊢
  split at hk <;> rename_i hs
  · rw [if_pos hs]
    exact .of_same hk rfl rfl rfl rfl (.inr rfl) fun _ _ hx => hx
  · rw [if_neg hs]
    exact .of_same hk rfl rfl rfl rfl (.inl rfl) fun _ _ hx => hx

theorem Event.exhaust_eases (e : Event) (k : Ctx) : e.state.Eases (e.exhaust k).state := by
  unfold Event.exhaust
  split
  · rename_i h
    simp only [Bool.and_eq_true, decide_eq_true_eq] at h
    exact State.drainCtx_eases _ _ _ h.1
  · exact .refl _

theorem Event.foldl_eases_all {α : Type} (f : Event → α → Event) (h : ∀ (e : Event) (x : α), e.state.Eases (f e x).state)
    (xs : List α) (e : Event) : e.state.Eases (xs.foldl f e).state := by
  induction xs generalizing e with
  | nil => exact .refl _
  | cons x xs ih => exact (h e x).trans (ih _)

theorem Event.travelChange_eases (e : Event) (k : Ctx) (ho : e.state.heldOccupied) :
    e.state.Eases (e.travelChange k).state := by
  have h1 := e.exhaust_eases k
  have h2 := h1.trans (Event.reachLoss_eases _ k (h1.heldOccupied ho))
  have h3 := h2.trans (Event.separationLoss_eases k 4 _ (h2.heldOccupied ho))
  exact h3.trans (Event.foldl_eases_all _ (Event.testMissed_eases k) _ _)

theorem Event.hideEdge_eases (e : Event) (ho : e.state.heldOccupied) : e.state.Eases e.hideEdge.state := by
  unfold Event.hideEdge
  split
  · exact .refl _
  · rename_i k _
    have hreg : e.state.Eases (e.state.register k) := by
      refine .of_same (fun j => ?_) rfl rfl rfl rfl (.inl rfl) fun _ _ hx => hx
      simp only [State.register, State.updCtx_ctxs, get_set]
      split
      · rename_i hj
        subst hj
        exact ⟨rfl, rfl, id⟩
      · exact ⟨rfl, rfl, id⟩
    exact hreg.trans (Event.travelChange_eases (Event.mk _ _) k (hreg.heldOccupied ho))

theorem Event.deliver_eases (e : Event) (f : InputFunction) (v : Bool) (ho : e.state.heldOccupied) :
    e.state.Eases (e.deliver f v).state := by
  unfold Event.deliver
  split
  · exact .refl _
  · split
    · exact e.hideEdge_eases ho
    · exact .refl _
  · split
    · exact .of_same (State.standAs_of_eq rfl) rfl rfl rfl rfl (.inl rfl) fun _ _ hx => hx
    · exact .refl _
  · exact e.viewInterlocks_eases ho

theorem Event.faultHead_eases (e : Event) (h : Head) (ho : e.state.heldOccupied) :
    e.state.Eases (e.faultHead h).state := by
  have hfold := Event.foldl_eases id (fun (e : Event) n => e.on fun s => s.returnClaim n)
    (fun e n hn => e.state.returnClaim_eases n hn) (e.state.claimedSlots h) e fun n hn => by
      obtain ⟨r, hr, rfl⟩ := List.mem_map.mp hn
      exact ho h _ (State.mem_heldRecords.mp (List.mem_filter.mp hr).1).1
  unfold Event.faultHead
  dsimp only
  rw [Event.raise_state, Event.on_state]
  exact hfold.trans (State.updHead_eases _ h rfl)

/-! ### Work that withdraws pieces -/

theorem Event.foldl_serves {α : Type} (f : Event → α → Event) (h : ∀ (e : Event) (x : α), e.state.Serves (f e x).state)
    (xs : List α) (e : Event) : e.state.Serves (xs.foldl f e).state := by
  induction xs generalizing e with
  | nil => exact .refl _
  | cons x xs ih => exact (h e x).trans (ih _)

theorem Event.withdrawAll_serves (e : Event) (ns : List SlotNo) (c : Cause) : e.state.Serves (e.withdrawAll ns c).state :=
  Event.foldl_serves _ (fun e n => e.withdraw_serves n c) ns e

theorem Event.abortSlot_serves (k : Ctx) (e : Event) (n : SlotNo) : e.state.Serves (Event.abortSlot k e n).state := by
  unfold Event.abortSlot
  split
  · exact .refl _
  · rename_i p hp
    have occupied : p.state = .cutting → e.state.occupied n := fun h => ⟨p, hp, by rw [h]; rfl⟩
    split
    · exact .refl _
    · split
      · exact e.withdraw_serves n _
      · exact e.withdraw_serves n _
      · rename_i hc _
        exact (e.spoil_eases n .hideAborted (occupied hc)).toServes
      · rename_i hc _
        exact (e.spoil_eases n .hideAborted (occupied hc)).toServes
      all_goals exact .refl _

theorem Event.failCheck_serves (e : Event) (c : Cause) (n : SlotNo) (p : Placement) (hp : e.state.slots[n] = some p) :
    e.state.Serves (e.failCheck c n p).state := by
  unfold Event.failCheck
  split
  · exact e.withdraw_serves n c
  · exact e.withdraw_serves n c
  · have hset : e.state.Serves (e.on fun s => s.setSlot n (some { p with tainted := true })).state :=
      State.setSlot_serves hp ⟨rfl, rfl, rfl⟩ rfl
    dsimp only
    split <;> exact hset
  · rename_i hc
    exact (e.spoil_eases n .lateFlaw ⟨p, hp, by rw [hc]; rfl⟩).toServes
  all_goals exact .refl _

theorem Event.checkSlot_serves (q : Plane) (ds : List Downgrade) (c : Cause) (e : Event) (n : SlotNo) :
    e.state.Serves (Event.checkSlot q ds c e n).state := by
  unfold Event.checkSlot
  split
  · exact .refl _
  · rename_i p hp
    split
    · exact .refl _
    · exact e.failCheck_serves c n p hp

theorem Event.downgrade_serves (e : Event) (q : Plane) (ds : List Downgrade) (c : Cause) :
    e.state.Serves (e.downgrade q ds c).state :=
  Event.foldl_serves _ (Event.checkSlot_serves q ds c) _ e

end Sys2Proof.Machine
end

section
/-!
The accounts of the first law: entries that come and go, records that are discarded, patterns that are replaced.
-/

namespace Sys2Proof.Machine

open Sys2Proof

/-! ### Changes of the accounts alone -/

/-- Pattern records change in their references alone. -/
def State.sameDrawings (s t : State) : Prop := ∀ n : PatNo, t.patterns[n] = { s.patterns[n] with refs := (t.patterns[n]).refs }

theorem State.cellsOf_drawings {s t : State} (h : s.sameDrawings t) (p : Placement) : t.cellsOf p = s.cellsOf p := by
  unfold State.cellsOf
  rw [h]
  rfl

/-- Records that occupied nothing of a context may go. -/
theorem State.coveredAt_freed {s t : State} {k : Ctx} (h : s.coveredAt k)
    (hk : (t.ctxs[k]).width = (s.ctxs[k]).width ∧ (t.ctxs[k]).height = (s.ctxs[k]).height)
    (planes : t.planes[k] = s.planes[k]) (drawings : s.sameDrawings t)
    (slots : ∀ n : SlotNo, t.slots[n] = s.slots[n] ∨
      t.slots[n] = none ∧ ∀ p, s.slots[n] = some p → ¬ (p.ctx = k ∧ p.state.occupies = true)) : t.coveredAt k := by
  intro n x y hx hy
  rw [hk.1] at hx
  rw [hk.2] at hy
  have hold := h n x y hx hy
  unfold State.cell at hold ⊢
  rw [planes]
  refine hold.trans ?_
  rcases slots n with e | ⟨e, hne⟩
  · rw [e]
    simp only [State.cellsOf_drawings drawings]
  · rw [e]
    constructor
    · rintro ⟨p, hp, hpk, hocc, _⟩
      exact absurd ⟨hpk, hocc⟩ (hne p hp)
    · rintro ⟨p, hp, _⟩
      cases hp

theorem State.Laid.recount {s t : State} (h : s.Laid) (ha : t.Accounted) (hk : s.standAs t)
    (planes : t.planes = s.planes) (slots : t.slots = s.slots) (drawings : s.sameDrawings t) : t.Laid where
  toAccounted := ha
  covered k := State.coveredAt_freed (h.covered k) ⟨(hk k).1, (hk k).2.1⟩ (by rw [planes]) drawings fun n => .inl (by rw [slots])
  blank k he := by
    rw [planes]
    exact h.blank k ((hk k).2.2 he)

/-! ### References -/

theorem State.updPattern_sameDrawings (s : State) (n : PatNo) (r : Pattern → Nat) :
    s.sameDrawings (s.updPattern n fun p => { p with refs := r p }) := by
  intro m
  rw [State.updPattern_patterns, get_set]
  split
  · rename_i hm
    subst hm
    rfl
  · rfl

theorem State.sameDrawings.trans {s t u : State} (h : s.sameDrawings t) (g : t.sameDrawings u) : s.sameDrawings u :=
  fun n => by rw [g n, h n]

theorem State.dropRef_sameDrawings (s : State) (n : PatNo) : s.sameDrawings (s.dropRef n) :=
  s.updPattern_sameDrawings n fun p => p.refs - 1

theorem State.addRef_sameDrawings (s : State) (n : PatNo) : s.sameDrawings (s.addRef n) :=
  s.updPattern_sameDrawings n fun p => p.refs + 1

theorem State.sameDrawings.state {s t : State} (h : s.sameDrawings t) (n : PatNo) :
    (t.patterns[n]).state = (s.patterns[n]).state := by rw [h n]

theorem State.dropRef_refs (s : State) (n m : PatNo) :
    ((s.dropRef n).patterns[m]).refs = (s.patterns[m]).refs - (decide (n = m)).toNat := by
  unfold State.dropRef
  rw [State.updPattern_patterns, get_set]
  split
  · rename_i hm
    subst hm
    simp
  · rename_i hm
    simp [Ne.symm hm]

theorem State.addRef_refs (s : State) (n m : PatNo) :
    ((s.addRef n).patterns[m]).refs = (s.patterns[m]).refs + (decide (n = m)).toNat := by
  unfold State.addRef
  rw [State.updPattern_patterns, get_set]
  split
  · rename_i hm
    subst hm
    simp
  · rename_i hm
    simp [Ne.symm hm]

theorem State.dropRef_comm (s : State) (m n : PatNo) : (s.dropRef m).dropRef n = (s.dropRef n).dropRef m := by
  by_cases h : m = n
  · rw [h]
  · unfold State.dropRef State.updPattern
    simp only [get_set, if_neg h, if_neg (Ne.symm h)]
    rw [Vector.set_comm _ _ fun hv => h (Fin.ext hv)]

/-! ### Entries that go -/

/-- With each tag held once, an entry and those with other tags are the queue. -/
theorem entries_perm {es : List Entry} {e : Entry} (hn : (es.map Entry.tag).Nodup) (he : e ∈ es) :
    List.Perm es (e :: es.filter fun x => x.tag ≠ e.tag) := by
  refine (List.perm_cons_erase he).trans (List.Perm.cons e (List.Perm.of_eq ?_))
  rw [hn.of_map.erase_eq_filter]
  refine List.filter_congr fun x hx => ?_
  by_cases hxe : x = e
  · simp [hxe]
  · have htag : x.tag ≠ e.tag := fun ht => hxe (List.inj_on_of_nodup_map hn hx he ht)
    simp [hxe, htag]

/-- An entry of the queue is removed with its reference (R67). -/
def State.removed (s : State) (e : Entry) : State :=
  (({ s with entries := s.entries.filter fun x => x.tag ≠ e.tag }).dropRef e.pattern).unmarkTag e.tag

theorem State.removeIfDone_cases (s : State) (t : Tag) :
    s.removeIfDone t = s ∨ ∃ e, s.entry? t = some e ∧ e.done = true ∧ s.removeIfDone t = s.removed e := by
  unfold State.removeIfDone
  split
  · exact .inl rfl
  · rename_i e he
    split
    · rename_i hd
      obtain ⟨_, rfl⟩ := State.mem_of_entry? he
      exact .inr ⟨e, he, hd, rfl⟩
    · exact .inl rfl

theorem State.removed_accounted {s : State} (h : s.Accounted) {e : Entry} (he : e ∈ s.entries) :
    (s.removed e).Accounted := by
  have hd : s.sameDrawings (s.removed e) := State.dropRef_sameDrawings { s with entries := _ } e.pattern
  have hp := entries_perm h.tags he
  refine ⟨h.tags.sublist (List.filter_sublist.map _), fun n r hr => ?_, fun x hx => ?_, fun n => ?_⟩
  · exact ⟨(h.records n r hr).1, (hd.state _).trans (h.records n r hr).2⟩
  · exact (hd.state _).trans (h.demand x (List.mem_filter.mp hx).1)
  · have hrefs := h.refs n
    rw [hp.countP_eq, toNat_countP_cons] at hrefs
    have hnew : ((s.removed e).patterns[n]).refs = (s.patterns[n]).refs - (decide (e.pattern = n)).toNat :=
      State.dropRef_refs { s with entries := _ } e.pattern n
    rw [hnew, hrefs]
    show _ = (s.entries.filter fun x => x.tag ≠ e.tag).countP (fun x => x.pattern = n) +
      countSlots s.slots fun r => r.pattern = n
    omega

theorem State.removed_wants {s : State} {e : Entry} (he : s.entry? e.tag = some e) (hd : e.done = true) :
    s.Wants (s.removed e) where
  wanted u x hx hw := by
    have hu : u ≠ e.tag := by
      rintro rfl
      obtain rfl := Option.some.inj (he.symm.trans hx)
      simp only [Entry.done, Bool.and_eq_true, decide_eq_true_eq] at hd
      exact hd.1 (Entry.eligible_iff _ |>.mp hw).1
    refine ⟨x, ?_, hw, rfl⟩
    unfold State.entry? at hx ⊢
    show (s.entries.filter fun x => x.tag ≠ e.tag).find? (fun x => x.tag = u) = some x
    rw [List.find?_filter, ← hx]
    congr 1
    funext y
    by_cases hy : y.tag = u
    · simp [hy, hu]
    · simp [hy]
  drawings := State.dropRef_sameDrawings { s with entries := _ } e.pattern

theorem State.removeIfDone_accounted {s : State} (h : s.Accounted) (t : Tag) : (s.removeIfDone t).Accounted := by
  rcases s.removeIfDone_cases t with e | ⟨x, hx, _, e⟩ <;> rw [e]
  · exact h
  · exact State.removed_accounted h (State.mem_of_entry? hx).1

theorem State.removeIfDone_wants (s : State) (t : Tag) : s.Wants (s.removeIfDone t) := by
  rcases s.removeIfDone_cases t with e | ⟨x, hx, hd, e⟩ <;> rw [e]
  · exact .of_eq rfl rfl
  · obtain ⟨_, rfl⟩ := State.mem_of_entry? hx
    exact State.removed_wants hx hd

/-- Removing an entry that is done serves. -/
theorem State.removeIfDone_serves (s : State) (t : Tag) : s.Serves (s.removeIfDone t) where
  toWants := s.removeIfDone_wants t
  unit := .inl (by rw [State.removeIfDone_rest])
  wf h := by
    rw [State.removeIfDone_rest]
    exact h
  laid _ h := by
    refine h.recount (State.removeIfDone_accounted h.toAccounted t) (State.standAs_of_eq ?_) ?_ ?_ (s.removeIfDone_wants t).drawings <;>
      rw [State.removeIfDone_rest]

/-! ### Records that go -/

theorem State.removeIfDone_dropRef (s : State) (t : Tag) (n : PatNo) :
    (s.removeIfDone t).dropRef n = (s.dropRef n).removeIfDone t := by
  have he : (s.dropRef n).entry? t = s.entry? t := rfl
  unfold State.removeIfDone
  rw [he]
  split
  · rfl
  · split
    · exact congrArg (fun u => State.unmarkTag u t) (State.dropRef_comm { s with entries := _ } _ n)
    · rfl

/-- A slot whose record is gone, with its reference (R113). -/
def State.emptied (s : State) (n : SlotNo) (p : Placement) : State :=
  ({ s.setSlot n none with withdrawn := s.withdrawn.filter fun m => m ≠ n } : State).dropRef p.pattern

theorem Event.free_state {e : Event} {n : SlotNo} {p : Placement} (hp : e.state.slots[n] = some p) :
    (e.free n).state = (e.state.emptied n p).dropHolder p.tag := by
  unfold Event.free State.emptied State.dropHolder
  rw [hp]
  dsimp only
  rw [State.removeIfDone_dropRef]
  rfl

theorem State.emptied_accounted {s : State} (h : s.Accounted) {n : SlotNo} {p : Placement} (hp : s.slots[n] = some p) :
    (s.emptied n p).Accounted := by
  have hd : s.sameDrawings (s.emptied n p) := State.dropRef_sameDrawings { s.setSlot n none with withdrawn := _ } p.pattern
  refine ⟨h.tags, fun m r hr => ?_, fun x hx => (hd.state _).trans (h.demand x hx), fun m => ?_⟩
  · have hr' : s.slots[m] = some r := by
      have hset : (s.emptied n p).slots = s.slots.set n none := rfl
      rw [hset, get_set] at hr
      split at hr
      · cases hr
      · exact hr
    exact ⟨(h.records m r hr').1, (hd.state _).trans (h.records m r hr').2⟩
  · have hrefs := h.refs m
    have hcount := countSlots_set s.slots n none fun r => decide (r.pattern = m)
    have hnew : ((s.emptied n p).patterns[m]).refs = (s.patterns[m]).refs - (decide (p.pattern = m)).toNat :=
      State.dropRef_refs { s.setSlot n none with withdrawn := _ } p.pattern m
    rw [hp] at hcount
    simp only [Option.any_some, Option.any_none, Bool.toNat_false, Nat.add_zero] at hcount
    rw [hnew, hrefs]
    show _ = s.entries.countP (fun x => x.pattern = m) + countSlots (s.slots.set n none) fun r => r.pattern = m
    omega

theorem State.dropHolder_accounted {s : State} (h : s.Accounted) (t : Tag) : (s.dropHolder t).Accounted :=
  State.removeIfDone_accounted (State.updEntry_accounted (f := fun e => { e with holders := e.holders - 1 }) h t
    (fun _ => rfl) fun _ => rfl) t

theorem State.dropHolder_wants (s : State) (t : Tag) : s.Wants (s.dropHolder t) :=
  (State.updEntry_wants s t (f := fun e => { e with holders := e.holders - 1 }) (fun _ => rfl) (fun _ => rfl)
    fun _ _ _ => id).trans (State.removeIfDone_wants _ t)

/-- A slot is freed: its record is gone from the accounts (R113). -/
theorem Event.free_accounted {e : Event} (h : e.state.Accounted) (n : SlotNo) : (e.free n).state.Accounted := by
  cases hp : e.state.slots[n] with
  | none =>
    unfold Event.free
    rw [hp]
    exact h
  | some p =>
    rw [Event.free_state hp]
    exact State.dropHolder_accounted (State.emptied_accounted h hp) _

theorem Event.free_wants (e : Event) (n : SlotNo) : e.state.Wants (e.free n).state := by
  cases hp : e.state.slots[n] with
  | none =>
    unfold Event.free
    rw [hp]
    exact .of_eq rfl rfl
  | some p =>
    rw [Event.free_state hp]
    refine State.Wants.trans (t := e.state.emptied n p) ⟨fun u x hx hw => ⟨x, hx, hw, rfl⟩, ?_⟩ (State.dropHolder_wants _ _)
    exact State.dropRef_sameDrawings { e.state.setSlot n none with withdrawn := _ } p.pattern

/-- Freeing a slot leaves it without a record, and the others as they were. -/
theorem Event.free_slots (e : Event) (n m : SlotNo) :
    ((e.free n).state.slots)[m] = if m = n then none else e.state.slots[m] := by
  cases hp : e.state.slots[n] with
  | none =>
    have hf : e.free n = e := by
      unfold Event.free
      rw [hp]
    rw [hf]
    split
    · rename_i hm
      rw [hm, hp]
    · rfl
  | some p =>
    have hset : ((e.state.emptied n p).dropHolder p.tag).slots = e.state.slots.set n none := by
      unfold State.dropHolder
      rw [State.removeIfDone_rest]
      rfl
    rw [Event.free_state hp, hset, get_set]

theorem Event.freeAll_accounted (ns : List SlotNo) {e : Event} (h : e.state.Accounted) :
    (e.freeAll ns).state.Accounted := by
  induction ns generalizing e with
  | nil => exact h
  | cons n ns ih => exact ih (Event.free_accounted h n)

theorem Event.freeAll_wants (ns : List SlotNo) (e : Event) : e.state.Wants (e.freeAll ns).state := by
  induction ns generalizing e with
  | nil => exact .of_eq rfl rfl
  | cons n ns ih => exact (e.free_wants n).trans (ih _)

theorem Event.freeAll_slots (ns : List SlotNo) (e : Event) (m : SlotNo) :
    ((e.freeAll ns).state.slots)[m] = if m ∈ ns then none else e.state.slots[m] := by
  induction ns generalizing e with
  | nil => rfl
  | cons n ns ih =>
    refine (ih (e.free n)).trans ?_
    rw [Event.free_slots]
    by_cases h1 : m ∈ ns <;> by_cases h2 : m = n <;> simp [h1, h2]

/-! ### A pattern record that nothing names -/

/-- A pattern record that no entry and no record names may be replaced (R48, R52). -/
theorem State.Laid.setPattern {s t : State} (h : s.Laid) {n : PatNo} {p : Pattern}
    (hfree : (s.patterns[n]).refs = 0) (hp : p.refs = 0)
    (patterns : t.patterns = s.patterns.set n p) (ctxs : t.ctxs = s.ctxs) (planes : t.planes = s.planes)
    (slots : t.slots = s.slots) (entries : t.entries = s.entries) : t.Laid := by
  have hrefs := h.refs n
  rw [hfree] at hrefs
  have hentry : ∀ e ∈ s.entries, e.pattern ≠ n := by
    intro e he hn
    have := List.countP_eq_zero.mp (by omega : s.entries.countP (fun e => decide (e.pattern = n)) = 0) e he
    simp [hn] at this
  have hrecord : ∀ (m : SlotNo) (r : Placement), s.slots[m] = some r → r.pattern ≠ n := by
    intro m r hr hn
    have := countSlots_eq_zero (by omega : countSlots s.slots (fun r => decide (r.pattern = n)) = 0) hr
    simp [hn] at this
  have hkeep : ∀ m : PatNo, m ≠ n → t.patterns[m] = s.patterns[m] := fun m hm => by rw [patterns, get_set, if_neg hm]
  refine ⟨⟨by rw [entries]; exact h.tags, fun m r hr => ?_, fun e he => ?_, fun m => ?_⟩, fun k m x y hx hy => ?_,
    fun k he => ?_⟩
  · rw [slots] at hr
    rw [hkeep _ (hrecord m r hr), ctxs]
    exact h.records m r hr
  · rw [entries] at he
    rw [hkeep _ (hentry e he)]
    exact h.demand e he
  · rw [entries, slots, ← h.refs m]
    by_cases hm : m = n
    · rw [patterns, get_set, if_pos hm, hm, hp, hfree]
    · rw [hkeep m hm]
  · rw [ctxs] at hx hy
    have hold := h.covered k m x y hx hy
    unfold State.cell at hold ⊢
    rw [planes, slots]
    refine hold.trans (exists_congr fun r => and_congr_right fun hr => ?_)
    unfold State.cellsOf
    rw [hkeep _ (hrecord m r hr)]
  · rw [planes]
    rw [ctxs] at he
    exact h.blank k he

/-- A search goes on while a pattern record that no entry names is replaced. -/
theorem State.searchWf_setPattern {s t : State} (h : s.searchWf) (hl : s.Laid) {n : PatNo}
    (hfree : (s.patterns[n]).refs = 0) (hkeep : ∀ m : PatNo, m ≠ n → t.patterns[m] = s.patterns[m])
    (entries : t.entries = s.entries) (unit : t.searchUnit = s.searchUnit) : t.searchWf := by
  have hentry : ∀ e ∈ s.entries, e.pattern ≠ n := by
    intro e he hn
    have hrefs := hl.refs n
    rw [hfree] at hrefs
    have := List.countP_eq_zero.mp (by omega : s.entries.countP (fun e => decide (e.pattern = n)) = 0) e he
    simp [hn] at this
  have hfind : ∀ u, t.entry? u = s.entry? u := fun u => by rw [State.entry?, State.entry?, entries]
  refine ⟨fun q hq => ?_, fun q hq => ?_⟩
  · rw [hfind]
    exact h.1 q (unit ▸ hq)
  · obtain ⟨e, he, hw, hp, hd⟩ := h.2 q (unit ▸ hq)
    refine ⟨e, (hfind _).trans he, hw, hp, ?_⟩
    rw [hkeep _ (hentry e (State.mem_of_entry? he).1)]
    exact hd

end Sys2Proof.Machine
end

section
/-!
The first law over every event, tail and move.
-/

namespace Sys2Proof.Machine

open Sys2Proof

/-- The first law with all that keeps it. -/
structure State.InOrder (s : State) : Prop where
  laid : s.Laid
  search : s.searchWf

theorem State.Serves.inOrder {s t : State} (h : s.Serves t) (hw : s.planesWf) (hs : s.InOrder) : t.InOrder where
  laid := h.laid hw hs.laid
  search := h.searchWf h.unit hs.search

theorem State.InOrder.congr {s t : State} (h : s.InOrder) (hk : s.standAs t) (planes : t.planes = s.planes)
    (slots : t.slots = s.slots) (entries : t.entries = s.entries) (patterns : t.patterns = s.patterns)
    (unit : t.searchUnit = s.searchUnit) : t.InOrder where
  laid := h.laid.congr hk planes slots entries patterns
  search := (State.Wants.of_eq entries patterns).searchWf (.inl unit) h.search

/-! ### The Search Unit -/

/-- A search starts for an entry that wants pieces. -/
theorem Event.startPair_searchWf {e : Event} {q : Pair} {n : Nat}
    (h : ∀ x, e.state.entry? q.tag = some x → x.eligible = true) : (e.startPair q n).state.searchWf := by
  unfold Event.startPair
  split
  · exact ⟨fun q hq => (by cases hq), fun q hq => (by cases hq)⟩
  · rename_i x hx
    obtain ⟨_, htag⟩ := State.mem_of_entry? hx
    refine ⟨fun q hq => (by cases hq), fun p hp => ?_⟩
    obtain rfl := SearchState.searching.inj hp
    refine ⟨x, ?_, h x hx, rfl, rfl⟩
    show e.state.entry? x.tag = some x
    rw [htag]
    exact hx

theorem State.firstPair_eligible {s : State} {q : Pair} (ht : (s.entries.map Entry.tag).Nodup)
    (h : s.firstPair = some q) : ∀ x, s.entry? q.tag = some x → x.eligible = true := by
  intro x hx
  have hq := List.mem_of_mem_head? (Option.mem_def.mpr h)
  obtain ⟨e, he, hk⟩ := List.mem_flatMap.mp hq
  obtain ⟨k, hmem, rfl⟩ := List.mem_map.mp hk
  have hsel := (List.mem_filter.mp hmem).2
  rw [State.entry?_of_mem ht he] at hx
  obtain rfl := Option.some.inj hx
  simp only [State.selectable, Bool.and_eq_true] at hsel
  exact hsel.1.1.1

theorem Event.runSearchUnit_searchWf {e : Event} (h : e.state.searchWf) (ht : (e.state.entries.map Entry.tag).Nodup) :
    e.runSearchUnit.state.searchWf := by
  unfold Event.runSearchUnit
  split
  · rename_i hidle
    unfold Event.select
    split
    · rename_i q hq
      exact Event.startPair_searchWf (State.firstPair_eligible ht hq)
    · unfold Event.judgeWindow
      rw [Event.on_state, Event.raiseIf_state]
      exact (State.Wants.of_eq rfl rfl).searchWf (.inl rfl) h
  · exact h
  · rename_i q hq
    split
    · refine Event.startPair_searchWf fun x hx => ?_
      obtain ⟨y, hy, hw⟩ := h.1 q hq
      obtain rfl := Option.some.inj (hy.symm.trans hx)
      exact hw
    · exact h

theorem settle_inOrder (before : State) {e : Event} (h : e.state.InOrder) : (settle before e).InOrder where
  laid := h.laid.congr (settle_tail before e).standAs (settle_planes ..) (settle_slots ..) (settle_entries ..)
    (settle_patterns ..)
  search := by
    have hent : e.closed.state.entries = e.state.entries := e.closed_tail.entries
    have hpat : e.closed.state.patterns = e.state.patterns := e.closed_tail.patterns
    have hclosed : e.closed.state.searchWf :=
      (State.Wants.of_eq hent hpat).searchWf (.inl e.closed_calm.1) h.search
    have hrun := Event.runSearchUnit_searchWf hclosed (by rw [hent]; exact h.laid.tags)
    have htail := Event.runSearchUnit_tail e.closed
    exact (State.Wants.of_eq ((settle_entries ..).trans (htail.entries.trans hent).symm)
      ((settle_patterns ..).trans (htail.patterns.trans hpat).symm)).searchWf (.inl (settle_searchUnit before e)) hrun

theorem State.advanceScan_inOrder {s : State} (h : s.InOrder) : s.advanceScan.InOrder where
  laid := h.laid.congr (State.standAs_of_eq s.advanceScan_ctxs) s.advanceScan_planes s.advanceScan_slots
    s.advanceScan_entries s.advanceScan_patterns
  search := by
    have hs := h.search
    have hw : s.Wants s.advanceScan := .of_eq s.advanceScan_entries s.advanceScan_patterns
    cases hu : s.searchUnit with
    | idle => exact hw.searchWf (.inl (by simp only [State.advanceScan, hu])) hs
    | stalled q => exact hw.searchWf (.inl (by simp only [State.advanceScan, hu])) hs
    | searching q =>
      have hadv : s.advanceScan.searchUnit =
          .searching (s.scanOn q (min (Config.scanProgress s.freeIndex) (q.left.length - 1))) := by
        simp only [State.advanceScan, hu]
      refine ⟨fun p hp => (by rw [hadv] at hp; cases hp), fun p hp => ?_⟩
      rw [hadv] at hp
      obtain rfl := SearchState.searching.inj hp
      obtain ⟨x, hx, hwx, hpat, hd⟩ := hs.2 q hu
      obtain ⟨y, hy, hwy, hyp⟩ := hw.wanted _ x hx hwx
      obtain rfl : x = y := by
        rw [State.entry?, s.advanceScan_entries] at hy
        exact Option.some.inj (hx.symm.trans hy)
      refine ⟨x, hy, hwx, hpat, ?_⟩
      simp only [s.advanceScan_patterns]
      exact hd

/-! ### Demand -/

theorem enqueue_perm (es : List Entry) (e : Entry) : List.Perm (enqueue es e) (e :: es) := by
  unfold enqueue
  split
  · refine List.perm_middle.trans (List.Perm.cons e (List.Perm.of_eq ?_))
    exact List.takeWhile_append_dropWhile
  · exact List.perm_append_singleton ..

theorem enqueue_find? (es : List Entry) {e : Entry} {u : Tag} (h : e.tag ≠ u) :
    (enqueue es e).find? (fun x => x.tag = u) = es.find? fun x => x.tag = u := by
  unfold enqueue
  split
  · conv_rhs => rw [← List.takeWhile_append_dropWhile (p := fun x : Entry => x.rush) (l := es)]
    rw [List.find?_append, List.find?_append, List.find?_cons_of_neg (by simpa using h)]
  · rw [List.find?_append, List.find?_cons_of_neg (by simpa using h)]
    simp

theorem State.enterDemand_inOrder {s : State} (h : s.InOrder) {e : Entry}
    (hready : (s.patterns[e.pattern]).state = .ready) (hfree : s.entry? e.tag = none) :
    (s.enterDemand e).InOrder := by
  have hd : s.sameDrawings (s.enterDemand e) := State.addRef_sameDrawings
    { s with entries := enqueue s.entries e, postCounter := s.postCounter + 1 } e.pattern
  have hperm : List.Perm (s.enterDemand e).entries (e :: s.entries) := enqueue_perm s.entries e
  have hnone : ∀ x ∈ s.entries, x.tag ≠ e.tag := fun x hx => by simpa using List.find?_eq_none.mp hfree x hx
  refine ⟨h.laid.recount ⟨?_, fun n r hr => ?_, fun x hx => ?_, fun n => ?_⟩ (State.standAs_of_eq rfl) rfl rfl hd, ?_⟩
  · rw [(hperm.map Entry.tag).nodup_iff, List.map_cons, List.nodup_cons]
    refine ⟨fun hm => ?_, h.laid.tags⟩
    obtain ⟨x, hx, hxe⟩ := List.mem_map.mp hm
    exact hnone x hx hxe
  · exact ⟨(h.laid.records n r hr).1, (hd.state _).trans (h.laid.records n r hr).2⟩
  · refine (hd.state _).trans ?_
    rcases List.mem_cons.mp (hperm.mem_iff.mp hx) with rfl | hx
    · exact hready
    · exact h.laid.demand x hx
  · have hnew : ((s.enterDemand e).patterns[n]).refs = (s.patterns[n]).refs + (decide (e.pattern = n)).toNat :=
      State.addRef_refs { s with entries := enqueue s.entries e, postCounter := s.postCounter + 1 } e.pattern n
    rw [hnew, h.laid.refs n, hperm.countP_eq, toNat_countP_cons]
    show _ = _ + countSlots s.slots _
    omega
  · refine State.Wants.searchWf ⟨fun u x hx hw => ⟨x, ?_, hw, rfl⟩, hd⟩ (.inl rfl) h.search
    obtain ⟨hm, rfl⟩ := State.mem_of_entry? hx
    exact (enqueue_find? s.entries fun he => hnone x hm he.symm).trans hx

/-- A search that is not for an entry goes on when the entry is cancelled. -/
theorem State.cancelEntry_searchWf {s : State} (h : s.searchWf) {t : Tag} (hn : s.searchesFor t = false) :
    (s.updEntry t fun x => { x with state := .cancelled }).searchWf := by
  have keep : ∀ {u : Tag} {e : Entry}, u ≠ t → s.entry? u = some e →
      (s.updEntry t fun x => { x with state := .cancelled }).entry? u = some e := by
    intro u e hu he
    rw [State.entry?_updEntry s t u (f := fun x => { x with state := .cancelled }) fun _ => rfl, he, Option.map_some, if_neg]
    rw [(State.mem_of_entry? he).2]
    exact hu
  refine ⟨fun q hq => ?_, fun q hq => ?_⟩
  · have hq' : s.searchUnit = .stalled q := hq
    obtain ⟨e, he, hw⟩ := h.1 q hq'
    exact ⟨e, keep (by simpa [State.searchesFor, hq'] using hn) he, hw⟩
  · have hq' : s.searchUnit = .searching q := hq
    obtain ⟨e, he, hw, hp, hd⟩ := h.2 q hq'
    exact ⟨e, keep (by simpa [State.searchesFor, hq'] using hn) he, hw, hp, hd⟩

theorem State.abandonSearch_inOrder {s : State} (h : s.Laid) : s.abandonSearch.InOrder where
  laid := h.congr (State.standAs_of_eq rfl) rfl rfl rfl rfl
  search := ⟨fun q hq => (by cases hq), fun q hq => (by cases hq)⟩

/-- An entry is cancelled: its uncut pieces are withdrawn, a search for it is given up (R65, R94). -/
theorem State.cancelling_inOrder {s : State} (h : s.InOrder) (hw : s.planesWf) (t : Tag) : (s.cancelling t).state.InOrder := by
  have ha := State.advanceScan_inOrder h
  have hwa : s.advanceScan.planesWf := s.advanceScan_keeps.planes hw
  unfold State.cancelling
  dsimp only
  generalize s.advanceScan = u at ha hwa
  have hlaid : (u.updEntry t fun x => { x with state := .cancelled }).Laid :=
    State.updEntry_laid ha.laid t (fun _ => rfl) fun _ => rfl
  have hserve := Event.withdrawAll_serves (u.updEntry t fun x => { x with state := .cancelled }).begin (u.uncutSlots t)
    .cancelled
  have hdone : ∀ v : State, v.planesWf → v.InOrder → (v.removeIfDone t).InOrder := fun v hv hi =>
    (v.removeIfDone_serves t).inOrder hv hi
  rw [Event.on_state]
  split
  · exact hdone _ (hserve.wf hwa) (State.abandonSearch_inOrder (hserve.laid hwa hlaid))
  · rename_i hn
    refine hdone _ (hserve.wf hwa) (hserve.inOrder hwa ⟨hlaid, State.cancelEntry_searchWf ha.search ?_⟩)
    exact Bool.eq_false_iff.mpr hn

/-! ### The completion of a search -/

theorem State.giveUpPair_inOrder {s : State} (h : s.Laid) (q : Pair) : (s.giveUpPair q).InOrder :=
  State.abandonSearch_inOrder (s := s.mark q.tag q.ctx) (h.congr (State.standAs_of_eq rfl) rfl rfl rfl rfl)

/-- What occupying cells makes of a cell. -/
theorem occupant_occupy (cells : List (Nat × Nat)) (n : SlotNo) {p : Plane} (hp : p.wf = true) (a : Nat) :
    ((Plane.update p cells fun _ c => { c with occupant := some n }).read a).occupant =
      if ∃ xy ∈ cells, cellAddr xy.1 xy.2 = a then some n else (p.read a).occupant := by
  induction cells generalizing p with
  | nil => simp [Plane.update]
  | cons xy cells ih =>
    have hstep := ih (Plane.write_wf p (cellAddr xy.1 xy.2) { p.read (cellAddr xy.1 xy.2) with occupant := some n } hp)
    refine Eq.trans hstep ?_
    rw [Plane.read_write _ _ _ _ hp]
    by_cases h1 : ∃ z ∈ cells, cellAddr z.1 z.2 = a
    · rw [if_pos h1, if_pos]
      obtain ⟨z, hz, hza⟩ := h1
      exact ⟨z, List.mem_cons_of_mem _ hz, hza⟩
    · rw [if_neg h1]
      by_cases h2 : a = cellAddr xy.1 xy.2
      · rw [if_pos h2, if_pos ⟨xy, List.mem_cons_self, h2.symm⟩]
      · rw [if_neg h2, if_neg]
        rintro ⟨z, hz, hza⟩
        rcases List.mem_cons.mp hz with rfl | hz
        · exact h2 hza.symm
        · exact h1 ⟨z, hz, hza⟩

/-- The withdrawn list names WITHDRAWN slots alone (R104). -/
def State.withdrawnListed (s : State) : Prop := ∀ n ∈ s.withdrawn, ∃ p, s.slots[n] = some p ∧ p.state = .withdrawn

/-- A slot to be had is FREE or holds a WITHDRAWN record (R86). -/
theorem State.allocate_free {s : State} (h : s.withdrawnListed) {n : SlotNo} (hn : s.allocate = some n) :
    ∀ p, s.slots[n] = some p → p.state = .withdrawn := by
  unfold State.allocate at hn
  intro p hp
  split at hn
  · rename_i x hx
    obtain rfl := Option.some.inj hn
    have hnone := List.find?_some hx
    have hm := List.mem_of_find?_eq_some hx
    rw [indexed_eq] at hm
    obtain ⟨i, _, rfl⟩ := List.mem_map.mp hm
    rw [hp] at hnone
    cases hnone
  · obtain ⟨q, hq, hs⟩ := h n (List.mem_of_mem_head? (Option.mem_def.mpr hn))
    obtain rfl := Option.some.inj (hq.symm.trans hp)
    exact hs

theorem State.Accounted.congr {s t : State} (h : s.Accounted)
    (hk : ∀ k : Ctx, (t.ctxs[k]).state = .empty → (s.ctxs[k]).state = .empty) (slots : t.slots = s.slots)
    (entries : t.entries = s.entries) (patterns : t.patterns = s.patterns) : t.Accounted where
  tags := by rw [entries]; exact h.tags
  records n r hr := by
    rw [slots] at hr
    rw [patterns]
    exact ⟨fun he => (h.records n r hr).1 (hk _ he), (h.records n r hr).2⟩
  demand e he := by
    rw [patterns]
    exact h.demand e (entries ▸ he)
  refs n := by
    rw [patterns, entries, slots]
    exact h.refs n

/-- A FREE slot gets a record, whose pattern gains a reference (R87). -/
theorem State.filled_accounted {s : State} (h : s.Accounted) {n : SlotNo} (hn : s.slots[n] = none) {r : Placement}
    (hk : (s.ctxs[r.ctx]).state ≠ .empty) (hp : (s.patterns[r.pattern]).state = .ready) :
    ((s.setSlot n (some r)).addRef r.pattern).Accounted := by
  have hd : s.sameDrawings ((s.setSlot n (some r)).addRef r.pattern) :=
    State.addRef_sameDrawings (s.setSlot n (some r)) r.pattern
  have hslots : ((s.setSlot n (some r)).addRef r.pattern).slots = s.slots.set n (some r) := rfl
  refine ⟨h.tags, fun m x hx => ?_, fun x hx => (hd.state _).trans (h.demand x hx), fun m => ?_⟩
  · rw [hslots, get_set] at hx
    split at hx
    · obtain rfl := Option.some.inj hx
      exact ⟨hk, (hd.state _).trans hp⟩
    · exact ⟨(h.records m x hx).1, (hd.state _).trans (h.records m x hx).2⟩
  · have hcount := countSlots_set s.slots n (some r) fun x => decide (x.pattern = m)
    rw [hn] at hcount
    simp only [Option.any_some, Option.any_none, Bool.toNat_false, Nat.add_zero] at hcount
    have hnew : (((s.setSlot n (some r)).addRef r.pattern).patterns[m]).refs =
        (s.patterns[m]).refs + (decide (r.pattern = m)).toNat := State.addRef_refs (s.setSlot n (some r)) r.pattern m
    rw [hnew, h.refs m, hslots]
    show _ = s.entries.countP (fun x => x.pattern = m) + _
    omega

/-- A piece laid on cells that nothing occupies. -/
theorem State.coveredAt_filled {s t : State} {k j : Ctx} {n : SlotNo} {r : Placement} {d : Pattern} {c : Candidate}
    (h : s.coveredAt j) (hw : s.planesWf) (hj : (s.ctxs[j]).width ≤ 768) (hn : s.slots[n] = none)
    (hdim : (t.ctxs[j]).width = (s.ctxs[j]).width ∧ (t.ctxs[j]).height = (s.ctxs[j]).height)
    (planes : t.planes = s.planes.set k (occupy s.planes[k] d c n)) (slots : t.slots = s.slots.set n (some r))
    (drawings : s.sameDrawings t) (hk : r.ctx = k) (hr : r.state.occupies = true) (hc : t.cellsOf r = hideCells d c)
    (hcol : ∀ xy ∈ hideCells d c, xy.1 < 768)
    (hfree : ∀ xy ∈ hideCells d c, (s.cell k xy.1 xy.2).occupant = none) : t.coveredAt j := by
  intro m x y hx hy
  rw [hdim.1] at hx
  rw [hdim.2] at hy
  have hold := h m x y hx hy
  have hcell : (t.cell j x y).occupant =
      if j = k ∧ (x, y) ∈ hideCells d c then some n else (s.cell j x y).occupant := by
    unfold State.cell
    rw [planes, get_set]
    by_cases hjk : j = k
    · subst hjk
      have haddr : (∃ xy ∈ hideCells d c, cellAddr xy.1 xy.2 = cellAddr x y) ↔ (x, y) ∈ hideCells d c := by
        constructor
        · rintro ⟨xy, hm, he⟩
          obtain ⟨e1, e2⟩ := cellAddr_inj (hcol xy hm) (by omega) he
          rwa [← e1, ← e2]
        · exact fun hm => ⟨_, hm, rfl⟩
      simp only [if_pos, true_and]
      refine (occupant_occupy (hideCells d c) n (hw j) _).trans ?_
      simp only [haddr]
    · rw [if_neg hjk, if_neg fun hh => hjk hh.1]
  rw [hcell, slots, get_set]
  by_cases hin : j = k ∧ (x, y) ∈ hideCells d c
  · obtain ⟨rfl, hxy⟩ := hin
    rw [if_pos ⟨rfl, hxy⟩]
    by_cases hm : m = n
    · rw [if_pos hm, hm]
      exact ⟨fun _ => ⟨r, rfl, hk, hr, hc ▸ hxy⟩, fun _ => rfl⟩
    · rw [if_neg hm]
      have hnot := hfree _ hxy
      constructor
      · intro he
        exact absurd (Option.some.inj he).symm hm
      · rintro ⟨p, hp, hpk, hocc, hcells⟩
        rw [State.cellsOf_drawings drawings] at hcells
        rw [hold.mpr ⟨p, hp, hpk, hocc, hcells⟩] at hnot
        cases hnot
  · rw [if_neg hin]
    by_cases hm : m = n
    · rw [if_pos hm]
      subst hm
      rw [hold, hn]
      constructor
      · rintro ⟨p, hp, _⟩
        cases hp
      · rintro ⟨p, hp, hpk, _, hcells⟩
        obtain rfl := Option.some.inj hp
        rw [hc] at hcells
        exact absurd ⟨hpk.symm.trans hk, hcells⟩ hin
    · rw [if_neg hm]
      simp only [State.cellsOf_drawings drawings]
      exact hold

/-- The cells of a candidate that re-verifies lie in the plane and are not occupied (R84). -/
theorem State.reverifies_cells {s : State} {q : Search} {c : Candidate} (h : s.reverifies q c = true) (hb : s.hidesWf) :
    ∀ xy ∈ hideCells q.samples.drawing c, xy.1 < 768 ∧ (s.cell q.pair.ctx xy.1 xy.2).occupant = none := by
  simp only [State.reverifies, Bool.and_eq_true, decide_eq_true_eq, cellTest, List.all_eq_true] at h
  obtain ⟨⟨_, hfrontier⟩, hcells⟩ := h
  intro xy hxy
  obtain ⟨⟨i, j, r⟩, hm, rfl⟩ := List.mem_map.mp hxy
  have hi := (Pattern.mem_coveredCells.mp hm).1
  obtain ⟨h1, h2, _⟩ := hb q.pair.ctx
  exact ⟨by dsimp only; omega, Option.isNone_iff_eq_none.mp (hcells _ hm).2⟩

theorem hideCells_refs (d : Pattern) (r : Nat) (c : Candidate) : hideCells { d with refs := r } c = hideCells d c := rfl

theorem State.drawnAs.cellsOf {s : State} {d : Pattern} {n : PatNo} (h : s.drawnAs d n) {p : Placement}
    (hp : p.pattern = n) : s.cellsOf p = hideCells d p.candidate := by
  subst hp
  unfold State.cellsOf
  rw [show s.patterns[p.pattern] = _ from h]
  rfl

/-- A commit lays a piece on cells that nothing occupies, into a slot that held at most a WITHDRAWN record (R84 to R87). -/
theorem Event.commit_inOrder {e : Event} {n : SlotNo} {q : Search} {b : Best} (h : e.state.InOrder)
    (hw : e.state.planesWf) (hb : e.state.hidesWf) (hq : e.state.searchUnit = .searching q)
    (hv : e.state.reverifies q b.cand = true) (hn : ∀ p, e.state.slots[n] = some p → p.state = .withdrawn) :
    (e.commit n q b).state.InOrder := by
  have hopen : (e.state.ctxs[q.pair.ctx]).state = .opened := ((State.reverified_iff _ _ _).mpr hv).1
  obtain ⟨x, hx, _, hpat, hdrawn⟩ := h.search.2 q hq
  have hrest := e.free_rest n
  have hacc := Event.free_accounted h.laid.toAccounted n
  have hwants := e.free_wants n
  have hslots := e.free_slots n
  rw [Event.commit_state]
  generalize hf : (e.free n).state = f at hrest hacc hwants hslots
  have hplanes : f.planes = e.state.planes := by rw [hrest]
  have hctxs : f.ctxs = e.state.ctxs := by rw [hrest]
  have hfn : f.slots[n] = none := by rw [hslots, if_pos rfl]
  have hfdrawn : f.drawnAs q.samples.drawing q.samples.pattern := by
    rw [hpat]
    exact hwants.drawn hdrawn
  have hready : (f.patterns[q.samples.pattern]).state = .ready := by
    rw [State.sameDrawings.state hwants.drawings]
    exact State.ready_of_eq hpat (h.laid.demand x (State.mem_of_entry? hx).1)
  have hfcov : ∀ j, f.coveredAt j := fun j =>
    State.coveredAt_freed (h.laid.covered j) (by rw [hctxs]; exact ⟨rfl, rfl⟩) (by rw [hplanes]) hwants.drawings fun m => by
      rw [hslots]
      split
      · rename_i hm
        subst hm
        exact .inr ⟨rfl, fun p hp hocc => by rw [hn p hp] at hocc; exact absurd hocc.2 (by decide)⟩
      · exact .inl rfl
  have hfk : (f.ctxs[q.pair.ctx]).state ≠ .empty := by
    rw [hctxs, hopen]
    decide
  have haccounted := State.updEntry_accounted (State.filled_accounted hacc hfn (r := f.commitRecord q b) hfk hready)
    q.pair.tag (f := fun x => { x with live := x.live + 1, holders := x.holders + 1 }) (fun _ => rfl) fun _ => rfl
  have hdraw := State.addRef_sameDrawings f q.samples.pattern
  have hcells := State.reverifies_cells hv hb
  have hctx : f.standAs (f.updCtx q.pair.ctx fun c => { c with commits := c.commits + 1 }) :=
    f.updCtx_standAs _ ⟨rfl, rfl, id⟩
  refine ⟨⟨haccounted.congr (fun j => (hctx j).2.2) rfl rfl rfl, fun j => ?_, fun j hj a => ?_⟩,
    ⟨fun p hp => (by cases hp), fun p hp => (by cases hp)⟩⟩
  · refine State.coveredAt_filled (k := q.pair.ctx) (n := n) (r := f.commitRecord q b) (d := q.samples.drawing)
      (c := b.cand) (hfcov j) (fun j => by rw [hplanes]; exact hw j) (by rw [hctxs]; exact (hb j).2.1) hfn
      ⟨(hctx j).1, (hctx j).2.1⟩ rfl rfl hdraw rfl rfl ?_ (fun xy hxy => (hcells xy hxy).1) fun xy hxy => ?_
    · exact (State.cellsOf_drawings hdraw _).trans (hfdrawn.cellsOf rfl)
    · unfold State.cell
      rw [hplanes]
      exact (hcells xy hxy).2
  · have hjk : j ≠ q.pair.ctx := by
      rintro rfl
      exact hfk ((hctx _).2.2 hj)
    dsimp only
    rw [get_set, if_neg hjk, hplanes]
    have hje := (hctx j).2.2 hj
    rw [hctxs] at hje
    exact h.laid.blank j hje a

/-- What a completion makes of a search keeps the first law (R83 to R88). -/
theorem Event.finish_inOrder {e : Event} {q : Search} (o : Option Best) (h : e.state.InOrder) (hw : e.state.planesWf)
    (hb : e.state.hidesWf) (hl : e.state.withdrawnListed) (hq : e.state.searchUnit = .searching q) :
    (e.finish q o).state.InOrder := by
  obtain ⟨x, hx, hxw, _, _⟩ := h.search.2 q hq
  unfold Event.finish
  split
  · exact State.giveUpPair_inOrder h.laid q.pair
  · rename_i b
    split
    · rename_i hv
      split
      · rename_i n hn
        exact Event.commit_inOrder h hw hb hq hv (State.allocate_free hl hn)
      · refine ⟨h.laid.congr (State.standAs_of_eq rfl) rfl rfl rfl rfl, fun p hp => ?_, fun p hp => (by cases hp)⟩
        obtain rfl := SearchState.stalled.inj hp
        exact ⟨x, hx, hxw⟩
    · unfold Event.failVerify
      split
      · refine ⟨h.laid.congr (Event.startPair_tail e q.pair _).standAs ?_ ?_ ?_ ?_, Event.startPair_searchWf fun y hy => ?_⟩
        · exact (Event.startPair_tail e q.pair _).planes
        · exact (Event.startPair_tail e q.pair _).slots
        · exact (Event.startPair_tail e q.pair _).entries
        · exact (Event.startPair_tail e q.pair _).patterns
        · obtain rfl := Option.some.inj (hx.symm.trans hy)
          exact hxw
      · exact State.giveUpPair_inOrder h.laid q.pair

/-! ### A piece is cut through -/

/-- Each entry's live count is that of its live records (R57). -/
def State.liveCounted (s : State) : Prop :=
  ∀ e ∈ s.entries, e.live = s.records.countP fun r => r.2.tag = e.tag && r.2.state.live

theorem State.liveCounted.pos {s : State} (h : s.liveCounted) {e : Entry} (he : e ∈ s.entries) {n : SlotNo}
    {p : Placement} (hp : s.slots[n] = some p) (ht : p.tag = e.tag) (hl : p.state.live = true) : 1 ≤ e.live := by
  rw [h e he]
  exact List.countP_pos_iff.mpr ⟨(n, p), State.mem_records.mpr hp, by simp [ht, hl]⟩

theorem Event.cutThrough_serves {e : Event} {h : Head} {n : SlotNo} {p : Placement} (hp : e.state.slots[n] = some p)
    (hs : p.state = .cutting) (hl : e.state.liveCounted) : e.state.Serves (e.cutThrough h n p).state := by
  have h1 : e.state.Serves (e.state.setSlot n (some { p with state := .cut })) :=
    State.setSlot_serves hp ⟨rfl, rfl, rfl⟩ (by rw [hs]; rfl)
  have h2 := h1.trans (State.unhold_eases (e.state.setSlot n (some { p with state := .cut })) h n).toServes
  unfold Event.cutThrough
  dsimp only
  rw [Event.raiseIf_state, Event.raiseIf_state, Event.raise_state, Event.on_state]
  refine h2.trans (State.updEntry_serves _ _ (fun _ => rfl) (fun _ => rfl) fun x hx htag hw => ?_)
  have hpos : 1 ≤ x.live := hl.pos hx hp htag.symm (by rw [hs]; rfl)
  rw [Entry.eligible_iff] at hw ⊢
  refine ⟨?_, by simp only [Entry.countCut]; omega⟩
  simp only [Entry.countCut, hw.1, decide_true, Bool.true_and, decide_eq_true_eq]
  rw [if_neg (by omega)]

/-! ### The hides' own events -/

/-- A plane changes in no occupant. -/
theorem State.setPlane_serves (s : State) (k : Ctx) {q : Plane} (hq : s.planesWf → q.wf = true)
    (ho : s.planesWf → ∀ a, (q.read a).occupant = ((s.planes[k]).read a).occupant) : s.Serves (s.setPlane k q) := by
  have hread : s.planesWf → ∀ (j : Ctx) (a : Nat),
      (((s.setPlane k q).planes[j]).read a).occupant = ((s.planes[j]).read a).occupant := by
    intro hw j a
    rw [State.setPlane_planes, get_set]
    split
    · rename_i hj
      subst hj
      exact ho hw a
    · rfl
  refine ⟨.of_eq rfl rfl, .inl rfl, fun hw => State.setPlane_planesWf hw (hq hw), fun hw h => ?_⟩
  refine ⟨⟨h.tags, h.records, h.demand, h.refs⟩, fun j n x y hx hy => ?_, fun j he a => (hread hw j a).trans (h.blank j he a)⟩
  have hold := h.covered j n x y hx hy
  unfold State.cell at hold ⊢
  rw [hread hw j]
  exact hold

theorem State.rowWritten_inOrder {s : State} (h : s.InOrder) (hw : s.planesWf) (k : Ctx) (y : Nat)
    (runs : List GradeRun) : (s.rowWritten k y runs).InOrder := by
  refine State.Serves.inOrder (s := s.advanceScan) (State.setPlane_serves _ k (fun _ => ?_) fun _ a => ?_)
    (s.advanceScan_keeps.planes hw) (State.advanceScan_inOrder h)
  · exact writeRuns_wf _ _ _ _ (hw k)
  · rw [s.advanceScan_planes]
    exact writeRuns_aspect Cell.occupant (fun _ _ => rfl) _ y runs (hw k) a

theorem State.grading_serves (s : State) (k : Ctx) (y : Nat) (runs : List GradeRun) :
    (s.rowWritten k y runs).Serves (s.grading k y runs).state := by
  have base := Event.downgrade_serves (s.rowWritten k y runs).begin
    (writeRuns s.planes[k] (s.ctxs[k]).width y runs)
    (downgrades s.planes[k] (writeRuns s.planes[k] (s.ctxs[k]).width y runs)
      ((List.range (s.ctxs[k]).width).map fun x => (x, y))) .gradeChange
  unfold State.grading
  dsimp only
  split
  · exact State.Serves.trans base (.of_same (State.standAs_of_eq rfl) rfl rfl rfl rfl (.inl rfl))
  · exact base

theorem applyPlane_occupant (sh : Shape) (c : Classified) (w h : Nat) {p : Plane} (hp : p.wf = true) (a : Nat) :
    ((applyPlane p sh c w h).read a).occupant = (p.read a).occupant :=
  Plane.read_update_aspect Cell.occupant (f := applyCell sh c) (fun _ _ => rfl) _ hp a

theorem recomputePlane_occupant (cells : List (Nat × Nat)) (fs : List (Shape × Classified)) {p : Plane}
    (hp : p.wf = true) (a : Nat) : ((recomputePlane p cells fs).read a).occupant = (p.read a).occupant :=
  Plane.read_update_aspect Cell.occupant
    (f := fun xy c => { c with cap := recomputedCap fs xy, classes := recomputedClasses fs xy }) (fun _ _ => rfl) _ hp a

/-- A state with one plane changed in no occupant, and flaw records and jobs changed. -/
theorem State.marked_inOrder {s : State} (h : s.InOrder) (hw : s.planesWf) (k : Ctx) {q : Plane} (hq : q.wf = true)
    (ho : ∀ a, (q.read a).occupant = ((s.planes[k]).read a).occupant) {t : State}
    (ht : t = { s.advanceScan.setPlane k q with flaws := t.flaws, inFlight := t.inFlight }) : t.InOrder := by
  have hbase : (s.advanceScan.setPlane k q).InOrder := by
    refine State.Serves.inOrder (s := s.advanceScan) (State.setPlane_serves _ k (fun _ => hq) fun _ a => ?_)
      (s.advanceScan_keeps.planes hw) (State.advanceScan_inOrder h)
    rw [s.advanceScan_planes]
    exact ho a
  rw [ht]
  exact hbase.congr (State.standAs_of_eq rfl) rfl rfl rfl rfl rfl

theorem State.applying_serves (s : State) (k : Ctx) (n : Nat) (f : Flaw) (c : Classified) :
    (s.flawWritten k n f c).Serves (s.applying k n f c).state :=
  Event.downgrade_serves ((s.flawWritten k n f c).begin.raise .flawApplied) _ _ _

theorem State.flawWritten_planesWf {s : State} (hw : s.planesWf) (k : Ctx) (n : Nat) (f : Flaw) (c : Classified) :
    (s.flawWritten k n f c).planesWf :=
  State.setPlane_planesWf (s := s.advanceScan) (s.advanceScan_keeps.planes hw) (Plane.update_wf _ _ _ (hw k))

/-- A hide opens on a context that no record names and whose cells nothing occupies (R121). -/
theorem State.openCtx_inOrder {s : State} (h : s.InOrder) (k : Ctx) (c : HideContext) (hk : (s.ctxs[k]).state = .empty)
    (hc : c.state ≠ .empty) : (s.updCtx k fun _ => c).InOrder := by
  have hctx : ∀ j : Ctx, ((s.updCtx k fun _ => c).ctxs[j]).state = .empty → (s.ctxs[j]).state = .empty := by
    intro j
    rw [State.updCtx_ctxs, get_set]
    split
    · exact fun he => absurd he hc
    · exact id
  refine ⟨⟨h.laid.toAccounted.congr hctx rfl rfl rfl, fun j n x y hx hy => ?_, fun j he => h.laid.blank j (hctx j he)⟩,
    (State.Wants.of_eq rfl rfl).searchWf (.inl rfl) h.search⟩
  by_cases hj : j = k
  · subst hj
    constructor
    · intro ho
      have := h.laid.blank j hk (cellAddr x y)
      rw [show ((s.planes[j]).read (cellAddr x y)).occupant = some n from ho] at this
      cases this
    · rintro ⟨p, hp, rfl, _⟩
      exact absurd hk (h.laid.records n p hp).1
  · rw [State.updCtx_ctxs, get_set, if_neg hj] at hx hy
    exact h.laid.covered j n x y hx hy

theorem State.abortStart_inOrder {s : State} (h : s.InOrder) (k : Ctx) : (s.abortStart k).InOrder := by
  have ha := State.advanceScan_inOrder h
  unfold State.abortStart
  split
  · exact State.abandonSearch_inOrder (s := s.advanceScan.clearMarking k)
      (ha.laid.congr (State.standAs_of_eq rfl) rfl rfl rfl rfl)
  · exact ha.congr (State.standAs_of_eq rfl) rfl rfl rfl rfl rfl

theorem State.aborting_inOrder {s : State} (h : s.InOrder) (hw : s.planesWf) (k : Ctx) : (s.aborting k).state.InOrder := by
  have hwa : (s.abortStart k).planesWf := by
    rw [State.abortStart_rest]
    exact hw
  have hpieces : (s.abortPieces k).state.InOrder :=
    (Event.foldl_serves _ (Event.abortSlot_serves k) (s.abortStart k).usedSlots (s.abortStart k).begin).inOrder hwa
      (State.abortStart_inOrder h k)
  rw [State.aborting_eq]
  exact hpieces.congr (State.updCtx_standAs _ k ⟨rfl, rfl, fun he => by cases he⟩) rfl rfl rfl rfl rfl

theorem State.mem_slotsOf {s : State} {k : Ctx} {n : SlotNo} :
    n ∈ s.slotsOf k ↔ ∃ p, s.slots[n] = some p ∧ p.ctx = k := by
  unfold State.slotsOf
  simp only [List.mem_map, List.mem_filter, decide_eq_true_eq, Prod.exists, State.mem_records]
  constructor
  · rintro ⟨m, p, ⟨hp, hk⟩, rfl⟩
    exact ⟨p, hp, hk⟩
  · rintro ⟨p, hp, hk⟩
    exact ⟨n, p, ⟨hp, hk⟩, rfl⟩

/-- A released hide's records go with it; the other hide stands as it stood (R128). -/
theorem State.releasing_inOrder {s : State} (h : s.InOrder) (k : Ctx) : (s.releasing k).state.InOrder := by
  have hacc := Event.freeAll_accounted (s.slotsOf k) (e := s.begin) h.laid.toAccounted
  have hwants := Event.freeAll_wants (s.slotsOf k) s.begin
  have hslots := Event.freeAll_slots (s.slotsOf k) s.begin
  have hrest := Event.freeAll_rest (s.slotsOf k) s.begin
  have hstate := s.releasing_state k
  have hctx := s.releasing_ctx k
  generalize (s.releasing k).state = t at hstate hctx
  generalize (s.begin.freeAll (s.slotsOf k)).state = f at hacc hwants hslots hrest hstate
  have hfctxs : f.ctxs = s.ctxs := by rw [hrest]; rfl
  have htslots : t.slots = f.slots := by rw [hstate]
  have htpat : t.patterns = f.patterns := by rw [hstate]
  have htent : t.entries = f.entries := by rw [hstate]
  have htplanes : t.planes = s.planes.set k [] := by rw [hstate]
  have gone : ∀ (n : SlotNo) (p : Placement), t.slots[n] = some p → s.slots[n] = some p ∧ p.ctx ≠ k := by
    intro n p hp
    rw [htslots, hslots] at hp
    split at hp
    · cases hp
    · rename_i hn
      exact ⟨hp, fun hpk => hn (State.mem_slotsOf.mpr ⟨p, hp, hpk⟩)⟩
  have stays : ∀ j : Ctx, j ≠ k → t.ctxs[j] = { s.ctxs[j] with rank := (t.ctxs[j]).rank } := fun j hj =>
    (hctx j).elim (fun e => absurd e.1 hj) id
  have hdraw : s.sameDrawings t := fun n => by rw [htpat]; exact hwants.drawings n
  refine ⟨⟨⟨by rw [htent]; exact hacc.tags, fun n r hr => ?_, fun e he => ?_, fun n => ?_⟩, fun j => ?_, fun j hj a => ?_⟩, ?_⟩
  · obtain ⟨hs, hrk⟩ := gone n r hr
    rw [stays _ hrk]
    exact ⟨(h.laid.records n r hs).1, (hdraw.state _).trans (h.laid.records n r hs).2⟩
  · rw [htpat]
    exact hacc.demand e (htent ▸ he)
  · rw [htpat, htent, htslots]
    exact hacc.refs n
  · by_cases hj : j = k
    · intro n x y hx hy
      rcases hctx j with ⟨_, e⟩ | e
      · rw [e] at hx
        exact absurd hx (Nat.not_lt_zero x)
      · constructor
        · intro ho
          unfold State.cell at ho
          rw [htplanes, get_set, if_pos hj] at ho
          cases ho
        · rintro ⟨p, hp, hpj, _⟩
          exact absurd (hpj.trans hj) (gone n p hp).2
    · refine State.coveredAt_freed (h.laid.covered j) ?_ ?_ hdraw fun n => ?_
      · rw [stays j hj]
        exact ⟨rfl, rfl⟩
      · rw [htplanes, get_set, if_neg hj]
      · rw [htslots, hslots]
        split
        · rename_i hn
          obtain ⟨p, hp, hpk⟩ := State.mem_slotsOf.mp hn
          refine .inr ⟨rfl, fun q hq hqj => ?_⟩
          obtain rfl := Option.some.inj (hp.symm.trans hq)
          exact hj (hqj.1.symm.trans hpk)
        · exact .inl rfl
  · rw [htplanes, get_set]
    split
    · rfl
    · rename_i hjk
      rw [stays j hjk] at hj
      exact h.laid.blank j hj a
  · refine State.Wants.searchWf ⟨fun u e he hw => ?_, hdraw⟩ (.inl (by rw [hstate, hrest]; rfl)) h.search
    obtain ⟨e', h1, h2, h3⟩ := hwants.wanted u e he hw
    exact ⟨e', by rw [State.entry?, htent]; exact h1, h2, h3⟩

theorem State.HideEvent.inOrder {s : State} {e : Event} (h : s.HideEvent e) (hw : s.planesWf) (hs : s.InOrder) :
    e.state.InOrder := by
  cases h with
  | grade k y runs hk =>
    exact (s.grading_serves k y runs).inOrder (State.rowWritten_planesWf hw k y runs) (State.rowWritten_inOrder hs hw k y runs)
  | addFlaw => exact hs.congr (State.standAs_of_eq rfl) rfl rfl rfl rfl rfl
  | applyFlaw k n f c hj hf hc =>
    refine (s.applying_serves k n f c).inOrder (State.flawWritten_planesWf hw k n f c) ?_
    exact State.marked_inOrder hs hw k (Plane.update_wf _ _ _ (hw k)) (applyPlane_occupant _ _ _ _ (hw k)) rfl
  | dropFlaw => exact hs.congr (State.standAs_of_eq rfl) rfl rfl rfl rfl rfl
  | queueWithdraw => exact hs.congr (State.standAs_of_eq rfl) rfl rfl rfl rfl rfl
  | unapplyFlaw k n f c hj hf hc =>
    rw [State.unapplying_state]
    have hbase : (s.flawRecomputed k n f c).InOrder := State.marked_inOrder hs hw k (Plane.update_wf _ _ _ (hw k))
      (recomputePlane_occupant _ _ (hw k)) rfl
    exact hbase.congr (State.standAs_of_eq rfl) rfl rfl rfl rfl rfl
  | openHide k w h a hready hk hww hhh => exact State.openCtx_inOrder hs k _ hk (by simp [State.openedCtx])
  | raiseFrontier k v hk =>
    have hctx : s.standAs (s.updCtx k fun c => { c with frontier := (s.ctxs[k]).raised v }) :=
      s.updCtx_standAs k ⟨rfl, rfl, id⟩
    exact (hs.congr hctx rfl rfl rfl rfl rfl).congr (State.standAs_of_eq rfl) rfl rfl rfl rfl rfl
  | abort k hk => exact State.aborting_inOrder hs hw k
  | release k hk => exact State.releasing_inOrder hs k

/-! ### The moves -/

/-- What the first law needs of the other laws. -/
structure State.Backed (s : State) : Prop where
  planes : s.planesWf
  hides : s.hidesWf
  idle : s.idleUnlessReady
  held : s.heldOccupied
  listed : s.withdrawnListed
  live : s.liveCounted

theorem State.PieceEvent.inOrder {s : State} {e : Event} (h : s.PieceEvent e) (hb : s.Backed) (hs : s.InOrder) :
    e.state.InOrder := by
  have hw := hb.planes
  cases h with
  | nothing _ he => exact he ▸ hs
  | post t n hand requested rush hready hfree => exact State.enterDemand_inOrder hs hready hfree
  | cancel t x hx => exact State.cancelling_inOrder hs hw t
  | complete q hq => exact Event.finish_inOrder (s.finalBest q) hs hw hb.hides hb.listed hq
  | withdraw n c p hp hst =>
    exact (Event.withdraw_serves s.advanceScan.begin n c).inOrder (s.advanceScan_keeps.planes hw) (State.advanceScan_inOrder hs)
  | drain k hk => exact (s.drainCtx_eases k .request hk).inOrder hw hs
  | leaveWork h b => exact (s.begin.takeOffline_eases h b hb.held).inOrder hw hs
  | grant h n p hp hst =>
    have hset : s.Serves (s.setSlot n (some { p with state := .claimed, head := some h })) :=
      State.setSlot_serves hp ⟨rfl, rfl, rfl⟩ (by rw [hst]; rfl)
    exact (hset.inOrder hw hs).congr (State.standAs_of_eq rfl) rfl rfl rfl rfl rfl
  | startCut h x p hx hp =>
    obtain ⟨q, hq, hocc⟩ := hb.held h x hx
    obtain rfl := Option.some.inj (hp.symm.trans hq)
    have hset : s.Serves (s.setSlot x.slot (some { p with state := .cutting })) :=
      State.setSlot_serves hp ⟨rfl, rfl, rfl⟩ hocc.symm
    exact (hset.inOrder hw hs).congr (State.standAs_of_eq rfl) rfl rfl rfl rfl rfl
  | cutThrough h x p hx hp hst => exact (Event.cutThrough_serves (e := s.begin) hp hst hb.live).inOrder hw hs
  | spoil h x p hx hp hst c => exact (s.begin.spoil_eases x.slot c (hb.held h x hx)).inOrder hw hs
  | fault h x p hx hp hst c =>
    have h1 := s.begin.spoil_eases x.slot c (hb.held h x hx)
    exact (h1.trans (Event.faultHead_eases _ h (h1.heldOccupied hb.held))).inOrder hw hs
  | giveBack h x p hx hp hst => exact (s.returnClaim_eases x.slot (hb.held h x hx)).inOrder hw hs
  | loseClaim h n p hp hst => exact (s.returnClaim_eases n ⟨p, hp, by rw [hst]; rfl⟩).inOrder hw hs
  | deliver f v => exact (s.begin.deliver_eases f v hb.held).inOrder hw hs

/-- A part with no record, no entry, no reference and no search. -/
theorem State.inOrder_of_reset {s : State} (planes : s.planes = Vector.replicate 2 [])
    (slots : s.slots = Vector.replicate 256 none) (entries : s.entries = []) (unit : s.searchUnit = .idle)
    (refs : ∀ n : PatNo, (s.patterns[n]).refs = 0) : s.InOrder := by
  have hnone : ∀ n : SlotNo, s.slots[n] = none := fun n => by rw [slots, get_replicate]
  have hread : ∀ (k : Ctx) (a : Nat), ((s.planes[k]).read a).occupant = none := fun k a => by
    rw [planes, get_replicate]
    rfl
  refine ⟨⟨⟨by rw [entries]; exact List.nodup_nil, fun n r hr => ?_, fun e he => ?_, fun n => ?_⟩, fun k n x y _ _ => ?_,
    fun k _ a => hread k a⟩, fun q hq => (by rw [unit] at hq; cases hq), fun q hq => (by rw [unit] at hq; cases hq)⟩
  · rw [hnone] at hr
    cases hr
  · rw [entries] at he
    cases he
  · rw [refs, entries, List.countP_nil, Nat.zero_add]
    exact (List.countP_eq_zero.mpr fun i _ => by rw [hnone]; simp).symm
  · constructor
    · intro ho
      rw [show (s.cell k x y).occupant = none from hread k _] at ho
      cases ho
    · rintro ⟨p, hp, _⟩
      rw [hnone] at hp
      cases hp

/-- A pattern record that is not READY is named by nothing. -/
theorem State.Laid.refs_eq_zero {s : State} (h : s.Laid) {n : PatNo} (hn : (s.patterns[n]).state ≠ .ready) :
    (s.patterns[n]).refs = 0 := by
  have hentries : s.entries.countP (fun e => decide (e.pattern = n)) = 0 := by
    refine List.countP_eq_zero.mpr fun e he => ?_
    rw [decide_eq_true_eq]
    exact fun hen => hn (State.ready_of_eq hen.symm (h.demand e he))
  have hrecords : countSlots s.slots (fun r => decide (r.pattern = n)) = 0 := by
    refine List.countP_eq_zero.mpr fun i _ => ?_
    rw [Option.any_eq_true]
    rintro ⟨r, hr, hrn⟩
    exact hn (State.ready_of_eq (of_decide_eq_true hrn).symm (h.records i r hr).2)
  rw [h.refs n, hentries, hrecords]

/-- A pattern record that nothing names is replaced. -/
theorem State.InOrder.setPattern {s t : State} (h : s.InOrder) {n : PatNo} {p : Pattern}
    (hfree : (s.patterns[n]).refs = 0) (hp : p.refs = 0) (patterns : t.patterns = s.patterns.set n p)
    (ctxs : t.ctxs = s.ctxs) (planes : t.planes = s.planes) (slots : t.slots = s.slots)
    (entries : t.entries = s.entries) (unit : t.searchUnit = s.searchUnit) : t.InOrder where
  laid := h.laid.setPattern hfree hp patterns ctxs planes slots entries
  search := State.searchWf_setPattern h.search h.laid hfree
    (fun m hm => by rw [patterns, get_set, if_neg hm]) entries unit

theorem Pattern.endLoad_refs {p : Pattern} (h : p.refs = 0) : p.endLoad.2.refs = 0 := by
  unfold Pattern.endLoad
  split
  · rfl
  · split <;> exact h

theorem State.endLoad_inOrder {s : State} (h : s.InOrder) {n : PatNo} (hn : (s.patterns[n]).state = .loading) :
    (s.endLoad n).InOrder := by
  have hfree := h.laid.refs_eq_zero (n := n) (by rw [hn]; decide)
  exact h.setPattern hfree (Pattern.endLoad_refs hfree) rfl rfl rfl rfl rfl rfl

theorem State.loading?_state {s : State} {n : PatNo} (h : s.loading? = some n) : (s.patterns[n]).state = .loading := by
  unfold State.loading? at h
  obtain ⟨x, hx, rfl⟩ := Option.map_eq_some_iff.mp h
  have hs := List.find?_some hx
  have hm := List.mem_of_find?_eq_some hx
  rw [indexed_eq] at hm
  obtain ⟨i, _, rfl⟩ := List.mem_map.mp hm
  exact of_decide_eq_true hs

theorem State.endAnyLoad_inOrder {s : State} (h : s.InOrder) : s.endAnyLoad.InOrder := by
  unfold State.endAnyLoad
  split
  · exact h
  · rename_i n hn
    exact State.endLoad_inOrder h (State.loading?_state hn)

theorem declaredPattern?_refs {pl : List Byte} {p : Pattern} (h : declaredPattern? pl = some p) : p.refs = 0 := by
  simp only [declaredPattern?, Option.bind_eq_bind, Option.bind_eq_some_iff] at h
  obtain ⟨_, _, _, _, _, _, h⟩ := h
  split at h
  · exact Option.some.inj h ▸ rfl
  · cases h

/-- A map test ends with both contexts EMPTY, which no record names. -/
theorem State.endMapTest_inOrder {s : State} (h : s.InOrder) (hidle : ∀ k : Ctx, (s.ctxs[k]).state = .empty) (n : Nat) :
    (s.endMapTest n).InOrder := by
  have hctxs := s.endMapTest_ctxs n
  have hslots : (s.endMapTest n).slots = s.slots := by rw [s.endMapTest_rest]; rfl
  have hentries : (s.endMapTest n).entries = s.entries := by rw [s.endMapTest_rest]; rfl
  have hpatterns : (s.endMapTest n).patterns = s.patterns := by rw [s.endMapTest_rest]; rfl
  have hunit : (s.endMapTest n).searchUnit = s.searchUnit := by rw [s.endMapTest_rest]; rfl
  have hread : ∀ (k : Ctx) (a : Nat), (((s.endMapTest n).planes[k]).read a).occupant = none := fun k a => by
    rw [s.endMapTest_planes, get_replicate]
    rfl
  refine ⟨⟨h.laid.toAccounted.congr (fun k => by rw [hctxs]; exact id) hslots hentries hpatterns, fun k m x y _ _ => ?_,
    fun k _ a => hread k a⟩, (State.Wants.of_eq hentries hpatterns).searchWf (.inl hunit) h.search⟩
  constructor
  · intro ho
    rw [show ((s.endMapTest n).cell k x y).occupant = none from hread k _] at ho
    cases ho
  · rintro ⟨p, hp, _⟩
    rw [hslots] at hp
    exact absurd (hidle _) (h.laid.records m p hp).1

theorem settle_heldOccupied (before : State) {e : Event} (h : e.state.heldOccupied) : (settle before e).heldOccupied := by
  intro k x hx
  rw [settle_held] at hx
  unfold State.occupied
  rw [settle_slots]
  exact h k x hx

theorem State.moveBelt_eases (s : State) (t : Transition) (a b : Bool) : s.Eases (s.moveBelt t a b) :=
  .of_same (s.moveBelt_calm t a b).standAs rfl rfl rfl rfl (.inl rfl) fun _ _ hx => hx

theorem State.turn_inOrder {s : State} (h : s.InOrder) (hw : s.planesWf) (hh : s.heldOccupied) (t : Transition)
    (a b : Bool) : (s.turn t a b).InOrder := by
  have hm := s.moveBelt_eases t a b
  refine (s.turn_keeps (P := fun u => u.planesWf ∧ u.heldOccupied ∧ u.InOrder) t a b
    ⟨hm.wf hw, hm.heldOccupied hh, hm.inOrder hw h⟩ ?_).2.2
  rintro u before k ⟨huw, huh, hui⟩
  have hc := Event.travelChange_eases u.begin k huh
  exact ⟨(settle_keeps before _).planes (hc.wf huw), settle_heldOccupied before (hc.heldOccupied huh),
    settle_inOrder before (hc.inOrder huw hui)⟩

theorem State.Move.inOrder {s t : State} (h : s.Move t) (hb : s.Backed) (hs : s.InOrder) : t.InOrder := by
  cases h with
  | stay => exact hs
  | powerUp => exact State.inOrder_of_reset rfl rfl rfl rfl fun n => congrArg Pattern.refs (get_replicate _ n)
  | partReset =>
    refine State.inOrder_of_reset rfl rfl rfl rfl fun n => ?_
    show ((s.patterns.map Pattern.partReset)[n]).refs = 0
    rw [get_map]
    unfold Pattern.partReset
    split <;> rfl
  | mapTest => exact hs.congr (State.standAs_of_eq rfl) rfl rfl rfl rfl rfl
  | endMapTest n hc =>
    refine State.endMapTest_inOrder hs (hb.idle ?_) n
    rcases hc with e | e <;> rw [e] <;> decide
  | endAnyLoad => exact State.endAnyLoad_inOrder hs
  | beginLoad n pl p hd hr hroom =>
    exact (State.endAnyLoad_inOrder hs).setPattern hr (declaredPattern?_refs hd) rfl rfl rfl rfl rfl rfl
  | libraryRows n pl hl hfit =>
    have hfree := hs.laid.refs_eq_zero (n := n) (by rw [hl]; decide)
    exact hs.setPattern (p := { s.patterns[n] with mask := (s.patterns[n]).mask ++ rowsOf (s.patterns[n]).w pl }) hfree
      hfree rfl rfl rfl rfl rfl rfl
  | endLoad n hl => exact State.endLoad_inOrder hs hl
  | dropPattern n hd hr => exact hs.setPattern hr rfl rfl rfl rfl rfl rfl rfl
  | turn tr a b => exact State.turn_inOrder hs hb.planes hb.held tr a b
  | event before e he =>
    refine settle_inOrder before ?_
    rcases he with he | he
    · exact he.inOrder hb.planes hs
    · exact he.inOrder hb hs

theorem State.heldWf.heldOccupied {s : State} (h : s.heldWf) : s.heldOccupied := by
  intro k x hx
  obtain ⟨p, hp, _, hst, _⟩ := (h.1 k).2.2 x hx
  exact ⟨p, hp, by rcases hst with e | e <;> rw [e] <;> rfl⟩

/-- What quiet changes leave of the other laws. -/
theorem State.Quiet.backed {s t : State} (h : s.Quiet t) (hb : s.Backed) : t.Backed where
  planes := h.calm.wf hb.planes
  hides := h.calm.stays.bounds hb.hides
  idle := h.calm.stays.idle hb.idle
  held k x hx := by
    unfold State.occupied
    rw [h.slots]
    exact hb.held k x (h.held k ▸ hx)
  listed := by
    unfold State.withdrawnListed
    rw [h.withdrawn, h.slots]
    exact hb.listed
  live := by
    unfold State.liveCounted State.records
    rw [h.entries, h.slots]
    exact hb.live

/-- Settles O59, over the moves a step can make. -/
theorem stepKeepsOccupantLaw : Obligations.StepKeepsOccupantLaw := by
  intro s t hp hw hi hh _ hc hs hstep
  obtain ⟨_, htags, _, hcounts⟩ := hc
  obtain ⟨hlaid, hsearch⟩ := hs.laid htags
  have hb : s.Backed := ⟨hp, hw, hi, hh.heldOccupied, hh.2.2, fun e he => (hcounts e he).1⟩
  obtain ⟨u, v, hsu, huv, hvt⟩ := step_comes hstep
  have hbu := hsu.backed hb
  have hv := huv.inOrder hbu (hsu.serves.inOrder hp ⟨hlaid, hsearch⟩)
  have ht := hvt.serves.inOrder (huv.planesWf hbu.planes) hv
  exact ht.laid.occupantsWf ht.search

end Sys2Proof.Machine
end

section
/-!
PROOFS. A commit (R84 to R87, R113, R114): the slot it takes, what it writes, and what the record it discards leaves.
-/

namespace Sys2Proof.Machine

open Sys2Proof

/-! ### An entry loses a holder (R62, R67) -/

theorem State.removed_entry?_other (s : State) {e : Entry} {u : Tag} (h : u ≠ e.tag) :
    (s.removed e).entry? u = s.entry? u := by
  show (s.entries.filter fun x => x.tag ≠ e.tag).find? (fun x => x.tag = u) = s.entries.find? fun x => x.tag = u
  rw [List.find?_filter]
  congr 1
  funext x
  by_cases hx : x.tag = u
  · simp [hx, h]
  · simp [hx]

theorem State.removed_entry?_same (s : State) (e : Entry) : (s.removed e).entry? e.tag = none := by
  show (s.entries.filter fun x => x.tag ≠ e.tag).find? (fun x => x.tag = e.tag) = none
  rw [List.find?_eq_none]
  intro x hx
  simpa using (List.mem_filter.mp hx).2

theorem State.removed_marked (s : State) (e : Entry) (k : Ctx) : (s.removed e).marked e.tag k = false := by
  have hm : (s.removed e).marks = s.marks.map fun m => m &&& ~~~(tagBit e.tag) := rfl
  unfold State.marked
  rw [hm, get_map]
  simp [tagBit]

/-- The entry of a tag once a slot names it no longer. -/
theorem State.entry?_holderGone (s : State) (t u : Tag) :
    (s.updEntry t fun e => { e with holders := e.holders - 1 }).entry? u =
      (s.entry? u).map fun e => if e.tag = t then { e with holders := e.holders - 1 } else e :=
  State.entry?_updEntry s t u fun _ => rfl

theorem State.dropHolder_entry?_other (s : State) {t u : Tag} (h : u ≠ t) : (s.dropHolder t).entry? u = s.entry? u := by
  have hu : (s.updEntry t fun e => { e with holders := e.holders - 1 }).entry? u = s.entry? u := by
    rw [State.entry?_holderGone]
    cases he : s.entry? u with
    | none => rfl
    | some e =>
      obtain ⟨_, rfl⟩ := State.mem_of_entry? he
      simp [h]
  unfold State.dropHolder
  rcases State.removeIfDone_cases (s.updEntry t fun e => { e with holders := e.holders - 1 }) t with e | ⟨x, hx, _, e⟩
  · rw [e, hu]
  · obtain ⟨_, rfl⟩ := State.mem_of_entry? hx
    rw [e, State.removed_entry?_other _ h, hu]

theorem State.removeIfDone_of_done {s : State} {t : Tag} {e : Entry} (he : s.entry? t = some e) (hd : e.done = true) :
    s.removeIfDone t = s.removed e := by
  obtain ⟨_, rfl⟩ := State.mem_of_entry? he
  unfold State.removeIfDone
  rw [he]
  exact if_pos hd

theorem State.removeIfDone_of_not_done {s : State} {t : Tag} {e : Entry} (he : s.entry? t = some e)
    (hd : e.done = false) : s.removeIfDone t = s := by
  unfold State.removeIfDone
  rw [he]
  exact if_neg (by simp [hd])

/-- The entry of a tag has a holder less once a slot names it no longer. -/
theorem State.entry?_holderGone_same {s : State} {t : Tag} {e : Entry} (he : s.entry? t = some e) :
    (s.updEntry t fun e => { e with holders := e.holders - 1 }).entry? t = some { e with holders := e.holders - 1 } := by
  obtain ⟨_, rfl⟩ := State.mem_of_entry? he
  rw [State.entry?_holderGone, he]
  simp

/-- An entry that is OPEN, or has another holder, stays. -/
theorem State.dropHolder_of_needed {s : State} {t : Tag} {e : Entry} (he : s.entry? t = some e)
    (h : e.state = .opened ∨ 1 < e.holders) :
    s.dropHolder t = s.updEntry t fun e => { e with holders := e.holders - 1 } := by
  refine State.removeIfDone_of_not_done (State.entry?_holderGone_same he) ?_
  rcases h with h | h
  · simp [Entry.done, h]
  · have : e.holders - 1 ≠ 0 := by omega
    simp [Entry.done, this]

/-- An entry that is not OPEN goes with its last holder. -/
theorem State.dropHolder_of_done {s : State} {t : Tag} {e : Entry} (he : s.entry? t = some e)
    (ho : e.state ≠ .opened) (hh : e.holders ≤ 1) :
    s.dropHolder t = (s.updEntry t fun e => { e with holders := e.holders - 1 }).removed
      { e with holders := e.holders - 1 } := by
  refine State.removeIfDone_of_done (State.entry?_holderGone_same he) ?_
  have : e.holders - 1 = 0 := by omega
  simp [Entry.done, ho, this]

/-! ### The slot a commit takes (R86) -/

theorem State.allocate_lowest {s : State} {n : SlotNo} (hlt : ∀ m : SlotNo, m < n → s.slots[m] ≠ none)
    (hn : s.slots[n] = none) : s.allocate = some n := by
  have hfind : ((indexed s.slots).find? fun x => x.2.isNone) = some (n, s.slots[n]) := by
    rw [indexed_eq, List.find?_map]
    have hf : (List.finRange 256).find? ((fun x : SlotNo × Option Placement => x.2.isNone) ∘ fun i => (i, s.slots[i])) =
        some n := by
      rw [List.find?_eq_some_iff_getElem]
      refine ⟨Option.isNone_iff_eq_none.mpr hn, n.val, by simp, by simp, fun j hj => ?_⟩
      have := hlt ⟨j, by omega⟩ hj
      simpa [Option.ne_none_iff_isSome, Bool.not_eq_true', ← Option.isSome_iff_ne_none] using this
    rw [hf]
    rfl
  unfold State.allocate
  rw [hfind]

theorem State.allocate_withdrawn {s : State} (h : ∀ m : SlotNo, s.slots[m] ≠ none) : s.allocate = s.withdrawn.head? := by
  have hfind : ((indexed s.slots).find? fun x => x.2.isNone) = none := by
    rw [indexed_eq, List.find?_eq_none]
    intro x hx
    obtain ⟨i, _, rfl⟩ := List.mem_map.mp hx
    simpa using h i
  unfold State.allocate
  rw [hfind]

/-! ### What a commit makes of the state -/

/-- The event of a completion that commits. -/
def State.committing (s : State) (n : SlotNo) (q : Search) (b : Best) : Event :=
  { s.begin.commit n q b with sig := { (s.begin.commit n q b).sig with completion := true } }

/-- The state after a completion that commits. -/
def State.committed (s : State) (n : SlotNo) (q : Search) (b : Best) : State := settle s (s.committing n q b)

theorem exec_searchCompletion_commits {s : State} {q : Search} {b : Best} {n : SlotNo}
    (hq : s.searchUnit = .searching q) (he : s.scanEnds q (some b)) (hv : s.reverifies q b.cand = true)
    (hn : s.allocate = some n) : exec .searchCompletion s = .next (s.committed n q b) := by
  show execSearchCompletion s = _
  unfold execSearchCompletion State.completeSearch
  rw [hq]
  dsimp only
  rw [(s.scanEnds_iff q (some b)).mp he]
  have hfin : s.begin.finish q (some b) = s.begin.commit n q b := by
    unfold Event.finish
    rw [show s.begin.state = s from rfl]
    simp only [hv, hn, if_true]
  rw [hfin]
  rfl

/-- The state of a commit's event. -/
theorem State.committing_state (s : State) (n : SlotNo) (q : Search) (b : Best) :
    (s.committing n q b).state = (s.begin.commit n q b).state := rfl

theorem State.committed_tail (s : State) (n : SlotNo) (q : Search) (b : Best) :
    State.Tail (s.begin.commit n q b).state (s.committed n q b) := settle_tail s (s.committing n q b)

theorem State.commitRecord_congr {s t : State} (h : t.ctxs = s.ctxs) (q : Search) (b : Best) :
    t.commitRecord q b = s.commitRecord q b := by
  unfold State.commitRecord
  rw [h]

theorem State.begin_free_ctxs (s : State) (n : SlotNo) : (s.begin.free n).state.ctxs = s.ctxs := by
  rw [Event.free_rest]
  rfl

theorem State.begin_free_planes (s : State) (n : SlotNo) : (s.begin.free n).state.planes = s.planes := by
  rw [Event.free_rest]
  rfl

theorem State.committed_slots (s : State) (n : SlotNo) (q : Search) (b : Best) :
    (s.committed n q b).slots = s.slots.set n (some (s.commitRecord q b)) := by
  rw [(s.committed_tail n q b).slots, Event.commit_state]
  dsimp only
  rw [State.commitRecord_congr (s.begin_free_ctxs n)]
  apply Vector.ext
  intro i hi
  have hfree := Event.free_slots s.begin n ⟨i, hi⟩
  have hset := get_set (s.begin.free n).state.slots n ⟨i, hi⟩ (some (s.commitRecord q b))
  have hset' := get_set s.slots n ⟨i, hi⟩ (some (s.commitRecord q b))
  refine hset.trans (Eq.trans ?_ hset'.symm)
  split
  · rfl
  · rename_i hne
    rw [hfree, if_neg hne]
    rfl

/-- A cell after a commit: it has the slot as occupant if the piece covers it, and is as it was otherwise. -/
theorem State.committed_cell {s : State} (hw : s.planesWf) (n : SlotNo) (q : Search) (b : Best) (x y : Nat) :
    (s.committed n q b).cell q.pair.ctx x y = { s.cell q.pair.ctx x y with
      occupant := if ∃ uv ∈ hideCells q.samples.drawing b.cand, cellAddr uv.1 uv.2 = cellAddr x y then some n
        else (s.cell q.pair.ctx x y).occupant } := by
  unfold State.cell
  rw [(s.committed_tail n q b).planes, Event.commit_state]
  dsimp only
  rw [get_set, if_pos rfl, s.begin_free_planes n]
  have hcell := occupy_cell s.planes[q.pair.ctx] q.samples.drawing b.cand n (cellAddr x y) (hw _)
  have hocc := occupant_occupy (hideCells q.samples.drawing b.cand) n (hw q.pair.ctx) (cellAddr x y)
  rw [hcell]
  exact congrArg (fun o => ({ (s.planes[q.pair.ctx]).read (cellAddr x y) with occupant := o } : Cell)) hocc

theorem State.committed_covered {s : State} (hw : s.planesWf) (n : SlotNo) (q : Search) (b : Best) {x y : Nat}
    (h : (x, y) ∈ hideCells q.samples.drawing b.cand) :
    (s.committed n q b).cell q.pair.ctx x y = { s.cell q.pair.ctx x y with occupant := some n } := by
  rw [State.committed_cell hw, if_pos ⟨(x, y), h, rfl⟩]

theorem State.committed_uncovered {s : State} (hw : s.planesWf) (n : SlotNo) (q : Search) (b : Best) {x y : Nat}
    (hx : x < 768) (h : ∀ uv ∈ hideCells q.samples.drawing b.cand, uv ≠ (x, y))
    (hin : ∀ uv ∈ hideCells q.samples.drawing b.cand, uv.1 < 768) :
    (s.committed n q b).cell q.pair.ctx x y = s.cell q.pair.ctx x y := by
  rw [State.committed_cell hw, if_neg]
  rintro ⟨uv, huv, ha⟩
  obtain ⟨h1, h2⟩ := cellAddr_inj (hin uv huv) hx ha
  exact h uv huv (Prod.ext h1 h2)

theorem State.committed_entries (s : State) (n : SlotNo) (q : Search) (b : Best) :
    (s.committed n q b).entries = (s.begin.free n).state.entries.map fun e =>
      if e.tag = q.pair.tag then { e with live := e.live + 1, holders := e.holders + 1 } else e := by
  rw [(s.committed_tail n q b).entries, Event.commit_state]

theorem State.committed_entry? (s : State) (n : SlotNo) (q : Search) (b : Best) (u : Tag) :
    (s.committed n q b).entry? u = ((s.begin.free n).state.entry? u).map fun e =>
      if e.tag = q.pair.tag then { e with live := e.live + 1, holders := e.holders + 1 } else e := by
  have h := State.entry?_updEntry (s.begin.free n).state q.pair.tag u
    (f := fun e => { e with live := e.live + 1, holders := e.holders + 1 }) fun _ => rfl
  rw [← h]
  unfold State.entry?
  rw [State.committed_entries]
  rfl

theorem State.committed_pattern (s : State) (n : SlotNo) (q : Search) (b : Best) (m : PatNo) :
    (s.committed n q b).patterns[m] = { (s.begin.free n).state.patterns[m] with
      refs := ((s.begin.free n).state.patterns[m]).refs + (if m = q.samples.pattern then 1 else 0) } := by
  rw [(s.committed_tail n q b).patterns, Event.commit_state]
  dsimp only
  rw [get_set]
  split
  · rename_i hm
    subst hm
    rfl
  · rfl

theorem State.committed_withdrawn (s : State) (n : SlotNo) (q : Search) (b : Best) :
    (s.committed n q b).withdrawn = (s.begin.free n).state.withdrawn := by
  rw [(s.committed_tail n q b).withdrawn, Event.commit_state]

theorem State.committed_marks (s : State) (n : SlotNo) (q : Search) (b : Best) :
    (s.committed n q b).marks = (s.begin.free n).state.marks := by
  rw [State.committed, settle_marks, State.committing_state, Event.commit_state]

theorem State.committed_commits (s : State) (n : SlotNo) (q : Search) (b : Best) :
    ((s.committed n q b).ctxs[q.pair.ctx]).commits = (s.ctxs[q.pair.ctx]).commits + 1 := by
  rw [(s.committed_tail n q b).ctx, Event.commit_state]
  dsimp only
  rw [get_set, if_pos rfl, s.begin_free_ctxs n]

theorem State.committed_raises (s : State) (n : SlotNo) (q : Search) (b : Best) : s.raises (s.committed n q b) .committed := by
  refine settle_raises s (s.committing n q b) .committed ?_ ?_
  · rw [State.committing_state, Event.commit_state, Event.free_rest]
    rfl
  · exact Event.raised_raise_self _ _

theorem State.committed_armed (s : State) (n : SlotNo) (q : Search) (b : Best) : (s.committed n q b).gate.armed = true := by
  rw [State.committed, settle_armed]
  exact Bool.or_true _

theorem State.committed_sameSettings (s : State) (n : SlotNo) (q : Search) (b : Best) :
    s.sameSettings (s.committed n q b) := by
  refine State.sameSettings_trans ?_ (s.committed_tail n q b).sameSettings
  rw [Event.commit_state, Event.free_rest]
  exact State.sameSettings_refl s

theorem State.committed_ports (s : State) (n : SlotNo) (q : Search) (b : Best) : (s.committed n q b).ports = s.ports := by
  rw [(s.committed_tail n q b).ports, Event.commit_state, Event.free_rest]
  rfl

/-- The cells a piece covers: those under its oriented mask where it is not OUTSIDE (R45). -/
theorem mem_hideCells_iff (p : Pattern) (c : Candidate) (x y : Nat) : (x, y) ∈ hideCells p c ↔
    ∃ i j, i < (p.orientedSize c.orient).1 ∧ j < (p.orientedSize c.orient).2 ∧ p.oriented c.orient i j ≠ .outside ∧
      x = c.x + i ∧ y = c.y + j := by
  unfold hideCells
  constructor
  · intro h
    obtain ⟨⟨i, j, r⟩, hm, he⟩ := List.mem_map.mp h
    obtain ⟨hi, hj, rfl, hr⟩ := Pattern.mem_coveredCells.mp hm
    obtain ⟨rfl, rfl⟩ := Prod.mk.inj he
    exact ⟨i, j, hi, hj, hr, rfl, rfl⟩
  · rintro ⟨i, j, hi, hj, hr, rfl, rfl⟩
    exact List.mem_map.mpr ⟨(i, j, _), Pattern.mem_coveredCells.mpr ⟨hi, hj, rfl, hr⟩, rfl⟩

/-! ### The record a commit discards (R86, R113) -/

theorem State.begin_free_none {s : State} {n : SlotNo} (hn : s.slots[n] = none) : (s.begin.free n).state = s := by
  unfold Event.free
  rw [show s.begin.state.slots[n] = none from hn]
  rfl

theorem State.begin_free_some {s : State} {n : SlotNo} {p : Placement} (hp : s.slots[n] = some p) :
    (s.begin.free n).state = (s.emptied n p).dropHolder p.tag := Event.free_state hp

theorem State.dropRef_pattern (s : State) (n m : PatNo) :
    (s.dropRef n).patterns[m] = { s.patterns[m] with refs := (s.patterns[m]).refs - (if m = n then 1 else 0) } := by
  unfold State.dropRef
  rw [State.updPattern_patterns, get_set]
  split
  · rename_i hm
    subst hm
    rfl
  · rfl

theorem State.emptied_pattern (s : State) (n : SlotNo) (p : Placement) (m : PatNo) :
    (s.emptied n p).patterns[m] = { s.patterns[m] with
      refs := (s.patterns[m]).refs - (if m = p.pattern then 1 else 0) } :=
  State.dropRef_pattern { s.setSlot n none with withdrawn := s.withdrawn.filter fun m => m ≠ n } p.pattern m

theorem State.removed_pattern (s : State) (e : Entry) (m : PatNo) :
    (s.removed e).patterns[m] = { s.patterns[m] with
      refs := (s.patterns[m]).refs - (if m = e.pattern then 1 else 0) } :=
  State.dropRef_pattern { s with entries := s.entries.filter fun x => x.tag ≠ e.tag } e.pattern m

theorem Event.free_withdrawn {e : Event} {n : SlotNo} {p : Placement} (hp : e.state.slots[n] = some p) :
    (e.free n).state.withdrawn = e.state.withdrawn.filter fun m => m ≠ n := by
  rw [Event.free_state hp]
  unfold State.dropHolder
  rw [State.removeIfDone_rest]
  rfl

/-- An entry that no freed record names is as it was. -/
theorem State.committed_entry?_other {s : State} {n : SlotNo} {p : Placement} (hp : s.slots[n] = some p) (q : Search)
    (b : Best) {u : Tag} (h1 : u ≠ p.tag) (h2 : u ≠ q.pair.tag) : (s.committed n q b).entry? u = s.entry? u := by
  rw [State.committed_entry?, State.begin_free_some hp, State.dropHolder_entry?_other _ h1]
  show (s.entry? u).map _ = s.entry? u
  cases he : s.entry? u with
  | none => rfl
  | some e =>
    obtain ⟨_, rfl⟩ := State.mem_of_entry? he
    simp [h2]

/-- The entry a commit serves, which is OPEN, gains a live piece, and keeps the holder it had with the old record. -/
theorem State.committed_entry?_same {s : State} {n : SlotNo} {p : Placement} (hp : s.slots[n] = some p) (q : Search)
    (b : Best) {e : Entry} (he : s.entry? q.pair.tag = some e) (ho : e.state = .opened) :
    (s.committed n q b).entry? q.pair.tag = some { e with
      live := e.live + 1, holders := (if p.tag = q.pair.tag then e.holders - 1 else e.holders) + 1 } := by
  obtain ⟨_, htag⟩ := State.mem_of_entry? he
  rw [State.committed_entry?, State.begin_free_some hp]
  by_cases ht : p.tag = q.pair.tag
  · have he' : (s.emptied n p).entry? p.tag = some e := by
      rw [ht]
      exact he
    rw [State.dropHolder_of_needed he' (.inl ho), ← ht, State.entry?_holderGone_same he', Option.map_some,
      if_pos (htag.trans ht.symm), if_pos rfl]
  · rw [State.dropHolder_entry?_other _ (Ne.symm ht), show (s.emptied n p).entry? q.pair.tag = some e from he,
      Option.map_some, if_pos htag, if_neg ht]

/-- The old record's entry loses a holder, and its pattern a reference. -/
theorem State.committed_old_needed {s : State} {n : SlotNo} {p : Placement} (hp : s.slots[n] = some p) (q : Search)
    (b : Best) {e : Entry} (ht : p.tag ≠ q.pair.tag) (he : s.entry? p.tag = some e)
    (h : e.state = .opened ∨ 1 < e.holders) :
    (s.committed n q b).entry? p.tag = some { e with holders := e.holders - 1 } ∧
    ∀ m : PatNo, (s.committed n q b).patterns[m] = { s.patterns[m] with
      refs := (s.patterns[m]).refs - (if m = p.pattern then 1 else 0) +
        (if m = q.samples.pattern then 1 else 0) } := by
  obtain ⟨_, htag⟩ := State.mem_of_entry? he
  have he' : (s.emptied n p).entry? p.tag = some e := he
  refine ⟨?_, fun m => ?_⟩
  · rw [State.committed_entry?, State.begin_free_some hp, State.dropHolder_of_needed he' h,
      State.entry?_holderGone_same he', Option.map_some, if_neg]
    rw [show ({ e with holders := e.holders - 1 } : Entry).tag = e.tag from rfl, htag]
    exact ht
  · rw [State.committed_pattern, State.begin_free_some hp, State.dropHolder_of_needed he' h]
    show ({ (s.emptied n p).patterns[m] with refs := ((s.emptied n p).patterns[m]).refs + _ } : Pattern) = _
    rw [State.emptied_pattern]

/-- The old record's entry goes with its last holder, its marks and its reference. -/
theorem State.committed_old_done {s : State} {n : SlotNo} {p : Placement} (hp : s.slots[n] = some p) (q : Search)
    (b : Best) {e : Entry} (he : s.entry? p.tag = some e) (ho : e.state ≠ .opened) (hh : e.holders ≤ 1) :
    (s.committed n q b).entry? p.tag = none ∧ (∀ k : Ctx, (s.committed n q b).marked p.tag k = false) ∧
    ∀ m : PatNo, (s.committed n q b).patterns[m] = { s.patterns[m] with
      refs := (s.patterns[m]).refs - (if m = e.pattern then 1 else 0) - (if m = p.pattern then 1 else 0) +
        (if m = q.samples.pattern then 1 else 0) } := by
  obtain ⟨_, htag⟩ := State.mem_of_entry? he
  have he' : (s.emptied n p).entry? p.tag = some e := he
  have hfree : (s.begin.free n).state = ((s.emptied n p).updEntry p.tag fun e =>
      { e with holders := e.holders - 1 }).removed { e with holders := e.holders - 1 } :=
    (State.begin_free_some hp).trans (State.dropHolder_of_done he' ho hh)
  refine ⟨?_, fun k => ?_, fun m => ?_⟩
  · rw [State.committed_entry?, hfree, ← htag]
    exact congrArg _ (State.removed_entry?_same _ { e with holders := e.holders - 1 })
  · unfold State.marked
    rw [State.committed_marks, hfree, ← htag]
    exact State.removed_marked _ { e with holders := e.holders - 1 } k
  · rw [State.committed_pattern, hfree, State.removed_pattern]
    show ({ (s.emptied n p).patterns[m] with
      refs := ((s.emptied n p).patterns[m]).refs - (if m = e.pattern then 1 else 0) + _ } : Pattern) = _
    rw [State.emptied_pattern]
    dsimp only
    rw [Nat.sub_right_comm]

/-- Settles O29: the effects of the commit's event on the record, the cells, the queue and the patterns, over what freeing
the slot's old record leaves. -/
theorem searchCommits : Obligations.SearchCommits := by
  refine ⟨mem_hideCells_iff, fun s q b n hq he hv hw hb => ⟨fun hlt hn => ?_, fun rest old hfull hwd hold => ?_⟩⟩
  · have hexec := exec_searchCompletion_commits hq he ((s.reverified_iff _ _).mp hv) (State.allocate_lowest hlt hn)
    refine ⟨_, _, hexec, rfl, s.committed_slots n q b, fun x y h => State.committed_covered hw n q b h,
      fun x y hx h hin => State.committed_uncovered hw n q b hx h hin, ?_, ?_, s.committed_commits n q b,
      s.committed_raises n q b, s.committed_armed n q b, ?_, s.committed_sameSettings n q b, s.committed_ports n q b⟩
    · rw [State.committed_entries, State.begin_free_none hn]
    · rw [State.committed_pattern, State.begin_free_none hn, if_pos rfl]
    · rw [State.committed_withdrawn, State.begin_free_none hn]
  · have halloc : s.allocate = some n := by
      rw [State.allocate_withdrawn hfull, hwd]
      rfl
    have hexec := exec_searchCompletion_commits hq he ((s.reverified_iff _ _).mp hv) halloc
    obtain ⟨_, ⟨x, hx, hxo, _⟩, _⟩ := hv
    refine ⟨_, _, hexec, rfl, s.committed_slots n q b, ?_, fun x y h => State.committed_covered hw n q b h,
      fun x y hx h hin => State.committed_uncovered hw n q b hx h hin,
      fun u h1 h2 => State.committed_entry?_other hold q b h1 h2, fun e he => ?_, fun e ht he => ⟨fun h => ?_, fun ho hh => ?_⟩,
      s.committed_commits n q b, s.committed_raises n q b, s.committed_armed n q b, s.committed_sameSettings n q b,
      s.committed_ports n q b⟩
    · rw [State.committed_withdrawn, Event.free_withdrawn (e := s.begin) hold]
      show s.withdrawn.filter _ = _
      rw [hwd]
      simp
    · obtain rfl := Option.some.inj (hx.symm.trans he)
      exact State.committed_entry?_same hold q b he hxo
    · exact State.committed_old_needed hold q b ht he h
    · exact State.committed_old_done hold q b he ho hh

end Sys2Proof.Machine
end

section
/-!
PROOFS. A record changed by what befalls its piece: what a withdrawal, a taint and a spoiling have in common, and what a
pass over many slots makes of the state (R102, R104, R106 to R108, R112).
-/

namespace Sys2Proof.Machine

open Sys2Proof

/-! ### One record -/

/-- The changes of a record that befall it: it stays in its state, is withdrawn before its cut, or spoiled from it on. -/
structure Placement.Turns (p q : Placement) : Prop where
  ctx : q.ctx = p.ctx
  state : q.state = p.state ∨ ((p.state = .placed ∨ p.state = .claimed) ∧ q.state = .withdrawn) ∨
    ((p.state = .cutting ∨ p.state = .cut) ∧ q.state = .spoiled)

/-- A record becomes WITHDRAWN (R104). -/
def Placement.gone (p q : Placement) : Bool := decide (p.state ≠ .withdrawn) && decide (q.state = .withdrawn)

/-- A held record leaves its head: a claim withdrawn or a cut spoiled (R102, R104, R143). -/
def Placement.dropped (p q : Placement) : Bool :=
  decide (p.state = .claimed) && decide (q.state = .withdrawn) || decide (p.state = .cutting) && decide (q.state = .spoiled)

/-- What a change of a piece's state makes of its entry (R62, R64). -/
def Entry.moved (a b : PlacementState) (x : Entry) : Entry :=
  match a, b with
  | .placed, .withdrawn | .claimed, .withdrawn => x.loseLive
  | .cutting, .spoiled => x.spoilCutting
  | .cut, .spoiled => x.spoilCut
  | _, _ => x

/-- A record changes, with all that follows for cells, entries, marks and heads. -/
def State.recast (s : State) (n : SlotNo) (p q : Placement) : State :=
  ({ s with
      slots := s.slots.set n (some q),
      planes := if p.gone q then s.planes.set p.ctx (Plane.vacate s.planes[p.ctx] n) else s.planes,
      withdrawn := if p.gone q then s.withdrawn ++ [n] else s.withdrawn,
      entries := s.entries.map fun x => if x.tag = p.tag then x.moved p.state q.state else x,
      marks := if p.gone q then s.marks.set p.ctx 0 else s.marks } : State).unholdBy
    (if p.dropped q then p.head else none) n

/-- The flags a change of a record raises, those of its head's own aside (R102, R104). -/
def Placement.tells (p q : Placement) (m : Notice) : Prop :=
  (p.gone q = true ∧ (m = .placementWithdrawn ∨ ∃ h, p.state = .claimed ∧ p.head = some h ∧ m = .claimLost h)) ∨
  (p.state ≠ .spoiled ∧ q.state = .spoiled ∧ m = .pieceSpoiled)

theorem State.unholdBy_rest (s : State) (o : Option Head) (n : SlotNo) :
    s.unholdBy o n = { s with heads := (s.unholdBy o n).heads } := by
  cases o <;> rfl

section
variable (s : State) (n : SlotNo) (p q : Placement)

theorem State.recast_slots : (s.recast n p q).slots = s.slots.set n (some q) := by
  unfold State.recast
  rw [State.unholdBy_rest]

theorem State.recast_planes : (s.recast n p q).planes =
    if p.gone q then s.planes.set p.ctx (Plane.vacate s.planes[p.ctx] n) else s.planes := by
  unfold State.recast
  rw [State.unholdBy_rest]

theorem State.recast_withdrawn : (s.recast n p q).withdrawn = if p.gone q then s.withdrawn ++ [n] else s.withdrawn := by
  unfold State.recast
  rw [State.unholdBy_rest]

theorem State.recast_entries : (s.recast n p q).entries =
    s.entries.map fun x => if x.tag = p.tag then x.moved p.state q.state else x := by
  unfold State.recast
  rw [State.unholdBy_rest]

theorem State.recast_marks : (s.recast n p q).marks = if p.gone q then s.marks.set p.ctx 0 else s.marks := by
  unfold State.recast
  rw [State.unholdBy_rest]

theorem State.recast_held (h : Head) : ((s.recast n p q).heads[h]).held =
    if p.dropped q = true ∧ p.head = some h then (s.heads[h]).held.filter (fun y => y.slot ≠ n)
    else (s.heads[h]).held := by
  unfold State.recast
  rw [State.unholdBy_heads]
  by_cases hd : p.dropped q = true
  · simp [hd]
  · simp [hd]

end

theorem Entry.moved_same (a : PlacementState) (x : Entry) : x.moved a a = x := by
  cases a <;> rfl

theorem Placement.gone_same (p : Placement) : p.gone p = false := by
  unfold Placement.gone
  cases p.state <;> rfl

theorem Placement.dropped_same (p : Placement) : p.dropped p = false := by
  unfold Placement.dropped
  cases p.state <;> rfl

/-- A record that keeps its state is changed alone. -/
theorem State.recast_kept (s : State) (n : SlotNo) {p q : Placement} (h : q.state = p.state) :
    s.recast n p q = s.setSlot n (some q) := by
  have hg : p.gone q = false := by
    rw [← p.gone_same]
    unfold Placement.gone
    rw [h]
  have hd : p.dropped q = false := by
    rw [← p.dropped_same]
    unfold Placement.dropped
    rw [h]
  unfold State.recast State.setSlot
  rw [hg, hd, h]
  simp [Entry.moved_same, State.unholdBy]

theorem State.recast_same {s : State} {n : SlotNo} {p : Placement} (hp : s.slots[n] = some p) : s.recast n p p = s := by
  rw [State.recast_kept s n rfl]
  unfold State.setSlot
  have hset : s.slots.set n (some p) = s.slots := by
    rw [← hp]
    exact Vector.set_getElem_self ..
  rw [hset]

/-- An event between two makes one record into another. -/
structure Event.Recasts (e e' : Event) (n : SlotNo) (p q : Placement) (told : Notice → Prop) : Prop where
  turns : p.Turns q
  state : e'.state = e.state.recast n p q
  keeps : ∀ m, e.raised m → e'.raised m
  tells : ∀ m, p.tells q m → e'.raised m
  told : ∀ m, told m → e'.raised m

theorem Placement.not_tells_same {p q : Placement} (h : q.state = p.state) (m : Notice) : ¬ p.tells q m := by
  rintro (⟨hg, _⟩ | ⟨h1, h2, _⟩)
  · have := p.gone_same
    unfold Placement.gone at hg this
    rw [h, this] at hg
    cases hg
  · exact h1 (h.symm.trans h2)

theorem Event.Recasts.stays {e : Event} {n : SlotNo} {p : Placement} {told : Notice → Prop} (hp : e.state.slots[n] = some p)
    (ht : ∀ m, ¬ told m) : e.Recasts e n p p told where
  turns := ⟨rfl, .inl rfl⟩
  state := (State.recast_same hp).symm
  keeps _ h := h
  tells m h := absurd h (Placement.not_tells_same rfl m)
  told m h := absurd h (ht m)

/-- A withdrawal makes a PLACED or CLAIMED record WITHDRAWN. -/
theorem Event.withdraw_recasts {e : Event} {n : SlotNo} {p : Placement} {told : Notice → Prop}
    (hp : e.state.slots[n] = some p) (hs : p.state = .placed ∨ p.state = .claimed) (c : Cause) (ht : ∀ m, ¬ told m) :
    e.Recasts (e.withdraw n c) n p { p with state := .withdrawn, cause := some c } told where
  turns := ⟨rfl, .inr (.inl ⟨hs, rfl⟩)⟩
  state := by
    have hg : p.gone { p with state := .withdrawn, cause := some c } = true := by
      rcases hs with hs | hs <;> simp [Placement.gone, hs]
    have hm : ∀ x : Entry, x.moved p.state .withdrawn = x.loseLive := fun x => by
      rcases hs with hs | hs <;> rw [hs] <;> rfl
    have hd : p.dropped { p with state := .withdrawn, cause := some c } = decide (p.state = .claimed) := by
      simp [Placement.dropped]
    unfold Event.withdraw State.recast
    rw [hp, hg, hd]
    simp only [hm, if_true]
    split
    · rename_i h hc hh
      simp only [hc, hh, decide_true, if_true]
      rfl
    · rename_i hne
      have ho : (if decide (p.state = .claimed) = true then p.head else none) = none := by
        by_cases hc : p.state = .claimed
        · cases hh : p.head with
          | none => simp
          | some h => exact absurd hh (hne h hc)
        · simp [hc]
      rw [ho]
      rfl
  keeps m h := Event.withdraw_raised e n c m h
  tells m h := by
    have hq : m = .placementWithdrawn ∨ ∃ h, p.state = .claimed ∧ p.head = some h ∧ m = .claimLost h := by
      rcases h with ⟨_, h⟩ | ⟨_, h, _⟩
      · exact h
      · cases h
    unfold Event.withdraw
    rw [hp]
    dsimp only
    rcases hq with rfl | ⟨h, hc, hh, rfl⟩
    · split
      · exact Event.raised_raise _ _ _ (Event.raised_raise_self _ _)
      · exact Event.raised_raise_self _ _
    · rw [hc, hh]
      exact Event.raised_raise_self _ _
  told m h := absurd h (ht m)

/-- A spoiling makes a CUTTING or CUT record SPOILED. -/
theorem Event.spoil_recasts {e : Event} {n : SlotNo} {p : Placement} {told : Notice → Prop}
    (hp : e.state.slots[n] = some p) (hs : p.state = .cutting ∨ p.state = .cut) (c : Cause) (ht : ∀ m, ¬ told m) :
    e.Recasts (e.spoil n c) n p { p with state := .spoiled, cause := some c } told where
  turns := ⟨rfl, .inr (.inr ⟨hs, rfl⟩)⟩
  state := by
    have hg : p.gone { p with state := .spoiled, cause := some c } = false := by simp [Placement.gone]
    unfold Event.spoil State.recast
    rw [hp, hg]
    dsimp only
    rw [Event.raise_state]
    dsimp only
    rcases hs with hs | hs
    · rw [if_neg (by rw [hs]; decide), hs]
      have hd : p.dropped { p with state := .spoiled, cause := some c } = true := by simp [Placement.dropped, hs]
      rw [← hs, hd, hs]
      rfl
    · rw [if_pos hs, hs]
      have hd : p.dropped { p with state := .spoiled, cause := some c } = false := by simp [Placement.dropped, hs]
      rw [← hs, hd, hs]
      rfl
  keeps m h := Event.spoil_raised e n c m h
  tells m h := by
    have hq : m = .pieceSpoiled := by
      rcases h with ⟨h, _⟩ | ⟨_, _, h⟩
      · simp [Placement.gone] at h
      · exact h
    subst hq
    unfold Event.spoil
    rw [hp]
    exact Event.raised_raise_self _ _
  told m h := absurd h (ht m)

/-- A flag raised with a change of a record. -/
theorem Event.Recasts.raise {e e' : Event} {n : SlotNo} {p q : Placement} {told : Notice → Prop} {m : Notice}
    (h : e.Recasts e' n p q fun _ => False) (ht : ∀ x, told x → x = m) : e.Recasts (e'.raise m) n p q told where
  turns := h.turns
  state := h.state
  keeps x hx := Event.raised_raise _ _ _ (h.keeps x hx)
  tells x hx := Event.raised_raise _ _ _ (h.tells x hx)
  told x hx := by
    rw [ht x hx]
    exact Event.raised_raise_self _ _

/-- A CUTTING record is tainted. -/
theorem Event.taint_recasts {e : Event} {n : SlotNo} (p : Placement) :
    e.Recasts (e.on fun s => s.setSlot n (some { p with tainted := true })) n p { p with tainted := true } fun _ => False where
  turns := ⟨rfl, .inl rfl⟩
  state := (State.recast_kept e.state n (p := p) (q := { p with tainted := true }) rfl).symm
  keeps _ h := h
  tells m h := absurd h (Placement.not_tells_same (q := { p with tainted := true }) rfl m)
  told _ h := h.elim

end Sys2Proof.Machine
end

section
/-!
PROOFS. A pass over many slots, each of whose records one step changes: what the records, the cells, the queue, the
withdrawn list, the marks and the held lists come to be (R62, R104, R106, R112).
-/

namespace Sys2Proof.Machine

open Sys2Proof

/-! ### Slots counted between two states -/

theorem State.went_eq_zero (s : State) (u : Tag) {a : List PlacementState} {b : PlacementState} (h : b ∉ a) :
    s.went s u a b = 0 := by
  unfold State.went
  rw [List.countP_eq_zero]
  intro n _
  cases s.slots[n] with
  | none => simp
  | some p =>
    by_cases hb : p.state = b
    · simp [hb, h]
    · simp [hb]

/-- One more record changes: it counts if it went the way counted. -/
theorem State.went_step {s t u : State} {n : SlotNo} {p q : Placement} (hs : s.slots[n] = some p)
    (ht : t.slots[n] = some p) (hu : u.slots = t.slots.set n (some q)) (x : Tag) {a : List PlacementState}
    {b : PlacementState} (hb : b ∉ a) :
    s.went u x a b = s.went t x a b + (decide (p.tag = x) && decide (p.state ∈ a) && decide (q.state = b)).toNat := by
  have hperm : List.Perm (List.finRange 256) (n :: (List.finRange 256).erase n) :=
    List.perm_cons_erase (List.mem_finRange n)
  unfold State.went
  rw [hperm.countP_eq, hperm.countP_eq, toNat_countP_cons, toNat_countP_cons]
  have hrest : ((List.finRange 256).erase n).countP (fun m => (s.slots[m]).any fun r =>
      decide (r.tag = x) && decide (r.state ∈ a) && (u.slots[m]).any fun y => decide (y.state = b)) =
      ((List.finRange 256).erase n).countP fun m => (s.slots[m]).any fun r =>
        decide (r.tag = x) && decide (r.state ∈ a) && (t.slots[m]).any fun y => decide (y.state = b) := by
    refine List.countP_congr fun m hm => ?_
    have hne : m ≠ n := ((List.nodup_finRange 256).mem_erase_iff.mp hm).1
    rw [hu, get_set, if_neg hne]
  have hold : (decide (p.tag = x) && decide (p.state ∈ a) && decide (p.state = b)) = false := by
    by_cases hpb : p.state = b
    · simp [hpb, hb]
    · simp [hpb]
  rw [hrest, hs, ht, hu, get_set, if_pos rfl]
  simp only [Option.any_some, hold, Bool.toNat_false, Nat.add_zero]

/-- An entry whose pieces have gone, counted by the ways they went (R62, R64). -/
def Entry.recounted (e : Entry) (withdrawn missed cutting cut spoiled : Nat) : Entry :=
  { e with
    live := e.live - withdrawn - missed - cutting,
    cut := e.cut - cut,
    spoiled := if spoiled = 0 then e.spoiled else min 255 (e.spoiled + spoiled),
    state := if 0 < cut ∧ e.state = .satisfied then .opened else e.state }

theorem State.recounted_iff (s t : State) : s.recounted t ↔ t.entries = s.entries.map fun e =>
    e.recounted (s.went t e.tag [.placed, .claimed] .withdrawn) (s.went t e.tag [.placed, .claimed] .missed)
      (s.went t e.tag [.cutting] .spoiled) (s.went t e.tag [.cut] .spoiled) (s.went t e.tag [.cutting, .cut] .spoiled) :=
  Iff.rfl

section
variable (e : Entry) (w m c d z : Nat)

theorem Entry.recounted_zero : e.recounted 0 0 0 0 0 = e := by simp [Entry.recounted]

theorem Entry.recounted_loseLive : (e.recounted w m c d z).loseLive = e.recounted (w + 1) m c d z := by
  simp only [Entry.recounted, Entry.loseLive, Entry.mk.injEq, and_true, true_and]
  omega

theorem Entry.recounted_spoilCutting : (e.recounted w m c d z).spoilCutting = e.recounted w m (c + 1) d (z + 1) := by
  simp only [Entry.recounted, Entry.spoilCutting, Entry.mk.injEq, and_true, true_and]
  refine ⟨by omega, ?_⟩
  split <;> split <;> omega

theorem Entry.recounted_spoilCut : (e.recounted w m c d z).spoilCut = e.recounted w m c (d + 1) (z + 1) := by
  simp only [Entry.recounted, Entry.spoilCut, Entry.mk.injEq, and_true, true_and]
  refine ⟨by omega, ?_, ?_⟩
  · split <;> split <;> omega
  · by_cases hs : e.state = .satisfied
    · by_cases hd : 0 < d <;> simp [hs, hd]
    · simp [hs]

end

/-- The entries' counts follow one more change of a record (R62, R64). -/
theorem State.recounted_step {s t u : State} {n : SlotNo} {p q : Placement} (hs : s.slots[n] = some p)
    (ht : t.slots[n] = some p) (hq : p.Turns q) (hu : u.slots = t.slots.set n (some q))
    (he : u.entries = t.entries.map fun x => if x.tag = p.tag then x.moved p.state q.state else x)
    (h : s.recounted t) : s.recounted u := by
  rw [State.recounted_iff] at h ⊢
  rw [he, h, List.map_map]
  refine List.map_congr_left fun e _ => ?_
  simp only [Function.comp]
  rw [State.went_step hs ht hu _ (by decide), State.went_step hs ht hu _ (by decide),
    State.went_step hs ht hu _ (by decide), State.went_step hs ht hu _ (by decide),
    State.went_step hs ht hu _ (by decide)]
  generalize s.went t e.tag [.placed, .claimed] .withdrawn = w
  generalize s.went t e.tag [.placed, .claimed] .missed = m
  generalize s.went t e.tag [.cutting] .spoiled = c
  generalize s.went t e.tag [.cut] .spoiled = d
  generalize s.went t e.tag [.cutting, .cut] .spoiled = z
  have htag : (e.recounted w m c d z).tag = e.tag := rfl
  rw [htag]
  by_cases hp : e.tag = p.tag
  · rw [if_pos hp]
    rcases hq.state with hq | ⟨hp1 | hp1, hq⟩ | ⟨hp1 | hp1, hq⟩
    · rw [hq, Entry.moved_same]
      cases p.state <;> simp
    · rw [hp1, hq]
      simp only [Entry.moved, Entry.recounted_loseLive]
      simp [hp.symm]
    · rw [hp1, hq]
      simp only [Entry.moved, Entry.recounted_loseLive]
      simp [hp.symm]
    · rw [hp1, hq]
      simp only [Entry.moved, Entry.recounted_spoilCutting]
      simp [hp.symm]
    · rw [hp1, hq]
      simp only [Entry.moved, Entry.recounted_spoilCut]
      simp [hp.symm]
  · rw [if_neg hp]
    simp [Ne.symm hp]

theorem State.recounted_refl (s : State) : s.recounted s := by
  rw [State.recounted_iff]
  refine (List.map_id _).symm.trans (List.map_congr_left fun e _ => ?_)
  rw [State.went_eq_zero s _ (by decide), State.went_eq_zero s _ (by decide), State.went_eq_zero s _ (by decide),
    State.went_eq_zero s _ (by decide), State.went_eq_zero s _ (by decide), Entry.recounted_zero]
  rfl

/-! ### Cells whose occupants go -/

/-- A cell whose occupant goes if it is one of some slots. -/
def Cell.without (c : Cell) (gone : SlotNo → Bool) : Cell := { c with occupant := c.occupant.filter fun n => !gone n }

theorem Cell.without_none {c : Cell} {gone : SlotNo → Bool} (h : ∀ n, c.occupant = some n → gone n = false) :
    c.without gone = c := by
  unfold Cell.without
  obtain ⟨base, cap, classes, occupant⟩ := c
  cases occupant with
  | none => rfl
  | some n => simp [Option.filter, h n rfl]

theorem Cell.without_some {c : Cell} {gone : SlotNo → Bool} {n : SlotNo} (h : c.occupant = some n) (hn : gone n = true) :
    c.without gone = { c with occupant := none } := by
  unfold Cell.without
  rw [h]
  simp [Option.filter, hn]

theorem Cell.without_without (c : Cell) (f g : SlotNo → Bool) :
    (c.without f).without g = c.without fun n => f n || g n := by
  unfold Cell.without
  rw [Option.filter_filter]
  congr 2
  funext n
  simp

theorem Cell.vacated_eq (c : Cell) (n : SlotNo) : c.vacated n = c.without fun m => decide (m = n) := by
  unfold Cell.vacated
  split
  · rename_i h
    rw [Cell.without_some h (by simp)]
  · rename_i h
    rw [Cell.without_none]
    intro m hm
    simpa using fun e => h (by rw [hm, e])

/-! ### A pass over slots -/

/-- What a pass makes of each record. -/
abbrev Change : Type := SlotNo → Placement → Placement

/-- A slot whose record the pass withdraws. -/
def State.goes (s : State) (φ : Change) (n : SlotNo) : Bool := (s.slots[n]).any fun p => p.gone (φ n p)

/-- A slot whose record, of a context, the pass withdraws. -/
def State.goesFrom (s : State) (φ : Change) (k : Ctx) (n : SlotNo) : Bool :=
  (s.slots[n]).any fun p => decide (p.ctx = k) && p.gone (φ n p)

/-- A slot that the pass takes from a head. -/
def State.dropsFrom (s : State) (φ : Change) (h : Head) (n : SlotNo) : Bool :=
  (s.slots[n]).any fun p => decide (p.head = some h) && p.dropped (φ n p)

/-- An event a pass has come to, with the slots done. -/
structure Event.Recast (φ : Change) (told : SlotNo → Placement → Notice → Prop) (e e' : Event) (done : List SlotNo) : Prop where
  pieces : State.Pieces e.state e'.state
  slots : ∀ m : SlotNo, e'.state.slots[m] = if m ∈ done then (e.state.slots[m]).map (φ m) else e.state.slots[m]
  withdrawn : e'.state.withdrawn = e.state.withdrawn ++ done.filter (e.state.goes φ)
  recounted : e.state.recounted e'.state
  marks : ∀ k : Ctx, e'.state.marks[k] = if done.any (e.state.goesFrom φ k) then 0 else e.state.marks[k]
  planes : ∀ k : Ctx, done.any (e.state.goesFrom φ k) = false → e'.state.planes[k] = e.state.planes[k]
  cells : e.state.planesWf → ∀ (k : Ctx) (a : Nat), (e'.state.planes[k]).read a =
    ((e.state.planes[k]).read a).without fun n => decide (n ∈ done) && e.state.goesFrom φ k n
  held : ∀ h : Head, (e'.state.heads[h]).held = (e.state.heads[h]).held.filter fun y =>
    !(decide (y.slot ∈ done) && e.state.dropsFrom φ h y.slot)
  keeps : ∀ m, e.raised m → e'.raised m
  tells : ∀ n ∈ done, ∀ p, e.state.slots[n] = some p → ∀ m, p.tells (φ n p) m ∨ told n p m → e'.raised m

theorem Event.Recast.refl (φ : Change) (told : SlotNo → Placement → Notice → Prop) (e : Event) : e.Recast φ told e [] where
  pieces := .refl _
  slots m := by simp
  withdrawn := by simp
  recounted := State.recounted_refl _
  marks k := by simp
  planes k _ := rfl
  cells _ k a := (Cell.without_none fun _ _ => by simp).symm
  held h := by simp
  keeps _ h := h
  tells n h := by simp at h

theorem State.recast_pieces (s : State) (n : SlotNo) (p q : Placement) : State.Pieces s (s.recast n p q) := by
  unfold State.recast
  refine State.Pieces.trans ?_ (State.unholdBy_pieces _ _ _)
  refine ⟨rfl, fun _ => rfl, fun hw => ?_⟩
  dsimp only
  split
  · have h := (State.vacate_pieces s p.ctx n).cells hw
    exact h
  · exact ⟨hw, fun _ _ => .inl rfl⟩

/-- The cells after a record's change: a slot that goes is no occupant any more. -/
theorem State.recast_cell {s : State} (hw : s.planesWf) (n : SlotNo) (p q : Placement) (k : Ctx) (a : Nat) :
    ((s.recast n p q).planes[k]).read a =
      ((s.planes[k]).read a).without fun m => decide (m = n) && (decide (p.ctx = k) && p.gone q) := by
  rw [State.recast_planes]
  by_cases hg : p.gone q = true
  · rw [if_pos hg, get_set, hg]
    by_cases hk : k = p.ctx
    · subst hk
      rw [if_pos rfl, Plane.read_vacate _ _ _ (hw _), Cell.vacated_eq]
      simp
    · rw [if_neg hk, Cell.without_none]
      simp [Ne.symm hk]
  · rw [if_neg hg, Cell.without_none]
    simp [Bool.eq_false_iff.mpr hg]

/-- One slot more. -/
theorem Event.Recast.step {φ : Change} {told : SlotNo → Placement → Notice → Prop} {e e' e'' : Event}
    {done : List SlotNo} {n : SlotNo} (h : e.Recast φ told e' done) (hn : n ∉ done)
    (hnone : e'.state.slots[n] = none → e'' = e')
    (hsome : ∀ p, e'.state.slots[n] = some p → e'.Recasts e'' n p (φ n p) (told n p)) :
    e.Recast φ told e'' (done ++ [n]) := by
  have hold : e'.state.slots[n] = e.state.slots[n] := by rw [h.slots, if_neg hn]
  cases hp : e.state.slots[n] with
  | none =>
    rw [hnone (hold.trans hp)]
    have hgoes : e.state.goes φ n = false := by simp [State.goes, hp]
    have hfrom : ∀ k, e.state.goesFrom φ k n = false := fun k => by simp [State.goesFrom, hp]
    have hdrop : ∀ g, e.state.dropsFrom φ g n = false := fun g => by simp [State.dropsFrom, hp]
    refine ⟨h.pieces, fun m => ?_, ?_, h.recounted, fun k => ?_, fun k hk => ?_, fun hw k a => ?_, fun g => ?_, h.keeps,
      fun m hm p hmp => ?_⟩
    · rw [h.slots]
      by_cases hm : m = n
      · subst hm
        simp [hn, hp]
      · simp [hm]
    · rw [h.withdrawn, List.filter_append]
      simp [hgoes]
    · rw [h.marks]
      simp [hfrom]
    · refine h.planes k ?_
      simpa [hfrom] using hk
    · rw [h.cells hw]
      congr 1
      funext m
      by_cases hm : m = n
      · subst hm
        simp [hfrom]
      · simp [hm]
    · rw [h.held]
      congr 1
      funext y
      by_cases hy : y.slot = n
      · rw [hy]
        simp [hdrop]
      · simp [hy]
    · rcases List.mem_append.mp hm with hm | hm
      · exact h.tells m hm p hmp
      · obtain rfl := List.mem_singleton.mp hm
        rw [hp] at hmp
        cases hmp
  | some p =>
    have hr := hsome p (hold.trans hp)
    have hgoes : e.state.goes φ n = p.gone (φ n p) := by simp [State.goes, hp]
    have hfrom : ∀ k, e.state.goesFrom φ k n = (decide (p.ctx = k) && p.gone (φ n p)) := fun k => by
      simp [State.goesFrom, hp]
    have hdrop : ∀ g, e.state.dropsFrom φ g n = (decide (p.head = some g) && p.dropped (φ n p)) := fun g => by
      simp [State.dropsFrom, hp]
    refine ⟨?_, fun m => ?_, ?_, ?_, fun k => ?_, fun k hk => ?_, fun hw k a => ?_, fun g => ?_,
      fun m hm => hr.keeps m (h.keeps m hm), fun m hm r hmr x hx => ?_⟩
    · rw [hr.state]
      exact h.pieces.trans (State.recast_pieces ..)
    · rw [hr.state, State.recast_slots, get_set]
      by_cases hm : m = n
      · subst hm
        simp [hp]
      · rw [if_neg hm, h.slots]
        simp [hm]
    · rw [hr.state, State.recast_withdrawn, h.withdrawn, List.filter_append]
      cases hg : p.gone (φ n p) <;> simp [hgoes, hg]
    · refine State.recounted_step hp (hold.trans hp) hr.turns ?_ ?_ h.recounted
      · rw [hr.state, State.recast_slots]
      · rw [hr.state, State.recast_entries]
    · rw [hr.state, State.recast_marks, List.any_append]
      cases hg : p.gone (φ n p) with
      | false => simp [hfrom, hg, h.marks]
      | true =>
        rw [if_pos rfl, get_set]
        by_cases hk : k = p.ctx
        · simp [hk, hfrom, hg]
        · simp [hk, Ne.symm hk, hfrom, h.marks]
    · rw [List.any_append, Bool.or_eq_false_iff] at hk
      have hlast : (decide (p.ctx = k) && p.gone (φ n p)) = false := by
        rw [← hfrom]
        simpa using hk.2
      rw [hr.state, State.recast_planes, ← h.planes k hk.1]
      split
      · rename_i hg
        rw [get_set, if_neg]
        rintro rfl
        simp [hg] at hlast
      · rfl
    · have hw' : e'.state.planesWf := (h.pieces.cells hw).1
      rw [hr.state, State.recast_cell hw', h.cells hw, Cell.without_without]
      congr 1
      funext m
      by_cases hm : m = n
      · subst hm
        simp [hfrom, hn]
      · simp [hm]
    · rw [hr.state, State.recast_held, h.held]
      by_cases hd : p.dropped (φ n p) = true ∧ p.head = some g
      · rw [if_pos hd, List.filter_filter]
        congr 1
        funext y
        by_cases hy : y.slot = n
        · rw [hy]
          simp [hdrop, hd.1, hd.2]
        · simp [hy]
      · rw [if_neg hd]
        congr 1
        funext y
        by_cases hy : y.slot = n
        · rw [hy, hdrop]
          have hf : (decide (p.head = some g) && p.dropped (φ n p)) = false := by
            rw [Bool.eq_false_iff]
            intro hh
            simp only [Bool.and_eq_true, decide_eq_true_eq] at hh
            exact hd ⟨hh.2, hh.1⟩
          simp [hf]
        · simp [hy]
    · rcases List.mem_append.mp hm with hm | hm
      · exact hr.keeps x (h.tells m hm r hmr x hx)
      · obtain rfl := List.mem_singleton.mp hm
        obtain rfl := Option.some.inj (hp.symm.trans hmr)
        rcases hx with hx | hx
        · exact hr.tells x hx
        · exact hr.told x hx

/-- A pass over distinct slots. -/
theorem Event.foldl_recast {φ : Change} {told : SlotNo → Placement → Notice → Prop} (f : Event → SlotNo → Event)
    {e : Event} (hnone : ∀ (x : Event) (n : SlotNo), x.state.slots[n] = none → f x n = x)
    (hsome : ∀ (x : Event) (n : SlotNo) (p : Placement), State.Pieces e.state x.state → x.state.slots[n] = some p →
      x.Recasts (f x n) n p (φ n p) (told n p)) (ns : List SlotNo) {e' : Event} {done : List SlotNo}
    (h : e.Recast φ told e' done) (hnd : (done ++ ns).Nodup) : e.Recast φ told (ns.foldl f e') (done ++ ns) := by
  induction ns generalizing e' done with
  | nil => simpa using h
  | cons n ns ih =>
    have hn : n ∉ done := fun hm => (List.nodup_append.mp hnd).2.2 n hm n List.mem_cons_self rfl
    have hstep := h.step hn (hnone e' n) (hsome e' n · h.pieces)
    rw [List.append_cons] at hnd ⊢
    exact ih hstep hnd

end Sys2Proof.Machine
end

section
/-!
PROOFS. The downgrade check (R106 to R108): which records fail, and what the check's event makes of the state.
-/

namespace Sys2Proof.Machine

open Sys2Proof

/-! ### The state an event ends in -/

/-- A state in which an event ends, its tail done, that came of another: what its pieces' changes have made stands. -/
structure State.Ends (s : State) (e : Event) (t : State) : Prop where
  slots : t.slots = e.state.slots
  entries : t.entries = e.state.entries
  withdrawn : t.withdrawn = e.state.withdrawn
  planes : t.planes = e.state.planes
  held : ∀ h : Head, (t.heads[h]).held = (e.state.heads[h]).held
  marks : ∀ k : Ctx, t.marks[k] = e.state.marks[k] ∨ t.marks[k] = 0
  flags : ∀ m, e.raised m → s.raises t m

/-- An event at its beginning that has the pieces of another state. -/
structure State.Starts (s : State) (e : Event) : Prop where
  slots : e.state.slots = s.slots
  entries : e.state.entries = s.entries
  withdrawn : e.state.withdrawn = s.withdrawn
  heads : e.state.heads = s.heads
  marks : e.state.marks = s.marks

theorem State.went_congr {s s' t t' : State} (hs : s'.slots = s.slots) (ht : t'.slots = t.slots) (u : Tag)
    (a : List PlacementState) (b : PlacementState) : s'.went t' u a b = s.went t u a b := by
  unfold State.went
  rw [hs, ht]

theorem State.recounted_congr {s s' t t' : State} (hs : s'.slots = s.slots) (he : s'.entries = s.entries)
    (ht : t'.slots = t.slots) (hte : t'.entries = t.entries) (h : s.recounted t) : s'.recounted t' := by
  unfold State.recounted
  simp only [State.went_congr hs ht, hte, he]
  exact h

section
variable {φ : Change} {told : SlotNo → Placement → Notice → Prop} {s t : State} {e e' : Event} {done : List SlotNo}

theorem Event.Recast.recounted_end (h : e.Recast φ told e' done) (hs : s.Starts e) (ht : s.Ends e' t) : s.recounted t :=
  State.recounted_congr hs.slots.symm hs.entries.symm ht.slots ht.entries h.recounted

theorem Event.Recast.slot_end (h : e.Recast φ told e' done) (hs : s.Starts e) (ht : s.Ends e' t) (n : SlotNo) :
    t.slots[n] = if n ∈ done then (s.slots[n]).map (φ n) else s.slots[n] := by
  rw [ht.slots, h.slots, hs.slots]

theorem Event.Recast.slot_untouched (h : e.Recast φ told e' done) (hs : s.Starts e) (ht : s.Ends e' t) {n : SlotNo}
    (hn : n ∉ done) : t.slots[n] = s.slots[n] := by
  rw [h.slot_end hs ht, if_neg hn]

theorem Event.Recast.slot_changed (h : e.Recast φ told e' done) (hs : s.Starts e) (ht : s.Ends e' t) {n : SlotNo}
    (hn : n ∈ done) {p : Placement} (hp : s.slots[n] = some p) : t.slots[n] = some (φ n p) := by
  rw [h.slot_end hs ht, if_pos hn, hp, Option.map_some]

/-- The slots that a pass in ascending order withdraws join the list in ascending order (R104). -/
theorem Event.Recast.withdrawnJoin (h : e.Recast φ told e' done) (hs : s.Starts e) (ht : s.Ends e' t)
    {P : SlotNo → Bool} (hd : done = (List.finRange 256).filter P) : s.withdrawnJoin t := by
  unfold State.withdrawnJoin
  rw [ht.withdrawn, h.withdrawn, hs.withdrawn]
  conv_lhs => rw [hd, List.filter_filter]
  congr 1
  refine List.filter_congr fun n _ => ?_
  have hmem : n ∈ done ↔ P n = true := by rw [hd]; simp
  unfold State.goes
  rw [h.slot_end hs ht, hs.slots]
  cases hp : s.slots[n] with
  | none => simp
  | some p =>
    cases hP : P n with
    | false =>
      rw [if_neg (by simp [hmem, hP])]
      cases hst : p.state <;> simp [hst]
    | true =>
      rw [if_pos (hmem.mpr hP)]
      simp [Placement.gone]

/-- The events of a pass that leave another context's records alone leave what belongs to it. -/
theorem Event.Recast.sameIn (h : e.Recast φ told e' done) (hs : s.Starts e) (ht : s.Ends e' t) {j : Ctx}
    (hctx : ∀ n p, (φ n p).ctx = p.ctx) (hd : ∀ n ∈ done, ∀ p, s.slots[n] = some p → p.ctx ≠ j)
    (hplane : e.state.planes[j] = s.planes[j]) (hmarks : t.marks[j] = e'.state.marks[j]) : s.sameIn t j := by
  have hfrom : done.any (e.state.goesFrom φ j) = false := by
    rw [List.any_eq_false]
    intro n hn
    unfold State.goesFrom
    rw [hs.slots]
    cases hp : s.slots[n] with
    | none => simp
    | some p => simp [hd n hn p hp]
  refine ⟨?_, ?_, ?_, fun n r hr hj => ?_⟩
  · rw [ht.planes, h.planes j hfrom, hplane]
  · rw [hmarks, h.marks, hfrom, hs.marks]
    rfl
  · unfold State.liveCount
    rw [State.countP_records t (fun r => decide (r.ctx = j) && r.state.live),
      State.countP_records s (fun r => decide (r.ctx = j) && r.state.live)]
    refine countSlots_congr fun n => ?_
    rw [h.slot_end hs ht]
    split
    · rename_i hn
      cases hp : s.slots[n] with
      | none => rfl
      | some p => simp [hctx, hd n hn p hp]
    · rfl
  · rw [h.slot_untouched hs ht fun hn => hd n hn r hr hj, hr]

end

/-! ### A record that fails its check -/

/-- What a failing check makes of a record (R107, R108). -/
def Placement.failed (origin : Cause) (p : Placement) : Placement :=
  match p.state with
  | .placed | .claimed => { p with state := .withdrawn, cause := some origin }
  | .cutting => { p with tainted := true }
  | .cut => { p with state := .spoiled, cause := some .lateFlaw }
  | .spoiled | .missed | .withdrawn => p

/-- The flag of a taint (R107). -/
def Placement.warns (p : Placement) (m : Notice) : Prop := p.state = .cutting ∧ ∃ h, p.head = some h ∧ m = .pieceTainted h

theorem Placement.failed_uncut {p : Placement} (h : p.state = .placed ∨ p.state = .claimed) (origin : Cause) :
    p.failed origin = { p with state := .withdrawn, cause := some origin } := by
  unfold Placement.failed
  rcases h with h | h <;> rw [h]

theorem Placement.failed_cutting {p : Placement} (h : p.state = .cutting) (origin : Cause) :
    p.failed origin = { p with tainted := true } := by
  unfold Placement.failed
  rw [h]

theorem Placement.failed_cut {p : Placement} (h : p.state = .cut) (origin : Cause) :
    p.failed origin = { p with state := .spoiled, cause := some .lateFlaw } := by
  unfold Placement.failed
  rw [h]

theorem Placement.failed_ended {p : Placement} (h : p.state = .spoiled ∨ p.state = .missed ∨ p.state = .withdrawn)
    (origin : Cause) : p.failed origin = p := by
  unfold Placement.failed
  rcases h with h | h | h <;> rw [h]

theorem Placement.warns.cutting {p : Placement} {m : Notice} (h : p.warns m) : p.state = .cutting := h.1

/-- The warning of a taint to a record's head, if it names one. -/
def Event.warn (e : Event) (o : Option Head) : Event :=
  match o with
  | some h => e.raise (.pieceTainted h)
  | none => e

theorem Event.Recasts.warn {e e' : Event} {n : SlotNo} {p q : Placement} (h : e.Recasts e' n p q fun _ => False)
    {o : Option Head} (ho : p.head = o) :
    e.Recasts (e'.warn o) n p q p.warns := by
  cases o with
  | none =>
    refine ⟨h.turns, h.state, h.keeps, h.tells, fun m hm => ?_⟩
    obtain ⟨_, g, hg, _⟩ := hm
    rw [ho] at hg
    cases hg
  | some g =>
    refine h.raise fun m hm => ?_
    obtain ⟨_, g', hg, rfl⟩ := hm
    rw [Option.some.inj (ho.symm.trans hg)]

/-- A failing check changes the record as its state has it, and warns the head of a taint (R107, R108). -/
theorem Event.failCheck_recasts {e : Event} {n : SlotNo} {p : Placement} (hp : e.state.slots[n] = some p) (origin : Cause) :
    e.Recasts (e.failCheck origin n p) n p (p.failed origin) p.warns := by
  have hquiet : p.state ≠ .cutting → ∀ m, ¬ p.warns m := fun hs m hm => hs hm.cutting
  have hstay : (p.state = .spoiled ∨ p.state = .missed ∨ p.state = .withdrawn) → e.failCheck origin n p = e →
      e.Recasts (e.failCheck origin n p) n p (p.failed origin) p.warns := fun hs he => by
    rw [Placement.failed_ended hs, he]
    refine Event.Recasts.stays hp (hquiet ?_)
    rcases hs with hs | hs | hs <;> rw [hs] <;> decide
  have hcheck := rfl (a := e.failCheck origin n p)
  conv_rhs at hcheck => unfold Event.failCheck
  cases hs : p.state with
  | placed =>
    rw [hs] at hcheck
    rw [hcheck, Placement.failed_uncut (.inl hs)]
    exact Event.withdraw_recasts hp (.inl hs) origin (hquiet (by rw [hs]; decide))
  | claimed =>
    rw [hs] at hcheck
    rw [hcheck, Placement.failed_uncut (.inr hs)]
    exact Event.withdraw_recasts hp (.inr hs) origin (hquiet (by rw [hs]; decide))
  | cutting =>
    have ht := Event.taint_recasts (e := e) (n := n) p
    have htaint : e.failCheck origin n p = (e.on fun s => s.setSlot n (some { p with tainted := true })).warn p.head := by
      unfold Event.failCheck
      rw [hs]
      rfl
    rw [htaint, Placement.failed_cutting hs]
    exact ht.warn rfl
  | cut =>
    rw [hs] at hcheck
    rw [hcheck, Placement.failed_cut hs]
    exact Event.spoil_recasts hp (.inr hs) .lateFlaw (hquiet (by rw [hs]; decide))
  | spoiled =>
    rw [hs] at hcheck
    exact hstay (.inl hs) hcheck
  | missed =>
    rw [hs] at hcheck
    exact hstay (.inr (.inl hs)) hcheck
  | withdrawn =>
    rw [hs] at hcheck
    exact hstay (.inr (.inr hs)) hcheck

/-! ### The check of many slots -/

/-- Whether a record passes the check of some signals (R106). -/
def checkPasses (plane : Plane) (ds : List Downgrade) (ps : Vector Pattern 128) (n : SlotNo) (p : Placement) : Bool :=
  ds.all fun d => d.slot ≠ n || signalPasses plane ps[p.pattern] p d

/-- What the check of some signals makes of the records. -/
def checkChange (plane : Plane) (ds : List Downgrade) (ps : Vector Pattern 128) (origin : Cause) : Change := fun n p =>
  if checkPasses plane ds ps n p then p else p.failed origin

theorem checkChange_ctx (plane : Plane) (ds : List Downgrade) (ps : Vector Pattern 128) (origin : Cause) (n : SlotNo)
    (p : Placement) : (checkChange plane ds ps origin n p).ctx = p.ctx := by
  unfold checkChange
  split
  · rfl
  · unfold Placement.failed
    split <;> rfl

/-- The slots that some signals name, in ascending order. -/
def signalled (ds : List Downgrade) : List SlotNo := (List.finRange 256).filter fun n => ds.any fun d => d.slot = n

theorem mem_signalled {ds : List Downgrade} {n : SlotNo} : n ∈ signalled ds ↔ ∃ d ∈ ds, d.slot = n := by
  simp [signalled]

theorem Event.downgrade_recast (e : Event) (plane : Plane) (ds : List Downgrade) (origin : Cause) :
    e.Recast (checkChange plane ds e.state.patterns origin)
      (fun n p m => checkPasses plane ds e.state.patterns n p = false ∧ p.warns m) (e.downgrade plane ds origin)
      (signalled ds) := by
  have hnd : (signalled ds).Nodup := (List.nodup_finRange 256).filter _
  refine Event.foldl_recast (Event.checkSlot plane ds origin) (fun x n hn => ?_) (fun x n p hx hp => ?_) (signalled ds)
    (.refl _ _ e) hnd
  · unfold Event.checkSlot
    rw [hn]
  · have hpat : x.state.patterns = e.state.patterns := by rw [hx.rest]
    have hcheck : Event.checkSlot plane ds origin x n =
        if checkPasses plane ds e.state.patterns n p then x else x.failCheck origin n p := by
      unfold Event.checkSlot checkPasses
      rw [hp, hpat]
    unfold checkChange
    rw [hcheck]
    split
    · rename_i hpass
      exact Event.Recasts.stays hp fun m hm => by simp [hpass] at hm
    · have hf := Event.failCheck_recasts hp origin
      exact ⟨hf.turns, hf.state, hf.keeps, hf.tells, fun m hm => hf.told m hm.2⟩

/-! ### What the check makes of a record -/

theorem State.recounted.entry? {s t : State} (h : s.recounted t) (u : Tag) : t.entry? u = (s.entry? u).map fun e =>
    e.recounted (s.went t e.tag [.placed, .claimed] .withdrawn) (s.went t e.tag [.placed, .claimed] .missed)
      (s.went t e.tag [.cutting] .spoiled) (s.went t e.tag [.cut] .spoiled) (s.went t e.tag [.cutting, .cut] .spoiled) := by
  unfold State.entry?
  rw [(s.recounted_iff t).mp h, List.find?_map]
  rfl

/-- A CUT piece that is SPOILED reopens its SATISFIED entry (R64). -/
theorem State.recounted.reopens {s t : State} (h : s.recounted t) {n : SlotNo} {p q : Placement}
    (hp : s.slots[n] = some p) (hc : p.state = .cut) (hq : t.slots[n] = some q) (hs : q.state = .spoiled) {e : Entry}
    (he : s.entry? p.tag = some e) (hsat : e.state = .satisfied) :
    ∃ g, t.entry? p.tag = some g ∧ g.state = .opened := by
  obtain ⟨_, htag⟩ := State.mem_of_entry? he
  have hpos : 0 < s.went t e.tag [.cut] .spoiled := by
    unfold State.went
    rw [List.countP_pos_iff]
    exact ⟨n, List.mem_finRange n, by simp [hp, hq, hc, hs, htag]⟩
  refine ⟨_, by rw [h.entry?, he, Option.map_some], ?_⟩
  simp [Entry.recounted, hpos, hsat]

/-- What the check makes of a record, once it fails or not (R106 to R108). -/
theorem Event.Recast.checked {φ : Change} {told : SlotNo → Placement → Notice → Prop} {s t : State} {e e' : Event}
    {done : List SlotNo} (h : e.Recast φ told e' done) (hs : s.Starts e) (ht : s.Ends e' t) (hw : e.state.planesWf)
    {n : SlotNo} {p : Placement} (hp : s.slots[n] = some p) {origin : Cause} {fails : Prop}
    (hpass : ¬ fails → n ∈ done → φ n p = p)
    (hfail : fails → n ∈ done ∧ φ n p = p.failed origin ∧ ∀ m, p.warns m → told n p m) :
    s.checked t origin n p fails := by
  refine ⟨fun hf => ?_, fun hf => ?_⟩
  · by_cases hn : n ∈ done
    · rw [h.slot_changed hs ht hn hp, hpass hf hn]
    · rw [h.slot_untouched hs ht hn, hp]
  · obtain ⟨hn, hφ, htold⟩ := hfail hf
    have hpe : e.state.slots[n] = some p := by rw [hs.slots, hp]
    have hslot := h.slot_changed hs ht hn hp
    rw [hφ] at hslot
    have hflag : ∀ m, p.tells (p.failed origin) m ∨ told n p m → s.raises t m := fun m hm =>
      ht.flags m (h.tells n hn p hpe m (by rw [hφ]; exact hm))
    refine ⟨fun hst => ?_, fun hst => ?_, fun hst => ?_, fun hst => ?_⟩
    · have hf := Placement.failed_uncut hst origin
      have hg : p.gone (p.failed origin) = true := by
        rw [hf]
        rcases hst with hst | hst <;> simp [Placement.gone, hst]
      have hfrom : e.state.goesFrom φ p.ctx n = true := by simp [State.goesFrom, hpe, hφ, hg]
      refine ⟨by rw [hslot, hf], ?_, hflag _ (.inl (.inl ⟨hg, .inl rfl⟩)), ?_, fun a ho => ?_, fun g hc hh =>
        ⟨hflag _ (.inl (.inl ⟨hg, .inr ⟨g, hc, hh, rfl⟩⟩)), fun x hx hxn => ?_⟩⟩
      · rw [ht.withdrawn, h.withdrawn]
        refine List.mem_append_right _ (List.mem_filter.mpr ⟨hn, ?_⟩)
        simp [State.goes, hpe, hφ, hg]
      · rcases ht.marks p.ctx with hm | hm
        · rw [hm, h.marks, if_pos (List.any_eq_true.mpr ⟨n, hn, hfrom⟩)]
        · exact hm
      · rw [ht.planes, h.cells hw] at ho
        obtain ⟨_, hno⟩ := Option.filter_eq_some_iff.mp ho
        simp [hn, hfrom] at hno
      · rw [ht.held, h.held] at hx
        have hdrop : e.state.dropsFrom φ g n = true := by
          simp [State.dropsFrom, hpe, hφ, hh, hf, Placement.dropped, hc]
        have hno := (List.mem_filter.mp hx).2
        rw [hxn] at hno
        simp [hn, hdrop] at hno
    · have hf := Placement.failed_cutting hst origin
      exact ⟨by rw [hslot, hf], fun g hg => hflag _ (.inr (htold _ ⟨hst, g, hg, rfl⟩))⟩
    · have hf := Placement.failed_cut hst origin
      rw [hf] at hslot
      refine ⟨hslot, hflag _ (.inl (.inr ⟨by rw [hst]; decide, by rw [hf], rfl⟩)), fun x hx hsat => ?_⟩
      exact (h.recounted_end hs ht).reopens hp hst hslot rfl hx hsat
    · rw [hslot, Placement.failed_ended hst]

end Sys2Proof.Machine
end

section
/-!
PROOFS. The events that rewrite cells of a map and check the pieces on them (R6 to R8, R106): what such an event makes of
the map, of the records and of the queue.
-/

namespace Sys2Proof.Machine

open Sys2Proof

theorem otherCtx_ne (k : Ctx) : otherCtx k ≠ k := by
  unfold otherCtx
  split
  · rename_i h
    rw [h]
    decide
  · rename_i h
    exact Ne.symm h

/-! ### Ends of events -/

theorem settle_ends {s : State} (before : State) {e : Event} (hn : e.state.notices = s.notices) :
    s.Ends e (settle before e) where
  slots := settle_slots _ _
  entries := settle_entries _ _
  withdrawn := settle_withdrawn _ _
  planes := settle_planes _ _
  held h := settle_held _ _ h
  marks k := .inl (by rw [settle_marks])
  flags m hm := settle_raises before e m hn hm

theorem State.Ends.owe {s t : State} {e : Event} (h : s.Ends e t) (p : Port) (o : Owed) : s.Ends e (t.owe p o) :=
  ⟨h.slots, h.entries, h.withdrawn, h.planes, h.held, h.marks, h.flags⟩

/-- Marks that are cleared last are no other matter. -/
theorem State.Ends.of_clearMarks {s t : State} {e : Event} {k : Ctx} (h : s.Ends (e.on fun u => u.clearMarks k) t) :
    s.Ends e t := by
  refine ⟨h.slots, h.entries, h.withdrawn, h.planes, h.held, fun j => ?_, h.flags⟩
  have hset : (e.on fun u => u.clearMarks k).state.marks[j] = if j = k then 0 else e.state.marks[j] :=
    get_set e.state.marks k j 0
  rcases h.marks j with hm | hm
  · rw [hm, hset]
    split
    · exact .inr rfl
    · exact .inl rfl
  · exact .inr hm

/-! ### Cells whose occupants go -/

theorem Cell.without_effective (c : Cell) (f : SlotNo → Bool) : (c.without f).effective = c.effective := rfl

theorem Cell.without_meets (c : Cell) (f : SlotNo → Bool) (r : Requirement) : (c.without f).meets r = c.meets r := rfl

theorem Cell.without_occupant (c : Cell) (f : SlotNo → Bool) :
    (c.without f).occupant = c.occupant ∨ (c.without f).occupant = none := by
  unfold Cell.without
  cases c.occupant with
  | none => exact .inl rfl
  | some n =>
    cases h : f n
    · exact .inl (by simp [Option.filter, h])
    · exact .inr (by simp [Option.filter, h])

/-! ### The signals of rewritten cells (R7) -/

/-- A cell fell or gained a class (R7). -/
def Cell.worse (c d : Cell) : Prop := d.effective < c.effective ∨ d.classes &&& ~~~c.classes ≠ 0

theorem mem_downgrades {before after : Plane} {cells : List (Nat × Nat)} {d : Downgrade} :
    d ∈ downgrades before after cells ↔ (d.x, d.y) ∈ cells ∧
      (after.read (cellAddr d.x d.y)).occupant = some d.slot ∧
      (before.read (cellAddr d.x d.y)).worse (after.read (cellAddr d.x d.y)) := by
  unfold downgrades Cell.worse
  rw [List.mem_filterMap]
  constructor
  · rintro ⟨⟨x, y⟩, hm, hd⟩
    unfold downgradeOf at hd
    dsimp only at hd
    split at hd
    · cases hd
    · rename_i n ho
      split at hd
      · rename_i hworse
        obtain rfl := Option.some.inj hd
        exact ⟨hm, ho, by simpa [Set8.within] using hworse⟩
      · cases hd
  · rintro ⟨hm, ho, hworse⟩
    refine ⟨(d.x, d.y), hm, ?_⟩
    unfold downgradeOf
    dsimp only
    rw [ho]
    dsimp only
    rw [if_pos]
    simpa [Set8.within] using hworse

theorem checkPasses_eq_false {plane : Plane} {ds : List Downgrade} {ps : Vector Pattern 128} {n : SlotNo}
    {p : Placement} : checkPasses plane ds ps n p = false ↔
      ∃ d ∈ ds, d.slot = n ∧ signalPasses plane ps[p.pattern] p d = false := by
  simp [checkPasses]

/-! ### An event that rewrites cells of one map -/

/-- An event has written a plane of a state, and changed nothing else of its pieces. -/
structure State.Writes (s : State) (e : Event) (k : Ctx) (after : Plane) : Prop extends s.Starts e where
  planes : e.state.planes = s.planes.set k after
  patterns : e.state.patterns = s.patterns
  wf : s.planesWf
  after_wf : after.wf = true
  occupants : ∀ a, (after.read a).occupant = ((s.planes[k]).read a).occupant

section
variable {s t : State} {e : Event} {k : Ctx} {after : Plane} {cells : List (Nat × Nat)} {origin : Cause}

theorem State.Writes.planesWf (hs : s.Writes e k after) : e.state.planesWf := by
  intro j
  rw [hs.planes, get_set]
  split
  · exact hs.after_wf
  · exact hs.wf j

theorem State.Writes.plane_other (hs : s.Writes e k after) {j : Ctx} (hj : j ≠ k) : e.state.planes[j] = s.planes[j] := by
  rw [hs.planes, get_set, if_neg hj]

/-- A slot that a rewritten cell's signal names occupies the cell. -/
theorem State.Writes.signalled_occupies (hs : s.Writes e k after) {n : SlotNo}
    (hn : n ∈ signalled (downgrades s.planes[k] after cells)) :
    ∃ xy ∈ cells, (s.cell k xy.1 xy.2).occupant = some n := by
  obtain ⟨d, hd, rfl⟩ := mem_signalled.mp hn
  obtain ⟨hm, ho, _⟩ := mem_downgrades.mp hd
  exact ⟨(d.x, d.y), hm, by rw [← ho, hs.occupants]; rfl⟩

variable (hs : s.Writes e k after) (ht : s.Ends (e.downgrade after (downgrades s.planes[k] after cells) origin) t)
include hs ht

theorem State.Writes.cell (x y : Nat) : ∃ f, t.cell k x y = (after.read (cellAddr x y)).without f := by
  have h := (e.downgrade_recast after (downgrades s.planes[k] after cells) origin).cells hs.planesWf k (cellAddr x y)
  unfold State.cell
  rw [ht.planes, h, hs.planes, get_set, if_pos rfl]
  exact ⟨_, rfl⟩

theorem State.Writes.cell_other {j : Ctx} (hj : j ≠ k) (x y : Nat) : ∃ f, t.cell j x y = (s.cell j x y).without f := by
  have h := (e.downgrade_recast after (downgrades s.planes[k] after cells) origin).cells hs.planesWf j (cellAddr x y)
  unfold State.cell
  rw [ht.planes, h, hs.plane_other hj]
  exact ⟨_, rfl⟩

theorem State.Writes.occupant (x y : Nat) :
    (t.cell k x y).occupant = (s.cell k x y).occupant ∨ (t.cell k x y).occupant = none := by
  obtain ⟨f, hf⟩ := hs.cell ht x y
  rw [hf]
  have hocc : (s.cell k x y).occupant = (after.read (cellAddr x y)).occupant := (hs.occupants _).symm
  rw [hocc]
  exact Cell.without_occupant _ _

theorem State.Writes.slot_other {n : SlotNo} (h : ∀ xy ∈ cells, (s.cell k xy.1 xy.2).occupant ≠ some n) :
    t.slots[n] = s.slots[n] := by
  refine (e.downgrade_recast _ _ _).slot_untouched hs.toStarts ht fun hn => ?_
  obtain ⟨xy, hxy, ho⟩ := hs.signalled_occupies hn
  exact h xy hxy ho

theorem State.Writes.recounted : s.recounted t := (e.downgrade_recast _ _ _).recounted_end hs.toStarts ht

theorem State.Writes.withdrawnJoin : s.withdrawnJoin t := (e.downgrade_recast _ _ _).withdrawnJoin hs.toStarts ht rfl

theorem State.Writes.sameIn_other (hmarks : t.marks[otherCtx k] =
      (e.downgrade after (downgrades s.planes[k] after cells) origin).state.marks[otherCtx k])
    (hnamed : s.occupantsNamed k) : s.sameIn t (otherCtx k) := by
  have hk := otherCtx_ne k
  refine (e.downgrade_recast _ _ _).sameIn hs.toStarts ht (checkChange_ctx _ _ _ _) (fun n hn p hp hpk => ?_)
    (hs.plane_other hk) hmarks
  obtain ⟨xy, _, ho⟩ := hs.signalled_occupies hn
  exact hk (hpk.symm.trans (hnamed _ _ _ ho hp))

/-- What the check makes of a record: it fails by a rewritten cell that it occupies, that is worse and that no longer
meets what its mask requires. -/
theorem State.Writes.checked {n : SlotNo} {p : Placement} (hp : s.slots[n] = some p) {fails : Prop}
    (hf : fails ↔ ∃ xy ∈ cells, (s.cell k xy.1 xy.2).occupant = some n ∧
      (s.cell k xy.1 xy.2).worse (t.cell k xy.1 xy.2) ∧
      (t.cell k xy.1 xy.2).meets (s.requiredAt p xy.1 xy.2) = false) : s.checked t origin n p fails := by
  have hiff : fails ↔ checkPasses after (downgrades s.planes[k] after cells) e.state.patterns n p = false := by
    rw [hf, checkPasses_eq_false, hs.patterns]
    constructor
    · rintro ⟨⟨x, y⟩, hm, ho, hworse, hmeets⟩
      obtain ⟨f, hc⟩ := hs.cell ht x y
      dsimp only at ho hworse hmeets
      rw [hc] at hworse hmeets
      exact ⟨⟨n, x, y⟩, mem_downgrades.mpr ⟨hm, (hs.occupants _).trans ho, hworse⟩, rfl, hmeets⟩
    · rintro ⟨d, hd, rfl, hpass⟩
      obtain ⟨hm, ho, hworse⟩ := mem_downgrades.mp hd
      obtain ⟨f, hc⟩ := hs.cell ht d.x d.y
      refine ⟨(d.x, d.y), hm, (hs.occupants _).symm.trans ho, ?_, ?_⟩
      · rw [hc]
        exact hworse
      · rw [hc]
        exact hpass
  refine (e.downgrade_recast _ _ _).checked hs.toStarts ht hs.planesWf hp (fun hn _ => ?_) fun hfail => ?_
  · unfold checkChange
    rw [if_pos]
    rw [hiff, Bool.not_eq_false] at hn
    exact hn
  · have hcheck := hiff.mp hfail
    obtain ⟨d, hd, hdn, _⟩ := checkPasses_eq_false.mp hcheck
    refine ⟨mem_signalled.mpr ⟨d, hd, hdn⟩, ?_, fun m hm => ⟨hcheck, hm⟩⟩
    unfold checkChange
    rw [hcheck]
    rfl

end

end Sys2Proof.Machine
end

section
/-!
PROOFS. GRADE RUNS (R9, R10): its payload, the grades it writes, and its effects.
-/

namespace Sys2Proof.Machine

open Sys2Proof

/-! ### The payload (R9, R10) -/

theorem runsOf_getElem? {pl : List Byte} {i : Nat} {r : GradeRun} (h : (runsOf pl)[i]? = some r) :
    r.start = u16 pl (3 + 4 * i) ∧ r.length = u16 pl (5 + 4 * i) % 4096 ∧ r.grade = u16 pl (5 + 4 * i) / 4096 := by
  unfold runsOf at h
  rw [List.getElem?_map] at h
  obtain ⟨j, hj, rfl⟩ := Option.map_eq_some_iff.mp h
  obtain ⟨_, hj⟩ := List.getElem?_eq_some_iff.mp hj
  rw [List.getElem_range] at hj
  subst hj
  exact ⟨rfl, rfl, rfl⟩

theorem GradeRun.bad_iff (r : GradeRun) : r.bad = true ↔ r.length = 0 ∨ 768 < r.length ∨ 7 < r.grade := by
  simp [GradeRun.bad, or_assoc]

theorem cellsWritten_eq (w y : Nat) (runs : List GradeRun) :
    cellsWritten w y runs = (runs.map fun r => min r.length (w - r.start)).sum := by
  unfold cellsWritten
  rw [← List.sum_eq_foldl]
  congr 1
  refine List.map_congr_left fun r _ => ?_
  simp [GradeRun.cells]

/-! ### The grades written (R10) -/

theorem mem_runCells {r : GradeRun} {w y u v : Nat} :
    (u, v) ∈ r.cells w y ↔ v = y ∧ u < w ∧ r.start ≤ u ∧ u < r.start + r.length := by
  unfold GradeRun.cells
  simp only [List.mem_map, List.mem_range, Prod.mk.injEq]
  constructor
  · rintro ⟨i, hi, rfl, rfl⟩
    omega
  · rintro ⟨rfl, h1, h2, h3⟩
    exact ⟨u - r.start, by omega, by omega, rfl⟩

theorem runCells_addresses {r : GradeRun} {w y : Nat} (hw : w ≤ 768) :
    ((r.cells w y).map fun c => cellAddr c.1 c.2).Nodup := by
  refine addresses_nodup _ ?_ fun c hc => ?_
  · unfold GradeRun.cells
    refine List.nodup_range.map fun a b h => ?_
    have := (Prod.mk.inj h).1
    omega
  · have := (mem_runCells.mp (show (c.1, c.2) ∈ r.cells w y from hc)).2.1
    omega

/-- One run writes its grade under its columns. -/
theorem read_writeRun {p : Plane} (hp : p.wf = true) {w : Nat} (hw : w ≤ 768) (y : Nat) (r : GradeRun) {u v : Nat}
    (hu : u < 768) : (writeRun w y p r).read (cellAddr u v) =
      if v = y ∧ u < w ∧ r.start ≤ u ∧ u < r.start + r.length then
        { p.read (cellAddr u v) with base := Fin.ofNat 8 r.grade }
      else p.read (cellAddr u v) := by
  unfold writeRun
  split
  · rename_i h
    exact Plane.read_update_once (r.cells w y) (fun _ c => { c with base := Fin.ofNat 8 r.grade }) p (u, v) hp
      (mem_runCells.mpr h) (runCells_addresses hw)
  · rename_i h
    refine Plane.read_update_other _ _ _ _ fun c hc ha => h ?_
    have hm := mem_runCells.mp (show (c.1, c.2) ∈ r.cells w y from hc)
    obtain ⟨h1, h2⟩ := cellAddr_inj (by omega) hu ha
    rw [h1, h2] at hm
    exact hm

theorem gradeAt_append (runs : List GradeRun) (r : GradeRun) (x : Nat) : gradeAt (runs ++ [r]) x =
    if r.start ≤ x ∧ x < r.start + r.length then some r.grade else gradeAt runs x := by
  unfold gradeAt
  rw [List.reverse_append, List.reverse_singleton, List.singleton_append, List.find?_cons]
  by_cases h : r.start ≤ x ∧ x < r.start + r.length
  · rw [if_pos h]
    simp [h.1, h.2]
  · rw [if_neg h]
    have hb : (decide (r.start ≤ x) && decide (x < r.start + r.length)) = false := by
      simpa using h
    rw [hb]

/-- A cell of the row has the grade of the last run that covers it; any other keeps its own. -/
theorem writeRuns_base {p : Plane} (hp : p.wf = true) {w : Nat} (hw : w ≤ 768) (y : Nat) {runs : List GradeRun}
    (hr : ∀ r ∈ runs, r.grade ≤ 7) {x v : Nat} (hx : x < 768) :
    ((writeRuns p w y runs).read (cellAddr x v)).base.val =
      if v = y ∧ x < w then (gradeAt runs x).getD (p.read (cellAddr x v)).base.val
      else (p.read (cellAddr x v)).base.val := by
  induction runs using List.reverseRecOn with
  | nil => simp [writeRuns, gradeAt]
  | append_singleton runs r ih =>
    have hold := ih fun r' hr' => hr r' (List.mem_append_left _ hr')
    have hgrade : r.grade ≤ 7 := hr r (List.mem_append_right _ List.mem_cons_self)
    have hlast : writeRuns p w y (runs ++ [r]) = writeRun w y (writeRuns p w y runs) r := by
      simp [writeRuns]
    rw [hlast, read_writeRun (writeRuns_wf w y runs p hp) hw y r hx, gradeAt_append]
    by_cases hrow : v = y ∧ x < w
    · rw [if_pos hrow]
      rw [if_pos hrow] at hold
      by_cases hc : r.start ≤ x ∧ x < r.start + r.length
      · rw [if_pos ⟨hrow.1, hrow.2, hc⟩, if_pos hc]
        simp only [Fin.ofNat_eq_cast, Fin.val_natCast, Option.getD_some]
        omega
      · rw [if_neg fun h => hc h.2.2, if_neg hc, hold]
    · rw [if_neg hrow, if_neg fun h => hrow ⟨h.1, h.2.1⟩, hold, if_neg hrow]

/-! ### The event -/

/-- The state GRADE RUNS ends in. -/
def State.graded (s : State) (k : Ctx) (y : Nat) (runs : List GradeRun) : State := settle s.advanceScan (s.grading k y runs)

/-- The row of GRADE RUNS. -/
def rowCells (w y : Nat) : List (Nat × Nat) := (List.range w).map fun x => (x, y)

theorem mem_rowCells {w y : Nat} {xy : Nat × Nat} : xy ∈ rowCells w y ↔ xy.1 < w ∧ xy.2 = y := by
  obtain ⟨u, v⟩ := xy
  simp only [rowCells, List.mem_map, List.mem_range, Prod.mk.injEq]
  constructor
  · rintro ⟨i, hi, rfl, rfl⟩
    exact ⟨hi, rfl⟩
  · rintro ⟨hu, rfl⟩
    exact ⟨u, hu, rfl, rfl⟩

/-- The plane that GRADE RUNS leaves, its checks aside. -/
def State.rowPlane (s : State) (k : Ctx) (y : Nat) (runs : List GradeRun) : Plane :=
  writeRuns s.planes[k] (s.ctxs[k]).width y runs

/-- The checks of GRADE RUNS. -/
def State.rowChecked (s : State) (k : Ctx) (y : Nat) (runs : List GradeRun) : Event :=
  (s.rowWritten k y runs).begin.downgrade (s.rowPlane k y runs)
    (downgrades s.planes[k] (s.rowPlane k y runs) (rowCells (s.ctxs[k]).width y)) .gradeChange

theorem State.grading_eq (s : State) (k : Ctx) (y : Nat) (runs : List GradeRun) : s.grading k y runs =
    if someRaised s.planes[k] (s.rowPlane k y runs) (rowCells (s.ctxs[k]).width y) then
      (s.rowChecked k y runs).on fun u => u.clearMarks k
    else s.rowChecked k y runs := rfl

section
variable (s : State) (k : Ctx) (y : Nat) (runs : List GradeRun)

theorem State.rowWritten_writes (hw : s.planesWf) : s.Writes (s.rowWritten k y runs).begin k (s.rowPlane k y runs) where
  slots := s.advanceScan_slots
  entries := s.advanceScan_entries
  withdrawn := s.advanceScan_withdrawn
  heads := s.advanceScan_heads
  marks := s.advanceScan_marks
  planes := by
    show s.advanceScan.planes.set k _ = _
    rw [s.advanceScan_planes]
    rfl
  patterns := s.advanceScan_patterns
  wf := hw
  after_wf := writeRuns_wf _ _ _ _ (hw k)
  occupants a := writeRuns_aspect Cell.occupant (fun _ _ => rfl) _ _ _ (hw k) a

theorem State.grading_notices : (s.grading k y runs).state.notices = s.notices := by
  rw [(s.grading_pieces k y runs).rest]
  exact s.advanceScan_notices

theorem State.graded_ends : s.Ends (s.rowChecked k y runs) (s.graded k y runs) := by
  have h : s.Ends (s.grading k y runs) (s.graded k y runs) := settle_ends s.advanceScan (s.grading_notices k y runs)
  rw [State.grading_eq] at h
  split at h
  · exact h.of_clearMarks
  · exact h

theorem State.graded_marks (j : Ctx) : (s.graded k y runs).marks[j] =
    if someRaised s.planes[k] (s.rowPlane k y runs) (rowCells (s.ctxs[k]).width y) = true ∧ j = k then 0
    else (s.rowChecked k y runs).state.marks[j] := by
  unfold State.graded
  rw [settle_marks, State.grading_eq]
  cases h : someRaised s.planes[k] (s.rowPlane k y runs) (rowCells (s.ctxs[k]).width y) with
  | true =>
    simp only [if_true, true_and]
    exact get_set (s.rowChecked k y runs).state.marks k j 0
  | false => simp only [Bool.false_eq_true, if_false, false_and]

theorem State.graded_steady : s.steady (s.graded k y runs) ∧ s.sameSettings (s.graded k y runs) := by
  have htail := settle_tail s.advanceScan (s.grading k y runs)
  have hp := s.grading_pieces k y runs
  refine ⟨?_, ?_⟩
  · exact State.steady_trans s.advanceScan_steady (State.steady_trans (t := s.rowWritten k y runs)
      (State.steady_refl s.advanceScan) (State.steady_trans hp.steady htail.steady))
  · exact State.sameSettings_trans s.advanceScan_sameSettings (State.sameSettings_trans (t := s.rowWritten k y runs)
      (State.sameSettings_refl s.advanceScan) (State.sameSettings_trans hp.sameSettings htail.sameSettings))

theorem State.graded_rest : (s.graded k y runs).ports = s.ports ∧ (s.graded k y runs).patterns = s.patterns ∧
    (s.graded k y runs).postCounter = s.postCounter := by
  have htail := settle_tail s.advanceScan (s.grading k y runs)
  have hp := (s.grading_pieces k y runs).rest
  refine ⟨?_, ?_, ?_⟩
  · exact htail.ports.trans (by rw [hp]; exact s.advanceScan_ports)
  · exact htail.patterns.trans (by rw [hp]; exact s.advanceScan_patterns)
  · exact htail.postCounter.trans (by rw [hp]; exact s.advanceScan_postCounter)

end

section
variable {s : State} (hw : s.planesWf) (k : Ctx) (y : Nat) (runs : List GradeRun)
include hw

/-- A cell of the map after GRADE RUNS. -/
theorem State.graded_cell (hwidth : (s.ctxs[k]).width ≤ 768) (hr : ∀ r ∈ runs, r.bad = false) {x v : Nat} (hx : x < 768) :
    ((s.graded k y runs).cell k x v).base.val =
      (if v = y ∧ x < (s.ctxs[k]).width then (gradeAt runs x).getD (s.cell k x v).base.val
       else (s.cell k x v).base.val) ∧
    ((s.graded k y runs).cell k x v).cap = (s.cell k x v).cap ∧
    ((s.graded k y runs).cell k x v).classes = (s.cell k x v).classes ∧
    (((s.graded k y runs).cell k x v).occupant = (s.cell k x v).occupant ∨
      ((s.graded k y runs).cell k x v).occupant = none) := by
  have hwr := s.rowWritten_writes k y runs hw
  refine ⟨?_, ?_, ?_, hwr.occupant (s.graded_ends k y runs) x v⟩
  · obtain ⟨f, hf⟩ := hwr.cell (s.graded_ends k y runs) x v
    rw [hf]
    refine writeRuns_base (hw k) hwidth y (fun r hr' => ?_) hx
    have := mt (GradeRun.bad_iff r).mpr (by rw [hr r hr']; decide)
    omega
  · obtain ⟨f, hf⟩ := hwr.cell (s.graded_ends k y runs) x v
    rw [hf]
    exact (writeRuns_marks _ _ _ (hw k) _).1
  · obtain ⟨f, hf⟩ := hwr.cell (s.graded_ends k y runs) x v
    rw [hf]
    exact (writeRuns_marks _ _ _ (hw k) _).2

theorem State.graded_cell_other {j : Ctx} (hj : j ≠ k) (x v : Nat) :
    ((s.graded k y runs).cell j x v).base = (s.cell j x v).base ∧
    ((s.graded k y runs).cell j x v).cap = (s.cell j x v).cap ∧
    ((s.graded k y runs).cell j x v).classes = (s.cell j x v).classes := by
  obtain ⟨f, hf⟩ := (s.rowWritten_writes k y runs hw).cell_other (s.graded_ends k y runs) hj x v
  rw [hf]
  exact ⟨rfl, rfl, rfl⟩

/-- The check of GRADE RUNS: a cell of the row is worse exactly if its effective grade fell, its classes being as they
were. -/
theorem State.graded_checked {n : SlotNo} {p : Placement} (hp : s.slots[n] = some p) :
    s.checked (s.graded k y runs) .gradeChange n p (∃ x, x < (s.ctxs[k]).width ∧ (s.cell k x y).occupant = some n ∧
      ((s.graded k y runs).cell k x y).effective < (s.cell k x y).effective ∧
      ((s.graded k y runs).cell k x y).meets (s.requiredAt p x y) = false) := by
  have hwr := s.rowWritten_writes k y runs hw
  have hworse : ∀ x, (s.cell k x y).worse ((s.graded k y runs).cell k x y) ↔
      ((s.graded k y runs).cell k x y).effective < (s.cell k x y).effective := fun x => by
    obtain ⟨f, hf⟩ := hwr.cell (s.graded_ends k y runs) x y
    have hclasses : ((s.graded k y runs).cell k x y).classes = (s.cell k x y).classes := by
      rw [hf]
      exact (writeRuns_marks _ _ _ (hw k) _).2
    unfold Cell.worse
    rw [hclasses, BitVec.and_not_self]
    simp
  refine hwr.checked (s.graded_ends k y runs) hp ?_
  constructor
  · rintro ⟨x, hx, ho, hfell, hmeets⟩
    exact ⟨(x, y), mem_rowCells.mpr ⟨hx, rfl⟩, ho, (hworse x).mpr hfell, hmeets⟩
  · rintro ⟨⟨x, v⟩, hm, ho, hfell, hmeets⟩
    obtain ⟨hx, rfl⟩ := mem_rowCells.mp hm
    exact ⟨x, hx, ho, (hworse x).mp hfell, hmeets⟩

theorem State.graded_slot_other {n : SlotNo} (h : ∀ x, x < (s.ctxs[k]).width → (s.cell k x y).occupant ≠ some n) :
    (s.graded k y runs).slots[n] = s.slots[n] := by
  refine (s.rowWritten_writes k y runs hw).slot_other (s.graded_ends k y runs) fun xy hxy => ?_
  obtain ⟨u, v⟩ := xy
  obtain ⟨hu, rfl⟩ := mem_rowCells.mp hxy
  exact h u hu

theorem State.graded_sameIn (hnamed : s.occupantsNamed k) : s.sameIn (s.graded k y runs) (otherCtx k) := by
  refine (s.rowWritten_writes k y runs hw).sameIn_other (s.graded_ends k y runs) ?_ hnamed
  rw [State.graded_marks, if_neg]
  · rfl
  · rintro ⟨_, h⟩
    exact otherCtx_ne k h

theorem State.graded_raised (h : ∃ x, x < (s.ctxs[k]).width ∧
    (s.cell k x y).effective < ((s.graded k y runs).cell k x y).effective) : (s.graded k y runs).marks[k] = 0 := by
  obtain ⟨x, hx, hrise⟩ := h
  obtain ⟨f, hf⟩ := (s.rowWritten_writes k y runs hw).cell (s.graded_ends k y runs) x y
  rw [State.graded_marks, if_pos]
  refine ⟨List.any_eq_true.mpr ⟨(x, y), mem_rowCells.mpr ⟨hx, rfl⟩, ?_⟩, rfl⟩
  rw [hf] at hrise
  exact decide_eq_true hrise

/-- With no cell raised and no record changed every mark stays: a withdrawal changes its record. -/
theorem State.graded_marks_same (h : ∀ x, x < (s.ctxs[k]).width →
      ((s.graded k y runs).cell k x y).effective ≤ (s.cell k x y).effective)
    (hslots : (s.graded k y runs).slots = s.slots) : (s.graded k y runs).marks = s.marks := by
  have hwr := s.rowWritten_writes k y runs hw
  have hrec : Event.Recast _ _ (s.rowWritten k y runs).begin (s.rowChecked k y runs) _ := Event.downgrade_recast _ _ _ _
  have hno : someRaised s.planes[k] (s.rowPlane k y runs) (rowCells (s.ctxs[k]).width y) = false := by
    unfold someRaised
    rw [List.any_eq_false]
    rintro ⟨x, v⟩ hm
    obtain ⟨hx, rfl⟩ := mem_rowCells.mp hm
    obtain ⟨f, hf⟩ := hwr.cell (s.graded_ends k v runs) x v
    have hle := h x hx
    rw [hf, Cell.without_effective] at hle
    simpa [State.cell] using hle
  refine Vector.ext fun i hi => ?_
  have hm := s.graded_marks k y runs ⟨i, hi⟩
  rw [hno, if_neg (fun hh => by cases hh.1), hrec.marks, if_neg, hwr.marks] at hm
  · exact hm
  · rw [List.any_eq_true]
    rintro ⟨n, hn, hfrom⟩
    unfold State.goesFrom at hfrom
    rw [hwr.slots] at hfrom
    cases hp : s.slots[n] with
    | none => simp [hp] at hfrom
    | some p =>
      have hnew := hrec.slot_changed hwr.toStarts (s.graded_ends k y runs) hn hp
      rw [hslots, hp] at hnew
      rw [hp, Option.any_some, ← Option.some.inj hnew, Placement.gone_same] at hfrom
      simp at hfrom

end

/-! ### GRADE RUNS refuses and takes (R9) -/

theorem exec_gradeRuns_refuses {s : State} {pl : List Byte} {c : Code} (ht : s.takes 1)
    (hl : Kind.gradeRuns.lengthOk pl = true) (ho : gradeRunsOwner 1 pl (s.hunt 1) = (s.hunt 1, .refuse c)) :
    exec (.gradeRuns 1 pl) s = .next (s.refused .gradeRuns 1 c) :=
  request_refuses .gradeRuns gradeRunsOwner 1 pl s c ht rfl hl ho

theorem gradeRunsOwner_noCtx {pl : List Byte} (h : 1 < u8 pl 0) (s : State) :
    gradeRunsOwner 1 pl s = (s, .refuse .range) := by
  unfold gradeRunsOwner
  rw [index?_none h]

theorem gradeRunsOwner_dead {pl : List Byte} {s : State} {k : Ctx} (hk : u8 pl 0 = k.val)
    (h : (s.ctxs[k]).state = .empty ∨ (s.ctxs[k]).state = .closed) : gradeRunsOwner 1 pl s = (s, .refuse .state) := by
  unfold gradeRunsOwner
  rw [index?_of_eq k hk]
  exact if_pos (by simpa using h)

theorem gradeRunsOwner_range {pl : List Byte} {s : State} {k : Ctx} (hk : u8 pl 0 = k.val)
    (h : (s.ctxs[k]).state = .opened ∨ (s.ctxs[k]).state = .draining)
    (hr : (s.ctxs[k]).height ≤ u16 pl 1 ∨ ∃ r ∈ runsOf pl, r.bad = true) :
    gradeRunsOwner 1 pl s = (s, .refuse .range) := by
  unfold gradeRunsOwner
  rw [index?_of_eq k hk]
  dsimp only
  rw [if_neg (by rcases h with h | h <;> rw [h] <;> decide)]
  split
  · rfl
  · rename_i hy
    rcases hr with hr | ⟨r, hm, hb⟩
    · exact absurd hr hy
    · rw [if_pos (List.any_eq_true.mpr ⟨r, hm, hb⟩)]

theorem gradeRunsOwner_accepts {pl : List Byte} {s : State} {k : Ctx} (hk : u8 pl 0 = k.val)
    (h : (s.ctxs[k]).state = .opened ∨ (s.ctxs[k]).state = .draining) (hy : u16 pl 1 < (s.ctxs[k]).height)
    (hr : ∀ r ∈ runsOf pl, r.bad = false) : gradeRunsOwner 1 pl s = (s.graded k (u16 pl 1) (runsOf pl),
      .accept (enc2 (cellsWritten (s.ctxs[k]).width (u16 pl 1) (runsOf pl)))) := by
  unfold gradeRunsOwner State.graded
  rw [index?_of_eq k hk]
  dsimp only
  have hany : (runsOf pl).any GradeRun.bad = false := by
    rw [List.any_eq_false]
    intro r hm
    rw [hr r hm]
    decide
  rw [if_neg (by rcases h with h | h <;> rw [h] <;> decide), if_neg (by omega), hany, ← State.gradeRow_eq]
  rfl

/-- Settles O12: the row as its runs write it, and the checks as one pass over the slots that its signals name. -/
theorem gradeRunsWriteBaseGrades : Obligations.GradeRunsWriteBaseGrades := by
  refine ⟨⟨fun pl => ⟨?_, fun i r => runsOf_getElem?⟩, GradeRun.bad_iff, cellsWritten_eq⟩,
    fun pl s ht hl => ⟨fun h => ?_, fun k hk => ⟨fun h => ?_, fun h => ⟨fun hy => ?_, fun _ hb => ?_⟩⟩⟩,
    fun pl s k ht hl hk hlive hy hr hw hwidth => ?_⟩
  · simp [runsOf]
  · exact exec_gradeRuns_refuses ht hl (gradeRunsOwner_noCtx h _)
  · exact exec_gradeRuns_refuses ht hl (gradeRunsOwner_dead (s := s.hunt 1) hk h)
  · exact exec_gradeRuns_refuses ht hl (gradeRunsOwner_range (s := s.hunt 1) hk h (.inl hy))
  · exact exec_gradeRuns_refuses ht hl (gradeRunsOwner_range (s := s.hunt 1) hk h (.inr hb))
  · have hexec : exec (.gradeRuns 1 pl) s = _ := request_accepts .gradeRuns gradeRunsOwner 1 pl s _ _ ht rfl hl
      (gradeRunsOwner_accepts (s := s.hunt 1) hk hlive hy hr)
    have hw' : (s.hunt 1).planesWf := hw
    obtain ⟨hports, hpatterns, hpost⟩ := (s.hunt 1).graded_rest k (u16 pl 1) (runsOf pl)
    obtain ⟨hsteady, hsettings⟩ := (s.hunt 1).graded_steady k (u16 pl 1) (runsOf pl)
    have hwr := (s.hunt 1).rowWritten_writes k (u16 pl 1) (runsOf pl) hw'
    have hends := fun r => ((s.hunt 1).graded_ends k (u16 pl 1) (runsOf pl)).owe 1 r
    exact ⟨_, hexec, fun x v hx => State.graded_cell hw' k (u16 pl 1) (runsOf pl) (hwidth k).2.1 hr hx,
      fun j x v hj => State.graded_cell_other hw' k _ _ hj x v,
      fun hnamed => State.graded_sameIn hw' k _ _ hnamed,
      fun n h => State.graded_slot_other hw' k _ _ h,
      fun n p hp => State.graded_checked hw' k _ _ hp,
      hwr.recounted (hends _), hwr.withdrawnJoin (hends _),
      fun h => State.graded_raised hw' k _ _ h,
      fun h hs => State.graded_marks_same hw' k _ _ h hs,
      State.repliedFrom_owe _ _ _ _ _ hports, hsettings, hsteady, hpatterns, hpost⟩

end Sys2Proof.Machine
end

section
/-!
PROOFS. The end of an APPLY job (R25): the cells it writes and the check that follows.
-/

namespace Sys2Proof.Machine

open Sys2Proof

/-! ### The cells an applied flaw writes (R25) -/

theorem read_applyPlane {p : Plane} (hp : p.wf = true) (sh : Shape) (c : Classified) {w : Nat} (h : Nat) (hw : w ≤ 768)
    {x : Nat} (y : Nat) (hx : x < 768) : (applyPlane p sh c w h).read (cellAddr x y) =
      if x < w ∧ y < h ∧ sh.reaches c.margin x y = true then applyCell sh c (x, y) (p.read (cellAddr x y))
      else p.read (cellAddr x y) :=
  Plane.read_update_filter w h (fun xy => sh.reaches c.margin xy.1 xy.2) (applyCell sh c) p x y hp hw hx

theorem applyCell_classes (sh : Shape) (c : Classified) (xy : Nat × Nat) (d : Cell) (i : Fin 8) :
    (applyCell sh c xy d).classes.getLsbD i.val = true ↔ d.classes.getLsbD i.val = true ∨ c.cls = i := by
  have hbit : (classBit c.cls).getLsbD i.val = decide (c.cls = i) := by
    unfold classBit
    rw [BitVec.getLsbD_twoPow]
    simp [Fin.ext_iff]
  unfold applyCell
  rw [BitVec.getLsbD_or, hbit]
  simp

theorem applyCell_cap_lowered {sh : Shape} {c : Classified} {xy : Nat × Nat} (d : Cell) {g : Grade}
    (h : sh.covers xy.1 xy.2 = true) (hg : c.cap = some g) : (applyCell sh c xy d).cap.val = min d.cap.val g.val := by
  unfold applyCell
  rw [if_pos h, hg]
  show (lesser d.cap g).val = _
  rw [lesser_eq_min]
  rcases Nat.le_total d.cap.val g.val with hle | hle
  · rw [min_eq_left (show d.cap ≤ g from hle), Nat.min_eq_left hle]
  · rw [min_eq_right (show g ≤ d.cap from hle), Nat.min_eq_right hle]

theorem applyCell_cap_kept {sh : Shape} {c : Classified} {xy : Nat × Nat} (d : Cell)
    (h : sh.covers xy.1 xy.2 = false ∨ c.cap = none) : (applyCell sh c xy d).cap = d.cap := by
  unfold applyCell
  rcases h with h | h
  · rw [h]
    rfl
  · rw [h]
    exact ite_self _

/-! ### The event -/

/-- The state the end of an APPLY job comes to. -/
def State.applied (s : State) (k : Ctx) (n : Nat) (f : Flaw) (c : Classified) : State :=
  settle s.advanceScan (s.applying k n f c)

theorem exec_applyJobCompletion {s : State} {k : Ctx} {n : Nat} {f : Flaw} {c : Classified}
    (hj : s.inFlight = some { kind := .apply, ctx := k, flaw := n }) (hf : (s.flaws[k])[n]? = some f)
    (hc : f.classified = some c) : exec .applyJobCompletion s = .next (s.applied k n f c) := by
  show execApplyJobCompletion s = _
  unfold execApplyJobCompletion State.applied
  simp only [hj, hf, hc, State.applyFlaw_eq]

/-- The plane that an APPLY job leaves, its checks aside. -/
def State.flawPlane (s : State) (k : Ctx) (f : Flaw) (c : Classified) : Plane :=
  applyPlane s.planes[k] f.shape c (s.ctxs[k]).width (s.ctxs[k]).height

/-- The event of an APPLY job's end before its checks. -/
def State.flawEvent (s : State) (k : Ctx) (n : Nat) (f : Flaw) (c : Classified) : Event :=
  (s.flawWritten k n f c).begin.raise .flawApplied

section
variable (s : State) (k : Ctx) (n : Nat) (f : Flaw) (c : Classified)

theorem State.flawEvent_writes (hw : s.planesWf) : s.Writes (s.flawEvent k n f c) k (s.flawPlane k f c) where
  slots := s.advanceScan_slots
  entries := s.advanceScan_entries
  withdrawn := s.advanceScan_withdrawn
  heads := s.advanceScan_heads
  marks := s.advanceScan_marks
  planes := by
    show s.advanceScan.planes.set k _ = _
    rw [s.advanceScan_planes]
    rfl
  patterns := s.advanceScan_patterns
  wf := hw
  after_wf := Plane.update_wf _ _ _ (hw k)
  occupants a := applyPlane_occupant _ _ _ _ (hw k) a

theorem State.applied_ends : s.Ends ((s.flawEvent k n f c).downgrade (s.flawPlane k f c) (downgrades s.planes[k]
    (s.flawPlane k f c) (f.shape.reach c.margin (s.ctxs[k]).width (s.ctxs[k]).height)) .lateFlaw)
      (s.applied k n f c) := by
  refine settle_ends s.advanceScan ?_
  have h := (s.applying_pieces k n f c).rest
  exact (congrArg State.notices h).trans s.advanceScan_notices

theorem State.applied_raises : s.raises (s.applied k n f c) .flawApplied :=
  (s.applied_ends k n f c).flags _ (Event.downgrade_raised _ _ _ _ _ (Event.raised_raise_self _ _))

theorem State.applied_marks (j : Ctx) : (s.applied k n f c).marks[j] = (s.applying k n f c).state.marks[j] := by
  unfold State.applied
  rw [settle_marks]

theorem State.flawWritten_steady : s.steady (s.flawWritten k n f c) := by
  refine State.steady_trans s.advanceScan_steady ⟨fun _ => rfl, fun j => ?_, fun _ => rfl, fun _ => rfl, rfl⟩
  show ((s.advanceScan.flaws.set k ((s.advanceScan.flaws[k]).set n { f with state := .applied }))[j]).length = _
  rw [get_set]
  split
  · rename_i hj
    rw [List.length_set, hj]
  · rfl

theorem State.applied_steady : s.steady (s.applied k n f c) :=
  State.steady_trans (s.flawWritten_steady k n f c)
    (State.steady_trans (s.applying_pieces k n f c).steady (settle_tail _ _).steady)

theorem State.applied_sameSettings : s.sameSettings (s.applied k n f c) :=
  State.sameSettings_trans s.advanceScan_sameSettings (State.sameSettings_trans (t := s.flawWritten k n f c)
    (State.sameSettings_refl s.advanceScan)
    (State.sameSettings_trans (s.applying_pieces k n f c).sameSettings (settle_tail _ _).sameSettings))

theorem State.applied_rest : (s.applied k n f c).ports = s.ports ∧ (s.applied k n f c).patterns = s.patterns := by
  have htail := settle_tail s.advanceScan (s.applying k n f c)
  have h := (s.applying_pieces k n f c).rest
  exact ⟨htail.ports.trans ((congrArg State.ports h).trans s.advanceScan_ports),
    htail.patterns.trans ((congrArg State.patterns h).trans s.advanceScan_patterns)⟩

/-- The flaw is APPLIED, unless a job that the tail starts classifies it anew. -/
theorem State.applied_flaw (hf : (s.flaws[k])[n]? = some f) (hj : { kind := .apply, ctx := k, flaw := n } ∉ s.jobs) :
    ((s.applied k n f c).flaws[k])[n]? = some { f with state := .applied } := by
  have h := (s.applying_pieces k n f c).rest
  have hjobs : (s.applying k n f c).state.jobs = s.jobs := (congrArg State.jobs h).trans s.advanceScan_jobs
  have hflaws : (s.applying k n f c).state.flaws = s.flaws.set k ((s.flaws[k]).set n { f with state := .applied }) := by
    refine (congrArg State.flaws h).trans ?_
    show s.advanceScan.flaws.set k ((s.advanceScan.flaws[k]).set n { f with state := .applied }) = _
    rw [s.advanceScan_flaws]
  obtain ⟨hn, _⟩ := List.getElem?_eq_some_iff.mp hf
  unfold State.applied
  rw [settle_flaw_apart _ _ _ _ (by rw [hjobs]; exact hj), hflaws, get_set, if_pos rfl, List.getElem?_set_self hn]

end

section
variable {s : State} (hw : s.planesWf) (k : Ctx) (n : Nat) (f : Flaw) (c : Classified)
  (hwidth : (s.ctxs[k]).width ≤ 768)
include hw hwidth

/-- What a cell of the map has come to be, its occupant aside. -/
theorem State.applied_read {x y : Nat} (hx : x < (s.ctxs[k]).width) (hy : y < (s.ctxs[k]).height) :
    ∃ g, (s.applied k n f c).cell k x y =
      (if f.shape.reaches c.margin x y = true then applyCell f.shape c (x, y) (s.cell k x y)
        else s.cell k x y).without g := by
  obtain ⟨g, hg⟩ := (s.flawEvent_writes k n f c hw).cell (s.applied_ends k n f c) x y
  refine ⟨g, hg.trans (congrArg (fun d => Cell.without d g) ?_)⟩
  refine (read_applyPlane (hw k) f.shape c _ hwidth y (by omega)).trans ?_
  simp only [hx, hy, true_and]
  rfl

theorem State.applied_cell {x y : Nat} (hx : x < (s.ctxs[k]).width) (hy : y < (s.ctxs[k]).height) :
    ((s.applied k n f c).cell k x y).base = (s.cell k x y).base ∧
    (∀ i : Fin 8, ((s.applied k n f c).cell k x y).classes.getLsbD i.val = true ↔
      (s.cell k x y).classes.getLsbD i.val = true ∨ (f.shape.reaches c.margin x y = true ∧ c.cls = i)) ∧
    (∀ g, f.shape.reaches c.margin x y = true → f.shape.covers x y = true → c.cap = some g →
      ((s.applied k n f c).cell k x y).cap.val = min (s.cell k x y).cap.val g.val) ∧
    (f.shape.reaches c.margin x y = false ∨ f.shape.covers x y = false ∨ c.cap = none →
      ((s.applied k n f c).cell k x y).cap = (s.cell k x y).cap) ∧
    (((s.applied k n f c).cell k x y).occupant = (s.cell k x y).occupant ∨
      ((s.applied k n f c).cell k x y).occupant = none) := by
  obtain ⟨gone, hcell⟩ := State.applied_read hw k n f c hwidth hx hy
  refine ⟨?_, fun i => ?_, fun g hr hc hg => ?_, fun h => ?_,
    (s.flawEvent_writes k n f c hw).occupant (s.applied_ends k n f c) x y⟩
  · rw [hcell]
    split <;> rfl
  · rw [hcell]
    split
    · rename_i hr
      exact (applyCell_classes f.shape c (x, y) (s.cell k x y) i).trans (by simp [hr])
    · rename_i hr
      exact (or_iff_left fun h => hr h.1).symm
  · rw [hcell, if_pos hr]
    exact applyCell_cap_lowered _ hc hg
  · rw [hcell]
    split
    · rename_i hr
      exact applyCell_cap_kept _ (h.resolve_left (by rw [hr]; decide))
    · rfl

/-- The check of an APPLY job: a cell of the map that the flaw does not reach is as it was, and so no worse. -/
theorem State.applied_checked {m : SlotNo} {p : Placement} (hp : s.slots[m] = some p) :
    s.checked (s.applied k n f c) .lateFlaw m p (∃ x y, x < (s.ctxs[k]).width ∧ y < (s.ctxs[k]).height ∧
      (s.cell k x y).occupant = some m ∧ (s.cell k x y).worse ((s.applied k n f c).cell k x y) ∧
      ((s.applied k n f c).cell k x y).meets (s.requiredAt p x y) = false) := by
  refine (s.flawEvent_writes k n f c hw).checked (s.applied_ends k n f c) hp ?_
  constructor
  · rintro ⟨x, y, hx, hy, ho, hworse, hmeets⟩
    refine ⟨(x, y), List.mem_filter.mpr ⟨mem_mapCells.mpr ⟨hx, hy⟩, ?_⟩, ho, hworse, hmeets⟩
    by_contra hr
    obtain ⟨gone, hcell⟩ := State.applied_read hw k n f c hwidth hx hy
    rw [if_neg hr] at hcell
    rw [hcell] at hworse
    rcases hworse with hfell | hclass
    · exact absurd hfell (lt_irrefl _)
    · exact hclass (BitVec.and_not_self _)
  · rintro ⟨⟨x, y⟩, hm, ho, hworse, hmeets⟩
    obtain ⟨hx, hy⟩ := mem_mapCells.mp (List.mem_filter.mp hm).1
    exact ⟨x, y, hx, hy, ho, hworse, hmeets⟩

end

/-- Settles O14: the cells as the flaw writes them, and the checks as one pass over the slots that its signals name. -/
theorem applyJobWritesFlaw : Obligations.ApplyJobWritesFlaw := by
  intro s k n f c hj hf hc hw hwidth
  have hwr := s.flawEvent_writes k n f c hw
  have hends := s.applied_ends k n f c
  obtain ⟨hports, hpatterns⟩ := s.applied_rest k n f c
  refine ⟨_, exec_applyJobCompletion hj hf hc,
    fun x y hx hy => State.applied_cell hw k n f c (hwidth k).2.1 hx hy,
    fun hnamed => hwr.sameIn_other hends (s.applied_marks k n f c _) hnamed,
    fun m p hp => State.applied_checked hw k n f c (hwidth k).2.1 hp,
    hwr.recounted hends, hwr.withdrawnJoin hends, s.applied_raises k n f c, fun hjobs => ?_,
    s.applied_sameSettings k n f c, s.applied_steady k n f c, hports, hpatterns⟩
  rw [s.applied_flaw k n f c hf hjobs]
  rfl

end Sys2Proof.Machine
end

section
/-!
PROOFS. HIDE ABORT (R39, R95, R112, R127): one pass over the slots, between the start of the abort and its tail.
-/

namespace Sys2Proof.Machine

open Sys2Proof

/-! ### One slot of an aborted context (R112) -/

/-- What an abort makes of a record of its context. -/
def Placement.aborted (p : Placement) : Placement :=
  match p.state with
  | .placed | .claimed => { p with state := .withdrawn, cause := some .hideAborted }
  | .cutting => { p with state := .spoiled, cause := some .hideAborted }
  | .cut | .spoiled | .missed | .withdrawn => p

theorem Placement.aborted_uncut {p : Placement} (h : p.state = .placed ∨ p.state = .claimed) :
    p.aborted = { p with state := .withdrawn, cause := some .hideAborted } := by
  unfold Placement.aborted
  rcases h with h | h <;> rw [h]

theorem Placement.aborted_cutting {p : Placement} (h : p.state = .cutting) :
    p.aborted = { p with state := .spoiled, cause := some .hideAborted } := by
  unfold Placement.aborted
  rw [h]

theorem Placement.aborted_ended {p : Placement} (h : p.state.live = false) : p.aborted = p := by
  unfold Placement.aborted
  cases hs : p.state with
  | placed | claimed | cutting =>
    rw [hs] at h
    cases h
  | cut | spoiled | missed | withdrawn => rfl

/-- What an abort makes of the records. -/
def abortChange (k : Ctx) : Change := fun _ p => if p.ctx = k then p.aborted else p

theorem abortChange_ctx (k : Ctx) (n : SlotNo) (p : Placement) : (abortChange k n p).ctx = p.ctx := by
  unfold abortChange
  split
  · unfold Placement.aborted
    split <;> rfl
  · rfl

/-- The flag of an aborted cut (R112). -/
def Placement.losesCut (p : Placement) (m : Notice) : Prop := p.state = .cutting ∧ ∃ h, p.head = some h ∧ m = .cutAborted h

theorem Event.abortCutting_recasts {e : Event} {n : SlotNo} {p : Placement} (hp : e.state.slots[n] = some p)
    (hs : p.state = .cutting) {o : Option Head} : p.head = o →
    e.Recasts (match o with | some h => e.abortCut h n .hideAborted | none => e.spoil n .hideAborted) n p p.aborted
      p.losesCut := by
  intro ho
  have h := Event.spoil_recasts (told := fun _ => False) hp (.inl hs) .hideAborted fun _ => id
  rw [Placement.aborted_cutting hs]
  cases o with
  | none =>
    refine ⟨h.turns, h.state, h.keeps, h.tells, fun m hm => ?_⟩
    obtain ⟨_, g, hg, _⟩ := hm
    rw [ho] at hg
    cases hg
  | some g =>
    refine h.raise fun m hm => ?_
    obtain ⟨_, g', hg, rfl⟩ := hm
    rw [Option.some.inj (ho.symm.trans hg)]

theorem Event.abortSlot_recasts (k : Ctx) {e : Event} {n : SlotNo} {p : Placement} (hp : e.state.slots[n] = some p) :
    e.Recasts (Event.abortSlot k e n) n p (abortChange k n p) fun m => p.ctx = k ∧ p.losesCut m := by
  unfold Event.abortSlot abortChange
  rw [hp]
  dsimp only
  by_cases hk : p.ctx = k
  · rw [if_neg (not_not.mpr hk), if_pos hk]
    have hquiet : p.state ≠ .cutting → ∀ m, ¬ (p.ctx = k ∧ p.losesCut m) := fun hs m hm => hs hm.2.1
    have hstay : p.state.live = false → e.Recasts e n p p.aborted fun m => p.ctx = k ∧ p.losesCut m := fun hs => by
      rw [Placement.aborted_ended hs]
      exact Event.Recasts.stays hp (hquiet fun hc => by rw [hc] at hs; cases hs)
    split
    · rename_i hs
      rw [Placement.aborted_uncut (.inl hs)]
      exact Event.withdraw_recasts hp (.inl hs) _ (hquiet (by rw [hs]; decide))
    · rename_i hs
      rw [Placement.aborted_uncut (.inr hs)]
      exact Event.withdraw_recasts hp (.inr hs) _ (hquiet (by rw [hs]; decide))
    · rename_i h hs hh
      have hc := Event.abortCutting_recasts hp hs hh
      exact ⟨hc.turns, hc.state, hc.keeps, hc.tells, fun m hm => hc.told m hm.2⟩
    · rename_i hs hh
      have hc := Event.abortCutting_recasts hp hs hh
      exact ⟨hc.turns, hc.state, hc.keeps, hc.tells, fun m hm => hc.told m hm.2⟩
    all_goals
      rename_i hs
      exact hstay (by rw [hs]; rfl)
  · rw [if_pos hk, if_neg hk]
    exact Event.Recasts.stays hp fun m hm => hk hm.1

/-! ### The pass over the slots -/

theorem State.usedSlots_eq (s : State) : s.usedSlots = (List.finRange 256).filter fun n => (s.slots[n]).isSome := by
  unfold State.usedSlots State.records
  rw [indexed_eq, List.filterMap_map, List.map_filterMap, ← List.filterMap_eq_filter]
  congr 1
  funext n
  have key : ∀ o : Option Placement, (o.map fun r => (n, r)).map (fun r => r.1) = if o.isSome then some n else none := by
    intro o
    cases o <;> rfl
  exact key s.slots[n]

theorem State.mem_usedSlots {s : State} {n : SlotNo} : n ∈ s.usedSlots ↔ ∃ p, s.slots[n] = some p := by
  rw [State.usedSlots_eq]
  simp [Option.isSome_iff_exists]

theorem State.abortPieces_recast (s : State) (k : Ctx) : (s.abortStart k).begin.Recast (abortChange k)
    (fun _ p m => p.ctx = k ∧ p.losesCut m) (s.abortPieces k) (s.abortStart k).usedSlots := by
  have hnd : (s.abortStart k).usedSlots.Nodup := by
    rw [State.usedSlots_eq]
    exact (List.nodup_finRange 256).filter _
  refine Event.foldl_recast (Event.abortSlot k) (fun x n hn => ?_) (fun x n p _ hp => Event.abortSlot_recasts k hp)
    (s.abortStart k).usedSlots (.refl _ _ _) hnd
  unfold Event.abortSlot
  rw [hn]

/-! ### The Search Unit of an abort (R95) -/

/-- The unit is not at work on a context. -/
def SearchState.awayFrom (u : SearchState) (k : Ctx) : Prop :=
  (∀ q, u = .searching q → q.pair.ctx ≠ k) ∧ ∀ q, u = .stalled q → q.ctx ≠ k

theorem SearchState.idle_awayFrom (k : Ctx) : SearchState.awayFrom .idle k :=
  ⟨fun _ h => (by cases h), fun _ h => (by cases h)⟩

theorem Event.startPair_awayFrom (e : Event) {q : Pair} (n : Nat) {k : Ctx} (h : q.ctx ≠ k) :
    (e.startPair q n).state.searchUnit.awayFrom k := by
  unfold Event.startPair
  split
  · exact SearchState.idle_awayFrom k
  · refine ⟨fun r hr => ?_, fun _ hr => (by cases hr)⟩
    obtain rfl := SearchState.searching.inj hr
    exact h

theorem State.firstPair_opened {s : State} {q : Pair} (h : s.firstPair = some q) : (s.ctxs[q.ctx]).state = .opened := by
  have hq := List.mem_of_mem_head? (Option.mem_def.mpr h)
  obtain ⟨e, _, hk⟩ := List.mem_flatMap.mp hq
  obtain ⟨k, hmem, rfl⟩ := List.mem_map.mp hk
  have hsel := (List.mem_filter.mp hmem).2
  simp only [State.selectable, Bool.and_eq_true, decide_eq_true_eq] at hsel
  exact hsel.1.1.2

theorem Event.runSearchUnit_awayFrom {e : Event} {k : Ctx} (h : e.state.searchUnit.awayFrom k)
    (hk : (e.state.ctxs[k]).state ≠ .opened) : e.runSearchUnit.state.searchUnit.awayFrom k := by
  unfold Event.runSearchUnit
  split
  · unfold Event.select
    split
    · rename_i q hq
      refine Event.startPair_awayFrom e 0 fun hqk => hk ?_
      rw [← hqk]
      exact State.firstPair_opened hq
    · unfold Event.judgeWindow
      rw [Event.on_state, Event.raiseIf_state]
      exact h
  · exact h
  · rename_i q hq
    split
    · exact Event.startPair_awayFrom e 0 (h.2 q hq)
    · exact h

/-- A tail brings no search to a CLOSED context. -/
theorem settle_awayFrom (before : State) {e : Event} {k : Ctx} (h : e.state.searchUnit.awayFrom k)
    (hk : (e.state.ctxs[k]).state = .closed) : (settle before e).searchUnit.awayFrom k := by
  have hctx := settle_ctx before e k (by rw [hk]; decide)
  rw [settle_ctxs] at hctx
  rw [settle_searchUnit]
  refine Event.runSearchUnit_awayFrom ?_ ?_
  · rw [e.closed_calm.1]
    exact h
  · rw [hctx, hk]
    decide

theorem State.abortStart_awayFrom (s : State) (k : Ctx) : (s.abortStart k).searchUnit.awayFrom k := by
  unfold State.abortStart
  split
  · exact SearchState.idle_awayFrom k
  · rename_i h
    rw [← s.searchesOn_advanceScan] at h
    show s.advanceScan.searchUnit.awayFrom k
    unfold State.searchesOn at h
    refine ⟨fun q hq => ?_, fun q hq => ?_⟩ <;> rw [hq] at h <;> simpa using h

/-- A search on the other context goes on through an abort (R78, R95). -/
theorem State.abortStart_goesOn {s : State} {k : Ctx} {q : Search} (hq : s.searchUnit = .searching q)
    (hk : q.pair.ctx ≠ k) : ∃ r, (s.abortStart k).searchUnit = .searching r ∧ q.goesOn r := by
  have hno : s.searchesOn k = false := by
    unfold State.searchesOn
    rw [hq]
    exact decide_eq_false hk
  have hadv : ∃ m, s.advanceScan.searchUnit = .searching (s.scanOn q m) := by
    unfold State.advanceScan
    rw [hq]
    exact ⟨_, rfl⟩
  obtain ⟨m, hm⟩ := hadv
  unfold State.abortStart
  rw [hno]
  exact ⟨_, hm, rfl, rfl, rfl, Nat.le_add_right _ _⟩

/-! ### What an abort makes of the state -/

section
variable (s : State) (k : Ctx)

theorem State.abort_starts : s.Starts (s.abortStart k).begin := by
  refine ⟨?_, ?_, ?_, ?_, ?_⟩ <;> show _ = _ <;> rw [State.begin, State.abortStart_rest]

theorem State.aborting_rest : (s.aborting k).state = { (s.abortPieces k).state with
    ctxs := (s.abortPieces k).state.ctxs.set k
      { (s.abortPieces k).state.ctxs[k] with state := .closed, aborted := true } } := by
  rw [State.aborting_eq]
  rfl

theorem State.aborting_tells : (s.aborting k).raised .hideClosed ∧ (s.aborting k).raised .hideClosedMarking ∧
    ∀ m, (s.abortPieces k).raised m → (s.aborting k).raised m := by
  rw [State.aborting_eq]
  exact ⟨Event.raised_raise _ _ _ (Event.raised_raise_self _ _), Event.raised_raise_self _ _,
    fun m hm => Event.raised_raise _ _ _ (Event.raised_raise _ _ _ hm)⟩

theorem State.aborting_notices : (s.aborting k).state.notices = s.notices := by
  rw [State.aborting_rest, (s.abortPieces_pieces k).rest, State.abortStart_rest]

theorem State.abort_ends : s.Ends (s.abortPieces k) (s.abort k) := by
  have h : s.Ends (s.aborting k) (s.abort k) := settle_ends s.advanceScan (s.aborting_notices k)
  have hr := s.aborting_rest k
  refine ⟨?_, ?_, ?_, ?_, fun g => ?_, fun j => ?_, fun m hm => h.flags m ((s.aborting_tells k).2.2 m hm)⟩
  · rw [h.slots, hr]
  · rw [h.entries, hr]
  · rw [h.withdrawn, hr]
  · rw [h.planes, hr]
  · rw [h.held, hr]
  · have hm := h.marks j
    rw [hr] at hm
    exact hm

theorem State.abort_closed : s.raises (s.abort k) .hideClosed ∧ s.raises (s.abort k) .hideClosedMarking := by
  have h : s.Ends (s.aborting k) (s.abort k) := settle_ends s.advanceScan (s.aborting_notices k)
  exact ⟨h.flags _ (s.aborting_tells k).1, h.flags _ (s.aborting_tells k).2.1⟩

theorem State.abort_marks (j : Ctx) : (s.abort k).marks[j] =
    if (s.abortStart k).usedSlots.any ((s.abortStart k).goesFrom (abortChange k) j) then 0 else s.marks[j] := by
  unfold State.abort
  rw [settle_marks, State.aborting_rest]
  dsimp only
  rw [(s.abortPieces_recast k).marks, (s.abort_starts k).marks]
  rfl

theorem State.aborting_ctx : ((s.aborting k).state.ctxs)[k] = { s.ctxs[k] with state := .closed, aborted := true } := by
  rw [State.aborting_rest]
  dsimp only
  rw [get_set, if_pos rfl, (s.abortPieces_pieces k).rest]
  dsimp only
  rw [State.abortStart_rest]

theorem State.abort_ctx : (s.abort k).ctxs[k] = { s.ctxs[k] with state := .closed, aborted := true } := by
  unfold State.abort
  rw [settle_ctx _ _ _ (by rw [State.aborting_ctx]; simp), State.aborting_ctx]

theorem State.aborting_searchUnit : (s.aborting k).state.searchUnit = (s.abortStart k).searchUnit := by
  rw [State.aborting_rest, (s.abortPieces_pieces k).rest]

theorem State.abort_awayFrom : (s.abort k).searchUnit.awayFrom k := by
  refine settle_awayFrom _ ?_ ?_
  · rw [State.aborting_searchUnit]
    exact s.abortStart_awayFrom k
  · rw [State.aborting_ctx]

theorem State.abort_goesOn {q : Search} (hq : s.searchUnit = .searching q) (hk : q.pair.ctx ≠ k) :
    ∃ r, (s.abort k).searchUnit = .searching r ∧ q.goesOn r := by
  obtain ⟨r, hr, hon⟩ := State.abortStart_goesOn hq hk
  exact ⟨r, settle_searching _ _ r ((s.aborting_searchUnit k).trans hr), hon⟩

theorem State.aborting_work : (s.aborting k).state.flaws = s.flaws.set k ((s.flaws[k]).map Flaw.abandoned) ∧
    (s.aborting k).state.jobs = s.jobs.filter (fun j => j.ctx ≠ k) ∧
    (s.aborting k).state.inFlight = s.inFlight.filter (fun j => j.ctx ≠ k) := by
  rw [State.aborting_rest, (s.abortPieces_pieces k).rest, State.abortStart_rest]
  exact ⟨rfl, rfl, rfl⟩

/-- The tail starts only jobs of the other context: those of this one are gone (R39). -/
theorem State.abort_work : (s.abort k).flaws[k] = (s.flaws[k]).map Flaw.abandoned ∧
    (∀ j ∈ (s.abort k).jobs, j.ctx ≠ k) ∧ ∀ j, (s.abort k).inFlight = some j → j.ctx ≠ k := by
  obtain ⟨hflaws, hjobs, hflight⟩ := s.aborting_work k
  have hgone : ∀ j ∈ (s.aborting k).state.jobs, j.ctx ≠ k := by
    rw [hjobs]
    intro j hj
    exact of_decide_eq_true (List.mem_filter.mp hj).2
  obtain ⟨hq, hf⟩ := settle_queue s.advanceScan (s.aborting k)
  refine ⟨?_, fun j hj => hgone j (hq j hj), fun j hj => ?_⟩
  · unfold State.abort
    rw [settle_flaws_apart _ _ _ hgone, hflaws, get_set, if_pos rfl]
  · rcases hf j hj with h | h
    · rw [hflight] at h
      exact of_decide_eq_true (Option.filter_eq_some_iff.mp h).2
    · exact hgone j h

theorem State.abort_rest : (s.abort k).ports = s.ports ∧ (s.abort k).patterns = s.patterns ∧
    (s.abort k).postCounter = s.postCounter := by
  have htail := settle_tail s.advanceScan (s.aborting k)
  have hr : (s.aborting k).state.ports = s.ports ∧ (s.aborting k).state.patterns = s.patterns ∧
      (s.aborting k).state.postCounter = s.postCounter := by
    rw [State.aborting_rest, (s.abortPieces_pieces k).rest, State.abortStart_rest]
    exact ⟨rfl, rfl, rfl⟩
  exact ⟨htail.ports.trans hr.1, htail.patterns.trans hr.2.1, htail.postCounter.trans hr.2.2⟩

theorem State.abort_sameSettings : s.sameSettings (s.abort k) := by
  refine State.sameSettings_trans ?_ (settle_tail s.advanceScan (s.aborting k)).sameSettings
  rw [State.aborting_rest, (s.abortPieces_pieces k).rest, State.abortStart_rest]
  exact State.sameSettings_refl s

theorem State.abort_headState (h : Head) : ((s.abort k).heads[h]).state = (s.heads[h]).state := by
  unfold State.abort
  rw [settle_headState, State.aborting_rest]
  dsimp only
  rw [(s.abortPieces_pieces k).head h]
  dsimp only
  rw [State.abortStart_rest]

end

end Sys2Proof.Machine
end

section
/-!
PROOFS. HIDE ABORT and HIDE RELEASE: what an abort makes of the records and the cells, and what a release leaves (R112,
R113, R127, R128).
-/

namespace Sys2Proof.Machine

open Sys2Proof

/-! ### The records of an aborted context -/

theorem abortChange_gone (k : Ctx) (n : SlotNo) (p : Placement) : p.gone (abortChange k n p) =
    (decide (p.ctx = k) && decide (p.state = .placed ∨ p.state = .claimed)) := by
  unfold abortChange
  by_cases hk : p.ctx = k
  · rw [if_pos hk]
    unfold Placement.gone Placement.aborted
    cases hs : p.state <;> simp [hk, hs]
  · rw [if_neg hk, Placement.gone_same]
    simp [hk]

theorem abortChange_dropped (k : Ctx) (n : SlotNo) (p : Placement) : p.dropped (abortChange k n p) =
    (decide (p.ctx = k) && decide (p.state = .claimed ∨ p.state = .cutting)) := by
  unfold abortChange
  by_cases hk : p.ctx = k
  · rw [if_pos hk]
    unfold Placement.dropped Placement.aborted
    cases p.state <;> simp [hk]
  · rw [if_neg hk, Placement.dropped_same]
    simp [hk]

section
variable (s : State) (k : Ctx)

theorem State.abortStart_slots : (s.abortStart k).slots = s.slots := (s.abort_starts k).slots

/-- A slot whose record, of context j, an abort of context k withdraws. -/
theorem State.abortStart_goesFrom (j : Ctx) (n : SlotNo) : (s.abortStart k).goesFrom (abortChange k) j n =
    (s.slots[n]).any fun p => decide (p.ctx = j) && (decide (p.ctx = k) && decide (p.state = .placed ∨ p.state = .claimed)) := by
  unfold State.goesFrom
  rw [State.abortStart_slots]
  simp only [abortChange_gone]

theorem State.abort_any (j : Ctx) : (s.abortStart k).usedSlots.any ((s.abortStart k).goesFrom (abortChange k) j) = true ↔
    ∃ (n : SlotNo) (r : Placement), s.slots[n] = some r ∧ r.ctx = j ∧ r.ctx = k ∧ (r.state = .placed ∨ r.state = .claimed) := by
  rw [List.any_eq_true]
  constructor
  · rintro ⟨n, _, hn⟩
    rw [State.abortStart_goesFrom, Option.any_eq_true] at hn
    obtain ⟨r, hr, hg⟩ := hn
    simp only [Bool.and_eq_true, decide_eq_true_eq] at hg
    exact ⟨n, r, hr, hg⟩
  · rintro ⟨n, r, hr, hg⟩
    refine ⟨n, State.mem_usedSlots.mpr ⟨r, by rw [State.abortStart_slots, hr]⟩, ?_⟩
    rw [State.abortStart_goesFrom, Option.any_eq_true]
    refine ⟨r, hr, ?_⟩
    simp only [Bool.and_eq_true, decide_eq_true_eq]
    exact hg

theorem State.abort_marks_cleared (h : ∃ (n : SlotNo) (r : Placement), s.slots[n] = some r ∧ r.ctx = k ∧
    (r.state = .placed ∨ r.state = .claimed)) : (s.abort k).marks[k] = 0 := by
  obtain ⟨n, r, hr, hk, hs⟩ := h
  rw [State.abort_marks, if_pos ((s.abort_any k k).mpr ⟨n, r, hr, hk, hk, hs⟩)]

theorem State.abort_marks_kept (h : ∀ (n : SlotNo) (r : Placement), s.slots[n] = some r → r.ctx = k →
    r.state ≠ .placed ∧ r.state ≠ .claimed) : (s.abort k).marks[k] = s.marks[k] := by
  rw [State.abort_marks, if_neg]
  intro hg
  obtain ⟨n, r, hr, hk, _, hs⟩ := (s.abort_any k k).mp hg
  obtain ⟨h1, h2⟩ := h n r hr hk
  exact hs.elim h1 h2

theorem State.abort_any_other : ¬ (s.abortStart k).usedSlots.any
    ((s.abortStart k).goesFrom (abortChange k) (otherCtx k)) = true := by
  intro hg
  obtain ⟨_, r, _, hj, hk, _⟩ := (s.abort_any k (otherCtx k)).mp hg
  exact otherCtx_ne k (hj.symm.trans hk)

theorem State.abort_marks_other : (s.abort k).marks[otherCtx k] = s.marks[otherCtx k] := by
  rw [State.abort_marks, if_neg (s.abort_any_other k)]

theorem State.abort_planes_other : (s.abort k).planes[otherCtx k] = s.planes[otherCtx k] := by
  rw [(s.abort_ends k).planes, (s.abortPieces_recast k).planes _ (Bool.eq_false_iff.mpr (s.abort_any_other k))]
  show (s.abortStart k).planes[otherCtx k] = _
  rw [State.abortStart_rest]

theorem State.abort_freesCells (hw : s.planesWf) :
    s.freesCells (s.abort k) k fun r => r.ctx = k ∧ (r.state = .placed ∨ r.state = .claimed) := by
  have hplanes : (s.abortStart k).planes = s.planes := by rw [State.abortStart_rest]
  have hw' : (s.abortStart k).begin.state.planesWf := fun j => by
    show ((s.abortStart k).planes[j]).wf = true
    rw [hplanes]
    exact hw j
  intro a
  have hcell : ((s.abort k).planes[k]).read a = ((s.planes[k]).read a).without fun n =>
      decide (n ∈ (s.abortStart k).usedSlots) && (s.abortStart k).goesFrom (abortChange k) k n := by
    rw [(s.abort_ends k).planes, (s.abortPieces_recast k).cells hw' k a]
    show (((s.abortStart k).planes[k]).read a).without _ = _
    rw [hplanes]
    rfl
  rw [hcell]
  refine ⟨fun n r ho hr hg => Cell.without_some ho ?_, fun h => Cell.without_none fun n ho => ?_⟩
  · rw [State.abortStart_goesFrom, hr]
    have hm : n ∈ (s.abortStart k).usedSlots := State.mem_usedSlots.mpr ⟨r, by rw [State.abortStart_slots, hr]⟩
    simp [hm, hg.1, hg.2]
  · rw [State.abortStart_goesFrom]
    cases hr : s.slots[n] with
    | none => simp
    | some r =>
      have hno := h n r ho hr
      rw [not_and] at hno
      by_cases hk : r.ctx = k
      · obtain ⟨h1, h2⟩ := not_or.mp (hno hk)
        simp [h1, h2]
      · simp [hk]

theorem State.abort_slot {n : SlotNo} {r : Placement} (hr : s.slots[n] = some r) :
    (s.abort k).slots[n] = some (abortChange k n r) :=
  (s.abortPieces_recast k).slot_changed (s.abort_starts k) (s.abort_ends k)
    (State.mem_usedSlots.mpr ⟨r, by rw [State.abortStart_slots, hr]⟩) hr

theorem State.abort_slot_other {n : SlotNo} (h : ∀ r, s.slots[n] = some r → r.ctx ≠ k) :
    (s.abort k).slots[n] = s.slots[n] := by
  cases hr : s.slots[n] with
  | none =>
    rw [(s.abortPieces_recast k).slot_end (s.abort_starts k) (s.abort_ends k), hr]
    exact ite_self _
  | some r =>
    rw [State.abort_slot s k hr]
    unfold abortChange
    rw [if_neg (h r hr)]

/-- A flag that the pass raises for a record. -/
theorem State.abort_flags {n : SlotNo} {r : Placement} (hr : s.slots[n] = some r) {m : Notice}
    (h : r.tells (abortChange k n r) m ∨ (r.ctx = k ∧ r.losesCut m)) : s.raises (s.abort k) m :=
  (s.abort_ends k).flags m ((s.abortPieces_recast k).tells n
    (State.mem_usedSlots.mpr ⟨r, by rw [State.abortStart_slots, hr]⟩) r (by
      show (s.abortStart k).slots[n] = _
      rw [State.abortStart_slots, hr]) m h)

/-- What an abort makes of a record of its context, and whom it tells (R112). -/
theorem State.abort_record {n : SlotNo} {r : Placement} (hr : s.slots[n] = some r) (hk : r.ctx = k) :
    ((r.state = .placed ∨ r.state = .claimed) →
      (s.abort k).slots[n] = some { r with state := .withdrawn, cause := some .hideAborted } ∧
      s.raises (s.abort k) .placementWithdrawn ∧
      ∀ h, r.state = .claimed → r.head = some h → s.raises (s.abort k) (.claimLost h)) ∧
    (r.state = .cutting →
      (s.abort k).slots[n] = some { r with state := .spoiled, cause := some .hideAborted } ∧
      s.raises (s.abort k) .pieceSpoiled ∧ ∀ h, r.head = some h → s.raises (s.abort k) (.cutAborted h)) ∧
    (r.state.live = false → (s.abort k).slots[n] = some r) := by
  have hslot := s.abort_slot k hr
  have hchange : abortChange k n r = r.aborted := if_pos hk
  refine ⟨fun hs => ?_, fun hs => ?_, fun hs => ?_⟩
  · have hg : r.gone (abortChange k n r) = true := by
      rw [abortChange_gone]
      simp [hk, hs]
    refine ⟨by rw [hslot, hchange, Placement.aborted_uncut hs], s.abort_flags k hr (.inl (.inl ⟨hg, .inl rfl⟩)),
      fun h hc hh => s.abort_flags k hr (.inl (.inl ⟨hg, .inr ⟨h, hc, hh, rfl⟩⟩))⟩
  · refine ⟨by rw [hslot, hchange, Placement.aborted_cutting hs], s.abort_flags k hr (.inl (.inr ⟨?_, ?_, rfl⟩)),
      fun h hh => s.abort_flags k hr (.inr ⟨hk, hs, h, hh, rfl⟩)⟩
    · rw [hs]
      decide
    · rw [hchange, Placement.aborted_cutting hs]
  · rw [hslot, hchange, Placement.aborted_ended hs]

/-- A held list after an abort has lost the claims and cuts of the context (R112, R143). -/
theorem State.abort_held (h : Head) : ((s.abort k).heads[h]).held = (s.heads[h]).held.filter fun y =>
    !((s.slots[y.slot]).any fun r =>
      decide (r.ctx = k) && decide (r.state = .claimed ∨ r.state = .cutting) && decide (r.head = some h)) := by
  rw [(s.abort_ends k).held, (s.abortPieces_recast k).held, (s.abort_starts k).heads]
  refine List.filter_congr fun y _ => ?_
  congr 1
  unfold State.dropsFrom
  show (decide (y.slot ∈ (s.abortStart k).usedSlots) && ((s.abortStart k).slots[y.slot]).any _) = _
  rw [State.abortStart_slots]
  simp only [abortChange_dropped]
  cases hr : s.slots[y.slot] with
  | none => simp
  | some r =>
    have hm : y.slot ∈ (s.abortStart k).usedSlots := State.mem_usedSlots.mpr ⟨r, by rw [State.abortStart_slots, hr]⟩
    rw [decide_eq_true hm, Bool.true_and, Option.any_some, Option.any_some, Bool.and_comm]

theorem State.abort_recounted : s.recounted (s.abort k) :=
  (s.abortPieces_recast k).recounted_end (s.abort_starts k) (s.abort_ends k)

theorem State.abort_withdrawnJoin : s.withdrawnJoin (s.abort k) :=
  (s.abortPieces_recast k).withdrawnJoin (s.abort_starts k) (s.abort_ends k) (s.abortStart k).usedSlots_eq

end

/-! ### HIDE ABORT refuses and takes (R127) -/

theorem exec_hideAbort_refuses {s : State} {pl : List Byte} {c : Code} (ht : s.takes 0) (hl : pl.length = 1)
    (ho : hideAbortOwner 0 pl (s.hunt 0) = (s.hunt 0, .refuse c)) :
    exec (.hideAbort 0 pl) s = .next (s.refused .hideAbort 0 c) :=
  request_refuses .hideAbort hideAbortOwner 0 pl s c ht rfl (decide_eq_true hl) ho

theorem exec_hideRelease_refuses {s : State} {pl : List Byte} {c : Code} (ht : s.takes 0) (hl : pl.length = 1)
    (ho : hideReleaseOwner 0 pl (s.hunt 0) = (s.hunt 0, .refuse c)) :
    exec (.hideRelease 0 pl) s = .next (s.refused .hideRelease 0 c) :=
  request_refuses .hideRelease hideReleaseOwner 0 pl s c ht rfl (decide_eq_true hl) ho

theorem hideAbortOwner_noCtx {pl : List Byte} (h : 1 < u8 pl 0) (s : State) :
    hideAbortOwner 0 pl s = (s, .refuse .range) := by
  unfold hideAbortOwner
  rw [index?_none h]

theorem hideReleaseOwner_noCtx {pl : List Byte} (h : 1 < u8 pl 0) (s : State) :
    hideReleaseOwner 0 pl s = (s, .refuse .range) := by
  unfold hideReleaseOwner
  rw [index?_none h]

theorem hideAbortOwner_dead {pl : List Byte} {s : State} {k : Ctx} (hk : u8 pl 0 = k.val)
    (h : (s.ctxs[k]).state = .empty ∨ (s.ctxs[k]).state = .closed) : hideAbortOwner 0 pl s = (s, .refuse .state) := by
  unfold hideAbortOwner
  rw [index?_of_eq k hk]
  exact if_pos (by rcases h with h | h <;> rw [h] <;> decide)

theorem hideReleaseOwner_open {pl : List Byte} {s : State} {k : Ctx} (hk : u8 pl 0 = k.val)
    (h : (s.ctxs[k]).state ≠ .closed) : hideReleaseOwner 0 pl s = (s, .refuse .state) := by
  unfold hideReleaseOwner
  rw [index?_of_eq k hk]
  exact if_pos h

/-- The reply of an abort counts what it ends. -/
def State.abortReply (s : State) (k : Ctx) : List Byte :=
  enc1 k.val ++ enc2 (s.records.countP fun r => r.2.ctx = k && (r.2.state = .placed || r.2.state = .claimed)) ++
    enc1 (s.records.countP fun r => r.2.ctx = k && r.2.state = .cutting)

theorem hideAbortOwner_accepts {pl : List Byte} {s : State} {k : Ctx} (hk : u8 pl 0 = k.val)
    (h : (s.ctxs[k]).state = .opened ∨ (s.ctxs[k]).state = .draining) :
    hideAbortOwner 0 pl s = (s.abort k, .accept (s.abortReply k)) := by
  unfold hideAbortOwner
  rw [index?_of_eq k hk]
  exact if_neg (by rcases h with h | h <;> rw [h] <;> decide)

theorem hideReleaseOwner_accepts {pl : List Byte} {s : State} {k : Ctx} (hk : u8 pl 0 = k.val)
    (h : (s.ctxs[k]).state = .closed) :
    hideReleaseOwner 0 pl s = (s.release k, .accept (enc1 k.val ++ enc2 (s.slotsOf k).length)) := by
  unfold hideReleaseOwner
  rw [index?_of_eq k hk]
  exact if_neg (not_not.mpr h)

theorem Flaw.abandoned_eq (f : Flaw) : f.abandoned =
    if f.state = .pending ∨ f.state = .withdrawing then { f with state := .withdrawn } else f := by
  unfold Flaw.abandoned
  cases hs : f.state <;> simp [FlawState.due]

end Sys2Proof.Machine
end

section
/-!
PROOFS. Slots freed in order (R62, R67, R92, R113): what their records' loss makes of the queue, the marks and the patterns.
-/

namespace Sys2Proof.Machine

open Sys2Proof

/-! ### An entry that slots name no longer (R62, R67) -/

/-- What is left of an entry of the queue when a slot names a tag no longer. -/
def Entry.left (u : Tag) (x : Entry) : Option Entry :=
  if x.tag = u then
    if ({ x with holders := x.holders - 1 } : Entry).done then none else some { x with holders := x.holders - 1 }
  else some x

/-- Whether an entry leaves the queue with some of its holders. -/
def Entry.leaves (c : Nat) (x : Entry) : Bool := decide (0 < c) && decide (x.state ≠ .opened) && decide (x.holders ≤ c)

/-- What is left of an entry that some slots name no longer. -/
def Entry.leftAfter (c : Nat) (x : Entry) : Option Entry :=
  if x.leaves c then none else some { x with holders := x.holders - c }

theorem Entry.left_tag {u : Tag} {x y : Entry} (h : x.left u = some y) : y.tag = x.tag := by
  unfold Entry.left at h
  split at h
  · split at h
    · cases h
    · rw [← Option.some.inj h]
  · rw [← Option.some.inj h]

theorem Entry.left_pattern {u : Tag} {x y : Entry} (h : x.left u = some y) : y.pattern = x.pattern := by
  unfold Entry.left at h
  split at h
  · split at h
    · cases h
    · rw [← Option.some.inj h]
  · rw [← Option.some.inj h]

theorem Entry.left_other {u : Tag} {x : Entry} (h : x.tag ≠ u) : x.left u = some x := if_neg h

theorem Entry.left_of_needed {x : Entry} (h : x.state = .opened ∨ 1 < x.holders) :
    x.left x.tag = some { x with holders := x.holders - 1 } := by
  unfold Entry.left
  rw [if_pos rfl, if_neg]
  unfold Entry.done
  rcases h with h | h
  · simp [h]
  · have : x.holders - 1 ≠ 0 := by omega
    simp [this]

theorem Entry.left_of_done {x : Entry} (ho : x.state ≠ .opened) (hh : x.holders ≤ 1) : x.left x.tag = none := by
  unfold Entry.left
  have : x.holders - 1 = 0 := by omega
  rw [if_pos rfl, if_pos]
  simp [Entry.done, ho, this]

/-- One holder less and then some more. -/
theorem Entry.left_leftAfter (u : Tag) (c : Nat) (x : Entry) :
    (x.left u).bind (Entry.leftAfter c) = x.leftAfter (c + (decide (x.tag = u)).toNat) := by
  by_cases hu : x.tag = u
  · subst hu
    have hc : c + (decide (x.tag = x.tag)).toNat = c + 1 := by simp
    rw [hc]
    by_cases hn : x.state = .opened ∨ 1 < x.holders
    · rw [Entry.left_of_needed hn, Option.bind_some]
      unfold Entry.leftAfter Entry.leaves
      rcases hn with ho | hh
      · simp [ho, Nat.sub_sub, Nat.add_comm]
      · by_cases ho : x.state = .opened
        · simp [ho, Nat.sub_sub, Nat.add_comm]
        · by_cases hl : x.holders ≤ c + 1
          · have h1 : 0 < c := by omega
            have h2 : x.holders - 1 ≤ c := by omega
            simp [ho, hl, h1, h2]
          · have h2 : ¬ x.holders - 1 ≤ c := by omega
            simp [hl, h2, Nat.sub_sub, Nat.add_comm]
    · obtain ⟨ho, hh⟩ := not_or.mp hn
      have h1 : x.holders ≤ 1 := by omega
      have h2 : x.holders ≤ c + 1 := by omega
      rw [Entry.left_of_done ho h1]
      simp [Entry.leftAfter, Entry.leaves, ho, h2]
  · rw [Entry.left_other hu]
    simp [hu]

theorem Entry.leftAfter_zero (x : Entry) : x.leftAfter 0 = some x := by simp [Entry.leftAfter, Entry.leaves]

theorem Entry.isNone_leftAfter (c : Nat) (x : Entry) : (x.leftAfter c).isNone = x.leaves c := by
  unfold Entry.leftAfter
  split
  · rename_i h
    rw [h]
    rfl
  · rename_i h
    rw [Bool.eq_false_iff.mpr h]
    rfl

/-! ### One slot named no longer -/

/-- A tag held once: the entries with the tag of one are that one. -/
theorem eq_of_tag {es : List Entry} (hn : (es.map Entry.tag).Nodup) {x e : Entry} (hx : x ∈ es) (he : e ∈ es)
    (h : x.tag = e.tag) : x = e := List.inj_on_of_nodup_map hn hx he h

theorem countP_eq_toNat {es : List Entry} (hn : (es.map Entry.tag).Nodup) {e : Entry} (he : e ∈ es) {P : Entry → Bool}
    (h : ∀ x ∈ es, P x = true → x.tag = e.tag) : es.countP P = (P e).toNat := by
  rw [(entries_perm hn he).countP_eq, toNat_countP_cons]
  have hrest : (es.filter fun x => x.tag ≠ e.tag).countP P = 0 := by
    rw [List.countP_eq_zero]
    intro x hx hp
    obtain ⟨hm, hne⟩ := List.mem_filter.mp hx
    exact of_decide_eq_true hne (h x hm hp)
  omega

/-- What a state keeps and loses when slots name tags no longer, the queue's loss given for each entry. -/
structure State.Sheds (s t : State) (left : Entry → Option Entry) : Prop where
  entries : t.entries = s.entries.filterMap left
  marked : ∀ (v : Tag) (j : Ctx), t.marked v j = (s.marked v j && !(s.entries.any fun x =>
    decide (x.tag = v) && (left x).isNone))
  refs : ∀ m : PatNo, (t.patterns[m]).refs = (s.patterns[m]).refs - s.entries.countP fun x =>
    (left x).isNone && decide (x.pattern = m)

theorem State.unmarkTag_marked (s : State) (u v : Tag) (j : Ctx) :
    (s.unmarkTag u).marked v j = (s.marked v j && !decide (u = v)) := by
  have hm : (s.unmarkTag u).marks = s.marks.map fun m => m &&& ~~~(tagBit u) := rfl
  unfold State.marked
  rw [hm, get_map, BitVec.getLsbD_and, BitVec.getLsbD_not]
  have hv : v.val < 64 := v.isLt
  have hbit : (tagBit u).getLsbD v.val = decide (u = v) := by
    unfold tagBit
    rw [BitVec.getLsbD_twoPow]
    simp [Fin.ext_iff]
  rw [hbit]
  simp [hv]

theorem State.dropHolder_sheds {s : State} (hn : (s.entries.map Entry.tag).Nodup) (u : Tag) :
    s.Sheds (s.dropHolder u) (Entry.left u) := by
  cases he : s.entry? u with
  | none =>
    have hno : ∀ x ∈ s.entries, x.tag ≠ u := fun x hx => by
      simpa using List.find?_eq_none.mp he x hx
    have hleft : ∀ x ∈ s.entries, x.left u = some x := fun x hx => Entry.left_other (hno x hx)
    have hupd : (s.updEntry u fun e => { e with holders := e.holders - 1 }).entry? u = none := by
      rw [State.entry?_holderGone, he]
      rfl
    have hdrop : s.dropHolder u = s.updEntry u fun e => { e with holders := e.holders - 1 } := by
      unfold State.dropHolder State.removeIfDone
      rw [hupd]
    rw [hdrop]
    refine ⟨?_, fun v j => ?_, fun m => ?_⟩
    · show s.entries.map _ = _
      rw [List.filterMap_congr hleft, List.filterMap_some]
      exact (List.map_congr_left fun x hx => if_neg (hno x hx)).trans (List.map_id _)
    · have hany : (s.entries.any fun x => decide (x.tag = v) && (x.left u).isNone) = false := by
        rw [List.any_eq_false]
        intro x hx
        simp [hleft x hx]
      rw [hany]
      exact (Bool.and_true _).symm
    · have hcount : s.entries.countP (fun x => (x.left u).isNone && decide (x.pattern = m)) = 0 := by
        rw [List.countP_eq_zero]
        intro x hx
        simp [hleft x hx]
      rw [hcount]
      rfl
  | some e =>
    obtain ⟨hmem, rfl⟩ := State.mem_of_entry? he
    have honly : ∀ x ∈ s.entries, (x.left e.tag).isNone = true → x.tag = e.tag := fun x _ hx => by
      by_contra hne
      rw [Entry.left_other hne] at hx
      cases hx
    have hcount : ∀ m : PatNo, s.entries.countP (fun x => (x.left e.tag).isNone && decide (x.pattern = m)) =
        ((e.left e.tag).isNone && decide (e.pattern = m)).toNat := fun m =>
      countP_eq_toNat hn hmem fun x hx hp => honly x hx (by
        rw [Bool.and_eq_true] at hp
        exact hp.1)
    have hany : ∀ v : Tag, (s.entries.any fun x => decide (x.tag = v) && (x.left e.tag).isNone) =
        (decide (e.tag = v) && (e.left e.tag).isNone) := fun v => by
      rw [Bool.eq_iff_iff, List.any_eq_true]
      constructor
      · rintro ⟨x, hx, hp⟩
        rw [Bool.and_eq_true] at hp
        rw [← eq_of_tag hn hx hmem (honly x hx hp.2), Bool.and_eq_true]
        refine ⟨hp.1, ?_⟩
        rw [← honly x hx hp.2] at hp
        exact hp.2
      · exact fun hp => ⟨e, hmem, hp⟩
    by_cases hd : e.state = .opened ∨ 1 < e.holders
    · have hleft := Entry.left_of_needed hd
      rw [State.dropHolder_of_needed he hd]
      refine ⟨?_, fun v j => ?_, fun m => ?_⟩
      · show s.entries.map _ = _
        rw [← List.filterMap_eq_map]
        refine List.filterMap_congr fun x hx => ?_
        simp only [Function.comp]
        by_cases hx' : x.tag = e.tag
        · rw [eq_of_tag hn hx hmem hx', if_pos rfl, hleft]
        · rw [if_neg hx', Entry.left_other hx']
      · rw [hany, hleft]
        simp [State.marked, State.updEntry]
      · rw [hcount, hleft]
        rfl
    · obtain ⟨ho, hh⟩ := not_or.mp hd
      have hleft := Entry.left_of_done ho (Nat.le_of_not_lt hh)
      rw [State.dropHolder_of_done he ho (Nat.le_of_not_lt hh)]
      refine ⟨?_, fun v j => ?_, fun m => ?_⟩
      · show (s.entries.map _).filter _ = _
        rw [← List.filterMap_eq_map, ← List.filterMap_eq_filter, List.filterMap_filterMap]
        refine List.filterMap_congr fun x hx => ?_
        simp only [Function.comp, Option.bind_some]
        by_cases hx' : x.tag = e.tag
        · rw [eq_of_tag hn hx hmem hx', hleft, if_pos rfl]
          simp [Option.guard]
        · rw [if_neg hx', Entry.left_other hx']
          simp [Option.guard, hx']
      · rw [hany, hleft]
        exact (State.unmarkTag_marked _ e.tag v j).trans (by simp [State.marked, State.updEntry, State.dropRef, State.updPattern])
      · rw [hcount, hleft, State.removed_pattern]
        by_cases hm : e.pattern = m
        · subst hm
          simp [State.updEntry]
        · simp [hm, Ne.symm hm, State.updEntry]

end Sys2Proof.Machine
end

section
/-!
PROOFS. HIDE RELEASE (R113, R128): the slots of a context freed one after another, and the context reset.
-/

namespace Sys2Proof.Machine

open Sys2Proof

/-! ### Many slots freed -/

/-- How many of some records name an entry. -/
def namings (rs : List (SlotNo × Placement)) (u : Tag) : Nat := rs.countP fun r => decide (r.2.tag = u)

/-- What the loss of some records makes of the queue, the marks and the patterns. -/
structure State.Frees (s t : State) (rs : List (SlotNo × Placement)) : Prop where
  entries : t.entries = s.entries.filterMap fun x => x.leftAfter (namings rs x.tag)
  marked : ∀ (v : Tag) (j : Ctx), t.marked v j = (s.marked v j && !(s.entries.any fun x =>
    decide (x.tag = v) && x.leaves (namings rs x.tag)))
  refs : ∀ m : PatNo, (t.patterns[m]).refs = (s.patterns[m]).refs - (rs.countP fun r => decide (r.2.pattern = m)) -
    s.entries.countP fun x => x.leaves (namings rs x.tag) && decide (x.pattern = m)

theorem State.Frees.nil (s : State) : s.Frees s [] where
  entries := by simp [namings, Entry.leftAfter_zero]
  marked v j := by simp [namings, Entry.leaves]
  refs m := by simp [namings, Entry.leaves]

theorem namings_cons (n : SlotNo) (p : Placement) (rs : List (SlotNo × Placement)) (x : Entry) :
    namings ((n, p) :: rs) x.tag = namings rs x.tag + (decide (x.tag = p.tag)).toNat := by
  unfold namings
  rw [toNat_countP_cons]
  simp only [eq_comm]

/-- An entry leaves with one holder, or with those that follow. -/
theorem Entry.leaves_succ (u : Tag) (c : Nat) (x : Entry) :
    x.leaves (c + (decide (x.tag = u)).toNat) = ((x.left u).isNone || (x.left u).any fun y => y.leaves c) := by
  rw [← Entry.isNone_leftAfter, ← Entry.left_leftAfter]
  cases x.left u with
  | none => rfl
  | some y =>
    simp only [Option.bind_some, Option.isNone_some, Option.any_some, Bool.false_or]
    exact Entry.isNone_leftAfter c y

theorem countP_split {α : Type} {P A B : α → Bool} (xs : List α) (h : ∀ x, P x = (A x || B x))
    (hd : ∀ x, A x = true → B x = false) : xs.countP P = xs.countP A + xs.countP B := by
  induction xs with
  | nil => rfl
  | cons x xs ih =>
    rw [toNat_countP_cons, toNat_countP_cons, toNat_countP_cons, ih, h]
    cases hA : A x with
    | true =>
      rw [hd x hA]
      simp
      omega
    | false =>
      simp
      omega

theorem nodup_left {es : List Entry} (hn : (es.map Entry.tag).Nodup) (u : Tag) :
    ((es.filterMap (Entry.left u)).map Entry.tag).Nodup := by
  unfold List.Nodup at hn ⊢
  rw [List.pairwise_map] at hn ⊢
  rw [List.pairwise_filterMap]
  refine hn.imp fun h y hy z hz => ?_
  rw [Entry.left_tag hy, Entry.left_tag hz]
  exact h

theorem any_split {α : Type} {P A B : α → Bool} (xs : List α) (h : ∀ x, P x = (A x || B x)) :
    xs.any P = (xs.any A || xs.any B) := by
  induction xs with
  | nil => rfl
  | cons x xs ih =>
    rw [List.any_cons, List.any_cons, List.any_cons, ih, h]
    cases A x <;> cases B x <;> simp

/-- A slot freed sheds what its record's tag sheds. -/
theorem Event.free_sheds {e : Event} {n : SlotNo} {p : Placement} (hp : e.state.slots[n] = some p)
    (hn : (e.state.entries.map Entry.tag).Nodup) :
    (e.state.emptied n p).Sheds (e.free n).state (Entry.left p.tag) := by
  rw [Event.free_state hp]
  exact State.dropHolder_sheds (s := e.state.emptied n p) hn p.tag

theorem State.emptied_entries (s : State) (n : SlotNo) (p : Placement) : (s.emptied n p).entries = s.entries := rfl

/-- A slot freed, and then some more. -/
theorem State.Frees.cons {e : Event} {n : SlotNo} {p : Placement} {rs : List (SlotNo × Placement)} {t : State}
    (hp : e.state.slots[n] = some p) (hn : (e.state.entries.map Entry.tag).Nodup)
    (h : (e.free n).state.Frees t rs) : e.state.Frees t ((n, p) :: rs) := by
  have hshed := Event.free_sheds hp hn
  have htag : ∀ (x y : Entry), x.left p.tag = some y → namings rs y.tag = namings rs x.tag := fun x y hy => by
    rw [Entry.left_tag hy]
  have hentries : (e.free n).state.entries = e.state.entries.filterMap (Entry.left p.tag) := hshed.entries
  refine ⟨?_, fun v j => ?_, fun m => ?_⟩
  · rw [h.entries, hentries, List.filterMap_filterMap]
    refine List.filterMap_congr fun x _ => ?_
    rw [namings_cons, ← Entry.left_leftAfter]
    cases hy : x.left p.tag with
    | none => rfl
    | some y =>
      simp only [Option.bind_some]
      rw [htag x y hy]
  · rw [h.marked, hentries, hshed.marked, List.any_filterMap, Bool.and_assoc, ← Bool.not_or]
    show (e.state.marked v j && !(e.state.entries.any _ || e.state.entries.any _)) = _
    congr 2
    refine (any_split e.state.entries fun x => ?_).symm
    rw [namings_cons, Entry.leaves_succ]
    cases hy : x.left p.tag with
    | none => simp
    | some y =>
      rw [Option.any_some]
      dsimp only
      rw [htag x y hy, Entry.left_tag hy]
      simp
  · have hempty : ((e.state.emptied n p).patterns[m]).refs =
        (e.state.patterns[m]).refs - (decide (p.pattern = m)).toNat := by
      rw [State.emptied_pattern]
      by_cases hm : m = p.pattern
      · simp [hm]
      · simp [hm, Ne.symm hm]
    have hsplit := countP_split e.state.entries
      (P := fun x => x.leaves (namings ((n, p) :: rs) x.tag) && decide (x.pattern = m))
      (A := fun x => (x.left p.tag).isNone && decide (x.pattern = m))
      (B := fun x => ((x.left p.tag).map fun y => y.leaves (namings rs y.tag) && decide (y.pattern = m)).getD false)
      (fun x => by
        rw [namings_cons, Entry.leaves_succ]
        cases hy : x.left p.tag with
        | none => simp
        | some y =>
          rw [Option.any_some, Option.map_some, Option.getD_some, htag x y hy, Entry.left_pattern hy]
          simp)
      (fun x hx => by
        cases hy : x.left p.tag with
        | none => rfl
        | some y =>
          rw [hy] at hx
          simp at hx)
    rw [h.refs, hshed.refs, hempty, toNat_countP_cons, hsplit, hentries, List.countP_filterMap, State.emptied_entries]
    simp only [Nat.sub_sub]
    congr 1
    omega

theorem Event.freeAll_frees (rs : List (SlotNo × Placement)) {e : Event}
    (hslots : ∀ r ∈ rs, e.state.slots[r.1] = some r.2) (hnd : (rs.map Prod.fst).Nodup)
    (hn : (e.state.entries.map Entry.tag).Nodup) : e.state.Frees (e.freeAll (rs.map Prod.fst)).state rs := by
  induction rs generalizing e with
  | nil => exact .nil _
  | cons r rs ih =>
    obtain ⟨n, p⟩ := r
    have hp : e.state.slots[n] = some p := hslots (n, p) List.mem_cons_self
    rw [List.map_cons, List.nodup_cons] at hnd
    refine State.Frees.cons hp hn (ih (e := e.free n) (fun r hr => ?_) hnd.2 ?_)
    · have hne : r.1 ≠ n := by
        rintro rfl
        exact hnd.1 (List.mem_map.mpr ⟨r, hr, rfl⟩)
      rw [Event.free_slots, if_neg hne]
      exact hslots r (List.mem_cons_of_mem _ hr)
    · rw [(Event.free_sheds hp hn).entries]
      exact nodup_left hn p.tag

end Sys2Proof.Machine
end

section
/-!
PROOFS. HIDE RELEASE (R113, R128), and with HIDE ABORT the statement of both.
-/

namespace Sys2Proof.Machine

open Sys2Proof

/-! ### The records of a released context -/

/-- The slots of a context with their records. -/
def State.recordsOf (s : State) (k : Ctx) : List (SlotNo × Placement) := s.records.filter fun r => r.2.ctx = k

theorem State.slotsOf_eq (s : State) (k : Ctx) : s.slotsOf k = (s.recordsOf k).map Prod.fst := rfl

theorem State.recordsOf_nodup (s : State) (k : Ctx) : ((s.recordsOf k).map Prod.fst).Nodup := by
  have hall : (s.records.map Prod.fst).Nodup := by
    have hused : s.records.map Prod.fst = s.usedSlots := rfl
    rw [hused, State.usedSlots_eq]
    exact (List.nodup_finRange 256).filter _
  exact hall.sublist (List.filter_sublist.map _)

theorem State.namings_recordsOf (s : State) (k : Ctx) (u : Tag) : namings (s.recordsOf k) u = s.namedIn k u := by
  unfold namings State.recordsOf State.namedIn
  rw [List.countP_filter]
  exact List.countP_congr fun _ _ => by rw [Bool.and_comm]

theorem State.leavesQueue_eq (s : State) (k : Ctx) (e : Entry) : s.leavesQueue k e = e.leaves (namings (s.recordsOf k) e.tag) := by
  rw [State.namings_recordsOf]
  rfl

section
variable (s : State) (k : Ctx)

/-- The state of a release once its slots are freed. -/
def State.freed : State := (s.begin.freeAll (s.slotsOf k)).state

theorem State.freed_frees (hn : (s.entries.map Entry.tag).Nodup) : s.Frees (s.freed k) (s.recordsOf k) :=
  Event.freeAll_frees (s.recordsOf k) (e := s.begin)
    (fun _ hr => State.mem_records.mp (List.mem_of_mem_filter hr)) (s.recordsOf_nodup k) hn

theorem State.freed_slot (n : SlotNo) : (s.freed k).slots[n] = (s.slots[n]).filter fun r => r.ctx ≠ k := by
  unfold State.freed
  rw [Event.freeAll_slots]
  show (if n ∈ s.slotsOf k then none else s.slots[n]) = _
  cases hp : s.slots[n] with
  | none => exact ite_self _
  | some p =>
    by_cases hk : p.ctx = k
    · rw [if_pos (State.mem_slotsOf.mpr ⟨p, hp, hk⟩)]
      simp [Option.filter, hk]
    · rw [if_neg fun hm => ?_]
      · simp [Option.filter, hk]
      · obtain ⟨q, hq, hqk⟩ := State.mem_slotsOf.mp hm
        obtain rfl := Option.some.inj (hp.symm.trans hq)
        exact hk hqk

/-- The withdrawn list loses the slots freed, whatever the queue is. -/
theorem Event.freeAll_withdrawn (ns : List SlotNo) (e : Event) (h : ∀ n ∈ ns, ∃ p, e.state.slots[n] = some p)
    (hnd : ns.Nodup) : (e.freeAll ns).state.withdrawn = e.state.withdrawn.filter fun m => decide (m ∉ ns) := by
  induction ns generalizing e with
  | nil => exact (List.filter_eq_self.mpr fun _ _ => by simp).symm
  | cons n ns ih =>
    rw [List.nodup_cons] at hnd
    obtain ⟨p, hp⟩ := h n List.mem_cons_self
    refine (ih (e.free n) (fun m hm => ?_) hnd.2).trans ?_
    · have hne : m ≠ n := by
        rintro rfl
        exact hnd.1 hm
      rw [Event.free_slots, if_neg hne]
      exact h m (List.mem_cons_of_mem _ hm)
    · rw [Event.free_withdrawn hp, List.filter_filter]
      refine List.filter_congr fun m _ => ?_
      by_cases hm : m = n <;> simp [hm]

theorem State.freed_withdrawn : (s.freed k).withdrawn =
    s.withdrawn.filter fun n => !((s.slots[n]).any fun r => decide (r.ctx = k)) := by
  unfold State.freed
  have hnd : (s.slotsOf k).Nodup := s.recordsOf_nodup k
  rw [Event.freeAll_withdrawn _ _ (fun n hn => ?_) hnd]
  · refine List.filter_congr fun n _ => ?_
    have hm : n ∈ s.slotsOf k ↔ (s.slots[n]).any (fun r => decide (r.ctx = k)) = true := by
      rw [State.mem_slotsOf, Option.any_eq_true]
      simp
    by_cases hn : n ∈ s.slotsOf k
    · rw [hm.mp hn]
      simp [hn]
    · rw [Bool.eq_false_iff.mpr (mt hm.mpr hn)]
      simp [hn]
  · obtain ⟨p, hp, _⟩ := State.mem_slotsOf.mp hn
    exact ⟨p, hp⟩

/-! ### The state of a release -/

theorem State.release_tail : State.Tail (s.releasing k).state (s.release k) := settle_tail s (s.releasing k)

theorem State.freed_rest : s.freed k = { s with
    slots := (s.freed k).slots, withdrawn := (s.freed k).withdrawn, entries := (s.freed k).entries,
    patterns := (s.freed k).patterns, marks := (s.freed k).marks } := Event.freeAll_rest (s.slotsOf k) s.begin

theorem State.release_ctx : (s.release k).ctxs[k] = HideContext.reset := by
  have hctx : (s.releasing k).state.ctxs[k] = HideContext.reset := by
    rw [State.releasing_state]
    dsimp only
    rw [get_set, if_neg (Ne.symm (otherCtx_ne k)), get_set, if_pos rfl]
  unfold State.release
  rw [settle_ctx _ _ _ (by rw [hctx]; decide), hctx]

theorem State.release_rank (h : (s.ctxs[otherCtx k]).rank = some .second) :
    ((s.release k).ctxs[otherCtx k]).rank = some .first := by
  rw [(s.release_tail k).ctx, State.releasing_state]
  dsimp only
  rw [get_set, if_pos rfl, get_set, if_neg (otherCtx_ne k)]
  unfold HideContext.promote
  rw [if_pos h]

theorem State.release_planes : (s.release k).planes = s.planes.set k [] := by
  rw [(s.release_tail k).planes, State.releasing_state]

theorem State.release_flaws : (s.release k).flaws[k] = [] := by
  have h := (s.release_tail k).flaws k
  rw [(s.releasing_fields k).2.1, get_set, if_pos rfl] at h
  exact List.length_eq_zero_iff.mp h

theorem State.release_marks (j : Ctx) : (s.release k).marks[j] = if j = k then 0 else (s.freed k).marks[j] := by
  unfold State.release
  rw [settle_marks, State.releasing_state]
  exact get_set _ _ _ _

theorem State.release_marked_other (u : Tag) : (s.release k).marked u (otherCtx k) = (s.freed k).marked u (otherCtx k) := by
  unfold State.marked
  rw [State.release_marks, if_neg (otherCtx_ne k)]

theorem State.release_slots : (s.release k).slots = (s.freed k).slots := by
  rw [(s.release_tail k).slots, State.releasing_state]
  rfl

theorem State.release_withdrawn : (s.release k).withdrawn = (s.freed k).withdrawn := by
  rw [(s.release_tail k).withdrawn, State.releasing_state]
  rfl

theorem State.release_entries : (s.release k).entries = (s.freed k).entries := by
  rw [(s.release_tail k).entries, State.releasing_state]
  rfl

theorem State.release_patterns : (s.release k).patterns = (s.freed k).patterns := by
  rw [(s.release_tail k).patterns, State.releasing_state]
  rfl

theorem State.release_searching {q : Search} (hq : s.searchUnit = .searching q) :
    (s.release k).searchUnit = s.searchUnit := by
  rw [hq]
  refine settle_searching _ _ _ ?_
  rw [State.releasing_state, Event.freeAll_rest]
  exact hq

theorem State.release_ports : (s.release k).ports = s.ports := by
  rw [(s.release_tail k).ports, State.releasing_state, Event.freeAll_rest]
  rfl

theorem State.release_sameSettings : s.sameSettings (s.release k) := by
  refine State.sameSettings_trans ?_ (s.release_tail k).sameSettings
  rw [State.releasing_state, Event.freeAll_rest]
  exact State.sameSettings_refl s

/-- The queue, the marks and the patterns after a release (R67, R92, R113). -/
theorem State.release_queue (hn : (s.entries.map Entry.tag).Nodup) :
    (s.release k).entries = (s.entries.filter fun e => !s.leavesQueue k e).map (fun e =>
      { e with holders := e.holders - s.namedIn k e.tag }) ∧
    (∀ e ∈ s.entries, s.leavesQueue k e = true → ∀ j : Ctx, (s.release k).marked e.tag j = false) ∧
    (∀ u : Tag, (∀ e ∈ s.entries, e.tag = u → s.leavesQueue k e = false) →
      (s.release k).marked u (otherCtx k) = s.marked u (otherCtx k)) ∧
    ∀ m : PatNo, (s.release k).patterns[m] = { s.patterns[m] with
      refs := (s.patterns[m]).refs - (s.records.countP fun r => r.2.ctx = k && r.2.pattern = m) -
        s.entries.countP fun e => s.leavesQueue k e && e.pattern = m } := by
  have h := s.freed_frees k hn
  refine ⟨?_, fun e he hl j => ?_, fun u hu => ?_, fun m => ?_⟩
  · rw [State.release_entries, h.entries, ← List.filterMap_eq_map, ← List.filterMap_eq_filter, List.filterMap_filterMap]
    refine List.filterMap_congr fun e _ => ?_
    have hnamed := s.namings_recordsOf k e.tag
    unfold Entry.leftAfter Option.guard
    beta_reduce
    rw [State.leavesQueue_eq, hnamed]
    cases e.leaves (s.namedIn k e.tag) <;> rfl
  · have hfree := h.marked e.tag j
    have hany : (s.entries.any fun x => decide (x.tag = e.tag) && x.leaves (namings (s.recordsOf k) x.tag)) = true := by
      refine List.any_eq_true.mpr ⟨e, he, ?_⟩
      rw [← State.leavesQueue_eq, hl]
      simp
    rw [hany, Bool.not_true, Bool.and_false] at hfree
    unfold State.marked at hfree ⊢
    rw [State.release_marks]
    split
    · simp
    · exact hfree
  · rw [State.release_marked_other, h.marked]
    have hany : (s.entries.any fun x => decide (x.tag = u) && x.leaves (namings (s.recordsOf k) x.tag)) = false := by
      rw [List.any_eq_false]
      intro x hx
      rw [← State.leavesQueue_eq]
      by_cases hxu : x.tag = u
      · rw [hu x hx hxu]
        simp
      · simp [hxu]
    rw [hany, Bool.not_false, Bool.and_true]
  · have hdraw := (Event.freeAll_wants (s.slotsOf k) s.begin).drawings m
    rw [State.release_patterns]
    refine hdraw.trans ?_
    have hrefs : ((s.begin.freeAll (s.slotsOf k)).state.patterns[m]).refs = _ := h.refs m
    rw [hrefs]
    have hrecs : (s.recordsOf k).countP (fun r => decide (r.2.pattern = m)) =
        s.records.countP fun r => r.2.ctx = k && r.2.pattern = m := by
      unfold State.recordsOf
      rw [List.countP_filter]
      exact List.countP_congr fun r _ => by rw [Bool.and_comm]
    rw [hrecs]
    simp only [State.leavesQueue_eq]
    rfl

end

/-- Settles O32: an abort as one pass over the slots; a release as slots freed one after another. -/
theorem hideAbortAndRelease : Obligations.HideAbortAndRelease := by
  refine ⟨fun pl s ht hl => ⟨fun h => ⟨?_, ?_⟩, fun k hk h => ?_⟩, fun pl s k ht hl hk h => ?_, fun pl s k ht hl hk =>
    ⟨fun h => ?_, fun h => ?_⟩⟩
  · exact exec_hideAbort_refuses ht hl (hideAbortOwner_noCtx h _)
  · exact exec_hideRelease_refuses ht hl (hideReleaseOwner_noCtx h _)
  · exact exec_hideAbort_refuses ht hl (hideAbortOwner_dead (s := s.hunt 0) hk h)
  · have hexec : exec (.hideAbort 0 pl) s = _ := request_accepts .hideAbort hideAbortOwner 0 pl s _ _ ht rfl
      (decide_eq_true hl) (hideAbortOwner_accepts (s := s.hunt 0) hk h)
    obtain ⟨hflaws, hjobs, hflight⟩ := (s.hunt 0).abort_work k
    obtain ⟨hports, hpatterns, hpost⟩ := (s.hunt 0).abort_rest k
    obtain ⟨hclosed, hmarking⟩ := (s.hunt 0).abort_closed k
    obtain ⟨hsearch, hstall⟩ := (s.hunt 0).abort_awayFrom k
    have hflaws' : ((s.hunt 0).abort k).flaws[k] = (s.flaws[k]).map fun f =>
        if f.state = .pending ∨ f.state = .withdrawing then { f with state := .withdrawn } else f :=
      hflaws.trans (List.map_congr_left fun f _ => f.abandoned_eq)
    exact ⟨_, hexec, (s.hunt 0).abort_ctx k, fun n r hr hrk => (s.hunt 0).abort_record k hr hrk,
      fun n hno => (s.hunt 0).abort_slot_other k hno,
      fun h => ⟨(s.hunt 0).abort_headState k h, (s.hunt 0).abort_held k h⟩,
      (s.hunt 0).abort_recounted k, (s.hunt 0).abort_withdrawnJoin k,
      (s.hunt 0).abort_marks_cleared k, (s.hunt 0).abort_marks_kept k, (s.hunt 0).abort_marks_other k,
      hsearch, hstall, fun q hq hqk => (s.hunt 0).abort_goesOn k hq hqk, hflaws', hjobs, hflight, hclosed, hmarking,
      State.repliedFrom_owe _ _ _ _ _ hports, (s.hunt 0).abort_planes_other k,
      fun hw => (s.hunt 0).abort_freesCells k hw, hpatterns, hpost, (s.hunt 0).abort_sameSettings k⟩
  · exact exec_hideRelease_refuses ht hl (hideReleaseOwner_open (s := s.hunt 0) hk h)
  · have hexec : exec (.hideRelease 0 pl) s = _ := request_accepts .hideRelease hideReleaseOwner 0 pl s _ _ ht rfl
      (decide_eq_true hl) (hideReleaseOwner_accepts (s := s.hunt 0) hk h)
    have hcount : (s.hunt 0).slotsOf k = s.slotsOf k := rfl
    have hlen : (s.slotsOf k).length = s.records.countP fun r => r.2.ctx = k := by
      rw [State.slotsOf_eq, List.length_map, State.recordsOf, List.countP_eq_length_filter]
    rw [hcount, hlen] at hexec
    refine ⟨_, hexec, (s.hunt 0).release_ctx k, fun x y => ?_, (s.hunt 0).release_flaws k, ?_, fun n => ?_, ?_,
      fun hn => (s.hunt 0).release_queue k hn, fun q hq => (s.hunt 0).release_searching k hq,
      (s.hunt 0).release_rank k, ?_, State.repliedFrom_owe _ _ _ _ _ ((s.hunt 0).release_ports k),
      (s.hunt 0).release_sameSettings k⟩
    · show (((s.hunt 0).release k).planes[k]).read _ = _
      rw [State.release_planes, get_set, if_pos rfl]
      rfl
    · show ((s.hunt 0).release k).marks[k] = 0
      rw [State.release_marks, if_pos rfl]
    · show ((s.hunt 0).release k).slots[n] = _
      rw [State.release_slots]
      exact (s.hunt 0).freed_slot k n
    · show ((s.hunt 0).release k).withdrawn = _
      rw [State.release_withdrawn]
      exact (s.hunt 0).freed_withdrawn k
    · show ((s.hunt 0).release k).planes[otherCtx k] = _
      rw [State.release_planes, get_set, if_neg (otherCtx_ne k)]
      rfl

end Sys2Proof.Machine
end

section
/-!
PROOFS. The lookup of the Flaw Classifier (R30 to R33): which keys an entry matches, the flags of a key, and the decision
part by part.
-/

namespace Sys2Proof.Machine

open Sys2Proof

/-! ### Entries and keys (R30 to R32) -/

theorem RuleEntry.fits_iff (r : RuleEntry) (pass : Pass) (k : Key) : r.fits pass k = true ↔
    r.valid = true ∧ r.pass = pass ∧ r.link.agrees k.link ∧ r.category.agrees k.category ∧ r.ladder.agrees k.ladder ∧
    r.source.agrees k.source ∧ r.shape.agrees k.shape ∧ r.anchor.agrees k.anchor ∧ r.ranges.agrees k.ranges := by
  simp only [RuleEntry.fits, KeyTest.agrees_iff, Bool.and_eq_true, decide_eq_true_eq, and_assoc]

/-- The flag of weight 2^i is set for the severities above i (R30). -/
theorem ladderOf_getLsbD (severity : Nat) {i : Nat} (hi : i < 7) :
    (ladderOf severity).getLsbD i = decide (i < severity) := by
  rw [ladderOf, BitVec.getLsbD_ofNat, Nat.testBit_two_pow_sub_one, decide_eq_true hi, Bool.true_and]

/-- The range flags gathered from a checker number on, over those gathered before. -/
theorem rangeFlags_from (cs : List RangeChecker) (extent area severity anchor n : Nat) (b : BitVec 8) {i : Nat}
    (hi : i < 8) :
    ((cs.zipIdx n).foldl (fun b c => if c.1.flag extent area severity anchor then b ||| BitVec.twoPow 8 c.2 else b)
        b).getLsbD i =
      (b.getLsbD i || decide (n ≤ i) && (cs[i - n]?).any fun c => c.flag extent area severity anchor) := by
  induction cs generalizing n b with
  | nil => simp
  | cons c cs ih =>
    have hbit : (if c.flag extent area severity anchor then b ||| BitVec.twoPow 8 n else b).getLsbD i =
        (b.getLsbD i || decide (i = n) && c.flag extent area severity anchor) := by
      cases c.flag extent area severity anchor <;> simp [hi]
    rw [List.zipIdx_cons, List.foldl_cons, ih, hbit]
    rcases lt_trichotomy n i with h | rfl | h
    · have hstep : (c :: cs)[i - n]? = cs[i - (n + 1)]? := by
        rw [show i - n = i - (n + 1) + 1 by omega, List.getElem?_cons_succ]
      simp [hstep, h.ne', h.le, Nat.succ_le_of_lt h]
    · simp
    · simp [h.ne, Nat.not_le.mpr h, Nat.not_le.mpr (h.trans (Nat.lt_succ_self n))]

theorem rangeFlags_getLsbD (cs : List RangeChecker) (extent area severity anchor : Nat) {i : Nat} (hi : i < 8) :
    (rangeFlags cs extent area severity anchor).getLsbD i = (cs[i]?).any fun c => c.flag extent area severity anchor := by
  have h := rangeFlags_from cs extent area severity anchor 0 0 hi
  simpa [rangeFlags] using h

/-! ### Hits (R33) -/

theorem firstHit_lowest {rules : List RuleEntry} {pass : Pass} {k : Key} {i : Nat} {r : RuleEntry}
    (hr : rules[i]? = some r) (hf : r.fits pass k = true)
    (hlow : ∀ j r', j < i → rules[j]? = some r' → r'.fits pass k = false) : firstHit rules pass k = some r.action := by
  obtain ⟨hi, rfl⟩ := List.getElem?_eq_some_iff.mp hr
  have hfind : rules.find? (fun r => r.fits pass k) = some rules[i] := by
    refine List.find?_eq_some_iff_getElem.mpr ⟨hf, i, hi, rfl, fun j hj => ?_⟩
    rw [hlow j _ hj (List.getElem?_eq_getElem (hj.trans hi))]
    rfl
  rw [firstHit, hfind]
  rfl

theorem firstHit_none {rules : List RuleEntry} {pass : Pass} {k : Key} (h : ∀ r ∈ rules, r.fits pass k = false) :
    firstHit rules pass k = none := by
  rw [firstHit, List.find?_eq_none.mpr fun r hr => by rw [h r hr]; exact Bool.false_ne_true]
  rfl

/-! ### The decision (R33) -/

theorem resolvePart_eq {α : Type} (part : Action → Option α) (first second : Option Action) :
    resolvePart part first second = (second.bind part).or (first.bind part) := by
  unfold resolvePart
  cases second.bind part <;> rfl

/-- A lookup whose first hit is known, by the hit of its second pass. -/
theorem lookup_hit {rules : List RuleEntry} (d : ClassDefaults) {k : Key} {a : Action}
    (h : firstHit rules .first k = some a) : lookup rules d k =
      resolve d (some a) (a.next.bind fun l => firstHit rules .second { k with link := BitVec.ofNat 7 l.val }) := by
  rw [lookup, h]
  rfl

theorem lookup_miss {rules : List RuleEntry} (d : ClassDefaults) {k : Key} (h : firstHit rules .first k = none) :
    lookup rules d k = { cls := d.cls, margin := d.margin, cap := d.cap, ignore := false } := by
  rw [lookup, h]
  rfl

/-- One hit alone gives its parts, the class defaults the others. -/
theorem resolve_first (d : ClassDefaults) (a : Action) : resolve d (some a) none =
    { cls := a.cls.getD d.cls, margin := a.margin.getD d.margin, cap := a.cap.or d.cap, ignore := a.ignore } := by
  cases hcap : a.cap <;> simp [resolve, resolvePart_eq, hcap]

/-- The second hit gives its parts, the first those it does not have. -/
theorem resolve_both (d : ClassDefaults) (a b : Action) : resolve d (some a) (some b) =
    { cls := (b.cls.or a.cls).getD d.cls, margin := (b.margin.or a.margin).getD d.margin,
      cap := (b.cap.or a.cap).or d.cap, ignore := a.ignore || b.ignore } := by
  cases hcap : b.cap.or a.cap <;> simp [resolve, resolvePart_eq, hcap]

/-- Settles O17: the tests digit by digit, and the decision by the hits that there are. -/
theorem lookupResolvesPartByPart : Obligations.LookupResolvesPartByPart := by
  refine ⟨RuleEntry.fits_iff, fun severity i _ hi => ⟨rfl, ladderOf_getLsbD severity hi⟩,
    fun cs extent area severity anchor i hi => rangeFlags_getLsbD cs extent area severity anchor hi,
    fun rules pass k i r hr hf hlow => firstHit_lowest hr hf hlow, fun rules pass k h => firstHit_none h,
    fun rules d k => ⟨lookup_miss d, fun a ha hnext => ?_, fun a l ha hnext hb => ?_, fun a l b ha hnext hb => ?_⟩⟩
  · rw [lookup_hit d ha, hnext]
    exact resolve_first d a
  · rw [lookup_hit d ha, hnext, Option.bind_some, hb]
    exact resolve_first d a
  · rw [lookup_hit d ha, hnext, Option.bind_some, hb]
    exact resolve_both d a b

end Sys2Proof.Machine
end

section
/-!
PROOFS. The requests of the Flaw Classifier (R35 to R38): the values that payload bytes give, and what each request makes
of the tables.
-/

namespace Sys2Proof.Machine

open Sys2Proof

/-! ### Bytes that give values (R35) -/

theorem flag?_eq_none {b : Nat} : flag? b = none ↔ 1 < b := by
  rcases b with _ | _ | b <;> simp [flag?]

theorem flag?_eq_some {b : Nat} {v : Bool} (h : flag? b = some v) : v = decide (b = 1) := by
  unfold flag? at h
  split at h <;> simp_all

theorem pass?_eq_none {b : Nat} : pass? b = none ↔ 1 < b := by
  rcases b with _ | _ | b <;> simp [pass?]

theorem pass?_eq_some {b : Nat} {v : Pass} (h : pass? b = some v) : v = if b = 0 then .first else .second := by
  unfold pass? at h
  split at h <;> simp_all

theorem index?_eq_none {n b : Nat} : index? n b = none ↔ n ≤ b := by
  unfold index?
  split <;> simp <;> omega

theorem index?_eq_some {n b : Nat} {i : Fin n} : index? n b = some i ↔ b = i.val := by
  refine ⟨fun h => ?_, fun h => index?_of_eq i h⟩
  unfold index? at h
  split at h
  · exact congrArg Fin.val (Option.some.inj h)
  · cases h

theorem part?_eq_none {n b : Nat} : part? n b = none ↔ n ≤ b ∧ b ≠ 255 := by
  unfold part?
  split <;> simp_all [index?_eq_none]

theorem part?_eq_some {n b : Nat} {o : Option (Fin n)} (h : part? n b = some o) :
    o.map (fun g => g.val) = if b = 255 then none else some b := by
  unfold part? at h
  split
  · rename_i hb
    rw [if_pos hb] at h
    rw [← Option.some.inj h]
    rfl
  · rename_i hb
    rw [if_neg hb] at h
    obtain ⟨i, hi, rfl⟩ := Option.map_eq_some_iff.mp h
    rw [index?_eq_some.mp hi]
    rfl

/-- The byte of a part is that of its value, 255 without one. -/
theorem part?_of_getD {n b : Nat} (hn : n ≤ 255) {o : Option (Fin n)} (h : b = (o.map fun g => g.val).getD 255) :
    part? n b = some o := by
  unfold part?
  cases o with
  | none => exact if_pos h
  | some i =>
    obtain rfl : b = i.val := h
    rw [if_neg (by omega), index?_val]
    rfl

theorem keyTest?_eq_none {w : Nat} {pl : List Byte} {i : Nat} :
    keyTest? w pl i = none ↔ 2 ^ w ≤ u8 pl i ∨ 2 ^ w ≤ u8 pl (i + 1) := by
  unfold keyTest?
  split <;> simp <;> omega

theorem keyTest?_eq_some {w : Nat} {pl : List Byte} {i : Nat} {t : KeyTest w} (h : keyTest? w pl i = some t) :
    t.value.toNat = u8 pl i ∧ t.mask.toNat = u8 pl (i + 1) := by
  unfold keyTest? at h
  split at h
  · rename_i hb
    rw [← Option.some.inj h]
    exact ⟨BitVec.toNat_ofNat .. |>.trans (Nat.mod_eq_of_lt hb.1), BitVec.toNat_ofNat .. |>.trans (Nat.mod_eq_of_lt hb.2)⟩
  · cases h

theorem u8_lt (pl : List Byte) (i : Nat) : u8 pl i < 256 := (pl.getD i 0).isLt

/-! ### RULE WRITE's payload (R35) -/

/-- One field after another: none if the field is out of range, or a later one. -/
theorem bind_eq_none {α β : Type} {o : Option α} {f : α → Option β} {P : Prop} (h : ∀ a, f a = none ↔ P) :
    (o >>= f) = none ↔ o = none ∨ P := by
  cases o with
  | none => simp
  | some a => simp [h a]

theorem action?_eq_none {pl : List Byte} : action? pl = none ↔ part? 8 (u8 pl 17) = none ∨ part? 8 (u8 pl 18) = none ∨
    part? 8 (u8 pl 19) = none ∨ part? 128 (u8 pl 20) = none ∨ flag? (u8 pl 21) = none := by
  unfold action?
  refine bind_eq_none fun _ => bind_eq_none fun _ => bind_eq_none fun _ => bind_eq_none fun _ => ?_
  cases flag? (u8 pl 21) <;> simp

theorem ruleEntry?_eq_none {pl : List Byte} : ruleEntry? pl = none ↔ flag? (u8 pl 1) = none ∨ pass? (u8 pl 2) = none ∨
    keyTest? 7 pl 3 = none ∨ keyTest? 4 pl 5 = none ∨ keyTest? 7 pl 7 = none ∨ keyTest? 1 pl 9 = none ∨
    keyTest? 2 pl 11 = none ∨ keyTest? 3 pl 13 = none ∨ keyTest? 8 pl 15 = none ∨ action? pl = none := by
  unfold ruleEntry?
  refine bind_eq_none fun _ => bind_eq_none fun _ => bind_eq_none fun _ => bind_eq_none fun _ =>
    bind_eq_none fun _ => bind_eq_none fun _ => bind_eq_none fun _ => bind_eq_none fun _ => bind_eq_none fun _ => ?_
  cases action? pl <;> simp

/-- A RULE WRITE payload is out of range exactly by one of its bytes. -/
theorem ruleEntry?_eq_none_iff (pl : List Byte) :
    ruleEntry? pl = none ↔ 1 < u8 pl 1 ∨ 1 < u8 pl 2 ∨ 127 < u8 pl 3 ∨ 127 < u8 pl 4 ∨ 15 < u8 pl 5 ∨ 15 < u8 pl 6 ∨
      127 < u8 pl 7 ∨ 127 < u8 pl 8 ∨ 1 < u8 pl 9 ∨ 1 < u8 pl 10 ∨ 3 < u8 pl 11 ∨ 3 < u8 pl 12 ∨ 7 < u8 pl 13 ∨
      7 < u8 pl 14 ∨ (7 < u8 pl 17 ∧ u8 pl 17 ≠ 255) ∨ (7 < u8 pl 18 ∧ u8 pl 18 ≠ 255) ∨
      (7 < u8 pl 19 ∧ u8 pl 19 ≠ 255) ∨ (127 < u8 pl 20 ∧ u8 pl 20 ≠ 255) ∨ 1 < u8 pl 21 := by
  have h15 := u8_lt pl 15
  have h16 := u8_lt pl 16
  simp only [ruleEntry?_eq_none, action?_eq_none, flag?_eq_none, pass?_eq_none, keyTest?_eq_none, part?_eq_none,
    Nat.reduceAdd, Nat.reducePow]
  omega

theorem action?_eq_some {pl : List Byte} {a : Action} (h : action? pl = some a) :
    a.cls.map (fun g => g.val) = (if u8 pl 17 = 255 then none else some (u8 pl 17)) ∧
    a.margin.map (fun g => g.val) = (if u8 pl 18 = 255 then none else some (u8 pl 18)) ∧
    a.cap.map (fun g => g.val) = (if u8 pl 19 = 255 then none else some (u8 pl 19)) ∧
    a.next.map (fun g => g.val) = (if u8 pl 20 = 255 then none else some (u8 pl 20)) ∧
    a.ignore = decide (u8 pl 21 = 1) := by
  simp only [action?, Option.bind_eq_bind, Option.bind_eq_some_iff, Option.pure_def, Option.some.injEq] at h
  obtain ⟨cls, hcls, margin, hmargin, cap, hcap, next, hnext, ignore, hignore, rfl⟩ := h
  exact ⟨part?_eq_some hcls, part?_eq_some hmargin, part?_eq_some hcap, part?_eq_some hnext, flag?_eq_some hignore⟩

/-- The fields of the entry that a RULE WRITE payload declares, its action among them. -/
theorem ruleEntry?_eq_some {pl : List Byte} {r : RuleEntry} (h : ruleEntry? pl = some r) :
    r.valid = decide (u8 pl 1 = 1) ∧ r.pass = (if u8 pl 2 = 0 then .first else .second) ∧
    (r.link.value.toNat = u8 pl 3 ∧ r.link.mask.toNat = u8 pl 4) ∧
    (r.category.value.toNat = u8 pl 5 ∧ r.category.mask.toNat = u8 pl 6) ∧
    (r.ladder.value.toNat = u8 pl 7 ∧ r.ladder.mask.toNat = u8 pl 8) ∧
    (r.source.value.toNat = u8 pl 9 ∧ r.source.mask.toNat = u8 pl 10) ∧
    (r.shape.value.toNat = u8 pl 11 ∧ r.shape.mask.toNat = u8 pl 12) ∧
    (r.anchor.value.toNat = u8 pl 13 ∧ r.anchor.mask.toNat = u8 pl 14) ∧
    (r.ranges.value.toNat = u8 pl 15 ∧ r.ranges.mask.toNat = u8 pl 16) ∧ action? pl = some r.action := by
  simp only [ruleEntry?, Option.bind_eq_bind, Option.bind_eq_some_iff, Option.pure_def, Option.some.injEq] at h
  obtain ⟨valid, hvalid, pass, hpass, link, hlink, category, hcategory, ladder, hladder, source, hsource, shape, hshape,
    anchor, hanchor, ranges, hranges, action, haction, rfl⟩ := h
  exact ⟨flag?_eq_some hvalid, pass?_eq_some hpass, keyTest?_eq_some hlink, keyTest?_eq_some hcategory,
    keyTest?_eq_some hladder, keyTest?_eq_some hsource, keyTest?_eq_some hshape, keyTest?_eq_some hanchor,
    keyTest?_eq_some hranges, haction⟩

/-! ### RULE WRITE and RULE READ (R35, R38) -/

theorem ruleWriteOwner_accepts {pl : List Byte} {i : Fin 128} {r : RuleEntry} (hi : u8 pl 0 = i.val)
    (hr : ruleEntry? pl = some r) (s : State) :
    ruleWriteOwner 0 pl s = ({ s with rules := s.rules.set i r }, .accept []) := by
  unfold ruleWriteOwner
  rw [index?_of_eq i hi, hr]

theorem ruleWriteOwner_range {pl : List Byte} (h : 128 ≤ u8 pl 0 ∨ ruleEntry? pl = none) (s : State) :
    ruleWriteOwner 0 pl s = (s, .refuse .range) := by
  unfold ruleWriteOwner
  split
  · rename_i i r hi hr
    rw [index?_eq_some] at hi
    rcases h with h | h
    · omega
    · rw [h] at hr
      cases hr
  · rfl

theorem ruleReadAnswer_entry {pl : List Byte} {i : Fin 128} (hi : u8 pl 0 = i.val) (s : State) :
    ruleReadAnswer 0 pl s = .accept (s.rules[i]).bytes := by
  unfold ruleReadAnswer
  rw [index?_of_eq i hi]

theorem ruleReadAnswer_tables {pl : List Byte} (h : u8 pl 0 = 128) (s : State) :
    ruleReadAnswer 0 pl s = .accept s.tableBytes := by
  unfold ruleReadAnswer
  rw [index?_none h.ge]
  exact if_pos h

theorem ruleReadAnswer_range {pl : List Byte} (h : 128 < u8 pl 0) (s : State) :
    ruleReadAnswer 0 pl s = .refuse .range := by
  unfold ruleReadAnswer
  rw [index?_none h.le]
  exact if_neg h.ne'

/-- The bytes of a rule entry, written out (R38; log 12). -/
theorem RuleEntry.bytes_eq (r : RuleEntry) : r.bytes =
    encFlag r.valid ++ (match r.pass with | .first => [0] | .second => [1]) ++
      enc1 r.link.value.toNat ++ enc1 r.category.value.toNat ++ enc1 r.ladder.value.toNat ++
      enc1 r.source.value.toNat ++ enc1 r.shape.value.toNat ++ enc1 r.anchor.value.toNat ++ enc1 r.ranges.value.toNat ++
      enc1 r.link.mask.toNat ++ enc1 r.category.mask.toNat ++ enc1 r.ladder.mask.toNat ++
      enc1 r.source.mask.toNat ++ enc1 r.shape.mask.toNat ++ enc1 r.anchor.mask.toNat ++ enc1 r.ranges.mask.toNat ++
      encOpt (r.action.cls.map fun g => g.val) ++ encOpt (r.action.margin.map fun g => g.val) ++
      encOpt (r.action.cap.map fun g => g.val) ++ encOpt (r.action.next.map fun g => g.val) ++
      encFlag r.action.ignore := by
  have hpass : enc1 r.pass.code = match r.pass with | .first => [0] | .second => [1] := by cases r.pass <;> rfl
  rw [RuleEntry.bytes, hpass, Action.bytes]
  simp only [RuleEntry.tests, List.flatMap_cons, List.flatMap_nil, List.append_nil, List.append_assoc]

/-- Settles O18: the payload field by field, then each request as its owner answers it. -/
theorem ruleWriteAndRead : Obligations.RuleWriteAndRead := by
  refine ⟨fun pl => ⟨ruleEntry?_eq_none_iff pl, fun r hr => ?_⟩, fun pl s ht hl => ⟨fun i r hi hr => ?_, fun h => ?_⟩,
    fun pl s ht hl => ⟨fun i hi => ?_, fun h => ?_, fun h => ?_⟩⟩
  · obtain ⟨hvalid, hpass, hlink, hcategory, hladder, hsource, hshape, hanchor, hranges, haction⟩ := ruleEntry?_eq_some hr
    exact ⟨hvalid, hpass, hlink.1, hlink.2, hcategory.1, hcategory.2, hladder.1, hladder.2, hsource.1, hsource.2,
      hshape.1, hshape.2, hanchor.1, hanchor.2, hranges.1, hranges.2, action?_eq_some haction⟩
  · exact request_accepts .ruleWrite ruleWriteOwner 0 pl s _ _ ht rfl (decide_eq_true hl)
      (ruleWriteOwner_accepts hi hr (s.hunt 0))
  · exact request_refuses .ruleWrite ruleWriteOwner 0 pl s _ ht rfl (decide_eq_true hl) (ruleWriteOwner_range h _)
  · exact (request_read_accepts (k := .ruleRead) ht rfl rfl (decide_eq_true hl) (ruleReadAnswer_entry hi (s.hunt 0))).trans
      (congrArg (fun a => Host.Outcome.next (s.answered .ruleRead 0 a)) (RuleEntry.bytes_eq s.rules[i]))
  · exact request_read_accepts ht rfl rfl (decide_eq_true hl) (ruleReadAnswer_tables h (s.hunt 0))
  · exact request_read_refuses ht rfl rfl (decide_eq_true hl) (ruleReadAnswer_range h (s.hunt 0))

/-! ### Range checkers (R31, R36) -/

theorem RangeChecker.flag_iff (c : RangeChecker) (extent area severity anchor : Nat) :
    c.flag extent area severity anchor = true ↔
      ∃ n, c.quantity.of extent area severity anchor = some n ∧ c.low ≤ n ∧ n ≤ c.high := by
  unfold RangeChecker.flag
  cases c.quantity.of extent area severity anchor <;> simp

/-- A low bound above the high one is never met (R36). -/
theorem RangeChecker.flag_crossed {c : RangeChecker} (h : c.high < c.low) (extent area severity anchor : Nat) :
    c.flag extent area severity anchor = false := by
  rw [Bool.eq_false_iff, ne_eq, RangeChecker.flag_iff]
  rintro ⟨n, -, hlow, hhigh⟩
  omega

/-- A checker tests the quantity that it names. -/
theorem RangeChecker.flag_of {c : RangeChecker} {q : Quantity} (h : c.quantity = q) (extent area severity anchor : Nat) :
    c.flag extent area severity anchor =
      (q.of extent area severity anchor).any fun n => decide (c.low ≤ n) && decide (n ≤ c.high) := by
  subst h
  unfold RangeChecker.flag
  cases c.quantity.of extent area severity anchor <;> rfl

theorem quantity?_code (q : Quantity) : quantity? q.code = some q := by cases q <;> rfl

theorem quantity?_eq_none {n : Nat} (h : 4 < n) : quantity? n = none := by
  obtain ⟨m, rfl⟩ : ∃ m, n = m + 5 := ⟨n - 5, by omega⟩
  rfl

theorem rangeWriteOwner_accepts {pl : List Byte} {i : Fin 8} {q : Quantity} (hi : u8 pl 0 = i.val)
    (hq : u8 pl 1 = q.code) (s : State) : rangeWriteOwner 0 pl s =
      ({ s with ranges := s.ranges.set i { quantity := q, low := u16 pl 2, high := u16 pl 4 } }, .accept []) := by
  unfold rangeWriteOwner
  rw [index?_of_eq i hi, hq, quantity?_code]

theorem rangeWriteOwner_range {pl : List Byte} (h : 7 < u8 pl 0 ∨ 4 < u8 pl 1) (s : State) :
    rangeWriteOwner 0 pl s = (s, .refuse .range) := by
  unfold rangeWriteOwner
  split
  · rename_i i q hi hq
    rw [index?_eq_some] at hi
    rcases h with h | h
    · omega
    · rw [quantity?_eq_none h] at hq
      cases hq
  · rfl

/-! ### Class defaults (R37) -/

theorem classDefaults?_eq_none {pl : List Byte} : classDefaults? pl = none ↔
    7 < u8 pl 0 ∨ 7 < u8 pl 1 ∨ (7 < u8 pl 2 ∧ u8 pl 2 ≠ 255) := by
  unfold classDefaults?
  have h : ∀ {o : Option (Option Grade)} {c m : Grade},
      (do let cap ← o; pure ({ cls := c, margin := m, cap := cap } : ClassDefaults)) = none ↔ o = none := by
    intro o c m
    cases o <;> simp
  rw [bind_eq_none fun _ => bind_eq_none fun _ => h, index?_eq_none, index?_eq_none, part?_eq_none]
  omega

theorem classDefaults?_of_bytes {pl : List Byte} {c m : Grade} {g : Option Grade} (hc : u8 pl 0 = c.val)
    (hm : u8 pl 1 = m.val) (hg : u8 pl 2 = (g.map fun x => x.val).getD 255) :
    classDefaults? pl = some { cls := c, margin := m, cap := g } := by
  unfold classDefaults?
  rw [index?_of_eq c hc, index?_of_eq m hm, part?_of_getD (by decide) hg]
  rfl

theorem linksOk_iff {pl : List Byte} : linksOk pl = true ↔ ∀ i : Fin 16, u8 pl (3 + i.val) < 128 := by
  simp only [linksOk, List.all_eq_true, List.mem_range, decide_eq_true_eq]
  exact ⟨fun h i => h i.val i.isLt, fun h i hi => h ⟨i, hi⟩⟩

theorem linksOf_val {pl : List Byte} {i : Fin 16} (h : u8 pl (3 + i.val) < 128) :
    ((linksOf pl)[i]).val = u8 pl (3 + i.val) := by
  rw [linksOf, get_ofFn]
  exact Nat.mod_eq_of_lt h

theorem classDefaultsOwner_accepts {pl : List Byte} {d : ClassDefaults} (hd : classDefaults? pl = some d)
    (hl : linksOk pl = true) (s : State) :
    classDefaultsOwner 0 pl s = ({ s with classDefaults := d, links := linksOf pl }, .accept []) := by
  unfold classDefaultsOwner
  rw [hd]
  exact if_pos hl

theorem classDefaultsOwner_range {pl : List Byte} (h : classDefaults? pl = none ∨ linksOk pl = false) (s : State) :
    classDefaultsOwner 0 pl s = (s, .refuse .range) := by
  unfold classDefaultsOwner
  split
  · rfl
  · rename_i d hd
    rcases h with h | h
    · rw [h] at hd
      cases hd
    · exact if_neg (by rw [h]; decide)

/-- PART RESET answers the state after it (R186). -/
theorem exec_partReset {s : State} (h : s.takes 0) : exec (.partReset 0 []) s =
    .next ((s.hunt 0).partReset.owe 0 (.reply { kind := Kind.partReset.byte, refusal := none, payload := [] })) :=
  request_accepts .partReset partResetOwner 0 [] s _ _ h rfl rfl rfl

/-- Settles O19: each request as its owner answers it, and a checker's flag by the quantity it names. -/
theorem rangesAndClassDefaultsReplaced : Obligations.RangesAndClassDefaultsReplaced := by
  refine ⟨⟨fun pl s ht hl => ⟨fun i q hi hq => ?_, fun h => ?_, fun c e a v n h => c.flag_crossed h e a v n⟩,
    fun c e a v n => ⟨fun h => c.flag_of h e a v n, fun h => c.flag_of h e a v n, fun h => c.flag_of h e a v n,
      fun h => c.flag_of h e a v n, fun h => c.flag_of h e a v n, fun h => c.flag_crossed h e a v n⟩,
    fun i => get_replicate .., fun s ht => ⟨_, exec_partReset ht, rfl⟩⟩,
    fun pl s ht hl => ⟨fun c m g hc hm hg hlinks => ?_, fun h => ?_⟩⟩
  · exact request_accepts .rangeWrite rangeWriteOwner 0 pl s _ _ ht rfl (decide_eq_true hl)
      (rangeWriteOwner_accepts hi hq (s.hunt 0))
  · exact request_refuses .rangeWrite rangeWriteOwner 0 pl s _ ht rfl (decide_eq_true hl) (rangeWriteOwner_range h _)
  · exact ⟨_, request_accepts .classDefaults classDefaultsOwner 0 pl s _ _ ht rfl (decide_eq_true hl)
      (classDefaultsOwner_accepts (classDefaults?_of_bytes hc hm hg) (linksOk_iff.mpr hlinks) (s.hunt 0)),
      rfl, fun i => linksOf_val (hlinks i), rfl⟩
  · refine request_refuses .classDefaults classDefaultsOwner 0 pl s _ ht rfl (decide_eq_true hl)
      (classDefaultsOwner_range ?_ _)
    rw [classDefaults?_eq_none]
    rcases h with h | h | h | ⟨i, hi⟩
    · exact .inl (.inl h)
    · exact .inl (.inr (.inl h))
    · exact .inl (.inr (.inr h))
    · exact .inr (Bool.eq_false_iff.mpr fun hlinks => absurd (linksOk_iff.mp hlinks i) (by omega))

end Sys2Proof.Machine
end

section
/-!
PROOFS. The geometry of flaws (R27 to R29): footprints, what a flaw reaches, and the extent of a set of cells.
-/

namespace Sys2Proof.Machine

open Sys2Proof

/-! ### Footprints (R27, R28) -/

theorem Shape.covers_disc {cx cy : Int} {r : Nat} {i j : Int} :
    (Shape.disc cx cy r).covers i j = true ↔ (i - cx) ^ 2 + (j - cy) ^ 2 ≤ (r : Int) ^ 2 := by
  simp only [Shape.covers, decide_eq_true_eq, pow_two]

theorem Shape.covers_point {cx cy i j : Int} : (Shape.disc cx cy 0).covers i j = true ↔ i = cx ∧ j = cy := by
  rw [Shape.covers_disc, Nat.cast_zero, zero_pow two_ne_zero]
  constructor
  · intro h
    have hi : (i - cx) ^ 2 = 0 := by linarith [sq_nonneg (i - cx), sq_nonneg (j - cy)]
    have hj : (j - cy) ^ 2 = 0 := by linarith [sq_nonneg (i - cx), sq_nonneg (j - cy)]
    exact ⟨sub_eq_zero.mp (pow_eq_zero_iff two_ne_zero |>.mp hi), sub_eq_zero.mp (pow_eq_zero_iff two_ne_zero |>.mp hj)⟩
  · rintro ⟨rfl, rfl⟩
    simp

theorem Shape.covers_box {x1 y1 x2 y2 i j : Int} : (Shape.box x1 y1 x2 y2).covers i j = true ↔
    ((x1 ≤ i ∧ i ≤ x2) ∨ (x2 ≤ i ∧ i ≤ x1)) ∧ ((y1 ≤ j ∧ j ≤ y2) ∨ (y2 ≤ j ∧ j ≤ y1)) := by
  simp only [Shape.covers, Bool.and_eq_true, decide_eq_true_eq]
  omega

/-- A quotient rounded down, by the multiples of the divisor around the dividend. -/
theorem eq_ediv_iff {N D z : Int} (hD : 0 < D) : z = N / D ↔ D * z ≤ N ∧ N < D * (z + 1) := by
  constructor
  · rintro rfl
    exact ⟨Int.mul_ediv_self_le hD.ne', by rw [mul_add, mul_one]; exact Int.lt_mul_ediv_self_add hD⟩
  · rintro ⟨hlow, hhigh⟩
    refine le_antisymm ((Int.le_ediv_iff_mul_le hD).mpr (by rwa [mul_comm])) (Int.lt_add_one_iff.mp ?_)
    exact Int.ediv_lt_of_lt_mul hD (by rwa [mul_comm])

/-- A point of a segment with n steps, each coordinate rounded down (R28). -/
def onSegment (a b c : Int × Int) (n : Nat) : Prop :=
  (n = 0 ∧ c = a) ∨
    ∃ k : Nat, k ≤ n ∧
      2 * (n : Int) * (c.1 - a.1) ≤ 2 * (k : Int) * (b.1 - a.1) + n ∧
      2 * (k : Int) * (b.1 - a.1) + n < 2 * (n : Int) * (c.1 - a.1 + 1) ∧
      2 * (n : Int) * (c.2 - a.2) ≤ 2 * (k : Int) * (b.2 - a.2) + n ∧
      2 * (k : Int) * (b.2 - a.2) + n < 2 * (n : Int) * (c.2 - a.2 + 1)

theorem mem_segmentPoints {a b c : Int × Int} :
    c ∈ segmentPoints a b ↔ onSegment a b c (max (b.1 - a.1).natAbs (b.2 - a.2).natAbs) := by
  unfold segmentPoints onSegment
  dsimp only
  generalize hn : max (b.1 - a.1).natAbs (b.2 - a.2).natAbs = n
  by_cases h0 : n = 0
  · rw [if_pos h0, List.mem_singleton]
    refine ⟨fun hc => .inl ⟨h0, hc⟩, fun hc => hc.elim And.right ?_⟩
    rintro ⟨k, hk, hx, hx', -⟩
    subst h0
    simp only [Nat.le_zero.mp hk] at hx hx'
    omega
  · have hD : (0 : Int) < 2 * n := by omega
    rw [if_neg h0, List.mem_map]
    have hpoint : ∀ k : Nat, (a.1 + (2 * (k : Int) * (b.1 - a.1) + n) / (2 * n),
        a.2 + (2 * (k : Int) * (b.2 - a.2) + n) / (2 * n)) = c ↔
        c.1 - a.1 = (2 * (k : Int) * (b.1 - a.1) + n) / (2 * n) ∧
        c.2 - a.2 = (2 * (k : Int) * (b.2 - a.2) + n) / (2 * n) := fun k => by
      rw [Prod.ext_iff, eq_comm (b := c.1), eq_comm (b := c.2), sub_eq_iff_eq_add', sub_eq_iff_eq_add']
    simp only [hpoint, eq_ediv_iff hD, List.mem_range, Nat.lt_succ_iff, h0, false_and, false_or, and_assoc]

theorem mem_strokePoints {pts : List (Int × Int)} {c : Int × Int} : c ∈ strokePoints pts ↔
    pts = [c] ∨ ∃ (m : Nat) (a b : Int × Int), pts[m]? = some a ∧ pts[m + 1]? = some b ∧ c ∈ segmentPoints a b := by
  match pts with
  | [] => simp [strokePoints]
  | [a] => simp [strokePoints, eq_comm]
  | a :: b :: rest =>
    simp only [strokePoints, List.mem_flatMap, List.mem_iff_getElem? (l := List.zip _ _), List.getElem?_zip_eq_some]
    constructor
    · rintro ⟨ab, ⟨m, ha, hb⟩, hc⟩
      exact .inr ⟨m, ab.1, ab.2, ha, hb, hc⟩
    · rintro (h | ⟨m, u, v, hu, hv, hc⟩)
      · cases h
      · exact ⟨(u, v), ⟨m, hu, hv⟩, hc⟩

theorem Shape.covers_stroke {pts : List (Int × Int)} {hw : Nat} {i j : Int} : (Shape.stroke pts hw).covers i j = true ↔
    ∃ c ∈ strokePoints pts, (i - c.1).natAbs ≤ hw ∧ (j - c.2).natAbs ≤ hw := by
  simp only [Shape.covers, List.any_eq_true, Bool.and_eq_true, decide_eq_true_eq]

/-! ### Reach, and the cells of a map (R29) -/

/-- Footprint and margin by Chebyshev distance (R29). -/
theorem Shape.reaches_iff_near {sh : Shape} {m : Nat} {i j : Int} : sh.reaches m i j = true ↔
    ∃ u v : Int, sh.covers u v = true ∧ (u - i).natAbs ≤ m ∧ (v - j).natAbs ≤ m := by
  rw [Shape.reaches_iff]
  constructor
  · rintro ⟨dx, dy, hx, hy, hc⟩
    exact ⟨i + dx, j + dy, hc, by omega, by omega⟩
  · rintro ⟨u, v, hc, hu, hv⟩
    exact ⟨u - i, v - j, by omega, by omega, by rwa [add_sub_cancel, add_sub_cancel]⟩

theorem mem_mapCells_filter {P : Nat × Nat → Bool} {w h x y : Nat} :
    (x, y) ∈ (mapCells w h).filter P ↔ x < w ∧ y < h ∧ P (x, y) = true := by
  rw [List.mem_filter, mem_mapCells, and_assoc]

/-! ### Extent (R29) -/

/-- The span of numbers between two of them that bound all. -/
theorem span_eq {xs : List Nat} {lo hi : Nat} (hb : ∀ x ∈ xs, lo ≤ x ∧ x ≤ hi) (hlo : lo ∈ xs) (hhi : hi ∈ xs) :
    span xs = hi - lo + 1 := by
  have hmax : xs.max? = some hi := List.max?_eq_some_iff.mpr ⟨hhi, fun x hx => (hb x hx).2⟩
  have hmin : xs.min? = some lo := List.min?_eq_some_iff.mpr ⟨hlo, fun x hx => (hb x hx).1⟩
  cases xs with
  | nil => cases hlo
  | cons a rest =>
    rw [List.max?_cons', Option.some.injEq] at hmax
    rw [List.min?_cons', Option.some.injEq] at hmin
    rw [span, hmax, hmin]

theorem extentOf_eq {cells : List (Nat × Nat)} {x0 x1 y0 y1 : Nat}
    (hb : ∀ c ∈ cells, x0 ≤ c.1 ∧ c.1 ≤ x1 ∧ y0 ≤ c.2 ∧ c.2 ≤ y1) (hx0 : ∃ c ∈ cells, c.1 = x0)
    (hx1 : ∃ c ∈ cells, c.1 = x1) (hy0 : ∃ c ∈ cells, c.2 = y0) (hy1 : ∃ c ∈ cells, c.2 = y1) :
    extentOf cells = max (x1 - x0 + 1) (y1 - y0 + 1) := by
  have hcols : span (cells.map (·.1)) = x1 - x0 + 1 :=
    span_eq (List.forall_mem_map.mpr fun c hc => ⟨(hb c hc).1, (hb c hc).2.1⟩) (List.mem_map.mpr hx0) (List.mem_map.mpr hx1)
  have hrows : span (cells.map (·.2)) = y1 - y0 + 1 :=
    span_eq (List.forall_mem_map.mpr fun c hc => (hb c hc).2.2) (List.mem_map.mpr hy0) (List.mem_map.mpr hy1)
  rw [extentOf, hcols, hrows]

/-- Settles O16, shape by shape. -/
theorem footprintsMarginsAndExtent : Obligations.FootprintsMarginsAndExtent := by
  refine ⟨⟨fun cx cy r i j => Shape.covers_disc, fun cx cy i j => Shape.covers_point,
      fun x1 y1 x2 y2 i j => Shape.covers_box, fun x y i j => ?_, fun pts hw i j => ?_⟩,
    fun sh m i j => Shape.reaches_iff_near,
    fun sh w h => ⟨(mapCells_nodup w h).filter _, fun x y => mem_mapCells_filter,
      fun m => ⟨(mapCells_nodup w h).filter _, fun x y => mem_mapCells_filter⟩⟩,
    fun cells => rfl, rfl, fun cells x0 x1 y0 y1 hb hx0 hx1 hy0 hy1 => extentOf_eq hb hx0 hx1 hy0 hy1⟩
  · rw [Shape.covers_box]
    omega
  · rw [Shape.covers_stroke]
    constructor
    · rintro ⟨c, hc, hi, hj⟩
      refine ⟨c, hi, hj, (mem_strokePoints.mp hc).imp_right ?_⟩
      rintro ⟨m, a, b, ha, hb, hp⟩
      exact ⟨m, a, b, _, ha, hb, rfl, mem_segmentPoints.mp hp⟩
    · rintro ⟨c, hi, hj, h⟩
      refine ⟨c, mem_strokePoints.mpr (h.imp_right ?_), hi, hj⟩
      rintro ⟨m, a, b, n, ha, hb, rfl, hp⟩
      exact ⟨m, a, b, ha, hb, mem_segmentPoints.mpr hp⟩

end Sys2Proof.Machine
end

section
/-!
PROOFS. PART RESET (R178, R186): the level flags judged again, the notice units and the lines after it, and the cells that
LOADING records give back.
-/

namespace Sys2Proof.Machine

open Sys2Proof

/-- A head that is not READY has no eligible placement (R147, R151). -/
theorem State.workAvailable_eq_false {s : State} {h : Head} (hs : (s.heads[h]).state ≠ .ready) :
    s.workAvailable h = false := by
  have hno : decide ((s.heads[h]).state = .ready) = false := decide_eq_false hs
  unfold State.workAvailable
  rw [List.any_eq_false]
  rintro r -
  simp only [State.eligible, hno, Bool.and_false, Bool.false_and, Bool.false_eq_true, not_false_eq_true]

/-- In a part that has not failed and whose heads are OFFLINE no level flag's condition holds (R171). -/
theorem State.levelFlags_eq_zero {s : State} (hc : s.condition ≠ .failed) (hh : ∀ h : Head, (s.heads[h]).state = .offline)
    (p : Port) : s.levelFlags p = 0 := by
  have hfault : s.someFault = false := by
    rw [State.someFault, show (s.heads[0]).state = .offline from hh 0, show (s.heads[1]).state = .offline from hh 1]
    rfl
  have hwork : ∀ h, s.workAvailable h = false := fun h => State.workAvailable_eq_false (by rw [hh]; decide)
  unfold State.levelFlags
  split
  · rw [hfault, if_neg hc]
    rfl
  · rfl
  · rw [hwork]
    rfl

/-- A notice unit at PART RESET while no level flag's condition holds (R178). -/
theorem NoticeUnit.partReset_zero (u : NoticeUnit) (p : Port) :
    u.partReset p 0 = { u with pending := 0, count := 0, timer := .idle, attention := false } := by
  unfold NoticeUnit.partReset NoticeUnit.fall
  rw [NoticeUnit.set_zero, if_pos (by simp [NoticeUnit.calling])]

theorem loadingCells_eq (ps : List Pattern) :
    loadingCells ps = (ps.map fun p => if p.state = .loading then p.reserved else 0).sum := by
  rw [loadingCells, List.sum_eq_foldl, List.foldl_map]

section
variable (s : State)

theorem State.resetBlocks_head (h : Head) : s.resetBlocks.heads[h] =
    { state := .offline, held := [], timer := none, interlock := (s.heads[h]).interlock } :=
  get_map ..

theorem State.partReset_head (h : Head) : s.partReset.heads[h] =
    { state := .offline, held := [], timer := none, interlock := (s.heads[h]).interlock } :=
  s.resetBlocks_head h

theorem State.partReset_pattern (n : PatNo) : s.partReset.patterns[n] =
    if (s.patterns[n]).state = .loading then Pattern.reset else { s.patterns[n] with refs := 0 } :=
  get_map ..

/-- Every output line follows its source in the part after PART RESET, the values staged dropped (R160, R164). -/
theorem State.partReset_line (l : LineNo) : s.partReset.lines[l] = { s.lines[l] with
    work := driveWork (s.lines[l]).work (s.partReset.requested s.lines[l]) (s.lines[l]).width, pendingStaged := none } := by
  show ((s.lines.map fun l => { l with pendingStaged := none }).map fun l => State.drive _ l)[l] = _
  rw [get_map, get_map]
  rfl

variable (hc : s.condition = .ready)
include hc

theorem State.resetBlocks_levelFlags (p : Port) : s.resetBlocks.levelFlags p = 0 := by
  refine State.levelFlags_eq_zero ?_ (fun h => by rw [s.resetBlocks_head h]) p
  show s.condition ≠ .failed
  rw [hc]
  decide

theorem State.partReset_levelFlags (p : Port) : s.partReset.levelFlags p = 0 := s.resetBlocks_levelFlags hc p

theorem State.partReset_notice (p : Port) : s.partReset.notices[p] =
    { s.notices[p] with pending := 0, count := 0, timer := .idle, attention := false } := by
  show (Vector.ofFn fun p => (s.notices[p]).partReset p (s.resetBlocks.levelFlags p))[p] = _
  rw [get_ofFn, s.resetBlocks_levelFlags hc, NoticeUnit.partReset_zero]

end

/-- Settles O5, block by block. -/
theorem partResetResets : Obligations.PartResetResets := by
  intro s ht
  let u := s.hunt 0
  have hc : u.condition = .ready := ht.2
  refine ⟨_, exec_partReset ht, State.repliedFrom_owe s u.partReset .partReset 0 [] rfl,
    fun k => ⟨get_replicate .., get_replicate .., get_replicate .., get_replicate ..⟩, rfl, rfl, rfl, rfl, rfl, rfl,
    fun n => get_replicate .., rfl, rfl, u.partReset_head, rfl, u.partReset_pattern, ?_, fun p => ⟨?_, ?_⟩, fun l => ?_,
    rfl, rfl, rfl, rfl, rfl, rfl, rfl, rfl, rfl, rfl⟩
  · exact congrArg (s.freeCells + ·) (loadingCells_eq s.patterns.toList)
  · exact u.partReset_levelFlags hc p
  · have hlevel : (u.partReset.owe 0 (.reply { kind := Kind.partReset.byte, refusal := none, payload := [] })).levelFlags p =
        0 := u.partReset_levelFlags hc p
    rw [hlevel]
    exact u.partReset_notice hc p
  · have hline := u.partReset_line l
    have hrequested : u.partReset.requested u.partReset.lines[l] = u.partReset.requested u.lines[l] := by
      rw [hline]
      rfl
    rw [← hrequested] at hline
    exact hline

end Sys2Proof.Machine
end

section
/-!
PROOFS. HIDE REPORT, FLAW READ, LIBRARY READ and DEMAND READ (R22, R53, R54, R68, R69, R117, R118): the answer of each
owner check by check, and the bytes of what they report.
-/

namespace Sys2Proof.Machine

open Sys2Proof

/-! ### HIDE REPORT (R117, R118) -/

theorem hideReportAnswer_noCtx {pl : List Byte} (h : 1 < u8 pl 0) (p : Port) (s : State) :
    hideReportAnswer p pl s = .refuse .range := by
  unfold hideReportAnswer
  rw [index?_none h]

theorem hideReportAnswer_empty {pl : List Byte} {s : State} {k : Ctx} (hk : u8 pl 0 = k.val)
    (h : (s.ctxs[k]).state = .empty) (p : Port) : hideReportAnswer p pl s = .refuse .state := by
  unfold hideReportAnswer
  rw [index?_of_eq k hk]
  exact if_pos h

theorem hideReportAnswer_accept {pl : List Byte} {s : State} {k : Ctx} (hk : u8 pl 0 = k.val)
    (h : (s.ctxs[k]).state ≠ .empty) (p : Port) : hideReportAnswer p pl s = .accept (s.reportBytes k) := by
  unfold hideReportAnswer
  rw [index?_of_eq k hk]
  exact if_neg h

/-- The bytes of a hide report, the counts of its records state by state (R117). -/
theorem State.reportBytes_eq (s : State) (k : Ctx) : s.reportBytes k =
    enc1 k.val ++ enc1 (s.ctxs[k]).state.code ++ encFlag (s.ctxs[k]).aborted ++ enc2 (s.ctxs[k]).width ++
      enc2 (s.ctxs[k]).height ++ enc2 (s.ctxs[k]).commits.toNat ++
      ([PlacementState.placed, .claimed, .cutting, .cut, .spoiled, .missed, .withdrawn].flatMap fun st =>
        enc2 (s.countIn k st)) ++
      enc3 (s.usable k) ++ enc3 (s.cutCells k) ++ enc2 (utilisation (s.usable k) (s.cutCells k)) ++
      enc2 (cutArea (s.cutCells k)) := by
  simp only [State.reportBytes, List.flatMap_cons, List.flatMap_nil, List.append_nil, List.append_assoc]

theorem State.cutCells_eq (s : State) (k : Ctx) : s.cutCells k =
    ((s.records.filter fun r => r.2.ctx = k && r.2.state = .cut).map fun r => r.2.covered).sum := by
  rw [State.cutCells, List.sum_eq_foldl]

theorem State.usable_eq (s : State) (k : Ctx) : s.usable k =
    (mapCells (s.ctxs[k]).width (s.ctxs[k]).height).countP fun xy =>
      decide (1 ≤ min (s.cell k xy.1 xy.2).base.val (s.cell k xy.1 xy.2).cap.val) := by
  simp only [State.usable, Cell.effective_val]

/-! ### FLAW READ (R22) -/

theorem flawReadAnswer_noCtx {pl : List Byte} (h : 1 < u8 pl 0) (s : State) :
    flawReadAnswer 1 pl s = .refuse .range := by
  unfold flawReadAnswer
  rw [index?_none h]

theorem flawReadAnswer_empty {pl : List Byte} {s : State} {k : Ctx} (hk : u8 pl 0 = k.val)
    (h : (s.ctxs[k]).state = .empty) : flawReadAnswer 1 pl s = .refuse .state := by
  unfold flawReadAnswer
  rw [index?_of_eq k hk]
  exact if_pos h

theorem flawReadAnswer_range {pl : List Byte} {s : State} {k : Ctx} (hk : u8 pl 0 = k.val)
    (h : (s.ctxs[k]).state ≠ .empty) (hn : 511 < u16 pl 1) : flawReadAnswer 1 pl s = .refuse .range := by
  unfold flawReadAnswer
  rw [index?_of_eq k hk]
  exact (if_neg h).trans (if_pos hn)

theorem flawReadAnswer_notFound {pl : List Byte} {s : State} {k : Ctx} (hk : u8 pl 0 = k.val)
    (h : (s.ctxs[k]).state ≠ .empty) (hn : u16 pl 1 ≤ 511) (hlen : (s.flaws[k]).length ≤ u16 pl 1) :
    flawReadAnswer 1 pl s = .refuse .notFound := by
  unfold flawReadAnswer
  rw [index?_of_eq k hk]
  dsimp only
  rw [if_neg h, if_neg (show ¬ 512 ≤ u16 pl 1 by omega), List.getElem?_eq_none hlen]

theorem flawReadAnswer_accept {pl : List Byte} {s : State} {k : Ctx} {f : Flaw} (hk : u8 pl 0 = k.val)
    (h : (s.ctxs[k]).state ≠ .empty) (hn : u16 pl 1 ≤ 511) (hf : (s.flaws[k])[u16 pl 1]? = some f) :
    flawReadAnswer 1 pl s =
      .accept (f.bytes (u16 pl 1) ++ enc2 (s.flaws[k]).length ++ enc1 (s.jobCode k (u16 pl 1))) := by
  unfold flawReadAnswer
  rw [index?_of_eq k hk]
  dsimp only
  rw [if_neg h, if_neg (show ¬ 512 ≤ u16 pl 1 by omega), hf]

/-- The bytes of a shape, written out (R189; log 11). -/
theorem Shape.bytes_eq (sh : Shape) : sh.bytes =
    match sh with
    | .disc cx cy r => [0] ++ encS2 cx ++ encS2 cy ++ enc1 r
    | .box x1 y1 x2 y2 => [1] ++ encS2 x1 ++ encS2 y1 ++ encS2 x2 ++ encS2 y2
    | .stroke pts hw => [2] ++ enc1 hw ++ enc1 pts.length ++ pts.flatMap fun a => encS2 a.1 ++ encS2 a.2 := by
  cases sh <;> rfl

/-- The bytes of a flaw record, written out (R18, R22; log 11). -/
theorem Flaw.bytes_eq (n : Nat) (f : Flaw) : f.bytes n =
    enc2 n ++ enc1 f.category ++ enc1 f.severity ++ (match f.source with | .scanner => [0] | .operator => [1]) ++
      (match f.shape with
        | .disc cx cy r => [0] ++ encS2 cx ++ encS2 cy ++ enc1 r
        | .box x1 y1 x2 y2 => [1] ++ encS2 x1 ++ encS2 y1 ++ encS2 x2 ++ encS2 y2
        | .stroke pts hw => [2] ++ enc1 hw ++ enc1 pts.length ++ pts.flatMap fun a => encS2 a.1 ++ encS2 a.2) ++
      enc1 f.state.code ++
      (match f.classified with
        | none => [255, 255, 255, 255, 255, 255, 255, 255]
        | some c => enc1 c.cls.val ++ enc1 c.margin ++ encOpt (c.cap.map fun g => g.val) ++ enc2 c.extent ++
            enc3 c.area) := by
  obtain ⟨category, severity, source, shape, state, classified⟩ := f
  cases source <;> cases shape <;> cases classified <;> rfl

theorem State.jobCode_eq (s : State) (k : Ctx) (n : Nat) : s.jobCode k n =
    if ∃ j ∈ s.jobs, j.ctx = k ∧ j.flaw = n then 0
    else if ∃ j, s.inFlight = some j ∧ j.ctx = k ∧ j.flaw = n then 1 else 2 := by
  simp only [State.jobCode, List.any_eq_true, Option.any_eq_true, Bool.and_eq_true, decide_eq_true_eq]

/-! ### LIBRARY READ (R53, R54) -/

theorem libraryReadAnswer_range {pl : List Byte} (h : 127 < u8 pl 0 ∨ 1 < u8 pl 1) (s : State) :
    libraryReadAnswer 0 pl s = .refuse .range := by
  unfold libraryReadAnswer
  split
  · rfl
  · rename_i n hn
    rw [index?_eq_some] at hn
    have hsel : 1 < u8 pl 1 := h.resolve_left (by omega)
    rw [if_neg (by omega), if_neg (by omega)]

theorem libraryReadAnswer_record {pl : List Byte} {n : PatNo} (hn : u8 pl 0 = n.val) (h : u8 pl 1 = 0) (s : State) :
    libraryReadAnswer 0 pl s = .accept (s.patternBytes n) := by
  unfold libraryReadAnswer
  rw [index?_of_eq n hn]
  exact if_pos h

/-- The mask form of a LIBRARY READ, its checks left (R54). -/
theorem libraryReadAnswer_mask {pl : List Byte} {n : PatNo} (hn : u8 pl 0 = n.val) (h : u8 pl 1 = 1) (s : State) :
    libraryReadAnswer 0 pl s = if (s.patterns[n]).state = .empty then .refuse .state
      else if (s.patterns[n]).mask.length ≤ u8 pl 2 then .refuse .range
      else .accept (maskBytes n s.patterns[n] (u8 pl 2)) := by
  unfold libraryReadAnswer
  rw [index?_of_eq n hn]
  dsimp only
  rw [if_neg (by omega), if_pos h]

/-- The first index in range that has a property. -/
theorem find?_finRange {n : Nat} {P : Fin n → Bool} {i : Fin n} (h : P i = true) (hlow : ∀ j, j < i → P j = false) :
    (List.finRange n).find? P = some i := by
  refine List.find?_eq_some_iff_getElem.mpr ⟨h, i.val, by simp, by simp, fun j hj => ?_⟩
  rw [List.getElem_finRange, hlow _ hj]
  rfl

theorem State.loading?_none {s : State} (h : ∀ n : PatNo, (s.patterns[n]).state ≠ .loading) : s.loading? = none := by
  rw [Option.eq_none_iff_forall_ne_some]
  exact fun n hn => h n (State.loading?_state hn)

theorem State.loading?_first {s : State} {n : PatNo} (h : (s.patterns[n]).state = .loading)
    (hlow : ∀ m : PatNo, m < n → (s.patterns[m]).state ≠ .loading) : s.loading? = some n := by
  have hfind : (List.finRange 128).find? (fun m => decide ((s.patterns[m]).state = .loading)) = some n :=
    find?_finRange (decide_eq_true h) fun m hm => decide_eq_false (hlow m hm)
  rw [State.loading?, indexed_eq, List.find?_map]
  exact congrArg (fun o => (o.map fun i => (i, s.patterns[i])).map (·.1)) hfind

/-- The bytes of a pattern record, written out (R53). -/
theorem State.patternBytes_eq (s : State) (n : PatNo) : s.patternBytes n =
    enc1 (s.patterns[n]).state.code ++ enc1 (s.patterns[n]).w ++ enc1 (s.patterns[n]).h ++
      enc1 (s.patterns[n]).mask.length ++ enc1 (s.patterns[n]).kind ++
      enc1 (s.patterns[n]).face.minGrade ++ [(s.patterns[n]).face.tolerated] ++
      enc1 (s.patterns[n]).hidden.minGrade ++ [(s.patterns[n]).hidden.tolerated] ++
      enc1 (s.patterns[n]).edge.minGrade ++ [(s.patterns[n]).edge.tolerated] ++ [(s.patterns[n]).orients] ++
      enc2 (s.patterns[n]).covered ++ enc2 (s.patterns[n]).reserved ++ enc2 (s.patterns[n]).refs ++
      enc3 s.freeCells ++ (match s.loading? with | none => [255] | some m => enc1 m.val) := by
  have hload : encOpt (s.loading?.map fun m => m.val) = match s.loading? with | none => [255] | some m => enc1 m.val := by
    cases s.loading? <;> rfl
  rw [State.patternBytes, hload]
  simp only [Requirement.bytes, List.append_assoc]

/-! ### DEMAND READ (R68, R69) -/

theorem demandReadAnswer_entry {pl : List Byte} {s : State} {t : Tag} {x : Entry} (ht : u8 pl 0 = t.val)
    (hx : s.entry? t = some x) : demandReadAnswer 0 pl s = .accept (s.entryBytes x) := by
  unfold demandReadAnswer
  rw [index?_of_eq t ht]
  dsimp only
  rw [hx]

theorem demandReadAnswer_notFound {pl : List Byte} {s : State} {t : Tag} (ht : u8 pl 0 = t.val)
    (hx : s.entry? t = none) : demandReadAnswer 0 pl s = .refuse .notFound := by
  unfold demandReadAnswer
  rw [index?_of_eq t ht]
  dsimp only
  rw [hx]

theorem demandReadAnswer_list {pl : List Byte} (h : u8 pl 0 = 64) (s : State) :
    demandReadAnswer 0 pl s = .accept s.queueBytes := by
  unfold demandReadAnswer
  rw [index?_none h.ge]
  exact if_pos h

theorem demandReadAnswer_range {pl : List Byte} (h : 64 < u8 pl 0) (s : State) :
    demandReadAnswer 0 pl s = .refuse .range := by
  unfold demandReadAnswer
  rw [index?_none h.le]
  exact if_neg h.ne'

theorem State.position_eq {s : State} {before after : List Entry} {x : Entry} (h : s.entries = before ++ x :: after)
    (hb : ∀ y ∈ before, y.tag ≠ x.tag) : s.position x.tag = before.length := by
  have hnone : before.findIdx (fun y => decide (y.tag = x.tag)) = before.length :=
    List.findIdx_eq_length_of_false fun y hy => decide_eq_false (hb y hy)
  rw [State.position, h, List.findIdx_append, hnone, if_neg (lt_irrefl _), List.findIdx_cons]
  simp

/-! ### The four reads -/

theorem exec_hideReport {p : Port} {pl : List Byte} {s : State} (hp : p = 0 ∨ p = 1) (hs : s.takesRead p)
    (hl : pl.length = 1) :
    (∀ {c : Code}, hideReportAnswer p pl (s.hunt p) = .refuse c →
      exec (.hideReport p pl) s = .next (s.refused .hideReport p c)) ∧
    ∀ {a : List Byte}, hideReportAnswer p pl (s.hunt p) = .accept a →
      exec (.hideReport p pl) s = .next (s.answered .hideReport p a) := by
  have ha : Kind.hideReport.accepts p = true := by rcases hp with rfl | rfl <;> rfl
  exact ⟨fun h => request_read_refuses hs rfl ha (decide_eq_true hl) h,
    fun h => request_read_accepts hs rfl ha (decide_eq_true hl) h⟩

theorem exec_flawRead {pl : List Byte} {s : State} (hs : s.takesRead 1) (hl : pl.length = 3) :
    (∀ {c : Code}, flawReadAnswer 1 pl (s.hunt 1) = .refuse c →
      exec (.flawRead 1 pl) s = .next (s.refused .flawRead 1 c)) ∧
    ∀ {a : List Byte}, flawReadAnswer 1 pl (s.hunt 1) = .accept a →
      exec (.flawRead 1 pl) s = .next (s.answered .flawRead 1 a) :=
  ⟨fun h => request_read_refuses hs rfl rfl (decide_eq_true hl) h,
    fun h => request_read_accepts hs rfl rfl (decide_eq_true hl) h⟩

/-- Both forms of a LIBRARY READ are one request (R53, R54). -/
theorem exec_libraryRead {pl : List Byte} {s : State} (hs : s.takesRead 0) (hl : pl.length = 3) :
    (∀ {c : Code}, libraryReadAnswer 0 pl (s.hunt 0) = .refuse c →
      exec (.libraryReadRecord 0 pl) s = .next (s.refused .libraryRead 0 c) ∧
      exec (.libraryReadMask 0 pl) s = .next (s.refused .libraryRead 0 c)) ∧
    ∀ {a : List Byte}, libraryReadAnswer 0 pl (s.hunt 0) = .accept a →
      exec (.libraryReadRecord 0 pl) s = .next (s.answered .libraryRead 0 a) ∧
      exec (.libraryReadMask 0 pl) s = .next (s.answered .libraryRead 0 a) :=
  ⟨fun h => ⟨request_read_refuses hs rfl rfl (decide_eq_true hl) h, request_read_refuses hs rfl rfl (decide_eq_true hl) h⟩,
    fun h => ⟨request_read_accepts hs rfl rfl (decide_eq_true hl) h, request_read_accepts hs rfl rfl (decide_eq_true hl) h⟩⟩

/-- Both forms of a DEMAND READ are one request (R68, R69). -/
theorem exec_demandRead {pl : List Byte} {s : State} (hs : s.takesRead 0) (hl : pl.length = 1) :
    (∀ {c : Code}, demandReadAnswer 0 pl (s.hunt 0) = .refuse c →
      exec (.demandReadEntry 0 pl) s = .next (s.refused .demandRead 0 c) ∧
      exec (.demandReadList 0 pl) s = .next (s.refused .demandRead 0 c)) ∧
    ∀ {a : List Byte}, demandReadAnswer 0 pl (s.hunt 0) = .accept a →
      exec (.demandReadEntry 0 pl) s = .next (s.answered .demandRead 0 a) ∧
      exec (.demandReadList 0 pl) s = .next (s.answered .demandRead 0 a) :=
  ⟨fun h => ⟨request_read_refuses hs rfl rfl (decide_eq_true hl) h, request_read_refuses hs rfl rfl (decide_eq_true hl) h⟩,
    fun h => ⟨request_read_accepts hs rfl rfl (decide_eq_true hl) h, request_read_accepts hs rfl rfl (decide_eq_true hl) h⟩⟩

/-- Settles O8, read by read. -/
theorem hideLibraryAndDemandReadsReply : Obligations.HideLibraryAndDemandReadsReply := by
  refine ⟨⟨fun p pl s hp hs hl => ?_, fun pl s hs hl => ?_,
      ⟨fun _ _ => rfl, fun _ => rfl, rfl, rfl, State.cutCells_eq, State.usable_eq⟩⟩,
    fun pl s hs hl h => (exec_libraryRead hs hl).1 (libraryReadAnswer_range h _),
    fun s => ⟨State.loading?_none, fun n => State.loading?_first⟩, fun pl s n hs hl hn => ⟨fun h => ?_, fun h => ?_⟩,
    fun s before after x => State.position_eq, fun pl s hs hl => ?_⟩
  · obtain ⟨refuses, accepts⟩ := exec_hideReport hp hs hl
    refine ⟨fun h => refuses (hideReportAnswer_noCtx h _ _), fun k hk =>
      ⟨fun h => refuses (hideReportAnswer_empty (s := s.hunt p) hk h p), fun h => ?_⟩⟩
    have hanswer := hideReportAnswer_accept (s := s.hunt p) hk h p
    rw [State.reportBytes_eq] at hanswer
    exact accepts hanswer
  · obtain ⟨refuses, accepts⟩ := exec_flawRead hs hl
    refine ⟨fun h => refuses (flawReadAnswer_noCtx h _), fun k hk =>
      ⟨fun h => refuses (flawReadAnswer_empty (s := s.hunt 1) hk h), fun h =>
        ⟨fun hn => refuses (flawReadAnswer_range (s := s.hunt 1) hk h hn),
          fun hn hlen => refuses (flawReadAnswer_notFound (s := s.hunt 1) hk h hn hlen), fun hn f hf => ?_,
          fun n => s.jobCode_eq k n⟩⟩⟩
    have hanswer := flawReadAnswer_accept (s := s.hunt 1) hk h hn hf
    rw [Flaw.bytes_eq] at hanswer
    exact accepts hanswer
  · have hanswer := libraryReadAnswer_record hn h (s.hunt 0)
    rw [State.patternBytes_eq] at hanswer
    exact ((exec_libraryRead hs hl).2 hanswer).1
  · obtain ⟨refuses, accepts⟩ := exec_libraryRead hs hl
    have hanswer := libraryReadAnswer_mask hn h (s.hunt 0)
    exact ⟨fun he => (refuses (hanswer.trans (if_pos he))).2,
      fun he hrow => (refuses (hanswer.trans ((if_neg he).trans (if_pos hrow)))).2,
      fun he hrow => ⟨_, rfl, (accepts (hanswer.trans ((if_neg he).trans (if_neg (Nat.not_le.mpr hrow))))).2⟩⟩
  · obtain ⟨refuses, accepts⟩ := exec_demandRead hs hl
    exact ⟨fun t x ht hx => (accepts (demandReadAnswer_entry (s := s.hunt 0) ht hx)).1,
      fun t ht hx => (refuses (demandReadAnswer_notFound (s := s.hunt 0) ht hx)).1,
      fun h => (accepts (demandReadAnswer_list h _)).2, fun h => (refuses (demandReadAnswer_range h _)).2⟩

end Sys2Proof.Machine
end

section
/-!
PROOFS. The end of a WITHDRAW job (R26, R91): the rectangle it recomputes, the cap and class set that the APPLIED flaws
give a cell, and the event.
-/

namespace Sys2Proof.Machine

open Sys2Proof

/-! ### The corners of a bounding box (R26; log 19) -/

/-- The least or greatest of some numbers, with one to begin from, is one of them. -/
theorem foldl_choice {α : Type} {op : Int → Int → Int} (hop : ∀ a b, op a b = a ∨ op a b = b) (f : α → Int) (xs : List α)
    (z : Int) : xs.foldl (fun z x => op z (f x)) z = z ∨ ∃ x ∈ xs, xs.foldl (fun z x => op z (f x)) z = f x := by
  induction xs generalizing z with
  | nil => exact .inl rfl
  | cons y ys ih =>
    rw [List.foldl_cons]
    rcases ih (op z (f y)) with h | ⟨x, hx, h⟩
    · rcases hop z (f y) with hz | hz
      · exact .inl (h.trans hz)
      · exact .inr ⟨y, List.mem_cons_self, h.trans hz⟩
    · exact .inr ⟨x, List.mem_cons_of_mem _ hx, h⟩

/-- The least or greatest coordinate of the points of a stroke is that of a point. -/
theorem foldl_choice_point {op : Int → Int → Int} (hop : ∀ a b, op a b = a ∨ op a b = b) (f : Int × Int → Int)
    {pts : List (Int × Int)} (h : pts ≠ []) :
    ∃ p ∈ pts, pts.foldl (fun z p => op z (f p)) (f (pts.headD (0, 0))) = f p := by
  rcases foldl_choice hop f pts (f (pts.headD (0, 0))) with hz | hp
  · cases pts with
    | nil => exact absurd rfl h
    | cons a rest => exact ⟨a, List.mem_cons_self, hz⟩
  · exact hp

theorem left_mem_segmentPoints (a b : Int × Int) : a ∈ segmentPoints a b := by
  rw [mem_segmentPoints]
  unfold onSegment
  generalize max (b.1 - a.1).natAbs (b.2 - a.2).natAbs = n
  rcases Nat.eq_zero_or_pos n with h | h
  · exact .inl ⟨h, rfl⟩
  · refine .inr ⟨0, Nat.zero_le n, ?_⟩
    simp only [sub_self, Nat.cast_zero, mul_zero, zero_mul, zero_add, mul_one]
    omega

theorem right_mem_segmentPoints (a b : Int × Int) : b ∈ segmentPoints a b := by
  rw [mem_segmentPoints]
  unfold onSegment
  generalize hn : max (b.1 - a.1).natAbs (b.2 - a.2).natAbs = n
  rcases Nat.eq_zero_or_pos n with h | h
  · exact .inl ⟨h, Prod.ext (by omega) (by omega)⟩
  · refine .inr ⟨n, le_refl n, ?_⟩
    simp only [mul_add, mul_one]
    omega

/-- The points that a stroke is given by are stamped (R28). -/
theorem mem_strokePoints_of_mem {pts : List (Int × Int)} {p : Int × Int} (h : p ∈ pts) : p ∈ strokePoints pts := by
  obtain ⟨m, hm, rfl⟩ := List.mem_iff_getElem.mp h
  rw [mem_strokePoints]
  by_cases hnext : m + 1 < pts.length
  · exact .inr ⟨m, _, _, List.getElem?_eq_getElem hm, List.getElem?_eq_getElem hnext, left_mem_segmentPoints _ _⟩
  · match m with
    | 0 =>
      obtain ⟨a, rfl⟩ := List.length_eq_one_iff.mp (show pts.length = 1 by omega)
      exact .inl rfl
    | m + 1 =>
      exact .inr ⟨m, pts[m], _, List.getElem?_eq_getElem _, List.getElem?_eq_getElem hm, right_mem_segmentPoints _ _⟩

/-- Every side of a bounding box touches the footprint. -/
theorem Shape.bounds_touched {sh : Shape} (h : ∀ hw, sh ≠ .stroke [] hw) :
    (∃ v, sh.covers sh.bounds.1 v = true) ∧ (∃ v, sh.covers sh.bounds.2.1 v = true) ∧
    (∃ u, sh.covers u sh.bounds.2.2.1 = true) ∧ ∃ u, sh.covers u sh.bounds.2.2.2 = true := by
  cases sh with
  | disc cx cy r =>
    simp only [Shape.bounds, Shape.covers_disc]
    exact ⟨⟨cy, by simp⟩, ⟨cy, by simp⟩, ⟨cx, by simp⟩, ⟨cx, by simp⟩⟩
  | box x1 y1 x2 y2 =>
    simp only [Shape.bounds, Shape.covers_box]
    exact ⟨⟨y1, by omega⟩, ⟨y1, by omega⟩, ⟨x1, by omega⟩, ⟨x1, by omega⟩⟩
  | stroke pts hw =>
    have hne : pts ≠ [] := fun hp => h hw (by rw [hp])
    obtain ⟨p1, h1, e1⟩ := foldl_choice_point min_choice (fun p => p.1) hne
    obtain ⟨p2, h2, e2⟩ := foldl_choice_point max_choice (fun p => p.1) hne
    obtain ⟨p3, h3, e3⟩ := foldl_choice_point min_choice (fun p => p.2) hne
    obtain ⟨p4, h4, e4⟩ := foldl_choice_point max_choice (fun p => p.2) hne
    simp only [Shape.bounds, Shape.covers_stroke]
    exact ⟨⟨p1.2, p1, mem_strokePoints_of_mem h1, by omega, by omega⟩,
      ⟨p2.2, p2, mem_strokePoints_of_mem h2, by omega, by omega⟩,
      ⟨p3.1, p3, mem_strokePoints_of_mem h3, by omega, by omega⟩,
      ⟨p4.1, p4, mem_strokePoints_of_mem h4, by omega, by omega⟩⟩

theorem Shape.reaches_inBox {sh : Shape} {m : Nat} {i j : Int} (h : sh.reaches m i j = true) :
    sh.bounds.1 - m ≤ i ∧ i ≤ sh.bounds.2.1 + m ∧ sh.bounds.2.2.1 - m ≤ j ∧ j ≤ sh.bounds.2.2.2 + m := by
  obtain ⟨u, v, hc, hu, hv⟩ := Shape.reaches_iff_near.mp h
  have hb := Shape.covers_inBox hc
  simp only [inBox] at hb
  omega

/-- A cell lies in the box of a shape and its margin as it lies between cells that they reach. -/
theorem Shape.boxed_iff {sh : Shape} (h : ∀ hw, sh ≠ .stroke [] hw) (m x y : Nat) : sh.boxed m (x, y) = true ↔
    (∃ u v : Int, sh.reaches m u v = true ∧ u ≤ x) ∧ (∃ u v : Int, sh.reaches m u v = true ∧ (x : Int) ≤ u) ∧
    (∃ u v : Int, sh.reaches m u v = true ∧ v ≤ y) ∧ ∃ u v : Int, sh.reaches m u v = true ∧ (y : Int) ≤ v := by
  simp only [Shape.boxed, Bool.and_eq_true, decide_eq_true_eq, and_assoc]
  obtain ⟨⟨v1, h1⟩, ⟨v2, h2⟩, ⟨u3, h3⟩, ⟨u4, h4⟩⟩ := Shape.bounds_touched h
  refine and_congr ⟨fun hx => ?_, ?_⟩ (and_congr ⟨fun hx => ?_, ?_⟩ (and_congr ⟨fun hy => ?_, ?_⟩ ⟨fun hy => ?_, ?_⟩))
  · exact ⟨sh.bounds.1 - m, v1, Shape.reaches_iff_near.mpr ⟨_, _, h1, by omega, by omega⟩, hx⟩
  · rintro ⟨u, v, hr, hu⟩
    have := Shape.reaches_inBox hr
    omega
  · exact ⟨sh.bounds.2.1 + m, v2, Shape.reaches_iff_near.mpr ⟨_, _, h2, by omega, by omega⟩, hx⟩
  · rintro ⟨u, v, hr, hu⟩
    have := Shape.reaches_inBox hr
    omega
  · exact ⟨u3, sh.bounds.2.2.1 - m, Shape.reaches_iff_near.mpr ⟨_, _, h3, by omega, by omega⟩, hy⟩
  · rintro ⟨u, v, hr, hv⟩
    have := Shape.reaches_inBox hr
    omega
  · exact ⟨u4, sh.bounds.2.2.2 + m, Shape.reaches_iff_near.mpr ⟨_, _, h4, by omega, by omega⟩, hy⟩
  · rintro ⟨u, v, hr, hv⟩
    have := Shape.reaches_inBox hr
    omega

/-! ### What the APPLIED flaws give a cell (R26) -/

theorem mem_appliedFlaws {fs : List Flaw} {sh : Shape} {d : Classified} : (sh, d) ∈ appliedFlaws fs ↔
    ∃ f ∈ fs, f.state = .applied ∧ f.classified = some d ∧ f.shape = sh := by
  unfold appliedFlaws
  rw [List.mem_filterMap]
  refine exists_congr fun f => and_congr_right fun _ => ?_
  by_cases hs : f.state = .applied
  · cases hc : f.classified <;> simp [hs, and_comm]
  · simp [hs]

theorem recomputedCap_append (fs : List (Shape × Classified)) (f : Shape × Classified) (xy : Nat × Nat) :
    recomputedCap (fs ++ [f]) xy = lowered xy (recomputedCap fs xy) f := recomputedCap_perm (List.Perm.refl _) xy

theorem recomputedClasses_append (fs : List (Shape × Classified)) (f : Shape × Classified) (xy : Nat × Nat) :
    recomputedClasses (fs ++ [f]) xy = widened xy (recomputedClasses fs xy) f := recomputedClasses_perm (List.Perm.refl _) xy

theorem lowered_le (xy : Nat × Nat) (g : Grade) (f : Shape × Classified) : lowered xy g f ≤ g := by
  unfold lowered capWith
  split
  · split
    · exact le_refl g
    · rw [lesser_eq_min]
      exact min_le_left ..
  · exact le_refl g

theorem lowered_of_covers {xy : Nat × Nat} {f : Shape × Classified} {c : Grade} (h : f.1.covers xy.1 xy.2 = true)
    (hc : f.2.cap = some c) (g : Grade) : lowered xy g f = min g c := by
  rw [lowered, if_pos h, hc, ← lesser_eq_min]
  rfl

/-- A flaw leaves a cap or gives its own. -/
theorem lowered_choice (xy : Nat × Nat) (g : Grade) (f : Shape × Classified) :
    lowered xy g f = g ∨ (f.1.covers xy.1 xy.2 = true ∧ f.2.cap = some (lowered xy g f)) := by
  by_cases h : f.1.covers xy.1 xy.2 = true
  · cases hc : f.2.cap with
    | none => exact .inl (by rw [lowered, if_pos h, hc]; rfl)
    | some c =>
      rw [lowered_of_covers h hc]
      exact (min_choice g c).imp_right fun hm => ⟨h, by rw [hm]⟩
  · exact .inl (if_neg h)

theorem recomputedCap_le {fs : List (Shape × Classified)} {f : Shape × Classified} {xy : Nat × Nat} {g : Grade}
    (hf : f ∈ fs) (hc : f.1.covers xy.1 xy.2 = true) (hg : f.2.cap = some g) : recomputedCap fs xy ≤ g := by
  induction fs using List.reverseRecOn with
  | nil => cases hf
  | append_singleton fs e ih =>
    rw [recomputedCap_append]
    rcases List.mem_append.mp hf with hf | hf
    · exact (lowered_le xy _ e).trans (ih hf)
    · rw [List.mem_singleton] at hf
      subst hf
      rw [lowered_of_covers hc hg]
      exact min_le_right ..

/-- The cap of a cell is 7 or that of a flaw whose footprint covers it. -/
theorem recomputedCap_choice (fs : List (Shape × Classified)) (xy : Nat × Nat) : recomputedCap fs xy = 7 ∨
    ∃ f ∈ fs, f.1.covers xy.1 xy.2 = true ∧ f.2.cap = some (recomputedCap fs xy) := by
  induction fs using List.reverseRecOn with
  | nil => exact .inl rfl
  | append_singleton fs e ih =>
    rw [recomputedCap_append]
    rcases lowered_choice xy (recomputedCap fs xy) e with h | h
    · rw [h]
      exact ih.imp_right fun ⟨f, hf, hcov⟩ => ⟨f, List.mem_append_left _ hf, hcov⟩
    · exact .inr ⟨e, List.mem_append_right _ List.mem_cons_self, h⟩

theorem classBit_getLsbD (c i : Grade) : (classBit c).getLsbD i.val = decide (c = i) := by
  rw [classBit, BitVec.getLsbD_twoPow]
  simp [Fin.ext_iff]

/-- The classes of a cell are those of the flaws that reach it. -/
theorem recomputedClasses_iff (fs : List (Shape × Classified)) (xy : Nat × Nat) (i : Grade) :
    (recomputedClasses fs xy).getLsbD i.val = true ↔ ∃ f ∈ fs, f.1.reaches f.2.margin xy.1 xy.2 = true ∧ f.2.cls = i := by
  induction fs using List.reverseRecOn with
  | nil => simp [recomputedClasses]
  | append_singleton fs e ih =>
    have hlast : (widened xy (recomputedClasses fs xy) e).getLsbD i.val = true ↔
        (recomputedClasses fs xy).getLsbD i.val = true ∨ (e.1.reaches e.2.margin xy.1 xy.2 = true ∧ e.2.cls = i) := by
      unfold widened
      split
      · rename_i hr
        simp only [BitVec.getLsbD_or, classBit_getLsbD, Bool.or_eq_true, decide_eq_true_eq, hr, true_and]
      · rename_i hr
        simp only [hr, false_and, or_false, Bool.false_eq_true]
    rw [recomputedClasses_append, hlast, ih]
    simp only [List.mem_append, List.mem_singleton, or_and_right, exists_or, exists_eq_left]

/-- A cell with the cap and class set of the APPLIED flaws is marked by them (R3, R26). -/
theorem Cell.markedBy_of_recomputed {fs : List Flaw} {x y : Nat} {c : Cell}
    (hcap : c.cap = recomputedCap (appliedFlaws fs) (x, y)) (hcls : c.classes = recomputedClasses (appliedFlaws fs) (x, y)) :
    c.markedBy fs x y := by
  refine ⟨fun f hf d g hs hd hc hg => ?_, ?_, fun i => ?_⟩
  · rw [hcap]
    exact recomputedCap_le (mem_appliedFlaws.mpr ⟨f, hf, hs, hd, rfl⟩) hc hg
  · rw [hcap]
    refine (recomputedCap_choice (appliedFlaws fs) (x, y)).imp_right ?_
    rintro ⟨⟨sh, d⟩, hm, hc, hg⟩
    obtain ⟨f, hf, hs, hd, rfl⟩ := mem_appliedFlaws.mp hm
    exact ⟨f, hf, d, hs, hd, hc, hg⟩
  · rw [hcls, recomputedClasses_iff]
    constructor
    · rintro ⟨⟨sh, d⟩, hm, hr, hi⟩
      obtain ⟨f, hf, hs, hd, rfl⟩ := mem_appliedFlaws.mp hm
      exact ⟨f, hf, d, hs, hd, hr, hi⟩
    · rintro ⟨f, hf, d, hs, hd, hr, hi⟩
      exact ⟨(f.shape, d), mem_appliedFlaws.mpr ⟨f, hf, hs, hd, rfl⟩, hr, hi⟩

theorem read_recomputePlane {p : Plane} (hp : p.wf = true) (sh : Shape) (m : Nat) {w : Nat} (h : Nat) (hw : w ≤ 768)
    (fs : List (Shape × Classified)) {x : Nat} (y : Nat) (hx : x < 768) :
    (recomputePlane p (sh.rectangle m w h) fs).read (cellAddr x y) =
      if (x, y) ∈ sh.rectangle m w h then
        { p.read (cellAddr x y) with cap := recomputedCap fs (x, y), classes := recomputedClasses fs (x, y) }
      else p.read (cellAddr x y) := by
  rw [Shape.rectangle_eq, recomputePlane, Plane.read_update_filter w h _ _ p x y hp hw hx]
  simp only [mem_mapCells_filter]

/-! ### The event -/

/-- The state the end of a WITHDRAW job comes to. -/
def State.unapplied (s : State) (k : Ctx) (n : Nat) (f : Flaw) (c : Classified) : State :=
  settle s.advanceScan (s.unapplying k n f c)

theorem exec_withdrawJobCompletion {s : State} {k : Ctx} {n : Nat} {f : Flaw} {c : Classified}
    (hj : s.inFlight = some { kind := .withdraw, ctx := k, flaw := n }) (hf : (s.flaws[k])[n]? = some f)
    (hc : f.classified = some c) : exec .withdrawJobCompletion s = .next (s.unapplied k n f c) := by
  show execWithdrawJobCompletion s = _
  unfold execWithdrawJobCompletion State.unapplied
  simp only [hj, hf, hc, State.unapplyFlaw_eq]

/-- The plane that a WITHDRAW job leaves. -/
def State.unappliedPlane (s : State) (k : Ctx) (f : Flaw) (c : Classified) : Plane :=
  recomputePlane s.planes[k] (f.shape.rectangle c.margin (s.ctxs[k]).width (s.ctxs[k]).height) (appliedFlaws s.flaws[k])

section
variable (s : State) (k : Ctx) (n : Nat) (f : Flaw) (c : Classified)

/-- What the end of a WITHDRAW job writes before its tail. -/
theorem State.unapplying_writes : (s.unapplying k n f c).state = { s.advanceScan with
    planes := s.planes.set k (s.unappliedPlane k f c),
    flaws := s.flaws.set k ((s.flaws[k]).set n { f with state := .withdrawn }),
    inFlight := none, marks := s.marks.set k 0 } := by
  simp only [State.unapplying_state, State.flawRecomputed, State.clearMarks, State.setFlaw, State.setFlaws, State.setPlane,
    s.advanceScan_planes, s.advanceScan_flaws, s.advanceScan_marks]
  rfl

theorem State.unapplied_tail : State.Tail (s.unapplying k n f c).state (s.unapplied k n f c) := settle_tail _ _

theorem State.unapplied_planes : (s.unapplied k n f c).planes = s.planes.set k (s.unappliedPlane k f c) := by
  rw [(s.unapplied_tail k n f c).planes, State.unapplying_writes]

theorem State.unapplied_marks : (s.unapplied k n f c).marks = s.marks.set k 0 := by
  rw [(s.unapplied_tail k n f c).marks, State.unapplying_writes]

/-- The pieces, the demand and the library stand. -/
theorem State.unapplied_rest : (s.unapplied k n f c).slots = s.slots ∧ (s.unapplied k n f c).entries = s.entries ∧
    (s.unapplied k n f c).patterns = s.patterns ∧ (s.unapplied k n f c).withdrawn = s.withdrawn ∧
    (s.unapplied k n f c).ports = s.ports := by
  have h := s.unapplied_tail k n f c
  rw [h.slots, h.entries, h.patterns, h.withdrawn, h.ports, State.unapplying_writes]
  exact ⟨s.advanceScan_slots, s.advanceScan_entries, s.advanceScan_patterns, s.advanceScan_withdrawn, s.advanceScan_ports⟩

theorem State.unapplied_raises : s.raises (s.unapplied k n f c) .flawWithdrawn := by
  refine settle_raises s.advanceScan _ _ ?_ (Event.raised_raise_self _ _)
  rw [State.unapplying_writes]
  exact s.advanceScan_notices

theorem State.unapplied_sameSettings : s.sameSettings (s.unapplied k n f c) := by
  refine State.sameSettings_trans ?_ (s.unapplied_tail k n f c).sameSettings
  rw [State.unapplying_writes]
  exact s.advanceScan_sameSettings

theorem State.unapplied_steady : s.steady (s.unapplied k n f c) := by
  refine State.steady_trans ?_ (s.unapplied_tail k n f c).steady
  rw [State.unapplying_writes]
  obtain ⟨hctx, -, hline, hnotice, hgate⟩ := s.advanceScan_steady
  refine ⟨hctx, fun j => ?_, hline, hnotice, hgate⟩
  rw [get_set]
  split
  · rename_i hj
    rw [List.length_set, hj]
  · rfl

theorem State.unapplied_sameHeads : s.sameHeads (s.unapplied k n f c) := by
  refine State.sameHeads_trans (t := (s.unapplying k n f c).state) (fun h => ?_) (s.unapplied_tail k n f c).sameHeads
  rw [State.unapplying_writes]
  show s.advanceScan.heads[h] = { s.heads[h] with timer := (s.advanceScan.heads[h]).timer }
  rw [s.advanceScan_heads]

/-- Nothing of the other context changes. -/
theorem State.unapplied_sameIn {j : Ctx} (hj : j ≠ k) : s.sameIn (s.unapplied k n f c) j := by
  obtain ⟨hslots, -⟩ := s.unapplied_rest k n f c
  refine ⟨?_, ?_, ?_, fun m r hr _ => by rw [hslots, hr]⟩
  · rw [State.unapplied_planes, get_set, if_neg hj]
  · rw [State.unapplied_marks, get_set, if_neg hj]
  · unfold State.liveCount State.records
    rw [hslots]

/-- The flaw is WITHDRAWN, unless a job that the tail starts classifies it anew. -/
theorem State.unapplied_flaw (hf : (s.flaws[k])[n]? = some f) (hj : { kind := .apply, ctx := k, flaw := n } ∉ s.jobs) :
    ((s.unapplied k n f c).flaws[k])[n]? = some { f with state := .withdrawn } := by
  obtain ⟨hn, -⟩ := List.getElem?_eq_some_iff.mp hf
  have hjobs : (s.unapplying k n f c).state.jobs = s.jobs := by
    rw [State.unapplying_writes]
    exact s.advanceScan_jobs
  unfold State.unapplied
  rw [settle_flaw_apart _ _ _ _ (by rw [hjobs]; exact hj), State.unapplying_writes, get_set, if_pos rfl,
    List.getElem?_set_self hn]

/-- A cell of the context after the end of a WITHDRAW job. -/
theorem State.unapplied_cell (hw : s.planesWf) (hwidth : (s.ctxs[k]).width ≤ 768) {x : Nat} (y : Nat) (hx : x < 768) :
    (s.unapplied k n f c).cell k x y =
      if (x, y) ∈ f.shape.rectangle c.margin (s.ctxs[k]).width (s.ctxs[k]).height then
        { s.cell k x y with cap := recomputedCap (appliedFlaws s.flaws[k]) (x, y),
                            classes := recomputedClasses (appliedFlaws s.flaws[k]) (x, y) }
      else s.cell k x y := by
  unfold State.cell
  rw [State.unapplied_planes, get_set, if_pos rfl]
  exact read_recomputePlane (hw k) f.shape c.margin _ hwidth _ y hx

end

/-- Settles O15: the rectangle between the cells that the flaw reaches, and its cells as the APPLIED flaws mark them. -/
theorem withdrawJobRecomputes : Obligations.WithdrawJobRecomputes := by
  refine ⟨fun sh m w h x y hsh => ?_, fun s k n f c hj hf hc hw hwidth => ?_⟩
  · rw [Shape.rectangle_eq, mem_mapCells_filter, Shape.boxed_iff hsh]
  · obtain ⟨hslots, hentries, hpatterns, hwithdrawn, hports⟩ := s.unapplied_rest k n f c
    refine ⟨_, exec_withdrawJobCompletion hj hf hc, fun x y hx => ?_, fun j hjk => s.unapplied_sameIn k n f c hjk, ?_,
      s.unapplied_raises k n f c, s.unapplied_flaw k n f c hf, hslots, hentries, hpatterns, hwithdrawn,
      s.unapplied_sameSettings k n f c, s.unapplied_steady k n f c, s.unapplied_sameHeads k n f c, hports⟩
    · have hcell := s.unapplied_cell k n f c hw (hwidth k).2.1 y hx
      by_cases hin : (x, y) ∈ f.shape.rectangle c.margin (s.ctxs[k]).width (s.ctxs[k]).height
      · rw [if_pos hin] at hcell
        rw [hcell]
        exact ⟨rfl, rfl, fun _ => ⟨Cell.markedBy_of_recomputed rfl rfl, rfl, rfl⟩, fun hout => absurd hin hout⟩
      · rw [if_neg hin] at hcell
        rw [hcell]
        exact ⟨rfl, rfl, fun h => absurd h hin, fun _ => rfl⟩
    · rw [State.unapplied_marks, get_set, if_pos rfl]

end Sys2Proof.Machine
end

section
/-!
PROOFS. FLAW ADD and FLAW WITHDRAW (R19 to R24, R189): the payload, the checks, the classification of a flaw, and what the
Map Writer makes of a job that has just joined its queue.
-/

namespace Sys2Proof.Machine

open Sys2Proof

/-! ### FLAW ADD's payload (R20, R189) -/

theorem flawAdd_lengthOk_iff (pl : List Byte) : Kind.flawAdd.lengthOk pl = true ↔
    7 ≤ pl.length ∧ (u8 pl 4 = 0 → pl.length = 10) ∧ (u8 pl 4 = 1 → pl.length = 13) ∧
    (u8 pl 4 = 2 → 1 ≤ u8 pl 6 → u8 pl 6 ≤ 16 → pl.length = 7 + 4 * u8 pl 6) := by
  show flawLengthOk pl = true ↔ _
  unfold flawLengthOk
  rw [Bool.and_eq_true, decide_eq_true_eq]
  refine and_congr_right fun _ => ?_
  split
  · rename_i h
    simp [h]
  · rename_i h
    simp [h]
  · rename_i h
    split
    · rename_i hn
      simp [h, hn.1, hn.2]
    · rename_i hn
      simp only [h, true_iff]
      exact ⟨fun h0 => absurd h0 (by decide), fun h1 => absurd h1 (by decide), fun _ h1 h16 => absurd ⟨h1, h16⟩ hn⟩
  · rename_i h0 h1 h2
    simp only [true_iff]
    exact ⟨fun h => absurd h h0, fun h => absurd h h1, fun h => absurd h h2⟩

theorem s16_eq (pl : List Byte) (i : Nat) :
    s16 pl i = if u16 pl i < 32768 then (u16 pl i : Int) else (u16 pl i : Int) - 65536 := by
  have h0 := u8_lt pl i
  have h1 := u8_lt pl (i + 1)
  have hmod : u16 pl i % 65536 = u16 pl i := Nat.mod_eq_of_lt (by unfold u16; omega)
  rw [s16, BitVec.toInt_eq_toNat_cond, BitVec.toNat_ofNat, show 2 ^ 16 = 65536 from rfl, hmod]
  split <;> split <;> omega

theorem source?_eq_none {n : Nat} : source? n = none ↔ 1 < n := by
  rcases n with _ | _ | n <;> simp [source?]

theorem source?_eq_some {n : Nat} {src : Source} (h : source? n = some src) :
    src = if n = 0 then .scanner else .operator := by
  unfold source? at h
  split at h <;> simp_all

theorem shape?_eq_none {pl : List Byte} : shape? pl = none ↔ 2 < u8 pl 4 ∨ (u8 pl 4 = 0 ∧ 63 < u8 pl 9) ∨
    (u8 pl 4 = 2 ∧ (u8 pl 6 = 0 ∨ 16 < u8 pl 6 ∨ 15 < u8 pl 5)) := by
  unfold shape?
  split
  · rename_i hdisc
    split <;> simp only [reduceCtorEq, false_iff, true_iff] <;> omega
  · rename_i hbox
    simp only [reduceCtorEq, false_iff]
    omega
  · rename_i hstroke
    split <;> simp only [reduceCtorEq, false_iff, true_iff] <;> omega
  · rename_i h0 h1 h2
    have h0 : u8 pl 4 ≠ 0 := h0
    have h1 : u8 pl 4 ≠ 1 := h1
    have h2 : u8 pl 4 ≠ 2 := h2
    simp only [true_iff]
    omega

theorem shape?_eq_some {pl : List Byte} {sh : Shape} (h : shape? pl = some sh) : sh =
    if u8 pl 4 = 0 then .disc (s16 pl 5) (s16 pl 7) (u8 pl 9)
    else if u8 pl 4 = 1 then .box (s16 pl 5) (s16 pl 7) (s16 pl 9) (s16 pl 11)
    else .stroke ((List.range (u8 pl 6)).map fun i => (s16 pl (7 + 4 * i), s16 pl (9 + 4 * i))) (u8 pl 5) := by
  have hpoint : (fun i => pointAt pl (7 + 4 * i)) = fun i => (s16 pl (7 + 4 * i), s16 pl (9 + 4 * i)) := by
    funext i
    rw [pointAt, show 7 + 4 * i + 2 = 9 + 4 * i by omega]
  unfold shape? at h
  split at h
  · rename_i hcode
    split at h
    · rw [if_pos hcode, ← Option.some.inj h]
    · cases h
  · rename_i hcode
    rw [if_neg (by omega), if_pos hcode, ← Option.some.inj h]
  · rename_i hcode
    split at h
    · rw [if_neg (by omega), if_neg (by omega), ← Option.some.inj h, hpoint]
    · cases h
  · cases h

theorem declared?_eq_none {pl : List Byte} : declared? pl = none ↔ 15 < u8 pl 1 ∨ u8 pl 2 = 0 ∨ 7 < u8 pl 2 ∨
    source? (u8 pl 3) = none ∨ shape? pl = none := by
  unfold declared?
  split
  · rename_i src sh hsrc hsh
    rw [hsrc, hsh]
    split <;> simp only [reduceCtorEq, or_false, false_iff, true_iff] <;> omega
  · rename_i hno
    simp only [true_iff]
    cases hsrc : source? (u8 pl 3) with
    | none => simp
    | some src =>
      cases hsh : shape? pl with
      | none => simp
      | some sh => exact absurd hsh (hno src sh hsrc)

theorem declared?_eq_some {pl : List Byte} {f : Flaw} (h : declared? pl = some f) :
    f.category = u8 pl 1 ∧ f.severity = u8 pl 2 ∧ source? (u8 pl 3) = some f.source ∧ shape? pl = some f.shape ∧
    f.state = .pending ∧ f.classified = none := by
  unfold declared? at h
  split at h
  · rename_i src sh hsrc hsh
    split at h
    · obtain rfl := Option.some.inj h
      exact ⟨rfl, rfl, hsrc, hsh, rfl, rfl⟩
    · cases h
  · cases h

/-! ### The checks (R20, R21) -/

/-- A context takes flaws while it is OPEN or DRAINING. -/
theorem CtxState.cuttable_of_dead {x : CtxState} (h : x = .empty ∨ x = .closed) : x.cuttable = false := by
  rcases h with rfl | rfl <;> rfl

theorem CtxState.cuttable_of_live {x : CtxState} (h : x = .opened ∨ x = .draining) : x.cuttable = true := by
  rcases h with rfl | rfl <;> rfl

section
variable {pl : List Byte}

theorem flawAddOwner_noCtx (h : 1 < u8 pl 0) (s : State) : flawAddOwner 1 pl s = (s, .refuse .range) := by
  unfold flawAddOwner
  rw [index?_none h]

theorem flawWithdrawOwner_noCtx (h : 1 < u8 pl 0) (s : State) : flawWithdrawOwner 1 pl s = (s, .refuse .range) := by
  unfold flawWithdrawOwner
  rw [index?_none h]

variable {s : State} {k : Ctx} (hk : u8 pl 0 = k.val)
include hk

theorem flawAddOwner_dead (h : (s.ctxs[k]).state = .empty ∨ (s.ctxs[k]).state = .closed) :
    flawAddOwner 1 pl s = (s, .refuse .state) := by
  unfold flawAddOwner
  rw [index?_of_eq k hk]
  dsimp only
  rw [CtxState.cuttable_of_dead h]
  rfl

theorem flawWithdrawOwner_dead (h : (s.ctxs[k]).state = .empty ∨ (s.ctxs[k]).state = .closed) :
    flawWithdrawOwner 1 pl s = (s, .refuse .state) := by
  unfold flawWithdrawOwner
  rw [index?_of_eq k hk]
  dsimp only
  rw [CtxState.cuttable_of_dead h]
  rfl

variable (hlive : (s.ctxs[k]).state = .opened ∨ (s.ctxs[k]).state = .draining)
include hlive

theorem flawAddOwner_range (h : declared? pl = none) : flawAddOwner 1 pl s = (s, .refuse .range) := by
  unfold flawAddOwner
  rw [index?_of_eq k hk]
  dsimp only
  rw [CtxState.cuttable_of_live hlive, h]
  rfl

theorem flawAddOwner_full (h : declared? pl ≠ none) (hfull : 512 ≤ (s.flaws[k]).length) :
    flawAddOwner 1 pl s = (s, .refuse .full) := by
  obtain ⟨f, hf⟩ := Option.ne_none_iff_exists'.mp h
  unfold flawAddOwner
  rw [index?_of_eq k hk]
  dsimp only
  rw [CtxState.cuttable_of_live hlive, hf]
  exact if_pos hfull

theorem flawAddOwner_accepts {f : Flaw} (hf : declared? pl = some f) (hfree : (s.flaws[k]).length < 512) :
    flawAddOwner 1 pl s = (s.addFlaw k f, .accept (enc1 k.val ++ enc2 (s.flaws[k]).length)) := by
  unfold flawAddOwner
  rw [index?_of_eq k hk]
  dsimp only
  rw [CtxState.cuttable_of_live hlive, hf]
  exact if_neg (Nat.not_le.mpr hfree)

theorem flawWithdrawOwner_range (h : 511 < u16 pl 1) : flawWithdrawOwner 1 pl s = (s, .refuse .range) := by
  unfold flawWithdrawOwner
  rw [index?_of_eq k hk]
  dsimp only
  rw [CtxState.cuttable_of_live hlive]
  exact if_pos h

theorem flawWithdrawOwner_notFound (h : u16 pl 1 ≤ 511) (hlen : (s.flaws[k]).length ≤ u16 pl 1) :
    flawWithdrawOwner 1 pl s = (s, .refuse .notFound) := by
  unfold flawWithdrawOwner
  rw [index?_of_eq k hk]
  dsimp only
  rw [CtxState.cuttable_of_live hlive, List.getElem?_eq_none hlen]
  exact if_neg (show ¬ 512 ≤ u16 pl 1 by omega)

theorem flawWithdrawOwner_accepts {f : Flaw} (h : u16 pl 1 < 512) (hf : (s.flaws[k])[u16 pl 1]? = some f) :
    flawWithdrawOwner 1 pl s =
      (s.withdrawFlaw k (u16 pl 1) f, .accept ((s.withdrawFlaw k (u16 pl 1) f).flawStateBytes k (u16 pl 1))) := by
  unfold flawWithdrawOwner
  rw [index?_of_eq k hk]
  dsimp only
  rw [CtxState.cuttable_of_live hlive, hf]
  exact if_neg (show ¬ 512 ≤ u16 pl 1 by omega)

end

theorem exec_flawAdd_refuses {s : State} {pl : List Byte} {c : Code} (ht : s.takes 1)
    (hl : Kind.flawAdd.lengthOk pl = true) (ho : flawAddOwner 1 pl (s.hunt 1) = (s.hunt 1, .refuse c)) :
    exec (.flawAdd 1 pl) s = .next (s.refused .flawAdd 1 c) :=
  request_refuses .flawAdd flawAddOwner 1 pl s c ht rfl hl ho

theorem exec_flawWithdraw_refuses {s : State} {pl : List Byte} {c : Code} (ht : s.takes 1) (hl : pl.length = 3)
    (ho : flawWithdrawOwner 1 pl (s.hunt 1) = (s.hunt 1, .refuse c)) :
    exec (.flawWithdraw 1 pl) s = .next (s.refused .flawWithdraw 1 c) :=
  request_refuses .flawWithdraw flawWithdrawOwner 1 pl s c ht rfl (decide_eq_true hl) ho

/-! ### The classification of a flaw (R24) -/

/-- The key that a flaw of a context is looked up with (R24, R30). -/
def State.flawKey (s : State) (k : Ctx) (f : Flaw) : Key :=
  let a := f.shape.anchor (s.ctxs[k]).width (s.ctxs[k]).height
  let cells := f.shape.footprint (s.ctxs[k]).width (s.ctxs[k]).height
  { link := BitVec.ofNat 7 (s.links[(s.ctxs[k]).article]).val, category := BitVec.ofNat 4 f.category,
    ladder := ladderOf f.severity, source := if f.source = .scanner then 0 else 1,
    shape := BitVec.ofNat 2 f.shape.code, anchor := BitVec.ofNat 3 (s.cell k a.1 a.2).effective.val,
    ranges := rangeFlags s.ranges.toList (extentOf cells) (areaOf cells) f.severity (s.cell k a.1 a.2).effective.val }

/-- The decision on a flaw of a context (R24, R33). -/
def State.decision (s : State) (k : Ctx) (f : Flaw) : Decision :=
  lookup s.rules.toList s.classDefaults (s.flawKey k f)

/-- What the start of an APPLY job makes of a flaw record (R24). -/
def State.classifiedFlaw (s : State) (k : Ctx) (f : Flaw) : Flaw :=
  { f with
    state := if (s.decision k f).ignore then .ignored else f.state,
    classified := some { cls := (s.decision k f).cls, margin := (s.decision k f).margin.val, cap := (s.decision k f).cap,
                         extent := extentOf (f.shape.footprint (s.ctxs[k]).width (s.ctxs[k]).height),
                         area := areaOf (f.shape.footprint (s.ctxs[k]).width (s.ctxs[k]).height) } }

theorem State.classify_eq (s : State) (k : Ctx) (f : Flaw) : s.classify k f =
    ({ cls := (s.decision k f).cls, margin := (s.decision k f).margin.val, cap := (s.decision k f).cap,
       extent := extentOf (f.shape.footprint (s.ctxs[k]).width (s.ctxs[k]).height),
       area := areaOf (f.shape.footprint (s.ctxs[k]).width (s.ctxs[k]).height) }, (s.decision k f).ignore) := by
  obtain ⟨category, severity, source, shape, state, classified⟩ := f
  cases source <;> cases shape <;> rfl

/-! ### Jobs that start (R23, R24) -/

/-- The start of the APPLY job of a flaw, by the decision on it. -/
theorem Event.startJob_apply {e : Event} {j : Job} {f : Flaw} (hj : j.kind = .apply)
    (hf : (e.state.flaws[j.ctx])[j.flaw]? = some f) :
    (e.startJob j).state = { e.state.setFlaw j.ctx j.flaw (e.state.classifiedFlaw j.ctx f) with
      inFlight := if (e.state.decision j.ctx f).ignore then e.state.inFlight else some j } ∧
    ((e.state.decision j.ctx f).ignore = true → (e.startJob j).raised .flawIgnored) := by
  unfold Event.startJob State.classifiedFlaw
  simp only [hj, hf, State.classify_eq]
  cases h : (e.state.decision j.ctx f).ignore with
  | true => exact ⟨rfl, fun _ => Event.raised_raise_self _ _⟩
  | false => exact ⟨rfl, fun hh => by cases hh⟩

/-- A job of an existing flaw is in flight once it has started, unless it was an APPLY job and its flaw is IGNORED. -/
theorem Event.startJob_outcome {e : Event} {j : Job} {f : Flaw} (hf : (e.state.flaws[j.ctx])[j.flaw]? = some f) :
    (e.startJob j).state.inFlight = some j ∨
    (j.kind = .apply ∧ ∃ g, ((e.startJob j).state.flaws[j.ctx])[j.flaw]? = some g ∧ g.state = .ignored) := by
  cases hj : j.kind with
  | withdraw =>
    left
    unfold Event.startJob
    rw [hj]
    rfl
  | apply =>
    rw [(Event.startJob_apply hj hf).1]
    cases h : (e.state.decision j.ctx f).ignore with
    | false => exact .inl rfl
    | true =>
      refine .inr ⟨rfl, e.state.classifiedFlaw j.ctx f, ?_, by simp [State.classifiedFlaw, h]⟩
      show ((e.state.setFlaw j.ctx j.flaw _).flaws[j.ctx])[j.flaw]? = _
      rw [State.setFlaw_flaws, get_set, if_pos rfl, List.getElem?_set_self (List.getElem?_eq_some_iff.mp hf).1]

/-- A job that waits in the Map Writer's queue still waits, or is in flight, once the Map Writer has gone on, unless it was
an APPLY job and its flaw is IGNORED (R23). -/
theorem Event.startFrom_waits {j : Job} (js : List Job) {e : Event} {f : Flaw} (hj : j ∈ js)
    (hf : (e.state.flaws[j.ctx])[j.flaw]? = some f) :
    j ∈ (Event.startFrom js e).state.jobs ∨ (Event.startFrom js e).state.inFlight = some j ∨
    (j.kind = .apply ∧ ∃ g, ((Event.startFrom js e).state.flaws[j.ctx])[j.flaw]? = some g ∧ g.state = .ignored) := by
  induction js generalizing e f with
  | nil => cases hj
  | cons i js ih =>
    obtain ⟨g, hg⟩ : ∃ g, ((e.startJob i).state.flaws[j.ctx])[j.flaw]? = some g := by
      rcases Event.startJob_flaw e i j.ctx j.flaw with h | ⟨-, f', c, st, -, -, h⟩
      · exact ⟨f, h.trans hf⟩
      · exact ⟨_, h⟩
    unfold Event.startFrom
    dsimp only
    split
    · rcases List.mem_cons.mp hj with rfl | hj
      · exact .inr (Event.startJob_outcome hf)
      · exact .inl hj
    · rename_i hidle
      rcases List.mem_cons.mp hj with rfl | hj
      · rcases Event.startJob_outcome hf with h | ⟨hkind, g, hg, hs⟩
        · rw [h] at hidle
          exact absurd rfl hidle
        · obtain ⟨g', hg', -, hs'⟩ := (Event.startFrom_flaw js (e.startJob j) j.ctx j.flaw).1 g hg
          exact .inr (.inr ⟨hkind, g', hg', hs'.elim (fun h => h.trans hs) id⟩)
      · exact ih hj hg

/-- A flaw record that is IGNORED is classified, and the event has told of it. -/
def Event.ignoredTold (e : Event) (k : Ctx) (n : Nat) : Prop :=
  ∀ g, (e.state.flaws[k])[n]? = some g → g.state = .ignored → g.classified.isSome = true ∧ e.raised .flawIgnored

theorem Event.startJob_ignoredTold {e : Event} {k : Ctx} {n : Nat} (h : e.ignoredTold k n) (j : Job) :
    (e.startJob j).ignoredTold k n := by
  intro g hg hs
  rcases Event.startJob_flaw e j k n with hsame | ⟨rfl, f, c, st, hf, -, hnew⟩
  · obtain ⟨hc, hr⟩ := h g (hsame.symm.trans hg) hs
    exact ⟨hc, Event.startJob_raised e j _ hr⟩
  · obtain ⟨hstate, htold⟩ := Event.startJob_apply (e := e) (j := { kind := .apply, ctx := k, flaw := n }) rfl hf
    obtain rfl := Option.some.inj (hnew.symm.trans hg)
    refine ⟨rfl, ?_⟩
    cases hi : (e.state.decision k f).ignore with
    | true => exact htold hi
    | false =>
      have hkept : ((e.startJob { kind := .apply, ctx := k, flaw := n }).state.flaws[k])[n]? =
          some (e.state.classifiedFlaw k f) := by
        rw [hstate]
        show ((e.state.setFlaw k n _).flaws[k])[n]? = _
        rw [State.setFlaw_flaws, get_set, if_pos rfl, List.getElem?_set_self (List.getElem?_eq_some_iff.mp hf).1]
      have hst := congrArg Flaw.state (Option.some.inj (hkept.symm.trans hg))
      simp only [State.classifiedFlaw, hi, Bool.false_eq_true, if_false] at hst
      exact Event.startJob_raised e _ _ (h f hf (hst.trans hs)).2

theorem Event.startFrom_ignoredTold {k : Ctx} {n : Nat} (js : List Job) {e : Event} (h : e.ignoredTold k n) :
    (Event.startFrom js e).ignoredTold k n := by
  induction js generalizing e with
  | nil => exact h
  | cons j js ih =>
    have hj := Event.startJob_ignoredTold h j
    unfold Event.startFrom
    dsimp only
    split
    · exact hj
    · exact ih hj

/-- The Map Writer takes one APPLY job when it is IDLE. -/
theorem Event.startFrom_one {e : Event} {j : Job} {f : Flaw} (hj : j.kind = .apply)
    (hf : (e.state.flaws[j.ctx])[j.flaw]? = some f) (hidle : e.state.inFlight = none) :
    (Event.startFrom [j] e).state.jobs = [] ∧
    (Event.startFrom [j] e).state.inFlight = (if (e.state.decision j.ctx f).ignore then none else some j) ∧
    ((Event.startFrom [j] e).state.flaws[j.ctx])[j.flaw]? = some (e.state.classifiedFlaw j.ctx f) := by
  have hstate := (Event.startJob_apply hj hf).1
  have hstart : (Event.startFrom [j] e).state = { (e.startJob j).state with jobs := [] } := by
    unfold Event.startFrom
    dsimp only
    split <;> rfl
  rw [hstart, hstate, hidle]
  refine ⟨rfl, rfl, ?_⟩
  show ((e.state.setFlaw j.ctx j.flaw _).flaws[j.ctx])[j.flaw]? = _
  rw [State.setFlaw_flaws, get_set, if_pos rfl, List.getElem?_set_self (List.getElem?_eq_some_iff.mp hf).1]

/-! ### Jobs over a tail -/

/-- A flag that the Map Writer's start of jobs raises has a setting event in the tail. -/
theorem settle_raises_started {s : State} (before : State) (e : Event) (n : Notice) (hs : e.state.notices = s.notices)
    (h : e.startJobs.raised n) : s.raises (settle before e) n := by
  have hclosed : e.closed.raised n := Event.closeTest_raised _ _ _ (Event.closeTest_raised _ _ _ h)
  have hworked : (e.worked before).raised n := Event.raiseWork_raised _ _ _
    (Event.runGate_raised _ _ _ (Event.on_raised _ _ _ (Event.runSearchUnit_raised _ _ hclosed)))
  exact ⟨_, hworked, by rw [settle_notice, hs]⟩

/-- A Map Writer at work starts no job (R23). -/
theorem settle_busy (before : State) {e : Event} (h : e.state.inFlight ≠ none) :
    (settle before e).flaws = e.state.flaws ∧ (settle before e).jobs = e.state.jobs ∧
    (settle before e).inFlight = e.state.inFlight := by
  have hstart : e.startJobs = e := if_pos (Option.isSome_iff_ne_none.mpr h)
  rw [settle_flaws, settle_jobs, settle_inFlight, hstart]
  exact ⟨rfl, rfl, rfl⟩

theorem Event.startJobs_idle {e : Event} (h : e.state.inFlight = none) :
    e.startJobs = Event.startFrom e.state.jobs e := by
  unfold Event.startJobs
  rw [h]
  rfl

/-- A queued job of an existing flaw is queued or in flight after a tail, unless it was an APPLY job and its flaw is
IGNORED. -/
theorem settle_waits (before : State) {e : Event} {j : Job} {f : Flaw} (hj : j ∈ e.state.jobs)
    (hf : (e.state.flaws[j.ctx])[j.flaw]? = some f) :
    j ∈ (settle before e).jobs ∨ (settle before e).inFlight = some j ∨
    (j.kind = .apply ∧ ∃ g, ((settle before e).flaws[j.ctx])[j.flaw]? = some g ∧ g.state = .ignored) := by
  rw [settle_jobs, settle_inFlight, settle_flaws]
  by_cases h : e.state.inFlight = none
  · rw [Event.startJobs_idle h]
    exact Event.startFrom_waits _ hj hf
  · rw [show e.startJobs = e from if_pos (Option.isSome_iff_ne_none.mpr h)]
    exact .inl hj

/-- A flaw that a tail makes IGNORED is classified, with a setting event of its flag (R24). -/
theorem settle_ignoredTold {s : State} (before : State) {e : Event} {k : Ctx} {n : Nat} {f g : Flaw}
    (hs : e.state.notices = s.notices) (hf : (e.state.flaws[k])[n]? = some f) (hne : f.state ≠ .ignored)
    (hg : ((settle before e).flaws[k])[n]? = some g) (hi : g.state = .ignored) :
    g.classified.isSome = true ∧ s.raises (settle before e) .flawIgnored := by
  have h0 : e.ignoredTold k n := fun g' hg' hi' => by
    rw [hf] at hg'
    exact absurd (Option.some.inj hg' ▸ hi') hne
  have hstart : e.startJobs.ignoredTold k n := by
    unfold Event.startJobs
    split
    · exact h0
    · exact Event.startFrom_ignoredTold _ h0
  rw [settle_flaws] at hg
  obtain ⟨hc, hr⟩ := hstart g hg hi
  exact ⟨hc, settle_raises_started before e _ hs hr⟩

/-! ### FLAW ADD's event (R20) -/

section
variable (s : State) (k : Ctx) (f : Flaw)

theorem State.queueFlaw_flaws : (s.queueFlaw k f).flaws[k] = s.flaws[k] ++ [f] := by
  show (s.flaws.set k (s.flaws[k] ++ [f]))[k] = _
  rw [get_set, if_pos rfl]

theorem State.queueFlaw_flaw : ((s.queueFlaw k f).flaws[k])[(s.flaws[k]).length]? = some f := by
  rw [State.queueFlaw_flaws]
  exact List.getElem?_concat_length

theorem State.addFlaw_tail : State.Tail (s.queueFlaw k f) (s.addFlaw k f) := settle_tail s (s.queueFlaw k f).begin

theorem State.addFlaw_length : ((s.addFlaw k f).flaws[k]).length = (s.flaws[k]).length + 1 := by
  rw [(s.addFlaw_tail k f).flaws, State.queueFlaw_flaws, List.length_append]
  rfl

/-- The new flaw waits for its APPLY job, or has been classified and IGNORED. -/
theorem State.addFlaw_flaw (hf : f.state = .pending) :
    ∃ g, ((s.addFlaw k f).flaws[k])[(s.flaws[k]).length]? = some g ∧ f.progress g ∧
      ((g.state = .pending ∧ ({ kind := .apply, ctx := k, flaw := (s.flaws[k]).length } ∈ (s.addFlaw k f).jobs ∨
          (s.addFlaw k f).inFlight = some { kind := .apply, ctx := k, flaw := (s.flaws[k]).length })) ∨
        (g.state = .ignored ∧ g.classified.isSome = true ∧ s.raises (s.addFlaw k f) .flawIgnored)) := by
  have hnew : ((s.queueFlaw k f).begin.state.flaws[k])[(s.flaws[k]).length]? = some f := s.queueFlaw_flaw k f
  obtain ⟨g, hg, hprogress⟩ := settle_flaw s _ k _ f hnew
  refine ⟨g, hg, hprogress, ?_⟩
  by_cases hi : g.state = .ignored
  · exact .inr ⟨hi, settle_ignoredTold s rfl hnew (by rw [hf]; decide) hg hi⟩
  · refine .inl ⟨(hprogress.2.resolve_right hi).trans hf, ?_⟩
    have hwaits := settle_waits s (e := (s.queueFlaw k f).begin) (j := { kind := .apply, ctx := k, flaw := (s.flaws[k]).length })
      (List.mem_append_right s.jobs List.mem_cons_self) hnew
    rcases hwaits with h | h | ⟨-, g', hg', hi'⟩
    · exact .inl h
    · exact .inr h
    · exact absurd (Option.some.inj (hg'.symm.trans hg) ▸ hi') hi

/-- A Map Writer at work leaves the new flaw as declared and its job at the back of the queue (R23). -/
theorem State.addFlaw_busy (h : s.inFlight ≠ none) : (s.addFlaw k f).inFlight = s.inFlight ∧
    (s.addFlaw k f).jobs = s.jobs ++ [{ kind := .apply, ctx := k, flaw := (s.flaws[k]).length }] ∧
    ((s.addFlaw k f).flaws[k])[(s.flaws[k]).length]? = some f := by
  obtain ⟨hflaws, hjobs, hflight⟩ := settle_busy s (e := (s.queueFlaw k f).begin) h
  refine ⟨hflight, hjobs, ?_⟩
  unfold State.addFlaw
  rw [hflaws]
  exact s.queueFlaw_flaw k f

/-- A Map Writer that is IDLE with nothing queued starts the job at once (R23, R24). -/
theorem State.addFlaw_idle (h : s.inFlight = none) (hq : s.jobs = []) : (s.addFlaw k f).jobs = [] ∧
    (s.addFlaw k f).inFlight = (if (s.decision k f).ignore then none
      else some { kind := .apply, ctx := k, flaw := (s.flaws[k]).length }) ∧
    ((s.addFlaw k f).flaws[k])[(s.flaws[k]).length]? = some (s.classifiedFlaw k f) := by
  have hstart : (s.queueFlaw k f).begin.startJobs =
      Event.startFrom [{ kind := .apply, ctx := k, flaw := (s.flaws[k]).length }] (s.queueFlaw k f).begin := by
    refine (Event.startJobs_idle h).trans (congrArg (fun js => Event.startFrom js _) ?_)
    show s.jobs ++ _ = _
    rw [hq]
    rfl
  unfold State.addFlaw
  rw [settle_jobs, settle_inFlight, settle_flaws, hstart]
  exact Event.startFrom_one (j := { kind := .apply, ctx := k, flaw := (s.flaws[k]).length }) rfl (s.queueFlaw_flaw k f) h

theorem State.addFlaw_frame : s.sameSettings (s.addFlaw k f) ∧ s.samePieces (s.addFlaw k f) ∧
    (s.addFlaw k f).marks = s.marks ∧ s.sameHeads (s.addFlaw k f) ∧ (s.addFlaw k f).ports = s.ports := by
  have h := s.addFlaw_tail k f
  exact ⟨h.sameSettings, h.samePieces, h.marks, h.sameHeads, h.ports⟩

end

/-! ### FLAW WITHDRAW's events (R21) -/

section
variable {s : State} {k : Ctx} {n : Nat} {f : Flaw}

theorem State.withdrawFlaw_gone (h : f.state = .withdrawing ∨ f.state = .withdrawn) : s.withdrawFlaw k n f = s := by
  unfold State.withdrawFlaw
  rcases h with h | h <;> rw [h]

theorem State.withdrawFlaw_waiting (h : f.state = .pending ∨ f.state = .ignored) :
    s.withdrawFlaw k n f = settle s (s.dropFlaw k n f).begin := by
  unfold State.withdrawFlaw
  rcases h with h | h <;> rw [h]

theorem State.withdrawFlaw_applied (h : f.state = .applied) :
    s.withdrawFlaw k n f = settle s (s.queueWithdraw k n f).begin := by
  unfold State.withdrawFlaw
  rw [h]

theorem State.flawStateBytes_eq {g : Flaw} (h : (s.flaws[k])[n]? = some g) :
    s.flawStateBytes k n = enc1 g.state.code := by
  rw [State.flawStateBytes, h]
  rfl

/-- A flaw record replaced, the Map Writer's jobs aside, changes no frame. -/
theorem State.setFlaw_frame (g : Flaw) (js : List Job) (j : Option Job) {t : State}
    (h : State.Tail { s.setFlaw k n g with jobs := js, inFlight := j } t) :
    s.sameSettings t ∧ s.samePieces t ∧ s.steady t ∧ s.sameHeads t ∧ t.marks = s.marks ∧ t.ports = s.ports := by
  obtain ⟨hctx, hlen, hline, hnotice, hgate⟩ := h.steady
  exact ⟨h.sameSettings, h.samePieces, ⟨hctx, fun i => (hlen i).trans (s.setFlaw_length k n g i), hline, hnotice, hgate⟩,
    h.sameHeads, h.marks, h.ports⟩

theorem State.dropFlaw_frame : s.sameSettings (settle s (s.dropFlaw k n f).begin) ∧
    s.samePieces (settle s (s.dropFlaw k n f).begin) ∧ s.steady (settle s (s.dropFlaw k n f).begin) ∧
    s.sameHeads (settle s (s.dropFlaw k n f).begin) ∧ (settle s (s.dropFlaw k n f).begin).marks = s.marks ∧
    (settle s (s.dropFlaw k n f).begin).ports = s.ports :=
  State.setFlaw_frame _ _ _ (settle_tail s (s.dropFlaw k n f).begin)

theorem State.queueWithdraw_frame : s.sameSettings (settle s (s.queueWithdraw k n f).begin) ∧
    s.samePieces (settle s (s.queueWithdraw k n f).begin) ∧ s.steady (settle s (s.queueWithdraw k n f).begin) ∧
    s.sameHeads (settle s (s.queueWithdraw k n f).begin) ∧ (settle s (s.queueWithdraw k n f).begin).marks = s.marks ∧
    (settle s (s.queueWithdraw k n f).begin).ports = s.ports :=
  State.setFlaw_frame _ _ _ (settle_tail s (s.queueWithdraw k n f).begin)

/-- No APPLY job of a dropped flaw is left (R21). -/
theorem State.dropFlaw_jobless : { kind := .apply, ctx := k, flaw := n } ∉ (s.dropFlaw k n f).jobs ∧
    (s.dropFlaw k n f).inFlight ≠ some { kind := .apply, ctx := k, flaw := n } := by
  refine ⟨fun h => absurd (List.mem_filter.mp h).2 (by simp), fun h => ?_⟩
  unfold State.dropFlaw at h
  dsimp only at h
  split at h
  · cases h
  · rename_i hne
    exact hne h

/-- After the tail too no APPLY job of a dropped flaw is left. -/
theorem State.dropFlaw_settled : { kind := .apply, ctx := k, flaw := n } ∉ (settle s (s.dropFlaw k n f).begin).jobs ∧
    (settle s (s.dropFlaw k n f).begin).inFlight ≠ some { kind := .apply, ctx := k, flaw := n } := by
  obtain ⟨hjobs, hflight⟩ := s.dropFlaw_jobless (k := k) (n := n) (f := f)
  obtain ⟨hqueue, hstarted⟩ := settle_queue s (s.dropFlaw k n f).begin
  exact ⟨fun h => hjobs (hqueue _ h), fun h => (hstarted _ h).elim hflight hjobs⟩

variable (hf : (s.flaws[k])[n]? = some f)
include hf

theorem State.setFlaw_flaw (g : Flaw) : ((s.setFlaw k n g).flaws[k])[n]? = some g := by
  rw [State.setFlaw_flaws, get_set, if_pos rfl, List.getElem?_set_self (List.getElem?_eq_some_iff.mp hf).1]

theorem State.dropFlaw_flaw : ((settle s (s.dropFlaw k n f).begin).flaws[k])[n]? = some { f with state := .withdrawn } := by
  rw [settle_flaw_apart s _ k n s.dropFlaw_jobless.1]
  exact State.setFlaw_flaw hf _

theorem State.queueWithdraw_flaw (hj : { kind := .apply, ctx := k, flaw := n } ∉ s.jobs) :
    ((settle s (s.queueWithdraw k n f).begin).flaws[k])[n]? = some { f with state := .withdrawing } := by
  rw [settle_flaw_apart s _ k n]
  · exact State.setFlaw_flaw hf _
  · show _ ∉ s.jobs ++ [_]
    simp [hj]

/-- The WITHDRAW job is queued or in flight (R21, R23). -/
theorem State.queueWithdraw_waits :
    { kind := .withdraw, ctx := k, flaw := n } ∈ (settle s (s.queueWithdraw k n f).begin).jobs ∨
    (settle s (s.queueWithdraw k n f).begin).inFlight = some { kind := .withdraw, ctx := k, flaw := n } := by
  have hwaits := settle_waits s (e := (s.queueWithdraw k n f).begin) (j := { kind := .withdraw, ctx := k, flaw := n })
    (List.mem_append_right s.jobs List.mem_cons_self) (State.setFlaw_flaw hf { f with state := .withdrawing })
  rcases hwaits with h | h | ⟨hkind, -⟩
  · exact .inl h
  · exact .inr h
  · cases hkind

end

/-- FLAW WITHDRAW answers the state it has brought the flaw to (R21). -/
theorem exec_flawWithdraw {s u : State} {pl : List Byte} {k : Ctx} {f g : Flaw} (ht : s.takes 1) (hl : pl.length = 3)
    (hk : u8 pl 0 = k.val) (hlive : (s.ctxs[k]).state = .opened ∨ (s.ctxs[k]).state = .draining) (hn : u16 pl 1 < 512)
    (hf : (s.flaws[k])[u16 pl 1]? = some f) (hu : (s.hunt 1).withdrawFlaw k (u16 pl 1) f = u)
    (hg : (u.flaws[k])[u16 pl 1]? = some g) : exec (.flawWithdraw 1 pl) s =
      .next (u.owe 1 (.reply { kind := Kind.flawWithdraw.byte, refusal := none, payload := enc1 g.state.code })) := by
  have howner := flawWithdrawOwner_accepts (s := s.hunt 1) hk hlive hn hf
  rw [hu, State.flawStateBytes_eq hg] at howner
  exact request_accepts .flawWithdraw flawWithdrawOwner 1 pl s _ _ ht rfl (decide_eq_true hl) howner

/-- Settles O13: the payload byte by byte, the checks in order, and each event by what the Map Writer makes of its job. -/
theorem flawAddAndWithdraw : Obligations.FlawAddAndWithdraw := by
  refine ⟨fun pl => ⟨flawAdd_lengthOk_iff pl, s16_eq pl, ?_, fun f hf => ?_⟩, fun pl s ht => ⟨fun hl => ?_, fun hl => ?_⟩,
    fun pl s k f ht hl hk hlive hf hfree => ?_, fun pl s k f ht hl hk hlive hn hf => ⟨fun h => ?_, fun h => ?_, fun h hj => ?_⟩⟩
  · rw [declared?_eq_none, source?_eq_none, shape?_eq_none]
  · obtain ⟨hcategory, hseverity, hsource, hshape, hstate, hclassified⟩ := declared?_eq_some hf
    exact ⟨hcategory, hseverity, source?_eq_some hsource, shape?_eq_some hshape, hstate, hclassified⟩
  · exact ⟨fun h => exec_flawAdd_refuses ht hl (flawAddOwner_noCtx h _), fun k hk =>
      ⟨fun h => exec_flawAdd_refuses ht hl (flawAddOwner_dead (s := s.hunt 1) hk h), fun h =>
        ⟨fun hf => exec_flawAdd_refuses ht hl (flawAddOwner_range (s := s.hunt 1) hk h hf),
          fun hf hfull => exec_flawAdd_refuses ht hl (flawAddOwner_full (s := s.hunt 1) hk h hf hfull)⟩⟩⟩
  · exact ⟨fun h => exec_flawWithdraw_refuses ht hl (flawWithdrawOwner_noCtx h _), fun k hk =>
      ⟨fun h => exec_flawWithdraw_refuses ht hl (flawWithdrawOwner_dead (s := s.hunt 1) hk h), fun h =>
        ⟨fun hn => exec_flawWithdraw_refuses ht hl (flawWithdrawOwner_range (s := s.hunt 1) hk h hn),
          fun hn hlen => exec_flawWithdraw_refuses ht hl (flawWithdrawOwner_notFound (s := s.hunt 1) hk h hn hlen)⟩⟩⟩
  · have hexec : exec (.flawAdd 1 pl) s = _ := request_accepts .flawAdd flawAddOwner 1 pl s _ _ ht rfl hl
      (flawAddOwner_accepts (s := s.hunt 1) hk hlive hf hfree)
    obtain ⟨g, hg, ⟨hrecord, -⟩, houtcome⟩ := (s.hunt 1).addFlaw_flaw k f (declared?_state hf)
    obtain ⟨hsettings, hpieces, hmarks, hheads, hports⟩ := (s.hunt 1).addFlaw_frame k f
    refine ⟨_, g, _, hexec, (s.hunt 1).addFlaw_length k f, hg, ?_, ?_, ?_, ?_, rfl, houtcome, fun hbusy => ?_,
      fun hidle hq => ?_, State.repliedFrom_owe _ _ _ _ _ hports, hsettings, hpieces, hmarks, hheads⟩
    · rw [hrecord]
    · rw [hrecord]
    · rw [hrecord]
    · rw [hrecord]
    · obtain ⟨hflight, hjobs, hsame⟩ := (s.hunt 1).addFlaw_busy k f hbusy
      exact ⟨hflight, hjobs, Option.some.inj (hg.symm.trans hsame)⟩
    · obtain ⟨hjobs, hflight, hnew⟩ := (s.hunt 1).addFlaw_idle k f hidle hq
      obtain rfl := Option.some.inj (hg.symm.trans hnew)
      refine ⟨_, (s.hunt 1).decision k f, _, _, rfl, rfl, rfl, rfl, rfl, hjobs, fun hi => ?_, fun hi => ?_⟩
      · exact ⟨if_pos hi, hflight.trans (if_pos hi)⟩
      · exact ⟨(if_neg (by rw [hi]; decide)).trans (declared?_state hf), hflight.trans (if_neg (by rw [hi]; decide))⟩
  · exact exec_flawWithdraw ht hl hk hlive hn hf (State.withdrawFlaw_gone h) hf
  · have hflaw := State.dropFlaw_flaw (s := s.hunt 1) hf
    obtain ⟨hsettings, hpieces, hsteady, hheads, hmarks, hports⟩ :=
      State.dropFlaw_frame (s := s.hunt 1) (k := k) (n := u16 pl 1) (f := f)
    obtain ⟨hjobs, hflight⟩ := State.dropFlaw_settled (s := s.hunt 1) (k := k) (n := u16 pl 1) (f := f)
    exact ⟨_, exec_flawWithdraw ht hl hk hlive hn hf (State.withdrawFlaw_waiting h) hflaw, hflaw, hjobs, hflight,
      State.repliedFrom_owe _ _ _ _ _ hports, hsettings, hpieces, hsteady, hheads, hmarks⟩
  · have hflaw := State.queueWithdraw_flaw (s := s.hunt 1) hf hj
    obtain ⟨hsettings, hpieces, hsteady, hheads, hmarks, hports⟩ :=
      State.queueWithdraw_frame (s := s.hunt 1) (k := k) (n := u16 pl 1) (f := f)
    exact ⟨_, exec_flawWithdraw ht hl hk hlive hn hf (State.withdrawFlaw_applied h) hflaw, hflaw,
      State.queueWithdraw_waits (s := s.hunt 1) hf, State.repliedFrom_owe _ _ _ _ _ hports, hsettings, hpieces, hsteady,
      hheads, hmarks⟩

end Sys2Proof.Machine
end

section
/-!
PROOFS. The ninth law (R46): only LIBRARY commands, power-up and PART RESET move store cells, and each of them accounts for
what it moves.
-/

namespace Sys2Proof.Machine

open Sys2Proof

/-! ### Changes that leave the store alone -/

/-- The store is as it was: a pattern record changes in its reference count at most (R46). -/
structure State.SameStore (s t : State) : Prop where
  records : ∀ n : PatNo, t.patterns[n] = { s.patterns[n] with refs := (t.patterns[n]).refs }
  free : t.freeCells = s.freeCells

theorem State.SameStore.of_eq {s t : State} (hp : t.patterns = s.patterns) (hf : t.freeCells = s.freeCells) :
    s.SameStore t where
  records n := by rw [hp]
  free := hf

theorem State.SameStore.trans {s t u : State} (h : s.SameStore t) (g : t.SameStore u) : s.SameStore u where
  records n := by rw [g.records n, h.records n]
  free := g.free.trans h.free

theorem State.Keeps.sameStore {s t : State} (h : State.Keeps s t) : s.SameStore t where
  records := h.patterns
  free := by rw [h.rest]

theorem State.Pieces.sameStore {s t : State} (h : State.Pieces s t) : s.SameStore t :=
  .of_eq (by rw [h.rest]) (by rw [h.rest])

theorem State.Quiet.sameStore {s t : State} (h : s.Quiet t) : s.SameStore t := .of_eq h.patterns (by rw [h.rest])

theorem State.cancelling_keeps (s : State) (t : Tag) : State.Keeps s (s.cancelling t).state := by
  have hmark := s.advanceScan_keeps.trans (State.updEntry_keeps _ t (fun x => { x with state := .cancelled }) fun _ => rfl)
  have base := hmark.trans (Event.withdrawAll_keeps (State.begin _) (s.advanceScan.uncutSlots t) .cancelled)
  unfold State.cancelling
  dsimp only
  rw [Event.on_state]
  refine State.Keeps.trans ?_ (State.removeIfDone_keeps _ t)
  split
  · exact base.trans (State.abandonSearch_keeps _)
  · exact base

theorem State.HideEvent.sameStore {s : State} {e : Event} (h : s.HideEvent e) : s.SameStore e.state := by
  have hscan := s.advanceScan_keeps.sameStore
  cases h with
  | grade k y runs hk =>
    have hrow : s.advanceScan.SameStore (s.rowWritten k y runs) := .of_eq rfl rfl
    exact (hscan.trans hrow).trans (s.grading_pieces k y runs).sameStore
  | addFlaw => exact .of_eq rfl rfl
  | applyFlaw k n f c hj hf hc =>
    have hflaw : s.advanceScan.SameStore (s.flawWritten k n f c) := .of_eq rfl rfl
    exact (hscan.trans hflaw).trans (s.applying_pieces k n f c).sameStore
  | dropFlaw => exact .of_eq rfl rfl
  | queueWithdraw => exact .of_eq rfl rfl
  | unapplyFlaw k n f c hj hf hc => exact hscan.trans (.of_eq rfl rfl)
  | openHide => exact .of_eq rfl rfl
  | raiseFrontier => exact .of_eq rfl rfl
  | abort k hk =>
    have hstart : s.SameStore (s.abortStart k) := .of_eq (by rw [s.abortStart_rest]) (by rw [s.abortStart_rest])
    rw [State.aborting_eq]
    exact (hstart.trans (s.abortPieces_pieces k).sameStore).trans (.of_eq rfl rfl)
  | release k hk =>
    have hfreed := (s.begin.freeAll_keeps (s.slotsOf k)).sameStore
    exact hfreed.trans (.of_eq (by rw [s.releasing_state]) (by rw [s.releasing_state]))

theorem State.PieceEvent.sameStore {s : State} {e : Event} (h : s.PieceEvent e) : s.SameStore e.state := by
  cases h with
  | nothing _ he => exact he ▸ .of_eq rfl rfl
  | post t n hand requested rush hready hfree =>
    have hqueue : s.SameStore { s with
        entries := enqueue s.entries (s.newEntry t n hand requested rush), postCounter := s.postCounter + 1 } :=
      .of_eq rfl rfl
    exact hqueue.trans (State.addRef_keeps _ n).sameStore
  | cancel t x hx => exact (s.cancelling_keeps t).sameStore
  | complete q hq => exact (s.begin.finish_keeps q _).sameStore
  | withdraw n c p hp hs => exact (s.advanceScan_keeps.trans (Event.withdraw_keeps s.advanceScan.begin n c)).sameStore
  | drain k hk => exact (s.drainCtx_keeps k .request (by rw [hk]; decide)).sameStore
  | leaveWork h b => exact (s.begin.takeOffline_keeps h b).sameStore
  | grant => exact .of_eq rfl rfl
  | startCut => exact .of_eq rfl rfl
  | cutThrough h x p hx hp hs => exact (s.begin.cutThrough_keeps h x.slot p).sameStore
  | spoil h x p hx hp hs c => exact (s.begin.spoil_keeps x.slot c).sameStore
  | fault h x p hx hp hs c => exact ((s.begin.spoil_keeps x.slot c).trans (Event.faultHead_keeps _ h)).sameStore
  | giveBack h x p hx hp hs => exact (s.returnClaim_keeps x.slot).sameStore
  | loseClaim h n p hp hs => exact (s.begin.loseClaim_keeps h n).sameStore
  | deliver f v => exact (s.begin.deliver_keeps f v).sameStore

theorem State.Begins.sameStore {s : State} {e : Event} (h : s.Begins e) : s.SameStore e.state :=
  h.elim State.HideEvent.sameStore State.PieceEvent.sameStore

theorem State.turn_sameStore (s : State) (t : Transition) (a b : Bool) : s.SameStore (s.turn t a b) :=
  s.turn_keeps (P := s.SameStore) t a b (.of_eq rfl rfl) fun u before k hu =>
    hu.trans ((Event.travelChange_keeps u.begin k).trans (settle_keeps before _)).sameStore

/-! ### The cells that the records hold -/

theorem reservedCells_congr {v w : Vector Pattern 128} (h : ∀ n : PatNo, (w[n]).reserved = (v[n]).reserved) :
    reservedCells w.toList = reservedCells v.toList := by
  refine congrArg List.sum (List.ext_getElem (by simp) fun i hw hv => ?_)
  simp only [List.length_map, Vector.length_toList] at hw
  simpa using h ⟨i, hw⟩

/-- One record changes: the cells it held are no longer counted, those it holds are. -/
theorem reservedCells_set (v : Vector Pattern 128) (n : PatNo) (p : Pattern) :
    reservedCells (v.set n p).toList + (v[n]).reserved = reservedCells v.toList + p.reserved := by
  have hset := List.sum_set (v.toList.map fun q => q.reserved) n p.reserved
  have hsplit := List.sum_take_add_sum_drop (v.toList.map fun q => q.reserved) n
  have hn : (n : Nat) < (v.toList.map fun q => q.reserved).length := by simp
  rw [List.drop_eq_getElem_cons hn, List.sum_cons] at hsplit
  rw [if_pos hn] at hset
  rw [reservedCells, reservedCells, Vector.toList_set, List.map_set, hset, ← hsplit]
  simp only [List.getElem_map, Vector.getElem_toList, Fin.getElem_fin]
  omega

theorem reservedCells_replicate_reset : reservedCells (Vector.replicate 128 Pattern.reset).toList = 0 := by
  simp [reservedCells, Pattern.reset]

/-- What PART RESET takes from the records is what the LOADING ones held (R56). -/
theorem reservedCells_partReset (ps : List Pattern) :
    loadingCells ps + reservedCells (ps.map Pattern.partReset) = reservedCells ps := by
  have hrecord : ∀ p : Pattern, (if p.state = .loading then p.reserved else 0) + p.partReset.reserved = p.reserved := by
    intro p
    unfold Pattern.partReset
    split
    · rfl
    · exact Nat.zero_add _
  rw [loadingCells_eq, reservedCells, reservedCells, List.map_map, ← List.sum_map_add]
  exact congrArg List.sum (List.map_congr_left fun p _ => hrecord p)

/-! ### What becomes of one record -/

theorem Pattern.sized_reset : Pattern.reset.sized := ⟨fun _ => rfl, nofun⟩

theorem Pattern.sized_of_ready {p : Pattern} (h : p.state = .ready) : p.sized := by
  unfold Pattern.sized
  rw [h]
  exact ⟨nofun, nofun⟩

theorem Pattern.sized_partReset {p : Pattern} (h : p.sized) : p.partReset.sized := by
  unfold Pattern.partReset
  split
  · exact Pattern.sized_reset
  · exact h

/-- The end of a load leaves a record EMPTY or READY, and no more cells reserved than the load had (R51). -/
theorem Pattern.endLoad_sized {p : Pattern} (h : p.sized) (hl : p.state = .loading) :
    p.endLoad.2.sized ∧ p.endLoad.2.reserved ≤ p.reserved := by
  obtain ⟨hsize, hrows⟩ := h.2 hl
  unfold Pattern.endLoad
  split
  · exact ⟨Pattern.sized_reset, Nat.zero_le _⟩
  · split
    · exact ⟨Pattern.sized_of_ready rfl, hsize.ge⟩
    · exact ⟨Pattern.sized_of_ready rfl, hsize ▸ Nat.mul_le_mul_left p.w hrows⟩

/-- A declared record is LOADING with nothing received, and reserves w × h (R49). -/
theorem declaredPattern?_sized {pl : List Byte} {p : Pattern} (h : declaredPattern? pl = some p) : p.sized := by
  simp only [declaredPattern?, Option.bind_eq_bind, Option.bind_eq_some_iff] at h
  obtain ⟨_, _, _, _, _, _, h⟩ := h
  split at h
  · obtain rfl := Option.some.inj h
    exact ⟨nofun, fun _ => ⟨rfl, Nat.zero_le _⟩⟩
  · cases h

/-! ### The law over every move -/

theorem State.SameStore.storeWf {s t : State} (h : s.SameStore t) (hs : s.storeWf) : t.storeWf := by
  obtain ⟨hsized, hlaw⟩ := hs
  refine ⟨fun n => ?_, ?_⟩
  · rw [h.records n]
    exact hsized n
  · have hcells : reservedCells t.patterns.toList = reservedCells s.patterns.toList :=
      reservedCells_congr fun n => by rw [h.records n]
    unfold State.lawStore
    rw [h.free, hcells]
    exact hlaw

/-- A store in which no record holds a cell and every cell is free. -/
theorem State.storeWf_of_reset {s : State} (hp : s.patterns = Vector.replicate 128 Pattern.reset)
    (hf : s.freeCells = Config.storeCells) : s.storeWf := by
  refine ⟨fun n => ?_, ?_⟩
  · rw [hp, get_replicate]
    exact Pattern.sized_reset
  · unfold State.lawStore
    rw [hp, hf, reservedCells_replicate_reset]

/-- One record is replaced, and the free capacity moves by the difference of the cells reserved (R46). -/
theorem State.storeWf_setPattern {s t : State} (h : s.storeWf) {n : PatNo} {p : Pattern} (hp : p.sized)
    (patterns : t.patterns = s.patterns.set n p)
    (free : t.freeCells + p.reserved = s.freeCells + (s.patterns[n]).reserved) : t.storeWf := by
  obtain ⟨hsized, hlaw⟩ := h
  refine ⟨fun m => ?_, ?_⟩
  · rw [patterns, get_set]
    split
    · exact hp
    · exact hsized m
  · have hset := reservedCells_set s.patterns n p
    unfold State.lawStore at hlaw ⊢
    rw [patterns]
    omega

theorem State.endLoad_storeWf {s : State} (h : s.storeWf) {n : PatNo} (hn : (s.patterns[n]).state = .loading) :
    (s.endLoad n).storeWf := by
  obtain ⟨hsized, hle⟩ := Pattern.endLoad_sized (h.1 n) hn
  refine State.storeWf_setPattern h hsized rfl ?_
  show s.freeCells + ((s.patterns[n]).reserved - (s.patterns[n]).endLoad.2.reserved) + _ = _
  omega

theorem State.endAnyLoad_storeWf {s : State} (h : s.storeWf) : s.endAnyLoad.storeWf := by
  unfold State.endAnyLoad
  split
  · exact h
  · rename_i n hn
    exact State.endLoad_storeWf h (State.loading?_state hn)

theorem State.partReset_storeWf {s : State} (h : s.storeWf) : s.partReset.storeWf := by
  obtain ⟨hsized, hlaw⟩ := h
  refine ⟨fun n => ?_, ?_⟩
  · show ((s.patterns.map Pattern.partReset)[n]).sized
    rw [get_map]
    exact Pattern.sized_partReset (hsized n)
  · have hcells := reservedCells_partReset s.patterns.toList
    show s.freeCells + loadingCells s.patterns.toList + reservedCells (s.patterns.map Pattern.partReset).toList = _
    rw [Vector.toList_map, Nat.add_assoc, hcells]
    exact hlaw

theorem State.Move.storeWf {s t : State} (h : s.Move t) (hs : s.storeWf) : t.storeWf := by
  cases h with
  | stay => exact hs
  | powerUp => exact State.storeWf_of_reset rfl rfl
  | partReset => exact State.partReset_storeWf hs
  | mapTest => exact hs
  | endMapTest n hc =>
    have hsame : s.SameStore (s.endMapTest n) := .of_eq (by rw [s.endMapTest_rest]; rfl) (by rw [s.endMapTest_rest]; rfl)
    exact hsame.storeWf hs
  | endAnyLoad => exact State.endAnyLoad_storeWf hs
  | beginLoad n pl p hd hr hroom =>
    exact State.storeWf_setPattern (State.endAnyLoad_storeWf hs) (declaredPattern?_sized hd) rfl (Nat.sub_add_cancel hroom)
  | libraryRows n pl hl hfit =>
    obtain ⟨hempty, hloading⟩ := hs.1 n
    refine State.storeWf_setPattern hs (n := n)
      (p := { s.patterns[n] with mask := (s.patterns[n]).mask ++ rowsOf (s.patterns[n]).w pl })
      ⟨hempty, fun _ => ⟨(hloading hl).1, ?_⟩⟩ rfl rfl
    exact List.length_append.trans_le hfit
  | endLoad n hl => exact State.endLoad_storeWf hs hl
  | dropPattern n hd hr => exact State.storeWf_setPattern hs Pattern.sized_reset rfl rfl
  | turn tr a b => exact (s.turn_sameStore tr a b).storeWf hs
  | event before e he => exact (he.sameStore.trans (settle_keeps before e).sameStore).storeWf hs

/-- Settles O50, over the moves a step can make. -/
theorem stepKeepsStoreLaw : Obligations.StepKeepsStoreLaw := by
  intro s t hs hstep
  exact (step_comes hstep).keeps (P := State.storeWf) (fun hq hu => hq.sameStore.storeWf hu)
    (fun hm hu => hm.storeWf hu) hs

end Sys2Proof.Machine
end

section
/-!
PROOFS. The reset state: nothing is placed, held, posted, loaded or open, so every invariant holds of it.
-/

namespace Sys2Proof.Machine

open Sys2Proof

/-! ### The collections of the reset state -/

theorem State.reset_slot (n : SlotNo) : State.reset.slots[n] = none := get_replicate ..

theorem State.reset_ctx (k : Ctx) : State.reset.ctxs[k] = HideContext.reset := get_replicate ..

theorem State.reset_held (h : Head) : (State.reset.heads[h]).held = [] := congrArg HeadChannel.held (get_replicate ..)

theorem State.reset_notice (p : Port) : State.reset.notices[p] = NoticeUnit.reset := get_replicate ..

theorem State.reset_line (l : LineNo) : State.reset.lines[l] = Line.powerUp false := get_replicate ..

theorem State.reset_pattern (n : PatNo) : State.reset.patterns[n] = Pattern.reset := get_replicate ..

theorem State.reset_heldRecords (h : Head) : State.reset.heldRecords h = [] := by
  rw [State.heldRecords, State.reset_held]
  rfl

/-- No record stands in the reset state. -/
theorem State.reset_no_record {n : SlotNo} {p : Placement} (h : State.reset.slots[n] = some p) : False := by
  rw [State.reset_slot] at h
  cases h

/-! ### The laws of the hides -/

theorem State.reset_ctx_empty (k : Ctx) : (State.reset.ctxs[k]).state = .empty :=
  congrArg HideContext.state (State.reset_ctx k)

theorem State.reset_hidesWf : State.reset.hidesWf := by
  intro k
  rw [State.reset_ctx]
  decide

theorem State.reset_lawClosed : State.reset.lawClosed := by
  intro k hk
  rw [State.reset_ctx_empty] at hk
  cases hk

theorem State.reset_flawsWf : State.reset.flawsWf := State.flawsWf_of_reset rfl rfl rfl rfl

/-- No map of the reset state has a cell, and no piece lies on one. -/
theorem State.reset_fitWf : State.reset.fitWf := by
  refine ⟨fun n p hp _ => (State.reset_no_record hp).elim, fun k x y hx _ => ?_⟩
  rw [State.reset_ctx] at hx
  exact absurd hx (Nat.not_lt_zero x)

/-! ### The laws of demand, patterns and searches -/

theorem State.reset_lawQueue : State.reset.lawQueue := ⟨Nat.zero_le _, List.Pairwise.nil⟩

theorem State.reset_countsWf : State.reset.countsWf :=
  ⟨nofun, List.nodup_nil, fun _ _ hr => (State.reset_no_record hr).elim, nofun⟩

theorem State.reset_occupantsWf : State.reset.occupantsWf := by
  have h : State.reset.InOrder :=
    State.inOrder_of_reset rfl rfl rfl rfl fun n => congrArg Pattern.refs (State.reset_pattern n)
  exact h.laid.occupantsWf h.search

theorem State.reset_scoreWf : State.reset.scoreWf := by
  refine ⟨fun n p hp => (State.reset_no_record hp).elim, ?_, fun n => ?_, nofun⟩
  · exact ⟨by decide, by decide, by decide⟩
  · rw [State.reset_pattern]
    exact ⟨by decide, by decide, by decide, by decide⟩

theorem State.reset_searchUnitWf : State.reset.searchUnitWf :=
  ⟨fun _ => ⟨nofun, nofun, nofun⟩, fun h => absurd rfl h, nofun, nofun⟩

/-! ### The laws of the heads, the notices and the lines -/

theorem State.reset_heldWf : State.reset.heldWf := by
  refine ⟨fun h => ?_, fun h => ?_, nofun⟩
  · rw [State.reset_heldRecords, State.reset_held]
    exact ⟨Nat.zero_le _, Nat.zero_le _, nofun⟩
  · rw [State.reset_held]
    exact List.nodup_nil

theorem State.reset_lawSeparation : State.reset.lawSeparation := by
  intro a ha
  rw [State.reset_heldRecords] at ha
  cases ha

theorem State.reset_lawAttention : State.reset.lawAttention := by
  intro p hp
  rw [State.reset_notice] at hp
  cases hp

theorem State.reset_driven : State.reset.driven := by
  intro l
  rw [State.reset_line]
  exact ⟨nofun, nofun⟩

/-- Settles O48, invariant by invariant. -/
theorem invariantsAtReset : Obligations.InvariantsAtReset :=
  ⟨State.planesWf_replicate_nil rfl, State.reset_hidesWf, State.storeWf_of_reset rfl rfl, State.reset_lawQueue,
    State.reset_lawAttention, fun _ => State.reset_ctx_empty, State.reset_heldWf, State.reset_lawClosed,
    State.reset_lawSeparation, State.reset_countsWf, State.reset_flawsWf, State.reset_scoreWf, State.reset_occupantsWf,
    State.reset_fitWf, State.reset_searchUnitWf, State.reset_driven⟩

end Sys2Proof.Machine
end

section
/-!
PROOFS. LIBRARY DROP (R52), check by check.
-/

namespace Sys2Proof.Machine

open Sys2Proof

/-! ### The owner -/

theorem libraryDropOwner_range {pl : List Byte} (h : 127 < u8 pl 0) (s : State) :
    libraryDropOwner 0 pl s = (s, .refuse .range) := by
  unfold libraryDropOwner
  rw [index?_none h]

section
variable {pl : List Byte} {s : State} {n : PatNo} (hn : u8 pl 0 = n.val)
include hn

theorem libraryDropOwner_empty (hs : (s.patterns[n]).state = .empty) :
    libraryDropOwner 0 pl s = (s, .refuse .notFound) := by
  unfold libraryDropOwner
  rw [index?_of_eq n hn]
  dsimp only
  rw [hs]

theorem libraryDropOwner_loading (hs : (s.patterns[n]).state = .loading) :
    libraryDropOwner 0 pl s = (s, .refuse .state) := by
  unfold libraryDropOwner
  rw [index?_of_eq n hn]
  dsimp only
  rw [hs]

/-- A READY record is dropped unless it is referred to (R52). -/
theorem libraryDropOwner_ready (hs : (s.patterns[n]).state = .ready) :
    libraryDropOwner 0 pl s = if 0 < (s.patterns[n]).refs then (s, .refuse .inUse) else (s.dropPattern n,
      .accept (enc1 n.val ++ enc2 (s.patterns[n]).reserved ++ enc3 (s.freeCells + (s.patterns[n]).reserved))) := by
  unfold libraryDropOwner
  rw [index?_of_eq n hn]
  dsimp only
  rw [hs]
  rfl

end

/-! ### The request -/

/-- Settles O21, check by check. -/
theorem libraryDropEmpties : Obligations.LibraryDropEmpties := by
  intro pl s ht hl
  have hrefuses : ∀ {c : Code}, libraryDropOwner 0 pl (s.hunt 0) = (s.hunt 0, .refuse c) →
      exec (.libraryDrop 0 pl) s = .next (s.refused .libraryDrop 0 c) := fun ho =>
    request_refuses .libraryDrop libraryDropOwner 0 pl s _ ht rfl (decide_eq_true hl) ho
  refine ⟨fun h => hrefuses (libraryDropOwner_range h _), fun n hn =>
    ⟨fun hs => hrefuses (libraryDropOwner_empty hn hs), fun hs => hrefuses (libraryDropOwner_loading hn hs),
      fun hs hr => ?_, fun hs hr => ?_⟩⟩
  · exact hrefuses ((libraryDropOwner_ready (s := s.hunt 0) hn hs).trans (if_pos hr))
  · exact request_accepts .libraryDrop libraryDropOwner 0 pl s _ _ ht rfl (decide_eq_true hl)
      ((libraryDropOwner_ready (s := s.hunt 0) hn hs).trans (if_neg (Nat.not_lt.mpr hr.le)))

end Sys2Proof.Machine
end

section
/-!
PROOFS. Oriented masks (R44, R45): an orientation transposes the mask, mirrors its columns or its rows, or does several of
these, and none of them changes how many cells of a kind there are.
-/

namespace Sys2Proof.Machine

open Sys2Proof

/-! ### Counts of cells -/

/-- How many cells of a map of W columns and H rows have a property. -/
def cellCount (w h : Nat) (P : Nat → Nat → Bool) : Nat := (mapCells w h).countP fun ij => P ij.1 ij.2

/-- Cells counted column by column. -/
theorem cellCount_eq_sum (w h : Nat) (P : Nat → Nat → Bool) :
    cellCount w h P = ∑ x ∈ Finset.range w, ∑ y ∈ Finset.range h, (P x y).toNat := by
  have hcolumn : ∀ x, ((List.range h).map fun y => (x, y)).countP (fun ij => P ij.1 ij.2) =
      ∑ y ∈ Finset.range h, (P x y).toNat := fun x => by
    rw [List.countP_map]
    induction h with
    | zero => rfl
    | succ h ih =>
      rw [List.range_succ, List.countP_append, Finset.sum_range_succ, ih, List.countP_singleton, Function.comp]
      cases P x h <;> rfl
  have hsum : ∀ f : Nat → Nat, ((List.range w).map f).sum = ∑ x ∈ Finset.range w, f x := fun _ => rfl
  rw [cellCount, mapCells, List.countP_flatMap, hsum]
  exact Finset.sum_congr rfl fun x _ => hcolumn x

theorem cellCount_transpose (w h : Nat) (P : Nat → Nat → Bool) : cellCount h w (fun i j => P j i) = cellCount w h P := by
  rw [cellCount_eq_sum, cellCount_eq_sum, Finset.sum_comm]

theorem cellCount_mirrorColumns (w h : Nat) (P : Nat → Nat → Bool) :
    cellCount w h (fun i j => P (w - 1 - i) j) = cellCount w h P := by
  rw [cellCount_eq_sum, cellCount_eq_sum]
  exact Finset.sum_range_reflect (fun x => ∑ y ∈ Finset.range h, (P x y).toNat) w

theorem cellCount_mirrorRows (w h : Nat) (P : Nat → Nat → Bool) :
    cellCount w h (fun i j => P i (h - 1 - j)) = cellCount w h P := by
  rw [← cellCount_transpose, cellCount_mirrorColumns h w fun i j => P j i, cellCount_transpose]

/-! ### The orientations -/

/-- Whether the drawn mask has a region at a cell. -/
def Pattern.draws (p : Pattern) (r : Region) (i j : Nat) : Bool := decide (p.code i j = r)

/-- Every orientation is made of transpositions and mirrorings of the drawn mask. -/
theorem Pattern.cellCount_oriented (p : Pattern) (o : Orient) (r : Region) :
    cellCount (p.orientedSize o).1 (p.orientedSize o).2 (fun i j => decide (p.oriented o i j = r)) =
      cellCount p.w p.h (p.draws r) := by
  have rows := cellCount_mirrorRows p.w p.h (p.draws r)
  have columns := cellCount_mirrorColumns p.w p.h (p.draws r)
  have twice := (cellCount_mirrorColumns p.w p.h fun i j => p.draws r (p.w - 1 - i) j).trans columns
  fin_cases o
  · rfl
  · exact (cellCount_transpose p.w p.h fun i j => p.draws r i (p.h - 1 - j)).trans rows
  · exact (cellCount_mirrorRows p.w p.h fun i j => p.draws r (p.w - 1 - i) j).trans columns
  · exact (cellCount_transpose p.w p.h fun i j => p.draws r (p.w - 1 - i) j).trans columns
  · exact columns
  · exact (cellCount_transpose p.w p.h fun i j => p.draws r (p.w - 1 - i) (p.h - 1 - j)).trans
      ((cellCount_mirrorRows p.w p.h fun i j => p.draws r (p.w - 1 - i) j).trans columns)
  · exact (cellCount_mirrorRows p.w p.h fun i j => p.draws r (p.w - 1 - (p.w - 1 - i)) j).trans twice
  · exact (cellCount_transpose p.w p.h fun i j => p.draws r (p.w - 1 - (p.w - 1 - i)) j).trans twice

/-- Settles O22, orientation by orientation. -/
theorem orientationsReorderMask : Obligations.OrientationsReorderMask :=
  ⟨fun _ _ _ => ⟨⟨rfl, rfl⟩, ⟨rfl, rfl⟩, ⟨rfl, rfl⟩, ⟨rfl, rfl⟩, ⟨rfl, rfl⟩, ⟨rfl, rfl⟩, ⟨rfl, rfl⟩, ⟨rfl, rfl⟩⟩,
    Pattern.cellCount_oriented⟩

end Sys2Proof.Machine
end

section
/-!
PROOFS. The scan of a search (R77 to R82): the cell test, the score cell by cell, the candidates and their order, and the
candidate that the scan keeps.
-/

namespace Sys2Proof.Machine

open Sys2Proof

/-! ### The cell test (R43, R78) -/

/-- A covered cell is of one of the three regions that have a requirement. -/
theorem Region.ne_outside_iff (r : Region) : r ≠ .outside ↔ r = .face ∨ r = .hidden ∨ r = .edge := by
  cases r <;> decide

theorem cellTest_iff (m : HideMap) (p : Pattern) (c : Candidate) :
    cellTest m p c = true ↔ ∀ i j, i < (p.orientedSize c.orient).1 → j < (p.orientedSize c.orient).2 →
      ∀ (r : Requirement) (d : Cell), d = m.plane.read (768 * (c.y + j) + (c.x + i)) →
        ((p.oriented c.orient i j = .face ∧ r = p.face) ∨ (p.oriented c.orient i j = .hidden ∧ r = p.hidden) ∨
          (p.oriented c.orient i j = .edge ∧ r = p.edge)) →
        r.minGrade ≤ min d.base.val d.cap.val ∧ d.classes &&& ~~~r.tolerated = 0 ∧ d.occupant = none := by
  simp only [cellTest, List.all_eq_true, Bool.and_eq_true, Option.isNone_iff_eq_none, Cell.meets_iff, Prod.forall,
    Pattern.mem_coveredCells, and_assoc]
  constructor
  · rintro h i j hi hj r d rfl (⟨e, rfl⟩ | ⟨e, rfl⟩ | ⟨e, rfl⟩)
    · exact h i j .face ⟨hi, hj, e.symm, by decide⟩
    · exact h i j .hidden ⟨hi, hj, e.symm, by decide⟩
    · exact h i j .edge ⟨hi, hj, e.symm, by decide⟩
  · rintro h i j r ⟨hi, hj, rfl, hne⟩
    refine h i j hi hj _ _ rfl ?_
    rcases (Region.ne_outside_iff _).mp hne with e | e | e <;> rw [e]
    · exact .inl ⟨rfl, rfl⟩
    · exact .inr (.inl ⟨rfl, rfl⟩)
    · exact .inr (.inr ⟨rfl, rfl⟩)

/-! ### The score (R79, R80) -/

theorem sum_map_filterMap {α β : Type} (f : α → Option β) (g : β → Int) (xs : List α) :
    ((xs.filterMap f).map g).sum = (xs.map fun x => ((f x).map g).getD 0).sum := by
  induction xs with
  | nil => rfl
  | cons x xs ih =>
    rw [List.map_cons, List.sum_cons, ← ih]
    cases h : f x with
    | none => rw [List.filterMap_cons_none h]; exact (zero_add _).symm
    | some y => rw [List.filterMap_cons_some h]; rfl

/-- The premium, cell by cell of the oriented mask. -/
theorem premiumOf_eq (m : HideMap) (p : Pattern) (c : Candidate) : premiumOf m p c =
    ((mapCells (p.orientedSize c.orient).1 (p.orientedSize c.orient).2).map fun ij =>
      if p.oriented c.orient ij.1 ij.2 = .outside then (0 : Int) else
        ((m.plane.read (cellAddr (c.x + ij.1) (c.y + ij.2))).effective.val : Int) -
          (p.requirement (p.oriented c.orient ij.1 ij.2)).minGrade).sum := by
  simp only [premiumOf, add_sub_assoc]
  rw [← List.foldl_map (f := fun ijr : Nat × Nat × Region =>
    ((m.plane.read (cellAddr (c.x + ijr.1) (c.y + ijr.2.1))).effective.val : Int) - (p.requirement ijr.2.2).minGrade)
    (g := (· + ·)), ← List.sum_eq_foldl, Pattern.coveredCells, sum_map_filterMap]
  refine congrArg List.sum (List.map_congr_left fun ij _ => ?_)
  split <;> rfl

/-- The contact, cell by cell of the oriented mask. -/
theorem contactOf_eq (m : HideMap) (p : Pattern) (c : Candidate) : contactOf m p c =
    (mapCells (p.orientedSize c.orient).1 (p.orientedSize c.orient).2).countP fun ij =>
      decide (p.oriented c.orient ij.1 ij.2 ≠ .outside) &&
        [((-1 : Int), (0 : Int)), (1, 0), (0, -1), (0, 1)].any fun d =>
          contactAt m ((c.x : Int) + ij.1 + d.1) ((c.y : Int) + ij.2 + d.2) := by
  rw [contactOf, Pattern.coveredCells, List.countP_filterMap]
  refine List.countP_congr fun ij _ => ?_
  split
  · rename_i h
    simp [h]
  · rename_i h
    simp [h, sub_eq_add_neg, or_assoc]

theorem contactAt_iff (m : HideMap) (x y : Int) :
    contactAt m x y = true ↔ (x < 0 ∨ (m.width : Int) ≤ x ∨ y < 0 ∨ (m.height : Int) ≤ y ∨
      (m.plane.read (cellAddr x.toNat y.toNat)).effective.val = 0 ∨
      (m.plane.read (cellAddr x.toNat y.toNat)).occupant ≠ none) := by
  unfold contactAt
  split
  · rename_i h
    have hx : ¬ x < 0 := by omega
    have hw : ¬ (m.width : Int) ≤ x := by omega
    have hy : ¬ y < 0 := by omega
    have hh : ¬ (m.height : Int) ≤ y := by omega
    simp only [hx, hw, hy, hh, false_or, Bool.or_eq_true, decide_eq_true_eq, Option.isSome_iff_ne_none]
  · rename_i h
    have hout : x < 0 ∨ (m.width : Int) ≤ x ∨ y < 0 ∨ (m.height : Int) ≤ y := by omega
    tauto

/-! ### The candidates (R77) -/

theorem Samples.fits_iff (sm : Samples) (c : Candidate) : sm.fits c = true ↔
    sm.floor ≤ c.x ∧ c.x + (sm.drawing.orientedSize c.orient).1 ≤ sm.frontier ∧
      c.x + (sm.drawing.orientedSize c.orient).1 ≤ sm.width ∧ c.y + (sm.drawing.orientedSize c.orient).2 ≤ sm.height := by
  simp only [Samples.fits, Bool.and_eq_true, decide_eq_true_eq, and_assoc]

theorem Samples.mem_candidates (sm : Samples) (c : Candidate) : c ∈ sm.candidates ↔
    c.orient ∈ sm.orients ∧ c.x < sm.width ∧ c.y < sm.height ∧ sm.fits c = true := by
  simp only [Samples.candidates, List.mem_flatMap, List.mem_filter, List.mem_map, Prod.exists, mem_mapCells]
  constructor
  · rintro ⟨x, y, ⟨hx, hy⟩, ⟨o, ho, rfl⟩, hfits⟩
    exact ⟨ho, hx, hy, hfits⟩
  · rintro ⟨ho, hx, hy, hfits⟩
    exact ⟨c.x, c.y, ⟨hx, hy⟩, ⟨c.orient, ho, rfl⟩, hfits⟩

/-- The cells of a map come column by column, from low rows to high. -/
theorem mapCells_pairwise (w h : Nat) :
    (mapCells w h).Pairwise fun a b => a.1 < b.1 ∨ (a.1 = b.1 ∧ a.2 < b.2) := by
  rw [mapCells, List.pairwise_flatMap]
  refine ⟨fun x _ => ?_, List.pairwise_lt_range.imp fun {x z} hxz a ha b hb => ?_⟩
  · rw [List.pairwise_map]
    exact List.pairwise_lt_range.imp fun hy => .inr ⟨rfl, hy⟩
  · obtain ⟨_, _, rfl⟩ := List.mem_map.mp ha
    obtain ⟨_, _, rfl⟩ := List.mem_map.mp hb
    exact .inl hxz

/-- The candidates come position by position, and at a position from low orientations to high (R77). -/
theorem Samples.candidates_pairwise (sm : Samples) (h : sm.orients.Pairwise fun a b => a < b) :
    sm.candidates.Pairwise fun a b => a.x < b.x ∨ (a.x = b.x ∧ (a.y < b.y ∨ (a.y = b.y ∧ a.orient < b.orient))) := by
  rw [Samples.candidates, List.pairwise_flatMap]
  refine ⟨fun xy _ => ?_, (mapCells_pairwise _ _).imp fun {u v} huv a ha b hb => ?_⟩
  · refine List.Pairwise.filter _ ?_
    rw [List.pairwise_map]
    exact h.imp fun ho => .inr ⟨rfl, .inr ⟨rfl, ho⟩⟩
  · obtain ⟨_, _, rfl⟩ := List.mem_map.mp (List.mem_filter.mp ha).1
    obtain ⟨_, _, rfl⟩ := List.mem_map.mp (List.mem_filter.mp hb).1
    rcases huv with hx | ⟨hx, hy⟩
    · exact .inl hx
    · exact .inr ⟨hx, .inl hy⟩

theorem orientList_pairwise (b : Set8) : (orientList b).Pairwise fun a b => a < b :=
  List.Pairwise.filter _ (List.pairwise_lt_finRange 8)

theorem mem_orientList (b : Set8) (o : Orient) : o ∈ orientList b ↔ b.getLsbD o.val = true := by
  simp only [orientList, List.mem_filter, List.mem_finRange, true_and, Set8.has]

/-! ### The scan -/

/-- Settles O26: the scan by what it ends with, then its words one by one. -/
theorem scanKeepsLowestEarliest : Obligations.ScanKeepsLowestEarliest := by
  refine ⟨fun m sm cs => ⟨?_, fun b => ((tryAll_none m sm cs).2 b).mp⟩, cellTest_iff, fun m sm c => ?_, contactAt_iff,
    fun sm c => ?_, Samples.candidates_pairwise, fun b => ⟨orientList_pairwise b, mem_orientList b⟩⟩
  · simpa only [Bool.not_eq_true] using (tryAll_none m sm cs).1
  · rw [scoreOf, premiumOf_eq, contactOf_eq]
  · rw [Samples.mem_candidates, Samples.fits_iff]

end Sys2Proof.Machine
end

section
/-!
PROOFS. Loading a pattern (R42, R46, R48 to R51): the record that a LIBRARY BEGIN declares, the end of a load, the rows
that arrive, and each request as its owner answers it.
-/

namespace Sys2Proof.Machine

open Sys2Proof

/-! ### LIBRARY BEGIN's payload (R48) -/

theorem requirement?_eq_none {pl : List Byte} {i : Nat} : requirement? pl i = none ↔ u8 pl i = 0 ∨ 7 < u8 pl i := by
  unfold requirement?
  split <;> simp <;> omega

theorem requirement?_eq_some {pl : List Byte} {i : Nat} {r : Requirement} (h : requirement? pl i = some r) :
    r.minGrade = u8 pl i ∧ r.tolerated.toNat = u8 pl (i + 1) := by
  unfold requirement? at h
  split at h
  · rw [← Option.some.inj h]
    exact ⟨rfl, rfl⟩
  · cases h

theorem set8_eq_zero {pl : List Byte} {i : Nat} : set8 pl i = 0 ↔ u8 pl i = 0 := BitVec.toNat_eq

/-- A BEGIN declares a record exactly when every byte is in range. -/
theorem declaredPattern?_eq_none (pl : List Byte) : declaredPattern? pl = none ↔
    u8 pl 1 = 0 ∨ 96 < u8 pl 1 ∨ u8 pl 2 = 0 ∨ 64 < u8 pl 2 ∨ 15 < u8 pl 3 ∨
      (∃ i, (i = 4 ∨ i = 6 ∨ i = 8) ∧ (u8 pl i = 0 ∨ 7 < u8 pl i)) ∨ u8 pl 10 = 0 := by
  have hfields : declaredPattern? pl = none ↔ requirement? pl 4 = none ∨ requirement? pl 6 = none ∨
      requirement? pl 8 = none ∨
      ¬ (1 ≤ u8 pl 1 ∧ u8 pl 1 ≤ 96 ∧ 1 ≤ u8 pl 2 ∧ u8 pl 2 ≤ 64 ∧ u8 pl 3 ≤ 15 ∧ set8 pl 10 ≠ 0) := by
    unfold declaredPattern?
    refine bind_eq_none fun _ => bind_eq_none fun _ => bind_eq_none fun _ => ?_
    split
    · rename_i h
      exact iff_of_false nofun (not_not_intro h)
    · rename_i h
      exact iff_of_true rfl h
  simp only [hfields, requirement?_eq_none, ne_eq, set8_eq_zero, or_and_right, exists_or, exists_eq_left]
  omega

/-- The fields of the record that a BEGIN declares (R48, R49). -/
theorem declaredPattern?_eq_some {pl : List Byte} {q : Pattern} (h : declaredPattern? pl = some q) :
    (q.w = u8 pl 1 ∧ q.h = u8 pl 2 ∧ q.kind = u8 pl 3 ∧ q.orients.toNat = u8 pl 10) ∧
    requirement? pl 4 = some q.face ∧ requirement? pl 6 = some q.hidden ∧ requirement? pl 8 = some q.edge ∧
    q = { q with state := .loading, mask := [], covered := 0, reserved := q.w * q.h, refs := 0 } := by
  simp only [declaredPattern?, Option.bind_eq_bind, Option.bind_eq_some_iff] at h
  obtain ⟨face, hface, hidden, hhidden, edge, hedge, h⟩ := h
  split at h
  · rw [← Option.some.inj h]
    exact ⟨⟨rfl, rfl, rfl, rfl⟩, hface, hhidden, hedge, rfl⟩
  · cases h

/-! ### The end of a load (R51) -/

theorem coveredCount_eq_sum (mask : List (List Region)) :
    coveredCount mask = (mask.map fun row => row.countP fun c => c ≠ .outside).sum := List.sum_eq_foldl.symm

theorem coveredCount_eq_zero {mask : List (List Region)} :
    coveredCount mask = 0 ↔ ∀ row ∈ mask, ∀ c ∈ row, c = .outside := by
  rw [coveredCount_eq_sum, List.sum_eq_zero_iff]
  simp [List.countP_eq_zero]

/-- A load without a covered cell leaves an EMPTY record. -/
theorem Pattern.endLoad_blank {p : Pattern} (h : coveredCount p.mask = 0) : p.endLoad = (.emptied, Pattern.reset) :=
  if_pos h

/-- A load with a covered cell leaves a READY record of the rows received. -/
theorem Pattern.endLoad_covered {p : Pattern} (h : coveredCount p.mask ≠ 0) :
    p.endLoad = (if p.mask.length = p.h then .complete else .truncated,
      { p with state := .ready, h := p.mask.length, covered := coveredCount p.mask, reserved := p.w * p.mask.length }) := by
  unfold Pattern.endLoad
  rw [if_neg h]
  split
  · rename_i hrows
    rw [hrows]
  · rfl

/-- What ends when a record's load ends, and with which report (R46, R51). -/
theorem State.endLoad_loadEnded {s : State} {n : PatNo} (hl : (s.patterns[n]).state = .loading)
    (hsized : (s.patterns[n]).sized) :
    s.loadEnded (s.endLoad n) n (s.patterns[n]).endLoad.1.code (s.patterns[n]).endLoad.2.h := by
  have hrecord : (s.endLoad n).patterns[n] = (s.patterns[n]).endLoad.2 := (get_set ..).trans (if_pos rfl)
  have hfree : (s.endLoad n).freeCells = s.freeCells + ((s.patterns[n]).reserved - (s.patterns[n]).endLoad.2.reserved) := rfl
  refine ⟨fun hblank => ?_, fun hcovered => ?_, fun m hm => (get_set ..).trans (if_neg hm)⟩
  · rw [hrecord, hfree, Pattern.endLoad_blank (coveredCount_eq_zero.mpr hblank)]
    exact ⟨rfl, rfl, rfl, rfl⟩
  · have hcount : coveredCount (s.patterns[n]).mask ≠ 0 := by
      obtain ⟨row, hrow, c, hc, hne⟩ := hcovered
      exact fun h => hne (coveredCount_eq_zero.mp h row hrow c hc)
    obtain ⟨hsize, hrows⟩ := hsized.2 hl
    rw [hrecord, hfree, Pattern.endLoad_covered hcount, ← coveredCount_eq_sum]
    refine ⟨?_, rfl, rfl, ?_⟩
    · split <;> rfl
    · have hle := Nat.mul_le_mul_left (s.patterns[n]).w hrows
      dsimp only
      omega

/-- The end of a load shows in the records and the free capacity alone. -/
theorem State.loadEnded_congr {s t u : State} {n : PatNo} {outcome height : Nat} (h : s.loadEnded t n outcome height)
    (patterns : u.patterns = t.patterns) (free : u.freeCells = t.freeCells) : s.loadEnded u n outcome height := by
  unfold State.loadEnded at h ⊢
  rw [patterns, free]
  exact h

/-- Ending any load touches the records and the free capacity alone. -/
theorem State.endAnyLoad_rest (s : State) :
    s.endAnyLoad = { s with patterns := s.endAnyLoad.patterns, freeCells := s.endAnyLoad.freeCells } := by
  unfold State.endAnyLoad
  split <;> rfl

/-- What a receiver does is apart from the loads. -/
theorem State.endAnyLoad_hunt (s : State) (p : Port) : (s.hunt p).endAnyLoad = s.endAnyLoad.hunt p := by
  have h : (s.hunt p).loading? = s.loading? := rfl
  unfold State.endAnyLoad
  rw [h]
  split <;> rfl

theorem State.endAnyLoad_none {s : State} (h : ∀ n : PatNo, (s.patterns[n]).state ≠ .loading) :
    s.endAnyLoad = s ∧ s.endedReport = [255, 255, 255] := by
  rw [State.endAnyLoad, State.endedReport, State.loading?_none h]
  exact ⟨rfl, rfl⟩

/-- The load ended is that of the LOADING record. -/
theorem State.endAnyLoad_first {s : State} {n : PatNo} (hl : (s.patterns[n]).state = .loading)
    (hlow : ∀ m : PatNo, m < n → (s.patterns[m]).state ≠ .loading) :
    s.endAnyLoad = s.endLoad n ∧
    s.endedReport = enc1 n.val ++ enc1 (s.patterns[n]).endLoad.1.code ++ enc1 (s.patterns[n]).endLoad.2.h := by
  rw [State.endAnyLoad, State.endedReport, State.loading?_first hl hlow]
  exact ⟨rfl, rfl⟩

/-! ### The owner of LIBRARY BEGIN -/

theorem libraryBeginOwner_range {pl : List Byte} (h : 127 < u8 pl 0 ∨ declaredPattern? pl = none) (s : State) :
    libraryBeginOwner 0 pl s = (s, .refuse .range) := by
  unfold libraryBeginOwner
  split
  · rename_i n q hn hq
    rw [index?_eq_some] at hn
    rcases h with h | h
    · omega
    · rw [h] at hq
      cases hq
  · rfl

/-- LIBRARY BEGIN of a declared record, its checks left (R48, R49). -/
theorem libraryBeginOwner_declared {pl : List Byte} {n : PatNo} {q : Pattern} (hn : u8 pl 0 = n.val)
    (hq : declaredPattern? pl = some q) (s : State) : libraryBeginOwner 0 pl s =
      if 0 < (s.endAnyLoad.patterns[n]).refs then (s.endAnyLoad, .refuse .inUse)
      else if s.endAnyLoad.freeCells + (s.endAnyLoad.patterns[n]).reserved < q.reserved then (s.endAnyLoad, .refuse .full)
      else (s.endAnyLoad.beginLoad n q, .accept (enc1 n.val ++ enc2 q.reserved ++
        enc3 (s.endAnyLoad.beginLoad n q).freeCells ++ s.endedReport)) := by
  unfold libraryBeginOwner
  rw [index?_of_eq n hn, hq]

section
variable {pl : List Byte} {s : State} (ht : s.takes 0) (hl : pl.length = 11)
include ht hl

/-- A refusal that leaves the load in progress ended. -/
theorem exec_libraryBegin_refuses {c : Code}
    (ho : libraryBeginOwner 0 pl (s.hunt 0) = (s.endAnyLoad.hunt 0, .refuse c)) :
    exec (.libraryBegin 0 pl) s = .next (s.endAnyLoad.refused .libraryBegin 0 c) := by
  have hexec : exec (.libraryBegin 0 pl) s = .next (settleAnswer .libraryBegin 0 (libraryBeginOwner 0 pl (s.hunt 0))) :=
    request_taken .libraryBegin libraryBeginOwner 0 pl s ht rfl (decide_eq_true hl)
  rw [hexec, ho]
  rfl

theorem exec_libraryBegin_accepts {n : PatNo} {q : Pattern} {a : List Byte}
    (ho : libraryBeginOwner 0 pl (s.hunt 0) = ((s.endAnyLoad.hunt 0).beginLoad n q, .accept a)) :
    exec (.libraryBegin 0 pl) s = .next ((s.endAnyLoad.beginLoad n q).answered .libraryBegin 0 a) :=
  request_accepts .libraryBegin libraryBeginOwner 0 pl s _ a ht rfl (decide_eq_true hl) ho

end

/-- What an accepted BEGIN makes of the records and the free capacity (R49). -/
theorem State.beginLoad_begun (s : State) (n : PatNo) {q : Pattern}
    (hroom : q.reserved ≤ s.freeCells + (s.patterns[n]).reserved) :
    (s.beginLoad n q).patterns[n] = q ∧ (∀ m : PatNo, m ≠ n → (s.beginLoad n q).patterns[m] = s.patterns[m]) ∧
    (s.beginLoad n q).freeCells + q.reserved = s.freeCells + (s.patterns[n]).reserved :=
  ⟨(get_set ..).trans (if_pos rfl), fun _ hm => (get_set ..).trans (if_neg hm), Nat.sub_add_cancel hroom⟩

/-- What an accepted BEGIN leaves: records, free capacity and ports aside, everything. -/
theorem State.beginLoad_rest (s : State) (n : PatNo) (q : Pattern) (k : Kind) (p : Port) (a : List Byte) :
    (s.endAnyLoad.beginLoad n q).answered k p a = { s with
      patterns := ((s.endAnyLoad.beginLoad n q).answered k p a).patterns,
      freeCells := ((s.endAnyLoad.beginLoad n q).answered k p a).freeCells,
      ports := ((s.endAnyLoad.beginLoad n q).answered k p a).ports } := by
  have h := s.endAnyLoad_rest
  generalize s.endAnyLoad = u at h
  rw [h]
  rfl

/-! ### Rows (R42, R50) -/

theorem pieces_length {α : Type} (len n : Nat) (xs : List α) : (pieces len n xs).length = n := by
  induction n generalizing xs with
  | zero => rfl
  | succ n ih => exact congrArg (· + 1) (ih _)

theorem pieces_getElem? {α : Type} {len n i : Nat} (hi : i < n) (xs : List α) :
    (pieces len n xs)[i]? = some ((xs.drop (i * len)).take len) := by
  induction n generalizing i xs with
  | zero => exact absurd hi (Nat.not_lt_zero i)
  | succ n ih =>
    cases i with
    | zero => simp [pieces]
    | succ i =>
      rw [pieces, List.getElem?_cons_succ, ih (by omega), List.drop_drop, Nat.succ_mul, Nat.add_comm]

/-- A byte of a part of a payload is that of the payload. -/
theorem u8_take_drop {pl : List Byte} {len i j : Nat} (hj : j < len) : u8 ((pl.drop i).take len) j = u8 pl (i + j) := by
  simp [u8, List.getD_eq_getElem?_getD, hj]

theorem unpackRow_getD {w j : Nat} (hj : j < w) (bytes : List Byte) :
    (unpackRow w bytes).getD j .outside = regionOf (u8 bytes (j / 4) / 4 ^ (j % 4)) := by
  simp [unpackRow, List.getD_eq_getElem?_getD, hj]

theorem rowBytes_pos {w : Nat} (h : w ≠ 0) : 0 < rowBytes w := by
  unfold rowBytes
  omega

section
variable {pl : List Byte} {w m : Nat} (hw : w ≠ 0) (hl : pl.length = 2 + m * rowBytes w)
include hw hl

theorem rowsOf_length : (rowsOf w pl).length = m := by
  rw [rowsOf, List.length_map, pieces_length, hl, Nat.add_sub_cancel_left, Nat.mul_div_cancel _ (rowBytes_pos hw)]

/-- The region that a ROWS payload gives column j of its row i. -/
theorem rowsOf_region {i j : Nat} (hi : i < m) (hj : j < w) :
    ((rowsOf w pl).getD i []).getD j .outside = regionOf (u8 pl (2 + i * rowBytes w + j / 4) / 4 ^ (j % 4)) := by
  have hcount : (pl.length - 2) / rowBytes w = m := by
    rw [hl, Nat.add_sub_cancel_left, Nat.mul_div_cancel _ (rowBytes_pos hw)]
  have hbyte : j / 4 < rowBytes w := by
    unfold rowBytes
    omega
  have hrow : (rowsOf w pl).getD i [] = unpackRow w (((pl.drop 2).drop (i * rowBytes w)).take (rowBytes w)) := by
    rw [List.getD_eq_getElem?_getD, rowsOf, hcount, List.getElem?_map, pieces_getElem? hi]
    rfl
  rw [hrow, unpackRow_getD hj, List.drop_drop, u8_take_drop hbyte]

end

/-- A ROWS payload holds a whole number of rows, at least one, when its length passes (R50). -/
theorem wholeRows_iff {w n : Nat} (hw : w ≠ 0) :
    ¬ (n < 2 + rowBytes w ∨ (n - 2) % rowBytes w ≠ 0) ↔ ∃ m, 1 ≤ m ∧ n = 2 + m * rowBytes w := by
  have hpos := rowBytes_pos hw
  constructor
  · intro h
    have hlong : 2 + rowBytes w ≤ n := Nat.not_lt.mp fun hn => h (.inl hn)
    obtain ⟨m, hm⟩ := Nat.dvd_of_mod_eq_zero (not_not.mp fun hn => h (.inr hn))
    refine ⟨m, Nat.pos_of_ne_zero ?_, by rw [Nat.mul_comm m]; omega⟩
    rintro rfl
    omega
  · rintro ⟨m, hm, rfl⟩
    have hle := Nat.le_mul_of_pos_left (rowBytes w) hm
    rintro (h | h)
    · omega
    · exact h (by rw [Nat.add_sub_cancel_left, Nat.mul_mod_left])

/-! ### The owners of LIBRARY ROWS and LIBRARY END -/

/-- The rows of a record with more rows behind those received (R50). -/
def State.appendRows (s : State) (n : PatNo) (rows : List (List Region)) : State :=
  s.updPattern n fun p => { p with mask := p.mask ++ rows }

/-- What an accepted ROWS makes of the records: the rows stand behind those received, and nothing else changes. -/
theorem State.appendRows_appended (s : State) (n : PatNo) (rows : List (List Region)) :
    ((s.appendRows n rows).patterns[n]).mask = (s.patterns[n]).mask ++ rows ∧
    (s.appendRows n rows).patterns[n] = { s.patterns[n] with mask := ((s.appendRows n rows).patterns[n]).mask } ∧
    ∀ m : PatNo, m ≠ n → (s.appendRows n rows).patterns[m] = s.patterns[m] := by
  have hrecord : (s.appendRows n rows).patterns[n] = { s.patterns[n] with mask := (s.patterns[n]).mask ++ rows } :=
    (get_set ..).trans (if_pos rfl)
  rw [hrecord]
  exact ⟨rfl, rfl, fun _ hm => (get_set ..).trans (if_neg hm)⟩

theorem libraryRowsOwner_range {pl : List Byte} (h : 127 < u8 pl 0) (s : State) :
    libraryRowsOwner 0 pl s = (s, .refuse .range) := by
  unfold libraryRowsOwner
  rw [index?_none h]

theorem libraryEndOwner_range {pl : List Byte} (h : 127 < u8 pl 0) (s : State) :
    libraryEndOwner 0 pl s = (s, .refuse .range) := by
  unfold libraryEndOwner
  rw [index?_none h]

section
variable {pl : List Byte} {s : State} {n : PatNo} (hn : u8 pl 0 = n.val)
include hn

theorem libraryRowsOwner_state (hl : (s.patterns[n]).state ≠ .loading) :
    libraryRowsOwner 0 pl s = (s, .refuse .state) := by
  unfold libraryRowsOwner
  rw [index?_of_eq n hn]
  exact if_pos hl

theorem libraryRowsOwner_length (hl : (s.patterns[n]).state = .loading) (hw : (s.patterns[n]).w ≠ 0)
    (hm : ∀ m, 1 ≤ m → pl.length ≠ 2 + m * rowBytes (s.patterns[n]).w) :
    libraryRowsOwner 0 pl s = (s, .refuse .length) := by
  have hlength := not_imp_comm.mp (wholeRows_iff hw).mp fun ⟨m, h1, h2⟩ => hm m h1 h2
  unfold libraryRowsOwner
  rw [index?_of_eq n hn]
  dsimp only
  rw [if_neg (not_not_intro hl), if_pos hlength]

/-- LIBRARY ROWS of whole rows, their place left to check (R50). -/
theorem libraryRowsOwner_rows {m : Nat} {rows : List (List Region)} (hl : (s.patterns[n]).state = .loading)
    (hw : (s.patterns[n]).w ≠ 0) (h1 : 1 ≤ m) (hm : pl.length = 2 + m * rowBytes (s.patterns[n]).w)
    (hrows : rowsOf (s.patterns[n]).w pl = rows) : libraryRowsOwner 0 pl s =
      if u8 pl 1 ≠ (s.patterns[n]).mask.length ∨ (s.patterns[n]).h < (s.patterns[n]).mask.length + m then
        (s, .refuse .range)
      else (s.appendRows n rows, .accept (enc1 n.val ++ enc1 ((s.patterns[n]).mask.length + m))) := by
  subst hrows
  unfold libraryRowsOwner
  rw [index?_of_eq n hn]
  dsimp only
  rw [if_neg (not_not_intro hl), if_neg ((wholeRows_iff hw).mpr ⟨m, h1, hm⟩), rowsOf_length hw hm]
  rfl

theorem libraryEndOwner_state (hl : (s.patterns[n]).state ≠ .loading) :
    libraryEndOwner 0 pl s = (s, .refuse .state) := by
  unfold libraryEndOwner
  rw [index?_of_eq n hn]
  exact if_pos hl

theorem libraryEndOwner_loading (hl : (s.patterns[n]).state = .loading) :
    libraryEndOwner 0 pl s = (s.endLoad n, .accept (enc1 n.val ++ enc1 (s.patterns[n]).endLoad.1.code ++
      enc1 (s.patterns[n]).endLoad.2.h ++ enc2 ((s.endLoad n).freeCells - s.freeCells) ++
      enc3 (s.endLoad n).freeCells)) := by
  have hreleased : (s.endLoad n).freeCells - s.freeCells = (s.patterns[n]).released := Nat.add_sub_cancel_left ..
  unfold libraryEndOwner
  rw [index?_of_eq n hn, hreleased]
  exact if_neg (not_not_intro hl)

end

/-! ### The requests -/

section
variable {pl : List Byte} {s : State} (ht : s.takes 0)
include ht

theorem exec_libraryRows (hl : 3 ≤ pl.length ∧ pl.length ≤ 240) :
    (∀ {c : Code}, libraryRowsOwner 0 pl (s.hunt 0) = (s.hunt 0, .refuse c) →
      exec (.libraryRows 0 pl) s = .next (s.refused .libraryRows 0 c)) ∧
    ∀ {u : State} {a : List Byte}, libraryRowsOwner 0 pl (s.hunt 0) = (u, .accept a) →
      exec (.libraryRows 0 pl) s =
        .next (u.owe 0 (.reply { kind := Kind.libraryRows.byte, refusal := none, payload := a })) := by
  have hlength : Kind.libraryRows.lengthOk pl = true := by
    simpa only [Kind.lengthOk, Bool.and_eq_true, decide_eq_true_eq] using hl
  exact ⟨fun ho => request_refuses .libraryRows libraryRowsOwner 0 pl s _ ht rfl hlength ho,
    fun ho => request_accepts .libraryRows libraryRowsOwner 0 pl s _ _ ht rfl hlength ho⟩

theorem exec_libraryEnd (hl : pl.length = 1) :
    (∀ {c : Code}, libraryEndOwner 0 pl (s.hunt 0) = (s.hunt 0, .refuse c) →
      exec (.libraryEnd 0 pl) s = .next (s.refused .libraryEnd 0 c)) ∧
    ∀ {u : State} {a : List Byte}, libraryEndOwner 0 pl (s.hunt 0) = (u, .accept a) →
      exec (.libraryEnd 0 pl) s =
        .next (u.owe 0 (.reply { kind := Kind.libraryEnd.byte, refusal := none, payload := a })) :=
  ⟨fun ho => request_refuses .libraryEnd libraryEndOwner 0 pl s _ ht rfl (decide_eq_true hl) ho,
    fun ho => request_accepts .libraryEnd libraryEndOwner 0 pl s _ _ ht rfl (decide_eq_true hl) ho⟩

end

/-- Settles O20: the payload byte by byte, the end of a load, and each request as its owner answers it. -/
theorem libraryLoads : Obligations.LibraryLoads := by
  refine ⟨fun pl => ⟨declaredPattern?_eq_none pl, fun q hq => ?_⟩,
    fun pl s ht => ⟨fun hl h => ?_, fun h3 h240 h => ?_, fun hl h => ?_⟩,
    fun s => ⟨State.endAnyLoad_none, fun n hl hlow hsized => ?_⟩, fun pl s n q ht hl hn hq => ?_,
    fun pl s n ht h3 h240 hn => ?_, fun pl s n ht hl hn => ?_⟩
  · obtain ⟨⟨hw, hh, hkind, horients⟩, hface, hhidden, hedge, -⟩ := declaredPattern?_eq_some hq
    obtain ⟨hfaceGrade, hfaceClasses⟩ := requirement?_eq_some hface
    obtain ⟨hhiddenGrade, hhiddenClasses⟩ := requirement?_eq_some hhidden
    obtain ⟨hedgeGrade, hedgeClasses⟩ := requirement?_eq_some hedge
    exact ⟨hw, hh, hkind, hfaceGrade, hfaceClasses, hhiddenGrade, hhiddenClasses, hedgeGrade, hedgeClasses, horients⟩
  · exact request_refuses .libraryBegin libraryBeginOwner 0 pl s _ ht rfl (decide_eq_true hl) (libraryBeginOwner_range h _)
  · exact (exec_libraryRows ht ⟨h3, h240⟩).1 (libraryRowsOwner_range h _)
  · exact (exec_libraryEnd ht hl).1 (libraryEndOwner_range h _)
  · obtain ⟨hend, hreport⟩ := State.endAnyLoad_first hl hlow
    exact ⟨_, _, hend ▸ State.endLoad_loadEnded hl hsized, hreport, s.endAnyLoad_rest⟩
  · obtain ⟨-, -, -, -, hdeclared⟩ := declaredPattern?_eq_some hq
    have hreserved : q.reserved = q.w * q.h := congrArg Pattern.reserved hdeclared
    have howner := libraryBeginOwner_declared hn hq (s.hunt 0)
    simp only [State.endAnyLoad_hunt] at howner
    rw [← hreserved]
    refine ⟨fun hrefs => ?_, fun hrefs hfull => ?_, fun hrefs hroom => ?_⟩
    · exact exec_libraryBegin_refuses ht hl (howner.trans (if_pos hrefs))
    · exact exec_libraryBegin_refuses ht hl (howner.trans ((if_neg hrefs.not_gt).trans (if_pos hfull)))
    · obtain ⟨hrecord, hothers, hfree⟩ := s.endAnyLoad.beginLoad_begun n hroom
      have hports : (s.endAnyLoad.beginLoad n q).ports = s.ports :=
        show s.endAnyLoad.ports = s.ports by rw [State.endAnyLoad_rest]
      refine ⟨_, exec_libraryBegin_accepts ht hl (howner.trans ((if_neg hrefs.not_gt).trans (if_neg hroom.not_gt))),
        hrecord.trans (hreserved ▸ hdeclared), hothers, hfree, ?_, s.beginLoad_rest n q _ _ _⟩
      exact State.repliedFrom_owe _ _ _ _ _ (by rw [State.hunt_ports, State.hunt_ports, hports])
  · obtain ⟨refuses, accepts⟩ := exec_libraryRows ht ⟨h3, h240⟩
    refine ⟨fun hl => refuses (libraryRowsOwner_state (s := s.hunt 0) hn hl),
      fun hl hw hm => refuses (libraryRowsOwner_length (s := s.hunt 0) hn hl hw hm), fun hl hw m h1 hm => ?_⟩
    obtain ⟨rows, hrows⟩ : ∃ rows, rowsOf (s.patterns[n]).w pl = rows := ⟨_, rfl⟩
    have howner := libraryRowsOwner_rows (s := s.hunt 0) hn hl hw h1 hm hrows
    refine ⟨fun hplace => refuses (howner.trans (if_pos hplace)), fun hstart hfit => ?_⟩
    obtain ⟨hmask, hrecord, hothers⟩ := (s.hunt 0).appendRows_appended n rows
    refine ⟨_, accepts (howner.trans (if_neg ?_)), ?_, ?_, fun i j hi hj => ?_, hrecord, hothers,
      State.repliedFrom_owe _ _ _ _ _ rfl, rfl⟩
    · rintro (h | h)
      · exact h hstart
      · exact absurd hfit (Nat.not_le.mpr h)
    · rw [State.owe_patterns, hmask]
      exact List.take_left
    · rw [State.owe_patterns, hmask, List.length_append, ← hrows, rowsOf_length hw hm]
      rfl
    · rw [State.owe_patterns, hmask, State.hunt_patterns, List.getD_append_right _ _ _ _ (Nat.le_add_right _ _),
        Nat.add_sub_cancel_left, ← hrows]
      exact rowsOf_region hw hm hi hj
  · obtain ⟨refuses, accepts⟩ := exec_libraryEnd ht hl
    exact ⟨fun hs => refuses (libraryEndOwner_state (s := s.hunt 0) hn hs), fun hs hsized => ⟨_, _, _, accepts (libraryEndOwner_loading (s := s.hunt 0) hn hs),
      State.loadEnded_congr (State.endLoad_loadEnded hs hsized) rfl rfl, State.repliedFrom_owe _ _ _ _ _ rfl, rfl⟩⟩

end Sys2Proof.Machine
end

section
/-!
PROOFS. The tenth law: no command but DEMAND POST makes the queue longer or changes its order, and DEMAND POST enters one
entry in its place while fewer than 64 stand.
-/

namespace Sys2Proof.Machine

open Sys2Proof

/-! ### The queue's order -/

/-- What is fixed of the entries decides the order of the rush entries. -/
theorem rushOrder_iff (es : List Entry) : (es.Pairwise fun a b => b.rush = true → a.rush = true) ↔
    (es.map Entry.fixed).Pairwise fun a b => b.2.2.2.2.1 = true → a.2.2.2.2.1 = true := by
  rw [List.pairwise_map]
  rfl

theorem enqueue_length (es : List Entry) (e : Entry) : (enqueue es e).length = es.length + 1 :=
  (enqueue_perm es e).length_eq.trans List.length_cons

/-- An entry takes its place behind the rush entries at the front, or at the back (R58). -/
theorem enqueue_rushOrder {es : List Entry} (e : Entry) (h : es.Pairwise fun a b => b.rush = true → a.rush = true) :
    (enqueue es e).Pairwise fun a b => b.rush = true → a.rush = true := by
  have hfront : ∀ a ∈ es.takeWhile (fun x => x.rush), a.rush = true := fun a ha => List.mem_takeWhile_imp ha
  have hsplit := List.takeWhile_append_dropWhile (p := fun x : Entry => x.rush) (l := es)
  unfold enqueue
  split
  · rename_i hrush
    rw [List.pairwise_append, List.pairwise_cons]
    exact ⟨h.sublist (List.takeWhile_sublist _), ⟨fun _ _ _ => hrush, h.sublist (List.dropWhile_sublist _)⟩,
      fun a ha _ _ _ => hfront a ha⟩
  · rename_i hrush
    rw [List.pairwise_append]
    refine ⟨h, List.pairwise_singleton _ _, fun a _ b hb hr => ?_⟩
    rw [List.mem_singleton.mp hb] at hr
    exact absurd hr hrush

/-! ### Changes that keep the law -/

/-- The law is carried from one state to another. -/
def State.QueueKept (s t : State) : Prop := s.lawQueue → t.lawQueue

theorem State.QueueKept.refl (s : State) : s.QueueKept s := id

theorem State.QueueKept.trans {s t u : State} (h : s.QueueKept t) (g : t.QueueKept u) : s.QueueKept u := g ∘ h

/-- Entries may leave the queue while the others stay in their order. -/
theorem State.QueueKept.of_sublist {s t : State} (h : (t.entries.map Entry.fixed).Sublist (s.entries.map Entry.fixed)) :
    s.QueueKept t := by
  rintro ⟨hlength, horder⟩
  have hle := h.length_le
  simp only [List.length_map] at hle
  exact ⟨hle.trans hlength, (rushOrder_iff _).mpr (((rushOrder_iff _).mp horder).sublist h)⟩

theorem State.QueueKept.of_eq {s t : State} (h : t.entries = s.entries) : s.QueueKept t := .of_sublist (by rw [h])

theorem State.QueueKept.of_nil {s t : State} (h : t.entries = []) : s.QueueKept t :=
  .of_sublist (by rw [h]; exact List.nil_sublist _)

theorem State.Keeps.queueKept {s t : State} (h : State.Keeps s t) : s.QueueKept t := .of_sublist h.entries

/-- The tail of an event that has kept the law. -/
theorem State.QueueKept.settle {s : State} {e : Event} (h : s.QueueKept e.state) (before : State) :
    s.QueueKept (settle before e) := h.trans (settle_keeps before e).queueKept

theorem State.Keeps.queueKept_settle {s : State} {e : Event} (h : State.Keeps s e.state) (before : State) :
    s.QueueKept (settle before e) := h.queueKept.settle before

/-- The tail of an event that has left the queue alone. -/
theorem State.settle_queueKept {s : State} {e : Event} (h : e.state.entries = s.entries) (before : State) :
    s.QueueKept (settle before e) := (State.QueueKept.of_eq h).settle before

/-- One entry enters a queue of fewer than 64. -/
theorem State.enterDemand_queueKept {s : State} (e : Entry) (h : ¬ Config.maxEntries ≤ s.entries.length) :
    s.QueueKept (s.enterDemand e) := by
  rintro ⟨_, horder⟩
  refine ⟨?_, enqueue_rushOrder e horder⟩
  show (enqueue s.entries e).length ≤ _
  rw [enqueue_length]
  omega

theorem State.endAnyLoad_queueKept (s : State) : s.QueueKept s.endAnyLoad := .of_eq (by rw [s.endAnyLoad_rest])

theorem State.releaseGate_queueKept (s : State) : s.QueueKept s.releaseGate := .of_eq (settleNotices_entries _)

theorem State.changeLevel_queueKept (s : State) (l : LineNo) (level : Bool) : s.QueueKept (s.changeLevel l level) := by
  have hline : s.QueueKept (s.updLine l fun x => x.take level).begin.state := .of_eq rfl
  exact (hline.trans (Event.deliver_keeps _ _ _).queueKept).settle s

theorem State.turn_queueKept (s : State) (t : Transition) (a b : Bool) : s.QueueKept (s.turn t a b) :=
  s.turn_keeps (P := s.QueueKept) t a b (.of_eq rfl) fun u before k hu =>
    hu.trans ((Event.travelChange_keeps u.begin k).queueKept_settle before)

theorem State.gradeRow_queueKept (s : State) (k : Ctx) (y : Nat) (runs : List GradeRun) :
    s.QueueKept (s.gradeRow k y runs) := by
  have hrow : s.QueueKept (s.rowWritten k y runs) := .of_eq s.advanceScan_entries
  rw [State.gradeRow_eq]
  refine (hrow.trans ?_).settle _
  unfold State.grading
  dsimp only
  split
  · exact (Event.downgrade_keeps (s.rowWritten k y runs).begin _ _ _).queueKept.trans (.of_eq rfl)
  · exact (Event.downgrade_keeps (s.rowWritten k y runs).begin _ _ _).queueKept

theorem State.applyFlaw_queueKept (s : State) (k : Ctx) (n : Nat) (f : Flaw) (c : Classified) :
    s.QueueKept (s.applyFlaw k n f c) := by
  have hflaw : s.QueueKept (s.flawWritten k n f c) := .of_eq s.advanceScan_entries
  rw [State.applyFlaw_eq]
  exact (hflaw.trans (Event.downgrade_keeps ((s.flawWritten k n f c).begin.raise .flawApplied) _ _ _).queueKept).settle _

theorem State.unapplyFlaw_queueKept (s : State) (k : Ctx) (n : Nat) (f : Flaw) (c : Classified) :
    s.QueueKept (s.unapplyFlaw k n f c) := by
  have hflaw : s.QueueKept (s.unapplying k n f c).state := .of_eq s.advanceScan_entries
  rw [State.unapplyFlaw_eq]
  exact hflaw.settle _

theorem State.abort_queueKept (s : State) (k : Ctx) : s.QueueKept (s.abort k) := by
  have hstart : s.QueueKept (s.abortStart k).begin.state := .of_eq (by rw [State.begin_state, s.abortStart_rest])
  have hpieces : s.QueueKept (s.abortPieces k).state :=
    hstart.trans (Event.foldl_keeps _ (Event.abortSlot_keeps k) _ _).queueKept
  have hclosed : s.QueueKept (s.aborting k).state := hpieces.trans (by rw [State.aborting_eq]; exact .of_eq rfl)
  exact hclosed.settle _

theorem State.release_queueKept (s : State) (k : Ctx) : s.QueueKept (s.release k) := by
  have hfreed := (s.begin.freeAll_keeps (s.slotsOf k)).queueKept
  exact (hfreed.trans (.of_eq (by rw [s.releasing_state]))).settle _

/-! ### The owners -/

theorem libraryBeginOwner_queueKept (p : Port) (pl : List Byte) (s : State) :
    s.QueueKept (libraryBeginOwner p pl s).1 := by
  unfold libraryBeginOwner
  dsimp only
  split
  · split
    · exact s.endAnyLoad_queueKept
    · split
      · exact s.endAnyLoad_queueKept
      · exact s.endAnyLoad_queueKept.trans (.of_eq rfl)
  · exact .refl s

theorem demandPostOwner_queueKept (p : Port) (pl : List Byte) (s : State) :
    s.QueueKept (demandPostOwner p pl s).1 := by
  unfold demandPostOwner
  split
  · split
    · exact .refl s
    · split
      · exact .refl s
      · split
        · exact .refl s
        · split
          · exact .refl s
          · rename_i hroom
            split
            · exact .refl s
            · exact (State.enterDemand_queueKept _ hroom).settle s
  · exact .refl s


theorem noticeClearOwner_queueKept (p : Port) (pl : List Byte) (s : State) :
    s.QueueKept (noticeClearOwner p pl s).1 := by
  unfold noticeClearOwner
  dsimp only
  split <;> exact .of_eq rfl

theorem noticeSetupOwner_queueKept (p : Port) (pl : List Byte) (s : State) :
    s.QueueKept (noticeSetupOwner p pl s).1 := by
  unfold noticeSetupOwner
  dsimp only
  split <;> exact .of_eq rfl

theorem ruleWriteOwner_queueKept (p : Port) (pl : List Byte) (s : State) : s.QueueKept (ruleWriteOwner p pl s).1 := by
  unfold ruleWriteOwner
  split <;> exact .of_eq rfl

theorem rangeWriteOwner_queueKept (p : Port) (pl : List Byte) (s : State) :
    s.QueueKept (rangeWriteOwner p pl s).1 := by
  unfold rangeWriteOwner
  split <;> exact .of_eq rfl

theorem classDefaultsOwner_queueKept (p : Port) (pl : List Byte) (s : State) :
    s.QueueKept (classDefaultsOwner p pl s).1 := by
  unfold classDefaultsOwner
  split
  · exact .refl s
  · split <;> exact .of_eq rfl

theorem setConveyorOwner_queueKept (p : Port) (pl : List Byte) (s : State) :
    s.QueueKept (setConveyorOwner p pl s).1 := by
  unfold setConveyorOwner
  split
  · exact .refl s
  · split <;> exact .of_eq rfl

theorem setGateOwner_queueKept (p : Port) (pl : List Byte) (s : State) : s.QueueKept (setGateOwner p pl s).1 := by
  unfold setGateOwner
  split
  · exact .refl s
  · exact State.settle_queueKept (by rfl) s

theorem setLineOwner_queueKept (p : Port) (pl : List Byte) (s : State) : s.QueueKept (setLineOwner p pl s).1 := by
  unfold setLineOwner
  split
  · rename_i l c _ _
    have hline : s.QueueKept (s.updLine l fun x => x.configure c (s.sourceValue (s.lines[l]).applied (s.lines[l]).source)) :=
      .of_eq rfl
    have hview := (hline.trans (Event.viewInterlocks_keeps (State.begin _)).queueKept).settle s
    unfold State.setLine
    dsimp only
    split
    · exact hview.trans (.of_eq rfl)
    · exact hview
  · exact .refl s

theorem mapTestOwner_queueKept (p : Port) (pl : List Byte) (s : State) : s.QueueKept (mapTestOwner p pl s).1 := by
  unfold mapTestOwner
  split
  · exact .of_eq (settleNotices_entries _)
  · exact .refl s

theorem libraryRowsOwner_queueKept (p : Port) (pl : List Byte) (s : State) :
    s.QueueKept (libraryRowsOwner p pl s).1 := by
  unfold libraryRowsOwner
  split
  · exact .refl s
  · dsimp only
    split
    · exact .refl s
    · split
      · exact .refl s
      · split <;> exact .of_eq rfl

theorem libraryEndOwner_queueKept (p : Port) (pl : List Byte) (s : State) :
    s.QueueKept (libraryEndOwner p pl s).1 := by
  unfold libraryEndOwner
  split
  · exact .refl s
  · dsimp only
    split <;> exact .of_eq rfl

theorem libraryDropOwner_queueKept (p : Port) (pl : List Byte) (s : State) :
    s.QueueKept (libraryDropOwner p pl s).1 := by
  unfold libraryDropOwner
  split
  · exact .refl s
  · dsimp only
    split
    · exact .refl s
    · exact .refl s
    · split <;> exact .of_eq rfl

theorem demandCancelOwner_queueKept (p : Port) (pl : List Byte) (s : State) :
    s.QueueKept (demandCancelOwner p pl s).1 := by
  unfold demandCancelOwner
  split
  · exact .refl s
  · split
    · exact .refl s
    · split
      · exact .refl s
      · exact (s.cancelling_keeps _).queueKept_settle _

theorem placementWithdrawOwner_queueKept (p : Port) (pl : List Byte) (s : State) :
    s.QueueKept (placementWithdrawOwner p pl s).1 := by
  unfold placementWithdrawOwner
  split
  · split
    · exact .refl s
    · split
      · exact .refl s
      · split
        · exact (s.advanceScan_keeps.trans (Event.withdraw_keeps s.advanceScan.begin _ _)).queueKept_settle _
        · exact .refl s
  · exact .refl s

theorem flawAddOwner_queueKept (p : Port) (pl : List Byte) (s : State) : s.QueueKept (flawAddOwner p pl s).1 := by
  unfold flawAddOwner
  split
  · exact .refl s
  · split
    · exact .refl s
    · split
      · exact .refl s
      · split
        · exact .refl s
        · exact State.settle_queueKept (by rfl) s

theorem State.withdrawFlaw_queueKept (s : State) (k : Ctx) (n : Nat) (f : Flaw) :
    s.QueueKept (s.withdrawFlaw k n f) := by
  unfold State.withdrawFlaw
  split
  · exact State.settle_queueKept (by rfl) s
  · exact State.settle_queueKept (by rfl) s
  · exact State.settle_queueKept (by rfl) s
  · exact .refl s
  · exact .refl s

theorem flawWithdrawOwner_queueKept (p : Port) (pl : List Byte) (s : State) :
    s.QueueKept (flawWithdrawOwner p pl s).1 := by
  unfold flawWithdrawOwner
  split
  · exact .refl s
  · split
    · exact .refl s
    · split
      · exact .refl s
      · split
        · exact .refl s
        · exact s.withdrawFlaw_queueKept _ _ _

theorem gradeRunsOwner_queueKept (p : Port) (pl : List Byte) (s : State) : s.QueueKept (gradeRunsOwner p pl s).1 := by
  unfold gradeRunsOwner
  split
  · exact .refl s
  · dsimp only
    split
    · exact .refl s
    · split
      · exact .refl s
      · split
        · exact .refl s
        · exact s.gradeRow_queueKept _ _ _

theorem hideOpenOwner_queueKept (p : Port) (pl : List Byte) (s : State) : s.QueueKept (hideOpenOwner p pl s).1 := by
  unfold hideOpenOwner
  split
  · exact .refl s
  · split
    · exact .refl s
    · split
      · exact .refl s
      · exact State.settle_queueKept (by rfl) s

theorem markFrontierOwner_queueKept (p : Port) (pl : List Byte) (s : State) :
    s.QueueKept (markFrontierOwner p pl s).1 := by
  unfold markFrontierOwner
  split
  · exact .refl s
  · dsimp only
    split
    · exact .refl s
    · dsimp only
      split
      · exact State.settle_queueKept (by rfl) s
      · exact .refl s

theorem hideAbortOwner_queueKept (p : Port) (pl : List Byte) (s : State) : s.QueueKept (hideAbortOwner p pl s).1 := by
  unfold hideAbortOwner
  split
  · exact .refl s
  · split
    · exact .refl s
    · exact s.abort_queueKept _

theorem hideReleaseOwner_queueKept (p : Port) (pl : List Byte) (s : State) :
    s.QueueKept (hideReleaseOwner p pl s).1 := by
  unfold hideReleaseOwner
  split
  · exact .refl s
  · split
    · exact .refl s
    · exact s.release_queueKept _

theorem headOnlineOwner_queueKept (p : Port) (pl : List Byte) (s : State) :
    s.QueueKept (headOnlineOwner p pl s).1 := by
  unfold headOnlineOwner
  dsimp only
  split
  · exact .refl s
  · exact State.settle_queueKept (by rfl) s

theorem headOfflineOwner_queueKept (p : Port) (pl : List Byte) (s : State) :
    s.QueueKept (headOfflineOwner p pl s).1 := (s.begin.takeOffline_keeps _ _).queueKept_settle s

theorem claimOwner_queueKept (p : Port) (pl : List Byte) (s : State) : s.QueueKept (claimOwner p pl s).1 := by
  unfold claimOwner
  dsimp only
  split
  · exact .refl s
  · split
    · exact .refl s
    · split
      · exact .refl s
      · exact State.settle_queueKept (by rfl) s

theorem startCutOwner_queueKept (p : Port) (pl : List Byte) (s : State) : s.QueueKept (startCutOwner p pl s).1 := by
  unfold startCutOwner
  dsimp only
  split
  · exact .refl s
  · split
    · exact .refl s
    · split
      · exact .refl s
      · exact State.settle_queueKept (by rfl) s

theorem returnClaimOwner_queueKept (p : Port) (pl : List Byte) (s : State) :
    s.QueueKept (returnClaimOwner p pl s).1 := by
  unfold returnClaimOwner
  dsimp only
  split
  · exact .refl s
  · split
    · exact .refl s
    · split
      · exact .refl s
      · exact State.Keeps.queueKept_settle (e := State.begin _) (s.returnClaim_keeps _) s

theorem cutDoneOwner_queueKept (p : Port) (pl : List Byte) (s : State) : s.QueueKept (cutDoneOwner p pl s).1 := by
  unfold cutDoneOwner
  dsimp only
  split
  · exact .refl s
  · split
    · exact .refl s
    · split
      · exact .refl s
      · unfold State.cutDone
        split
        · exact (s.begin.spoil_keeps _ _).queueKept_settle s
        · exact (s.begin.cutThrough_keeps _ _ _).queueKept_settle s

theorem cutFailedOwner_queueKept (p : Port) (pl : List Byte) (s : State) : s.QueueKept (cutFailedOwner p pl s).1 := by
  unfold cutFailedOwner
  dsimp only
  split
  · exact .refl s
  · split
    · exact .refl s
    · split
      · exact .refl s
      · split
        · exact .refl s
        · unfold State.cutFailed
          split
          · exact ((s.begin.spoil_keeps _ _).trans (Event.faultHead_keeps _ _)).queueKept_settle s
          · exact (s.begin.spoil_keeps _ _).queueKept_settle s

theorem hideDrainOwner_queueKept (p : Port) (pl : List Byte) (s : State) : s.QueueKept (hideDrainOwner p pl s).1 := by
  unfold hideDrainOwner
  split
  · exact .refl s
  · split
    · rename_i hk
      exact State.Keeps.queueKept_settle (e := State.begin _) (s.drainCtx_keeps _ _ (by rw [hk]; decide)) s
    · exact .refl s
    · exact .refl s
    · exact .refl s

/-! ### Events that no request brings -/

theorem execMapTestCompletion_queueKept {rs : List ReadBack} {s t : State}
    (h : execMapTestCompletion rs s = .next t) : s.QueueKept t := by
  unfold execMapTestCompletion at h
  split at h <;> obtain rfl := Host.Outcome.next.inj h
  · exact .of_eq (by rw [s.endMapTest_rest]; rfl)
  · exact .refl s

theorem execNoticeHoldoffExpiry_queueKept {p : Port} {s t : State} (h : execNoticeHoldoffExpiry p s = .next t) :
    s.QueueKept t := by
  unfold execNoticeHoldoffExpiry at h
  split at h <;> obtain rfl := Host.Outcome.next.inj h <;> exact .of_eq rfl

theorem execApplyJobCompletion_queueKept {s t : State} (h : execApplyJobCompletion s = .next t) : s.QueueKept t := by
  unfold execApplyJobCompletion at h
  split at h
  · split at h
    · split at h <;> obtain rfl := Host.Outcome.next.inj h
      · exact s.applyFlaw_queueKept _ _ _ _
      · exact .refl s
    · exact Host.Outcome.next.inj h ▸ .refl s
  · exact Host.Outcome.next.inj h ▸ .refl s
  · exact Host.Outcome.next.inj h ▸ .refl s

theorem execWithdrawJobCompletion_queueKept {s t : State} (h : execWithdrawJobCompletion s = .next t) :
    s.QueueKept t := by
  unfold execWithdrawJobCompletion at h
  split at h
  · split at h
    · split at h <;> obtain rfl := Host.Outcome.next.inj h
      · exact s.unapplyFlaw_queueKept _ _ _ _
      · exact .refl s
    · exact Host.Outcome.next.inj h ▸ .refl s
  · exact Host.Outcome.next.inj h ▸ .refl s
  · exact Host.Outcome.next.inj h ▸ .refl s

theorem execSearchCompletion_queueKept {s t : State} (h : execSearchCompletion s = .next t) : s.QueueKept t := by
  unfold execSearchCompletion at h
  split at h <;> obtain rfl := Host.Outcome.next.inj h
  · refine State.QueueKept.settle ?_ s
    exact (s.begin.finish_keeps _ _).queueKept
  · exact .refl s
  · exact .refl s

theorem execEncoderTransition_queueKept {a b : Bool} {s t : State} (h : execEncoderTransition a b s = .next t) :
    s.QueueKept t := by
  unfold execEncoderTransition at h
  split at h <;> obtain rfl := Host.Outcome.next.inj h
  · exact .refl s
  all_goals exact s.turn_queueKept _ a b

theorem execGateHoldLimitExpiry_queueKept {s t : State} (h : execGateHoldLimitExpiry s = .next t) : s.QueueKept t := by
  unfold execGateHoldLimitExpiry at h
  split at h <;> obtain rfl := Host.Outcome.next.inj h
  · exact s.releaseGate_queueKept
  · exact .refl s

theorem execClaimTimerExpiry_queueKept {g : Head} {s t : State} (h : execClaimTimerExpiry g s = .next t) :
    s.QueueKept t := by
  unfold execClaimTimerExpiry at h
  split at h <;> obtain rfl := Host.Outcome.next.inj h
  · exact (s.begin.loseClaim_keeps _ _).queueKept_settle s
  · exact .refl s
  · exact .refl s

theorem State.followPin_queueKept (s : State) (l : LineNo) : s.QueueKept (s.followPin l) := by
  unfold State.followPin
  dsimp only
  split
  · exact .refl s
  · split
    · exact .refl s
    · split
      · exact s.changeLevel_queueKept l _
      · exact .of_eq rfl
  · split <;> exact .of_eq rfl

theorem execLinePinChange_queueKept {l : LineNo} {v : Bool} {s t : State} (h : execLinePinChange l v s = .next t) :
    s.QueueKept t := by
  unfold execLinePinChange at h
  split at h <;> obtain rfl := Host.Outcome.next.inj h
  · exact .refl s
  · exact (State.updLine_keeps s l _).queueKept.trans (State.followPin_queueKept _ l)

theorem execDebounceExpiry_queueKept {l : LineNo} {s t : State} (h : execDebounceExpiry l s = .next t) :
    s.QueueKept t := by
  unfold execDebounceExpiry at h
  split at h <;> obtain rfl := Host.Outcome.next.inj h
  · exact s.changeLevel_queueKept l _
  · exact .refl s
  · exact .refl s

/-! ### Frames -/

theorem request_queueKept {k : Kind} {o : Owner} {p : Port} {pl : List Byte} {s t : State}
    (ho : ∀ u : State, u.QueueKept (o p pl u).1) (h : request k o p pl s = .next t) : s.QueueKept t := by
  have hanswer : s.QueueKept (settleAnswer k p (o p pl (s.hunt p))) :=
    (State.QueueKept.of_eq rfl).trans ((ho (s.hunt p)).trans (.of_eq rfl))
  obtain ⟨_, ht, hkept⟩ := request_elim k o p pl s s.QueueKept (.of_eq rfl) (fun _ => .of_eq rfl) fun _ => hanswer
  rw [ht] at h
  exact Host.Outcome.next.inj h ▸ hkept

theorem reading_queueKept {k : Kind} {f : Port → List Byte → State → Answer} {p : Port} {pl : List Byte} {s t : State}
    (h : request k (reading f) p pl s = .next t) : s.QueueKept t := request_queueKept (fun u => .refl u) h

theorem takeFrame_queueKept {k : Kind} {p : Port} {pl : List Byte} {s t : State}
    (h : takeFrame k p pl s = .next t) : s.QueueKept t := by
  cases k with
  | partStatus => exact reading_queueKept h
  | noticeRead => exact reading_queueKept h
  | noticeClear => exact request_queueKept (noticeClearOwner_queueKept p pl) h
  | noticeSetup => exact request_queueKept (noticeSetupOwner_queueKept p pl) h
  | mapRead => exact reading_queueKept h
  | placementRead => exact reading_queueKept h
  | hideReport => exact reading_queueKept h
  | lineStatus => exact reading_queueKept h
  | partReset => exact request_queueKept (fun _ => .of_nil rfl) h
  | mapTest => exact request_queueKept (mapTestOwner_queueKept p pl) h
  | setWeights => exact request_queueKept (fun _ => .of_eq rfl) h
  | setConveyor => exact request_queueKept (setConveyorOwner_queueKept p pl) h
  | setGate => exact request_queueKept (setGateOwner_queueKept p pl) h
  | gateRelease => exact request_queueKept State.releaseGate_queueKept h
  | setLine => exact request_queueKept (setLineOwner_queueKept p pl) h
  | libraryBegin => exact request_queueKept (libraryBeginOwner_queueKept p pl) h
  | libraryRows => exact request_queueKept (libraryRowsOwner_queueKept p pl) h
  | libraryEnd => exact request_queueKept (libraryEndOwner_queueKept p pl) h
  | libraryDrop => exact request_queueKept (libraryDropOwner_queueKept p pl) h
  | libraryRead => exact reading_queueKept h
  | ruleWrite => exact request_queueKept (ruleWriteOwner_queueKept p pl) h
  | ruleRead => exact reading_queueKept h
  | rangeWrite => exact request_queueKept (rangeWriteOwner_queueKept p pl) h
  | classDefaults => exact request_queueKept (classDefaultsOwner_queueKept p pl) h
  | demandPost => exact request_queueKept (demandPostOwner_queueKept p pl) h
  | demandCancel => exact request_queueKept (demandCancelOwner_queueKept p pl) h
  | demandRead => exact reading_queueKept h
  | hideDrain => exact request_queueKept (hideDrainOwner_queueKept p pl) h
  | hideAbort => exact request_queueKept (hideAbortOwner_queueKept p pl) h
  | hideRelease => exact request_queueKept (hideReleaseOwner_queueKept p pl) h
  | placementWithdraw => exact request_queueKept (placementWithdrawOwner_queueKept p pl) h
  | hideOpen => exact request_queueKept (hideOpenOwner_queueKept p pl) h
  | gradeRuns => exact request_queueKept (gradeRunsOwner_queueKept p pl) h
  | flawAdd => exact request_queueKept (flawAddOwner_queueKept p pl) h
  | flawWithdraw => exact request_queueKept (flawWithdrawOwner_queueKept p pl) h
  | flawRead => exact reading_queueKept h
  | markFrontier => exact request_queueKept (markFrontierOwner_queueKept p pl) h
  | headOnline => exact request_queueKept (headOnlineOwner_queueKept p pl) h
  | headOffline => exact request_queueKept (headOfflineOwner_queueKept p pl) h
  | claim => exact request_queueKept (claimOwner_queueKept p pl) h
  | startCut => exact request_queueKept (startCutOwner_queueKept p pl) h
  | cutDone => exact request_queueKept (cutDoneOwner_queueKept p pl) h
  | cutFailed => exact request_queueKept (cutFailedOwner_queueKept p pl) h
  | returnClaim => exact request_queueKept (returnClaimOwner_queueKept p pl) h

theorem goodFrame_queueKept {p : Port} {kind : Byte} {pl : List Byte} {s t : State}
    (h : goodFrame p kind pl s = .next t) : s.QueueKept t := by
  unfold goodFrame at h
  split at h
  · exact Host.Outcome.next.inj h ▸ .of_eq rfl
  · split at h
    · exact Host.Outcome.next.inj h ▸ .of_eq rfl
    · exact takeFrame_queueKept h

theorem completeFrame_queueKept {p : Port} {kind check : Byte} {pl : List Byte} {s t : State}
    (h : completeFrame p kind pl check s = .next t) : s.QueueKept t := by
  unfold completeFrame at h
  split at h
  · exact Host.Outcome.next.inj h ▸ .of_eq rfl
  · split at h
    · exact goodFrame_queueKept h
    · exact Host.Outcome.next.inj h ▸ .of_eq rfl

theorem execFrameByteReceived_queueKept {p : Port} {b : Byte} {s t : State}
    (h : execFrameByteReceived p b s = .next t) : s.QueueKept t := by
  unfold execFrameByteReceived at h
  split at h
  · split at h <;> exact Host.Outcome.next.inj h ▸ .of_eq rfl
  · exact Host.Outcome.next.inj h ▸ .of_eq rfl
  · split at h <;> exact Host.Outcome.next.inj h ▸ .of_eq rfl
  · split at h
    · exact Host.Outcome.next.inj h ▸ .of_eq rfl
    · exact completeFrame_queueKept h

/-! ### Every command -/

theorem exec_queueKept {c : Instr} {s t : State} (h : exec c s = .next t) : s.QueueKept t := by
  cases c with
  | powerUp => exact Host.Outcome.next.inj h ▸ .of_nil rfl
  | mapTestCompletion rs => exact execMapTestCompletion_queueKept h
  | noticeHoldoffExpiry p => exact execNoticeHoldoffExpiry_queueKept h
  | applyJobCompletion => exact execApplyJobCompletion_queueKept h
  | withdrawJobCompletion => exact execWithdrawJobCompletion_queueKept h
  | searchCompletion => exact execSearchCompletion_queueKept h
  | encoderTransition a b => exact execEncoderTransition_queueKept h
  | gateHoldLimitExpiry => exact execGateHoldLimitExpiry_queueKept h
  | claimTimerExpiry g => exact execClaimTimerExpiry_queueKept h
  | linePinChange l v => exact execLinePinChange_queueKept h
  | debounceExpiry l => exact execDebounceExpiry_queueKept h
  | outputHoldEnd l => exact Host.Outcome.next.inj h ▸ .of_eq rfl
  | unknownKind p k pl => exact goodFrame_queueKept h
  | checkRefused p k pl c => exact completeFrame_queueKept h
  | frameDiscardedOwed p k pl c => exact completeFrame_queueKept h
  | frameGapTimeout p => exact Host.Outcome.next.inj h ▸ .of_eq rfl
  | lineErrorDiscard p => exact Host.Outcome.next.inj h ▸ .of_eq rfl
  | lengthOverflowDiscard p n =>
    unfold exec execLengthOverflowDiscard at h
    dsimp only at h
    split at h <;> exact Host.Outcome.next.inj h ▸ .of_eq rfl
  | replySent p => exact Host.Outcome.next.inj h ▸ .of_eq rfl
  | frameByteReceived p b => exact execFrameByteReceived_queueKept h
  | partStatus p pl => exact takeFrame_queueKept (k := .partStatus) h
  | partReset p pl => exact takeFrame_queueKept (k := .partReset) h
  | mapTest p pl => exact takeFrame_queueKept (k := .mapTest) h
  | noticeRead p pl => exact takeFrame_queueKept (k := .noticeRead) h
  | noticeClear p pl => exact takeFrame_queueKept (k := .noticeClear) h
  | noticeSetup p pl => exact takeFrame_queueKept (k := .noticeSetup) h
  | mapRead p pl => exact takeFrame_queueKept (k := .mapRead) h
  | gradeRuns p pl => exact takeFrame_queueKept (k := .gradeRuns) h
  | flawAdd p pl => exact takeFrame_queueKept (k := .flawAdd) h
  | flawWithdraw p pl => exact takeFrame_queueKept (k := .flawWithdraw) h
  | flawRead p pl => exact takeFrame_queueKept (k := .flawRead) h
  | ruleWrite p pl => exact takeFrame_queueKept (k := .ruleWrite) h
  | rangeWrite p pl => exact takeFrame_queueKept (k := .rangeWrite) h
  | classDefaults p pl => exact takeFrame_queueKept (k := .classDefaults) h
  | ruleReadEntry p pl => exact takeFrame_queueKept (k := .ruleRead) h
  | ruleReadTables p pl => exact takeFrame_queueKept (k := .ruleRead) h
  | libraryBegin p pl => exact takeFrame_queueKept (k := .libraryBegin) h
  | libraryRows p pl => exact takeFrame_queueKept (k := .libraryRows) h
  | libraryEnd p pl => exact takeFrame_queueKept (k := .libraryEnd) h
  | libraryDrop p pl => exact takeFrame_queueKept (k := .libraryDrop) h
  | libraryReadRecord p pl => exact takeFrame_queueKept (k := .libraryRead) h
  | libraryReadMask p pl => exact takeFrame_queueKept (k := .libraryRead) h
  | demandPost p pl => exact takeFrame_queueKept (k := .demandPost) h
  | demandCancel p pl => exact takeFrame_queueKept (k := .demandCancel) h
  | demandReadEntry p pl => exact takeFrame_queueKept (k := .demandRead) h
  | demandReadList p pl => exact takeFrame_queueKept (k := .demandRead) h
  | setWeights p pl => exact takeFrame_queueKept (k := .setWeights) h
  | placementRead p pl => exact takeFrame_queueKept (k := .placementRead) h
  | hideReport p pl => exact takeFrame_queueKept (k := .hideReport) h
  | placementWithdraw p pl => exact takeFrame_queueKept (k := .placementWithdraw) h
  | hideOpen p pl => exact takeFrame_queueKept (k := .hideOpen) h
  | markFrontier p pl => exact takeFrame_queueKept (k := .markFrontier) h
  | hideDrain p pl => exact takeFrame_queueKept (k := .hideDrain) h
  | hideAbort p pl => exact takeFrame_queueKept (k := .hideAbort) h
  | hideRelease p pl => exact takeFrame_queueKept (k := .hideRelease) h
  | setConveyor p pl => exact takeFrame_queueKept (k := .setConveyor) h
  | setGate p pl => exact takeFrame_queueKept (k := .setGate) h
  | gateRelease p pl => exact takeFrame_queueKept (k := .gateRelease) h
  | headOnline p pl => exact takeFrame_queueKept (k := .headOnline) h
  | headOffline p pl => exact takeFrame_queueKept (k := .headOffline) h
  | claim p pl => exact takeFrame_queueKept (k := .claim) h
  | startCut p pl => exact takeFrame_queueKept (k := .startCut) h
  | cutDone p pl => exact takeFrame_queueKept (k := .cutDone) h
  | cutFailed p pl => exact takeFrame_queueKept (k := .cutFailed) h
  | returnClaim p pl => exact takeFrame_queueKept (k := .returnClaim) h
  | setLine p pl => exact takeFrame_queueKept (k := .setLine) h
  | lineStatus p pl => exact takeFrame_queueKept (k := .lineStatus) h

/-- Settles O51: DEMAND POST enters below the bound and in order, and every other step only shortens the queue. -/
theorem stepKeepsQueueLaw : Obligations.StepKeepsQueueLaw := by
  intro s t hs h
  unfold step at h
  split at h
  · obtain rfl := Host.Outcome.next.inj h
    unfold State.idle
    split <;> exact hs
  · rename_i c rest _
    have hrest : s.QueueKept { s with pending := rest } := .of_eq rfl
    exact hrest.trans (exec_queueKept h) hs

end Sys2Proof.Machine
end

section
/-!
PROOFS. The second law's accounts: every tag is held once, every record's tag is held, and an entry counts the live
records and the records that name it. How one slot's change and the entry's change with it keep them.
-/

namespace Sys2Proof.Machine

open Sys2Proof

/-! ### Records of one tag -/

/-- The slots whose record has a tag and a state of some kind. -/
def countTag (v : Vector (Option Placement) 256) (u : Tag) (Q : PlacementState → Bool) : Nat :=
  countSlots v fun r => decide (r.tag = u) && Q r.state

/-- A slot that holds no record of other tags than one. -/
def onlyTag (o : Option Placement) (u : Tag) : Prop := ∀ r, o = some r → r.tag = u

theorem onlyTag.any_same {o : Option Placement} {u : Tag} (h : onlyTag o u) (Q : PlacementState → Bool) :
    (o.any fun r => decide (r.tag = u) && Q r.state) = o.any fun r => Q r.state := by
  cases o with
  | none => rfl
  | some r => simp [h r rfl]

theorem onlyTag.any_other {o : Option Placement} {u w : Tag} (h : onlyTag o u) (hw : w ≠ u) (Q : PlacementState → Bool) :
    (o.any fun r => decide (r.tag = w) && Q r.state) = false := by
  cases o with
  | none => rfl
  | some r => simp [h r rfl, hw.symm]

section
variable {v : Vector (Option Placement) 256} {n : SlotNo} {o : Option Placement} {u : Tag}

theorem countTag_set_same (hold : onlyTag v[n] u) (hnew : onlyTag o u) (Q : PlacementState → Bool) :
    countTag (v.set n o) u Q + ((v[n]).any fun r => Q r.state).toNat = countTag v u Q + (o.any fun r => Q r.state).toNat := by
  rw [← hold.any_same, ← hnew.any_same]
  exact countSlots_set v n o _

theorem countTag_set_other (hold : onlyTag v[n] u) (hnew : onlyTag o u) {w : Tag} (hw : w ≠ u)
    (Q : PlacementState → Bool) : countTag (v.set n o) w Q = countTag v w Q := by
  have h := countSlots_set v n o fun r => decide (r.tag = w) && Q r.state
  rw [hold.any_other hw, hnew.any_other hw] at h
  exact h

/-- What counts a slot's record counts no more than all of them. -/
theorem le_countTag (hold : onlyTag v[n] u) (Q : PlacementState → Bool) :
    ((v[n]).any fun r => Q r.state).toNat ≤ countTag v u Q := by
  have h := countTag_set_same (o := none) hold nofun Q
  simp only [Option.any_none, Bool.toNat_false] at h
  omega

end

theorem countTag_eq_zero {v : Vector (Option Placement) 256} {u : Tag} {Q : PlacementState → Bool}
    (h : countTag v u Q = 0) {n : SlotNo} {r : Placement} (hr : v[n] = some r) (hq : Q r.state = true) : r.tag ≠ u := by
  have := countSlots_eq_zero h hr
  simpa [hq] using this

/-- No record has the tag. -/
theorem countTag_of_unnamed {v : Vector (Option Placement) 256} {u : Tag}
    (h : ∀ (n : SlotNo) (r : Placement), v[n] = some r → r.tag ≠ u) (Q : PlacementState → Bool) : countTag v u Q = 0 := by
  refine List.countP_eq_zero.mpr fun n _ => ?_
  cases hr : v[n] with
  | none => simp
  | some r => simp [h n r hr]

/-! ### The accounts -/

/-- The second law with the counts it speaks of, slot by slot (R57, R59, R62). -/
structure State.Tallied (s : State) : Prop where
  tags : (s.entries.map Entry.tag).Nodup
  named : ∀ (n : SlotNo) (r : Placement), s.slots[n] = some r → ∃ e ∈ s.entries, e.tag = r.tag
  live : ∀ e ∈ s.entries, e.live = countTag s.slots e.tag PlacementState.live
  holders : ∀ e ∈ s.entries, e.holders = countTag s.slots e.tag fun _ => true
  law : ∀ e ∈ s.entries, e.live + e.cut ≤ e.requested

theorem State.tallied_iff (s : State) : s.Tallied ↔ s.countsWf := by
  have hlive : ∀ u : Tag, (s.records.countP fun r => r.2.tag = u && r.2.state.live) =
      countTag s.slots u PlacementState.live := fun u =>
    s.countP_records fun r => decide (r.tag = u) && r.state.live
  have hholders : ∀ u : Tag, (s.records.countP fun r => r.2.tag = u) = countTag s.slots u fun _ => true := fun u => by
    simp only [countTag, Bool.and_true]
    exact s.countP_records fun r => decide (r.tag = u)
  unfold State.countsWf
  simp only [hlive, hholders]
  exact ⟨fun h => ⟨h.law, h.tags, h.named, fun e he => ⟨h.live e he, h.holders e he⟩⟩,
    fun ⟨hlaw, htags, hnamed, hcounts⟩ => ⟨htags, hnamed, fun e he => (hcounts e he).1, fun e he => (hcounts e he).2, hlaw⟩⟩

theorem State.Tallied.congr {s t : State} (h : s.Tallied) (slots : t.slots = s.slots) (entries : t.entries = s.entries) :
    t.Tallied where
  tags := by rw [entries]; exact h.tags
  named := by rw [slots, entries]; exact h.named
  live := by rw [slots, entries]; exact h.live
  holders := by rw [slots, entries]; exact h.holders
  law := by rw [entries]; exact h.law

theorem State.tallied_of_reset {s : State} (slots : s.slots = Vector.replicate 256 none) (entries : s.entries = []) :
    s.Tallied where
  tags := by rw [entries]; exact List.nodup_nil
  named n r hr := by
    rw [slots, get_replicate] at hr
    cases hr
  live := by rw [entries]; exact nofun
  holders := by rw [entries]; exact nofun
  law := by rw [entries]; exact nofun

/-! ### One slot changes, and one entry with it -/

/-- An entry follows a slot's change: what the slot held is no longer counted, what it holds is, and the law holds. -/
structure Entry.Follows (o o' : Option Placement) (x y : Entry) : Prop where
  tag : y.tag = x.tag
  live : y.live + (o.any fun r => r.state.live).toNat = x.live + (o'.any fun r => r.state.live).toNat
  holders : y.holders + (o.any fun _ => true).toNat = x.holders + (o'.any fun _ => true).toNat
  law : y.live + y.cut ≤ y.requested

/-- One slot changes between records of one tag, and the entry of the tag follows. -/
theorem State.Tallied.replace {s t : State} (h : s.Tallied) {n : SlotNo} {o : Option Placement} {u : Tag}
    {f : Entry → Entry} (slots : t.slots = s.slots.set n o)
    (entries : t.entries = s.entries.map fun e => if e.tag = u then f e else e)
    (hold : onlyTag s.slots[n] u) (hnew : onlyTag o u) (hu : o ≠ none → ∃ e ∈ s.entries, e.tag = u)
    (hf : ∀ e ∈ s.entries, e.tag = u → ((s.slots[n]).any fun r => r.state.live).toNat ≤ e.live →
      Entry.Follows s.slots[n] o e (f e)) : t.Tallied := by
  have follows : ∀ e ∈ s.entries, e.tag = u → Entry.Follows s.slots[n] o e (f e) := fun e he ht =>
    hf e he ht ((le_countTag hold PlacementState.live).trans_eq (by rw [h.live e he, ht]))
  have htag : ∀ e ∈ s.entries, (if e.tag = u then f e else e).tag = e.tag := fun e he => by
    split
    · rename_i ht
      exact (follows e he ht).tag
    · rfl
  have hmem : ∀ e ∈ t.entries, ∃ x ∈ s.entries, e = if x.tag = u then f x else x := fun e he => by
    rw [entries] at he
    obtain ⟨x, hx, rfl⟩ := List.mem_map.mp he
    exact ⟨x, hx, rfl⟩
  have hkept : ∀ x ∈ s.entries, ∃ e ∈ t.entries, e.tag = x.tag := fun x hx =>
    ⟨_, entries ▸ List.mem_map_of_mem hx, htag x hx⟩
  refine ⟨?_, fun m r hr => ?_, fun e he => ?_, fun e he => ?_, fun e he => ?_⟩
  · have hmap : t.entries.map Entry.tag = s.entries.map Entry.tag := by
      rw [entries, List.map_map]
      exact List.map_congr_left htag
    exact hmap ▸ h.tags
  · rw [slots, get_set] at hr
    split at hr
    · obtain ⟨x, hx, hxt⟩ := hu (by rw [hr]; exact nofun)
      obtain ⟨e, he, het⟩ := hkept x hx
      exact ⟨e, he, het.trans (hxt.trans (hnew r hr).symm)⟩
    · obtain ⟨x, hx, hxt⟩ := h.named m r hr
      obtain ⟨e, he, het⟩ := hkept x hx
      exact ⟨e, he, het.trans hxt⟩
  · obtain ⟨x, hx, rfl⟩ := hmem e he
    have hx0 := h.live x hx
    rw [htag x hx, slots]
    split
    · rename_i ht
      have hcount := countTag_set_same hold hnew PlacementState.live
      have hlive := (follows x hx ht).live
      rw [ht] at hx0 ⊢
      omega
    · rename_i ht
      rw [countTag_set_other hold hnew ht]
      exact hx0
  · obtain ⟨x, hx, rfl⟩ := hmem e he
    have hx0 := h.holders x hx
    rw [htag x hx, slots]
    split
    · rename_i ht
      have hcount := countTag_set_same hold hnew fun _ => true
      have hholders := (follows x hx ht).holders
      rw [ht] at hx0 ⊢
      omega
    · rename_i ht
      rw [countTag_set_other hold hnew ht]
      exact hx0
  · obtain ⟨x, hx, rfl⟩ := hmem e he
    split
    · rename_i ht
      exact (follows x hx ht).law
    · exact h.law x hx

/-- A record is replaced by one of its tag, its entry's live count follows, and live and cut together do not grow. -/
theorem State.Tallied.change {s t : State} (h : s.Tallied) {n : SlotNo} {p q : Placement} {f : Entry → Entry}
    (hp : s.slots[n] = some p) (slots : t.slots = s.slots.set n (some q))
    (entries : t.entries = s.entries.map fun e => if e.tag = p.tag then f e else e) (htag : q.tag = p.tag)
    (hfixed : ∀ e, (f e).tag = e.tag ∧ (f e).holders = e.holders ∧ (f e).requested = e.requested)
    (hlive : ∀ e : Entry, p.state.live.toNat ≤ e.live →
      (f e).live + p.state.live.toNat = e.live + q.state.live.toNat ∧ (f e).live + (f e).cut ≤ e.live + e.cut) :
    t.Tallied := by
  refine h.replace slots entries (fun r hr => ?_) (fun r hr => ?_) (fun _ => h.named n p hp) fun e he _ hpos => ?_
  · rw [Option.some.inj (hp.symm.trans hr)]
  · rw [← Option.some.inj hr]
    exact htag
  · rw [hp] at hpos ⊢
    obtain ⟨hftag, hfholders, hfrequested⟩ := hfixed e
    obtain ⟨hcount, hle⟩ := hlive e hpos
    exact ⟨hftag, hcount, by rw [hfholders]; rfl, by rw [hfrequested]; exact hle.trans (h.law e he)⟩

/-- A record is replaced by one of its tag that is live as it was, and the queue stays. -/
theorem State.Tallied.keep {s t : State} (h : s.Tallied) {n : SlotNo} {p q : Placement} (hp : s.slots[n] = some p)
    (slots : t.slots = s.slots.set n (some q)) (entries : t.entries = s.entries) (htag : q.tag = p.tag)
    (hlive : q.state.live = p.state.live) : t.Tallied := by
  refine h.change (f := id) hp slots ?_ htag (fun _ => ⟨rfl, rfl, rfl⟩) fun e _ => ⟨by rw [hlive]; rfl, le_rfl⟩
  rw [entries]
  exact (List.map_id _).symm.trans (List.map_congr_left fun e _ => (ite_self e).symm)

/-! ### Entries alone -/

/-- An entry changes in what is not counted. -/
theorem State.Tallied.updEntry {s : State} (h : s.Tallied) (u : Tag) {f : Entry → Entry}
    (hf : ∀ e, (f e).tag = e.tag ∧ (f e).live = e.live ∧ (f e).cut = e.cut ∧ (f e).requested = e.requested ∧
      (f e).holders = e.holders) : (s.updEntry u f).Tallied := by
  have hg : ∀ e : Entry, (if e.tag = u then f e else e).tag = e.tag ∧ (if e.tag = u then f e else e).live = e.live ∧
      (if e.tag = u then f e else e).cut = e.cut ∧ (if e.tag = u then f e else e).requested = e.requested ∧
      (if e.tag = u then f e else e).holders = e.holders := fun e => by
    split
    · exact hf e
    · exact ⟨rfl, rfl, rfl, rfl, rfl⟩
  refine ⟨?_, fun n r hr => ?_, fun e he => ?_, fun e he => ?_, fun e he => ?_⟩
  · have hmap : (s.updEntry u f).entries.map Entry.tag = s.entries.map Entry.tag := by
      rw [State.updEntry_entries, List.map_map]
      exact List.map_congr_left fun e _ => (hg e).1
    exact hmap ▸ h.tags
  · obtain ⟨x, hx, hxt⟩ := h.named n r hr
    exact ⟨_, List.mem_map_of_mem hx, (hg x).1.trans hxt⟩
  all_goals
    obtain ⟨x, hx, rfl⟩ := List.mem_map.mp he
    obtain ⟨htag, hlive, hcut, hrequested, hholders⟩ := hg x
  · rw [hlive, htag]
    exact h.live x hx
  · rw [hholders, htag]
    exact h.holders x hx
  · rw [hlive, hcut, hrequested]
    exact h.law x hx

/-- An entry that no record names leaves the queue. -/
theorem State.Tallied.removed {s : State} (h : s.Tallied) {x : Entry} (hx : x ∈ s.entries) (hd : x.holders = 0) :
    (s.removed x).Tallied := by
  have hnone : countTag s.slots x.tag (fun _ => true) = 0 := (h.holders x hx).symm.trans hd
  have hmem : ∀ e ∈ (s.removed x).entries, e ∈ s.entries := fun e he => (List.mem_filter.mp he).1
  refine ⟨h.tags.sublist (List.filter_sublist.map _), fun n r hr => ?_, fun e he => h.live e (hmem e he),
    fun e he => h.holders e (hmem e he), fun e he => h.law e (hmem e he)⟩
  obtain ⟨e, he, het⟩ := h.named n r hr
  refine ⟨e, List.mem_filter.mpr ⟨he, decide_eq_true ?_⟩, het⟩
  rw [het]
  exact countTag_eq_zero hnone hr rfl

theorem State.Tallied.removeIfDone {s : State} (h : s.Tallied) (u : Tag) : (s.removeIfDone u).Tallied := by
  rcases s.removeIfDone_cases u with he | ⟨x, hx, hd, he⟩ <;> rw [he]
  · exact h
  · simp only [Entry.done, Bool.and_eq_true, decide_eq_true_eq] at hd
    exact h.removed (State.mem_of_entry? hx).1 hd.2

/-- An entry of a free tag joins the queue with nothing counted. -/
theorem State.Tallied.enterDemand {s : State} (h : s.Tallied) {x : Entry} (hfree : s.entry? x.tag = none)
    (hlive : x.live = 0) (hcut : x.cut = 0) (hholders : x.holders = 0) : (s.enterDemand x).Tallied := by
  have hperm : List.Perm (s.enterDemand x).entries (x :: s.entries) := enqueue_perm s.entries x
  have hfresh : ∀ e ∈ s.entries, e.tag ≠ x.tag := fun e he => by simpa using List.find?_eq_none.mp hfree e he
  have hunnamed : ∀ (n : SlotNo) (r : Placement), s.slots[n] = some r → r.tag ≠ x.tag := fun n r hr => by
    obtain ⟨e, he, het⟩ := h.named n r hr
    rw [← het]
    exact hfresh e he
  have hmem : ∀ e ∈ (s.enterDemand x).entries, e = x ∨ e ∈ s.entries := fun e he =>
    List.mem_cons.mp (hperm.mem_iff.mp he)
  refine ⟨?_, fun n r hr => ?_, fun e he => ?_, fun e he => ?_, fun e he => ?_⟩
  · rw [(hperm.map Entry.tag).nodup_iff, List.map_cons, List.nodup_cons]
    refine ⟨fun hm => ?_, h.tags⟩
    obtain ⟨e, he, het⟩ := List.mem_map.mp hm
    exact hfresh e he het
  · obtain ⟨e, he, het⟩ := h.named n r hr
    exact ⟨e, hperm.mem_iff.mpr (List.mem_cons_of_mem _ he), het⟩
  · rcases hmem e he with rfl | he
    · exact hlive.trans (countTag_of_unnamed hunnamed _).symm
    · exact h.live e he
  · rcases hmem e he with rfl | he
    · exact hholders.trans (countTag_of_unnamed hunnamed _).symm
    · exact h.holders e he
  · rcases hmem e he with rfl | he
    · rw [hlive, hcut]
      exact Nat.zero_le _
    · exact h.law e he

/-! ### A record goes -/

/-- A slot whose record is not live becomes FREE (R113). -/
theorem Event.free_tallied {e : Event} (h : e.state.Tallied) {n : SlotNo}
    (hn : ∀ p, e.state.slots[n] = some p → p.state.live = false) : (e.free n).state.Tallied := by
  cases hp : e.state.slots[n] with
  | none =>
    unfold Event.free
    rw [hp]
    exact h
  | some p =>
    rw [Event.free_state hp]
    refine State.Tallied.removeIfDone ?_ p.tag
    refine h.replace (n := n) (o := none) (u := p.tag) (f := fun e => { e with holders := e.holders - 1 }) rfl rfl
      (fun r hr => ?_) nofun (fun hne => absurd rfl hne) fun x hx ht _ => ?_
    · rw [Option.some.inj (hp.symm.trans hr)]
    · have hle : ((e.state.slots[n]).any fun _ => true).toNat ≤ x.holders := by
        rw [h.holders x hx, ht]
        exact le_countTag (fun r hr => by rw [Option.some.inj (hp.symm.trans hr)]) fun _ => true
      rw [hp] at hle ⊢
      have hone : 1 ≤ x.holders := hle
      refine ⟨rfl, ?_, Nat.sub_add_cancel hone, h.law x hx⟩
      simp only [Option.any_some, hn p hp]
      rfl

theorem Event.freeAll_tallied {e : Event} (h : e.state.Tallied) (ns : List SlotNo)
    (hns : ∀ n ∈ ns, ∀ p, e.state.slots[n] = some p → p.state.live = false) : (e.freeAll ns).state.Tallied := by
  induction ns generalizing e with
  | nil => exact h
  | cons n ns ih =>
    refine ih (Event.free_tallied h (hns n List.mem_cons_self)) fun m hm p hp => ?_
    rw [Event.free_slots] at hp
    split at hp
    · cases hp
    · exact hns m (List.mem_cons_of_mem _ hm) p hp

/-- A commit into a slot that holds no live record (R86, R87). -/
theorem Event.commit_tallied {e : Event} (h : e.state.Tallied) {n : SlotNo} {q : Search} {b : Best}
    (hv : e.state.reverifies q b.cand = true) (hn : ∀ p, e.state.slots[n] = some p → p.state = .withdrawn) :
    (e.commit n q b).state.Tallied := by
  obtain ⟨_, ⟨x, hx, hopen, hneed⟩, _⟩ := (State.reverified_iff _ _ _).mpr hv
  have hfree := Event.free_tallied h fun p hp => by rw [hn p hp]; rfl
  obtain ⟨y, hy, hyneed, _⟩ := (e.free_wants n).wanted _ x hx (Entry.eligible_iff x |>.mpr ⟨hopen, hneed⟩)
  obtain ⟨hym, hyt⟩ := State.mem_of_entry? hy
  have hempty : (e.free n).state.slots[n] = none := by rw [Event.free_slots, if_pos rfl]
  rw [Event.commit_state]
  refine hfree.replace (n := n) (u := q.pair.tag)
    (f := fun z => { z with live := z.live + 1, holders := z.holders + 1 }) rfl rfl (fun r hr => ?_) (fun r hr => ?_)
    (fun _ => ⟨y, hym, hyt⟩) fun z hz ht _ => ?_
  · rw [hempty] at hr
    cases hr
  · rw [← Option.some.inj hr]
    rfl
  · obtain rfl : z = y := List.inj_on_of_nodup_map hfree.tags hz hym (ht.trans hyt.symm)
    obtain ⟨_, hneed⟩ := (Entry.eligible_iff z).mp hyneed
    rw [hempty]
    exact ⟨rfl, rfl, rfl, by dsimp only; omega⟩

end Sys2Proof.Machine
end

section
/-!
PROOFS. The operations on records keep the second law's accounts and what the heads hold, and so does a pass over slots
of which each step changes its own alone.
-/

namespace Sys2Proof.Machine

open Sys2Proof

/-! ### What the heads hold -/

/-- A slot's record is CLAIMED by a head or CUTTING under it. -/
def State.holds (s : State) (h : Head) (n : SlotNo) : Prop :=
  ∃ p, s.slots[n] = some p ∧ p.head = some h ∧ (p.state = .claimed ∨ p.state = .cutting)

/-- The accounts of the second law, and the part of the fourth that a pass over held slots needs: no head holds a slot
twice, and what it holds is CLAIMED by it or CUTTING under it (R143). -/
structure State.Sound (s : State) : Prop extends State.Tallied s where
  apart : ∀ h : Head, ((s.heads[h]).held.map Held.slot).Nodup
  holds : ∀ h : Head, ∀ x ∈ (s.heads[h]).held, s.holds h x.slot

theorem State.heldWf.sound {s : State} (h : s.heldWf) (hs : s.Tallied) : s.Sound where
  toTallied := hs
  apart := h.2.1
  holds k x hx := by
    obtain ⟨p, hp, hph, hps, _⟩ := (h.1 k).2.2 x hx
    exact ⟨p, hp, hph, hps⟩

theorem State.Sound.congr {s t : State} (h : s.Sound) (slots : t.slots = s.slots) (entries : t.entries = s.entries)
    (held : ∀ h : Head, (t.heads[h]).held = (s.heads[h]).held) : t.Sound where
  toTallied := h.toTallied.congr slots entries
  apart k := by rw [held]; exact h.apart k
  holds k x hx := by
    unfold State.holds
    rw [slots]
    exact h.holds k x (held k ▸ hx)

/-- One record changes; what the heads still hold of its slot is CLAIMED or CUTTING. -/
theorem State.Sound.change {s t : State} (h : s.Sound) (ht : t.Tallied) {n : SlotNo} {p q : Placement}
    (hp : s.slots[n] = some p) (slots : t.slots = s.slots.set n (some q))
    (sub : ∀ g : Head, ((t.heads[g]).held).Sublist (s.heads[g]).held)
    (hold : ∀ g : Head, p.head = some g → (p.state = .claimed ∨ p.state = .cutting) →
      (∀ x ∈ (t.heads[g]).held, x.slot ≠ n) ∨ q.head = some g ∧ (q.state = .claimed ∨ q.state = .cutting)) : t.Sound where
  toTallied := ht
  apart g := (h.apart g).sublist ((sub g).map _)
  holds g x hx := by
    obtain ⟨r, hr, hrh, hrs⟩ := h.holds g x ((sub g).subset hx)
    unfold State.holds
    rw [slots, get_set]
    split
    · rename_i hn
      rw [hn] at hr
      obtain rfl := Option.some.inj (hp.symm.trans hr)
      rcases hold g hrh hrs with hne | ⟨hq, hqs⟩
      · exact absurd hn (hne x hx)
      · exact ⟨q, rfl, hq, hqs⟩
    · exact ⟨r, hr, hrh, hrs⟩

theorem mem_filter_slot_ne {xs : List Held} {n : SlotNo} {x : Held} (h : x ∈ xs.filter fun y => y.slot ≠ n) :
    x.slot ≠ n := of_decide_eq_true (List.mem_filter.mp h).2

theorem filter_if_sublist {c : Prop} [Decidable c] (xs : List Held) (f : Held → Bool) :
    (if c then xs.filter f else xs).Sublist xs := by
  split
  · exact List.filter_sublist
  · exact List.Sublist.refl xs

/-! ### A record that turns -/

theorem Entry.moved_fixed (a b : PlacementState) (x : Entry) :
    (x.moved a b).tag = x.tag ∧ (x.moved a b).holders = x.holders ∧ (x.moved a b).requested = x.requested := by
  unfold Entry.moved
  split <;> exact ⟨rfl, rfl, rfl⟩

theorem Entry.moved_live {p q : Placement} (h : p.Turns q) {x : Entry} (hx : p.state.live.toNat ≤ x.live) :
    (x.moved p.state q.state).live + p.state.live.toNat = x.live + q.state.live.toNat ∧
      (x.moved p.state q.state).live + (x.moved p.state q.state).cut ≤ x.live + x.cut := by
  rcases h.state with hq | ⟨hp | hp, hq⟩ | ⟨hp | hp, hq⟩
  · rw [hq, Entry.moved_same]
    exact ⟨rfl, le_rfl⟩
  all_goals
    rw [hp] at hx ⊢
    rw [hq]
    simp only [PlacementState.live, Bool.toNat_true, Bool.toNat_false, Entry.moved, Entry.loseLive, Entry.spoilCutting,
      Entry.spoilCut, true_and] at hx ⊢
    omega

/-- A record that turns keeps the accounts; a held one that is withdrawn or spoiled leaves its head. -/
theorem State.recast_sound {s : State} (h : s.Sound) {n : SlotNo} {p q : Placement} (hp : s.slots[n] = some p)
    (hq : p.Turns q) (htag : q.tag = p.tag) (hhead : q.head = p.head) : (s.recast n p q).Sound := by
  have ht : (s.recast n p q).Tallied := h.toTallied.change hp (s.recast_slots n p q) (s.recast_entries n p q) htag
    (Entry.moved_fixed p.state q.state) fun _ => Entry.moved_live hq
  refine State.Sound.change h ht hp (s.recast_slots n p q) (fun g => ?_) fun g hg hs => ?_
  · rw [State.recast_held]
    exact filter_if_sublist _ _
  · by_cases hd : p.dropped q = true
    · refine .inl fun x hx => ?_
      rw [State.recast_held, if_pos ⟨hd, hg⟩] at hx
      exact mem_filter_slot_ne hx
    · refine .inr ⟨hhead.trans hg, ?_⟩
      have hstay : q.state = p.state := by
        rcases hq.state with hq | ⟨hp, hq⟩ | ⟨hp, hq⟩
        · exact hq
        · rcases hs with hs | hs <;> simp [Placement.dropped, hs, hq] at hd hp
        · rcases hs with hs | hs <;> simp [Placement.dropped, hs, hq] at hd hp
      rw [hstay]
      exact hs

theorem Event.Recasts.sound {e e' : Event} {n : SlotNo} {p q : Placement} {told : Notice → Prop}
    (h : e.Recasts e' n p q told) (hs : e.state.Sound) (hp : e.state.slots[n] = some p) (htag : q.tag = p.tag)
    (hhead : q.head = p.head) : e'.state.Sound := by
  rw [h.state]
  exact State.recast_sound hs hp h.turns htag hhead

/-! ### The operations -/

theorem Event.withdraw_sound {e : Event} (h : e.state.Sound) {n : SlotNo} {p : Placement}
    (hp : e.state.slots[n] = some p) (hs : p.state = .placed ∨ p.state = .claimed) (c : Cause) :
    (e.withdraw n c).state.Sound :=
  (Event.withdraw_recasts (told := fun _ => False) hp hs c fun _ => id).sound h hp rfl rfl

theorem Event.spoil_sound {e : Event} (h : e.state.Sound) {n : SlotNo} {p : Placement}
    (hp : e.state.slots[n] = some p) (hs : p.state = .cutting ∨ p.state = .cut) (c : Cause) :
    (e.spoil n c).state.Sound :=
  (Event.spoil_recasts (told := fun _ => False) hp hs c fun _ => id).sound h hp rfl rfl

theorem State.returnClaim_sound {s : State} (h : s.Sound) {n : SlotNo} {p : Placement} (hp : s.slots[n] = some p)
    (hs : p.state = .claimed) : (s.returnClaim n).Sound := by
  have hslots : (s.returnClaim n).slots = s.slots.set n (some { p with state := .placed, head := none }) := by
    rw [State.returnClaim_slots, hp]
  have hentries : (s.returnClaim n).entries  = s.entries := by
    unfold State.returnClaim
    rw [hp]
    dsimp only
    rw [State.unholdBy_rest]
    rfl
  have ht : (s.returnClaim n).Tallied := h.keep hp hslots hentries rfl (by rw [hs]; rfl)
  refine State.Sound.change h ht hp hslots (fun g => ?_) fun g hg _ => .inl fun x hx => ?_
  · rw [State.returnClaim_held s n p hp]
    exact filter_if_sublist _ _
  · rw [State.returnClaim_held s n p hp, if_pos hg] at hx
    exact mem_filter_slot_ne hx

theorem Event.miss_sound {e : Event} (h : e.state.Sound) {n : SlotNo} {p : Placement} (hp : e.state.slots[n] = some p)
    (hs : p.state = .placed) : (e.miss n p).state.Sound := by
  have ht : (e.miss n p).state.Tallied := by
    refine h.toTallied.change hp (q := { p with state := .missed, cause := some .leftReach, head := none }) (f := Entry.loseLive)
      rfl rfl rfl (fun _ => ⟨rfl, rfl, rfl⟩) fun x hx => ?_
    rw [hs] at hx ⊢
    simp only [PlacementState.live, Bool.toNat_true, Bool.toNat_false, Entry.loseLive] at hx ⊢
    omega
  refine State.Sound.change h ht hp rfl (fun g => List.Sublist.refl _) fun g _ hc => ?_
  rw [hs] at hc
  simp at hc

/-- A CUTTING record becomes CUT and its entry has the piece (R62, R63). -/
theorem Event.cutThrough_tallied {e : Event} (h : e.state.Tallied) {g : Head} {n : SlotNo} {p : Placement}
    (hp : e.state.slots[n] = some p) (hs : p.state = .cutting) : (e.cutThrough g n p).state.Tallied := by
  unfold Event.cutThrough
  dsimp only
  rw [Event.raiseIf_state, Event.raiseIf_state, Event.raise_state, Event.on_state]
  refine h.change hp (q := { p with state := .cut }) (f := Entry.countCut) rfl rfl rfl (fun _ => ⟨rfl, rfl, rfl⟩) fun x hx => ?_
  rw [hs] at hx ⊢
  simp only [PlacementState.live, Bool.toNat_true, Bool.toNat_false, Entry.countCut] at hx ⊢
  omega

/-! ### A pass over slots -/

/-- A pass over distinct slots whose records are of some kind, each step of which changes its own slot alone. -/
theorem Event.foldl_sound {α : Type} (slot : α → SlotNo) {Q : Placement → Prop} (f : Event → α → Event)
    (hf : ∀ (e : Event) (x : α) (p : Placement), e.state.slots[slot x] = some p → Q p → e.state.Sound →
      (f e x).state.Sound ∧ ∀ m, m ≠ slot x → (f e x).state.slots[m] = e.state.slots[m])
    (xs : List α) (hnd : (xs.map slot).Nodup) {e : Event} (he : e.state.Sound)
    (hx : ∀ x ∈ xs, ∃ p, e.state.slots[slot x] = some p ∧ Q p) : (xs.foldl f e).state.Sound := by
  induction xs generalizing e with
  | nil => exact he
  | cons x xs ih =>
    rw [List.map_cons, List.nodup_cons] at hnd
    obtain ⟨p, hp, hq⟩ := hx x List.mem_cons_self
    obtain ⟨hsound, hother⟩ := hf e x p hp hq he
    refine ih hnd.2 hsound fun y hy => ?_
    rw [hother (slot y) fun hyx => hnd.1 (hyx ▸ List.mem_map_of_mem hy)]
    exact hx y (List.mem_cons_of_mem _ hy)

/-- A pass each step of which keeps the accounts. -/
theorem Event.foldl_sound_all {α : Type} (f : Event → α → Event)
    (hf : ∀ (e : Event) (x : α), e.state.Sound → (f e x).state.Sound) (xs : List α) {e : Event} (he : e.state.Sound) :
    (xs.foldl f e).state.Sound := by
  induction xs generalizing e with
  | nil => exact he
  | cons x xs ih => exact ih (hf e x he)

theorem Event.spoil_slot_ne (e : Event) {n m : SlotNo} (c : Cause) (hm : m ≠ n) :
    (e.spoil n c).state.slots[m] = e.state.slots[m] := by
  rw [Event.spoil_slots]
  cases e.state.slots[n] with
  | none => rfl
  | some p => exact (get_set _ _ _ _).trans (if_neg hm)

theorem State.returnClaim_slot_ne (s : State) {n m : SlotNo} (hm : m ≠ n) :
    (s.returnClaim n).slots[m] = s.slots[m] := by
  rw [State.returnClaim_slots]
  cases s.slots[n] with
  | none => rfl
  | some p => exact (get_set _ _ _ _).trans (if_neg hm)

/-! ### Heads that leave work -/

/-- A record that a head holds. -/
def Placement.heldBy (h : Head) (p : Placement) : Prop := p.head = some h ∧ (p.state = .claimed ∨ p.state = .cutting)

theorem State.Sound.heldBy {s : State} (hs : s.Sound) (h : Head) :
    ∀ x ∈ (s.heads[h]).held, ∃ p, s.slots[x.slot] = some p ∧ p.heldBy h := hs.holds h

theorem Placement.heldBy.claimed {h : Head} {p : Placement} (hp : p.heldBy h) (hc : p.state ≠ .cutting) :
    p.state = .claimed := hp.2.resolve_right hc

theorem Event.giveUp_sound (h : Head) (b : Bool) (e : Event) (x : Held) (p : Placement)
    (hp : e.state.slots[x.slot] = some p) (hq : p.heldBy h) (hs : e.state.Sound) :
    (Event.giveUp h b e x).state.Sound ∧
      ∀ m, m ≠ x.slot → (Event.giveUp h b e x).state.slots[m] = e.state.slots[m] := by
  refine ⟨?_, fun m hm => by rw [Event.giveUp_slots, if_neg hm]⟩
  unfold Event.giveUp
  rw [hp]
  dsimp only
  split
  · rename_i hc
    split
    · exact Event.spoil_sound hs hp (.inl hc) _
    · exact Event.spoil_sound hs hp (.inl hc) _
  · rename_i hc
    split
    · exact State.returnClaim_sound hs hp (hq.claimed hc)
    · exact State.returnClaim_sound hs hp (hq.claimed hc)

theorem State.updHead_sound {s : State} (h : s.Sound) (g : Head) {f : HeadChannel → HeadChannel}
    (hf : (f s.heads[g]).held = (s.heads[g]).held) : (s.updHead g f).Sound :=
  h.congr rfl rfl (s.updHead_quiet g hf).held

theorem Event.takeOffline_sound {e : Event} (hs : e.state.Sound) (h : Head) (b : Bool) :
    (e.takeOffline h b).state.Sound :=
  State.updHead_sound (f := fun c => { c with state := .offline })
    (Event.foldl_sound Held.slot _ (Event.giveUp_sound h b) _ (hs.apart h) hs (hs.heldBy h)) h rfl

theorem Event.viewInterlock_sound {e : Event} (hs : e.state.Sound) (h : Head) : (e.viewInterlock h).state.Sound := by
  have hview : (e.on fun s => s.updHead h fun c => { c with interlock := e.state.interlockView h }).state.Sound :=
    State.updHead_sound (f := fun c => { c with interlock := e.state.interlockView h }) hs h rfl
  unfold Event.viewInterlock
  dsimp only
  split
  · exact Event.takeOffline_sound hview h true
  · exact hview

theorem Event.viewInterlocks_sound {e : Event} (hs : e.state.Sound) : e.viewInterlocks.state.Sound :=
  Event.viewInterlock_sound (Event.viewInterlock_sound hs 0) 1

theorem State.heldRecords_slots (s : State) (h : Head) :
    ((s.heldRecords h).map fun x => x.1.slot).Sublist ((s.heads[h]).held.map Held.slot) := by
  unfold State.heldRecords
  induction (s.heads[h]).held with
  | nil => exact List.Sublist.refl _
  | cons x xs ih =>
    rw [List.filterMap_cons, List.map_cons]
    cases s.slots[x.slot] with
    | none => exact ih.cons _
    | some p => exact ih.cons_cons _

theorem State.claimedSlots_sublist (s : State) (h : Head) :
    (s.claimedSlots h).Sublist ((s.heads[h]).held.map Held.slot) :=
  (List.filter_sublist.map _).trans (s.heldRecords_slots h)

theorem State.mem_claimedSlots {s : State} {h : Head} {n : SlotNo} (hn : n ∈ s.claimedSlots h) :
    ∃ p, s.slots[n] = some p ∧ p.state = .claimed := by
  obtain ⟨r, hr, rfl⟩ := List.mem_map.mp hn
  obtain ⟨hr, hc⟩ := List.mem_filter.mp hr
  exact ⟨r.2, (State.mem_heldRecords.mp hr).2, of_decide_eq_true hc⟩

theorem Event.faultHead_sound {e : Event} (hs : e.state.Sound) (h : Head) : (e.faultHead h).state.Sound := by
  have hnd : ((e.state.claimedSlots h).map id).Nodup := by
    rw [List.map_id]
    exact (hs.apart h).sublist (e.state.claimedSlots_sublist h)
  have hfold := Event.foldl_sound (Q := fun p => p.state = .claimed) id (fun (e : Event) n => e.on fun s => s.returnClaim n)
    (fun e _ _ hp hq he => ⟨State.returnClaim_sound he hp hq, fun _ hm => e.state.returnClaim_slot_ne hm⟩)
    (e.state.claimedSlots h) hnd hs fun _ hn => State.mem_claimedSlots hn
  exact State.updHead_sound (f := fun c => { c with state := .fault }) hfold h rfl

/-! ### Travel -/

theorem Event.loseReach_sound (k : Ctx) (h : Head) (e : Event) (x : Held) (p : Placement)
    (hp : e.state.slots[x.slot] = some p) (hq : p.heldBy h) (hs : e.state.Sound) :
    (Event.loseReach k h e x).state.Sound ∧
      ∀ m, m ≠ x.slot → (Event.loseReach k h e x).state.slots[m] = e.state.slots[m] := by
  unfold Event.loseReach
  rw [hp]
  dsimp only
  split
  · exact ⟨hs, fun _ _ => rfl⟩
  · split
    · rename_i hc
      split
      · exact ⟨hs, fun _ _ => rfl⟩
      · exact ⟨Event.spoil_sound hs hp (.inl hc) _, fun m hm => e.spoil_slot_ne _ hm⟩
    · rename_i hc
      split
      · exact ⟨hs, fun _ _ => rfl⟩
      · exact ⟨State.returnClaim_sound hs hp (hq.claimed hc), fun m hm => e.state.returnClaim_slot_ne hm⟩

theorem Event.reachLoss_sound {e : Event} (hs : e.state.Sound) (k : Ctx) : (e.reachLoss k).state.Sound := by
  have hfirst := Event.foldl_sound Held.slot _ (Event.loseReach_sound k 0) _ (hs.apart 0) hs (hs.heldBy 0)
  exact Event.foldl_sound Held.slot _ (Event.loseReach_sound k 1) _ (hfirst.apart 1) hfirst (hfirst.heldBy 1)

/-- A piece of a short pair is held, by its head and with its record. -/
theorem State.shortPieces_record {s : State} {k : Ctx} {x : HeldPiece} (hx : x ∈ s.shortPieces k) :
    x.held ∈ (s.heads[x.head]).held ∧ s.slots[x.held.slot] = some x.record := by
  have piece : ∀ h : Head, x ∈ s.heldPieces h →
      x.held ∈ (s.heads[x.head]).held ∧ s.slots[x.held.slot] = some x.record := by
    intro h hm
    obtain ⟨r, hr, rfl⟩ := List.mem_map.mp hm
    exact State.mem_heldRecords.mp hr
  rcases List.mem_append.mp hx with hx | hx
  · exact piece 0 (List.mem_filter.mp hx).1
  · exact piece 1 (List.mem_filter.mp hx).1

theorem Event.takeShort_sound {e : Event} (hs : e.state.Sound) {k : Ctx} {x : HeldPiece}
    (hx : x ∈ e.state.shortPieces k) : (e.takeShort x).state.Sound := by
  obtain ⟨hheld, hp⟩ := State.shortPieces_record hx
  obtain ⟨r, hr, hrh⟩ := hs.heldBy x.head x.held hheld
  obtain rfl := Option.some.inj (hp.symm.trans hr)
  unfold Event.takeShort
  split
  · rename_i hc
    exact Event.spoil_sound hs hp (.inl hc) _
  · rename_i hc
    exact State.returnClaim_sound hs hp (hrh.claimed hc)

theorem Event.separationLoss_sound (k : Ctx) (n : Nat) {e : Event} (hs : e.state.Sound) :
    (Event.separationLoss k n e).state.Sound := by
  induction n generalizing e with
  | zero => exact hs
  | succ n ih =>
    unfold Event.separationLoss
    split
    · exact hs
    · rename_i x hx
      exact ih (Event.takeShort_sound hs (pickShort_mem hx))

theorem Event.testMissed_sound (k : Ctx) (e : Event) (n : SlotNo) (hs : e.state.Sound) :
    (Event.testMissed k e n).state.Sound := by
  unfold Event.testMissed
  split
  · exact hs
  · rename_i p hp
    split
    · rename_i hc
      simp only [Bool.and_eq_true, decide_eq_true_eq] at hc
      exact Event.miss_sound hs hp hc.1.2
    · exact hs

theorem State.drainCtx_sound {s : State} (hs : s.Sound) (k : Ctx) (c : DrainCause) : (s.drainCtx k c).Sound := by
  unfold State.drainCtx
  dsimp only
  split <;> exact hs.congr rfl rfl fun _ => rfl

theorem Event.exhaust_sound {e : Event} (hs : e.state.Sound) (k : Ctx) : (e.exhaust k).state.Sound := by
  unfold Event.exhaust
  split
  · exact State.drainCtx_sound hs k _
  · exact hs

theorem Event.travelChange_sound {e : Event} (hs : e.state.Sound) (k : Ctx) : (e.travelChange k).state.Sound :=
  Event.foldl_sound_all _ (Event.testMissed_sound k) _
    (Event.separationLoss_sound k 4 (Event.reachLoss_sound (Event.exhaust_sound hs k) k))

/-! ### Lines -/

theorem Event.hideEdge_sound {e : Event} (hs : e.state.Sound) : e.hideEdge.state.Sound := by
  unfold Event.hideEdge
  split
  · exact hs
  · rename_i k _
    have hreg : (e.state.register k).Sound := hs.congr rfl rfl fun _ => rfl
    exact Event.travelChange_sound (e := Event.mk _ _) hreg k

theorem Event.deliver_sound {e : Event} (hs : e.state.Sound) (f : InputFunction) (v : Bool) :
    (e.deliver f v).state.Sound := by
  unfold Event.deliver
  split
  · exact hs
  · split
    · exact Event.hideEdge_sound hs
    · exact hs
  · split
    · exact hs.congr rfl rfl fun _ => rfl
    · exact hs
  · exact Event.viewInterlocks_sound hs

/-! ### Checks and aborts -/

theorem Placement.failed_fixed (origin : Cause) (p : Placement) :
    (p.failed origin).tag = p.tag ∧ (p.failed origin).head = p.head := by
  unfold Placement.failed
  split <;> exact ⟨rfl, rfl⟩

theorem Event.checkSlot_sound (q : Plane) (ds : List Downgrade) (c : Cause) (e : Event) (n : SlotNo)
    (hs : e.state.Sound) : (Event.checkSlot q ds c e n).state.Sound := by
  unfold Event.checkSlot
  split
  · exact hs
  · rename_i p hp
    split
    · exact hs
    · obtain ⟨htag, hhead⟩ := Placement.failed_fixed c p
      exact (Event.failCheck_recasts hp c).sound hs hp htag hhead

theorem Event.downgrade_sound {e : Event} (hs : e.state.Sound) (q : Plane) (ds : List Downgrade) (c : Cause) :
    (e.downgrade q ds c).state.Sound := Event.foldl_sound_all _ (Event.checkSlot_sound q ds c) _ hs

theorem abortChange_fixed (k : Ctx) (n : SlotNo) (p : Placement) :
    (abortChange k n p).tag = p.tag ∧ (abortChange k n p).head = p.head := by
  unfold abortChange
  split
  · unfold Placement.aborted
    split <;> exact ⟨rfl, rfl⟩
  · exact ⟨rfl, rfl⟩

theorem Event.abortSlot_sound (k : Ctx) (e : Event) (n : SlotNo) (hs : e.state.Sound) :
    (Event.abortSlot k e n).state.Sound := by
  cases hp : e.state.slots[n] with
  | none =>
    unfold Event.abortSlot
    rw [hp]
    exact hs
  | some p =>
    obtain ⟨htag, hhead⟩ := abortChange_fixed k n p
    exact (Event.abortSlot_recasts k hp).sound hs hp htag hhead

/-- A slot that names an entry and is not yet under a knife. -/
theorem State.mem_uncutSlots {s : State} {u : Tag} {n : SlotNo} : n ∈ s.uncutSlots u ↔
    ∃ p, s.slots[n] = some p ∧ p.tag = u ∧ (p.state = .placed ∨ p.state = .claimed) := by
  unfold State.uncutSlots
  simp only [List.mem_map, List.mem_filter, Prod.exists, State.mem_records, Bool.and_eq_true, Bool.or_eq_true,
    decide_eq_true_eq]
  constructor
  · rintro ⟨m, p, ⟨hp, ht, hs⟩, rfl⟩
    exact ⟨p, hp, ht, hs⟩
  · rintro ⟨p, hp, ht, hs⟩
    exact ⟨n, p, ⟨hp, ht, hs⟩, rfl⟩

end Sys2Proof.Machine
end

section
/-!
PROOFS. The second law over every event, tail and move.
-/

namespace Sys2Proof.Machine

open Sys2Proof

/-! ### Cancelling an entry -/

/-- The uncut slots of an entry are those of all the slots, in ascending order, that are so. -/
theorem State.uncutSlots_eq (s : State) (u : Tag) : s.uncutSlots u = (List.finRange 256).filter fun n =>
    (s.slots[n]).any fun r => decide (r.tag = u) && decide (r.state = .placed ∨ r.state = .claimed) := by
  unfold State.uncutSlots State.records
  rw [indexed_eq, List.filterMap_map, List.filter_filterMap, List.map_filterMap, ← List.filterMap_eq_filter]
  congr 1
  funext n
  have key : ∀ o : Option Placement, ((o.map fun r => (n, r)).filter fun r =>
      decide (r.2.tag = u) && (decide (r.2.state = .placed) || decide (r.2.state = .claimed))).map (fun r => r.1) =
      if (o.any fun r => decide (r.tag = u) && decide (r.state = .placed ∨ r.state = .claimed)) = true then some n
      else none := by
    intro o
    cases o with
    | none => rfl
    | some r => by_cases hr : r.tag = u ∧ (r.state = .placed ∨ r.state = .claimed) <;> simp [Option.filter, hr]
  exact key s.slots[n]

theorem State.uncutSlots_nodup (s : State) (u : Tag) : (s.uncutSlots u).Nodup := by
  rw [State.uncutSlots_eq]
  exact (List.nodup_finRange 256).filter _

theorem Event.withdraw_slot_ne (e : Event) {n m : SlotNo} (c : Cause) (hm : m ≠ n) :
    (e.withdraw n c).state.slots[m] = e.state.slots[m] := by
  unfold Event.withdraw
  split
  · rfl
  · dsimp only
    split <;> exact (get_set _ _ _ _).trans (if_neg hm)

/-- A withdrawal of distinct slots that are PLACED or CLAIMED. -/
theorem Event.withdrawAll_sound {e : Event} (hs : e.state.Sound) (ns : List SlotNo) (hnd : ns.Nodup) (c : Cause)
    (hns : ∀ n ∈ ns, ∃ p, e.state.slots[n] = some p ∧ (p.state = .placed ∨ p.state = .claimed)) :
    (e.withdrawAll ns c).state.Sound :=
  Event.foldl_sound id (fun e n => e.withdraw n c)
    (fun e _ _ hp hq he => ⟨Event.withdraw_sound he hp hq c, fun _ hm => e.withdraw_slot_ne c hm⟩)
    ns ((List.map_id ns).symm ▸ hnd) hs hns

theorem State.cancelling_tallied {s : State} (hs : s.Sound) (u : Tag) : (s.cancelling u).state.Tallied := by
  have hadv : s.advanceScan.Sound := hs.congr s.advanceScan_slots s.advanceScan_entries fun h => by
    rw [s.advanceScan_heads]
  have hcancelled : (s.advanceScan.updEntry u fun x => { x with state := .cancelled }).Sound :=
    { toTallied := hadv.toTallied.updEntry u fun _ => ⟨rfl, rfl, rfl, rfl, rfl⟩
      apart := hadv.apart
      holds := hadv.holds }
  have hwithdrawn := Event.withdrawAll_sound (e := State.begin _) hcancelled (s.advanceScan.uncutSlots u)
    (s.advanceScan.uncutSlots_nodup u) .cancelled fun n hn => by
      obtain ⟨p, hp, _, hps⟩ := State.mem_uncutSlots.mp hn
      exact ⟨p, hp, hps⟩
  unfold State.cancelling
  dsimp only
  rw [Event.on_state]
  split
  · exact State.Tallied.removeIfDone (s := State.abandonSearch _) (hwithdrawn.toTallied.congr rfl rfl) u
  · exact hwithdrawn.toTallied.removeIfDone u

/-! ### What the accounts need of the other laws -/

/-- The accounts, the withdrawn list, and that a CLOSED context's records are not live. -/
structure State.Booked (s : State) : Prop extends State.Sound s where
  listed : s.withdrawnListed
  closed : ∀ k : Ctx, (s.ctxs[k]).state = .closed →
    ∀ (n : SlotNo) (p : Placement), s.slots[n] = some p → p.ctx = k → p.state.live = false

theorem State.lawClosed.ended {s : State} (h : s.lawClosed) {k : Ctx} (hk : (s.ctxs[k]).state = .closed) {n : SlotNo}
    {p : Placement} (hp : s.slots[n] = some p) (hpk : p.ctx = k) : p.state.live = false := by
  have hcount : countSlots s.slots (fun r => decide (r.ctx = k) && r.state.live) = 0 :=
    (s.countP_records fun r => decide (r.ctx = k) && r.state.live).symm.trans (h k hk).1
  simpa [hpk] using countSlots_eq_zero hcount hp

theorem State.booked_of {s : State} (hc : s.countsWf) (hh : s.heldWf) (hl : s.lawClosed) : s.Booked where
  toSound := hh.sound (s.tallied_iff.mpr hc)
  listed := hh.2.2
  closed _ hk _ _ hp hpk := hl.ended hk hp hpk

theorem State.Quiet.booked {s t : State} (h : s.Quiet t) (hs : s.Booked) : t.Booked where
  toSound := hs.toSound.congr h.slots h.entries h.held
  listed := by
    unfold State.withdrawnListed
    rw [h.withdrawn, h.slots]
    exact hs.listed
  closed := by
    rw [h.ctxs, h.slots]
    exact hs.closed

/-! ### Events -/

theorem Event.startPair_tallied {e : Event} (h : e.state.Tallied) (q : Pair) (n : Nat) :
    (e.startPair q n).state.Tallied := by
  unfold Event.startPair
  split
  · exact h.congr rfl rfl
  · exact h.congr rfl rfl

theorem Event.finish_tallied {e : Event} (h : e.state.Tallied) (hl : e.state.withdrawnListed) (q : Search)
    (o : Option Best) : (e.finish q o).state.Tallied := by
  unfold Event.finish
  split
  · exact h.congr rfl rfl
  · split
    · rename_i hv
      split
      · rename_i n hn
        exact Event.commit_tallied h hv (State.allocate_free hl hn)
      · exact h.congr rfl rfl
    · unfold Event.failVerify
      split
      · exact Event.startPair_tallied h _ _
      · exact h.congr rfl rfl

theorem State.HideEvent.tallied {s : State} {e : Event} (h : s.HideEvent e) (hs : s.Booked) : e.state.Tallied := by
  have hheads : ∀ g : Head, (s.advanceScan.heads[g]).held = (s.heads[g]).held := fun g => by rw [s.advanceScan_heads]
  cases h with
  | grade k y runs hk =>
    have hrow : (s.rowWritten k y runs).Sound := hs.toSound.congr s.advanceScan_slots s.advanceScan_entries hheads
    have hchecked := fun q ds => Event.downgrade_sound (e := (s.rowWritten k y runs).begin) hrow q ds .gradeChange
    unfold State.grading
    dsimp only
    split
    · exact (hchecked _ _).toTallied.congr rfl rfl
    · exact (hchecked _ _).toTallied
  | addFlaw => exact hs.toTallied.congr rfl rfl
  | applyFlaw k n f c hj hf hc =>
    have hflaw : (s.flawWritten k n f c).Sound := hs.toSound.congr s.advanceScan_slots s.advanceScan_entries hheads
    exact (Event.downgrade_sound (e := (s.flawWritten k n f c).begin.raise .flawApplied) hflaw _ _ .lateFlaw).toTallied
  | dropFlaw => exact hs.toTallied.congr rfl rfl
  | queueWithdraw => exact hs.toTallied.congr rfl rfl
  | unapplyFlaw k n f c hj hf hc => exact hs.toTallied.congr s.advanceScan_slots s.advanceScan_entries
  | openHide => exact hs.toTallied.congr rfl rfl
  | raiseFrontier => exact hs.toTallied.congr rfl rfl
  | abort k hk =>
    have hrest := s.abortStart_rest k
    have hstart : (s.abortStart k).Sound := hs.toSound.congr (by rw [hrest]) (by rw [hrest]) fun h => by rw [hrest]
    have hpieces : (s.abortPieces k).state.Sound := Event.foldl_sound_all _ (Event.abortSlot_sound k) _ hstart
    rw [State.aborting_eq]
    exact hpieces.toTallied.congr rfl rfl
  | release k hk =>
    have hfreed : (s.begin.freeAll (s.slotsOf k)).state.Tallied := Event.freeAll_tallied hs.toTallied _ fun n hn p hp => by
      obtain ⟨q, hq, hqk⟩ := State.mem_slotsOf.mp hn
      exact hs.closed k hk n p hp (by rw [Option.some.inj (hp.symm.trans hq)]; exact hqk)
    rw [State.releasing_state]
    exact hfreed.congr rfl rfl

theorem State.PieceEvent.tallied {s : State} {e : Event} (h : s.PieceEvent e) (hs : s.Booked) : e.state.Tallied := by
  have hsound := hs.toSound
  cases h with
  | nothing _ he => exact he ▸ hs.toTallied
  | post t n hand requested rush hready hfree => exact hs.toTallied.enterDemand hfree rfl rfl rfl
  | cancel t x hx => exact State.cancelling_tallied hsound t
  | complete q hq => exact Event.finish_tallied (e := s.begin) hs.toTallied hs.listed q _
  | withdraw n c p hp hst =>
    have hadv : s.advanceScan.Sound := hsound.congr s.advanceScan_slots s.advanceScan_entries fun h => by
      rw [s.advanceScan_heads]
    have hslot : s.advanceScan.slots[n] = some p := by rw [s.advanceScan_slots]; exact hp
    exact (Event.withdraw_sound (e := s.advanceScan.begin) hadv hslot hst c).toTallied
  | drain k hk => exact (State.drainCtx_sound hsound k .request).toTallied
  | leaveWork h b => exact (Event.takeOffline_sound (e := s.begin) hsound h b).toTallied
  | grant h n p hp hst =>
    exact hs.toTallied.keep (q := { p with state := .claimed, head := some h }) hp rfl rfl rfl (by rw [hst]; rfl)
  | startCut h x p hx hp =>
    obtain ⟨q, hq, hqh⟩ := hsound.heldBy h x hx
    obtain rfl := Option.some.inj (hp.symm.trans hq)
    exact hs.toTallied.keep (q := { p with state := .cutting }) hp rfl rfl rfl
      (by rcases hqh.2 with hst | hst <;> simp [hst, PlacementState.live])
  | cutThrough h x p hx hp hst => exact Event.cutThrough_tallied (e := s.begin) hs.toTallied hp hst
  | spoil h x p hx hp hst c => exact (Event.spoil_sound (e := s.begin) hsound hp (.inl hst) c).toTallied
  | fault h x p hx hp hst c =>
    exact (Event.faultHead_sound (Event.spoil_sound (e := s.begin) hsound hp (.inl hst) c) h).toTallied
  | giveBack h x p hx hp hst =>
    obtain ⟨q, hq, hqh⟩ := hsound.heldBy h x hx
    obtain rfl := Option.some.inj (hp.symm.trans hq)
    exact (State.returnClaim_sound hsound hp (hqh.claimed hst)).toTallied
  | loseClaim h n p hp hst => exact (State.returnClaim_sound hsound hp hst).toTallied
  | deliver f v => exact (Event.deliver_sound (e := s.begin) hsound f v).toTallied

/-! ### Moves -/

theorem settle_sound (before : State) {e : Event} (h : e.state.Sound) : (settle before e).Sound :=
  h.congr (settle_slots ..) (settle_entries ..) fun g => settle_held before e g

theorem State.turn_sound {s : State} (h : s.Sound) (t : Transition) (a b : Bool) : (s.turn t a b).Sound :=
  s.turn_keeps (P := State.Sound) t a b (h.congr rfl rfl fun _ => rfl) fun u before k hu =>
    settle_sound before (Event.travelChange_sound (e := u.begin) hu k)

theorem State.Move.tallied {s t : State} (h : s.Move t) (hs : s.Booked) : t.Tallied := by
  have hload : s.endAnyLoad.Tallied := hs.toTallied.congr (by rw [s.endAnyLoad_rest]) (by rw [s.endAnyLoad_rest])
  cases h with
  | stay => exact hs.toTallied
  | powerUp => exact State.tallied_of_reset rfl rfl
  | partReset => exact State.tallied_of_reset rfl rfl
  | mapTest => exact hs.toTallied.congr rfl rfl
  | endMapTest n hc =>
    exact hs.toTallied.congr (by rw [s.endMapTest_rest]; rfl) (by rw [s.endMapTest_rest]; rfl)
  | endAnyLoad => exact hload
  | beginLoad => exact hload.congr rfl rfl
  | libraryRows => exact hs.toTallied.congr rfl rfl
  | endLoad => exact hs.toTallied.congr rfl rfl
  | dropPattern => exact hs.toTallied.congr rfl rfl
  | turn tr a b => exact (State.turn_sound hs.toSound tr a b).toTallied
  | event before e he =>
    exact (he.elim (·.tallied hs) (·.tallied hs)).congr (settle_slots ..) (settle_entries ..)

/-- Settles O56, over the moves a step can make. -/
theorem stepKeepsCountsLaw : Obligations.StepKeepsCountsLaw := by
  intro s t hh hl hc hstep
  obtain ⟨u, v, hsu, huv, hvt⟩ := step_comes hstep
  have hv := huv.tallied (hsu.booked (State.booked_of hc hh hl))
  exact t.tallied_iff.mp (hv.congr hvt.slots hvt.entries)

end Sys2Proof.Machine
end

section
/-!
PROOFS. DEMAND POST (R58 to R61), check by check.
-/

namespace Sys2Proof.Machine

open Sys2Proof

/-! ### What a post declares -/

theorem hand?_code (hand : Hand) : hand? hand.code = some hand := by cases hand <;> rfl

theorem hand?_none {b : Nat} (h : 2 < b) : hand? b = none := by
  unfold hand?
  split
  · omega
  · omega
  · omega
  · rfl

theorem Hand.code_le (hand : Hand) : hand.code ≤ 2 := by cases hand <;> decide

/-- The tag a new entry gets is the lowest free one (R57). -/
theorem State.freeTag?_lowest {s : State} {u : Tag} (hu : s.entry? u = none) (hlow : ∀ v : Tag, v < u → s.entry? v ≠ none) :
    s.freeTag? = some u :=
  find?_finRange (Option.isNone_iff_eq_none.mpr hu) fun v hv =>
    Bool.eq_false_iff.mpr fun h => hlow v hv (Option.isNone_iff_eq_none.mp h)

/-! ### The queue -/

/-- A new entry stands behind the rush entries at the front if it is one, and else at the back (R58, R61). -/
theorem enqueue_split (es : List Entry) (e : Entry) : ∃ before after,
    enqueue es e = before ++ [e] ++ after ∧ es = before ++ after ∧ entryPlace es e.rush = before.length ∧
    (e.rush = false → after = []) ∧
    (e.rush = true → (∀ x ∈ before, x.rush = true) ∧ ∀ x ∈ after.head?, x.rush = false) := by
  unfold enqueue entryPlace
  cases e.rush with
  | false => exact ⟨es, [], by simp, by simp, rfl, fun _ => rfl, nofun⟩
  | true =>
    refine ⟨es.takeWhile fun x => x.rush, es.dropWhile fun x => x.rush, by simp, List.takeWhile_append_dropWhile.symm,
      rfl, nofun, fun _ => ⟨fun x hx => List.mem_takeWhile_imp hx, fun x hx => ?_⟩⟩
    have hhead := List.head?_dropWhile_not (fun x : Entry => x.rush) es
    rw [Option.mem_def.mp hx] at hhead
    simpa using hhead

/-! ### The owner -/

section
variable {pl : List Byte} {s : State}

theorem demandPostOwner_range (h : 127 < u8 pl 0 ∨ 2 < u8 pl 1 ∨ u8 pl 2 = 0 ∨ 1 < u8 pl 3) :
    demandPostOwner 0 pl s = (s, .refuse .range) := by
  unfold demandPostOwner
  rcases h with h | h | h
  · rw [index?_none h]
  · rw [hand?_none h]
    cases index? 128 (u8 pl 0) <;> rfl
  · split
    · rw [if_pos h]
    · rfl

variable {n : PatNo} {hand : Hand} (hn : u8 pl 0 = n.val) (hh : u8 pl 1 = hand.code) (hc : 1 ≤ u8 pl 2) (hr : u8 pl 3 ≤ 1)

include hn hh hc hr

theorem demandPostOwner_unknown (h : (s.patterns[n]).state ≠ .ready) :
    demandPostOwner 0 pl s = (s, .refuse .notFound) := by
  unfold demandPostOwner
  rw [index?_of_eq n hn, hh, hand?_code]
  dsimp only
  rw [if_neg (by omega), if_pos h]

theorem demandPostOwner_unfit (h : (s.patterns[n]).state = .ready) (ho : (s.patterns[n]).orients &&& hand.orients = 0) :
    demandPostOwner 0 pl s = (s, .refuse .range) := by
  unfold demandPostOwner
  rw [index?_of_eq n hn, hh, hand?_code]
  dsimp only
  rw [if_neg (by omega), if_neg (not_not.mpr h), if_pos ho]

variable (h : (s.patterns[n]).state = .ready) (ho : (s.patterns[n]).orients &&& hand.orients ≠ 0)

include h ho

theorem demandPostOwner_full (hfull : 64 ≤ s.entries.length) : demandPostOwner 0 pl s = (s, .refuse .full) := by
  unfold demandPostOwner
  rw [index?_of_eq n hn, hh, hand?_code]
  dsimp only
  rw [if_neg (by omega), if_neg (not_not.mpr h), if_neg ho, if_pos hfull]

theorem demandPostOwner_accepts {u : Tag} (hroom : s.entries.length < 64) (hu : s.freeTag? = some u) :
    demandPostOwner 0 pl s = (s.post (s.newEntry u n hand (u8 pl 2) (u8 pl 3 = 1)),
      .accept (enc1 u.val ++ enc2 s.postCounter.toNat ++ enc1 (entryPlace s.entries (decide (u8 pl 3 = 1))) ++
        enc1 (s.entries.length + 1))) := by
  unfold demandPostOwner
  rw [index?_of_eq n hn, hh, hand?_code, hu]
  dsimp only
  rw [if_neg (by omega), if_neg (not_not.mpr h), if_neg ho, if_neg (Nat.not_le.mpr hroom)]
  rfl

end

/-! ### The state after a post -/

section
variable (s : State) (e : Entry)

theorem State.post_tail : State.Tail (s.enterDemand e) (s.post e) :=
  settle_tail s (s.enterDemand e).begin

/-- The pattern gains a reference (R47, R61). -/
theorem State.post_pattern {n : PatNo} (hn : e.pattern = n) (m : PatNo) : (s.post e).patterns[m] =
    if m = n then { s.patterns[n] with refs := (s.patterns[n]).refs + 1 } else s.patterns[m] := by
  subst hn
  rw [(s.post_tail e).patterns]
  exact get_set _ _ _ _

end

theorem exec_demandPost_refuses {s : State} {pl : List Byte} {c : Code} (ht : s.takes 0) (hl : pl.length = 4)
    (ho : demandPostOwner 0 pl (s.hunt 0) = (s.hunt 0, .refuse c)) :
    exec (.demandPost 0 pl) s = .next (s.refused .demandPost 0 c) :=
  request_refuses .demandPost demandPostOwner 0 pl s c ht rfl (decide_eq_true hl) ho

/-- Settles O23, check by check, and by where the queue splits. -/
theorem demandPostEnters : Obligations.DemandPostEnters := by
  refine ⟨fun pl s ht hl => ⟨fun h => ?_, fun n hand hn hh hc hr => ⟨fun h => ?_, fun h => ⟨fun ho => ?_, fun ho hf => ?_⟩⟩⟩,
    fun pl s n hand u ht hl hn hh hc hr h ho hroom hu hlow => ?_⟩
  · exact exec_demandPost_refuses ht hl (demandPostOwner_range h)
  · exact exec_demandPost_refuses ht hl (demandPostOwner_unknown hn hh hc hr h)
  · exact exec_demandPost_refuses ht hl (demandPostOwner_unfit hn hh hc hr h ho)
  · exact exec_demandPost_refuses ht hl (demandPostOwner_full hn hh hc hr h ho hf)
  · have htag : (s.hunt 0).freeTag? = some u := State.freeTag?_lowest (s := s.hunt 0) hu hlow
    have hexec : exec (.demandPost 0 pl) s = _ := request_accepts .demandPost demandPostOwner 0 pl s _ _ ht rfl
      (decide_eq_true hl) (demandPostOwner_accepts (s := s.hunt 0) hn hh hc hr h ho hroom htag)
    generalize he : (s.hunt 0).newEntry u n hand (u8 pl 2) (decide (u8 pl 3 = 1)) = e at hexec
    have hpattern : e.pattern = n := by rw [← he]; rfl
    have hrush : e.rush = decide (u8 pl 3 = 1) := by rw [← he]; rfl
    have htail := (s.hunt 0).post_tail e
    obtain ⟨before, after, hqueue, hsplit, hplace, hback, hfront⟩ := enqueue_split s.entries e
    have hplace' : entryPlace (s.hunt 0).entries (decide (u8 pl 3 = 1)) = before.length := by
      rw [← hrush]
      exact hplace
    rw [hplace'] at hexec
    refine ⟨_, e, before, after, hexec, he.symm, htail.entries.trans hqueue, hsplit, fun h0 => hback ?_, fun h1 => hfront ?_,
      htail.postCounter, ?_, fun m hm => ?_, State.repliedFrom_owe _ _ _ _ _ htail.ports,
      htail.sameSettings, htail.steady, htail.sameHeads, htail.planes, htail.slots, htail.withdrawn, ?_⟩
    · rw [hrush, h0]
      rfl
    · rw [hrush, h1]
      rfl
    · exact ((s.hunt 0).post_pattern e hpattern n).trans (if_pos rfl)
    · exact ((s.hunt 0).post_pattern e hpattern m).trans (if_neg hm)
    · exact htail.marks

end Sys2Proof.Machine
end

section
/-!
PROOFS. DEMAND CANCEL (R65 to R67, R92 to R94, R104): the pass over the uncut slots of an entry, the entry's own end and
what becomes of a search for it.
-/

namespace Sys2Proof.Machine

open Sys2Proof

/-! ### Slots withdrawn one after another -/

/-- What a withdrawal makes of a record (R104). -/
def withdrawChange (c : Cause) : Change := fun _ p => { p with state := .withdrawn, cause := some c }

/-- No flag but those of the changes themselves. -/
def tellsNobody (_ : SlotNo) (_ : Placement) (_ : Notice) : Prop := False

/-- Distinct PLACED or CLAIMED slots withdrawn one after another. -/
theorem Event.withdrawAll_recast {e : Event} (c : Cause) (ns : List SlotNo) {e' : Event} {done : List SlotNo}
    (h : e.Recast (withdrawChange c) tellsNobody e' done) (hnd : (done ++ ns).Nodup)
    (hns : ∀ n ∈ ns, ∃ p, e.state.slots[n] = some p ∧ (p.state = .placed ∨ p.state = .claimed)) :
    e.Recast (withdrawChange c) tellsNobody (e'.withdrawAll ns c) (done ++ ns) := by
  induction ns generalizing e' done with
  | nil => exact (List.append_nil done).symm ▸ h
  | cons n ns ih =>
    have hn : n ∉ done := fun hm => (List.nodup_append.mp hnd).2.2 n hm n List.mem_cons_self rfl
    have hslot : e'.state.slots[n] = e.state.slots[n] := by rw [h.slots, if_neg hn]
    obtain ⟨p, hp, hs⟩ := hns n List.mem_cons_self
    have hstep := h.step (e'' := e'.withdraw n c) hn (fun hnone => by rw [hslot, hp] at hnone; cases hnone) fun q hq => by
      rw [hslot, hp] at hq
      rw [← Option.some.inj hq]
      exact Event.withdraw_recasts (hslot.trans hp) hs c fun _ => id
    rw [List.append_cons] at hnd ⊢
    exact ih hstep hnd fun m hm => hns m (List.mem_cons_of_mem _ hm)

/-- An entry without some live pieces. -/
def Entry.loseLives (n : Nat) (x : Entry) : Entry := { x with live := x.live - n }

/-- Withdrawals of one entry's slots take as many from its live count (R62). -/
theorem Event.withdrawAll_entries (c : Cause) {u : Tag} (ns : List SlotNo) {e : Event} (hnd : ns.Nodup)
    (hns : ∀ n ∈ ns, ∃ p, e.state.slots[n] = some p ∧ p.tag = u ∧ (p.state = .placed ∨ p.state = .claimed)) :
    (e.withdrawAll ns c).state.entries =
      e.state.entries.map fun x => if x.tag = u then x.loseLives ns.length else x := by
  induction ns generalizing e with
  | nil =>
    refine (List.map_id _).symm.trans (List.map_congr_left fun x _ => ?_)
    split <;> rfl
  | cons n ns ih =>
    obtain ⟨p, hp, ht, hs⟩ := hns n List.mem_cons_self
    have hfirst : (e.withdraw n c).state.entries = e.state.entries.map fun x => if x.tag = u then x.loseLive else x := by
      rw [(Event.withdraw_recasts (told := fun _ => False) hp hs c fun _ => id).state, State.recast_entries, ht]
      rcases hs with hs | hs <;> rw [hs] <;> rfl
    rw [List.nodup_cons] at hnd
    refine (ih (e := e.withdraw n c) hnd.2 fun m hm => ?_).trans ?_
    · rw [Event.withdraw_slot_ne e c fun hmn : m = n => hnd.1 (hmn ▸ hm)]
      exact hns m (List.mem_cons_of_mem _ hm)
    · rw [hfirst, List.map_map]
      refine List.map_congr_left fun x _ => ?_
      by_cases hx : x.tag = u
      · simp only [Function.comp, if_pos hx]
        rw [if_pos (show x.loseLive.tag = u from hx)]
        simp only [Entry.loseLives, Entry.loseLive, List.length_cons, Entry.mk.injEq, and_true, true_and]
        omega
      · simp only [Function.comp, if_neg hx]

/-! ### The Search Unit and an entry (R94) -/

/-- The unit is not at work for an entry. -/
def SearchState.apartFrom (u : SearchState) (t : Tag) : Prop :=
  (∀ q, u = .searching q → q.pair.tag ≠ t) ∧ ∀ q, u = .stalled q → q.tag ≠ t

theorem SearchState.idle_apartFrom (t : Tag) : SearchState.apartFrom .idle t :=
  ⟨fun _ h => (by cases h), fun _ h => (by cases h)⟩

theorem Event.startPair_apartFrom (e : Event) {q : Pair} (n : Nat) {t : Tag} (h : q.tag ≠ t) :
    (e.startPair q n).state.searchUnit.apartFrom t := by
  unfold Event.startPair
  split
  · exact SearchState.idle_apartFrom t
  · rename_i x hx
    refine ⟨fun r hr => ?_, fun _ hr => (by cases hr)⟩
    obtain rfl := SearchState.searching.inj hr
    exact fun hxt => h ((State.mem_of_entry? hx).2.symm.trans hxt)

/-- The pair that is selected has an OPEN entry (R73). -/
theorem State.firstPair_entry {s : State} {q : Pair} (h : s.firstPair = some q) :
    ∃ x ∈ s.entries, x.tag = q.tag ∧ x.state = .opened := by
  have hq := List.mem_of_mem_head? (Option.mem_def.mpr h)
  obtain ⟨x, hx, hk⟩ := List.mem_flatMap.mp hq
  obtain ⟨k, hmem, rfl⟩ := List.mem_map.mp hk
  have hsel := (List.mem_filter.mp hmem).2
  simp only [State.selectable, Bool.and_eq_true] at hsel
  exact ⟨x, hx, rfl, ((Entry.eligible_iff x).mp hsel.1.1.1).1⟩

theorem Event.runSearchUnit_apartFrom {e : Event} {t : Tag} (h : e.state.searchUnit.apartFrom t)
    (ht : ∀ x ∈ e.state.entries, x.tag = t → x.state ≠ .opened) : e.runSearchUnit.state.searchUnit.apartFrom t := by
  unfold Event.runSearchUnit
  split
  · unfold Event.select
    split
    · rename_i q hq
      obtain ⟨x, hx, hxt, hopen⟩ := State.firstPair_entry hq
      exact Event.startPair_apartFrom e 0 fun hqt => ht x hx (hxt.trans hqt) hopen
    · unfold Event.judgeWindow
      rw [Event.on_state, Event.raiseIf_state]
      exact h
  · exact h
  · rename_i q hq
    split
    · exact Event.startPair_apartFrom e 0 (h.2 q hq)
    · exact h

/-- A tail brings no search to an entry that is OPEN no longer. -/
theorem settle_apartFrom (before : State) {e : Event} {t : Tag} (h : e.state.searchUnit.apartFrom t)
    (ht : ∀ x ∈ e.state.entries, x.tag = t → x.state ≠ .opened) : (settle before e).searchUnit.apartFrom t := by
  rw [settle_searchUnit]
  refine Event.runSearchUnit_apartFrom ?_ ?_
  · rw [e.closed_calm.1]
    exact h
  · rw [e.closed_tail.entries]
    exact ht

theorem State.advanceScan_searching {s : State} {q : Search} (hq : s.searchUnit = .searching q) :
    ∃ r, s.advanceScan.searchUnit = .searching r ∧ q.goesOn r := by
  unfold State.advanceScan
  rw [hq]
  exact ⟨_, rfl, rfl, rfl, rfl, Nat.le_add_right _ _⟩

theorem State.searchesFor_searching {s : State} {q : Search} (hq : s.searchUnit = .searching q) (t : Tag) :
    s.searchesFor t = decide (q.pair.tag = t) := by
  unfold State.searchesFor
  rw [hq]

theorem State.apartFrom_of_searchesFor {s : State} {t : Tag} (h : s.searchesFor t = false) :
    s.searchUnit.apartFrom t := by
  unfold State.searchesFor at h
  refine ⟨fun q hq => ?_, fun q hq => ?_⟩ <;> rw [hq] at h <;> simpa using h

/-! ### The stages of a cancel -/

/-- A cancelled entry that has lost some live pieces. -/
def Entry.cancelledBy (n : Nat) (x : Entry) : Entry := { x with state := .cancelled, live := x.live - n }

section
variable (s : State) (t : Tag)

/-- A DEMAND CANCEL before it comes to the slots. -/
def State.cancelStart : State := s.advanceScan.updEntry t fun x => { x with state := .cancelled }

/-- A DEMAND CANCEL once it is through the slots (R65). -/
def State.cancelPieces : Event := (s.cancelStart t).begin.withdrawAll (s.uncutSlots t) .cancelled

/-- A DEMAND CANCEL once a search for the entry is abandoned (R94). -/
def State.cancelSearch : Event :=
  if s.advanceScan.searchesFor t then (s.cancelPieces t).on State.abandonSearch else s.cancelPieces t

theorem State.uncutSlots_advanceScan : s.advanceScan.uncutSlots t = s.uncutSlots t := by
  rw [State.uncutSlots_eq, State.uncutSlots_eq, State.advanceScan_slots]

theorem State.cancelling_eq : s.cancelling t = (s.cancelSearch t).on fun u => u.removeIfDone t := by
  unfold State.cancelSearch State.cancelPieces
  rw [← State.uncutSlots_advanceScan]
  rfl

theorem State.cancelStart_rest : s.cancelStart t = { s with
    entries := (s.cancelStart t).entries, searchUnit := (s.cancelStart t).searchUnit,
    freeIndex := (s.cancelStart t).freeIndex } := by
  unfold State.cancelStart State.updEntry
  rw [s.advanceScan_rest]

theorem State.cancelStart_slots : (s.cancelStart t).slots = s.slots := s.advanceScan_slots

theorem State.uncutSlots_uncut : ∀ n ∈ s.uncutSlots t, ∃ p, (s.cancelStart t).begin.state.slots[n] = some p ∧
    p.tag = t ∧ (p.state = .placed ∨ p.state = .claimed) := fun n hn => by
  obtain ⟨p, hp, hpt, hs⟩ := State.mem_uncutSlots.mp hn
  exact ⟨p, by rw [State.begin_state, State.cancelStart_slots, hp], hpt, hs⟩

theorem State.cancelPieces_recast : (s.cancelStart t).begin.Recast (withdrawChange .cancelled) tellsNobody
    (s.cancelPieces t) (s.uncutSlots t) :=
  Event.withdrawAll_recast .cancelled (s.uncutSlots t) (.refl _ _ _) (s.uncutSlots_nodup t) fun n hn => by
    obtain ⟨p, hp, _, hs⟩ := s.uncutSlots_uncut t n hn
    exact ⟨p, hp, hs⟩

theorem State.cancelPieces_pieces : State.Pieces (s.cancelStart t) (s.cancelPieces t).state :=
  (s.cancelPieces_recast t).pieces

/-- The entry is CANCELLED, and its live count less by the pieces withdrawn (R65). -/
theorem State.cancelPieces_entries : (s.cancelPieces t).state.entries =
    s.entries.map fun x => if x.tag = t then x.cancelledBy (s.uncutSlots t).length else x := by
  have hstart : (s.cancelStart t).entries = s.entries.map fun x => if x.tag = t then { x with state := .cancelled } else x := by
    unfold State.cancelStart
    rw [State.updEntry_entries, State.advanceScan_entries]
  refine (Event.withdrawAll_entries .cancelled (s.uncutSlots t) (s.uncutSlots_nodup t) (s.uncutSlots_uncut t)).trans ?_
  rw [State.begin_state, hstart, List.map_map]
  refine List.map_congr_left fun x _ => ?_
  by_cases hx : x.tag = t
  · simp only [Function.comp, if_pos hx]
    rfl
  · simp only [Function.comp, if_neg hx]

theorem State.cancelSearch_state : (s.cancelSearch t).state = { (s.cancelPieces t).state with
    searchUnit := (s.cancelSearch t).state.searchUnit } := by
  unfold State.cancelSearch
  split <;> rfl

theorem State.cancelSearch_raised {m : Notice} (h : (s.cancelPieces t).raised m) : (s.cancelSearch t).raised m := by
  unfold State.cancelSearch
  split <;> exact h

theorem State.cancelSearch_entry? (u : Tag) : (s.cancelSearch t).state.entry? u =
    (s.entry? u).map fun x => if x.tag = t then x.cancelledBy (s.uncutSlots t).length else x := by
  have hentries : (s.cancelSearch t).state.entries = (s.updEntry t (Entry.cancelledBy (s.uncutSlots t).length)).entries := by
    rw [State.cancelSearch_state]
    exact s.cancelPieces_entries t
  rw [← State.entry?_updEntry s t u (f := Entry.cancelledBy (s.uncutSlots t).length) fun _ => rfl]
  exact congrArg (fun es => es.find? fun x => decide (x.tag = u)) hentries

theorem State.cancelling_state : (s.cancelling t).state = (s.cancelSearch t).state.removeIfDone t := by
  rw [State.cancelling_eq]
  rfl

/-- What the end of a cancel leaves as the pass has made it. -/
theorem State.cancelling_rest : (s.cancelling t).state = { (s.cancelPieces t).state with
    searchUnit := (s.cancelSearch t).state.searchUnit, entries := (s.cancelling t).state.entries,
    patterns := (s.cancelling t).state.patterns, marks := (s.cancelling t).state.marks } := by
  rw [State.cancelling_state, State.removeIfDone_rest, State.cancelSearch_state]

end

end Sys2Proof.Machine
end

section
/-!
PROOFS. DEMAND CANCEL: the state it ends in, part by part.
-/

namespace Sys2Proof.Machine

open Sys2Proof

section
variable (s : State) (t : Tag)

/-! ### Slots, cells and heads -/

theorem State.cancel_slot (n : SlotNo) : (s.cancel t).slots[n] =
    if n ∈ s.uncutSlots t then (s.slots[n]).map (withdrawChange .cancelled n) else s.slots[n] := by
  have hslots : (s.cancel t).slots = (s.cancelPieces t).state.slots := by
    unfold State.cancel
    rw [settle_slots, State.cancelling_rest]
  rw [hslots, (s.cancelPieces_recast t).slots, State.begin_state, State.cancelStart_slots]

theorem State.cancel_raises {m : Notice} (h : (s.cancelPieces t).raised m) : s.raises (s.cancel t) m := by
  have hnotices : (s.cancelling t).state.notices = s.notices := by
    rw [State.cancelling_rest, (s.cancelPieces_pieces t).rest, State.cancelStart_rest]
  refine settle_raises _ _ m hnotices ?_
  rw [State.cancelling_eq]
  exact s.cancelSearch_raised t h

theorem withdrawChange_gone {c : Cause} {n : SlotNo} {p : Placement} (h : p.state = .placed ∨ p.state = .claimed) :
    p.gone (withdrawChange c n p) = true := by
  rcases h with h | h <;> simp [Placement.gone, withdrawChange, h]

theorem withdrawChange_dropped (c : Cause) (n : SlotNo) (p : Placement) :
    p.dropped (withdrawChange c n p) = decide (p.state = .claimed) := by
  simp [Placement.dropped, withdrawChange]

/-- What a cancel makes of a record of its entry that is not yet under a knife, and whom it tells (R65, R104). -/
theorem State.cancel_record {n : SlotNo} {r : Placement} (hr : s.slots[n] = some r) (ht : r.tag = t)
    (hs : r.state = .placed ∨ r.state = .claimed) :
    (s.cancel t).slots[n] = some { r with state := .withdrawn, cause := some .cancelled } ∧
    s.raises (s.cancel t) .placementWithdrawn ∧
    ∀ h, r.state = .claimed → r.head = some h → s.raises (s.cancel t) (.claimLost h) := by
  have hn : n ∈ s.uncutSlots t := State.mem_uncutSlots.mpr ⟨r, hr, ht, hs⟩
  have hstart : (s.cancelStart t).begin.state.slots[n] = some r := by
    rw [State.begin_state, State.cancelStart_slots, hr]
  have htells : ∀ m, r.tells (withdrawChange .cancelled n r) m → s.raises (s.cancel t) m := fun m hm =>
    s.cancel_raises t ((s.cancelPieces_recast t).tells n hn r hstart m (.inl hm))
  refine ⟨?_, htells _ (.inl ⟨withdrawChange_gone hs, .inl rfl⟩),
    fun h hc hh => htells _ (.inl ⟨withdrawChange_gone hs, .inr ⟨h, hc, hh, rfl⟩⟩)⟩
  rw [s.cancel_slot t, if_pos hn, hr]
  rfl

theorem State.cancel_slot_other {n : SlotNo}
    (h : ∀ r, s.slots[n] = some r → r.tag = t → r.state ≠ .placed ∧ r.state ≠ .claimed) :
    (s.cancel t).slots[n] = s.slots[n] := by
  rw [s.cancel_slot t, if_neg]
  intro hn
  obtain ⟨p, hp, hpt, hs⟩ := State.mem_uncutSlots.mp hn
  obtain ⟨h1, h2⟩ := h p hp hpt
  exact hs.elim h1 h2

theorem State.cancel_withdrawn : (s.cancel t).withdrawn = s.withdrawn ++ s.uncutSlots t := by
  have hgoes : (s.uncutSlots t).filter ((s.cancelStart t).begin.state.goes (withdrawChange .cancelled)) = s.uncutSlots t := by
    refine List.filter_eq_self.mpr fun n hn => ?_
    obtain ⟨p, hp, _, hs⟩ := s.uncutSlots_uncut t n hn
    rw [State.goes, hp]
    exact withdrawChange_gone hs
  unfold State.cancel
  rw [settle_withdrawn, State.cancelling_rest]
  dsimp only
  rw [(s.cancelPieces_recast t).withdrawn, hgoes, State.begin_state, State.cancelStart_rest]

theorem State.cancel_headState (h : Head) : ((s.cancel t).heads[h]).state = (s.heads[h]).state := by
  unfold State.cancel
  rw [settle_headState, State.cancelling_rest]
  dsimp only
  rw [(s.cancelPieces_pieces t).head h]
  dsimp only
  rw [State.cancelStart_rest]

/-- A held list after a cancel has lost the claims of the entry (R143). -/
theorem State.cancel_held (h : Head) : ((s.cancel t).heads[h]).held = (s.heads[h]).held.filter fun y =>
    !((s.slots[y.slot]).any fun r =>
      decide (r.tag = t) && decide (r.state = .claimed) && decide (r.head = some h)) := by
  unfold State.cancel
  rw [settle_held, State.cancelling_rest]
  dsimp only
  rw [(s.cancelPieces_recast t).held, State.begin_state]
  have hheads : (s.cancelStart t).heads = s.heads := s.advanceScan_heads
  rw [hheads]
  refine List.filter_congr fun y _ => congrArg _ ?_
  unfold State.dropsFrom
  rw [State.cancelStart_slots]
  simp only [withdrawChange_dropped]
  cases hr : s.slots[y.slot] with
  | none => simp
  | some r =>
    have hmem : y.slot ∈ s.uncutSlots t ↔ r.tag = t ∧ (r.state = .placed ∨ r.state = .claimed) := by
      rw [State.mem_uncutSlots, hr]
      simp
    by_cases hc : r.state = .claimed
    · by_cases ht : r.tag = t <;> simp [hmem, hc, ht]
    · simp [hc]

/-- The slots that lose their place on a context's cells. -/
theorem State.cancelStart_goesFrom {k : Ctx} {n : SlotNo} :
    (n ∈ s.uncutSlots t ∧ (s.cancelStart t).begin.state.goesFrom (withdrawChange .cancelled) k n = true) ↔
    ∃ r, s.slots[n] = some r ∧ r.ctx = k ∧ r.tag = t ∧ (r.state = .placed ∨ r.state = .claimed) := by
  rw [State.mem_uncutSlots, State.goesFrom, State.begin_state, State.cancelStart_slots]
  cases hr : s.slots[n] with
  | none => simp
  | some r =>
    simp only [Option.some.injEq, exists_eq_left', Option.any_some, Bool.and_eq_true, decide_eq_true_eq]
    exact ⟨fun ⟨⟨ht, hs⟩, hk, _⟩ => ⟨hk, ht, hs⟩, fun ⟨hk, ht, hs⟩ => ⟨⟨ht, hs⟩, hk, withdrawChange_gone hs⟩⟩

theorem State.cancel_freesCells (hw : s.planesWf) (k : Ctx) :
    s.freesCells (s.cancel t) k fun r => r.ctx = k ∧ r.tag = t ∧ (r.state = .placed ∨ r.state = .claimed) := by
  have hplanes : (s.cancelStart t).begin.state.planes = s.planes := s.advanceScan_planes
  intro a
  have hcell : ((s.cancel t).planes[k]).read a = ((s.planes[k]).read a).without fun n =>
      decide (n ∈ s.uncutSlots t) && (s.cancelStart t).begin.state.goesFrom (withdrawChange .cancelled) k n := by
    have h := (s.cancelPieces_recast t).cells (fun j => by rw [hplanes]; exact hw j) k a
    rw [hplanes] at h
    unfold State.cancel
    rw [settle_planes, State.cancelling_rest]
    exact h
  rw [hcell]
  refine ⟨fun n r ho hr hg => Cell.without_some ho ?_, fun h => Cell.without_none fun n ho => ?_⟩
  · rw [Bool.and_eq_true, decide_eq_true_eq]
    exact (s.cancelStart_goesFrom t).mpr ⟨r, hr, hg⟩
  · rw [Bool.eq_false_iff, Ne, Bool.and_eq_true, decide_eq_true_eq]
    intro hgoes
    obtain ⟨r, hr, hg⟩ := (s.cancelStart_goesFrom t).mp hgoes
    exact h n r ho hr hg

/-! ### Marks -/

theorem State.cancelSearch_marks (k : Ctx) : (s.cancelSearch t).state.marks[k] =
    if ∃ (n : SlotNo) (r : Placement), s.slots[n] = some r ∧ r.ctx = k ∧ r.tag = t ∧ (r.state = .placed ∨ r.state = .claimed)
    then 0 else s.marks[k] := by
  have hmarks : (s.cancelStart t).begin.state.marks = s.marks := s.advanceScan_marks
  rw [State.cancelSearch_state]
  dsimp only
  rw [(s.cancelPieces_recast t).marks, hmarks]
  have hany : (s.uncutSlots t).any ((s.cancelStart t).begin.state.goesFrom (withdrawChange .cancelled) k) = true ↔
      ∃ (n : SlotNo) (r : Placement), s.slots[n] = some r ∧ r.ctx = k ∧ r.tag = t ∧
        (r.state = .placed ∨ r.state = .claimed) := by
    rw [List.any_eq_true]
    exact exists_congr fun n => s.cancelStart_goesFrom t
  simp only [hany]

theorem State.cancel_marks (k : Ctx) : (s.cancel t).marks[k] = (s.cancelSearch t).state.marks[k] ∨
    (s.cancel t).marks[k] = (s.cancelSearch t).state.marks[k] &&& ~~~(tagBit t) := by
  unfold State.cancel
  rw [settle_marks, State.cancelling_state]
  rcases (s.cancelSearch t).state.removeIfDone_cases t with he | ⟨x, hx, _, he⟩ <;> rw [he]
  · exact .inl rfl
  · obtain ⟨_, rfl⟩ := State.mem_of_entry? hx
    exact .inr (get_map _ _ _)

theorem State.cancel_marks_cleared {n : SlotNo} {r : Placement} (hr : s.slots[n] = some r) (ht : r.tag = t)
    (hs : r.state = .placed ∨ r.state = .claimed) : (s.cancel t).marks[r.ctx] = 0 := by
  have hzero : (s.cancelSearch t).state.marks[r.ctx] = 0 := by
    rw [s.cancelSearch_marks t, if_pos ⟨n, r, hr, rfl, ht, hs⟩]
  rcases s.cancel_marks t r.ctx with h | h
  · rw [h, hzero]
  · rw [h, hzero]
    exact BitVec.zero_and

theorem State.cancelSearch_marks_kept {k : Ctx} (h : ∀ (n : SlotNo) (r : Placement), s.slots[n] = some r → r.tag = t →
    r.ctx = k → r.state ≠ .placed ∧ r.state ≠ .claimed) : (s.cancelSearch t).state.marks[k] = s.marks[k] := by
  rw [s.cancelSearch_marks t, if_neg]
  rintro ⟨n, r, hr, hk, ht, hs⟩
  obtain ⟨h1, h2⟩ := h n r hr ht hk
  exact hs.elim h1 h2

theorem State.cancel_marked_other {k : Ctx} (h : ∀ (n : SlotNo) (r : Placement), s.slots[n] = some r → r.tag = t →
    r.ctx = k → r.state ≠ .placed ∧ r.state ≠ .claimed) {u : Tag} (hu : u ≠ t) :
    (s.cancel t).marked u k = s.marked u k := by
  have hkept := s.cancelSearch_marks_kept t h
  have hbit : (tagBit t).getLsbD u.val = false := by
    unfold tagBit
    rw [BitVec.getLsbD_twoPow]
    simp [Fin.ext_iff.not.mp hu.symm]
  unfold State.marked
  rcases s.cancel_marks t k with he | he <;> rw [he, hkept]
  rw [BitVec.getLsbD_and, BitVec.getLsbD_not, hbit]
  simp

/-! ### The queue -/

variable {x : Entry}

theorem State.cancelSearch_entry (hx : s.entry? t = some x) :
    (s.cancelSearch t).state.entry? t = some (x.cancelledBy (s.uncutSlots t).length) := by
  rw [State.cancelSearch_entry?, hx, Option.map_some, if_pos (State.mem_of_entry? hx).2]

/-- An entry that a slot still names stays, CANCELLED. -/
theorem State.cancelling_kept (hx : s.entry? t = some x) (hh : x.holders ≠ 0) :
    (s.cancelling t).state = (s.cancelSearch t).state := by
  rw [State.cancelling_state]
  exact State.removeIfDone_of_not_done (s.cancelSearch_entry t hx) (by simp [Entry.done, Entry.cancelledBy, hh])

/-- An entry that no slot names is removed (R67). -/
theorem State.cancelling_removed (hx : s.entry? t = some x) (hh : x.holders = 0) : (s.cancelling t).state =
    (s.cancelSearch t).state.removed (x.cancelledBy (s.uncutSlots t).length) := by
  rw [State.cancelling_state]
  exact State.removeIfDone_of_done (s.cancelSearch_entry t hx) (by simp [Entry.done, Entry.cancelledBy, hh])

theorem State.cancelSearch_entries : (s.cancelSearch t).state.entries =
    s.entries.map fun x => if x.tag = t then x.cancelledBy (s.uncutSlots t).length else x := by
  rw [State.cancelSearch_state]
  exact s.cancelPieces_entries t

theorem State.cancelSearch_patterns : (s.cancelSearch t).state.patterns = s.patterns := by
  rw [State.cancelSearch_state, (s.cancelPieces_pieces t).rest, State.cancelStart_rest]

theorem State.cancel_kept (hx : s.entry? t = some x) (hh : x.holders ≠ 0) :
    (s.cancel t).entries = s.entries.map (fun e => if e.tag = t then
      { e with state := .cancelled, live := e.live - (s.uncutSlots t).length } else e) ∧
    (s.cancel t).patterns = s.patterns := by
  unfold State.cancel
  rw [settle_entries, settle_patterns, s.cancelling_kept t hx hh]
  exact ⟨s.cancelSearch_entries t, s.cancelSearch_patterns t⟩

theorem State.cancel_marks_kept (hx : s.entry? t = some x) (hh : x.holders ≠ 0) {k : Ctx}
    (h : ∀ (n : SlotNo) (r : Placement), s.slots[n] = some r → r.tag = t → r.ctx = k →
      r.state ≠ .placed ∧ r.state ≠ .claimed) : (s.cancel t).marks[k] = s.marks[k] := by
  unfold State.cancel
  rw [settle_marks, s.cancelling_kept t hx hh]
  exact s.cancelSearch_marks_kept t h

/-- A change of the entries of one tag is not seen among the others. -/
theorem filter_tag_ne_map (es : List Entry) {u : Tag} {f : Entry → Entry} (hf : ∀ e, (f e).tag = e.tag) :
    (es.map fun e => if e.tag = u then f e else e).filter (fun e => e.tag ≠ u) = es.filter fun e => e.tag ≠ u := by
  induction es with
  | nil => rfl
  | cons e es ih =>
    rw [List.map_cons]
    by_cases he : e.tag = u
    · rw [if_pos he, List.filter_cons_of_neg (by simp [hf, he]), List.filter_cons_of_neg (by simp [he]), ih]
    · rw [if_neg he, List.filter_cons_of_pos (by simp [he]), List.filter_cons_of_pos (by simp [he]), ih]

theorem State.cancel_removed (hx : s.entry? t = some x) (hh : x.holders = 0) :
    (s.cancel t).entries = s.entries.filter (fun e => e.tag ≠ t) ∧ (∀ k : Ctx, (s.cancel t).marked t k = false) ∧
    ((s.cancel t).patterns[x.pattern]).refs = (s.patterns[x.pattern]).refs - 1 ∧
    ∀ m : PatNo, m ≠ x.pattern → (s.cancel t).patterns[m] = s.patterns[m] := by
  obtain ⟨_, rfl⟩ := State.mem_of_entry? hx
  have hpattern : ∀ m : PatNo, (s.cancel x.tag).patterns[m] = { s.patterns[m] with
      refs := (s.patterns[m]).refs - (if m = x.pattern then 1 else 0) } := fun m => by
    unfold State.cancel
    rw [settle_patterns, s.cancelling_removed x.tag hx hh, State.removed_pattern, s.cancelSearch_patterns]
    rfl
  refine ⟨?_, fun k => ?_, ?_, fun m hm => ?_⟩
  · unfold State.cancel
    rw [settle_entries, s.cancelling_removed x.tag hx hh]
    show (s.cancelSearch x.tag).state.entries.filter (fun e => e.tag ≠ x.tag) = _
    rw [State.cancelSearch_entries]
    exact filter_tag_ne_map s.entries fun _ => rfl
  · have hmarks : (s.cancel x.tag).marks = (s.cancelling x.tag).state.marks := settle_marks ..
    unfold State.marked
    rw [hmarks, s.cancelling_removed x.tag hx hh]
    exact State.removed_marked _ (x.cancelledBy (s.uncutSlots x.tag).length) k
  · rw [hpattern, if_pos rfl]
  · rw [hpattern, if_neg hm]
    rfl

theorem State.cancel_entry?_other {u : Tag} (hu : u ≠ t) : (s.cancel t).entry? u = s.entry? u := by
  have hentries : (s.cancel t).entries = (s.cancelling t).state.entries := settle_entries ..
  have hkept : (s.cancelSearch t).state.entry? u = s.entry? u := by
    rw [State.cancelSearch_entry?]
    cases hy : s.entry? u with
    | none => rfl
    | some y => rw [Option.map_some, if_neg fun hyt => hu ((State.mem_of_entry? hy).2.symm.trans hyt)]
  unfold State.entry? at hkept ⊢
  rw [hentries, State.cancelling_state]
  rcases (s.cancelSearch t).state.removeIfDone_cases t with he | ⟨y, hy, _, he⟩ <;> rw [he]
  · exact hkept
  · obtain ⟨_, rfl⟩ := State.mem_of_entry? hy
    exact (State.removed_entry?_other _ hu).trans hkept

/-- Pattern records change in their references alone. -/
theorem State.cancel_drawings (n : PatNo) :
    (s.cancel t).patterns[n] = { s.patterns[n] with refs := ((s.cancel t).patterns[n]).refs } := by
  have h := ((s.cancelSearch t).state.removeIfDone_wants t).drawings n
  rw [← State.cancelling_state, s.cancelSearch_patterns] at h
  unfold State.cancel
  rw [settle_patterns]
  exact h

/-! ### The Search Unit, and what stays -/

theorem State.cancelling_searchUnit : (s.cancelling t).state.searchUnit = (s.cancelSearch t).state.searchUnit := by
  rw [State.cancelling_rest]

theorem State.cancelPieces_searchUnit : (s.cancelPieces t).state.searchUnit = s.advanceScan.searchUnit := by
  rw [(s.cancelPieces_pieces t).rest]
  rfl

theorem State.cancel_apartFrom : (s.cancel t).searchUnit.apartFrom t := by
  refine settle_apartFrom _ ?_ fun y hy hyt => ?_
  · rw [State.cancelling_searchUnit]
    unfold State.cancelSearch
    split
    · exact SearchState.idle_apartFrom t
    · rename_i h
      rw [State.cancelPieces_searchUnit]
      exact State.apartFrom_of_searchesFor (Bool.eq_false_iff.mpr h)
  · have hmem : y ∈ (s.cancelSearch t).state.entries := by
      rw [State.cancelling_state] at hy
      rcases (s.cancelSearch t).state.removeIfDone_cases t with he | ⟨z, _, _, he⟩ <;> rw [he] at hy
      · exact hy
      · exact (List.mem_filter.mp hy).1
    rw [State.cancelSearch_entries] at hmem
    obtain ⟨z, _, rfl⟩ := List.mem_map.mp hmem
    split at hyt
    · rename_i hz
      rw [if_pos hz]
      exact nofun
    · rename_i hz
      exact absurd hyt hz

theorem State.cancel_goesOn {q : Search} (hq : s.searchUnit = .searching q) (ht : q.pair.tag ≠ t) :
    ∃ r, (s.cancel t).searchUnit = .searching r ∧ q.goesOn r := by
  obtain ⟨r, hr, hpair, hon⟩ := State.advanceScan_searching hq
  refine ⟨r, settle_searching _ _ r ?_, hpair, hon⟩
  rw [State.cancelling_searchUnit]
  unfold State.cancelSearch
  rw [State.searchesFor_searching hr, hpair, if_neg (by simpa using ht), State.cancelPieces_searchUnit, hr]

theorem State.cancel_ports : (s.cancel t).ports = s.ports := by
  unfold State.cancel
  rw [settle_ports, State.cancelling_rest, (s.cancelPieces_pieces t).rest,
    State.cancelStart_rest]

theorem State.cancel_settled : s.sameSettings (s.cancel t) ∧ s.steady (s.cancel t) := by
  have htail := settle_tail s.advanceScan (s.cancelling t)
  have hcancelling : s.sameSettings (s.cancelling t).state ∧ s.steady (s.cancelling t).state := by
    rw [State.cancelling_rest, (s.cancelPieces_pieces t).rest, State.cancelStart_rest]
    exact ⟨State.sameSettings_refl s, State.steady_refl s⟩
  exact ⟨State.sameSettings_trans hcancelling.1 htail.sameSettings, State.steady_trans hcancelling.2 htail.steady⟩

end

/-! ### The owner -/

section
variable {pl : List Byte} {s : State}

theorem demandCancelOwner_range (h : 63 < u8 pl 0) : demandCancelOwner 0 pl s = (s, .refuse .range) := by
  unfold demandCancelOwner
  rw [index?_none h]

variable {t : Tag} (ht : u8 pl 0 = t.val)

include ht

theorem demandCancelOwner_unknown (h : s.entry? t = none) : demandCancelOwner 0 pl s = (s, .refuse .notFound) := by
  unfold demandCancelOwner
  rw [index?_of_eq t ht]
  dsimp only
  rw [h]

variable {x : Entry} (hx : s.entry? t = some x)

include hx

theorem demandCancelOwner_cancelled (hc : x.state = .cancelled) :
    demandCancelOwner 0 pl s = (s, .accept (enc1 t.val ++ enc1 0 ++ enc1 x.live ++ enc1 0)) := by
  unfold demandCancelOwner
  rw [index?_of_eq t ht]
  dsimp only
  rw [hx]
  dsimp only
  rw [if_pos hc]
  unfold cancelBytes
  rw [hx]
  rfl

theorem demandCancelOwner_accepts (hc : x.state ≠ .cancelled) : demandCancelOwner 0 pl s =
    (s.cancel t, .accept (cancelBytes t (s.uncutSlots t).length (s.cancel t))) := by
  unfold demandCancelOwner
  rw [index?_of_eq t ht]
  dsimp only
  rw [hx]
  exact if_neg hc

end

theorem exec_demandCancel_refuses {s : State} {pl : List Byte} {c : Code} (ht : s.takes 0) (hl : pl.length = 1)
    (ho : demandCancelOwner 0 pl (s.hunt 0) = (s.hunt 0, .refuse c)) :
    exec (.demandCancel 0 pl) s = .next (s.refused .demandCancel 0 c) :=
  request_refuses .demandCancel demandCancelOwner 0 pl s c ht rfl (decide_eq_true hl) ho

/-- Settles O24: the uncut slots are one pass, and the entry goes with the last slot that names it. -/
theorem demandCancelWithdraws : Obligations.DemandCancelWithdraws := by
  refine ⟨fun pl s ht hl => ⟨fun h => ?_, fun u hu h => ?_⟩, State.uncutSlots_eq, fun pl s u x ht hl hu hx =>
    ⟨fun hc => ?_, fun hc => ?_⟩⟩
  · exact exec_demandCancel_refuses ht hl (demandCancelOwner_range h)
  · exact exec_demandCancel_refuses ht hl (demandCancelOwner_unknown (s := s.hunt 0) hu h)
  · exact request_accepts .demandCancel demandCancelOwner 0 pl s _ _ ht rfl (decide_eq_true hl)
      (demandCancelOwner_cancelled (s := s.hunt 0) hu hx hc)
  · have hexec : exec (.demandCancel 0 pl) s = _ := request_accepts .demandCancel demandCancelOwner 0 pl s _ _ ht rfl
      (decide_eq_true hl) (demandCancelOwner_accepts (s := s.hunt 0) hu hx hc)
    obtain ⟨hsearch, hstall⟩ := (s.hunt 0).cancel_apartFrom u
    obtain ⟨hsettings, hsteady⟩ := (s.hunt 0).cancel_settled u
    refine ⟨_, hexec, fun n r hr hrt hs => ?_, fun n hn => (s.hunt 0).cancel_slot_other u hn, (s.hunt 0).cancel_withdrawn u,
      fun h => ⟨(s.hunt 0).cancel_headState u h, (s.hunt 0).cancel_held u h⟩, fun hh => (s.hunt 0).cancel_removed u hx hh,
      fun hh => (s.hunt 0).cancel_kept u hx hh,
      fun k hk => ⟨fun v hv => (s.hunt 0).cancel_marked_other u hk hv, fun hh => (s.hunt 0).cancel_marks_kept u hx hh hk⟩,
      hsearch, hstall, fun q hq hqt => (s.hunt 0).cancel_goesOn u hq hqt,
      State.repliedFrom_owe _ _ _ _ _ ((s.hunt 0).cancel_ports u), fun v hv => (s.hunt 0).cancel_entry?_other u hv,
      fun hw k => (s.hunt 0).cancel_freesCells u hw k, (s.hunt 0).cancel_drawings u, hsettings, hsteady⟩
    obtain ⟨hslot, hraises, hlost⟩ := (s.hunt 0).cancel_record u hr hrt hs
    exact ⟨hslot, hraises, (s.hunt 0).cancel_marks_cleared u hr hrt hs, hlost⟩

end Sys2Proof.Machine
end

section
/-!
PROOFS. The end of a cut (R102, R154, R155, R157): what a head's work on its slots leaves alone, CUT DONE, CUT FAILED.
-/

namespace Sys2Proof.Machine

open Sys2Proof

/-! ### Work on slots and held lists -/

/-- Slots, entries and heads change alone, and no claim timer does. -/
structure State.HeadWork (s t : State) : Prop where
  rest : t = { s with slots := t.slots, entries := t.entries, heads := t.heads }
  timer : ∀ h : Head, (t.heads[h]).timer = (s.heads[h]).timer

theorem State.HeadWork.refl (s : State) : s.HeadWork s := ⟨rfl, fun _ => rfl⟩

theorem State.HeadWork.trans {s t u : State} (h : s.HeadWork t) (g : t.HeadWork u) : s.HeadWork u where
  rest := by
    have hr := h.rest
    have gr := g.rest
    rw [hr] at gr
    exact gr
  timer k := (g.timer k).trans (h.timer k)

theorem State.updHead_headWork (s : State) (h : Head) {f : HeadChannel → HeadChannel}
    (hf : (f s.heads[h]).timer = (s.heads[h]).timer) : s.HeadWork (s.updHead h f) := by
  refine ⟨rfl, fun k => ?_⟩
  rw [State.updHead_heads, get_set]
  split
  · rename_i hk
    subst hk
    exact hf
  · rfl

theorem State.unholdBy_timer (s : State) (o : Option Head) (n : SlotNo) (g : Head) :
    ((s.unholdBy o n).heads[g]).timer = (s.heads[g]).timer := by
  cases o with
  | none => rfl
  | some h => exact (s.updHead_headWork h (f := fun c => { c with held := c.held.filter fun x => x.slot ≠ n }) rfl).timer g

theorem Event.spoil_headWork (e : Event) (n : SlotNo) (c : Cause) : e.state.HeadWork (e.spoil n c).state := by
  refine ⟨e.spoil_rest n c, fun g => ?_⟩
  unfold Event.spoil
  split
  · rfl
  · dsimp only
    rw [Event.raise_state]
    dsimp only
    split
    · rfl
    · exact State.unholdBy_timer ..

theorem State.returnClaim_headWork (s : State) (n : SlotNo) : s.HeadWork (s.returnClaim n) := by
  refine ⟨s.returnClaim_rest n, fun g => ?_⟩
  unfold State.returnClaim
  split
  · rfl
  · exact State.unholdBy_timer ..

/-! ### The claim timers -/

theorem State.timedSlot_congr {s t : State} {h : Head} (slots : t.slots = s.slots)
    (held : (t.heads[h]).held = (s.heads[h]).held) : t.timedSlot h = s.timedSlot h := by
  unfold State.timedSlot State.isCutting State.heldRecords
  rw [slots, held]

/-- The claim timers follow the timed slots through a tail, if the event itself left them (R157). -/
theorem settle_claimsTimed (s : State) {e : Event} (ht : ∀ h : Head, (e.state.heads[h]).timer = (s.heads[h]).timer) :
    s.claimsTimed (settle s e) := by
  intro h
  have hslot : (settle s e).timedSlot h = e.state.timedSlot h :=
    State.timedSlot_congr (settle_slots ..) (settle_held s e h)
  have hlimit : (settle s e).conveyor = e.state.conveyor := (settle_tail s e).conveyor
  have htimer := settle_timer s e h
  unfold claimTimerAfter at htimer
  simp only [State.times_iff, hslot, hlimit]
  refine ⟨fun hnone => ?_, fun n hn => ?_⟩
  · rw [htimer, Option.eq_none_iff_forall_ne_some.mpr hnone]
  · rw [hn] at htimer
    dsimp only at htimer
    refine ⟨fun h0 => by rw [htimer, if_pos h0], fun hpos => ?_⟩
    rw [if_neg hpos.ne'] at htimer
    exact ⟨fun hs => by rw [htimer, if_pos hs, ht], fun hs => by rw [htimer, if_neg hs]⟩

/-- A head that holds nothing has no claim timer. -/
theorem settle_timer_none (before : State) {e : Event} {h : Head} (hh : (e.state.heads[h]).held = []) :
    ((settle before e).heads[h]).timer = none := by
  rw [settle_timer]
  unfold claimTimerAfter State.timedSlot
  rw [hh]

/-- What the tail of an event of work on slots leaves, the slots, the queue and the held lists aside. -/
structure State.HeadsOnly (s t : State) : Prop where
  timed : s.claimsTimed t
  settings : s.sameSettings t
  steady : s.steady t
  marks : t.marks = s.marks
  planes : t.planes = s.planes
  patterns : t.patterns = s.patterns
  withdrawn : t.withdrawn = s.withdrawn
  ports : t.ports = s.ports

theorem State.HeadWork.settle {s : State} {e : Event} (h : s.HeadWork e.state) : s.HeadsOnly (settle s e) := by
  have htail := settle_tail s e
  have hrest := h.rest
  have hsettings : s.sameSettings e.state := by rw [hrest]; exact State.sameSettings_refl s
  have hsteady : s.steady e.state := by rw [hrest]; exact State.steady_refl s
  refine ⟨settle_claimsTimed s h.timer, State.sameSettings_trans hsettings htail.sameSettings,
    State.steady_trans hsteady htail.steady, ?_, ?_, ?_, ?_, ?_⟩
  · rw [htail.marks, hrest]
  · rw [htail.planes, hrest]
  · rw [htail.patterns, hrest]
  · rw [htail.withdrawn, hrest]
  · rw [htail.ports, hrest]

theorem State.HeadWork.notices {s t : State} (h : s.HeadWork t) : t.notices = s.notices := by rw [h.rest]

/-! ### CUT DONE: the owner -/

theorem portHead_headPort (h : Head) : portHead (headPort h) = h := by
  revert h
  decide

theorem headPort_accepts_cutDone (h : Head) : Kind.cutDone.accepts (headPort h) = true := by
  revert h
  decide

section
variable {pl : List Byte} {s : State} {h : Head}

theorem cutDoneOwner_range (hk : 1 < u8 pl 1) : cutDoneOwner (headPort h) pl s = (s, .refuse .range) := by
  unfold cutDoneOwner
  rw [index?_none hk]

variable {k : Ctx} (hk : u8 pl 1 = k.val)

include hk

theorem cutDoneOwner_notHeld (hx : s.heldBy h (u8 pl 0) k (u16 pl 2) = none) :
    cutDoneOwner (headPort h) pl s = (s, .refuse .notHeld) := by
  unfold cutDoneOwner
  rw [portHead_headPort, index?_of_eq k hk]
  dsimp only
  rw [hx]

variable {x : Held} {r : Placement} (hx : s.heldBy h (u8 pl 0) k (u16 pl 2) = some (x, r))

include hx

theorem cutDoneOwner_notCutting (hr : r.state ≠ .cutting) :
    cutDoneOwner (headPort h) pl s = (s, .refuse .notHeld) := by
  unfold cutDoneOwner
  rw [portHead_headPort, index?_of_eq k hk]
  dsimp only
  rw [hx]
  exact if_pos hr

theorem cutDoneOwner_accepts (hr : r.state = .cutting) : cutDoneOwner (headPort h) pl s = (s.cutDone h x.slot r,
    .accept (enc1 x.slot.val ++ enc1 (if r.tainted then 5 else 4) ++ (s.cutDone h x.slot r).heldBytes h)) := by
  unfold cutDoneOwner
  rw [portHead_headPort, index?_of_eq k hk]
  dsimp only
  rw [hx]
  exact if_neg (not_not.mpr hr)

end

theorem exec_cutDone_refuses {s : State} {h : Head} {pl : List Byte} {c : Code} (ht : s.takes (headPort h))
    (hl : pl.length = 4) (ho : cutDoneOwner (headPort h) pl (s.hunt (headPort h)) = (s.hunt (headPort h), .refuse c)) :
    exec (.cutDone (headPort h) pl) s = .next (s.refused .cutDone (headPort h) c) :=
  request_refuses .cutDone cutDoneOwner (headPort h) pl s c ht (headPort_accepts_cutDone h) (decide_eq_true hl) ho

/-! ### A cut ends -/

section
variable {e : Event} {n : SlotNo} {p : Placement} (hp : e.state.slots[n] = some p) (hs : p.state = .cutting)

include hp

theorem Event.spoil_slots_of (c : Cause) : (e.spoil n c).state.slots =
    e.state.slots.set n (some { p with state := .spoiled, cause := some c }) := by rw [Event.spoil_slots, hp]

theorem Event.spoil_raises (c : Cause) : (e.spoil n c).raised .pieceSpoiled := by
  unfold Event.spoil
  rw [hp]
  exact Event.raised_raise_self _ _

include hs

/-- The entry of a CUTTING record that is spoiled (R62). -/
theorem Event.spoil_entries_of_cutting (c : Cause) : (e.spoil n c).state.entries =
    e.state.entries.map fun x => if x.tag = p.tag then
      { x with live := x.live - 1, spoiled := min 255 (x.spoiled + 1) } else x := by
  rw [(Event.spoil_recasts (told := fun _ => False) hp (.inl hs) c fun _ => id).state, State.recast_entries, hs]
  rfl

theorem Event.spoil_held_of_cutting {h : Head} (hh : p.head = some h) (c : Cause) (g : Head) :
    ((e.spoil n c).state.heads[g]).held =
      if g = h then (e.state.heads[g]).held.filter (fun y => y.slot ≠ n) else (e.state.heads[g]).held := by
  rw [Event.spoil_held e n c p hp (by rw [hs]; decide), hh]
  by_cases hg : g = h
  · rw [if_pos hg, if_pos (congrArg some hg.symm)]
  · rw [if_neg hg, if_neg fun hgh => hg (Option.some.inj hgh).symm]

end

section
variable (e : Event) (h : Head) (n : SlotNo) (p : Placement)

theorem Event.cutThrough_state : (e.cutThrough h n p).state =
    ((e.state.setSlot n (some { p with state := .cut })).unhold h n).updEntry p.tag Entry.countCut := by
  unfold Event.cutThrough
  dsimp only
  rw [Event.raiseIf_state, Event.raiseIf_state, Event.raise_state, Event.on_state]

theorem Event.cutThrough_headWork : e.state.HeadWork (e.cutThrough h n p).state := by
  rw [Event.cutThrough_state]
  refine ⟨rfl, fun g => ?_⟩
  exact State.unholdBy_timer (e.state.setSlot n (some { p with state := .cut })) (some h) n g

theorem Event.cutThrough_held (g : Head) : ((e.cutThrough h n p).state.heads[g]).held =
    if g = h then (e.state.heads[g]).held.filter (fun y => y.slot ≠ n) else (e.state.heads[g]).held := by
  rw [Event.cutThrough_state]
  refine (State.unholdBy_heads (e.state.setSlot n (some { p with state := .cut })) (some h) n g).trans ?_
  by_cases hg : g = h
  · rw [if_pos hg, if_pos (congrArg some hg.symm)]
    rfl
  · rw [if_neg hg, if_neg fun hgh => hg (Option.some.inj hgh).symm]
    rfl

theorem Event.cutThrough_entries : (e.cutThrough h n p).state.entries = e.state.entries.map fun x =>
    if x.tag = p.tag then
      { x with live := x.live - 1, cut := x.cut + 1,
               state := if x.state = .opened ∧ x.cut + 1 = x.requested then .satisfied else x.state } else x := by
  rw [Event.cutThrough_state, State.updEntry_entries]
  refine List.map_congr_left fun x _ => ?_
  unfold Entry.countCut
  simp only [Bool.and_eq_true, decide_eq_true_eq]

theorem Event.cutThrough_raises : (e.cutThrough h n p).raised .pieceCut :=
  Event.raised_raiseIf _ _ _ _ (Event.raised_raiseIf _ _ _ _ (Event.raised_raise_self _ _))

/-- An OPEN entry that has all its pieces with this one is SATISFIED, and its port is told (R63). -/
theorem Event.cutThrough_satisfies {x : Entry} (hx : e.state.entry? p.tag = some x) (ho : x.state = .opened)
    (hc : x.cut + 1 = x.requested) : (e.cutThrough h n p).raised .demandSatisfied ∧
      (x.rush = true → (e.cutThrough h n p).raised .rushSatisfied) := by
  have hsat : (e.state.entry? p.tag).filter (fun x => x.state = .opened && x.cut + 1 = x.requested) = some x := by
    rw [hx]
    simp [Option.filter, ho, hc]
  unfold Event.cutThrough
  rw [hsat]
  exact ⟨Event.raised_raiseIf _ _ _ _ (Event.raised_raiseIf_self _ _ _ rfl),
    fun hr => Event.raised_raiseIf_self _ _ _ hr⟩

end

/-! ### The state after CUT DONE -/

section
variable (s : State) (h : Head) (n : SlotNo) {p : Placement}

theorem State.cutDone_clean (ht : p.tainted = false) : s.cutDone h n p = settle s (s.begin.cutThrough h n p) := by
  unfold State.cutDone
  rw [if_neg (by rw [ht]; decide)]

theorem State.cutDone_tainted (ht : p.tainted = true) : s.cutDone h n p = settle s (s.begin.spoil n .lateFlaw) := by
  unfold State.cutDone
  rw [if_pos ht]

theorem State.cutDone_headsOnly (p : Placement) : s.HeadsOnly (s.cutDone h n p) := by
  cases ht : p.tainted with
  | false =>
    rw [s.cutDone_clean h n ht]
    exact (s.begin.cutThrough_headWork h n p).settle
  | true =>
    rw [s.cutDone_tainted h n ht]
    exact (s.begin.spoil_headWork n .lateFlaw).settle

/-- The slot leaves the held list of its head (R143). -/
theorem State.cutDone_held (hp : s.slots[n] = some p) (hs : p.state = .cutting) (hh : p.head = some h) (g : Head) :
    ((s.cutDone h n p).heads[g]).held =
      if g = h then (s.heads[g]).held.filter (fun y => y.slot ≠ n) else (s.heads[g]).held := by
  cases ht : p.tainted with
  | false =>
    rw [s.cutDone_clean h n ht, settle_held]
    exact s.begin.cutThrough_held h n p g
  | true =>
    rw [s.cutDone_tainted h n ht, settle_held]
    exact Event.spoil_held_of_cutting (e := s.begin) hp hs hh .lateFlaw g

/-- A piece that is not tainted is CUT, and its entry has it (R62, R63, R154). -/
theorem State.cutDone_cut (ht : p.tainted = false) :
    (s.cutDone h n p).slots = s.slots.set n (some { p with state := .cut }) ∧ s.raises (s.cutDone h n p) .pieceCut ∧
    (s.cutDone h n p).entries = s.entries.map (fun x => if x.tag = p.tag then
      { x with live := x.live - 1, cut := x.cut + 1,
               state := if x.state = .opened ∧ x.cut + 1 = x.requested then .satisfied else x.state } else x) ∧
    ∀ x, s.entry? p.tag = some x → x.state = .opened → x.cut + 1 = x.requested →
      s.raises (s.cutDone h n p) .demandSatisfied ∧ (x.rush = true → s.raises (s.cutDone h n p) .rushSatisfied) := by
  have hraises : ∀ m, (s.begin.cutThrough h n p).raised m → s.raises (s.cutDone h n p) m := fun m hm => by
    rw [s.cutDone_clean h n ht]
    exact settle_raises s _ m (s.begin.cutThrough_headWork h n p).notices hm
  refine ⟨?_, hraises _ (s.begin.cutThrough_raises h n p), ?_, fun x hx ho hc => ?_⟩
  · rw [s.cutDone_clean h n ht, settle_slots, Event.cutThrough_state]
    rfl
  · rw [s.cutDone_clean h n ht, settle_entries]
    exact s.begin.cutThrough_entries h n p
  · obtain ⟨hdemand, hrush⟩ := s.begin.cutThrough_satisfies h n p hx ho hc
    exact ⟨hraises _ hdemand, fun hr => hraises _ (hrush hr)⟩

/-- A tainted piece is SPOILED (R108, R154). -/
theorem State.cutDone_spoiled (ht : p.tainted = true) (hp : s.slots[n] = some p) (hs : p.state = .cutting) :
    (s.cutDone h n p).slots = s.slots.set n (some { p with state := .spoiled, cause := some .lateFlaw }) ∧
    s.raises (s.cutDone h n p) .pieceSpoiled ∧
    (s.cutDone h n p).entries = s.entries.map fun x => if x.tag = p.tag then
      { x with live := x.live - 1, spoiled := min 255 (x.spoiled + 1) } else x := by
  rw [s.cutDone_tainted h n ht, settle_slots, settle_entries]
  exact ⟨Event.spoil_slots_of (e := s.begin) hp _,
    settle_raises s _ _ (s.begin.spoil_headWork n .lateFlaw).notices (Event.spoil_raises (e := s.begin) hp _),
    Event.spoil_entries_of_cutting (e := s.begin) hp hs _⟩

end

/-- Settles O41: a cut ends as a piece, or, tainted, as a spoiled one. -/
theorem cutDoneEndsCut : Obligations.CutDoneEndsCut := by
  refine ⟨?_, ?_⟩
  · rintro _ pl s h rfl ht hl
    exact ⟨fun hk => exec_cutDone_refuses ht hl (cutDoneOwner_range hk),
      fun k hk hx => exec_cutDone_refuses ht hl (cutDoneOwner_notHeld (s := s.hunt _) hk hx)⟩
  · rintro _ pl s h k x r rfl ht hl hk hx
    refine ⟨fun hr => exec_cutDone_refuses ht hl (cutDoneOwner_notCutting (s := s.hunt _) hk hx hr), fun hr hh => ?_⟩
    have hexec : exec (.cutDone (headPort h) pl) s = _ := request_accepts .cutDone cutDoneOwner (headPort h) pl s _ _ ht
      (headPort_accepts_cutDone h) (decide_eq_true hl) (cutDoneOwner_accepts (s := s.hunt _) hk hx hr)
    obtain ⟨_, hp⟩ := heldBy_held hx
    have hrest := (s.hunt (headPort h)).cutDone_headsOnly h x.slot r
    have hheld := (s.hunt (headPort h)).cutDone_held h x.slot hp hr hh
    exact ⟨_, hexec, fun hc => (s.hunt (headPort h)).cutDone_cut h x.slot hc,
      fun hc => (s.hunt (headPort h)).cutDone_spoiled h x.slot hc hp hr,
      (hheld h).trans (if_pos rfl), fun g hg => (hheld g).trans (if_neg hg),
      State.repliedFrom_owe _ _ _ _ _ hrest.ports, hrest.timed, hrest.settings, hrest.steady, hrest.marks, hrest.planes,
      hrest.patterns, hrest.withdrawn⟩

end Sys2Proof.Machine
end

section
/-!
PROOFS. CUT FAILED (R102, R155): a piece spoiled under the knife, and a head that faults with it.
-/

namespace Sys2Proof.Machine

open Sys2Proof

/-! ### A head that faults -/

/-- The claimed slots of a head whose other held slots are CLAIMED are those other slots. -/
theorem State.claimedSlots_eq {s : State} {h : Head} {n : SlotNo} (hn : ∀ q, s.slots[n] = some q → q.state ≠ .claimed)
    (hall : ∀ y ∈ (s.heads[h]).held, y.slot ≠ n → ∃ q, s.slots[y.slot] = some q ∧ q.state = .claimed) :
    s.claimedSlots h = ((s.heads[h]).held.filter fun y => y.slot ≠ n).map Held.slot := by
  unfold State.claimedSlots State.heldRecords
  revert hall
  induction (s.heads[h]).held with
  | nil => exact fun _ => rfl
  | cons y ys ih =>
    intro hall
    have hrest := ih fun z hz => hall z (List.mem_cons_of_mem _ hz)
    rw [List.filterMap_cons]
    by_cases hy : y.slot = n
    · rw [List.filter_cons_of_neg (by simpa using hy), ← hrest]
      cases hp : s.slots[y.slot] with
      | none => rfl
      | some q => exact congrArg _ (List.filter_cons_of_neg (by simpa using hn q (hy ▸ hp)))
    · obtain ⟨q, hq, hc⟩ := hall y List.mem_cons_self hy
      rw [List.filter_cons_of_pos (by simpa using hy), List.map_cons, ← hrest, hq]
      exact congrArg _ (List.filter_cons_of_pos (by simpa using hc))

/-- Claims given back one after another are what a head gives up that holds no cut (R145, R155). -/
theorem Event.returnClaims_eq_giveUps (h : Head) (xs : List Held) (e : Event) (hnd : (xs.map Held.slot).Nodup)
    (hx : ∀ x ∈ xs, ∃ p, e.state.slots[x.slot] = some p ∧ p.state = .claimed) :
    (xs.map Held.slot).foldl (fun e n => e.on fun s => s.returnClaim n) e = xs.foldl (Event.giveUp h false) e := by
  induction xs generalizing e with
  | nil => rfl
  | cons x xs ih =>
    obtain ⟨p, hp, hc⟩ := hx x List.mem_cons_self
    rw [List.map_cons, List.nodup_cons] at hnd
    have hstep : (e.on fun s => s.returnClaim x.slot) = Event.giveUp h false e x := by
      unfold Event.giveUp
      rw [hp]
      simp [hc]
    rw [List.map_cons, List.foldl_cons, List.foldl_cons, hstep]
    refine ih _ hnd.2 fun y hy => ?_
    rw [Event.giveUp_slots, if_neg fun hyx : y.slot = x.slot => hnd.1 (hyx ▸ List.mem_map_of_mem hy)]
    exact hx y (List.mem_cons_of_mem _ hy)

theorem State.returnClaim_entries (s : State) (n : SlotNo) : (s.returnClaim n).entries = s.entries := by
  unfold State.returnClaim
  split
  · rfl
  · rw [State.unholdBy_rest]
    rfl

theorem Event.returnClaims_headWork (ns : List SlotNo) (e : Event) :
    e.state.HeadWork (ns.foldl (fun e n => e.on fun s => s.returnClaim n) e).state ∧
      (ns.foldl (fun e n => e.on fun s => s.returnClaim n) e).state.entries = e.state.entries := by
  induction ns generalizing e with
  | nil => exact ⟨.refl _, rfl⟩
  | cons n ns ih =>
    obtain ⟨hwork, hentries⟩ := ih (e.on fun s => s.returnClaim n)
    exact ⟨(e.state.returnClaim_headWork n).trans hwork, hentries.trans (e.state.returnClaim_entries n)⟩

section
variable (e : Event) (h : Head)

theorem Event.faultHead_headWork : e.state.HeadWork (e.faultHead h).state :=
  (Event.returnClaims_headWork (e.state.claimedSlots h) e).1.trans
    (State.updHead_headWork _ h (f := fun c => { c with state := .fault }) rfl)

theorem Event.faultHead_entries : (e.faultHead h).state.entries = e.state.entries :=
  (Event.returnClaims_headWork (e.state.claimedSlots h) e).2

theorem Event.faultHead_raises : (e.faultHead h).raised .headFault := Event.raised_raise_self _ _

theorem Event.faultHead_headState : ((e.faultHead h).state.heads[h]).state = .fault := by
  unfold Event.faultHead
  dsimp only
  rw [Event.raise_state, Event.on_state, State.updHead_heads, get_set, if_pos rfl]

variable (hnd : ((e.state.heads[h]).held.map Held.slot).Nodup)
  (hall : ∀ x ∈ (e.state.heads[h]).held, ∃ p, e.state.slots[x.slot] = some p ∧ p.head = some h ∧ p.state = .claimed)

include hnd hall

/-- A head that faults while it holds claims alone gives up all it holds. -/
theorem Event.faultHead_eq (hslots : e.state.claimedSlots h = (e.state.heads[h]).held.map Held.slot) :
    e.faultHead h = (((e.state.heads[h]).held.foldl (Event.giveUp h false) e).on fun s =>
      s.updHead h fun c => { c with state := .fault }).raise .headFault := by
  unfold Event.faultHead
  rw [hslots, Event.returnClaims_eq_giveUps h _ e hnd fun x hx => by
    obtain ⟨p, hp, _, hc⟩ := hall x hx
    exact ⟨p, hp, hc⟩]

/-- Every claim goes back, no other record changes, and the head holds nothing (R100, R155). -/
theorem Event.faultHead_gives (hslots : e.state.claimedSlots h = (e.state.heads[h]).held.map Held.slot) :
    (∀ m, (e.faultHead h).state.slots[m] =
      if m ∈ (e.state.heads[h]).held.map Held.slot then (e.state.slots[m]).map Placement.givenUp else e.state.slots[m]) ∧
    ((e.faultHead h).state.heads[h]).held = [] ∧ ∀ m, e.raised m → (e.faultHead h).raised m := by
  obtain ⟨hrecords, hheld, hkeeps, _⟩ := Event.giveUps h false (e.state.heads[h]).held e hnd fun x hx => by
    obtain ⟨p, hp, hh, hc⟩ := hall x hx
    exact ⟨p, hp, hh, by rw [hc]; decide⟩
  rw [e.faultHead_eq h hnd hall hslots]
  refine ⟨hrecords, ?_, fun m hm => Event.raised_raise _ _ _ (hkeeps m hm)⟩
  rw [Event.raise_state, Event.on_state, State.updHead_heads, get_set, if_pos rfl]
  refine (hheld h).trans ?_
  rw [if_pos rfl, List.filter_eq_nil_iff]
  intro y hy
  simpa using ⟨y, hy, rfl⟩

end

/-! ### The owner -/

theorem headPort_accepts_cutFailed (h : Head) : Kind.cutFailed.accepts (headPort h) = true := by
  revert h
  decide

section
variable {pl : List Byte} {s : State} {h : Head}

theorem cutFailedOwner_range (hk : 1 < u8 pl 1 ∨ 1 < u8 pl 4) : cutFailedOwner (headPort h) pl s = (s, .refuse .range) := by
  unfold cutFailedOwner
  dsimp only
  split
  · rfl
  · rename_i k hx
    exact if_pos (hk.resolve_left fun hr => by rw [index?_none hr] at hx; cases hx)

variable {p : Port} (hp : portHead p = h) {k : Ctx} (hk : u8 pl 1 = k.val) (hb : u8 pl 4 ≤ 1)

include hp hk hb

theorem cutFailedOwner_notCutting
    (hx : ∀ x r, s.heldBy h (u8 pl 0) k (u16 pl 2) = some (x, r) → r.state ≠ .cutting) :
    cutFailedOwner p pl s = (s, .refuse .notHeld) := by
  subst hp
  unfold cutFailedOwner
  rw [index?_of_eq k hk]
  dsimp only
  rw [if_neg (Nat.not_lt.mpr hb)]
  split
  · rfl
  · rename_i x r hr
    exact if_pos (hx x r hr)

theorem cutFailedOwner_accepts {x : Held} {r : Placement} (hx : s.heldBy h (u8 pl 0) k (u16 pl 2) = some (x, r))
    (hr : r.state = .cutting) : cutFailedOwner p pl s = (s.cutFailed h x.slot (u8 pl 4 = 1),
      .accept (enc1 x.slot.val ++ enc1 ((s.cutFailed h x.slot (u8 pl 4 = 1)).heads[h]).state.code ++
        encSlot? (if u8 pl 4 = 1 then (s.claimedSlots h).head? else none))) := by
  subst hp
  unfold cutFailedOwner
  rw [index?_of_eq k hk]
  dsimp only
  rw [if_neg (Nat.not_lt.mpr hb), hx]
  exact if_neg (not_not.mpr hr)

end

theorem exec_cutFailed_refuses {s : State} {h : Head} {pl : List Byte} {c : Code} (ht : s.takes (headPort h))
    (hl : pl.length = 5) (ho : cutFailedOwner (headPort h) pl (s.hunt (headPort h)) = (s.hunt (headPort h), .refuse c)) :
    exec (.cutFailed (headPort h) pl) s = .next (s.refused .cutFailed (headPort h) c) :=
  request_refuses .cutFailed cutFailedOwner (headPort h) pl s c ht (headPort_accepts_cutFailed h) (decide_eq_true hl) ho

/-! ### The piece's fault -/

theorem Event.spoil_headState (e : Event) (n : SlotNo) (c : Cause) (h : Head) :
    ((e.spoil n c).state.heads[h]).state = (e.state.heads[h]).state := by
  rw [(Event.spoil_pieces e n c).head h]

section
variable {s : State} {h : Head} {n : SlotNo} {p : Placement} (hp : s.slots[n] = some p) (hs : p.state = .cutting)
  (hh : p.head = some h)

include hp hs hh

/-- The piece is spoiled, and its head stays as it was, without the slot (R155). -/
theorem State.pieceFault_spoils :
    (s.cutFailed h n false).slots = s.slots.set n (some { p with state := .spoiled, cause := some .pieceFault }) ∧
    s.raises (s.cutFailed h n false) .pieceSpoiled ∧
    ((s.cutFailed h n false).heads[h]).state = (s.heads[h]).state ∧
    ((s.cutFailed h n false).heads[h]).held = (s.heads[h]).held.filter (fun y => y.slot ≠ n) ∧
    (s.cutFailed h n false).entries = s.entries.map fun x => if x.tag = p.tag then
      { x with live := x.live - 1, spoiled := min 255 (x.spoiled + 1) } else x := by
  have hstate : s.cutFailed h n false = settle s (s.begin.spoil n .pieceFault) := rfl
  have hheld := Event.spoil_held_of_cutting (e := s.begin) hp hs hh .pieceFault h
  rw [hstate, settle_slots, settle_entries, settle_headState, settle_held]
  exact ⟨Event.spoil_slots_of (e := s.begin) hp _,
    settle_raises s _ _ (s.begin.spoil_headWork n .pieceFault).notices (Event.spoil_raises (e := s.begin) hp _),
    s.begin.spoil_headState n .pieceFault h, hheld.trans (if_pos rfl),
    Event.spoil_entries_of_cutting (e := s.begin) hp hs _⟩

end

/-! ### The head's fault -/

/-- The head's other slots are CLAIMED by it. -/
def State.claimsBut (s : State) (h : Head) (n : SlotNo) : Prop :=
  ∀ y ∈ (s.heads[h]).held, y.slot ≠ n → ∃ q, s.slots[y.slot] = some q ∧ q.head = some h ∧ q.state = .claimed

/-- The event of a head's fault before its tail. -/
def State.headFault (s : State) (h : Head) (n : SlotNo) : Event := (s.begin.spoil n .headFault).faultHead h

theorem State.headFault_headWork (s : State) (h : Head) (n : SlotNo) : s.HeadWork (s.headFault h n).state :=
  (s.begin.spoil_headWork n .headFault).trans (Event.faultHead_headWork _ h)

section
variable {s : State} {h : Head} {n : SlotNo} {p : Placement} (hp : s.slots[n] = some p) (hs : p.state = .cutting)

include hp hs

theorem State.claimsBut.claimedSlots (hall : s.claimsBut h n) :
    s.claimedSlots h = ((s.heads[h]).held.filter fun y => y.slot ≠ n).map Held.slot := by
  refine State.claimedSlots_eq (fun q hq => ?_) fun y hy hyn => ?_
  · rw [← Option.some.inj (hp.symm.trans hq), hs]
    decide
  · obtain ⟨q, hq, _, hc⟩ := hall y hy hyn
    exact ⟨q, hq, hc⟩

variable (hh : p.head = some h) (hnd : ((s.heads[h]).held.map Held.slot).Nodup) (hall : s.claimsBut h n)

include hh hnd hall

/-- After the piece is spoiled the head faults with the claims it had beside it. -/
theorem State.headFault_gives :
    (∀ m, (s.headFault h n).state.slots[m] =
      if m ∈ ((s.heads[h]).held.filter fun y => y.slot ≠ n).map Held.slot then (s.slots[m]).map Placement.givenUp
      else if m = n then some { p with state := .spoiled, cause := some .headFault } else s.slots[m]) ∧
    ((s.headFault h n).state.heads[h]).held = [] ∧
    ∀ m, (s.begin.spoil n .headFault).raised m → (s.headFault h n).raised m := by
  have hheld : ((s.begin.spoil n .headFault).state.heads[h]).held = (s.heads[h]).held.filter fun y => y.slot ≠ n :=
    (Event.spoil_held_of_cutting (e := s.begin) hp hs hh .headFault h).trans (if_pos rfl)
  have hslot : ∀ m, (s.begin.spoil n .headFault).state.slots[m] =
      if m = n then some { p with state := .spoiled, cause := some .headFault } else s.slots[m] := fun m => by
    rw [Event.spoil_slots_of (e := s.begin) hp]
    exact get_set _ _ _ _
  have hclaims : ∀ y ∈ (s.heads[h]).held.filter fun y => y.slot ≠ n, ∃ q,
      (s.begin.spoil n .headFault).state.slots[y.slot] = some q ∧ q.head = some h ∧ q.state = .claimed := fun y hy => by
    rw [hslot, if_neg (mem_filter_slot_ne hy)]
    exact hall y (List.mem_filter.mp hy).1 (mem_filter_slot_ne hy)
  have hclaimed : (s.begin.spoil n .headFault).state.claimedSlots h =
      ((s.heads[h]).held.filter fun y => y.slot ≠ n).map Held.slot := by
    refine (State.claimedSlots_eq (n := n) (fun q hq => ?_) fun y hy _ => ?_).trans ?_
    · rw [hslot, if_pos rfl] at hq
      rw [← Option.some.inj hq]
      exact nofun
    · obtain ⟨q, hq, _, hc⟩ := hclaims y (hheld ▸ hy)
      exact ⟨q, hq, hc⟩
    · rw [hheld, List.filter_filter]
      simp only [Bool.and_self]
  obtain ⟨hrecords, hnone, hkeeps⟩ := Event.faultHead_gives (s.begin.spoil n .headFault) h
    (by rw [hheld]; exact hnd.sublist (List.filter_sublist.map _)) (by rw [hheld]; exact hclaims) (by rw [hheld]; exact hclaimed)
  refine ⟨fun m => ?_, hnone, hkeeps⟩
  refine (hrecords m).trans ?_
  rw [hheld]
  split
  · rename_i hm
    obtain ⟨y, hy, rfl⟩ := List.mem_map.mp hm
    rw [hslot, if_neg (mem_filter_slot_ne hy)]
  · exact hslot m

/-- The piece is spoiled, the head is FAULT and every claim it had is PLACED again (R155). -/
theorem State.headFault_spoils :
    (s.cutFailed h n true).slots[n] = some { p with state := .spoiled, cause := some .headFault } ∧
    (∀ y ∈ (s.heads[h]).held, y.slot ≠ n → ∀ q, s.slots[y.slot] = some q →
      (s.cutFailed h n true).slots[y.slot] = some { q with state := .placed, head := none }) ∧
    (∀ m : SlotNo, n ≠ m → (∀ y ∈ (s.heads[h]).held, y.slot ≠ m) → (s.cutFailed h n true).slots[m] = s.slots[m]) ∧
    ((s.cutFailed h n true).heads[h]).state = .fault ∧ ((s.cutFailed h n true).heads[h]).held = [] ∧
    ((s.cutFailed h n true).heads[h]).timer = none ∧ s.raises (s.cutFailed h n true) .headFault ∧
    s.raises (s.cutFailed h n true) .pieceSpoiled ∧
    (s.cutFailed h n true).entries = s.entries.map fun x => if x.tag = p.tag then
      { x with live := x.live - 1, spoiled := min 255 (x.spoiled + 1) } else x := by
  have hstate : s.cutFailed h n true = settle s (s.headFault h n) := rfl
  have hnotices := (s.headFault_headWork h n).notices
  obtain ⟨hrecords, hheld, hkeeps⟩ := State.headFault_gives hp hs hh hnd hall
  rw [hstate, settle_slots, settle_entries, settle_headState, settle_held]
  refine ⟨?_, fun y hy hyn q hq => ?_, fun m hnm hm => ?_, Event.faultHead_headState _ h, hheld,
    settle_timer_none s hheld, settle_raises s _ _ hnotices (Event.faultHead_raises _ h),
    settle_raises s _ _ hnotices (hkeeps _ (Event.spoil_raises (e := s.begin) hp _)), ?_⟩
  · rw [hrecords, if_neg, if_pos rfl]
    intro hm
    obtain ⟨y, hy, hyn⟩ := List.mem_map.mp hm
    exact mem_filter_slot_ne hy hyn
  · obtain ⟨r, hr, _, hc⟩ := hall y hy hyn
    obtain rfl := Option.some.inj (hr.symm.trans hq)
    rw [hrecords, if_pos (List.mem_map_of_mem (List.mem_filter.mpr ⟨hy, decide_eq_true hyn⟩)), hq, Option.map_some]
    unfold Placement.givenUp
    rw [if_neg (by rw [hc]; decide)]
  · rw [hrecords, if_neg, if_neg hnm.symm]
    intro hin
    obtain ⟨y, hy, hym⟩ := List.mem_map.mp hin
    exact hm y (List.mem_filter.mp hy).1 hym
  · exact (Event.faultHead_entries _ h).trans (Event.spoil_entries_of_cutting (e := s.begin) hp hs _)

end

theorem State.cutFailed_headsOnly (s : State) (h : Head) (n : SlotNo) (b : Bool) : s.HeadsOnly (s.cutFailed h n b) := by
  cases b with
  | false => exact (s.begin.spoil_headWork n .pieceFault).settle
  | true => exact (s.headFault_headWork h n).settle

/-- Settles O42: the piece is spoiled, and with cause HEAD its head faults and gives up what else it held. -/
theorem cutFailedSpoils : Obligations.CutFailedSpoils := by
  refine ⟨?_, ?_⟩
  · rintro _ pl s h rfl ht hl
    exact ⟨fun hk => exec_cutFailed_refuses ht hl (cutFailedOwner_range hk), fun k hk hb hx =>
      exec_cutFailed_refuses ht hl (cutFailedOwner_notCutting (s := s.hunt _) (portHead_headPort h) hk hb hx)⟩
  · rintro _ pl s h k x r rfl ht hl hk hx hr hh
    obtain ⟨hmem, hp⟩ := heldBy_held hx
    have hexec : ∀ hb : u8 pl 4 ≤ 1, exec (.cutFailed (headPort h) pl) s = _ := fun hb =>
      request_accepts .cutFailed cutFailedOwner (headPort h) pl s _ _ ht (headPort_accepts_cutFailed h)
        (decide_eq_true hl) (cutFailedOwner_accepts (s := s.hunt _) (portHead_headPort h) hk hb hx hr)
    refine ⟨fun h0 => ?_, fun h1 hnd hall => ?_⟩
    · have hexec := hexec (by omega)
      have hcause : decide (u8 pl 4 = 1) = false := by rw [h0]; rfl
      obtain ⟨hslots, hraises, hstate, hheld, hentries⟩ := State.pieceFault_spoils (s := s.hunt (headPort h)) hp hr hh
      have hrest := (s.hunt (headPort h)).cutFailed_headsOnly h x.slot false
      rw [hcause, hstate, if_neg (by omega)] at hexec
      exact ⟨_, hexec, hslots, hraises, hstate, hheld, hentries, State.repliedFrom_owe _ _ _ _ _ hrest.ports, hrest.timed,
        hrest.settings, hrest.steady, hrest.marks, hrest.planes, hrest.patterns, hrest.withdrawn⟩
    · have hexec := hexec (by omega)
      have hcause : decide (u8 pl 4 = 1) = true := decide_eq_true h1
      obtain ⟨hspoiled, hplaced, hother, hstate, hheld, htimer, hfault, hraises, hentries⟩ :=
        State.headFault_spoils (s := s.hunt (headPort h)) hp hr hh hnd hall
      have hrest := (s.hunt (headPort h)).cutFailed_headsOnly h x.slot true
      have hclaimed := State.claimsBut.claimedSlots (s := s.hunt (headPort h)) hp hr hall
      rw [hcause, hstate, if_pos h1, hclaimed, List.head?_map] at hexec
      exact ⟨_, hexec, hspoiled, hplaced, fun n hn => hother n (hn x hmem) hn, hstate, hheld, htimer, hfault, hraises,
        hentries, State.repliedFrom_owe _ _ _ _ _ hrest.ports, hrest.timed, hrest.settings, hrest.steady, hrest.marks,
        hrest.planes, hrest.patterns, hrest.withdrawn⟩

end Sys2Proof.Machine
end

section
/-!
PROOFS. SET WEIGHTS: the request that writes the three weights of the Placement Search and nothing else (R97).
-/

namespace Sys2Proof.Machine

open Sys2Proof

/-- SET WEIGHTS takes exactly three bytes, on the control port alone (R97, R187). -/
theorem Kind.setWeights_lengthOk (pl : List Byte) : Kind.setWeights.lengthOk pl = true ↔ pl.length = 3 := by
  simp [Kind.lengthOk]

/-- Settles O25, a request's outcome by outcome: taken, of another length, with the part FAILED; and a sample by its
definition. -/
theorem setWeightsWrites : Obligations.SetWeightsWrites := by
  unfold Obligations.SetWeightsWrites
  refine ⟨fun pl s h hl => ?taken, fun pl s h hl => ?length, fun pl s h hf => ?failed, fun _ _ _ => rfl, rfl,
    fun s h => ?reset⟩
  case taken =>
    exact request_accepts .setWeights setWeightsOwner 0 pl s _ _ h rfl ((Kind.setWeights_lengthOk pl).mpr hl) rfl
  case length =>
    refine request_refused .setWeights setWeightsOwner 0 pl s .length h.1 ?_
    have hlen : Kind.setWeights.lengthOk pl = false :=
      Bool.eq_false_iff.mpr fun hok => hl ((Kind.setWeights_lengthOk pl).mp hok)
    rw [h.2, commonRefusal, hlen]
    rfl
  case failed =>
    refine request_refused .setWeights setWeightsOwner 0 pl s .state h ?_
    rw [hf]
    rfl
  case reset => exact ⟨_, exec_partReset h, rfl⟩

end Sys2Proof.Machine
end

section
/-!
PROOFS. PLACEMENT WITHDRAW (R104, R110): the one record it recasts, the tail of its event, and the requests it refuses.
-/

namespace Sys2Proof.Machine

open Sys2Proof

/-! ### A record that is withdrawn -/

/-- A record as a withdrawal leaves it (R104). -/
def Placement.withdrawn (p : Placement) (c : Cause) : Placement := { p with state := .withdrawn, cause := some c }

section
variable {p : Placement} (hs : p.state = .placed ∨ p.state = .claimed) (c : Cause)
include hs

theorem Placement.gone_withdrawn : p.gone (p.withdrawn c) = true := by
  unfold Placement.gone
  rcases hs with hs | hs <;> rw [hs] <;> rfl

theorem Entry.moved_withdrawn (x : Entry) : x.moved p.state .withdrawn = x.loseLive := by
  rcases hs with hs | hs <;> rw [hs] <;> rfl

end

/-- The withdrawal of a PLACED or CLAIMED record, as an event of its own, before its tail. -/
theorem Event.withdraw_recast {e : Event} {n : SlotNo} {p : Placement} (hp : e.state.slots[n] = some p)
    (hs : p.state = .placed ∨ p.state = .claimed) (c : Cause) :
    (e.withdraw n c).state = e.state.recast n p (p.withdrawn c) :=
  (Event.withdraw_recasts (told := fun _ => False) hp hs c fun _ => id).state

/-! ### The event of a withdrawal -/

section
variable {s : State} {n : SlotNo} {p : Placement} (hp : s.slots[n] = some p)
  (hs : p.state = .placed ∨ p.state = .claimed) (c : Cause)
include hp hs

/-- What a withdrawal leaves is, its tail aside, the record recast after the scan went on. -/
theorem State.withdrawSlot_tail : State.Tail (s.advanceScan.recast n p (p.withdrawn c)) (s.withdrawSlot n c) := by
  have hp' : s.advanceScan.begin.state.slots[n] = some p := s.advanceScan_slots ▸ hp
  have htail : State.Tail _ (s.withdrawSlot n c) := settle_tail s.advanceScan (s.advanceScan.begin.withdraw n c)
  rwa [Event.withdraw_recast hp' hs c] at htail

theorem State.withdrawSlot_slots : (s.withdrawSlot n c).slots = s.slots.set n (some (p.withdrawn c)) := by
  rw [(State.withdrawSlot_tail hp hs c).slots, State.recast_slots, State.advanceScan_slots]

theorem State.withdrawSlot_planes :
    (s.withdrawSlot n c).planes = s.planes.set p.ctx (Plane.vacate s.planes[p.ctx] n) := by
  rw [(State.withdrawSlot_tail hp hs c).planes, State.recast_planes, if_pos (Placement.gone_withdrawn hs c),
    State.advanceScan_planes]

theorem State.withdrawSlot_marks : (s.withdrawSlot n c).marks = s.marks.set p.ctx 0 := by
  rw [(State.withdrawSlot_tail hp hs c).marks, State.recast_marks, if_pos (Placement.gone_withdrawn hs c),
    State.advanceScan_marks]

theorem State.withdrawSlot_withdrawn : (s.withdrawSlot n c).withdrawn = s.withdrawn ++ [n] := by
  rw [(State.withdrawSlot_tail hp hs c).withdrawn, State.recast_withdrawn, if_pos (Placement.gone_withdrawn hs c),
    State.advanceScan_withdrawn]

theorem State.withdrawSlot_entries : (s.withdrawSlot n c).entries =
    s.entries.map fun e => if e.tag = p.tag then { e with live := e.live - 1 } else e := by
  have hmoved : ∀ x : Entry, x.moved p.state (p.withdrawn c).state = { x with live := x.live - 1 } :=
    Entry.moved_withdrawn hs
  rw [(State.withdrawSlot_tail hp hs c).entries, State.recast_entries, State.advanceScan_entries]
  simp only [hmoved]

theorem State.withdrawSlot_pieces : State.Pieces s.advanceScan (s.advanceScan.recast n p (p.withdrawn c)) := by
  have hp' : s.advanceScan.begin.state.slots[n] = some p := s.advanceScan_slots ▸ hp
  rw [← State.begin_state s.advanceScan, ← Event.withdraw_recast hp' hs c]
  exact Event.withdraw_pieces ..

/-- A withdrawal of a claim takes its slot from the head that held it (R143). -/
theorem State.withdrawSlot_held (hc : p.state = .claimed) {h : Head} (hh : p.head = some h) :
    ((s.withdrawSlot n c).heads[h]).held = (s.heads[h]).held.filter fun x => x.slot ≠ n := by
  have hdropped : p.dropped (p.withdrawn c) = true := by
    unfold Placement.dropped
    rw [hc]
    rfl
  rw [(State.withdrawSlot_tail hp hs c).head, State.recast_held, if_pos ⟨hdropped, hh⟩, State.advanceScan_heads]

theorem State.withdrawSlot_raises {m : Notice} (hm : p.tells (p.withdrawn c) m) : s.raises (s.withdrawSlot n c) m := by
  have hp' : s.advanceScan.begin.state.slots[n] = some p := s.advanceScan_slots ▸ hp
  refine settle_raises s.advanceScan _ m ?_
    ((Event.withdraw_recasts (told := fun _ => False) hp' hs c fun _ => id).tells m hm)
  rw [(Event.withdraw_pieces s.advanceScan.begin n c).rest]
  exact s.advanceScan_notices

theorem State.withdrawSlot_sameSettings : s.sameSettings (s.withdrawSlot n c) :=
  State.sameSettings_trans s.advanceScan_sameSettings (State.sameSettings_trans
    (State.withdrawSlot_pieces hp hs c).sameSettings (State.withdrawSlot_tail hp hs c).sameSettings)

theorem State.withdrawSlot_steady : s.steady (s.withdrawSlot n c) :=
  State.steady_trans s.advanceScan_steady (State.steady_trans
    (State.withdrawSlot_pieces hp hs c).steady (State.withdrawSlot_tail hp hs c).steady)

theorem State.withdrawSlot_patterns : (s.withdrawSlot n c).patterns = s.patterns := by
  rw [(State.withdrawSlot_tail hp hs c).patterns, (State.withdrawSlot_pieces hp hs c).rest]
  exact s.advanceScan_patterns

theorem State.withdrawSlot_ports : (s.withdrawSlot n c).ports = s.ports := by
  rw [(State.withdrawSlot_tail hp hs c).ports, (State.withdrawSlot_pieces hp hs c).rest]
  exact s.advanceScan_ports

end

/-! ### The request -/

section
variable {s : State} {pl : List Byte}

theorem placementWithdrawOwner_range (h : 1 < u8 pl 1) : placementWithdrawOwner 0 pl s = (s, .refuse .range) := by
  unfold placementWithdrawOwner
  rw [index?_none (show 2 ≤ u8 pl 1 from h)]

variable {n : SlotNo} {k : Ctx} (hn : u8 pl 0 = n.val) (hk : u8 pl 1 = k.val)
include hn hk

theorem placementWithdrawOwner_free (h : s.slots[n] = none) :
    placementWithdrawOwner 0 pl s = (s, .refuse .notFound) := by
  unfold placementWithdrawOwner
  rw [index?_of_eq k hk, index?_of_eq n hn]
  dsimp only
  rw [h]

theorem placementWithdrawOwner_record {p : Placement} (hp : s.slots[n] = some p) : placementWithdrawOwner 0 pl s =
    if p.ctx ≠ k || p.commitNo ≠ BitVec.ofNat 16 (u16 pl 2) then (s, .refuse .notFound)
    else if p.state = .placed || p.state = .claimed then
      (s.withdrawSlot n .request, .accept (enc1 n.val ++ enc1 p.state.code ++ encHead? p.head))
    else (s, .refuse .state) := by
  unfold placementWithdrawOwner
  rw [index?_of_eq k hk, index?_of_eq n hn]
  dsimp only
  rw [hp]

theorem placementWithdrawOwner_stale {p : Placement} (hp : s.slots[n] = some p)
    (h : p.ctx ≠ k ∨ p.commitNo.toNat ≠ u16 pl 2) : placementWithdrawOwner 0 pl s = (s, .refuse .notFound) := by
  have hlt : u16 pl 2 < 65536 := by
    have h2 := u8_lt pl 2
    have h3 := u8_lt pl (2 + 1)
    unfold u16
    omega
  have hne : p.ctx ≠ k ∨ p.commitNo ≠ BitVec.ofNat 16 (u16 pl 2) := by
    refine h.imp_right fun hc he => hc ?_
    rw [he, BitVec.toNat_ofNat]
    exact Nat.mod_eq_of_lt hlt
  rw [placementWithdrawOwner_record hn hk hp]
  exact if_pos (by simpa using hne)

end

section
variable {s : State} {pl : List Byte} {n : SlotNo} {p : Placement} (hn : u8 pl 0 = n.val) (hk : u8 pl 1 = p.ctx.val)
  (hc : BitVec.ofNat 16 (u16 pl 2) = p.commitNo) (hp : s.slots[n] = some p)
include hn hk hc hp

theorem placementWithdrawOwner_ended (h1 : p.state ≠ .placed) (h2 : p.state ≠ .claimed) :
    placementWithdrawOwner 0 pl s = (s, .refuse .state) := by
  rw [placementWithdrawOwner_record hn hk hp, if_neg (by simp [hc]), if_neg (by simp [h1, h2])]

theorem placementWithdrawOwner_accepts (hs : p.state = .placed ∨ p.state = .claimed) :
    placementWithdrawOwner 0 pl s =
      (s.withdrawSlot n .request, .accept (enc1 n.val ++ enc1 p.state.code ++ encHead? p.head)) := by
  rw [placementWithdrawOwner_record hn hk hp, if_neg (by simp [hc]), if_pos (by simpa using hs)]

end

theorem exec_placementWithdraw_refuses {s : State} {pl : List Byte} {c : Code} (ht : s.takes 0) (hl : pl.length = 4)
    (ho : placementWithdrawOwner 0 pl (s.hunt 0) = (s.hunt 0, .refuse c)) :
    exec (.placementWithdraw 0 pl) s = .next (s.refused .placementWithdraw 0 c) :=
  request_refuses .placementWithdraw placementWithdrawOwner 0 pl s c ht rfl (decide_eq_true hl) ho

/-- A withdrawn record's cells are free afterwards and no other cell of its map changes. -/
theorem State.withdrawSlot_cell {s : State} {n : SlotNo} {p : Placement} (hp : s.slots[n] = some p)
    (hs : p.state = .placed ∨ p.state = .claimed) (c : Cause) (hw : s.planesWf) (a : Nat) :
    ((s.withdrawSlot n c).planes[p.ctx]).read a = ((s.planes[p.ctx]).read a).vacated n := by
  rw [State.withdrawSlot_planes hp hs, get_set, if_pos rfl, Plane.read_vacate _ _ _ (hw _)]

/-- Settles O30: the checks one by one, and the one record that an accepted request recasts. -/
theorem placementWithdrawGivesUp : Obligations.PlacementWithdrawGivesUp := by
  refine ⟨fun pl s ht hl => ⟨fun h => ?range, fun n k hn hk h => ?stale⟩,
    fun pl s n r ht hl hn hr hk hc => ⟨fun h1 h2 => ?ended, fun hs hw => ?taken⟩⟩
  case range => exact exec_placementWithdraw_refuses ht hl (placementWithdrawOwner_range h)
  case stale =>
    refine exec_placementWithdraw_refuses ht hl ?_
    cases hr : s.slots[n] with
    | none => exact placementWithdrawOwner_free (s := s.hunt 0) hn hk hr
    | some r => exact placementWithdrawOwner_stale (s := s.hunt 0) hn hk hr (h r hr)
  case ended =>
    exact exec_placementWithdraw_refuses ht hl (placementWithdrawOwner_ended (s := s.hunt 0) hn hk hc hr h1 h2)
  case taken =>
    have hexec : exec (.placementWithdraw 0 pl) s = _ := request_accepts .placementWithdraw placementWithdrawOwner 0 pl s
      _ _ ht rfl (decide_eq_true hl) (placementWithdrawOwner_accepts (s := s.hunt 0) hn hk hc hr hs)
    have hr' : (s.hunt 0).slots[n] = some r := hr
    have hgone : r.gone (r.withdrawn .request) = true := Placement.gone_withdrawn hs .request
    have hhead : encHead? r.head = enc1 (match r.head with | none => 255 | some h => h.val + 1) := by
      cases r.head <;> rfl
    rw [hhead] at hexec
    refine ⟨_, hexec, State.withdrawSlot_slots hr' hs .request, State.withdrawSlot_cell hr' hs .request hw,
      fun j hj => ⟨?_, ?_⟩, ?_, State.withdrawSlot_withdrawn hr' hs .request, State.withdrawSlot_entries hr' hs .request,
      State.withdrawSlot_raises hr' hs .request (.inl ⟨hgone, .inl rfl⟩),
      fun h hclaimed hh => ⟨State.withdrawSlot_raises hr' hs .request (.inl ⟨hgone, .inr ⟨h, hclaimed, hh, rfl⟩⟩),
        State.withdrawSlot_held hr' hs .request hclaimed hh⟩,
      State.repliedFrom_owe _ _ _ _ _ (State.withdrawSlot_ports hr' hs .request),
      State.withdrawSlot_sameSettings hr' hs .request, State.withdrawSlot_steady hr' hs .request,
      State.withdrawSlot_patterns hr' hs .request⟩
    · rw [State.owe_planes, State.withdrawSlot_planes hr' hs, get_set, if_neg hj]
      rfl
    · rw [State.owe_marks, State.withdrawSlot_marks hr' hs, get_set, if_neg hj]
      rfl
    · rw [State.owe_marks, State.withdrawSlot_marks hr' hs, get_set, if_pos rfl]

end Sys2Proof.Machine
end

section
/-!
PROOFS. HEAD ONLINE and HEAD OFFLINE (R144, R145): a head comes to work, and one that leaves work gives up what it holds.
-/

namespace Sys2Proof.Machine

open Sys2Proof

/-! ### Counting what a head or a piece loses -/

/-- What befalls a live record outside a downgrade: a claim goes back, a waiting piece is missed, a cut is spoiled. -/
def PlacementState.loses (a b : PlacementState) : Prop :=
  (a = .claimed ∧ b = .placed) ∨ (a = .placed ∧ b = .missed) ∨ (a = .cutting ∧ b = .spoiled)

/-- What that makes of the record's entry (R62). -/
def Entry.lost (b : PlacementState) (x : Entry) : Entry :=
  match b with
  | .missed => x.loseLive
  | .spoiled => x.spoilCutting
  | _ => x

/-- One more record changes: it counts by the state it began in, if it goes the way counted. -/
theorem State.went_change {s t u : State} {n : SlotNo} {p₀ p q : Placement} (hs : s.slots[n] = some p₀)
    (ht : t.slots[n] = some p) (hu : u.slots = t.slots.set n (some q)) (x : Tag) (a : List PlacementState)
    {b : PlacementState} (hb : p.state ≠ b) :
    s.went u x a b = s.went t x a b + (decide (p₀.tag = x) && decide (p₀.state ∈ a) && decide (q.state = b)).toNat := by
  have hperm : List.Perm (List.finRange 256) (n :: (List.finRange 256).erase n) :=
    List.perm_cons_erase (List.mem_finRange n)
  unfold State.went
  rw [hperm.countP_eq, hperm.countP_eq, toNat_countP_cons, toNat_countP_cons]
  have hrest : ((List.finRange 256).erase n).countP (fun m => (s.slots[m]).any fun r =>
      decide (r.tag = x) && decide (r.state ∈ a) && (u.slots[m]).any fun y => decide (y.state = b)) =
      ((List.finRange 256).erase n).countP fun m => (s.slots[m]).any fun r =>
        decide (r.tag = x) && decide (r.state ∈ a) && (t.slots[m]).any fun y => decide (y.state = b) := by
    refine List.countP_congr fun m hm => ?_
    have hne : m ≠ n := ((List.nodup_finRange 256).mem_erase_iff.mp hm).1
    rw [hu, get_set, if_neg hne]
  rw [hrest, hs, ht, hu, get_set, if_pos rfl]
  simp [hb]

/-- The entries' counts follow a loss, whether or not the record was given back before (R62). -/
theorem State.recounted_loss {s t u : State} {n : SlotNo} {p₀ p q : Placement} (hs : s.slots[n] = some p₀)
    (ht : t.slots[n] = some p) (htag : p.tag = p₀.tag)
    (hsince : p.state = p₀.state ∨ (p₀.state = .claimed ∧ p.state = .placed)) (hq : p.state.loses q.state)
    (hu : u.slots = t.slots.set n (some q))
    (he : u.entries = t.entries.map fun x => if x.tag = p.tag then x.lost q.state else x)
    (h : s.recounted t) : s.recounted u := by
  have hmissed : p.state ≠ .missed := by rcases hq with ⟨h, _⟩ | ⟨h, _⟩ | ⟨h, _⟩ <;> rw [h] <;> decide
  have hspoiled : p.state ≠ .spoiled := by rcases hq with ⟨h, _⟩ | ⟨h, _⟩ | ⟨h, _⟩ <;> rw [h] <;> decide
  have hwithdrawn : p.state ≠ .withdrawn := by rcases hq with ⟨h, _⟩ | ⟨h, _⟩ | ⟨h, _⟩ <;> rw [h] <;> decide
  rw [State.recounted_iff] at h ⊢
  rw [he, h, List.map_map]
  refine List.map_congr_left fun e _ => ?_
  simp only [Function.comp]
  rw [State.went_change hs ht hu e.tag _ hwithdrawn, State.went_change hs ht hu e.tag _ hmissed,
    State.went_change hs ht hu e.tag _ hspoiled, State.went_change hs ht hu e.tag _ hspoiled,
    State.went_change hs ht hu e.tag _ hspoiled]
  generalize s.went t e.tag [.placed, .claimed] .withdrawn = w
  generalize s.went t e.tag [.placed, .claimed] .missed = m
  generalize s.went t e.tag [.cutting] .spoiled = c
  generalize s.went t e.tag [.cut] .spoiled = d
  generalize s.went t e.tag [.cutting, .cut] .spoiled = z
  have htag' : (e.recounted w m c d z).tag = e.tag := rfl
  rw [htag', htag]
  by_cases hp : e.tag = p₀.tag
  · rw [if_pos hp]
    rcases hq with ⟨_, hq⟩ | ⟨hp1, hq⟩ | ⟨hp1, hq⟩
    · rw [hq]
      simp [Entry.lost]
    · have hp₀ : p₀.state ∈ [PlacementState.placed, .claimed] := by
        rcases hsince with h | ⟨h, _⟩
        · rw [← h, hp1]
          decide
        · rw [h]
          decide
      rw [hq]
      simp [Entry.lost, hp₀, hp.symm, Entry.recounted, Entry.loseLive]
      omega
    · have hp₀ : p₀.state = .cutting := by
        rcases hsince with h | ⟨_, h⟩
        · exact h.symm.trans hp1
        · rw [hp1] at h
          cases h
      rw [hq, hp₀]
      simp only [Entry.lost, Entry.recounted_spoilCutting]
      simp [hp.symm]
  · rw [if_neg hp]
    simp [Ne.symm hp]

/-! ### What a head gives up -/

section
variable (h : Head) (b : Bool) (e : Event) (x : Held)

theorem Event.giveUp_state : (Event.giveUp h b e x).state = match e.state.slots[x.slot] with
    | none => e.state
    | some p => if p.state = .cutting then (e.spoil x.slot .headOffline).state else e.state.returnClaim x.slot := by
  unfold Event.giveUp
  cases e.state.slots[x.slot] with
  | none => rfl
  | some p =>
    dsimp only
    cases b <;> split <;> rfl

theorem Event.giveUp_headWork : e.state.HeadWork (Event.giveUp h b e x).state := by
  rw [Event.giveUp_state]
  split
  · exact .refl _
  · split
    · exact e.spoil_headWork _ _
    · exact e.state.returnClaim_headWork _

theorem Event.giveUps_headWork (xs : List Held) (e : Event) :
    e.state.HeadWork (xs.foldl (Event.giveUp h b) e).state := by
  induction xs generalizing e with
  | nil => exact .refl _
  | cons x xs ih => exact (Event.giveUp_headWork h b e x).trans (ih _)

theorem Event.giveUps_headState (xs : List Held) (g : Head) :
    ((xs.foldl (Event.giveUp h b) e).state.heads[g]).state = (e.state.heads[g]).state := by
  rw [(Event.foldl_pieces _ (Event.giveUp_pieces h b) xs e).head g]

/-- A held slot given up is a loss of its record: a claim goes back, a cut is spoiled. -/
theorem Event.giveUp_recounted {s : State} {p : Placement} (hs : s.slots[x.slot] = some p)
    (hp : e.state.slots[x.slot] = some p) (hh : p.state = .claimed ∨ p.state = .cutting)
    (hr : s.recounted e.state) : s.recounted (Event.giveUp h b e x).state := by
  rw [Event.giveUp_state, hp]
  dsimp only
  by_cases hc : p.state = .cutting
  · rw [if_pos hc]
    refine State.recounted_loss hs hp rfl (.inl rfl) (.inr (.inr ⟨hc, rfl⟩)) (Event.spoil_slots_of hp .headOffline) ?_ hr
    exact Event.spoil_entries_of_cutting hp hc _
  · rw [if_neg hc]
    refine State.recounted_loss hs hp rfl (.inl rfl) (.inl ⟨hh.resolve_right hc, rfl⟩) (by
      rw [State.returnClaim_slots, hp]) ?_ hr
    rw [State.returnClaim_entries]
    exact (List.map_id'' (fun y => by split <;> rfl) _).symm

theorem Event.giveUps_recounted {s : State} (xs : List Held) (hnd : (xs.map Held.slot).Nodup) (e : Event)
    (hx : ∀ x ∈ xs, ∃ p, s.slots[x.slot] = some p ∧ e.state.slots[x.slot] = some p ∧ p.heldBy h)
    (hr : s.recounted e.state) : s.recounted (xs.foldl (Event.giveUp h b) e).state := by
  induction xs generalizing e with
  | nil => exact hr
  | cons x xs ih =>
    rw [List.map_cons, List.nodup_cons] at hnd
    obtain ⟨p, hs, hp, _, hstate⟩ := hx x List.mem_cons_self
    refine ih hnd.2 _ (fun y hy => ?_) (Event.giveUp_recounted h b e x hs hp hstate hr)
    rw [Event.giveUp_slots, if_neg fun hyx : y.slot = x.slot => hnd.1 (hyx ▸ List.mem_map_of_mem hy)]
    exact hx y (List.mem_cons_of_mem _ hy)

end

/-! ### The owners -/

theorem headPort_accepts_online (h : Head) : Kind.headOnline.accepts (headPort h) = true := by
  revert h
  decide

theorem headPort_accepts_offline (h : Head) : Kind.headOffline.accepts (headPort h) = true := by
  revert h
  decide

section
variable {p : Port} {h : Head} (hp : portHead p = h) (s : State) (pl : List Byte)

include hp

theorem headOnlineOwner_refuses (hi : (s.heads[h]).interlock = .inactive) :
    headOnlineOwner p pl s = (s, .refuse .state) := by
  subst hp
  exact if_pos hi

theorem headOnlineOwner_accepts (hi : (s.heads[h]).interlock = .active) :
    headOnlineOwner p pl s = (s.bringOnline h, .accept (enc1 (s.heads[h]).state.code ++
      encFlag (s.conveyor.reach[h]).present ++ encFlag ((s.bringOnline h).workAvailable h))) := by
  subst hp
  exact if_neg (by rw [hi]; decide)

theorem headOfflineOwner_eq : headOfflineOwner p pl s = (s.leaveWork h,
    .accept (enc1 (s.heads[h]).state.code ++ pairBytes (s.claimedSlots h) ++ encSlot? (s.cuttingSlot h))) := by
  subst hp
  rfl

end

/-! ### HEAD ONLINE: the event -/

section
variable (s : State) (h : Head)

theorem State.bringOnline_headWork :
    s.HeadWork (s.updHead h fun c => { c with state := .ready }).begin.state :=
  State.updHead_headWork s h (f := fun c => { c with state := .ready }) rfl

theorem State.bringOnline_state (g : Head) :
    ((s.bringOnline h).heads[g]).state = if g = h then .ready else (s.heads[g]).state := by
  unfold State.bringOnline
  rw [settle_headState]
  refine (congrArg HeadChannel.state ((congrArg (·[g]) (State.updHead_heads ..)).trans (get_set _ _ _ _))).trans ?_
  split <;> rfl

theorem State.bringOnline_held (g : Head) : ((s.bringOnline h).heads[g]).held = (s.heads[g]).held := by
  unfold State.bringOnline
  rw [settle_held]
  exact (s.updHead_quiet h (f := fun c => { c with state := .ready }) rfl).held g

theorem State.bringOnline_samePieces : s.samePieces (s.bringOnline h) :=
  (settle_tail s (s.updHead h fun c => { c with state := .ready }).begin).samePieces

/-! ### HEAD OFFLINE: the event -/

theorem State.leaveWork_headWork : s.HeadWork (s.begin.takeOffline h false).state :=
  (Event.giveUps_headWork h false _ s.begin).trans
    (State.updHead_headWork _ h (f := fun c => { c with state := .offline }) rfl)

theorem State.leaveWork_headsOnly : s.HeadsOnly (s.leaveWork h) := (s.leaveWork_headWork h).settle

theorem State.leaveWork_state (g : Head) :
    ((s.leaveWork h).heads[g]).state = if g = h then .offline else (s.heads[g]).state := by
  unfold State.leaveWork
  rw [settle_headState]
  refine (congrArg HeadChannel.state ((congrArg (·[g]) (State.updHead_heads ..)).trans (get_set _ _ _ _))).trans ?_
  split
  · rfl
  · exact Event.giveUps_headState h false s.begin _ g

variable (hnd : ((s.heads[h]).held.map Held.slot).Nodup)
  (hall : ∀ x ∈ (s.heads[h]).held, ∃ p, s.slots[x.slot] = some p ∧ p.heldBy h)

include hnd hall

/-- The records and held lists of a head that leaves work (R145). -/
theorem State.leaveWork_gives :
    (∀ m, (s.leaveWork h).slots[m] =
      if m ∈ (s.heads[h]).held.map Held.slot then (s.slots[m]).map Placement.givenUp else s.slots[m]) ∧
    (∀ g, ((s.leaveWork h).heads[g]).held = if g = h then [] else (s.heads[g]).held) ∧
    ∀ x ∈ (s.heads[h]).held, ∀ p, s.slots[x.slot] = some p → p.state = .cutting →
      s.raises (s.leaveWork h) .pieceSpoiled := by
  obtain ⟨hslots, hheld, _, hspoils⟩ := Event.giveUps h false (s.heads[h]).held s.begin hnd fun x hx => by
    obtain ⟨p, hp, hh, hs⟩ := hall x hx
    exact ⟨p, hp, hh, by rcases hs with hs | hs <;> rw [hs] <;> decide⟩
  unfold State.leaveWork
  refine ⟨fun m => ?_, fun g => ?_, fun x hx p hp hc => ?_⟩
  · rw [settle_slots]
    exact hslots m
  · rw [settle_held]
    have hoff : ((s.begin.takeOffline h false).state.heads[g]).held =
        (((s.heads[h]).held.foldl (Event.giveUp h false) s.begin).state.heads[g]).held :=
      (State.updHead_quiet _ h (f := fun c => { c with state := .offline }) rfl).held g
    rw [hoff, hheld g]
    split
    · rename_i hg
      subst hg
      rw [List.filter_eq_nil_iff]
      intro y hy
      simpa using ⟨y, hy, rfl⟩
    · rfl
  · exact settle_raises s _ _ (s.leaveWork_headWork h).notices (hspoils x hx p hp hc)

theorem State.leaveWork_recounted : s.recounted (s.leaveWork h) := by
  have hevent : s.recounted ((s.heads[h]).held.foldl (Event.giveUp h false) s.begin).state :=
    Event.giveUps_recounted h false _ hnd s.begin (fun x hx => by
      obtain ⟨p, hp, hh⟩ := hall x hx
      exact ⟨p, hp, hp, hh⟩) s.recounted_refl
  unfold State.leaveWork
  exact State.recounted_congr rfl rfl (settle_slots ..) (settle_entries ..) hevent

theorem State.leaveWork_timer : ((s.leaveWork h).heads[h]).timer = none := by
  obtain ⟨_, hheld, _⟩ := s.leaveWork_gives h hnd hall
  exact settle_timer_none s ((settle_held ..).symm.trans ((hheld h).trans (if_pos rfl)))

/-- What becomes of one record the head held. -/
theorem State.leaveWork_slot {x : Held} {p : Placement} (hx : x ∈ (s.heads[h]).held) (hp : s.slots[x.slot] = some p) :
    (s.leaveWork h).slots[x.slot] = some p.givenUp := by
  obtain ⟨hslots, _⟩ := s.leaveWork_gives h hnd hall
  rw [hslots, if_pos (List.mem_map_of_mem hx), hp, Option.map_some]

end

/-- Settles O38: a head comes to work with what it holds, or leaves it and gives all that up. -/
theorem headOnlineAndOffline : Obligations.HeadOnlineAndOffline := by
  refine ⟨?online, ?offline⟩
  case online =>
    rintro _ s h rfl ht
    refine ⟨fun hi => ?_, fun hi => ?_⟩
    · exact request_refuses .headOnline headOnlineOwner (headPort h) [] s .state ht (headPort_accepts_online h) rfl
        (headOnlineOwner_refuses (portHead_headPort h) (s.hunt _) [] hi)
    · have hexec : exec (.headOnline (headPort h) []) s = _ := request_accepts .headOnline headOnlineOwner (headPort h) []
        s _ _ ht (headPort_accepts_online h) rfl
        (headOnlineOwner_accepts (portHead_headPort h) (s.hunt (headPort h)) [] hi)
      have hrest := ((s.hunt (headPort h)).bringOnline_headWork h).settle
      have hstate := (s.hunt (headPort h)).bringOnline_state h
      have hheld := (s.hunt (headPort h)).bringOnline_held h
      exact ⟨_, hexec, (hstate h).trans (if_pos rfl), hheld h, fun g hg => ⟨(hstate g).trans (if_neg hg), hheld g⟩,
        State.repliedFrom_owe _ _ _ _ _ hrest.ports, hrest.timed, hrest.settings, hrest.steady, hrest.marks,
        (s.hunt (headPort h)).bringOnline_samePieces h⟩
  case offline =>
    rintro _ s h rfl ht hnd hall
    have hexec : exec (.headOffline (headPort h) []) s = _ := request_accepts .headOffline headOfflineOwner (headPort h)
      [] s _ _ ht (headPort_accepts_offline h) rfl (headOfflineOwner_eq (portHead_headPort h) (s.hunt (headPort h)) [])
    obtain ⟨hslots, hheld, hspoils⟩ := (s.hunt (headPort h)).leaveWork_gives h hnd hall
    have hstate := (s.hunt (headPort h)).leaveWork_state h
    have hrest := (s.hunt (headPort h)).leaveWork_headsOnly h
    refine ⟨_, hexec, (hstate h).trans (if_pos rfl), (hheld h).trans (if_pos rfl),
      (s.hunt (headPort h)).leaveWork_timer h hnd hall, fun x r hx hr => ?_,
      fun n hn => (hslots n).trans (if_neg ?_), fun g hg => ⟨(hstate g).trans (if_neg hg), (hheld g).trans (if_neg hg)⟩,
      State.repliedFrom_owe _ _ _ _ _ hrest.ports, (s.hunt (headPort h)).leaveWork_recounted h hnd hall, hrest.timed,
      hrest.settings, hrest.steady, hrest.marks, hrest.planes, hrest.withdrawn, hrest.patterns⟩
    · have hgiven := (s.hunt (headPort h)).leaveWork_slot h hnd hall hx hr
      unfold Placement.givenUp at hgiven
      exact ⟨fun hc => hgiven.trans (by rw [if_neg (by rw [hc]; decide)]), fun hc =>
        ⟨hgiven.trans (by rw [if_pos hc]), hspoils x hx r hr hc⟩⟩
    · intro hin
      obtain ⟨y, hy, hyn⟩ := List.mem_map.mp hin
      exact hn y hy hyn

end Sys2Proof.Machine
end

section
/-!
PROOFS. PART STATUS, NOTICE READ, LINE STATUS and PLACEMENT READ (R116, R170, R175, R185, R188, R190): the number
fields, the groups of bytes, and the requests that answer with them.
-/

namespace Sys2Proof.Machine

open Sys2Proof

/-! ### Number fields (R188) -/

theorem enc1_number (n : Nat) (h : n < 256) : ∃ a : Byte, enc1 n = [a] ∧ a.toNat = n :=
  ⟨BitVec.ofNat 8 n, rfl, by rw [BitVec.toNat_ofNat]; omega⟩

theorem enc2_number (n : Nat) (h : n < 65536) : ∃ a b : Byte, enc2 n = [a, b] ∧ a.toNat + 256 * b.toNat = n :=
  ⟨BitVec.ofNat 8 n, BitVec.ofNat 8 (n / 256), rfl, by simp only [BitVec.toNat_ofNat]; omega⟩

theorem enc3_number (n : Nat) (h : n < 16777216) :
    ∃ a b c : Byte, enc3 n = [a, b, c] ∧ a.toNat + 256 * b.toNat + 65536 * c.toNat = n :=
  ⟨BitVec.ofNat 8 n, BitVec.ofNat 8 (n / 256), BitVec.ofNat 8 (n / 65536), rfl, by
    simp only [BitVec.toNat_ofNat]; omega⟩

theorem enc4_number (n : Nat) (h : n < 4294967296) : ∃ a b c d : Byte,
    enc4 n = [a, b, c, d] ∧ a.toNat + 256 * b.toNat + 65536 * c.toNat + 16777216 * d.toNat = n :=
  ⟨BitVec.ofNat 8 n, BitVec.ofNat 8 (n / 256), BitVec.ofNat 8 (n / 65536), BitVec.ofNat 8 (n / 16777216), rfl, by
    simp only [BitVec.toNat_ofNat]; omega⟩

/-- A signed field carries the number modulo its width. -/
theorem signed_fields (z : Int) : encS2 z = enc2 (z % 65536).toNat ∧ encS4 z = enc4 (z % 4294967296).toNat := by
  unfold encS2 encS4
  rw [BitVec.toNat_ofInt, BitVec.toNat_ofInt]
  exact ⟨rfl, rfl⟩

theorem regionOf_code (n : Nat) : (regionOf n).code = n % 4 := by
  have hlt : n % 4 < 4 := Nat.mod_lt _ (by decide)
  unfold regionOf
  generalize n % 4 = m at hlt
  match m, hlt with
  | 0, _ | 1, _ | 2, _ | 3, _ => rfl

/-! ### The groups of PART STATUS (R185) -/

section
variable (s : State)

theorem State.ctxBytes_eq (k : Ctx) : s.ctxBytes k = enc1 (s.ctxs[k]).state.code ++ encFlag (s.ctxs[k]).aborted ++
      enc1 (match (s.ctxs[k]).drainCause with | none => 255 | some .request => 0 | some .exhausted => 1) ++
      enc1 (match (s.ctxs[k]).rank with | none => 255 | some .first => 0 | some .second => 1) ++
      encFlag (s.ctxs[k]).registered ++ enc2 (s.ctxs[k]).frontier ++
      enc2 (if (s.ctxs[k]).registered then s.travel k else 0) ++ enc2 (s.floor k) := by
  have htravel : (if (s.ctxs[k]).registered then s.travel k else 0) = s.travel k := by
    split
    · rfl
    · rename_i h
      exact (if_neg h).symm
  rw [htravel]
  unfold State.ctxBytes drainCode rankCode
  rfl

theorem State.headBytes_eq (h : Head) : s.headBytes h = enc1 (s.heads[h]).state.code ++
      ([0, 1].flatMap fun (i : Nat) => match ((s.heads[h]).held)[i]? with
        | none => enc2 65535 ++ [255]
        | some x => enc2 x.slot.val ++ enc1 (((s.slots[x.slot]).map fun r => r.state.code).getD 0)) ++
      enc1 (s.heads[h]).interlock.code ++ encFlag (s.workAvailable h) := rfl

theorem State.statusBytes_of_ne_starting (h : s.condition ≠ .starting) :
    s.statusBytes = enc1 s.condition.code ++ enc2 s.mismatches ++ s.searchUnit.bytes ++
      s.ctxBytes 0 ++ s.ctxBytes 1 ++ encFlag s.gate.holding ++ encFlag s.gate.armed ++ s.headBytes 0 ++
      s.headBytes 1 ++ enc1 s.encErrors := by
  unfold State.statusBytes State.workBytes
  rw [if_neg h]
  simp only [List.append_assoc]

end

/-! ### The groups at power-up (R185) -/

theorem State.reset_ctxBytes (k : Ctx) : State.reset.ctxBytes k = [0, 0, 255, 255, 0] ++ List.replicate 6 0 := by
  have hctx : State.reset.ctxs[k] = HideContext.reset := get_replicate ..
  have htravel : State.reset.travel k = 0 := if_neg (by rw [hctx]; decide)
  have hfloor : State.reset.floor k = 0 := if_neg (by rw [hctx]; decide)
  unfold State.ctxBytes
  rw [htravel, hfloor, hctx]
  rfl

theorem State.reset_headBytes (h : Head) : State.reset.headBytes h = [0] ++ List.replicate 6 255 ++ [0, 0] := by
  have hhead : State.reset.heads[h] = HeadChannel.reset := get_replicate ..
  have hwork : State.reset.workAvailable h = false := State.workAvailable_eq_false (by rw [hhead]; decide)
  unfold State.headBytes State.heldWithStates
  rw [hwork, hhead]
  rfl

theorem State.reset_workBytes : State.reset.workBytes = [0, 255, 255, 255] ++
    ([0, 0, 255, 255, 0] ++ List.replicate 6 0) ++ ([0, 0, 255, 255, 0] ++ List.replicate 6 0) ++ [0, 1] ++
    ([0] ++ List.replicate 6 255 ++ [0, 0]) ++ ([0] ++ List.replicate 6 255 ++ [0, 0]) ++ [0] := by
  unfold State.workBytes
  rw [State.reset_ctxBytes, State.reset_ctxBytes, State.reset_headBytes, State.reset_headBytes]
  rfl

theorem State.statusBytes_starting {s : State} (h : s.condition = .starting) :
    s.statusBytes = [0] ++ enc2 s.mismatches ++ [0, 255, 255, 255] ++
      ([0, 0, 255, 255, 0] ++ List.replicate 6 0) ++ ([0, 0, 255, 255, 0] ++ List.replicate 6 0) ++ [0, 1] ++
      ([0] ++ List.replicate 6 255 ++ [0, 0]) ++ ([0] ++ List.replicate 6 255 ++ [0, 0]) ++ [0] := by
  unfold State.statusBytes
  rw [if_pos h, State.reset_workBytes, h]
  rfl

/-! ### The fields of a line (R170) -/

/-- The argument of a line's output source. -/
theorem Line.argument_eq (l : Line) : l.argument = match l.source with
    | .constant v => if v then 1 else 0
    | .staged => if l.applied then 1 else 0
    | .attention p => p.val
    | .workAvailable h => h.val + 1
    | .hideOpen k => k.val
    | .gateHold | .fault | .searchBusy | .partReady => 0 := by
  unfold Line.argument
  cases l.source <;> rfl

theorem State.lineBytes_eq (s : State) (l : Line) : s.lineBytes l =
    (match l.work with | .input _ _ => [0] | .output _ _ => [1]) ++ encFlag l.invert ++ enc1 l.debounce ++
      enc1 l.function.code ++ enc1 l.source.code ++ enc1 l.argument ++ enc1 l.width ++
      (match l.work with
        | .input d c => encFlag l.pin ++ encFlag d ++ encFlag c.isSome ++ [255, 255, 255]
        | .output d h => encFlag d ++ [255, 255] ++ encFlag (xor (s.sourceValue l.applied l.source) l.invert) ++
            encFlag d ++ encFlag h.isSome) ++
      (if l.source = .staged then
        encFlag l.applied ++ (match l.pendingStaged with | none => [255] | some v => encFlag v)
       else [255, 255]) := by
  have hstaged : encLevel? l.pendingStaged = match l.pendingStaged with | none => [255] | some v => encFlag v := by
    cases l.pendingStaged with
    | none => rfl
    | some v => cases v <;> rfl
  unfold State.lineBytes Line.configBytes Line.sensed
  rw [hstaged]
  cases hw : l.work with
  | input d c =>
    simp only [List.append_assoc]
    rfl
  | output d h =>
    simp only [List.append_assoc]
    rfl

/-! ### PLACEMENT READ (R190) -/

section
variable {s : State} {n : SlotNo}

theorem State.withdrawnPosition_of_not_mem (h : n ∉ s.withdrawn) : s.withdrawnPosition n = 65535 :=
  if_neg (by simpa using h)

theorem State.withdrawnPosition_eq {before after : List SlotNo} (h : s.withdrawn = before ++ n :: after)
    (hn : n ∉ before) : s.withdrawnPosition n = before.length := by
  unfold State.withdrawnPosition
  rw [h, if_pos (by simp), List.idxOf_append_of_notMem hn, List.idxOf_cons_self, Nat.add_zero]

theorem exec_placementRead {p : Port} {pl : List Byte} (h : s.takesRead p) (hl : pl.length = 1) (hn : u8 pl 0 = n.val) :
    exec (.placementRead p pl) s = .next (s.answered .placementRead p (s.placementBytes n)) := by
  refine request_read_accepts h rfl rfl (decide_eq_true hl) ?_
  unfold placementReadAnswer
  rw [index?_of_eq n hn]
  rfl

end

/-! ### The requests without operands -/

theorem exec_partStatus {p : Port} {s : State} (h : (s.ports[p]).owed = none) :
    exec (.partStatus p []) s = .next (s.answered .partStatus p s.statusBytes) := by
  have hcommon : commonRefusal .partStatus p [] s.condition = none := by
    generalize s.condition = c
    cases c <;> rfl
  exact request_owner .partStatus _ p [] s h hcommon

theorem exec_noticeRead {p : Port} {s : State} (h : s.takesRead p) :
    exec (.noticeRead p []) s = .next (s.answered .noticeRead p (s.notices[p]).bytes) :=
  request_read_accepts h rfl (rfl) rfl rfl

theorem exec_lineStatus {p : Port} {s : State} (h : s.takesRead p) :
    exec (.lineStatus p []) s = .next (s.answered .lineStatus p s.linesBytes) :=
  request_read_accepts h rfl (rfl) rfl rfl

/-- Settles O6, group by group. -/
theorem statusAndPlacementReadsReply : Obligations.StatusAndPlacementReadsReply := by
  refine ⟨?codes, ?fields, ?reads, ?status, State.lineBytes_eq, ?position, ?placement⟩
  case codes =>
    exact ⟨rfl, rfl, fun _ => rfl, fun _ => rfl, rfl, rfl, rfl, rfl, rfl, rfl, fun _ => rfl, rfl, rfl, rfl,
      fun _ _ _ => rfl, fun _ _ _ _ => rfl, fun _ _ => rfl, rfl, rfl, rfl, rfl, regionOf_code, rfl, rfl, rfl, rfl, rfl,
      fun _ => rfl, rfl, fun _ => rfl, rfl, rfl, fun _ => rfl, fun _ => rfl, fun _ => rfl, rfl, rfl⟩
  case fields =>
    exact ⟨fun _ _ => rfl, enc1_number, enc2_number, enc3_number, enc4_number, signed_fields, rfl, rfl, rfl,
      fun _ => rfl, rfl, fun _ => rfl⟩
  case reads =>
    intro p s h
    exact ⟨exec_partStatus h, fun hc => ⟨exec_noticeRead ⟨h, hc⟩, exec_lineStatus ⟨h, hc⟩⟩⟩
  case status =>
    intro s
    refine ⟨State.statusBytes_starting, s.statusBytes_of_ne_starting, fun h => ?_, fun q h => ?_, fun q h => ?_,
      s.ctxBytes_eq, s.headBytes_eq⟩
    · rw [h]
      rfl
    · rw [h]
      rfl
    · rw [h]
      rfl
  case position =>
    exact fun s n => ⟨State.withdrawnPosition_of_not_mem, fun _ _ => State.withdrawnPosition_eq⟩
  case placement =>
    intro p pl s n h hl hn
    rw [exec_placementRead h hl hn]
    unfold State.placementBytes
    refine ⟨fun hr => ?_, fun r hr => ?_⟩
    · rw [hr]
      rfl
    · rw [hr]
      rfl

end Sys2Proof.Machine
end

section
/-!
PROOFS. The third law can break under GRADE RUNS: nothing that the statement assumes bounds a drawing, and two covered
cells of different regions of one with more columns than a plane can have one address. The downgrade check (R106) tests
the signalled cell by one of the two regions alone.
-/

namespace Sys2Proof.Machine

open Sys2Proof

/-! ### A drawing wider than the plane -/

/-- A drawing of 769 × 2 with two covered cells: (768, 0), of its edge, and (0, 1), of its face. The edge asks for grade 5,
the face for grade 1. -/
def wideDrawing : Pattern :=
  { state := .ready, w := 769, h := 2, mask := [List.replicate 768 .outside ++ [.edge], [.face]], kind := 0,
    face := { minGrade := 1, tolerated := BitVec.allOnes 8 }, hidden := { minGrade := 1, tolerated := BitVec.allOnes 8 },
    edge := { minGrade := 5, tolerated := BitVec.allOnes 8 }, orients := 1, covered := 2, reserved := 1538, refs := 1 }

theorem getD_replicate_concat {α : Type} (w i : Nat) (a b : α) (h : i ≤ w) :
    (List.replicate w a ++ [b]).getD i a = if i = w then b else a := by
  split
  · rename_i hi
    rw [hi, List.getD_append_right _ _ _ _ (by simp)]
    simp
  · rw [List.getD_append _ _ _ _ (by simp; omega), List.getD_replicate _ (by omega)]

theorem wideDrawing_edgeRow (i : Nat) (h : i < 769) : wideDrawing.code i 0 = if i = 768 then .edge else .outside :=
  getD_replicate_concat 768 i Region.outside Region.edge (by omega)

theorem wideDrawing_faceRow (i : Nat) : wideDrawing.code i 1 = if i = 0 then .face else .outside := by
  cases i <;> rfl

theorem wideDrawing_covered {ijr : Nat × Nat × Region} :
    ijr ∈ wideDrawing.coveredCells 0 ↔ ijr = (0, 1, .face) ∨ ijr = (768, 0, .edge) := by
  obtain ⟨i, j, r⟩ := ijr
  rw [Pattern.mem_coveredCells]
  show i < 769 ∧ j < 2 ∧ r = wideDrawing.code i j ∧ r ≠ .outside ↔ _
  constructor
  · rintro ⟨hi, hj, rfl, hne⟩
    match j, hj with
    | 0, _ =>
      rw [wideDrawing_edgeRow i hi] at hne ⊢
      by_cases h : i = 768
      · simp [h]
      · simp [h] at hne
    | 1, _ =>
      rw [wideDrawing_faceRow] at hne ⊢
      by_cases h : i = 0
      · simp [h]
      · simp [h] at hne
  · rintro (h | h)
    · obtain ⟨rfl, rfl, rfl⟩ : i = 0 ∧ j = 1 ∧ r = .face := by simpa using h
      exact ⟨by decide, by decide, rfl, by decide⟩
    · obtain ⟨rfl, rfl, rfl⟩ : i = 768 ∧ j = 0 ∧ r = .edge := by simpa using h
      exact ⟨by decide, by decide, (wideDrawing_edgeRow 768 (by decide)).symm, by decide⟩

/-- Its piece at the origin, PLACED in slot 0. -/
def widePiece : Placement :=
  { state := .placed, ctx := 0, tag := 0, pattern := 0, orient := 0, xlo := 0, ylo := 0, wo := 769, ho := 2, covered := 2,
    score := 0, commitNo := 0, head := none, tainted := false, cause := none }

/-- The one cell under both covered cells, of grade 5. -/
def widePlane : Plane := [(768, { base := 5, cap := 7, classes := 0, occupant := some 0 })]

/-- The piece lies on an open hide of 1 × 2 cells, and a GRADE RUNS that gives cell (0, 1) grade 3 is next. -/
def wideState : State :=
  { State.reset with
    pending := [.gradeRuns 1 [0, 1, 0, 0, 0, 1, 48]], condition := .ready,
    planes := #v[widePlane, []],
    ctxs := #v[{ HideContext.reset with state := .opened, width := 1, height := 2, rank := some .first }, HideContext.reset],
    patterns := State.reset.patterns.set 0 wideDrawing, slots := State.reset.slots.set 0 (some widePiece) }

theorem wideState_slot (n : SlotNo) (p : Placement) : wideState.slots[n] = some p ↔ n = 0 ∧ p = widePiece := by
  have hslot : wideState.slots[n] = if n = 0 then some widePiece else State.reset.slots[n] :=
    get_set State.reset.slots 0 n (some widePiece)
  have hnone : State.reset.slots[n] = none := get_replicate ..
  rw [hslot, hnone]
  split
  · rename_i hn
    simp [hn, eq_comm]
  · rename_i hn
    simp [hn]

/-- The two cells of the piece, of which the plane has one address, 768. -/
theorem wideState_cells (x y : Nat) : (x, y) ∈ wideState.cellsOf widePiece ↔ (x, y) = (0, 1) ∨ (x, y) = (768, 0) := by
  have hcells : wideState.cellsOf widePiece =
      (wideDrawing.coveredCells 0).map fun ijr => (0 + ijr.1, 0 + ijr.2.1) := rfl
  rw [hcells, List.mem_map]
  constructor
  · rintro ⟨ijr, hm, he⟩
    rw [← he]
    rcases wideDrawing_covered.mp hm with rfl | rfl
    · exact .inl rfl
    · exact .inr rfl
  · rintro (h | h)
    · exact ⟨_, wideDrawing_covered.mpr (.inl rfl), h.symm⟩
    · exact ⟨_, wideDrawing_covered.mpr (.inr rfl), h.symm⟩

/-! ### What the statement assumes -/

theorem wideState_planesWf : wideState.planesWf := by
  decide +kernel

theorem wideState_hidesWf : wideState.hidesWf := by
  decide +kernel

theorem wideState_heldWf : wideState.heldWf := by
  have hheld : ∀ h : Head, (wideState.heads[h]).held = [] := by decide +kernel
  have hrecords : ∀ h : Head, wideState.heldRecords h = [] := by decide +kernel
  refine ⟨fun h => ⟨?_, ?_, fun x hx => ?_⟩, fun h => ?_, fun n hn => ?_⟩
  · rw [hheld]
    decide
  · rw [hrecords]
    decide
  · rw [hheld] at hx
    cases hx
  · rw [hheld]
    exact List.nodup_nil
  · cases hn

theorem wideState_flawsWf : wideState.flawsWf := by
  have hcells : ∀ k : Ctx, ∀ x, x < (wideState.ctxs[k]).width → ∀ y, y < (wideState.ctxs[k]).height →
      (wideState.cell k x y).cap = recomputedCap (appliedFlaws wideState.flaws[k]) (x, y) ∧
      (wideState.cell k x y).classes = recomputedClasses (appliedFlaws wideState.flaws[k]) (x, y) := by decide +kernel
  have hflaws : ∀ k : Ctx, wideState.flaws[k] = [] := by decide +kernel
  refine ⟨fun k x y hx hy _ _ => hcells k x hx y hy, by decide +kernel, fun k _ f hf => ?_, fun j hj => ?_,
    List.nodup_nil, fun k f hf => ?_⟩
  · rw [hflaws] at hf
    cases hf
  · cases hj
  · rw [hflaws] at hf
    cases hf

theorem wideState_lawOccupants : wideState.lawOccupants := by
  have hcells : ∀ k : Ctx, ∀ x, x < (wideState.ctxs[k]).width → ∀ y, y < (wideState.ctxs[k]).height →
      (wideState.cell k x y).occupant = if k = 0 ∧ (x, y) = (0, 1) then some 0 else none := by decide +kernel
  have hwidth : ∀ k : Ctx, (wideState.ctxs[k]).width ≤ 1 := by decide +kernel
  intro k n x y hx hy
  have hin : (x, y) ≠ (768, 0) := by
    have := hwidth k
    simp
    omega
  rw [hcells k x hx y hy]
  simp only [wideState_slot]
  constructor
  · intro h
    split at h
    · rename_i hk
      obtain ⟨rfl, hxy⟩ := hk
      exact ⟨widePiece, ⟨(Option.some.inj h).symm, rfl⟩, rfl, rfl, (wideState_cells x y).mpr (.inl hxy)⟩
    · cases h
  · rintro ⟨p, ⟨rfl, rfl⟩, rfl, _, hm⟩
    rw [if_pos ⟨rfl, ((wideState_cells x y).mp hm).resolve_right hin⟩]

theorem wideState_occupantsWf : wideState.occupantsWf := by
  refine ⟨wideState_lawOccupants, ⟨fun q hq => (by cases hq), fun q hq => (by cases hq)⟩, fun k hk a => ?_,
    fun n r hr => ?_, fun e he => (by cases he), by decide +kernel⟩
  · have hempty : ∀ k : Ctx, (wideState.ctxs[k]).state = .empty → wideState.planes[k] = [] := by decide +kernel
    rw [hempty k hk]
    rfl
  · obtain ⟨_, rfl⟩ := (wideState_slot n r).mp hr
    exact ⟨by decide +kernel, rfl⟩

theorem wideState_fitWf : wideState.fitWf := by
  refine ⟨fun n p hp _ ijr hm => ?_, ?_⟩
  · obtain ⟨rfl, rfl⟩ := (wideState_slot n p).mp hp
    rcases wideDrawing_covered.mp hm with rfl | rfl
    · decide +kernel
    · decide +kernel
  · have hcells : ∀ k : Ctx, ∀ x, x < (wideState.ctxs[k]).width → ∀ y, y < (wideState.ctxs[k]).height →
        (wideState.cell k x y).cap ≤ recomputedCap (appliedFlaws wideState.flaws[k]) (x, y) ∧
        recomputedClasses (appliedFlaws wideState.flaws[k]) (x, y) &&& ~~~(wideState.cell k x y).classes = 0 := by
      decide +kernel
    exact fun k x y hx hy => hcells k x hx y hy

/-! ### The step -/

/-- The state that the GRADE RUNS leaves. -/
def wideNext : State :=
  settleAnswer .gradeRuns 1 (gradeRunsOwner 1 [0, 1, 0, 0, 0, 1, 48] (({ wideState with pending := [] } : State).hunt 1))

theorem wideState_steps : step wideState = .next wideNext :=
  request_taken .gradeRuns gradeRunsOwner 1 [0, 1, 0, 0, 0, 1, 48] { wideState with pending := [] }
    ⟨by decide +kernel, rfl⟩ rfl (by decide)

/-- The piece is PLACED still, on a cell of a grade below what its edge asks for. -/
theorem wideNext_misfit : wideNext.slots[(0 : SlotNo)] = some widePiece ∧ wideNext.patterns[(0 : PatNo)] = wideDrawing ∧
    (wideNext.cell 0 768 0).meets wideDrawing.edge = false := by
  decide +kernel

/-- Refutes O60: GRADE RUNS lowers the cell under two covered cells, and the check asks for the face's grade alone, which
it still has. -/
theorem not_stepKeepsFitLaw : ¬ Obligations.StepKeepsFitLaw := by
  intro h
  obtain ⟨hslot, hdrawing, hmeets⟩ := wideNext_misfit
  obtain ⟨hfit, _⟩ := h wideState wideNext wideState_planesWf wideState_hidesWf (fun hc => absurd rfl hc) wideState_heldWf
    wideState_flawsWf wideState_occupantsWf wideState_fitWf wideState_steps
  have hedge : (768, 0, Region.edge) ∈ (wideNext.patterns[widePiece.pattern]).coveredCells widePiece.orient := by
    rw [show wideNext.patterns[widePiece.pattern] = wideDrawing from hdrawing]
    exact wideDrawing_covered.mpr (.inr rfl)
  obtain ⟨hm, _⟩ := hfit 0 widePiece hslot (.inl rfl) _ hedge
  rw [show wideNext.patterns[widePiece.pattern] = wideDrawing from hdrawing] at hm
  rw [show wideNext.cell widePiece.ctx (widePiece.xlo + 768) (widePiece.ylo + 0) = wideNext.cell 0 768 0 from rfl] at hm
  exact absurd (hm.symm.trans hmeets) (by decide)

end Sys2Proof.Machine
end

section
/-!
PROOFS. What heads hold, and the losses of records: a claim that goes back, a cut that is spoiled, a piece that is missed
(R100, R102, R103, R143).
-/

namespace Sys2Proof.Machine

open Sys2Proof

/-! ### What heads hold -/

/-- No head holds a slot twice, and what a head holds is CLAIMED by it or CUTTING under it (R143). -/
structure State.Gripped (s : State) : Prop where
  apart : ∀ h : Head, ((s.heads[h]).held.map Held.slot).Nodup
  holds : ∀ h : Head, ∀ x ∈ (s.heads[h]).held, ∃ p, s.slots[x.slot] = some p ∧ p.heldBy h

theorem State.heldWf.gripped {s : State} (h : s.heldWf) : s.Gripped where
  apart := h.2.1
  holds k x hx := by
    obtain ⟨_, _, hall⟩ := h.1 k
    obtain ⟨p, hp, hhead, hstate, _⟩ := hall x hx
    exact ⟨p, hp, hhead, hstate⟩

theorem State.Gripped.congr {s t : State} (h : s.Gripped) (slots : t.slots = s.slots)
    (held : ∀ g : Head, (t.heads[g]).held = (s.heads[g]).held) : t.Gripped where
  apart g := by
    rw [held]
    exact h.apart g
  holds g x hx := by
    rw [slots]
    exact h.holds g x (held g ▸ hx)

theorem State.Gripped.of_mem {s : State} (hg : s.Gripped) {h : Head} {x : Held} {p : Placement}
    (hx : x ∈ (s.heads[h]).held) (hp : s.slots[x.slot] = some p) : p.heldBy h := by
  obtain ⟨r, hr, hh⟩ := hg.holds h x hx
  obtain rfl := Option.some.inj (hp.symm.trans hr)
  exact hh

/-- A slot whose record a head does not hold is not in its list. -/
theorem State.Gripped.filter_held {s : State} (hg : s.Gripped) {h : Head} {n : SlotNo} {p : Placement}
    (hp : s.slots[n] = some p) (hn : ¬ p.heldBy h) :
    ((s.heads[h]).held.filter fun y => y.slot ≠ n) = (s.heads[h]).held := by
  rw [List.filter_eq_self]
  intro y hy
  refine decide_eq_true fun hyn => hn (hg.of_mem hy ?_)
  subst hyn
  exact hp

/-! ### Losses -/

/-- What a live record may lose: its claim, its piece under the knife, or its chance to be cut. -/
inductive Placement.Loss : Placement → Placement → Prop
  | returned {p : Placement} (h : p.state = .claimed) : Placement.Loss p { p with state := .placed, head := none }
  | spoiled {p : Placement} (h : p.state = .cutting) (c : Cause) :
      Placement.Loss p { p with state := .spoiled, cause := some c }
  | missed {p : Placement} (h : p.state = .placed) : Placement.Loss p p.missed

theorem Placement.Loss.loses {p q : Placement} (h : p.Loss q) : p.state.loses q.state := by
  cases h with
  | returned h => exact .inl ⟨h, rfl⟩
  | spoiled h c => exact .inr (.inr ⟨h, rfl⟩)
  | missed h => exact .inr (.inl ⟨h, rfl⟩)

theorem Placement.Loss.lies {p q : Placement} (h : p.Loss q) : p.lies q := by
  cases h <;> exact ⟨rfl, rfl, rfl⟩

theorem Placement.Loss.xlo {p q : Placement} (h : p.Loss q) : q.xlo = p.xlo := by
  cases h <;> rfl

/-- A record that a loss leaves PLACED was a claim. -/
theorem Placement.Loss.of_placed {p q : Placement} (h : p.Loss q) (hq : q.state = .placed) : p.state = .claimed := by
  cases h with
  | returned h => exact h
  | spoiled | missed => cases hq

/-- What a loss makes of a record is held by no head. -/
theorem Placement.Loss.not_heldBy {p q : Placement} (h : p.Loss q) (g : Head) : ¬ q.heldBy g := by
  rintro ⟨_, hs⟩
  cases h <;> rcases hs with hs | hs <;> cases hs

/-- One record comes to a loss, and no head holds its slot any longer. -/
structure State.Loses (s t : State) (n : SlotNo) (p q : Placement) : Prop where
  record : s.slots[n] = some p
  loss : p.Loss q
  rest : t = { s with slots := s.slots.set n (some q), entries := t.entries, heads := t.heads }
  entries : t.entries = s.entries.map fun x => if x.tag = p.tag then x.lost q.state else x
  head : ∀ h : Head, t.heads[h] = { s.heads[h] with held := (s.heads[h]).held.filter fun y => y.slot ≠ n }

section
variable {s t : State} {n : SlotNo} {p q : Placement} (h : s.Loses t n p q)

include h

theorem State.Loses.slots : t.slots = s.slots.set n (some q) := by
  rw [h.rest]

theorem State.Loses.slot (m : SlotNo) : t.slots[m] = if m = n then some q else s.slots[m] := by
  rw [h.slots, get_set]

theorem State.Loses.held (g : Head) : (t.heads[g]).held = (s.heads[g]).held.filter fun y => y.slot ≠ n := by
  rw [h.head g]

theorem State.Loses.mem_held {g : Head} {x : Held} : x ∈ (t.heads[g]).held ↔ x ∈ (s.heads[g]).held ∧ x.slot ≠ n := by
  rw [h.held, List.mem_filter, decide_eq_true_eq]

theorem State.Loses.gripped (hg : s.Gripped) : t.Gripped where
  apart g := by
    rw [h.held]
    exact (hg.apart g).sublist (List.filter_sublist.map _)
  holds g x hx := by
    obtain ⟨hx, hn⟩ := h.mem_held.mp hx
    rw [h.slot, if_neg hn]
    exact hg.holds g x hx

end

/-! ### The operations that bring a loss -/

section
variable {s : State} (hg : s.Gripped) {n : SlotNo} {p : Placement} (hp : s.slots[n] = some p)

include hg hp

/-- The head that holds a record is the one it names. -/
theorem State.Gripped.held_named (g : Head) :
    (if p.head = some g then (s.heads[g]).held.filter (fun y => y.slot ≠ n) else (s.heads[g]).held) =
      (s.heads[g]).held.filter fun y => y.slot ≠ n := by
  split
  · rfl
  · rename_i hh
    exact (hg.filter_held hp fun hb => hh hb.1).symm

theorem State.Gripped.returnClaim (hs : p.state = .claimed) :
    s.Loses (s.returnClaim n) n p { p with state := .placed, head := none } where
  record := hp
  loss := .returned hs
  rest := by
    have hrest := s.returnClaim_rest n
    rw [s.returnClaim_slots, hp] at hrest
    exact hrest
  entries := by
    rw [State.returnClaim_entries]
    exact (List.map_id'' (fun y => by split <;> rfl) _).symm
  head g := by
    rw [(s.returnClaim_pieces n).head g, State.returnClaim_held s n p hp, hg.held_named hp]

theorem State.Gripped.spoil {e : Event} (he : e.state = s) (hs : p.state = .cutting) (c : Cause) :
    s.Loses (e.spoil n c).state n p { p with state := .spoiled, cause := some c } := by
  subst he
  refine ⟨hp, .spoiled hs c, ?_, Event.spoil_entries_of_cutting hp hs c, fun g => ?_⟩
  · have hrest := e.spoil_rest n c
    rw [Event.spoil_slots_of hp] at hrest
    exact hrest
  · rw [(e.spoil_pieces n c).head g, Event.spoil_held e n c p hp (by rw [hs]; decide), hg.held_named hp]

theorem State.Gripped.miss {e : Event} (he : e.state = s) (hs : p.state = .placed) :
    s.Loses (e.miss n p).state n p p.missed := by
  subst he
  refine ⟨hp, .missed hs, rfl, rfl, fun g => ?_⟩
  rw [hg.filter_held hp fun hb => by rcases hb.2 with h | h <;> rw [hs] at h <;> cases h]
  rfl

end

end Sys2Proof.Machine
end

section
/-!
PROOFS. Losses of a change of cell travel (R133, R158, R159): what has become of each record, and why.
-/

namespace Sys2Proof.Machine

open Sys2Proof

/-! ### The belt -/

/-- The conveyor settings, and the registration and count of each context, stand as they stood. -/
structure State.SameBelt (v t : State) : Prop where
  conveyor : t.conveyor = v.conveyor
  registered : ∀ k : Ctx, (t.ctxs[k]).registered = (v.ctxs[k]).registered
  count : ∀ k : Ctx, (t.ctxs[k]).count = (v.ctxs[k]).count

theorem State.SameBelt.refl (s : State) : s.SameBelt s := ⟨rfl, fun _ => rfl, fun _ => rfl⟩

theorem State.SameBelt.trans {s t u : State} (h : s.SameBelt t) (g : t.SameBelt u) : s.SameBelt u :=
  ⟨g.conveyor.trans h.conveyor, fun k => (g.registered k).trans (h.registered k), fun k => (g.count k).trans (h.count k)⟩

theorem State.SameBelt.of_eq {v t : State} (hc : t.conveyor = v.conveyor) (hk : t.ctxs = v.ctxs) : v.SameBelt t := by
  refine ⟨hc, fun k => ?_, fun k => ?_⟩ <;> rw [hk]

section
variable {v t : State} (h : v.SameBelt t)

include h

theorem State.SameBelt.travel (k : Ctx) : t.travel k = v.travel k := by
  unfold State.travel
  rw [h.registered, h.count, h.conveyor]

theorem State.SameBelt.floor (k : Ctx) : t.floor k = v.floor k := by
  unfold State.floor
  rw [h.registered, h.travel, h.conveyor]

theorem State.SameBelt.reaches (g : Head) (k : Ctx) (c : Nat) : t.reaches g k c = v.reaches g k c := by
  unfold State.reaches
  rw [h.registered, h.travel, h.conveyor]

theorem State.SameBelt.fullyReaches (g : Head) (p : Placement) : t.fullyReaches g p = v.fullyReaches g p := by
  unfold State.fullyReaches
  rw [h.reaches, h.reaches]

theorem State.SameBelt.separated (p q : Placement) : t.separated p q = v.separated p q := by
  unfold State.separated State.gap
  rw [h.travel, h.travel, h.conveyor]

theorem State.SameBelt.passedAll (k : Ctx) (x : Nat) : t.passedAll k x = v.passedAll k x := by
  unfold State.passedAll State.passed
  simp only [h.travel, h.conveyor]

end

/-- A piece in reach of a head has not passed that head (R132, R133). -/
theorem State.passedAll_of_reaches {s : State} {h : Head} {k : Ctx} {x : Nat} (hr : s.reaches h k x = true) :
    s.passedAll k x = false := by
  unfold State.reaches at hr
  simp only [Bool.and_eq_true, decide_eq_true_eq] at hr
  obtain ⟨⟨⟨hpresent, _⟩, hlo⟩, _⟩ := hr
  have hno : s.passed k h x = false := decide_eq_false (by omega)
  unfold State.passedAll
  rw [Bool.and_eq_false_iff]
  right
  have hmem : ∀ g : Head, g ∈ [(0 : Head), 1] := by decide
  rw [List.all_eq_false]
  exact ⟨h, hmem h, by rw [hno, hpresent]; decide⟩

theorem State.passedAll_of_fullyReaches {s : State} {h : Head} {p : Placement} (hr : s.fullyReaches h p = true) :
    s.passedAll p.ctx p.xlo = false := by
  unfold State.fullyReaches at hr
  rw [Bool.and_eq_true] at hr
  exact State.passedAll_of_reaches hr.1

/-! ### Why a held piece goes -/

/-- A held piece is out of its head's reach: a claim not fully in it, a cut whose lowest column is out of it (R158). -/
def State.outOfReach (v : State) (h : Head) (p : Placement) : Prop :=
  (p.state = .claimed ∧ v.fullyReaches h p = false) ∨ (p.state = .cutting ∧ v.reaches h p.ctx p.xlo = false)

/-- Of the two pieces of the only short pair, a head's own is the one that goes (R159). -/
def yields (h : Head) (own other : HeldPiece) : Prop :=
  if h = 0 then takenBefore other own = false else takenBefore own other = true

/-- A held piece stands too near a piece of the other head, and if they are all that the heads hold, it is the one that
goes (R159). -/
def State.crowded (s v : State) (moved : Ctx → Prop) (h : Head) (x : Held) (p : Placement) : Prop :=
  ∃ y ∈ (s.heads[otherHead h]).held, ∃ q, s.slots[y.slot] = some q ∧ (moved p.ctx ∨ moved q.ctx) ∧
    v.separated p q = false ∧
    ((s.heads[h]).held = [x] → (s.heads[otherHead h]).held = [y] → yields h ⟨h, x, p⟩ ⟨otherHead h, y, q⟩)

/-- Why a held piece goes. -/
def State.mustGo (s v : State) (moved : Ctx → Prop) (h : Head) (x : Held) (p : Placement) : Prop :=
  (moved p.ctx ∧ v.outOfReach h p) ∨ s.crowded v moved h x p

/-- A piece carried past every head (R133). -/
def State.gonePast (v : State) (moved : Ctx → Prop) (p : Placement) : Prop :=
  moved p.ctx ∧ v.passedAll p.ctx p.xlo = true

/-- What has become of a record of slot n, its holder told. -/
inductive State.Fate (s v : State) (moved : Ctx → Prop) (told : Notice → Prop) (n : SlotNo) (p : Placement) :
    Placement → Prop
  | stays : State.Fate s v moved told n p p
  | returned (h : Head) (x : Held) (hx : x ∈ (s.heads[h]).held) (hn : x.slot = n) (hc : p.state = .claimed)
      (why : s.mustGo v moved h x p) (lost : told (.claimLost h)) :
      State.Fate s v moved told n p { p with state := .placed, head := none }
  | lost (h : Head) (x : Held) (hx : x ∈ (s.heads[h]).held) (hn : x.slot = n) (hc : p.state = .claimed)
      (why : s.mustGo v moved h x p) (lost : told (.claimLost h)) (past : v.gonePast moved p) (missed : told .pieceMissed) :
      State.Fate s v moved told n p p.missed
  | spoiled (h : Head) (x : Held) (hx : x ∈ (s.heads[h]).held) (hn : x.slot = n) (hc : p.state = .cutting)
      (why : s.mustGo v moved h x p) (aborted : told (.cutAborted h)) (spoilt : told .pieceSpoiled) :
      State.Fate s v moved told n p { p with state := .spoiled, cause := some .leftReach }
  | missed (hs : p.state = .placed) (past : v.gonePast moved p) (missed : told .pieceMissed) :
      State.Fate s v moved told n p p.missed

section
variable {s v : State} {moved : Ctx → Prop} {told : Notice → Prop} {n : SlotNo} {p q : Placement}

theorem State.Fate.mono {told' : Notice → Prop} (h : s.Fate v moved told n p q) (ht : ∀ m, told m → told' m) :
    s.Fate v moved told' n p q := by
  cases h with
  | stays => exact .stays
  | returned g x hx hn hc why lost => exact .returned g x hx hn hc why (ht _ lost)
  | lost g x hx hn hc why lost past missed => exact .lost g x hx hn hc why (ht _ lost) past (ht _ missed)
  | spoiled g x hx hn hc why aborted spoilt => exact .spoiled g x hx hn hc why (ht _ aborted) (ht _ spoilt)
  | missed hs past missed => exact .missed hs past (ht _ missed)

/-- A record that a head still holds is as it was. -/
theorem State.Fate.of_held (h : s.Fate v moved told n p q) (hq : q.state = .claimed ∨ q.state = .cutting) : q = p := by
  cases h with
  | stays => rfl
  | returned | lost | spoiled | missed => rcases hq with hq | hq <;> cases hq

/-- A PLACED record was PLACED, or is a claim that was given back. -/
theorem State.Fate.of_placed (h : s.Fate v moved told n p q) (hq : q.state = .placed) : q = p ∨
    ∃ g x, x ∈ (s.heads[g]).held ∧ x.slot = n ∧ p.state = .claimed ∧ s.mustGo v moved g x p ∧ told (.claimLost g) ∧
      q = { p with state := .placed, head := none } := by
  cases h with
  | stays => exact .inl rfl
  | returned g x hx hn hc why lost => exact .inr ⟨g, x, hx, hn, hc, why, lost, rfl⟩
  | lost | spoiled | missed => cases hq

end

/-! ### States that come of losses -/

/-- A state has come of another by losses alone, under the belt of a third. -/
structure State.Waned (s v : State) (moved : Ctx → Prop) (told : Notice → Prop) (t : State) : Prop where
  gripped : t.Gripped
  belt : v.SameBelt t
  recounted : s.recounted t
  free : ∀ n : SlotNo, s.slots[n] = none → t.slots[n] = none
  fate : ∀ (n : SlotNo) (p : Placement), s.slots[n] = some p → ∃ q, t.slots[n] = some q ∧ s.Fate v moved told n p q
  held : ∀ h : Head, (t.heads[h]).held.Sublist (s.heads[h]).held
  keeps : ∀ h : Head, ∀ x ∈ (s.heads[h]).held, ∀ p, t.slots[x.slot] = some p → p.heldBy h → x ∈ (t.heads[h]).held

section
variable {s v t : State} {moved : Ctx → Prop} {told : Notice → Prop}

/-- A state with the pieces of another has lost nothing, under its own belt. -/
theorem State.Gripped.waned {u : State} (hs : s.Gripped) (slots : u.slots = s.slots) (entries : u.entries = s.entries)
    (heads : u.heads = s.heads) : s.Waned u moved told u where
  gripped := hs.congr slots fun g => by rw [heads]
  belt := .refl _
  recounted := State.recounted_congr rfl rfl slots entries s.recounted_refl
  free n hn := by rw [slots, hn]
  fate n p hp := ⟨p, by rw [slots, hp], .stays⟩
  held g := by rw [heads]
  keeps g x hx _ _ _ := by rwa [heads]

theorem State.Waned.mono {told' : Notice → Prop} (h : s.Waned v moved told t) (ht : ∀ m, told m → told' m) :
    s.Waned v moved told' t :=
  { h with
    fate := fun n p hp => by
      obtain ⟨q, hq, hf⟩ := h.fate n p hp
      exact ⟨q, hq, hf.mono ht⟩ }

/-- What else changes is no matter. -/
theorem State.Waned.congr {u : State} (h : s.Waned v moved told t) (slots : u.slots = t.slots)
    (entries : u.entries = t.entries) (held : ∀ g : Head, (u.heads[g]).held = (t.heads[g]).held) (belt : t.SameBelt u) :
    s.Waned v moved told u where
  gripped := h.gripped.congr slots held
  belt := h.belt.trans belt
  recounted := State.recounted_congr rfl rfl slots entries h.recounted
  free n hn := by
    rw [slots]
    exact h.free n hn
  fate n p hp := by
    rw [slots]
    exact h.fate n p hp
  held g := by
    rw [held]
    exact h.held g
  keeps g x hx p hp hh := by
    rw [held]
    exact h.keeps g x hx p (slots ▸ hp) hh

/-- A record in a slot was a record before. -/
theorem State.Waned.origin (h : s.Waned v moved told t) {n : SlotNo} {q : Placement} (hq : t.slots[n] = some q) :
    ∃ p, s.slots[n] = some p ∧ s.Fate v moved told n p q := by
  cases hp : s.slots[n] with
  | none =>
    rw [h.free n hp] at hq
    cases hq
  | some p =>
    obtain ⟨r, hr, hf⟩ := h.fate n p hp
    obtain rfl := Option.some.inj (hr.symm.trans hq)
    exact ⟨p, rfl, hf⟩

/-- The record of a slot that a head holds is as it was. -/
theorem State.Waned.origin_held (h : s.Waned v moved told t) {g : Head} {x : Held} {p : Placement}
    (hx : x ∈ (t.heads[g]).held) (hp : t.slots[x.slot] = some p) : s.slots[x.slot] = some p := by
  obtain ⟨r, hr, hf⟩ := h.origin hp
  rw [hr, hf.of_held (h.gripped.of_mem hx hp).2]

/-- One more loss, of a record whose fate it continues. -/
theorem State.Waned.step {u : State} {n : SlotNo} {p q : Placement} (h : s.Waned v moved told t) (hl : t.Loses u n p q)
    (hf : ∀ r, s.slots[n] = some r → s.Fate v moved told n r p → s.Fate v moved told n r q) :
    s.Waned v moved told u where
  gripped := hl.gripped h.gripped
  belt := h.belt.trans (.of_eq (by rw [hl.rest]) (by rw [hl.rest]))
  recounted := by
    obtain ⟨r, hr, hfr⟩ := h.origin hl.record
    refine State.recounted_loss hr hl.record ?_ ?_ hl.loss.loses hl.slots hl.entries h.recounted
    · cases hfr <;> rfl
    · rcases hl.loss.loses with ⟨hs, _⟩ | ⟨hs, _⟩ | ⟨hs, _⟩
      · rw [hfr.of_held (.inl hs)]
        exact .inl rfl
      · rcases hfr.of_placed hs with hpr | ⟨_, _, _, _, hc, _⟩
        · rw [hpr]
          exact .inl rfl
        · exact .inr ⟨hc, hs⟩
      · rw [hfr.of_held (.inr hs)]
        exact .inl rfl
  free m hm := by
    rw [hl.slot, if_neg]
    · exact h.free m hm
    · rintro rfl
      have := h.free m hm
      rw [hl.record] at this
      cases this
  fate m r hr := by
    obtain ⟨r', hr', hfr⟩ := h.fate m r hr
    rw [hl.slot]
    by_cases hm : m = n
    · subst hm
      obtain rfl := Option.some.inj (hr'.symm.trans hl.record)
      exact ⟨q, if_pos rfl, hf r hr hfr⟩
    · exact ⟨r', (if_neg hm).trans hr', hfr⟩
  held g := by
    rw [hl.held]
    exact List.filter_sublist.trans (h.held g)
  keeps g x hx r hr hh := by
    rw [hl.slot] at hr
    by_cases hn : x.slot = n
    · rw [if_pos hn] at hr
      obtain rfl := Option.some.inj hr
      exact absurd hh (hl.loss.not_heldBy g)
    · rw [if_neg hn] at hr
      exact hl.mem_held.mpr ⟨h.keeps g x hx r hr hh, hn⟩

end

end Sys2Proof.Machine
end

section
/-!
PROOFS. A change of cell travel as a course of losses (R133, R158, R159): each round's losses have their reasons, and once
the context is done nothing is left to lose.
-/

namespace Sys2Proof.Machine

open Sys2Proof

/-! ### A context that is done -/

/-- A held slot of a context is in its head's reach. -/
def State.inReach (s v : State) (k : Ctx) (h : Head) (x : Held) : Prop :=
  ∀ p, s.slots[x.slot] = some p → p.ctx = k → ¬ v.outOfReach h p

/-- No held piece of a context is out of reach or too near one of the other head, and none that waits has passed every
head. -/
structure State.Cleared (s v : State) (k : Ctx) (t : State) : Prop where
  reach : ∀ h : Head, ∀ x ∈ (t.heads[h]).held, s.inReach v k h x
  apart : ∀ x ∈ (t.heads[(0 : Head)]).held, ∀ y ∈ (t.heads[(1 : Head)]).held, ∀ p q, s.slots[x.slot] = some p →
    s.slots[y.slot] = some q → (p.ctx = k ∨ q.ctx = k) → v.separated p q = true
  past : ∀ (n : SlotNo) (q : Placement), t.slots[n] = some q → q.ctx = k → q.state = .placed →
    v.passedAll k q.xlo = false

theorem State.Cleared.congr {s v t u : State} {k : Ctx} (h : s.Cleared v k t) (slots : u.slots = t.slots)
    (held : ∀ g : Head, (u.heads[g]).held = (t.heads[g]).held) : s.Cleared v k u where
  reach g x hx := h.reach g x (held g ▸ hx)
  apart x hx y hy := h.apart x (held 0 ▸ hx) y (held 1 ▸ hy)
  past n q hq := h.past n q (slots ▸ hq)

theorem State.outOfReach_claimed {v : State} {h : Head} {p : Placement} (hc : p.state = .claimed) :
    v.outOfReach h p ↔ v.fullyReaches h p = false := by
  simp [State.outOfReach, hc]

theorem State.outOfReach_cutting {v : State} {h : Head} {p : Placement} (hc : p.state = .cutting) :
    v.outOfReach h p ↔ v.reaches h p.ctx p.xlo = false := by
  simp [State.outOfReach, hc]

/-- A loss leaves a context that is done as done: a claim that goes back was in reach of its head, so it has not passed
it. -/
theorem State.Cleared.loses {s v t u : State} {k : Ctx} {n : SlotNo} {p q : Placement} (h : s.Cleared v k t)
    (hl : t.Loses u n p q) (ho : p.state = .claimed →
      ∃ g : Head, ∃ x ∈ (t.heads[g]).held, x.slot = n ∧ s.slots[n] = some p) :
    s.Cleared v k u where
  reach g x hx := h.reach g x (hl.mem_held.mp hx).1
  apart x hx y hy := h.apart x (hl.mem_held.mp hx).1 y (hl.mem_held.mp hy).1
  past m r hr hk hs := by
    rw [hl.slot] at hr
    split at hr
    · obtain rfl := Option.some.inj hr
      have hc := hl.loss.of_placed hs
      obtain ⟨g, x, hx, rfl, hp⟩ := ho hc
      have hpk : p.ctx = k := hl.loss.lies.ctx.symm.trans hk
      have hfully : v.fullyReaches g p = true :=
        Bool.not_eq_false _ ▸ fun hf => h.reach g x hx p hp hpk ((State.outOfReach_claimed hc).mpr hf)
      have hreach := State.passedAll_of_fullyReaches hfully
      rw [hpk] at hreach
      rw [hl.loss.xlo]
      exact hreach
    · exact h.past m r hr hk hs

/-! ### The course of an event -/

/-- An event has come to losses alone, and some contexts are done. -/
structure Event.Course (s v : State) (moved : Ctx → Prop) (told : Notice → Prop) (done : Ctx → Prop) (e : Event) :
    Prop where
  waned : s.Waned v moved (fun m => told m ∨ e.raised m) e.state
  cleared : ∀ j, done j → s.Cleared v j e.state

/-- No head takes a slot. -/
def Event.drops (e e' : Event) : Prop := ∀ g : Head, (e'.state.heads[g]).held.Sublist (e.state.heads[g]).held

theorem Event.drops.refl (e : Event) : e.drops e := fun _ => .refl _

theorem Event.drops.trans {e f g : Event} (h : e.drops f) (h' : f.drops g) : e.drops g :=
  fun k => (h' k).trans (h k)

section
variable {s v : State} {moved : Ctx → Prop} {told : Notice → Prop} {done : Ctx → Prop} {e : Event}

theorem Event.Course.loses {e' : Event} {n : SlotNo} {p q : Placement} (h : e.Course s v moved told done)
    (hl : e.state.Loses e'.state n p q) (hr : ∀ m, e.raised m → e'.raised m)
    (hf : ∀ r, s.slots[n] = some r → s.Fate v moved (fun m => told m ∨ e'.raised m) n r p →
      s.Fate v moved (fun m => told m ∨ e'.raised m) n r q)
    (ho : p.state = .claimed → ∃ g : Head, ∃ x ∈ (e.state.heads[g]).held, x.slot = n) :
    e'.Course s v moved told done where
  waned := (h.waned.mono fun m hm => hm.imp_right (hr m)).step hl hf
  cleared j hj := (h.cleared j hj).loses hl fun hc => by
    obtain ⟨g, x, hx, rfl⟩ := ho hc
    exact ⟨g, x, hx, rfl, h.waned.origin_held hx hl.record⟩

/-- A held piece that must go is taken from its head: a cut is spoiled, a claim goes back (R158, R159). -/
theorem Event.Course.take (h : e.Course s v moved told done) {g : Head} {x : Held} {p : Placement}
    (hx : x ∈ (e.state.heads[g]).held) (hp : e.state.slots[x.slot] = some p) (why : s.mustGo v moved g x p) {e' : Event}
    (he : e' = if p.state = .cutting then e.abortCut g x.slot .leftReach else e.loseClaim g x.slot) :
    e'.Course s v moved told done ∧ ∃ q, e.state.Loses e'.state x.slot p q := by
  have hgrip := h.waned.gripped
  have horigin := h.waned.origin_held hx hp
  have hsx := (h.waned.held g).subset hx
  by_cases hc : p.state = .cutting
  · rw [if_pos hc] at he
    subst he
    have hl := hgrip.spoil hp rfl hc .leftReach
    have hkeeps : ∀ m, e.raised m → (e.abortCut g x.slot .leftReach).raised m := fun m hm =>
      Event.raised_raise _ _ _ (Event.spoil_raised _ _ _ _ hm)
    refine ⟨h.loses (e' := e.abortCut g x.slot .leftReach) hl hkeeps (fun r hr _ => ?_) (fun hc' => ?_), _, hl⟩
    · obtain rfl := Option.some.inj (hr.symm.trans horigin)
      exact .spoiled g x hsx rfl hc why (.inr (Event.raised_raise_self _ _))
        (.inr (Event.raised_raise _ _ _ (Event.spoil_raises hp _)))
    · rw [hc] at hc'
      cases hc'
  · rw [if_neg hc] at he
    subst he
    have hclaimed := (hgrip.of_mem hx hp).claimed hc
    have hl := hgrip.returnClaim hp hclaimed
    refine ⟨h.loses (e' := e.loseClaim g x.slot) hl (fun m hm => Event.raised_raise _ _ _ hm) (fun r hr _ => ?_)
      (fun _ => ⟨g, x, hx, rfl⟩), _, hl⟩
    obtain rfl := Option.some.inj (hr.symm.trans horigin)
    exact .returned g x hsx rfl hclaimed why (.inr (Event.raised_raise_self _ _))

theorem State.Loses.drops {e e' : Event} {n : SlotNo} {p q : Placement} (h : e.state.Loses e'.state n p q) :
    e.drops e' := fun g => by
  rw [h.held]
  exact List.filter_sublist

end

/-! ### Reach loss -/

/-- A step of reach loss has dealt with a held slot: it is held on only in reach, and the others are held on. -/
structure Event.Deals (s v : State) (moved : Ctx → Prop) (told : Notice → Prop) (done : Ctx → Prop) (k : Ctx) (g : Head)
    (x : Held) (e e' : Event) : Prop where
  course : e'.Course s v moved told done
  drops : e.drops e'
  others : ∀ y ∈ (e.state.heads[g]).held, y.slot ≠ x.slot → y ∈ (e'.state.heads[g]).held
  reach : x ∈ (e'.state.heads[g]).held → s.inReach v k g x

section
variable {s v : State} {moved : Ctx → Prop} {told : Notice → Prop} {done : Ctx → Prop} {e : Event} {k : Ctx}
  (hk : moved k)

theorem Event.loseReach_eq {g : Head} {x : Held} {p : Placement} (hp : e.state.slots[x.slot] = some p) :
    Event.loseReach k g e x = if p.ctx ≠ k then e else if p.state = .cutting then
      (if e.state.reaches g k p.xlo then e else e.abortCut g x.slot .leftReach)
      else if e.state.fullyReaches g p then e else e.loseClaim g x.slot := by
  unfold Event.loseReach
  rw [hp]

include hk

/-- Reach loss of one held slot takes it, if out of reach (R158). -/
theorem Event.Course.loseReach (h : e.Course s v moved told done) {g : Head} {x : Held}
    (hx : x ∈ (e.state.heads[g]).held) : Event.Deals s v moved told done k g x e (Event.loseReach k g e x) := by
  obtain ⟨p, hp, hheld⟩ := h.waned.gripped.holds g x hx
  have hreach : s.inReach v k g x ↔ (p.ctx = k → ¬ v.outOfReach g p) := by
    unfold State.inReach
    rw [h.waned.origin_held hx hp]
    simp
  have keeps : (p.ctx = k → ¬ v.outOfReach g p) → Event.loseReach k g e x = e →
      Event.Deals s v moved told done k g x e (Event.loseReach k g e x) := fun hin he => by
    rw [he]
    exact ⟨h, .refl e, fun y hy _ => hy, fun _ => hreach.mpr hin⟩
  have takes : p.ctx = k → v.outOfReach g p → Event.loseReach k g e x =
        (if p.state = .cutting then e.abortCut g x.slot .leftReach else e.loseClaim g x.slot) →
      Event.Deals s v moved told done k g x e (Event.loseReach k g e x) := fun hpk hout he => by
    obtain ⟨hcourse, q, hl⟩ := h.take hx hp (.inl ⟨hpk ▸ hk, hout⟩) he
    exact ⟨hcourse, hl.drops, fun y hy hyx => hl.mem_held.mpr ⟨hy, hyx⟩, fun hin => absurd rfl (hl.mem_held.mp hin).2⟩
  have heq := Event.loseReach_eq (e := e) (k := k) (g := g) hp
  rw [h.waned.belt.reaches, h.waned.belt.fullyReaches] at heq
  by_cases hpk : p.ctx = k
  · rw [if_neg (not_not.mpr hpk)] at heq
    by_cases hc : p.state = .cutting
    · rw [if_pos hc] at heq takes
      have hiff := State.outOfReach_cutting (v := v) (h := g) hc
      rw [hpk] at hiff
      cases hr : v.reaches g k p.xlo with
      | true => exact keeps (fun _ ho => absurd (hr.symm.trans (hiff.mp ho)) (by decide)) (by rw [heq, hr]; rfl)
      | false => exact takes hpk (hiff.mpr hr) (by rw [heq, hr]; rfl)
    · rw [if_neg hc] at heq takes
      have hiff := State.outOfReach_claimed (v := v) (h := g) (hheld.claimed hc)
      cases hr : v.fullyReaches g p with
      | true => exact keeps (fun _ ho => absurd (hr.symm.trans (hiff.mp ho)) (by decide)) (by rw [heq, hr]; rfl)
      | false => exact takes hpk (hiff.mpr hr) (by rw [heq, hr]; rfl)
  · rw [if_pos hpk] at heq
    exact keeps (fun hpk' => absurd hpk' hpk) heq

theorem Event.Course.loseReaches {g : Head} (xs : List Held) (hnd : (xs.map Held.slot).Nodup) {e : Event}
    (h : e.Course s v moved told done) (hx : ∀ x ∈ xs, x ∈ (e.state.heads[g]).held) :
    (xs.foldl (Event.loseReach k g) e).Course s v moved told done ∧ e.drops (xs.foldl (Event.loseReach k g) e) ∧
    ∀ x ∈ xs, x ∈ ((xs.foldl (Event.loseReach k g) e).state.heads[g]).held → s.inReach v k g x := by
  induction xs generalizing e with
  | nil => exact ⟨h, .refl e, fun x hx => by cases hx⟩
  | cons x xs ih =>
    rw [List.map_cons, List.nodup_cons] at hnd
    obtain ⟨hcourse, hdrops, hothers, hreach⟩ := h.loseReach hk (g := g) (hx x List.mem_cons_self)
    obtain ⟨hcourse', hdrops', hreach'⟩ := ih hnd.2 hcourse fun y hy =>
      hothers y (hx y (List.mem_cons_of_mem _ hy)) fun hyx => hnd.1 (hyx ▸ List.mem_map_of_mem hy)
    refine ⟨hcourse', hdrops.trans hdrops', fun y hy hin => ?_⟩
    rcases List.mem_cons.mp hy with rfl | hy
    · exact hreach ((hdrops' g).subset hin)
    · exact hreach' y hy hin

/-- After reach loss every held slot of the context is in reach. -/
theorem Event.Course.reachLoss (h : e.Course s v moved told done) :
    (e.reachLoss k).Course s v moved told done ∧ e.drops (e.reachLoss k) ∧
    ∀ g : Head, ∀ x ∈ ((e.reachLoss k).state.heads[g]).held, s.inReach v k g x := by
  obtain ⟨hfirst, hdrops, hreach⟩ := h.loseReaches hk (g := 0) _ (h.waned.gripped.apart 0) fun _ hx => hx
  obtain ⟨hsecond, hdrops', hreach'⟩ := hfirst.loseReaches hk (g := 1) _ (hfirst.waned.gripped.apart 1) fun _ hx => hx
  refine ⟨hsecond, hdrops.trans hdrops', fun g x hx => ?_⟩
  match g with
  | 0 => exact hreach x ((hdrops.trans hdrops' 0).subset hx) ((hdrops' 0).subset hx)
  | 1 => exact hreach' x ((hdrops' 1).subset hx) hx

end

end Sys2Proof.Machine
end

section
/-!
PROOFS. Separation loss (R159) and the MISSED test (R133) as courses of losses, and the whole change of cell travel.
-/

namespace Sys2Proof.Machine

open Sys2Proof

/-! ### Short pairs -/

theorem State.mem_heldPieces {t : State} {h : Head} {a : HeldPiece} :
    a ∈ t.heldPieces h ↔ a.head = h ∧ a.held ∈ (t.heads[h]).held ∧ t.slots[a.held.slot] = some a.record := by
  unfold State.heldPieces
  rw [List.mem_map]
  constructor
  · rintro ⟨⟨x, p⟩, hm, rfl⟩
    exact ⟨rfl, State.mem_heldRecords.mp hm⟩
  · rintro ⟨rfl, hm⟩
    exact ⟨(a.held, a.record), State.mem_heldRecords.mpr hm, rfl⟩

theorem State.separated_comm (t : State) (p q : Placement) : t.separated p q = t.separated q p := by
  have hgap : t.gap p q = t.gap q p := by
    unfold State.gap
    dsimp only
    rw [max_comm]
  unfold State.separated
  rw [hgap]

/-- A piece of a short pair, with the other one. -/
theorem State.mem_shortPieces {t : State} {k : Ctx} {a : HeldPiece} (ha : a ∈ t.shortPieces k) :
    a ∈ t.heldPieces a.head ∧ ∃ b ∈ t.heldPieces (otherHead a.head),
      (a.record.ctx = k ∨ b.record.ctx = k) ∧ t.separated a.record b.record = false := by
  unfold State.shortPieces at ha
  rcases List.mem_append.mp ha with ha | ha
  · obtain ⟨hmem, hany⟩ := List.mem_filter.mp ha
    obtain ⟨b, hb, hs⟩ := List.any_eq_true.mp hany
    have h0 := (State.mem_heldPieces.mp hmem).1
    rw [h0]
    simp only [State.short, Bool.and_eq_true, Bool.or_eq_true, decide_eq_true_eq, Bool.not_eq_true'] at hs
    exact ⟨hmem, b, hb, hs⟩
  · obtain ⟨hmem, hany⟩ := List.mem_filter.mp ha
    obtain ⟨b, hb, hs⟩ := List.any_eq_true.mp hany
    have h1 := (State.mem_heldPieces.mp hmem).1
    rw [h1]
    simp only [State.short, Bool.and_eq_true, Bool.or_eq_true, decide_eq_true_eq, Bool.not_eq_true'] at hs
    exact ⟨hmem, b, hb, hs.1.symm, (t.separated_comm _ _).trans hs.2⟩

theorem pickShort_eq_none {xs : List HeldPiece} (h : pickShort xs = none) : xs = [] := by
  cases xs with
  | nil => rfl
  | cons a rest => cases h

/-- No short pair, no piece to take. -/
theorem State.separated_of_no_short {t : State} {k : Ctx} (h : t.shortPieces k = []) {a b : HeldPiece}
    (ha : a ∈ t.heldPieces 0) (hb : b ∈ t.heldPieces 1) (hk : a.record.ctx = k ∨ b.record.ctx = k) :
    t.separated a.record b.record = true := by
  unfold State.shortPieces at h
  have hnone := List.filter_eq_nil_iff.mp (List.append_eq_nil_iff.mp h).1 a ha
  by_contra hs
  refine hnone (List.any_eq_true.mpr ⟨b, hb, ?_⟩)
  simp only [State.short, Bool.and_eq_true, Bool.or_eq_true, decide_eq_true_eq, Bool.not_eq_true']
  exact ⟨hk, Bool.eq_false_iff.mpr hs⟩

/-! ### The only short pair -/

theorem State.heldPieces_singleton {t : State} {h : Head} {x : Held} {p : Placement} (hx : (t.heads[h]).held = [x])
    (hp : t.slots[x.slot] = some p) : t.heldPieces h = [⟨h, x, p⟩] := by
  unfold State.heldPieces State.heldRecords
  rw [hx, List.filterMap_cons, hp]
  rfl

theorem State.shortPieces_pair {t : State} {k : Ctx} {a b : HeldPiece} (ha : t.heldPieces 0 = [a])
    (hb : t.heldPieces 1 = [b]) (hs : t.short k a b = true) : t.shortPieces k = [a, b] := by
  unfold State.shortPieces
  rw [ha, hb]
  simp [hs]

/-- The piece that is taken of the only short pair is the one that yields. -/
theorem yields_of_picked {a b x : HeldPiece} (ha : a.head = 0) (hb : b.head = 1) (hx : pickShort [a, b] = some x) :
    (x = a → yields 0 a b) ∧ (x = b → yields 1 b a) := by
  have hne : a ≠ b := fun h => absurd (ha.symm.trans (h ▸ hb)) (by decide)
  have hpick : (if takenBefore b a then b else a) = x := Option.some.inj hx
  unfold yields
  refine ⟨fun h => ?_, fun h => ?_⟩
  · rw [if_pos rfl]
    by_contra ht
    rw [if_pos (Bool.not_eq_false _ ▸ ht)] at hpick
    exact hne (h.symm.trans hpick.symm)
  · rw [if_neg (by decide)]
    by_contra ht
    rw [if_neg ht] at hpick
    exact hne (hpick.trans h)

theorem singleton_of_sublist {α : Type} {xs : List α} {x y : α} (h : xs.Sublist [x]) (hy : y ∈ xs) : xs = [x] ∧ y = x := by
  have hlen : xs.length = 1 := le_antisymm h.length_le (List.length_pos_of_mem hy)
  obtain rfl := h.eq_of_length hlen
  exact ⟨rfl, List.mem_singleton.mp hy⟩

/-! ### Separation loss -/

section
variable {s v : State} {moved : Ctx → Prop} {told : Notice → Prop} {done : Ctx → Prop} {e : Event} {k : Ctx}
  (hk : moved k)

/-- What a piece of a short pair was, it is. -/
theorem State.Waned.origin_piece {t : State} {told : Notice → Prop} (h : s.Waned v moved told t) {g : Head}
    {a : HeldPiece} (ha : a ∈ t.heldPieces g) : a.held ∈ (s.heads[g]).held ∧ s.slots[a.held.slot] = some a.record := by
  obtain ⟨_, hheld, hp⟩ := State.mem_heldPieces.mp ha
  exact ⟨(h.held g).subset hheld, h.origin_held hheld hp⟩

/-- What a held slot's record was, it is. -/
theorem State.Waned.held_record {t : State} {told : Notice → Prop} (h : s.Waned v moved told t) {g : Head} {x : Held}
    {p : Placement} (hx : x ∈ (t.heads[g]).held) (hp : s.slots[x.slot] = some p) : t.slots[x.slot] = some p := by
  obtain ⟨r, hr, _⟩ := h.gripped.holds g x hx
  rw [hr, ← h.origin_held hx hr, hp]

include hk

/-- The reason for which a piece of a short pair is taken. -/
theorem State.Waned.crowded {t : State} {told : Notice → Prop} (h : s.Waned v moved told t) {a : HeldPiece}
    (ha : pickShort (t.shortPieces k) = some a) : s.crowded v moved a.head a.held a.record := by
  obtain ⟨hown, b, hb, hctx, hsep⟩ := State.mem_shortPieces (pickShort_mem ha)
  obtain ⟨hheldb, hpb⟩ := h.origin_piece hb
  obtain ⟨hheada, hina, hreca⟩ := State.mem_heldPieces.mp hown
  obtain ⟨hheadb, hinb, hrecb⟩ := State.mem_heldPieces.mp hb
  refine ⟨b.held, hheldb, b.record, hpb, hctx.imp (fun (hc : a.record.ctx = k) => hc.symm ▸ hk)
    (fun (hc : b.record.ctx = k) => hc.symm ▸ hk), ?_, fun h1 h2 => ?_⟩
  · rw [← h.belt.separated]
    exact hsep
  · have hpiece : t.heldPieces a.head = [a] := State.heldPieces_singleton (singleton_of_sublist (h1 ▸ h.held _) hina).1 hreca
    have hother : t.heldPieces (otherHead a.head) = [b] := by
      rw [State.heldPieces_singleton (singleton_of_sublist (h2 ▸ h.held _) hinb).1 hrecb, ← hheadb]
    have hb' : b = ⟨otherHead a.head, b.held, b.record⟩ := by rw [← hheadb]
    show yields a.head a _
    rw [← hb']
    match hh : a.head with
    | 0 =>
      rw [hh] at hpiece hother hheadb
      have hshort : t.short k a b = true := by simp [State.short, hctx, hsep]
      rw [State.shortPieces_pair hpiece hother hshort] at ha
      exact (yields_of_picked hh hheadb ha).1 rfl
    | 1 =>
      rw [hh] at hpiece hother hheadb
      have hshort : t.short k b a = true := by simp [State.short, hctx.symm, t.separated_comm b.record, hsep]
      rw [State.shortPieces_pair hother hpiece hshort] at ha
      exact (yields_of_picked hheadb hh ha).2 rfl

/-- The pieces of the two heads are separated where one is of the context. -/
def State.keepsApart (s v : State) (k : Ctx) (t : State) : Prop :=
  ∀ x ∈ (t.heads[(0 : Head)]).held, ∀ y ∈ (t.heads[(1 : Head)]).held, ∀ p q, s.slots[x.slot] = some p →
    s.slots[y.slot] = some q → (p.ctx = k ∨ q.ctx = k) → v.separated p q = true

omit hk in
theorem State.Waned.keepsApart {t : State} {told : Notice → Prop} (h : s.Waned v moved told t)
    (hs : t.shortPieces k = []) : s.keepsApart v k t := by
  intro x hx y hy p q hp hq hpq
  have htp := h.held_record hx hp
  have htq := h.held_record hy hq
  rw [← h.belt.separated]
  exact State.separated_of_no_short (a := ⟨0, x, p⟩) (b := ⟨1, y, q⟩) hs (State.mem_heldPieces.mpr ⟨rfl, hx, htp⟩)
    (State.mem_heldPieces.mpr ⟨rfl, hy, htq⟩) hpq

theorem Event.Course.takeShort (h : e.Course s v moved told done) {a : HeldPiece}
    (ha : pickShort (e.state.shortPieces k) = some a) : (e.takeShort a).Course s v moved told done ∧
      ∃ q, e.state.Loses (e.takeShort a).state a.held.slot a.record q := by
  obtain ⟨_, hin, hp⟩ := State.mem_heldPieces.mp (State.mem_shortPieces (pickShort_mem ha)).1
  exact h.take hin hp (.inr (h.waned.crowded hk ha)) rfl

/-- The number of slots that the heads hold. -/
def State.grip (t : State) : Nat := (t.heads[(0 : Head)]).held.length + (t.heads[(1 : Head)]).held.length

omit hk in
theorem State.Loses.grip_lt {t u : State} {g : Head} {x : Held} {p q : Placement} (h : t.Loses u x.slot p q)
    (hx : x ∈ (t.heads[g]).held) : u.grip < t.grip := by
  have hle : ∀ g : Head, (u.heads[g]).held.length ≤ (t.heads[g]).held.length := fun g => by
    rw [h.held]
    exact List.length_filter_le _ _
  have hlt : (u.heads[g]).held.length < (t.heads[g]).held.length := by
    rw [h.held]
    exact List.length_filter_lt_length_iff_exists.mpr ⟨x, hx, by simp⟩
  have h0 := hle 0
  have h1 := hle 1
  unfold State.grip
  match g, hlt with
  | 0, hlt => omega
  | 1, hlt => omega

/-- As many rounds as there are held slots leave no short pair (R159). -/
theorem Event.Course.separationLoss (n : Nat) {e : Event} (h : e.Course s v moved told done) (hn : e.state.grip ≤ n) :
    (Event.separationLoss k n e).Course s v moved told done ∧ e.drops (Event.separationLoss k n e) ∧
    s.keepsApart v k (Event.separationLoss k n e).state := by
  induction n generalizing e with
  | zero =>
    refine ⟨h, .refl e, fun x hx => ?_⟩
    have hnone : (e.state.heads[(0 : Head)]).held = [] := List.length_eq_zero_iff.mp (by unfold State.grip at hn; omega)
    have hx : x ∈ (e.state.heads[(0 : Head)]).held := hx
    rw [hnone] at hx
    cases hx
  | succ n ih =>
    unfold Event.separationLoss
    split
    · rename_i hnone
      exact ⟨h, .refl e, h.waned.keepsApart (pickShort_eq_none hnone)⟩
    · rename_i a ha
      obtain ⟨hcourse, q, hl⟩ := h.takeShort hk ha
      obtain ⟨_, hin, _⟩ := State.mem_heldPieces.mp (State.mem_shortPieces (pickShort_mem ha)).1
      have hlt := hl.grip_lt hin
      obtain ⟨hcourse', hdrops, hapart⟩ := ih hcourse (by omega)
      exact ⟨hcourse', hl.drops.trans hdrops, hapart⟩

/-! ### The MISSED test -/

/-- No piece of a slot and a context that waits has passed every head. -/
def State.waits (v : State) (k : Ctx) (t : State) (n : SlotNo) : Prop :=
  ∀ q, t.slots[n] = some q → q.ctx = k → q.state = .placed → v.passedAll k q.xlo = false

/-- The MISSED test of one slot (R133). -/
theorem Event.Course.testMissed (h : e.Course s v moved told done) (n : SlotNo) :
    (Event.testMissed k e n).Course s v moved told done ∧ e.drops (Event.testMissed k e n) ∧
    v.waits k (Event.testMissed k e n).state n ∧
    ∀ m, v.waits k e.state m → v.waits k (Event.testMissed k e n).state m := by
  unfold Event.testMissed
  split
  · rename_i hn
    refine ⟨h, .refl e, fun q hq => ?_, fun _ hm => hm⟩
    rw [hn] at hq
    cases hq
  · rename_i p hp
    split
    · rename_i hc
      simp only [Bool.and_eq_true, decide_eq_true_eq] at hc
      obtain ⟨⟨hpk, hs⟩, hpast⟩ := hc
      rw [h.waned.belt.passedAll] at hpast
      have hl := h.waned.gripped.miss hp rfl hs
      have hgone : v.gonePast moved p := ⟨hpk ▸ hk, hpk ▸ hpast⟩
      refine ⟨h.loses (e' := e.miss n p) hl (fun m hm => Event.raised_raise _ _ _ hm) (fun r hr hf => ?_) (fun hc => ?_),
        hl.drops, fun q hq _ hqs => ?_, fun m hm q hq => ?_⟩
      · have hmissed : (e.miss n p).raised .pieceMissed := Event.raised_raise_self _ _
        rcases hf.of_placed hs with rfl | ⟨g, x, hx, hxn, hrc, why, lost, rfl⟩
        · exact .missed hs hgone (.inr hmissed)
        · exact .lost g x hx hxn hrc why lost hgone (.inr hmissed)
      · rw [hs] at hc
        cases hc
      · rw [hl.slot, if_pos rfl] at hq
        obtain rfl := Option.some.inj hq
        cases hqs
      · rw [hl.slot] at hq
        split at hq
        · obtain rfl := Option.some.inj hq
          exact fun _ hqs => by cases hqs
        · exact hm q hq
    · rename_i hc
      refine ⟨h, .refl e, fun q hq hqk hqs => ?_, fun _ hm => hm⟩
      obtain rfl := Option.some.inj (hp.symm.trans hq)
      rw [← h.waned.belt.passedAll]
      simpa [hqk, hqs] using hc

theorem Event.Course.testsMissed (ns : List SlotNo) {e : Event} (h : e.Course s v moved told done) :
    (ns.foldl (Event.testMissed k) e).Course s v moved told done ∧ e.drops (ns.foldl (Event.testMissed k) e) ∧
    (∀ n ∈ ns, v.waits k (ns.foldl (Event.testMissed k) e).state n) ∧
    ∀ m, v.waits k e.state m → v.waits k (ns.foldl (Event.testMissed k) e).state m := by
  induction ns generalizing e with
  | nil => exact ⟨h, .refl e, fun n hn => (by cases hn), fun _ hm => hm⟩
  | cons n ns ih =>
    obtain ⟨hcourse, hdrops, hdone, hkeeps⟩ := h.testMissed hk n
    obtain ⟨hcourse', hdrops', hdone', hkeeps'⟩ := ih hcourse
    refine ⟨hcourse', hdrops.trans hdrops', fun m hm => ?_, fun m hm => hkeeps' m (hkeeps m hm)⟩
    rcases List.mem_cons.mp hm with rfl | hm
    · exact hkeeps' _ hdone
    · exact hdone' m hm

end

end Sys2Proof.Machine
end

section
/-!
PROOFS. The whole change of a context's cell travel as a course of losses (R125, R133).
-/

namespace Sys2Proof.Machine

open Sys2Proof

/-! ### Exhaustion -/

/-- What a drain changes: one context's state and cause, and the Search Unit. -/
theorem State.drainCtx_eq (s : State) (k : Ctx) (c : DrainCause) : s.drainCtx k c =
    { s with
      ctxs := s.ctxs.set k { s.ctxs[k] with state := .draining, drainCause := some c },
      searchUnit := if s.searchesOn k then .idle else s.searchUnit } := by
  unfold State.drainCtx State.updCtx
  dsimp only
  split <;> rfl

theorem State.drainCtx_sameBelt (s : State) (k : Ctx) (c : DrainCause) : s.SameBelt (s.drainCtx k c) := by
  rw [s.drainCtx_eq]
  refine ⟨rfl, fun j => ?_, fun j => ?_⟩ <;>
  · dsimp only
    rw [get_set]
    split <;> simp_all

section
variable {s v : State} {moved : Ctx → Prop} {told : Notice → Prop} {done : Ctx → Prop} {e e' : Event} {k : Ctx}

theorem Event.Course.congr (h : e.Course s v moved told done) (slots : e'.state.slots = e.state.slots)
    (entries : e'.state.entries = e.state.entries) (heads : e'.state.heads = e.state.heads)
    (belt : e.state.SameBelt e'.state) (raised : ∀ m, e.raised m → e'.raised m) : e'.Course s v moved told done where
  waned := (h.waned.congr slots entries (fun g => by rw [heads]) belt).mono fun m hm => hm.imp_right (raised m)
  cleared j hj := (h.cleared j hj).congr slots fun g => by rw [heads]

theorem Event.Course.exhaust (h : e.Course s v moved told done) (k : Ctx) :
    (e.exhaust k).Course s v moved told done := by
  unfold Event.exhaust
  split
  · have heq := e.state.drainCtx_eq k .exhausted
    exact h.congr (e' := e.on fun s => s.drainCtx k .exhausted) (by rw [Event.on_state, heq]) (by rw [Event.on_state, heq])
      (by rw [Event.on_state, heq]) (e.state.drainCtx_sameBelt k .exhausted) fun _ hm => hm
  · exact h

/-- An empty slot stays empty, so no piece waits in it. -/
theorem State.waits_of_unused {t u : State} {told' : Notice → Prop} (ht : s.Waned v moved told t) (hu : s.Waned v moved told' u)
    {n : SlotNo} (hn : t.slots[n] = none) : v.waits k u n := by
  intro q hq
  obtain ⟨p, hp, _⟩ := hu.origin hq
  obtain ⟨r, hr, _⟩ := ht.fate n p hp
  rw [hn] at hr
  cases hr

/-- The tests of all slots finish a context whose held pieces are in reach and separated. -/
theorem Event.Course.finish (hk : moved k) (h : e.Course s v moved told done)
    (hin : ∀ g : Head, ∀ x ∈ (e.state.heads[g]).held, s.inReach v k g x) (hapart : s.keepsApart v k e.state) :
    (e.state.usedSlots.foldl (Event.testMissed k) e).Course s v moved told (fun j => done j ∨ j = k) := by
  obtain ⟨hmiss, hdrops, hwaits, _⟩ := h.testsMissed hk e.state.usedSlots
  refine ⟨hmiss.waned, fun j hj => ?_⟩
  rcases hj with hj | rfl
  · exact hmiss.cleared j hj
  · refine ⟨fun g x hx => hin g x ((hdrops g).subset hx), fun x hx y hy => hapart x ((hdrops 0).subset hx) y
      ((hdrops 1).subset hy), fun n => ?_⟩
    cases hn : e.state.slots[n] with
    | none => exact State.waits_of_unused h.waned hmiss.waned hn
    | some p => exact hwaits n (State.mem_usedSlots.mpr ⟨p, hn⟩)

/-- A change of a context's cell travel takes what must go, and the context is done (R133). -/
theorem Event.Course.travelChange (hk : moved k) (hs : ∀ g : Head, (s.heads[g]).held.length ≤ 2)
    (h : e.Course s v moved told done) : (e.travelChange k).Course s v moved told (fun j => done j ∨ j = k) := by
  obtain ⟨hreach, _, hin⟩ := (h.exhaust k).reachLoss hk
  have hgrip : ((e.exhaust k).reachLoss k).state.grip ≤ 4 := by
    have h0 := (hreach.waned.held 0).length_le.trans (hs 0)
    have h1 := (hreach.waned.held 1).length_le.trans (hs 1)
    unfold State.grip
    omega
  obtain ⟨hsep, hdrops, hapart⟩ := hreach.separationLoss hk 4 hgrip
  exact hsep.finish hk (fun g x hx => hin g x ((hdrops g).subset hx)) hapart

end

end Sys2Proof.Machine
end

section
/-!
PROOFS. The window of a change of cell travel: a context whose floor has come to its width drains, and no search is left on
it (R95, R125).
-/

namespace Sys2Proof.Machine

open Sys2Proof

/-! ### A context that drains of exhaustion -/

/-- A context drains or has closed with cause EXHAUSTED, and the Search Unit is not at work on it. -/
structure State.Exhausted (t : State) (k : Ctx) : Prop where
  ended : (t.ctxs[k]).state = .draining ∨ (t.ctxs[k]).state = .closed
  cause : (t.ctxs[k]).drainCause = some .exhausted
  away : t.searchUnit.awayFrom k

theorem State.searchesOn_eq_false {t : State} {k : Ctx} : t.searchesOn k = false ↔ t.searchUnit.awayFrom k := by
  unfold State.searchesOn SearchState.awayFrom
  cases t.searchUnit <;> simp

theorem State.Exhausted.ne_opened {t : State} {k : Ctx} (h : t.Exhausted k) : (t.ctxs[k]).state ≠ .opened := by
  rcases h.ended with hs | hs <;> rw [hs] <;> decide

theorem State.drainCtx_exhausted (t : State) (k : Ctx) : (t.drainCtx k .exhausted).Exhausted k := by
  rw [t.drainCtx_eq]
  refine ⟨.inl ?_, ?_, ?_⟩
  · dsimp only
    rw [get_set, if_pos rfl]
  · dsimp only
    rw [get_set, if_pos rfl]
  · dsimp only
    split
    · exact SearchState.idle_awayFrom k
    · rename_i h
      exact State.searchesOn_eq_false.mp (Bool.eq_false_iff.mpr h)

theorem State.drainCtx_ctx_other (t : State) {k j : Ctx} (c : DrainCause) (h : j ≠ k) :
    (t.drainCtx k c).ctxs[j] = t.ctxs[j] := by
  rw [t.drainCtx_eq]
  dsimp only
  rw [get_set, if_neg h]

/-- The drain of another context leaves one that has drained of exhaustion. -/
theorem State.Exhausted.drainCtx {t : State} {k j : Ctx} (h : t.Exhausted j) (c : DrainCause) (hjk : j ≠ k) :
    (t.drainCtx k c).Exhausted j where
  ended := by
    rw [t.drainCtx_ctx_other c hjk]
    exact h.ended
  cause := by
    rw [t.drainCtx_ctx_other c hjk]
    exact h.cause
  away := by
    rw [t.drainCtx_eq]
    dsimp only
    split
    · exact SearchState.idle_awayFrom j
    · exact h.away

theorem State.Exhausted.settle {e : Event} {k : Ctx} (h : e.state.Exhausted k) (before : State) :
    (settle before e).Exhausted k := by
  have ht := settle_tail before e
  have hended : ((Machine.settle before e).ctxs[k]).state = .draining ∨ ((Machine.settle before e).ctxs[k]).state = .closed := by
    rcases ht.closing k with hs | hs
    · rw [hs]
      exact h.ended
    · exact .inr hs.2
  refine ⟨hended, by rw [ht.ctx k]; exact h.cause, ?_⟩
  rw [settle_searchUnit]
  refine Event.runSearchUnit_awayFrom ?_ ?_
  · rw [e.closed_calm.1]
    exact h.away
  · rw [← settle_ctxs before]
    rcases hended with hs | hs <;> rw [hs] <;> decide

/-! ### The window through a change of cell travel -/

/-- What a change of cell travel does after the window is over the pieces alone. -/
theorem Event.travelChange_pieces (e : Event) (k : Ctx) : (e.exhaust k).state.Pieces (e.travelChange k).state :=
  ((Event.reachLoss_pieces _ k).trans (Event.separationLoss_pieces k 4 _)).trans
    (Event.foldl_pieces _ (Event.testMissed_pieces k) _ _)

theorem Event.travelChange_ctxs (e : Event) (k : Ctx) : (e.travelChange k).state.ctxs = (e.exhaust k).state.ctxs := by
  rw [(e.travelChange_pieces k).rest]

theorem Event.travelChange_searchUnit (e : Event) (k : Ctx) :
    (e.travelChange k).state.searchUnit = (e.exhaust k).state.searchUnit := by
  rw [(e.travelChange_pieces k).rest]

theorem State.Exhausted.congr {s t : State} {k : Ctx} (h : s.Exhausted k) (ctxs : t.ctxs = s.ctxs)
    (searchUnit : t.searchUnit = s.searchUnit) : t.Exhausted k := by
  obtain ⟨hended, hcause, haway⟩ := h
  refine ⟨?_, ?_, ?_⟩
  · rw [ctxs]
    exact hended
  · rw [ctxs]
    exact hcause
  · rw [searchUnit]
    exact haway

/-- The window of the contexts whose cell travel changed: with a floor of W or more an OPEN one is exhausted, and the others
keep all but count and registration. -/
structure State.Window (s v : State) (done : Ctx → Prop) (t : State) : Prop where
  shut : ∀ k : Ctx, done k → (s.ctxs[k]).state = .opened → (s.ctxs[k]).width ≤ v.floor k → t.Exhausted k
  stands : ∀ k : Ctx, (s.ctxs[k]).state = .opened → (done k → v.floor k < (s.ctxs[k]).width) →
    t.ctxs[k] = { s.ctxs[k] with count := (t.ctxs[k]).count, registered := (t.ctxs[k]).registered }

section
variable {s v : State} {done : Ctx → Prop} {e : Event}

theorem State.Window.congr {t u : State} (h : s.Window v done t) (ctxs : u.ctxs = t.ctxs)
    (searchUnit : u.searchUnit = t.searchUnit) : s.Window v done u where
  shut k hk ho hw := (h.shut k hk ho hw).congr ctxs searchUnit
  stands k ho hw := by
    rw [ctxs]
    exact h.stands k ho hw

theorem Event.exhaust_of_lt {k : Ctx} (h : e.state.floor k < (e.state.ctxs[k]).width) : e.exhaust k = e := by
  unfold Event.exhaust
  rw [decide_eq_false (Nat.not_le.mpr h), Bool.and_false]
  rfl

theorem Event.exhaust_of_ne_opened {k : Ctx} (h : (e.state.ctxs[k]).state ≠ .opened) : e.exhaust k = e := by
  unfold Event.exhaust
  rw [decide_eq_false h]
  rfl

theorem Event.exhaust_of_le {k : Ctx} (ho : (e.state.ctxs[k]).state = .opened)
    (h : (e.state.ctxs[k]).width ≤ e.state.floor k) : (e.exhaust k).state = e.state.drainCtx k .exhausted := by
  unfold Event.exhaust
  rw [decide_eq_true ho, decide_eq_true h]
  rfl

theorem Event.exhaust_ctx_other {j k : Ctx} (h : j ≠ k) : (e.exhaust k).state.ctxs[j] = e.state.ctxs[j] := by
  unfold Event.exhaust
  split
  · exact e.state.drainCtx_ctx_other _ h
  · rfl

theorem State.Exhausted.exhaust {j : Ctx} (h : e.state.Exhausted j) (k : Ctx) : (e.exhaust k).state.Exhausted j := by
  by_cases hjk : j = k
  · subst hjk
    rw [Event.exhaust_of_ne_opened h.ne_opened]
    exact h
  · unfold Event.exhaust
    split
    · exact h.drainCtx _ hjk
    · exact h

/-- A context that stands, OPEN, is exhausted by its floor or stands on (R125). -/
theorem State.Window.exhaust (h : s.Window v done e.state) (hv : v.SameBelt e.state) (k : Ctx) :
    s.Window v (fun j => done j ∨ j = k) (e.exhaust k).state where
  shut j hj ho hw := by
    by_cases hdone : done j
    · exact (h.shut j hdone ho hw).exhaust k
    · obtain rfl := hj.resolve_left hdone
      have hstands := h.stands j ho fun hd => absurd hd hdone
      rw [Event.exhaust_of_le (by rw [hstands]; exact ho) (by rw [hstands, hv.floor]; exact hw)]
      exact e.state.drainCtx_exhausted j
  stands j ho hw := by
    have hstands := h.stands j ho fun hd => hw (.inl hd)
    by_cases hjk : j = k
    · subst hjk
      rw [Event.exhaust_of_lt (by rw [hv.floor, hstands]; exact hw (.inr rfl))]
      exact hstands
    · rw [Event.exhaust_ctx_other hjk]
      exact hstands

theorem State.Window.travelChange (h : s.Window v done e.state) (hv : v.SameBelt e.state) (k : Ctx) :
    s.Window v (fun j => done j ∨ j = k) (e.travelChange k).state :=
  (h.exhaust hv k).congr (e.travelChange_ctxs k) (e.travelChange_searchUnit k)

theorem State.Window.settle (h : s.Window v done e.state) (before : State) : s.Window v done (settle before e) where
  shut k hk ho hw := (h.shut k hk ho hw).settle before
  stands k ho hw := by
    have hstands := h.stands k ho hw
    rw [settle_ctx before e k (by rw [hstands, ho]; decide)]
    exact hstands

end

end Sys2Proof.Machine
end

section
/-!
PROOFS. What changes of cell travel make of a state, read off the course of their losses (R125, R133, R158, R159).
-/

namespace Sys2Proof.Machine

open Sys2Proof

/-- What changes of cell travel leave behind: losses with their reasons, and the contexts whose cell travel changed done. -/
structure State.Change (s v : State) (moved : Ctx → Prop) (told : Notice → Prop) (t : State) : Prop where
  waned : s.Waned v moved told t
  cleared : ∀ k : Ctx, moved k → s.Cleared v k t
  window : s.Window v moved t

/-- How a head loses a claim: it is told, and the piece waits, or is MISSED when past every head. -/
structure State.LosesClaim (t v : State) (moved : Ctx → Prop) (told : Notice → Prop) (h : Head) (n : SlotNo)
    (p : Placement) : Prop where
  lost : told (.claimLost h)
  record : t.slots[n] = some { p with state := .placed, head := none } ∨
    (v.gonePast moved p ∧ told .pieceMissed ∧ t.slots[n] = some p.missed)

/-- How a head loses a cut: it is told, and the piece is SPOILED. -/
structure State.LosesCut (t : State) (told : Notice → Prop) (h : Head) (n : SlotNo) (p : Placement) : Prop where
  aborted : told (.cutAborted h)
  spoilt : told .pieceSpoiled
  record : t.slots[n] = some { p with state := .spoiled, cause := some .leftReach }

section
variable {s v t : State} {moved : Ctx → Prop} {told : Notice → Prop}

/-- A held slot of a head is held by it alone, and once. -/
theorem State.Gripped.held_unique (hg : s.Gripped) {g h : Head} {x y : Held} (hx : x ∈ (s.heads[g]).held)
    (hy : y ∈ (s.heads[h]).held) (hxy : x.slot = y.slot) : g = h ∧ x = y := by
  obtain ⟨p, hp, hpg⟩ := hg.holds g x hx
  obtain ⟨q, hq, hqh⟩ := hg.holds h y hy
  have hpq : p = q := by simpa [hxy, hq] using hp.symm
  subst hpq
  obtain rfl := Option.some.inj (hpg.1.symm.trans hqh.1)
  exact ⟨rfl, List.inj_on_of_nodup_map (hg.apart g) hx hy hxy⟩

/-- What has become of a piece that a head holds no longer. -/
theorem State.Waned.gone (h : s.Waned v moved told t) (hs : s.Gripped) {g : Head} {x : Held} {p : Placement}
    (hx : x ∈ (s.heads[g]).held) (hp : s.slots[x.slot] = some p) (hn : x ∉ (t.heads[g]).held) :
    s.mustGo v moved g x p ∧ (p.state = .claimed → t.LosesClaim v moved told g x.slot p) ∧
      (p.state = .cutting → t.LosesCut told g x.slot p) := by
  have hheld := hs.of_mem hx hp
  obtain ⟨q, hq, hf⟩ := h.fate x.slot p hp
  cases hf with
  | stays => exact absurd (h.keeps g x hx p hq hheld) hn
  | returned g' y hy hyx hc why lost =>
    obtain ⟨rfl, rfl⟩ := hs.held_unique hy hx hyx
    exact ⟨why, fun _ => ⟨lost, .inl hq⟩, fun hc' => by rw [hc] at hc'; cases hc'⟩
  | lost g' y hy hyx hc why lost past missed =>
    obtain ⟨rfl, rfl⟩ := hs.held_unique hy hx hyx
    exact ⟨why, fun _ => ⟨lost, .inr ⟨past, missed, hq⟩⟩, fun hc' => by rw [hc] at hc'; cases hc'⟩
  | spoiled g' y hy hyx hc why aborted spoilt =>
    obtain ⟨rfl, rfl⟩ := hs.held_unique hy hx hyx
    exact ⟨why, fun hc' => (by rw [hc] at hc'; cases hc'), fun _ => ⟨aborted, spoilt, hq⟩⟩
  | missed hs' => rcases hheld.2 with hc | hc <;> rw [hs'] at hc <;> cases hc

/-- A piece with no reason to go stays held. -/
theorem State.Waned.kept (h : s.Waned v moved told t) (hs : s.Gripped) {g : Head} {x : Held} {p : Placement}
    (hx : x ∈ (s.heads[g]).held) (hp : s.slots[x.slot] = some p) (hn : ¬ s.mustGo v moved g x p) :
    x ∈ (t.heads[g]).held ∧ t.slots[x.slot] = some p := by
  have hin : x ∈ (t.heads[g]).held := by
    by_contra hnot
    exact hn (h.gone hs hx hp hnot).1
  exact ⟨hin, h.held_record hin hp⟩

/-- A piece out of its head's reach is held no longer (R158). -/
theorem State.Change.not_held (h : s.Change v moved told t) {g : Head} {x : Held} {p : Placement}
    (hp : s.slots[x.slot] = some p) (hk : moved p.ctx) (ho : v.outOfReach g p) : x ∉ (t.heads[g]).held :=
  fun hin => (h.cleared p.ctx hk).reach g x hin p hp rfl ho

/-- A claim that was out of reach went back, and is MISSED exactly when it is past every head (R133, R158). -/
theorem State.Change.claim_record (h : s.Change v moved told t) {g : Head} {n : SlotNo} {p : Placement}
    (hk : moved p.ctx) (hl : t.LosesClaim v moved told g n p) :
    t.slots[n] = some (if v.passedAll p.ctx p.xlo then p.missed else { p with state := .placed, head := none }) ∧
      (v.passedAll p.ctx p.xlo = true → told .pieceMissed) := by
  rcases hl.record with hr | ⟨⟨_, hpast⟩, hmissed, hr⟩
  · have hpast := (h.cleared p.ctx hk).past n _ hr rfl rfl
    rw [hpast]
    exact ⟨hr, fun hc => by cases hc⟩
  · rw [hpast]
    exact ⟨hr, fun _ => hmissed⟩

/-- A claim fully in reach that went for separation waits (R159). -/
theorem State.LosesClaim.record_of_reaches {g : Head} {n : SlotNo} {p : Placement}
    (hl : t.LosesClaim v moved told g n p) (hr : moved p.ctx → v.fullyReaches g p = true) :
    t.slots[n] = some { p with state := .placed, head := none } := by
  rcases hl.record with hr' | ⟨⟨hk, hpast⟩, _⟩
  · exact hr'
  · rw [State.passedAll_of_fullyReaches (hr hk)] at hpast
    cases hpast

theorem State.not_outOfReach {g : Head} {p : Placement} (hr : v.fullyReaches g p = true) : ¬ v.outOfReach g p := by
  rintro (⟨_, hf⟩ | ⟨_, hf⟩)
  · rw [hr] at hf
    cases hf
  · unfold State.fullyReaches at hr
    rw [hf, Bool.false_and] at hr
    cases hr

/-- What the two heads hold afterwards is separated where one piece is of such a context. -/
theorem State.Change.apart (h : s.Change v moved told t) {g : Head} {x y : Held} {p q : Placement}
    (hx : x ∈ (t.heads[g]).held) (hy : y ∈ (t.heads[otherHead g]).held) (hp : s.slots[x.slot] = some p)
    (hq : s.slots[y.slot] = some q) (hk : moved p.ctx ∨ moved q.ctx) : v.separated p q = true := by
  have hctx : ∃ k, moved k ∧ (p.ctx = k ∨ q.ctx = k) :=
    hk.elim (fun hk => ⟨p.ctx, hk, .inl rfl⟩) fun hk => ⟨q.ctx, hk, .inr rfl⟩
  obtain ⟨k, hmoved, hctx⟩ := hctx
  have hapart := (h.cleared k hmoved).apart
  match g, hx, hy with
  | 0, hx, hy => exact hapart x hx y hy p q hp hq hctx
  | 1, hx, hy =>
    rw [v.separated_comm]
    exact hapart y hy x hx q p hq hp hctx.symm

/-- Of one short pair in reach, the piece that does not yield stays and the other goes (R159). -/
theorem State.Change.pair (h : s.Change v moved told t) (hs : s.Gripped) {g : Head} {x y : Held} {p q : Placement}
    (hx : (s.heads[g]).held = [x]) (hy : (s.heads[otherHead g]).held = [y]) (hp : s.slots[x.slot] = some p)
    (hq : s.slots[y.slot] = some q) (hk : moved p.ctx ∨ moved q.ctx) (hsep : v.separated p q = false)
    (hrp : moved p.ctx → v.fullyReaches g p = true) (hrq : moved q.ctx → v.fullyReaches (otherHead g) q = true)
    (hwins : ¬ yields g ⟨g, x, p⟩ ⟨otherHead g, y, q⟩) :
    (t.heads[g]).held = [x] ∧ (t.heads[otherHead g]).held = [] ∧
      (q.state = .claimed → told (.claimLost (otherHead g)) ∧
        t.slots[y.slot] = some { q with state := .placed, head := none }) ∧
      (q.state = .cutting → t.LosesCut told (otherHead g) y.slot q) := by
  have hyin : y ∈ (s.heads[otherHead g]).held := hy ▸ List.mem_singleton_self y
  have hstays : ¬ s.mustGo v moved g x p := by
    rintro (⟨hk', hout⟩ | ⟨y', hy', q', hq', _, _, hyields⟩)
    · exact State.not_outOfReach (hrp hk') hout
    · rw [hy, List.mem_singleton] at hy'
      subst hy'
      obtain rfl := Option.some.inj (hq.symm.trans hq')
      exact hwins (hyields hx hy)
  have hxin := (h.waned.kept hs (hx ▸ List.mem_singleton_self x) hp hstays).1
  have hgone : y ∉ (t.heads[otherHead g]).held := fun hin =>
    absurd (hsep.symm.trans (h.apart hxin hin hp hq hk)) (by decide)
  obtain ⟨_, hclaim, hcut⟩ := h.waned.gone hs hyin hq hgone
  refine ⟨(singleton_of_sublist (hx ▸ h.waned.held g) hxin).1, ?_, fun hc => ?_, hcut⟩
  · refine List.eq_nil_iff_forall_not_mem.mpr fun z hz => hgone ?_
    have hzy : z ∈ [y] := hy ▸ (h.waned.held (otherHead g)).subset hz
    rwa [← List.mem_singleton.mp hzy]
  · exact ⟨(hclaim hc).lost, (hclaim hc).record_of_reaches hrq⟩

/-- A PLACED record goes exactly when it has passed every head, and every record that no head holds stays otherwise. -/
theorem State.Change.unheld (h : s.Change v moved told t) {n : SlotNo} {p : Placement} (hp : s.slots[n] = some p) :
    (p.state = .placed → moved p.ctx → v.passedAll p.ctx p.xlo = true → told .pieceMissed ∧ t.slots[n] = some p.missed) ∧
    ((p.state = .placed → moved p.ctx → v.passedAll p.ctx p.xlo = false) → p.state ≠ .claimed → p.state ≠ .cutting →
      t.slots[n] = some p) := by
  obtain ⟨q, hq, hf⟩ := h.waned.fate n p hp
  cases hf with
  | stays =>
    refine ⟨fun hs hk hpast => ?_, fun _ _ _ => hq⟩
    rw [(h.cleared p.ctx hk).past n p hq rfl hs] at hpast
    cases hpast
  | returned g x hx hn hc | lost g x hx hn hc =>
    exact ⟨fun hs => (by rw [hc] at hs; cases hs), fun _ hnot => absurd hc hnot⟩
  | spoiled g x hx hn hc => exact ⟨fun hs => (by rw [hc] at hs; cases hs), fun _ _ hnot => absurd hc hnot⟩
  | missed hs past missed =>
    refine ⟨fun _ _ _ => ⟨missed, hq⟩, fun hnot => ?_⟩
    exact absurd (past.2.symm.trans (hnot hs past.1)) (by decide)

/-- Which of two pieces of two heads stays: a cut rather than a claim, the earlier grant or start rather than the later. -/
theorem takenBefore_of_earlier {a b : HeldPiece} (h : (a.record.state = .cutting ∧ b.record.state = .claimed) ∨
      (a.record.state = .claimed ∧ b.record.state = .claimed ∧ a.held.grantOrder < b.held.grantOrder) ∨
      (a.record.state = .cutting ∧ b.record.state = .cutting ∧ a.held.startOrder.getD 0 < b.held.startOrder.getD 0)) :
    takenBefore b a = true ∧ takenBefore a b = false := by
  unfold takenBefore
  rcases h with ⟨ha, hb⟩ | ⟨ha, hb, hlt⟩ | ⟨ha, hb, hlt⟩ <;> simp [ha, hb] <;> omega

theorem State.Change.travelTaken (h : s.Change v moved told t) (hs : s.Gripped) : s.travelTaken t moved told := by
  have hb := h.waned.belt
  unfold State.travelTaken
  simp only [hb.fullyReaches, hb.reaches, hb.passedAll, hb.separated, hb.floor]
  refine ⟨h.waned.recounted, fun k hk ho hw => ?_, fun k hk ho hw => h.window.stands k ho fun _ => hw,
    fun g x p hx hp => ⟨fun hk hc hr => ?_, fun hk hc hr => ?_, fun hclaim hcut hsep => ?_⟩,
    fun g x hx => (h.waned.held g).subset hx, fun a ha b hb' hk => ?_, fun x y p q hx hy hp hq hk hsep hrp hrq => ?_,
    fun n p hp => h.unheld hp⟩
  · obtain ⟨hended, hcause, haway⟩ := h.window.shut k hk ho hw
    exact ⟨hended, hcause, State.searchesOn_eq_false.mpr haway⟩
  · have hout := h.not_held hp hk ((State.outOfReach_claimed hc).mpr hr)
    have hl := (h.waned.gone hs hx hp hout).2.1 hc
    exact ⟨hl.lost, hout, (h.claim_record hk hl).2, (h.claim_record hk hl).1⟩
  · have hout := h.not_held hp hk ((State.outOfReach_cutting hc).mpr hr)
    obtain ⟨haborted, hspoilt, hrecord⟩ := (h.waned.gone hs hx hp hout).2.2 hc
    exact ⟨haborted, hspoilt, hout, hrecord⟩
  · refine h.waned.kept hs hx hp ?_
    rintro (⟨hk, ⟨hc, hr⟩ | ⟨hc, hr⟩⟩ | ⟨y, hy, q, hq, hk, hclose, _⟩)
    · exact absurd (hr.symm.trans (hclaim hk hc)) (by decide)
    · exact absurd (hr.symm.trans (hcut hk hc)) (by decide)
    · exact absurd (hclose.symm.trans (hsep y hy q hq hk)) (by decide)
  · obtain ⟨ha, hpa⟩ := State.mem_heldRecords.mp ha
    obtain ⟨hb', hpb⟩ := State.mem_heldRecords.mp hb'
    exact h.apart ha hb' (h.waned.origin_held ha hpa) (h.waned.origin_held hb' hpb) hk
  · refine ⟨fun hfirst => ?_, fun hsecond => ?_⟩
    · have hwins : ¬ yields 0 ⟨0, x, p⟩ ⟨otherHead 0, y, q⟩ := by
        have ht := (takenBefore_of_earlier (a := ⟨0, x, p⟩) (b := ⟨otherHead 0, y, q⟩) hfirst).1
        unfold yields
        rw [if_pos rfl, ht]
        decide
      obtain ⟨h0, h1, hclaim, hcut⟩ := h.pair hs hx hy hp hq hk hsep hrp hrq hwins
      exact ⟨h0, h1, hclaim, fun hc => ⟨(hcut hc).aborted, (hcut hc).spoilt, (hcut hc).record⟩⟩
    · have hwins : ¬ yields 1 ⟨1, y, q⟩ ⟨otherHead 1, x, p⟩ := by
        have ht := (takenBefore_of_earlier (a := ⟨1, y, q⟩) (b := ⟨otherHead 1, x, p⟩)
          (hsecond.imp And.symm (Or.imp and_left_comm.mp and_left_comm.mp))).2
        unfold yields
        rw [if_neg (by decide), ht]
        decide
      rw [v.separated_comm] at hsep
      obtain ⟨h1, h0, hclaim, hcut⟩ := h.pair (g := 1) hs hy hx hq hp hk.symm hsep hrq hrp hwins
      exact ⟨h0, h1, hclaim, fun hc => ⟨(hcut hc).aborted, (hcut hc).spoilt, (hcut hc).record⟩⟩

end

end Sys2Proof.Machine
end

section
/-!
PROOFS. The events of an encoder transition, each a course of losses against the new cell travel of both contexts (R129,
R130).
-/

namespace Sys2Proof.Machine

open Sys2Proof

/-! ### One event -/

theorem Event.exhaust_sameBelt (e : Event) (k : Ctx) : e.state.SameBelt (e.exhaust k).state := by
  unfold Event.exhaust
  split
  · exact e.state.drainCtx_sameBelt k .exhausted
  · exact .refl _

theorem Event.travelChange_sameBelt (e : Event) (k : Ctx) : e.state.SameBelt (e.travelChange k).state :=
  (e.exhaust_sameBelt k).trans (.of_eq (by rw [(e.travelChange_pieces k).rest]) (e.travelChange_ctxs k))

theorem settle_sameBelt (before : State) (e : Event) : e.state.SameBelt (settle before e) :=
  ⟨settle_conveyor before e, settle_registered before e, settle_count before e⟩

theorem Event.travelChange_notices (e : Event) (k : Ctx) : (e.travelChange k).state.notices = e.state.notices := by
  rw [(e.travelChange_pieces k).rest]
  unfold Event.exhaust
  split
  · rw [Event.on_state, State.drainCtx_eq]
  · rfl

section
variable {s v u : State} {moved : Ctx → Prop} {told : Notice → Prop} {done : Ctx → Prop} {e : Event} {k : Ctx}

/-- A state with the pieces of another stands at the beginning of a course, under its own belt. -/
theorem State.Gripped.course (hs : s.Gripped) (slots : u.slots = s.slots) (entries : u.entries = s.entries)
    (heads : u.heads = s.heads) (he : e.state = u) : e.Course s u moved told fun _ => False := by
  subst he
  exact ⟨hs.waned slots entries heads, fun _ hj => hj.elim⟩

theorem Event.Course.settle_waned (h : e.Course s v moved told done) (before : State) {told' : Notice → Prop}
    (ht : ∀ m, told m ∨ e.raised m → told' m) : s.Waned v moved told' (Machine.settle before e) :=
  (h.waned.congr (settle_slots before e) (settle_entries before e) (settle_held before e)
    (settle_sameBelt before e)).mono ht

theorem Event.Course.settle_cleared (h : e.Course s v moved told done) (before : State) (j : Ctx) (hj : done j) :
    s.Cleared v j (Machine.settle before e) :=
  (h.cleared j hj).congr (settle_slots before e) (settle_held before e)

/-- After the tail of one event the next takes up the course. -/
theorem Event.Course.next (h : e.Course s v moved told done) (before : State) {told' : Notice → Prop}
    (ht : ∀ m, told m ∨ e.raised m → told' m) :
    (Machine.settle before e).begin.Course s v moved told' done :=
  ⟨(h.settle_waned before ht).mono fun _ => .inl, h.settle_cleared before⟩

/-- After the tail of the last event the change is complete. -/
theorem Event.Course.change (h : e.Course s v moved told done) (hw : s.Window v done e.state) (hd : ∀ j, moved j ↔ done j)
    (before : State) {told' : Notice → Prop} (ht : ∀ m, told m ∨ e.raised m → told' m) :
    s.Change v moved told' (Machine.settle before e) := by
  obtain rfl : moved = done := funext fun j => propext (hd j)
  exact ⟨h.settle_waned before ht, h.settle_cleared before, hw.settle before⟩

/-- Two states have the same pieces, queue and notices, and the same contexts but for count and registration. -/
structure State.Before (s u : State) : Prop where
  slots : u.slots = s.slots
  entries : u.entries = s.entries
  heads : u.heads = s.heads
  notices : u.notices = s.notices
  ctx : ∀ k : Ctx, u.ctxs[k] = { s.ctxs[k] with count := (u.ctxs[k]).count, registered := (u.ctxs[k]).registered }

theorem State.Before.window {u : State} (h : s.Before u) : s.Window u (fun _ => False) u :=
  ⟨fun _ hk => hk.elim, fun k _ _ => h.ctx k⟩

theorem State.heldWf.held_le_two (hs : s.heldWf) (g : Head) : (s.heads[g]).held.length ≤ 2 := (hs.1 g).1

/-- A change of one context's cell travel, as one event. -/
theorem State.heldWf.travelChange (hs : s.heldWf) (he : s.Before e.state) (k : Ctx) (before : State) :
    s.travelTaken (Machine.settle before (e.travelChange k)) (fun j => j = k)
      (s.raises (Machine.settle before (e.travelChange k))) := by
  have hstart := hs.gripped.course (moved := fun j => j = k) (told := fun _ => False) he.slots he.entries he.heads rfl
  have hcourse := hstart.travelChange (moved := fun j => j = k) rfl hs.held_le_two
  have hwindow := he.window.travelChange (.refl _) k
  refine (hcourse.change hwindow (fun j => (false_or _).symm ▸ Iff.rfl) before fun m hm => ?_).travelTaken hs.gripped
  exact settle_raises before _ m ((e.travelChange_notices k).trans he.notices) (hm.resolve_left id)

/-- A flag of the first of two events. -/
theorem State.raises.in_first {mid : State} {m : Notice} (h : s.raises mid m) (before : State) (e : Event)
    (he : e.state.notices = mid.notices) : s.raisesInTwo (Machine.settle before e) m := by
  obtain ⟨a, ha, hmid⟩ := h
  refine ⟨a, ((e.worked before).sig.raised)[m.port], FlagSet.bit_or_left _ _ _ ha, ?_⟩
  rw [settle_notice, he, hmid]

/-- A flag of the second of two events. -/
theorem State.raises.in_second {mid t : State} {m : Notice} {a : FlagSet} (h : mid.raises t m)
    (hmid : mid.notices[m.port] = (s.notices[m.port]).set m.port a) : s.raisesInTwo t m := by
  obtain ⟨b, hb, ht⟩ := h
  exact ⟨a, b, FlagSet.bit_or_right _ _ _ hb, by rw [ht, hmid]⟩

theorem eq_or_eq_otherCtx (j k : Ctx) : j = k ∨ j = otherCtx k := by
  revert j k
  decide

/-- Changes of both contexts' cell travel, as two events, each against the new cell travel of both (R130). -/
theorem State.heldWf.travelChanges (hs : s.heldWf) (he : s.Before e.state) (k : Ctx) {mid t : State}
    (hmid : mid = Machine.settle s (e.travelChange k))
    (ht : t = Machine.settle mid (mid.begin.travelChange (otherCtx k))) :
    s.travelTaken t (fun _ => True) (s.raisesInTwo t) := by
  have hstart := hs.gripped.course (moved := fun _ => True) (told := fun _ => False) he.slots he.entries he.heads rfl
  have hfirst := hstart.travelChange (k := k) trivial hs.held_le_two
  have hnext := hfirst.next s (told' := s.raises mid) fun m hm => by
    rw [hmid]
    exact settle_raises s _ m ((e.travelChange_notices k).trans he.notices) (hm.resolve_left id)
  rw [← hmid] at hnext
  have hsecond := hnext.travelChange (k := otherCtx k) trivial hs.held_le_two
  have hwindow := (he.window.travelChange (.refl _) k).settle s
  rw [← hmid] at hwindow
  have hwindow' := hwindow.travelChange (e := mid.begin) hnext.waned.belt (otherCtx k)
  subst ht
  refine (hsecond.change hwindow' (fun j => ?_) mid fun m hm => ?_).travelTaken hs.gripped
  · exact ⟨fun _ => (eq_or_eq_otherCtx j k).imp_left .inr, fun _ => trivial⟩
  · rcases hm with hm | hm
    · exact hm.in_first mid _ (Event.travelChange_notices _ _)
    · have hset := settle_notice s (e.travelChange k) m.port
      rw [← hmid, Event.travelChange_notices, he.notices] at hset
      exact (settle_raises mid _ m (Event.travelChange_notices _ _) hm).in_second hset

end

/-! ### Encoder transitions -/

theorem State.moveBelt_before (s : State) (tr : Transition) (a b : Bool) : s.Before (s.moveBelt tr a b) where
  slots := rfl
  entries := rfl
  heads := rfl
  notices := rfl
  ctx k := by
    simp only [State.moveBelt, get_map, HideContext.move]
    split <;> rfl

theorem State.turn_sameBelt (s : State) (tr : Transition) (a b : Bool) :
    (s.moveBelt tr a b).SameBelt (s.turn tr a b) :=
  s.turn_keeps tr a b (.refl _) fun u before k hu =>
    (hu.trans (u.begin.travelChange_sameBelt k)).trans (settle_sameBelt before _)

theorem State.turn_registered (s : State) (tr : Transition) (a b : Bool) (k : Ctx) :
    ((s.turn tr a b).ctxs[k]).registered = (s.ctxs[k]).registered := by
  rw [(s.turn_sameBelt tr a b).registered]
  simp only [State.moveBelt, get_map, HideContext.move]
  split <;> rfl

/-- An encoder transition is none, or turns the belt. -/
theorem execEncoderTransition_turns {a b : Bool} {s t : State} (h : exec (.encoderTransition a b) s = .next t) :
    t = s ∨ ∃ tr, t = s.turn tr a b := by
  have hexec : execEncoderTransition a b s = .next t := h
  unfold execEncoderTransition at hexec
  split at hexec <;> obtain rfl := Host.Outcome.next.inj hexec
  · exact .inl rfl
  all_goals exact .inr ⟨_, rfl⟩

theorem State.turn_one {s : State} {tr : Transition} {a b : Bool} {k : Ctx}
    (hk : s.travel k ≠ (s.moveBelt tr a b).travel k)
    (ho : s.travel (otherCtx k) = (s.moveBelt tr a b).travel (otherCtx k)) :
    s.turn tr a b = settle s ((s.moveBelt tr a b).begin.travelChange k) := by
  unfold State.turn travelEvent
  match k, hk, ho with
  | 0, hk, ho =>
    have ho : s.travel 1 = (s.moveBelt tr a b).travel 1 := ho
    dsimp only
    rw [if_neg (not_not.mpr ho), if_pos hk]
  | 1, hk, ho =>
    have ho : s.travel 0 = (s.moveBelt tr a b).travel 0 := ho
    dsimp only
    rw [if_pos hk, if_neg (not_not.mpr ho), if_neg (not_not.mpr ho)]

theorem State.turn_both {s : State} {tr : Transition} {a b : Bool}
    (hk : ∀ k : Ctx, s.travel k ≠ (s.moveBelt tr a b).travel k) {mid : State}
    (hmid : mid = settle s ((s.moveBelt tr a b).begin.travelChange 0)) :
    s.turn tr a b = settle mid (mid.begin.travelChange 1) := by
  unfold State.turn travelEvent
  dsimp only
  rw [if_pos (hk 0), if_pos (hk 1), if_pos (hk 0), hmid]

/-- What an encoder transition does to held pieces: one event for one change of cell travel, two for two (R130). -/
theorem State.heldWf.turn {s : State} (hs : s.heldWf) (tr : Transition) (a b : Bool) :
    (∀ k : Ctx, s.travel k ≠ (s.turn tr a b).travel k →
      s.travel (otherCtx k) = (s.turn tr a b).travel (otherCtx k) →
      s.travelTaken (s.turn tr a b) (fun j => j = k) (s.raises (s.turn tr a b))) ∧
    ((∀ k : Ctx, s.travel k ≠ (s.turn tr a b).travel k) →
      s.travelTaken (s.turn tr a b) (fun _ => True) (s.raisesInTwo (s.turn tr a b))) := by
  have hbelt := s.turn_sameBelt tr a b
  have hbefore := s.moveBelt_before tr a b
  simp only [hbelt.travel]
  refine ⟨fun k hk ho => ?_, fun hk => ?_⟩
  · rw [State.turn_one hk ho]
    exact hs.travelChange (e := (s.moveBelt tr a b).begin) hbefore k s
  · exact hs.travelChanges (e := (s.moveBelt tr a b).begin) hbefore 0 rfl (State.turn_both hk rfl)

theorem execEncoderTransition_takes {a b : Bool} {s t : State} (h : exec (.encoderTransition a b) s = .next t) :
    (∀ k : Ctx, (t.ctxs[k]).registered = (s.ctxs[k]).registered) ∧
    (s.heldWf →
      (∀ k : Ctx, s.travel k ≠ t.travel k → s.travel (otherCtx k) = t.travel (otherCtx k) →
        s.travelTaken t (fun j => j = k) (s.raises t)) ∧
      ((∀ k : Ctx, s.travel k ≠ t.travel k) → s.travelTaken t (fun _ => True) (s.raisesInTwo t))) := by
  rcases execEncoderTransition_turns h with rfl | ⟨tr, rfl⟩
  · exact ⟨fun _ => rfl, fun _ => ⟨fun k hk => absurd rfl hk, fun hk => absurd rfl (hk 0)⟩⟩
  · exact ⟨s.turn_registered tr a b, fun hs => hs.turn tr a b⟩

end Sys2Proof.Machine
end

section
/-!
PROOFS. A registration by a hide edge as a change of cell travel (R123, R161), and the obligation on changes of cell travel.
-/

namespace Sys2Proof.Machine

open Sys2Proof

/-! ### Which context a hide edge registers -/

theorem State.qualifies_iff {s : State} {k : Ctx} : s.qualifies k = true ↔ s.awaitsEdge k := by
  unfold State.qualifies State.awaitsEdge CtxState.cuttable
  simp

theorem State.qualifies_eq_false {s : State} {k : Ctx} : s.qualifies k = false ↔ ¬ s.awaitsEdge k := by
  rw [← State.qualifies_iff, Bool.not_eq_true]

/-- The contexts in age order are a context and the other one, either way about, the one with open rank FIRST first. -/
theorem State.ageOrder_cases (s : State) (k : Ctx) :
    s.ageOrder = [k, otherCtx k] ∨ (s.ageOrder = [otherCtx k, k] ∧
      ((s.ctxs[k]).rank ≠ some .first ∨ (s.ctxs[otherCtx k]).rank = some .first)) := by
  unfold State.ageOrder
  match k with
  | 0 =>
    split
    · rename_i h
      exact .inr ⟨rfl, .inr h⟩
    · exact .inl rfl
  | 1 =>
    split
    · exact .inl rfl
    · rename_i h
      exact .inr ⟨rfl, .inl h⟩

theorem State.takesEdge.registrable {s : State} {k : Ctx} (h : s.takesEdge k) : s.registrable = some k := by
  obtain ⟨hk, hother⟩ := h
  have hq := State.qualifies_iff.mpr hk
  unfold State.registrable
  rcases s.ageOrder_cases k with ho | ⟨ho, hrank⟩ <;> rw [ho]
  · rw [List.filter_cons, if_pos hq]
    rfl
  · rcases hother with hother | ⟨hfirst, hsecond⟩
    · rw [List.filter_cons, if_neg (by rw [State.qualifies_eq_false.mpr hother]; decide), List.filter_cons, if_pos hq]
      rfl
    · rw [hsecond] at hrank
      exact absurd hfirst (hrank.resolve_right (by decide))

/-! ### The registration -/

/-- A hide edge that registers a context is a change of its cell travel (R123). -/
theorem Event.hideEdge_of_registrable {e : Event} {k : Ctx} (h : e.state.registrable = some k) :
    ∃ e' : Event, e'.state = e.state.register k ∧ e.hideEdge = e'.travelChange k := by
  unfold Event.hideEdge
  rw [h]
  exact ⟨_, rfl, rfl⟩

theorem State.register_before {s u : State} (hu : u = { s with lines := u.lines }) (k : Ctx) : s.Before (u.register k) := by
  rw [hu]
  refine ⟨rfl, rfl, rfl, rfl, fun j => ?_⟩
  simp only [State.register, State.updCtx, get_set]
  split <;> simp_all

theorem State.travel_of_count_zero {s : State} {k : Ctx} (h : (s.ctxs[k]).count = 0) : s.travel k = 0 := by
  unfold State.travel
  rw [h]
  simp

theorem State.register_travel (s : State) (k : Ctx) : (s.register k).travel k = 0 := by
  refine State.travel_of_count_zero ?_
  simp only [State.register, State.updCtx, get_set]
  rfl

/-- The event of a hide edge that registers a context takes the consequences of a cell travel of 0. -/
theorem State.heldWf.hideEdge {s u : State} (hs : s.heldWf) (hu : u = { s with lines := u.lines }) {k : Ctx}
    (hk : s.takesEdge k) (before : State) :
    (settle before u.begin.hideEdge).travel k = 0 ∧
      s.travelTaken (settle before u.begin.hideEdge) (fun j => j = k) (s.raises (settle before u.begin.hideEdge)) := by
  have hreg : u.registrable = some k := by
    rw [hu]
    exact hk.registrable
  obtain ⟨e, he, hedge⟩ := Event.hideEdge_of_registrable (e := u.begin) hreg
  have he : e.state = u.register k := he
  rw [hedge]
  refine ⟨?_, hs.travelChange (he ▸ State.register_before hu k) k before⟩
  rw [((e.travelChange_sameBelt k).trans (settle_sameBelt before _)).travel, he]
  exact u.register_travel k

theorem State.changeLevel_hideEdge {s : State} {l : LineNo} (h : (s.lines[l]).function = .hideEdge) :
    s.changeLevel l true = settle s (s.updLine l fun x => x.take true).begin.hideEdge := by
  unfold State.changeLevel
  rw [h]
  rfl

theorem execDebounceExpiry_candidate {l : LineNo} {s : State} {d : Bool} {c : LevelCandidate}
    (h : (s.lines[l]).work = .input d (some c)) : exec (.debounceExpiry l) s = .next (s.changeLevel l c.level) := by
  show execDebounceExpiry l s = _
  unfold execDebounceExpiry
  rw [h]

/-- A line without debounce follows its pin at once (R161). -/
theorem State.followPin_at_once {u : State} {l : LineNo} {d : Bool} (hw : (u.lines[l]).work = .input d none)
    (hd : (u.lines[l]).debounce = 0) (hl : (u.lines[l]).logical ≠ d) :
    u.followPin l = u.changeLevel l (u.lines[l]).logical := by
  unfold State.followPin
  dsimp only
  rw [hw]
  dsimp only
  rw [if_neg hl, if_pos hd]

theorem execLinePinChange_at_once {l : LineNo} {v d : Bool} {s : State} (hv : (s.lines[l]).pin ≠ v)
    (hw : (s.lines[l]).work = .input d none) (hd : (s.lines[l]).debounce = 0) (hl : xor v (s.lines[l]).invert ≠ d) :
    exec (.linePinChange l v) s =
      .next ((s.updLine l fun x => { x with pin := v }).changeLevel l (xor v (s.lines[l]).invert)) := by
  have hline : (s.updLine l fun x => { x with pin := v }).lines[l] = { s.lines[l] with pin := v } := by
    rw [State.updLine_lines, get_set, if_pos rfl]
  have hlogical : ((s.updLine l fun x => { x with pin := v }).lines[l]).logical = xor v (s.lines[l]).invert := by
    rw [hline]
    rfl
  show execLinePinChange l v s = _
  unfold execLinePinChange
  rw [if_neg hv, State.followPin_at_once (by rw [hline]; exact hw) (by rw [hline]; exact hd) (by rw [hlogical]; exact hl),
    hlogical]

/-! ### The obligation -/

theorem State.passedAll_iff (s : State) (k : Ctx) (x : Nat) : s.passedAll k x = true ↔
    (∃ h : Head, (s.conveyor.reach[h]).present = true) ∧ ∀ h : Head, (s.conveyor.reach[h]).present = true →
      (x : Int) ≤ (s.travel k : Int) - (s.conveyor.reach[h]).start - (s.conveyor.reach[h]).length := by
  have hmem : ∀ h : Head, h ∈ [(0 : Head), 1] := by decide
  unfold State.passedAll State.passed
  rw [Bool.and_eq_true, List.any_eq_true, List.all_eq_true]
  refine and_congr ⟨fun ⟨h, _, hp⟩ => ⟨h, hp⟩, fun ⟨h, hp⟩ => ⟨h, hmem h, hp⟩⟩
    ⟨fun hall h hp => ?_, fun hall h _ => ?_⟩
  · have hpast := hall h (hmem h)
    rw [hp] at hpast
    exact of_decide_eq_true hpast
  · cases hp : (s.conveyor.reach[h]).present with
    | false => rfl
    | true => simpa using hall h hp

/-- Settles O35: each event of a change of cell travel is a course of losses, each with its reason, after which the context
has nothing left to lose. -/
theorem travelChangeTakesItsConsequences : Obligations.TravelChangeTakesItsConsequences := by
  unfold Obligations.TravelChangeTakesItsConsequences
  refine ⟨State.passedAll_iff, fun a b s t h => execEncoderTransition_takes h, fun l s d k hf hs hk =>
    ⟨fun c hw hc => ?_, fun v hv hw hd hd0 hl => ?_⟩⟩
  · refine ⟨_, execDebounceExpiry_candidate hw, ?_⟩
    rw [hc, State.changeLevel_hideEdge hf]
    exact hs.hideEdge rfl hk s
  · refine ⟨_, execLinePinChange_at_once hv hw hd (by rw [hl, hd0]; decide), ?_⟩
    rw [hl, State.changeLevel_hideEdge]
    · exact hs.hideEdge rfl hk _
    · rw [State.updLine_lines, get_set, if_pos rfl]
      exact hf

end Sys2Proof.Machine
end
